-- ==== Sys2Proof/Word.lean ====
section
/-! DEFINITION. The words of the part: registers are 32 bits wide (00_scope.md, Registers and access codes), packet,
image and bus data are bytes. -/
namespace Sys2Proof

/-- A register word. -/
abbrev Word := BitVec 32

/-- A byte of a packet, an image or a bus transfer. -/
abbrev Byte := BitVec 8

end Sys2Proof
end

