-- ==== Sys2Proof/Syntax.lean ====
section
/-! DEFINITION. The commands of the part: one constructor for each row of spec/opcode_table.json, in its order. The table
gives the rows no operands and no bits; a constructor carries what the rule it names lets the command depend on (log
entry 1). -/
namespace Sys2Proof

/-- A command. Each constructor names its row's rule; the codes of converters and monitors are operands (log entry 67). -/
inductive Instr where
  /-- The filtered PORn input rises and the device enters SAFE_BOOT (R428). -/
  | pornRise
  /-- PORn falls while in SAFE or HALT_CONFIG, so that SAFE_BOOT follows on its rise (R28). -/
  | pornFall
  /-- VDDAON falls below its monitor threshold; the safety partition resets and the device is OFF (R410). -/
  | vddaonLoss
  /-- 1 ms after PORn rises, GAL10 to GAL18 are sampled once into ID_STRAP (R429). -/
  | strapSample (levels : Nat)
  /-- Reading of the chip bank, its lock fuses and the enforcement fuse into the shadows completes in SAFE_BOOT
  (R462). -/
  | fuseBankShadowDone (ws : List (Nat × Nat × Nat))
  /-- PLL_MAIN locks after reset and device time starts at 0 (R18). -/
  | pllMainLock
  /-- LOAD has not been entered 10 ms after PORn rose, so the device enters SAFE with REFCLK_LOSS or PLL_LOSS
  (R32). -/
  | startupTimeout
  /-- An xSPI read burst of at most 4 KiB completes and its data passes to the loader (R433). -/
  | xspiBurstDone (data : List Byte)
  /-- A burst does not complete within 100 µs, and that read of the item counts as timed out (R433). -/
  | xspiBurstTimeout
  /-- The pause set by a DELAY entry ends and the loader resumes the write list (R435). -/
  | writeListDelayEnd
  /-- The ECDSA check of the image digest ends and SIGOK is reported (R439). -/
  | signatureCheckDone
  /-- A block controller completes reading its strip and cell words into the trim shadows (R462). -/
  | blockOtpReadDone (b : Nat) (good : Bool) (ws : List (Nat × Nat × Nat))
  /-- SPD reading, RCD programming and DDR5 training of the channels complete (R235). -/
  | cisternInitDone (chans : List (Nat × Nat × Nat × Nat))
  /-- The revert after a failed slot completes and the loader starts on the next slot's header (R443). -/
  | slotRevertDone
  /-- Sections, signature check, trim shadows and cistern initialisation are all complete, so the slot is accepted
  (R440). -/
  | slotAccept
  /-- A transfer on the SPD bus completes, acknowledged or not, and failures are retried (R452). -/
  | spdTransferDone (n : Nat) (ack : Bool)
  /-- An SPD transfer stalls for more than 10 ms and is ended with STOP and then retried (R453). -/
  | spdTransferTimeout (n : Nat)
  /-- Every 10 ms each SPD hub temperature is read, which doubles refresh above 85 °C and loses the channel above
  TCRIT (R236). -/
  | spdTempPoll (temps : List (Option Nat))
  /-- 64 consecutive valid return-lane blocks give RT block lock, which moves a training group from CLOCK to
  PATTERN (R294). -/
  | rtBlockLock (g : Nat)
  /-- 16 invalid blocks within 64 lose RT block lock and start a new alignment search (R294). -/
  | rtLockLoss (g : Nat)
  /-- A return-lane IDLE message arrives and counts as a valid block for the timeout (R294). -/
  | idle (g : Nat)
  /-- A CREDIT message updates the group's cumulative credit limit or is discarded as out of range (R298). -/
  | credit (g seq limit : Nat)
  /-- ACK PATTERN_OK ends the PATTERN step; markers start at the next marker slot (R291). -/
  | patternOk (g seq : Nat)
  /-- ACK MARKER_OK with an initial credit limit moves the group to ACTIVE (R291). -/
  | markerOk (g seq limit : Nat)
  /-- A PHASE message sets a lane's transmit delay tap in PATTERN, and is discarded outside it (R291). -/
  | phase (g seq lane tap : Nat)
  /-- WADDR on the control group sets the return-lane write pointer (R296). -/
  | waddr (g seq addr : Nat)
  /-- WDATA writes an RWC register or a commit at the pointer and advances it by 4, or is discarded (R296). -/
  | wdata (g seq : Nat) (v : Word)
  /-- RCFRM names the frame for the next return-lane recall (R297). -/
  | rcfrm (g seq frame : Nat)
  /-- RCGO submits a recall of the last RCFRM frame, whatever the live-parameter source (R297). -/
  | rcgo (g seq first last vc : Nat)
  /-- A return-lane message of reserved type, or on the wrong group, is discarded and counted in RTDISC (R295). -/
  | rtReservedType (g seq : Nat)
  /-- A training step does not complete within PHTO, so the group returns to CLOCK and RETRY increments (R291). -/
  | trainingStepTimeout (g : Nat)
  /-- The strap-selected training timeout expires without the RUN condition, so untrained groups restart and
  TRAINTO is set (R30). -/
  | trainingTimeout
  /-- Every 16,384 blocks, each active lane sends a MARKER with COUNT and BIP in the common slot (R288). -/
  | alignmentMarker
  /-- Every 1 ms each ACTIVE group sends a heartbeat packet on HBVC (R333). -/
  | linkHeartbeat (g : Nat)
  /-- No valid RT block arrives for RTTO, so an ACTIVE group fails, or a training group returns to CLOCK (R303). -/
  | returnLaneTimeout (g : Nat)
  /-- A group clock fault fails the link group as in Table 1-6 (R35). -/
  | linkGroupClockFault (g : Nat)
  /-- The head packet has waited for credits longer than CRTT, so credits count as withheld (R300). -/
  | creditWithhold (g : Nat)
  /-- Credits stay withheld for CRTO, so CRSTALL is set (R302). -/
  | creditStall (g : Nat)
  /-- A group starts sending its head packet once it holds enough credits (R286). -/
  | packetSend (g : Nat)
  /-- Writing 1 to an LK_GRPEN bit of an OFF group starts its training (R307). -/
  | groupEnable (g : Nat)
  /-- Writing 0 to an LK_GRPEN bit of a group that is not OFF fails it with CAUSE RETIRED (R307). -/
  | groupDisable (g : Nat)
  /-- Writing 1 to an LK_RETIRE bit fails that group as under R306 (R307). -/
  | groupRetire (g : Nat)
  /-- Writing 1 to an LK_PRBSTX bit puts the group in PRBS, or is refused for a mapped or control group (R308). -/
  | prbsTxStart (g : Nat)
  /-- Writing 0 to an LK_PRBSTX bit returns the group to MARKER with USED at 0 (R308). -/
  | prbsTxStop (g : Nat)
  /-- Writing 1 to an LK_PRBSRT bit clears LK_RTERRg and switches the return lane to PRBS checking (R309). -/
  | prbsRtStart (g : Nat)
  /-- Writing 0 to an LK_PRBSRT bit returns the lane to message mode (R309). -/
  | prbsRtStop (g : Nat)
  /-- 64 consecutive correct bits put the return-lane checker in sync (R309). -/
  | rtPrbsSync (g : Nat)
  /-- 64 errors within 1,024 bits lose checker sync, and the checker resynchronises (R309). -/
  | rtPrbsSyncLoss (g : Nat)
  /-- Every 8 µs the rig master sends a TIME message on RIG_OUT (R77). -/
  | rigTimeSend
  /-- Every 1 ms a non-master sends a PROBE upstream on RIG_IN (R311). -/
  | rigProbeSend
  /-- A TIME message gives the offset e for alignment and is forwarded downstream (R77). -/
  | rigTimeReceive (alive hop t : Nat)
  /-- A received PROBE is answered with a PROBE_REPLY that carries the turnaround (R311). -/
  | rigProbeReceive (alive hop t : Nat)
  /-- A PROBE_REPLY sets the link delay to (round trip − turnaround)/2 (R311). -/
  | rigProbeReplyReceive (alive hop t turn : Nat)
  /-- A FRAMEBC message is forwarded, and with RIGSYNC it schedules a frame start at its te (R96). -/
  | rigFramebcReceive (alive hop te : Nat)
  /-- A forwarded tracking FIX is queued for forwarding and offered to remote pointing sources (R202). -/
  | rigFixReceive (alive hop : Nat) (fix : List Byte)
  /-- No valid TIME message arrives for 64 µs, so RSTATE becomes FREE and LOSSCNT increments (R80). -/
  | rigInTimeout
  /-- LK_ESCFG GO starts an offset-sampler scan on a rig lane, and is ignored while one runs (R313). -/
  | eyeScanStart (v : Word)
  /-- A scan of 2^(16 + DWELL) bits ends, and its mismatches are reported in LK_ESRES (R313). -/
  | eyeScanDone (n : Nat)
  /-- A write to TB_nCFG puts the channel in OFF, LOCKING or TRACK according to SRC (R60). -/
  | tbCfgWrite (n : Nat) (v : Word)
  /-- A filtered quadrature edge on an encoder pin is counted (R64). -/
  | encoderEdge (n : Nat) (a b : Bool)
  /-- An index pulse zeroes the count after LOCKING, or sets IDXERR if the count is off by more than 1 (R67). -/
  | indexPulse (n : Nat)
  /-- The channel travels IDXTO revolutions without an index pulse, so IDXLOST is set (R67). -/
  | indexTimeout (n : Nat)
  /-- A sync pulse is accepted as a measurement or rejected as early with PERIODERR (R68). -/
  | syncPulse (n : Nat)
  /-- No sync pulse is accepted within PMAX, so SYNCMISS is set and the channel enters COAST (R68). -/
  | syncMiss (n : Nat)
  /-- Every 1 µs each channel's α-β estimator takes its accepted measurements and advances (R74). -/
  | tbUpdate
  /-- A channel stays in COAST longer than COASTMAX and enters LOST (R71). -/
  | coastTimeout (n : Nat)
  /-- No filter output arrives for a resolver channel within twice its previous interval, so the measurement counts
  as missing (R72). -/
  | resolverOutputTimeout (n : Nat)
  /-- A read of TB_nPOS captures TB_nPOSF and TB_nRATE from the same update (R76). -/
  | posRead (n : Nat)
  /-- A read of TB_TIMELO captures the upper device-time word into TB_TIMEHI (R18). -/
  | timeloRead
  /-- Writing EV_nCFG.ARM = 1 latches the slot's registers and arms it, or records a re-arm (R81). -/
  | slotArm (n : Nat) (v : Word)
  /-- Writing ARM = 0 disarms an uncommitted slot or cancels a recorded re-arm (R81). -/
  | slotDisarm (n : Nat) (v : Word)
  /-- A NONE action executes at te and latches the position into the slot history only (R86). -/
  | actNone (n : Nat)
  /-- A START_FRAME execution at te starts a frame or a burst of L frames (R133). -/
  | startFrame (n : Nat)
  /-- A START_EXP execution moves class k's exposure start in the next armed, untransferred frame (R113). -/
  | startExp (n : Nat)
  /-- A START_TRACK execution starts a tap B sub-exposure in every cell of the plan entry's enabled windows (R182).
  -/
  | startTrack (n : Nat)
  /-- A SENSE_REG execution delivers a regular sequence trigger to a sense unit (R347). -/
  | senseReg (n : Nat)
  /-- A SENSE_INJ execution delivers an injected sequence trigger to a sense unit (R349). -/
  | senseInj (n : Nat)
  /-- A GAL_SET execution drives a gallery pin to a level within 8 ns of te (R86). -/
  | galSet (n : Nat)
  /-- A GAL_PULSE execution drives a gallery pin to the pulse level for TB_PULSE.WIDTH (R86). -/
  | galPulse (n : Nat)
  /-- The GAL_PULSE width expires and the pin is driven to the opposite level (R86). -/
  | galPulseEnd (p : Nat)
  /-- A FILTER_RESET execution synchronously resets one or all filter channels and starts settling (R372). -/
  | filterReset (n : Nat)
  /-- A LATCH execution latches device time and all four channels, and sends a latch record (R93). -/
  | latch (n : Nat)
  /-- A trigger held pending executes as soon as its target is free, with its lateness recorded (R103). -/
  | pendingTriggerExecute (n : Nat)
  /-- An edge arrives on the TB_TRIG pin and qualification begins (R95). -/
  | triggerEdge (level : Bool)
  /-- The pin has held its new level for MINW, so the frame trigger qualifies and its start is fixed 100 ns later
  (R95). -/
  | triggerQualify
  /-- A frame's arming point arrives, and its settings, commit, geometry, span and skip decision are fixed (R102). -/
  | armingPoint
  /-- At a class's start instant, its cells are released from RESET to integrate (R111). -/
  | classExposureStart (k : Nat)
  /-- A frame held back by a busy readout or tap starts as soon as its transfer can follow VBMIN (R98). -/
  | lateFrameStart
  /-- A tap is flushed before the first steer of an exposure (R47). -/
  | flush (tapB : Bool)
  /-- A STEER completes, ending an exposure or slice in its tap (R46). -/
  | steerDone (k : Nat)
  /-- A row's slot start arrives; fill rows of failed units are generated at slot times (R152). -/
  | rowSlotStart
  /-- Slot, converter and queue room all allow it, so a row starts converting (R152). -/
  | rowConvertStart (c : Nat)
  /-- A row's conversions complete and its entry is written to the cell queue (R166). -/
  | rowConversionDone (c : Nat) (hcg lcg : List Nat)
  /-- At an entry boundary the block arbiter moves the next entry, tracking first, round-robin (R168). -/
  | blockArbiterEntry (b : Nat)
  /-- A corrected row entry leaves its stage-1 lane (R205). -/
  | s1EntryOut (r : Nat)
  /-- The frame's readout ends at t_end after its transfer (R153). -/
  | readoutEnd
  /-- All data packets have left or been dropped, so exposure map, fill list and footer are sent (R320). -/
  | frameClose (v : Nat)
  /-- A frame's statistics are complete and are sent, and the local exposure loop takes them (R121). -/
  | statsComplete
  /-- A non-empty cell queue is not served for 4,000 CLK_SEQ cycles, a block-level failure (R12). -/
  | blockArbiterTimeout (b : Nat)
  /-- A block holding data is not served for 20,000 pipeline cycles, a region-level failure (R12). -/
  | regionArbiterTimeout (r : Nat)
  /-- An uncorrectable error in a stage-1 memory fails the region, or voids a shading or defect word (R228). -/
  | lineMemoryError (kind x y : Nat)
  /-- A switched domain loses power-good while on; it is switched off with its stated effect (R399). -/
  | domainPowerGoodLoss (d : Nat)
  /-- A switched-on block finishes power-good, settling and trim reload, and becomes ready (R164). -/
  | blockReady (b : Nat) (ws : List (Nat × Nat × Nat))
  /-- STEER B of a sub-exposure completes and tap A integration resumes or RESET follows (R183). -/
  | subexposureEnd
  /-- After the stagger, a cell's tracking read becomes pending and takes the converter next (R188). -/
  | trackReadPending (c : Nat)
  /-- A tracking read completes and writes its 112-byte entry (R188). -/
  | trackReadDone (c : Nat) (codes : List Nat)
  /-- All samples of a window arrive, so centroid, moments and confidence are computed and the record is sent
  (R191). -/
  | trackResult
  /-- At its update microsecond, a pointing channel builds a message from its newest fixes and hands it to the
  guard (R194). -/
  | pointingUpdate (n : Nat)
  /-- Once the port is free, the next pointing message is sent on PNT_DAT with PNT_FRM (R198). -/
  | pointingMessageSend
  /-- TOUT passes with no message of a served channel, so own-account holding begins (R418). -/
  | guardTimeout (n : Nat)
  /-- GPER expires for a holding channel and the guard sends a HOLD message (R418). -/
  | guardHoldPeriod (n : Nat)
  /-- EX_COMMIT.GO stamps the commit, copies the capture shadow set and increments the generation (R135). -/
  | captureCommit
  /-- CP_COMMIT.GO copies the processing shadow set and increments the processing generation (R274). -/
  | stage2Commit
  /-- EX_DARKCMD.START begins a dark-reference capture, or is refused with DARK_MODE (R141). -/
  | darkStart
  /-- EX_DARKCMD.ABORT ends the capture with DARK_ABORT and the previous table is kept (R143). -/
  | darkAbort
  /-- CS_RINGCMD.FREEZE moves a RUNNING ring to POSTING (R251). -/
  | ringFreeze
  /-- CS_RINGCMD.RELEASE returns a frozen ring to RUNNING once pending recalls are done (R252). -/
  | ringRelease
  /-- An edge arrives on the CS_RINGTRIG pin (R251). -/
  | ringTriggerEdge (up : Bool)
  /-- The ring pin has held its level for MINW, so it acts as a freeze trigger (R251). -/
  | ringTriggerQualify
  /-- A raster frame has been fully written to its cistern slot or ring slot (R250). -/
  | rasterFrameStored
  /-- The output read of a stored frame starts and its raster header is sent on OVC (R321). -/
  | rasterOutputStart
  /-- An accumulation group completes and its 16-bit result is sent (R253). -/
  | accGroupDone
  /-- A frame's last stored row is written, so it enters stage 2 and its paced read starts (R261). -/
  | stage2Entry
  /-- The rows that a processed output row needs have been read, so the row is processed and sent (R281). -/
  | stage2RowOut (err : Nat)
  /-- The paced stage-2 read of a frame ends (R261). -/
  | stage2ReadEnd
  /-- CS_RCCMD.GO submits a recall request, which takes an ID or is refused (R255). -/
  | recallSubmit (vc : Nat)
  /-- A queued recall reaches service at class-4 priority and its reads begin (R255). -/
  | recallStart
  /-- The last packet of a recall is sent with END and RESULT becomes DONE (R255). -/
  | recallEnd
  /-- A command-address parity error is retried, and more than 8 within 1 ms lose the channel (R237). -/
  | caParityError (n : Nat)
  /-- A cistern word reads with an error, which is corrected, or sent as a MEMERR fill line, or drops the packet
  (R257). -/
  | memoryEccError (kind x y : Nat)
  /-- Re-admission after a channel loss completes and applies from the next armed frame (R244). -/
  | readmissionDone
  /-- A write to CE_CTL.TEST sets CRC test access, accepted only in STANDBY (R331). -/
  | ceTestSet (v : Word)
  /-- In TEST, a write to CE_DATA feeds 4 bytes into CRC unit SEL (R331). -/
  | ceDataWrite (v : Word)
  /-- In TEST, a write to CE_nVAL sets the running value of CE0 to CE2 (R331). -/
  | ceValWrite (n : Nat) (v : Word)
  /-- RDLY or IDLY after acceptance, a sense sequence starts its conversions (R347). -/
  | sequenceStart (u : Nat) (inj : Bool)
  /-- A slice conversion completes, and an entry's last one yields its averaged, timestamped result (R346). -/
  | senseConversionDone (u : Nat) (code : Int)
  /-- At each whole millisecond, the spare slice replaces the longest-serving slice (R342). -/
  | sliceHandover (u : Nat)
  /-- A spare-slice calibration completes, updating offset and gain or failing the slice (R343). -/
  | sliceCalibrationDone (u sl : Nat) (ofs gain : Int)
  /-- SA_CFG.EN written from 0 to 1 enables the unit and applies PAIR and CONT (R360). -/
  | senseEnable (u : Nat) (v : Word)
  /-- EN cleared lets conversions in progress complete and discards partial entries and a pending trigger (R359). -/
  | senseDisable (u : Nat) (v : Word)
  /-- SA_ZCMD.GO starts a 1,024-conversion zero calibration, or is refused with ZERO_BUSY (R357). -/
  | zeroCalStart (v : Word)
  /-- A zero calibration ends, storing the offset or giving ZERO_IMPLAUSIBLE (R358). -/
  | zeroCalDone (u : Nat)
  /-- A read of SA_RESk or SA_INJj captures the entry's timestamp words (R353). -/
  | senseResultRead (u k : Nat)
  /-- A latched sense result is processed in its channel's cycle of the next engine round (R362). -/
  | filterInput (n : Nat)
  /-- A write to FE_FCnCFG or FE_FCnDEC resets the channel and starts its settling count (R372). -/
  | filterConfigWrite (n : Nat) (dec : Bool) (v : Word)
  /-- A read of FE_FCnOUT captures FE_FCnSTAT and FE_FCnTCOR (R370). -/
  | filterOutputRead (n : Nat)
  /-- Every 1 ms all 24 temperature sensors are sampled and tgov and the throttle levels are updated (R385). -/
  | sensorSample (xs : List (Option Int))
  /-- PM_CMD.SLEEP in RUN enters STANDBY, and the picture domains power down as readouts end (R401). -/
  | sleep
  /-- PM_CMD.WAKE in STANDBY returns the device to RUN (R401). -/
  | wake
  /-- A 24-cycle REFCLK count window ends, and two bad windows in a row are a REFCLK loss (R408). -/
  | refclkWindow (count : Nat)
  /-- PLL_MAIN, PLL_CSn or PLL_PV loses lock, with SAFE, channel loss or preview disable (R19). -/
  | pllLockLoss (which : Nat)
  /-- A rail stays outside its window for 32 oscillator cycles and trips its monitor (R410). -/
  | supplyTrip (rail : Nat) (high : Bool)
  /-- Every 1 ms the safety oscillator is measured against CLK_CORE, and OSCERR is set if it is out of range
  (R409). -/
  | oscCheck (khz : Nat)
  /-- A safety heartbeat word arrives and, if valid, restarts the watchdog timer (R412). -/
  | safetyHeartbeat (word : List Byte)
  /-- The watchdog reaches 5 ms without a valid heartbeat and SAFE is entered (R413). -/
  | watchdogTrip
  /-- At a bus-free condition the device requests an in-band interrupt for an enabled, unsignalled source (R424). -/
  | ibiRequest (ack : Bool)
  /-- An I3C private write transaction applies its words in one cycle, or is discarded whole (R449). -/
  | i3cPrivateWrite (bytes : List Byte) (parity : Bool)
  /-- BUSTO µs pass without an SCL edge, so the transaction is discarded or SDA is released (R449). -/
  | i3cBusTimeout (reading : Bool)
  /-- The ENEC CCC enables target events (R448). -/
  | enec
  /-- The DISEC CCC disables target events (R448). -/
  | disec
  /-- The RSTDAA CCC resets the dynamic address (R448). -/
  | rstdaa
  /-- The ENTDAA CCC assigns a dynamic address by arbitration (R448). -/
  | entdaa (a : Nat)
  /-- The SETDASA CCC assigns a dynamic address at the static address (R448). -/
  | setdasa (a : Nat)
  /-- The SETNEWDA CCC changes the dynamic address (R448). -/
  | setnewda (a : Nat)
  /-- The GETPID CCC returns the provisioned ID (R448). -/
  | getpid
  /-- The GETBCR CCC returns the bus characteristics register (R448). -/
  | getbcr
  /-- The GETDCR CCC returns the device characteristics register (R448). -/
  | getdcr
  /-- The GETSTATUS CCC returns the target status (R448). -/
  | getstatus
  /-- The GETMWL CCC returns a maximum write length of 1,027 bytes (R448). -/
  | getmwl
  /-- The GETMRL CCC returns a maximum read length of 1,024 bytes (R448). -/
  | getmrl
  /-- An unsupported direct CCC is NACKed and counted, and an unsupported broadcast CCC is ignored (R448). -/
  | unsupportedCcc (direct : Bool)
  /-- OT_CMD READ senses a word at both margins and reports its raw words and class (R465). -/
  | otpRead (ws : List (Nat × Nat × Nat))
  /-- OT_CMD PROGRAM starts programming a word, or is refused with a result code (R466). -/
  | otpProgram (key : Nat) (supply : Bool)
  /-- OT_CMD LOCK checks the area header and blows its lock fuses, or refuses (R473). -/
  | otpLock (key : Nat) (supply : Bool)
  /-- OT_CMD FORCELOCK blows an area's lock fuses without the header check (R474). -/
  | forcelock (key : Nat) (supply : Bool)
  /-- OT_CMD ENFORCE blows the signature enforcement fuses (R476). -/
  | enforce (key : Nat) (supply : Bool)
  /-- A programming pulse completes and the next pulse or the verify read follows (R468). -/
  | otpPulseDone (lo hi : Nat) (supply : Bool)
  /-- A verify read completes, and the command ends DONE or PROG_FAIL or starts another round (R467). -/
  | otpVerifyDone (ws : List (Nat × Nat × Nat))
  /-- A write to a register with no row of its own takes effect on each field as its access code states (R8). -/
  | registerWrite (a : Nat) (v : Word)
  /-- VDDAON comes within its monitor window, clearing the always-on partition to its reset values and, with PORn
  already high, leaving OFF for SAFE_BOOT (R28). -/
  | vddaonRise
  /-- A rig port receiver sets its sampling phase, locks to the incoming markers and deskews its two lanes, moving
  that direction toward UP (R310). -/
  | rigRxLock (port : Nat)
  /-- A rig transmitter that has become free sends its next queued message in priority order, draining the FIX
  queue (R312). -/
  | rigMessageSend (port : Nat)
  /-- A rig message that fails its CRC-32C is discarded and counted in LK_RIGSTAT.CRCERR (R311). -/
  | rigCrcError
  /-- While the return-lane checker is in sync, a mismatched PRBS31 bit increments LK_RTERRg (R309). -/
  | rtPrbsBitError (g : Nat)
  /-- An I3C private read returns words from the read pointer and advances it; in SAFE, SHUTDOWN or HALT_CONFIG it
  returns 0 outside ID_ and SP_ and sets ID_CTRLSTAT.UNAVAIL (R26). -/
  | i3cPrivateRead (n : Nat)
  deriving DecidableEq, Repr

end Sys2Proof
end

