-- ==== Sys2Proof/WellFormed.lean ====
section
/-! DEFINITION. Which commands are well formed: their operands lie in the ranges that the spec gives the units they name. -/
namespace Sys2Proof

/-- The operands of a command lie in the ranges of spec/ (groups 0 to 31, cells 0 to 65,535, slots 0 to 63, and so on). -/
def Instr.wellFormed : Instr → Bool
  | .pornRise => true
  | .pornFall => true
  | .vddaonLoss => true
  | .strapSample levels => decide (levels < 512)
  | .fuseBankShadowDone _ => true
  | .pllMainLock => true
  | .startupTimeout => true
  | .xspiBurstDone _ => true
  | .xspiBurstTimeout => true
  | .writeListDelayEnd => true
  | .signatureCheckDone => true
  | .blockOtpReadDone b _ _ => decide (b < 256)
  | .cisternInitDone chans => decide (chans.length = 4)
  | .slotRevertDone => true
  | .slotAccept => true
  | .spdTransferDone n _ => decide (n < 4)
  | .spdTransferTimeout n => decide (n < 4)
  | .spdTempPoll temps => decide (temps.length = 4)
  | .rtBlockLock g => decide (g < 32)
  | .rtLockLoss g => decide (g < 32)
  | .idle g => decide (g < 32)
  | .credit g seq limit => decide (g < 32 ∧ seq < 256 ∧ limit < 2 ^ 24)
  | .patternOk g seq => decide (g < 32 ∧ seq < 256)
  | .markerOk g seq limit => decide (g < 32 ∧ seq < 256 ∧ limit < 2 ^ 24)
  | .phase g seq lane tap => decide (g < 32 ∧ seq < 256 ∧ lane < 16 ∧ tap < 64)
  | .waddr g seq addr => decide (g < 32 ∧ seq < 256 ∧ addr < 2 ^ 24)
  | .wdata g seq _ => decide (g < 32 ∧ seq < 256)
  | .rcfrm g seq frame => decide (g < 32 ∧ seq < 256 ∧ frame < 2 ^ 32)
  | .rcgo g seq first last vc => decide (g < 32 ∧ seq < 256 ∧ first < 65536 ∧ last < 65536 ∧ vc < 16)
  | .rtReservedType g seq => decide (g < 32 ∧ seq < 256)
  | .trainingStepTimeout g => decide (g < 32)
  | .trainingTimeout => true
  | .alignmentMarker => true
  | .linkHeartbeat g => decide (g < 32)
  | .returnLaneTimeout g => decide (g < 32)
  | .linkGroupClockFault g => decide (g < 32)
  | .creditWithhold g => decide (g < 32)
  | .creditStall g => decide (g < 32)
  | .packetSend g => decide (g < 32)
  | .groupEnable g => decide (g < 32)
  | .groupDisable g => decide (g < 32)
  | .groupRetire g => decide (g < 32)
  | .prbsTxStart g => decide (g < 32)
  | .prbsTxStop g => decide (g < 32)
  | .prbsRtStart g => decide (g < 32)
  | .prbsRtStop g => decide (g < 32)
  | .rtPrbsSync g => decide (g < 32)
  | .rtPrbsSyncLoss g => decide (g < 32)
  | .rigTimeSend => true
  | .rigProbeSend => true
  | .rigTimeReceive alive hop t => decide (alive < 256 ∧ hop < 16 ∧ t < 2 ^ 64)
  | .rigProbeReceive alive hop t => decide (alive < 256 ∧ hop < 16 ∧ t < 2 ^ 64)
  | .rigProbeReplyReceive alive hop t turn => decide (alive < 256 ∧ hop < 16 ∧ t < 2 ^ 64 ∧ turn < 2 ^ 64)
  | .rigFramebcReceive alive hop te => decide (alive < 256 ∧ hop < 16 ∧ te < 2 ^ 64)
  | .rigFixReceive alive hop fix => decide (alive < 256 ∧ hop < 16 ∧ fix.length = 32)
  | .rigInTimeout => true
  | .eyeScanStart v => decide (v.toNat / 2 ^ 31 = 1)
  | .eyeScanDone n => decide (n < 2 ^ 32)
  | .tbCfgWrite n _ => decide (n < 4)
  | .encoderEdge n _ _ => decide (n < 4)
  | .indexPulse n => decide (n < 4)
  | .indexTimeout n => decide (n < 4)
  | .syncPulse n => decide (n < 4)
  | .syncMiss n => decide (n < 4)
  | .tbUpdate => true
  | .coastTimeout n => decide (n < 4)
  | .resolverOutputTimeout n => decide (n < 4)
  | .posRead n => decide (n < 4)
  | .timeloRead => true
  | .slotArm n v => decide (n < 64 ∧ v.toNat / 2 ^ 31 = 1)
  | .slotDisarm n v => decide (n < 64 ∧ v.toNat / 2 ^ 31 = 0)
  | .actNone n => decide (n < 64)
  | .startFrame n => decide (n < 64)
  | .startExp n => decide (n < 64)
  | .startTrack n => decide (n < 64)
  | .senseReg n => decide (n < 64)
  | .senseInj n => decide (n < 64)
  | .galSet n => decide (n < 64)
  | .galPulse n => decide (n < 64)
  | .galPulseEnd p => decide (p < 24)
  | .filterReset n => decide (n < 64)
  | .latch n => decide (n < 64)
  | .pendingTriggerExecute n => decide (n < 64)
  | .triggerEdge _ => true
  | .triggerQualify => true
  | .armingPoint => true
  | .classExposureStart k => decide (k < 8)
  | .lateFrameStart => true
  | .flush _ => true
  | .steerDone k => decide (k < 8)
  | .rowSlotStart => true
  | .rowConvertStart c => decide (c < 65536)
  | .rowConversionDone c hcg lcg => decide (c < 65536 ∧ (hcg ++ lcg).all (· < 16384))
  | .blockArbiterEntry b => decide (b < 256)
  | .s1EntryOut r => decide (r < 16)
  | .readoutEnd => true
  | .frameClose v => decide (v < 16)
  | .statsComplete => true
  | .blockArbiterTimeout b => decide (b < 256)
  | .regionArbiterTimeout r => decide (r < 16)
  | .lineMemoryError kind _ _ => decide (kind < 8)
  | .domainPowerGoodLoss d => decide (d < 320)
  | .blockReady b _ => decide (b < 256)
  | .subexposureEnd => true
  | .trackReadPending c => decide (c < 65536)
  | .trackReadDone c codes => decide (c < 65536 ∧ codes.all (· < 16384))
  | .trackResult => true
  | .pointingUpdate n => decide (n < 4)
  | .pointingMessageSend => true
  | .guardTimeout n => decide (n < 4)
  | .guardHoldPeriod n => decide (n < 4)
  | .captureCommit => true
  | .stage2Commit => true
  | .darkStart => true
  | .darkAbort => true
  | .ringFreeze => true
  | .ringRelease => true
  | .ringTriggerEdge _ => true
  | .ringTriggerQualify => true
  | .rasterFrameStored => true
  | .rasterOutputStart => true
  | .accGroupDone => true
  | .stage2Entry => true
  | .stage2RowOut err => decide (err < 3)
  | .stage2ReadEnd => true
  | .recallSubmit vc => decide (vc < 16)
  | .recallStart => true
  | .recallEnd => true
  | .caParityError n => decide (n < 4)
  | .memoryEccError kind _ _ => decide (kind < 8)
  | .readmissionDone => true
  | .ceTestSet _ => true
  | .ceDataWrite _ => true
  | .ceValWrite n _ => decide (n < 4)
  | .sequenceStart u _ => decide (u < 2)
  | .senseConversionDone u _ => decide (u < 2)
  | .sliceHandover u => decide (u < 2)
  | .sliceCalibrationDone u sl _ _ => decide (u < 2 ∧ sl < 5)
  | .senseEnable u v => decide (u < 2 ∧ v.toNat / 2 ^ 31 = 1)
  | .senseDisable u v => decide (u < 2 ∧ v.toNat / 2 ^ 31 = 0)
  | .zeroCalStart v => decide (v.toNat / 2 ^ 31 = 1)
  | .zeroCalDone u => decide (u < 2)
  | .senseResultRead u k => decide (u < 2 ∧ k < 20)
  | .filterInput n => decide (n < 16)
  | .filterConfigWrite n _ _ => decide (n < 16)
  | .filterOutputRead n => decide (n < 16)
  | .sensorSample xs => decide (xs.length = 24)
  | .sleep => true
  | .wake => true
  | .refclkWindow _ => true
  | .pllLockLoss which => decide (which < 6)
  | .supplyTrip rail _ => decide (rail < 7)
  | .oscCheck _ => true
  | .safetyHeartbeat word => decide (word.length = 4)
  | .watchdogTrip => true
  | .ibiRequest _ => true
  | .i3cPrivateWrite _ _ => true
  | .i3cBusTimeout _ => true
  | .enec => true
  | .disec => true
  | .rstdaa => true
  | .entdaa a => decide (a < 128)
  | .setdasa a => decide (a < 128)
  | .setnewda a => decide (a < 128)
  | .getpid => true
  | .getbcr => true
  | .getdcr => true
  | .getstatus => true
  | .getmwl => true
  | .getmrl => true
  | .unsupportedCcc _ => true
  | .otpRead _ => true
  | .otpProgram key _ => decide (key < 65536)
  | .otpLock key _ => decide (key < 65536)
  | .forcelock key _ => decide (key < 65536)
  | .enforce key _ => decide (key < 65536)
  | .otpPulseDone lo hi _ => decide (lo < 2 ^ 71 ∧ hi < 2 ^ 71)
  | .otpVerifyDone _ => true
  | .registerWrite a _ => decide (a < 2 ^ 24)
  | .vddaonRise => true
  | .rigRxLock port => decide (port < 2)
  | .rigMessageSend port => decide (port < 2)
  | .rigCrcError => true
  | .rtPrbsBitError g => decide (g < 32)
  | .i3cPrivateRead n => decide (n ≤ 256)

end Sys2Proof
end

