-- ==== Sys2Proof/Decode.lean ====
section
/-! DEFINITION. The command that a word spells. spec/opcode_table.json gives none of its rows any bits, so no word spells a command
(log entry 1). -/
namespace Sys2Proof

/-- The command that a word of `nbits` bits spells by the table: none, for the table gives no row bits. -/
def decodeTableWord (_nbits _w : Nat) : Option Instr := none

end Sys2Proof
end

