-- ==== Sys2Proof/Config.lean ====
section
/-! DEFINITION. The free values: what spec/ leaves open and the machine goes on with. Each is an opaque constant with no
body, applied to a plain counter of the state, so that nothing in Lean can evaluate it and a claim about it holds for
every value (log entry 2). -/
namespace Sys2Proof.Config

/-- A free byte of an answer whose value spec/ does not state. -/
opaque freeByte : Nat → BitVec 8

/-- The last 58 bits that a data lane's scrambler counts as sent when its block stream starts: R284 states none. -/
opaque scramblerStart : Nat → BitVec 58

/-- Where the sequences of a group's PRBS start: R290 and R308 state none. -/
opaque prbsStart : Nat → BitVec 31

/-- A free 32-bit value: the low bits of a CORDIC angle, which R374 bounds and does not fix. -/
opaque freeWord : Nat → BitVec 32

/-- Offset in 1/100 code and gain error in 10^-6 that a sense slice's half of a chip word W16 to W20 gives: spec/ names the
contents of those words and not their layout (R341, R460). -/
opaque sliceTrim : Nat → Int × Int

end Sys2Proof.Config
end

