-- ==== Sys2Proof/Machine/RegTable.lean ====
section
/-! DEFINITION. The register table of the part: one row per register of Table 19-2 (19_register_index.md, R501 to
R503), with its address, its instances, its reset value and, per access code of Table 0-4 (R8), the mask of the bits
whose field has that code. A bit in no mask reads as it stands and takes no write (RO, or reserved under R7). -/
namespace Sys2Proof.Machine

/-- One register of Table 19-2: base address, instance counts and strides (R502), reset value (R503), and the bits of
each writable access code (R8). -/
structure RegDef where
  base : Nat
  c1 : Nat
  s1 : Nat
  c2 : Nat
  s2 : Nat
  reset : Nat
  rw : Nat
  w1c : Nat
  wo : Nat
  rwc : Nat
  spl : Nat
  deriving DecidableEq, Repr

/-- The registers of the ID space (Table 19-1, Table 19-2). -/
def regTableID : List RegDef := [
  ⟨0x0, 1, 0x0, 1, 0x0, 0x0, 0x0, 0x0, 0x0, 0x0, 0x0⟩,  -- ID_PART
  ⟨0x10, 1, 0x0, 1, 0x0, 0x1, 0x0, 0x0, 0x0, 0x0, 0x0⟩,  -- ID_DEVSTATE
  ⟨0x14, 1, 0x0, 1, 0x0, 0x0, 0x0, 0x7FF, 0x0, 0x0, 0x0⟩,  -- ID_FAULTSUM
  ⟨0x18, 1, 0x0, 1, 0x0, 0x0, 0x0, 0x0, 0x0, 0x0, 0x0⟩,  -- ID_FAILCNT
  ⟨0x1C, 1, 0x0, 1, 0x0, 0x0, 0x0, 0x40000000, 0x0, 0x0, 0x0⟩,  -- ID_CTRLSTAT
  ⟨0x20, 1, 0x0, 1, 0x0, 0x42400000, 0x0, 0x0, 0x0, 0x0, 0x0⟩,  -- ID_ARRAY
  ⟨0x30, 1, 0x0, 1, 0x0, 0x0, 0x0, 0x0, 0x0, 0x0, 0x0⟩,  -- ID_BOOTSTAT
  ⟨0x34, 1, 0x0, 1, 0x0, 0x0, 0x0, 0x0, 0x0, 0x0, 0x0⟩,  -- ID_STRAP
  ⟨0x38, 1, 0x0, 1, 0x0, 0x0, 0x0, 0x0, 0x0, 0x0, 0x0⟩,  -- ID_IMGSEQ
  ⟨0x40, 1, 0x0, 1, 0x0, 0x0, 0x3F, 0x0, 0x0, 0x0, 0x0⟩,  -- ID_IBIEN
  ⟨0x44, 1, 0x0, 1, 0x0, 0x0, 0x0, 0x3F, 0x0, 0x0, 0x0⟩,  -- ID_IBISRC
  ⟨0x48, 1, 0x0, 1, 0x0, 0x0, 0x0, 0x0, 0x0, 0x0, 0x0⟩]  -- ID_FUSESTAT

/-- The registers of the TB space (Table 19-1, Table 19-2). -/
def regTableTB : List RegDef := [
  ⟨0x10000, 4, 0x40, 1, 0x0, 0xFFFE0000, 0xFFFFCF07, 0x0, 0x0, 0x0, 0x0⟩,  -- TB_nCFG
  ⟨0x10004, 4, 0x40, 1, 0x0, 0x0, 0xFFFFFFFF, 0x0, 0x0, 0x0, 0x0⟩,  -- TB_nMOD
  ⟨0x10008, 4, 0x40, 1, 0x0, 0x40000925, 0xFFFFFFFF, 0x0, 0x0, 0x0, 0x0⟩,  -- TB_nGAIN
  ⟨0x1000C, 4, 0x40, 1, 0x0, 0x28000400, 0xFFFFFFFF, 0x0, 0x0, 0x0, 0x0⟩,  -- TB_nLIM
  ⟨0x10010, 4, 0x40, 1, 0x0, 0x2710, 0xFFFFFFFF, 0x0, 0x0, 0x0, 0x0⟩,  -- TB_nPMIN
  ⟨0x10014, 4, 0x40, 1, 0x0, 0x3B9ACA00, 0xFFFFFFFF, 0x0, 0x0, 0x0, 0x0⟩,  -- TB_nPMAX
  ⟨0x10018, 4, 0x40, 1, 0x0, 0x30003E8, 0xFF00FFFF, 0x0, 0x0, 0x0, 0x0⟩,  -- TB_nTO
  ⟨0x10020, 4, 0x40, 1, 0x0, 0x0, 0x0, 0x0, 0x0, 0x0, 0x0⟩,  -- TB_nPOS
  ⟨0x10024, 4, 0x40, 1, 0x0, 0x0, 0x0, 0x0, 0x0, 0x0, 0x0⟩,  -- TB_nPOSF
  ⟨0x10028, 4, 0x40, 1, 0x0, 0x0, 0x0, 0x0, 0x0, 0x0, 0x0⟩,  -- TB_nRATE
  ⟨0x10030, 4, 0x40, 1, 0x0, 0x0, 0x0, 0xFF, 0x0, 0x0, 0x0⟩,  -- TB_nSTAT
  ⟨0x10100, 1, 0x0, 1, 0x0, 0x0, 0x0, 0x0, 0x0, 0x0, 0x0⟩,  -- TB_TIMELO
  ⟨0x10104, 1, 0x0, 1, 0x0, 0x0, 0x0, 0x0, 0x0, 0x0, 0x0⟩,  -- TB_TIMEHI
  ⟨0x10108, 1, 0x0, 1, 0x0, 0x0, 0x0, 0x0, 0x0, 0x0, 0x0⟩,  -- TB_RIG
  ⟨0x1010C, 1, 0x0, 1, 0x0, 0x14001E, 0xFFFF01FF, 0x0, 0x0, 0x0, 0x0⟩,  -- TB_SCHED
  ⟨0x10110, 1, 0x0, 1, 0x0, 0x0, 0xFFFFFFFF, 0x0, 0x0, 0x0, 0x0⟩,  -- TB_SKIP
  ⟨0x10114, 1, 0x0, 1, 0x0, 0x0, 0x0, 0x0, 0x0, 0x0, 0x0⟩,  -- TB_SKIPTOT
  ⟨0x10118, 1, 0x0, 1, 0x0, 0x0, 0x0, 0x0, 0x0, 0x0, 0x0⟩,  -- TB_DROPTOT
  ⟨0x1011C, 1, 0x0, 1, 0x0, 0x7C00005, 0xFFC0FFFF, 0x0, 0x0, 0x0, 0x0⟩,  -- TB_TRIG
  ⟨0x10120, 1, 0x0, 1, 0x0, 0x64, 0xFFFF, 0x0, 0x0, 0x0, 0x0⟩,  -- TB_PULSE
  ⟨0x10180, 1, 0x0, 1, 0x0, 0x0, 0x0, 0x0, 0x0, 0x0, 0x0⟩,  -- TB_LATTLO
  ⟨0x10184, 1, 0x0, 1, 0x0, 0x0, 0x0, 0x0, 0x0, 0x0, 0x0⟩,  -- TB_LATTHI
  ⟨0x10188, 4, 0x8, 1, 0x0, 0x0, 0x0, 0x0, 0x0, 0x0, 0x0⟩,  -- TB_LATnPOS
  ⟨0x1018C, 4, 0x8, 1, 0x0, 0x0, 0x0, 0x0, 0x0, 0x0, 0x0⟩,  -- TB_LATnFRAC
  ⟨0x10300, 1, 0x0, 1, 0x0, 0x0, 0x0, 0x0, 0x0, 0x0, 0x0⟩,  -- EV_SUM
  ⟨0x10400, 64, 0x20, 1, 0x0, 0x0, 0xFFFF8FFF, 0x0, 0x0, 0x0, 0x0⟩,  -- EV_nCFG
  ⟨0x10404, 64, 0x20, 1, 0x0, 0x0, 0xFFFFFFFF, 0x0, 0x0, 0x0, 0x0⟩,  -- EV_nPOS
  ⟨0x10408, 64, 0x20, 1, 0x0, 0x0, 0xFFFFFFFF, 0x0, 0x0, 0x0, 0x0⟩,  -- EV_nFRAC
  ⟨0x1040C, 64, 0x20, 1, 0x0, 0x0, 0xFFFFFFFF, 0x0, 0x0, 0x0, 0x0⟩,  -- EV_nDELAY
  ⟨0x10410, 64, 0x20, 1, 0x0, 0x0, 0xFFFFFFFF, 0x0, 0x0, 0x0, 0x0⟩,  -- EV_nSTEP
  ⟨0x10414, 64, 0x20, 1, 0x0, 0x0, 0x0, 0x0, 0x0, 0x0, 0x0⟩,  -- EV_nSTAT
  ⟨0x10418, 64, 0x20, 1, 0x0, 0x0, 0x0, 0x0, 0x0, 0x0, 0x0⟩,  -- EV_nTIME
  ⟨0x1041C, 64, 0x20, 1, 0x0, 0x0, 0x0, 0x0, 0x0, 0x0, 0x0⟩]  -- EV_nLATE

/-- The registers of the EX space (Table 19-1, Table 19-2). -/
def regTableEX : List RegDef := [
  ⟨0x20000, 1, 0x0, 1, 0x0, 0x0, 0x0, 0x0, 0x0, 0xF10113, 0x0⟩,  -- EX_MODE
  ⟨0x20004, 1, 0x0, 1, 0x0, 0xF4240, 0x0, 0x0, 0x0, 0xFFFFFFFF, 0x0⟩,  -- EX_FRPER
  ⟨0x20008, 1, 0x0, 1, 0x0, 0x0, 0x0, 0x0, 0x1, 0x0, 0x0⟩,  -- EX_COMMIT
  ⟨0x2000C, 1, 0x0, 1, 0x0, 0x0, 0x0, 0x0, 0x0, 0x0, 0x0⟩,  -- EX_GEN
  ⟨0x20010, 1, 0x0, 1, 0x0, 0x0, 0x0, 0x6E, 0x0, 0x0, 0x0⟩,  -- EX_STAT
  ⟨0x20014, 1, 0x0, 1, 0x0, 0x1003, 0x0, 0x0, 0x0, 0x7F0F, 0x0⟩,  -- EX_HDR
  ⟨0x20020, 8, 0x10, 1, 0x0, 0x1000000, 0x0, 0x0, 0x0, 0xE3000000, 0x0⟩,  -- EX_ECnCFG
  ⟨0x20024, 8, 0x10, 1, 0x0, 0x0, 0x0, 0x0, 0x0, 0xFFFFFFFF, 0x0⟩,  -- EX_ECnOFS
  ⟨0x20028, 8, 0x10, 1, 0x0, 0xF4240, 0x0, 0x0, 0x0, 0xFFFFFFFF, 0x0⟩,  -- EX_ECnDUR
  ⟨0x2002C, 8, 0x10, 1, 0x0, 0xF4240, 0x0, 0x0, 0x0, 0xFFFFFFFF, 0x0⟩,  -- EX_ECnDURB
  ⟨0x200A0, 16, 0x4, 1, 0x0, 0x80000000, 0x0, 0x0, 0x0, 0x80000007, 0x0⟩,  -- EX_BURSTm
  ⟨0x200F0, 1, 0x0, 1, 0x0, 0x320000, 0x0, 0x0, 0x0, 0xFF00C1, 0x0⟩,  -- EX_PIXCFG
  ⟨0x200F4, 1, 0x0, 1, 0x0, 0x0, 0x0, 0x3, 0x0, 0x0, 0x0⟩,  -- EX_PIXSTAT
  ⟨0x20110, 1, 0x0, 1, 0x0, 0x1000000, 0x0, 0x0, 0x0, 0x83001FFF, 0x0⟩,  -- EX_LECFG
  ⟨0x20114, 1, 0x0, 1, 0x0, 0xC0004000, 0x0, 0x0, 0x0, 0xFFFFFFFF, 0x0⟩,  -- EX_LETH
  ⟨0x20118, 4, 0x4, 1, 0x0, 0x70707070, 0x0, 0x0, 0x0, 0x77777777, 0x0⟩,  -- EX_LEBNDm
  ⟨0x20128, 1, 0x0, 1, 0x0, 0x0, 0x0, 0x4, 0x0, 0x0, 0x0⟩,  -- EX_LESTAT
  ⟨0x20130, 1, 0x0, 1, 0x0, 0x40040010, 0xFFFFF03F, 0x0, 0x0, 0x0, 0x0⟩,  -- EX_DARKCFG
  ⟨0x20134, 1, 0x0, 1, 0x0, 0x0, 0x0, 0x0, 0x3, 0x0, 0x0⟩,  -- EX_DARKCMD
  ⟨0x20138, 1, 0x0, 1, 0x0, 0x0, 0x0, 0x0, 0x0, 0x0, 0x0⟩,  -- EX_DARKSTAT
  ⟨0x28000, 8192, 0x4, 1, 0x0, 0x0, 0x0, 0x0, 0x0, 0x77777777, 0x0⟩]  -- EX_MAPi

/-- The registers of the RD space (Table 19-1, Table 19-2). -/
def regTableRD : List RegDef := [
  ⟨0x30000, 1, 0x0, 1, 0x0, 0x100000, 0x0, 0x0, 0x0, 0xF10101, 0x0⟩,  -- RD_CONV
  ⟨0x30004, 1, 0x0, 1, 0x0, 0x0, 0x0, 0x0, 0x0, 0xFFFF, 0x0⟩,  -- RD_FILL
  ⟨0x30008, 1, 0x0, 1, 0x0, 0x0, 0x0, 0x0, 0x0, 0xFFFFFFFF, 0x0⟩,  -- RD_PACE
  ⟨0x3000C, 1, 0x0, 1, 0x0, 0x40, 0x0, 0x0, 0x0, 0x80003F7F, 0x0⟩,  -- RD_STRIPE
  ⟨0x30010, 1, 0x0, 1, 0x0, 0x1010, 0x0, 0x0, 0x0, 0x8000FFFF, 0x0⟩,  -- RD_PDCFG
  ⟨0x30014, 1, 0x0, 1, 0x0, 0x0, 0x0, 0xFE, 0x0, 0x0, 0x0⟩,  -- RD_STAT
  ⟨0x30018, 1, 0x0, 1, 0x0, 0x0, 0x0, 0x0, 0x0, 0x0, 0x0⟩,  -- RD_SPAN
  ⟨0x3001C, 1, 0x0, 1, 0x0, 0x0, 0x0, 0x0, 0x0, 0x0, 0x0⟩,  -- RD_TCONV
  ⟨0x30020, 1, 0x0, 1, 0x0, 0x0, 0x0, 0x0, 0x0, 0x0, 0x0⟩,  -- RD_CNT
  ⟨0x30100, 16, 0x20, 1, 0x0, 0x0, 0x0, 0x0, 0x0, 0xEFF0FF00, 0x0⟩,  -- RD_PWnCFG
  ⟨0x30104, 16, 0x20, 1, 0x0, 0x0, 0x0, 0x0, 0x0, 0x3FFF3FFF, 0x0⟩,  -- RD_PWnPOS
  ⟨0x30108, 16, 0x20, 1, 0x0, 0x40004000, 0x0, 0x0, 0x0, 0x7FFF7FFF, 0x0⟩,  -- RD_PWnSIZE
  ⟨0x3010C, 16, 0x20, 1, 0x0, 0x1FFF8, 0x0, 0x0, 0x0, 0x3FFFF, 0x0⟩,  -- RD_PWnCX
  ⟨0x30110, 16, 0x20, 1, 0x0, 0x1FFF8, 0x0, 0x0, 0x0, 0x3FFFF, 0x0⟩,  -- RD_PWnCY
  ⟨0x30114, 16, 0x20, 1, 0x0, 0x0, 0x0, 0x0, 0x0, 0xFFFFFFFF, 0x0⟩,  -- RD_PWnANG
  ⟨0x30118, 16, 0x20, 1, 0x0, 0x0, 0x0, 0x0, 0x0, 0xFFFFFFFF, 0x0⟩,  -- RD_PWnROLL
  ⟨0x3011C, 16, 0x20, 1, 0x0, 0x0, 0x0, 0x0, 0x0, 0xFFFFFFFF, 0x0⟩,  -- RD_PWnRP0
  ⟨0x30300, 16, 0x8, 1, 0x0, 0x0, 0x0, 0x0, 0x0, 0x0, 0x0⟩,  -- RD_PWnINFO
  ⟨0x30304, 16, 0x8, 1, 0x0, 0x0, 0x0, 0x0, 0x0, 0x0, 0x0⟩]  -- RD_PWnANGU

/-- The registers of the TK space (Table 19-1, Table 19-2). -/
def regTableTK : List RegDef := [
  ⟨0x40000, 1, 0x0, 1, 0x0, 0x210000, 0x0, 0x0, 0x0, 0xF10000, 0x0⟩,  -- TK_CFG
  ⟨0x40004, 1, 0x0, 1, 0x0, 0x0, 0x0, 0xF, 0x0, 0x0, 0x0⟩,  -- TK_STAT
  ⟨0x40008, 1, 0x0, 1, 0x0, 0x0, 0x0, 0x0, 0x0, 0x0, 0x0⟩,  -- TK_CNT
  ⟨0x4000C, 1, 0x0, 1, 0x0, 0x0, 0x0, 0x0, 0x0, 0x0, 0x0⟩,  -- TK_LOSS
  ⟨0x40100, 64, 0x10, 1, 0x0, 0x0, 0x0, 0x0, 0x0, 0xE0FFFFFF, 0x0⟩,  -- TK_WnCFG
  ⟨0x40104, 64, 0x10, 1, 0x0, 0x40000100, 0x0, 0x0, 0x0, 0xFFFFFFFF, 0x0⟩,  -- TK_WnTH
  ⟨0x40108, 64, 0x10, 1, 0x0, 0x1000040, 0x0, 0x0, 0x0, 0xFFFF00FF, 0x0⟩,  -- TK_WnQ
  ⟨0x4010C, 64, 0x10, 1, 0x0, 0x4000001, 0x0, 0x0, 0x0, 0x7FFF7FFF, 0x0⟩,  -- TK_WnAREA
  ⟨0x41000, 256, 0x10, 1, 0x0, 0x17C007D0, 0x0, 0x0, 0x0, 0xFFC0FFFF, 0x0⟩,  -- TK_PLANmCFG
  ⟨0x41004, 256, 0x10, 1, 0x0, 0x0, 0x0, 0x0, 0x0, 0xFFFFFFFF, 0x0⟩,  -- TK_PLANmWLO
  ⟨0x41008, 256, 0x10, 1, 0x0, 0x0, 0x0, 0x0, 0x0, 0xFFFFFFFF, 0x0⟩,  -- TK_PLANmWHI
  ⟨0x42000, 4, 0x80, 1, 0x0, 0x3E8, 0x0, 0x0, 0x0, 0xEF00FFFF, 0x0⟩,  -- TK_PCnCFG
  ⟨0x42004, 4, 0x80, 1, 0x0, 0x0, 0x0, 0x0, 0x0, 0xFFFF, 0x0⟩,  -- TK_PCnPHS
  ⟨0x42008, 4, 0x80, 1, 0x0, 0x0, 0x0, 0x0, 0x0, 0xFFFFFFFF, 0x0⟩,  -- TK_PCnSRC
  ⟨0x4200C, 4, 0x80, 1, 0x0, 0x0, 0x0, 0x0, 0x0, 0xFFFFFFFF, 0x0⟩,  -- TK_PCnA11
  ⟨0x42010, 4, 0x80, 1, 0x0, 0x0, 0x0, 0x0, 0x0, 0xFFFFFFFF, 0x0⟩,  -- TK_PCnA12
  ⟨0x42014, 4, 0x80, 1, 0x0, 0x0, 0x0, 0x0, 0x0, 0xFFFFFFFF, 0x0⟩,  -- TK_PCnA13
  ⟨0x42018, 4, 0x80, 1, 0x0, 0x0, 0x0, 0x0, 0x0, 0xFFFFFFFF, 0x0⟩,  -- TK_PCnA21
  ⟨0x4201C, 4, 0x80, 1, 0x0, 0x0, 0x0, 0x0, 0x0, 0xFFFFFFFF, 0x0⟩,  -- TK_PCnA22
  ⟨0x42020, 4, 0x80, 1, 0x0, 0x0, 0x0, 0x0, 0x0, 0xFFFFFFFF, 0x0⟩,  -- TK_PCnA23
  ⟨0x42024, 4, 0x80, 1, 0x0, 0x0, 0x0, 0x0, 0x0, 0x0, 0x0⟩,  -- TK_PCnSTAT
  ⟨0x42040, 4, 0x80, 8, 0x4, 0x10001000, 0x0, 0x0, 0x0, 0xFFFFFFFF, 0x0⟩,  -- TK_PCnZTi, i = 0 to 7
  ⟨0x42060, 4, 0x80, 1, 0x0, 0x1000, 0x0, 0x0, 0x0, 0xFFFF, 0x0⟩]  -- TK_PCnZT8, whose bits 31:16 are reserved

/-- The registers of the S1 space (Table 19-1, Table 19-2). -/
def regTableS1 : List RegDef := [
  ⟨0x50000, 1, 0x0, 1, 0x0, 0x3F, 0x0, 0x0, 0x0, 0x7F, 0x0⟩,  -- S1_CFG
  ⟨0x50004, 1, 0x0, 1, 0x0, 0x40040100, 0x0, 0x0, 0x0, 0xFFFFFFFF, 0x0⟩,  -- S1_BLCFG
  ⟨0x50008, 1, 0x0, 1, 0x0, 0x8000400, 0x0, 0x0, 0x0, 0x3FFF3FFF, 0x0⟩,  -- S1_DEFCFG
  ⟨0x5000C, 1, 0x0, 1, 0x0, 0x3, 0x0, 0x0, 0x0, 0x800F000F, 0x0⟩,  -- S1_LSCFG
  ⟨0x50010, 1, 0x0, 1, 0x0, 0x40000000, 0x0, 0x0, 0x0, 0xFFFFFFFF, 0x0⟩,  -- S1_LSZA
  ⟨0x50014, 1, 0x0, 1, 0x0, 0xC0008000, 0x0, 0x0, 0x0, 0xFFFFFFFF, 0x0⟩,  -- S1_LSZB
  ⟨0x50018, 1, 0x0, 1, 0x0, 0x40000000, 0x0, 0x0, 0x0, 0xFFFFFFFF, 0x0⟩,  -- S1_LSFA
  ⟨0x5001C, 1, 0x0, 1, 0x0, 0xC0008000, 0x0, 0x0, 0x0, 0xFFFFFFFF, 0x0⟩,  -- S1_LSFB
  ⟨0x50020, 1, 0x0, 1, 0x0, 0x3C003000, 0x0, 0x0, 0x0, 0x3FFF3FFF, 0x0⟩,  -- S1_MGTAP
  ⟨0x50024, 1, 0x0, 1, 0x0, 0x3C003000, 0x0, 0x0, 0x0, 0x3FFF3FFF, 0x0⟩,  -- S1_MGDCG
  ⟨0x50028, 1, 0x0, 1, 0x0, 0x100008, 0x0, 0x0, 0x0, 0xFFFF000F, 0x0⟩,  -- S1_MGSH
  ⟨0x5002C, 1, 0x0, 1, 0x0, 0x0, 0x0, 0x0, 0x0, 0x0, 0x0⟩,  -- S1_GAINRATIO
  ⟨0x50030, 1, 0x0, 1, 0x0, 0x30000F, 0x0, 0x0, 0x0, 0xF0000F, 0x0⟩,  -- S1_STCFG
  ⟨0x50034, 1, 0x0, 1, 0x0, 0xF000010, 0x0, 0x0, 0x0, 0xFFF0FFF, 0x0⟩,  -- S1_WB
  ⟨0x50038, 1, 0x0, 1, 0x0, 0x0, 0x0, 0x7E, 0x0, 0x0, 0x0⟩,  -- S1_STAT
  ⟨0x5003C, 1, 0x0, 1, 0x0, 0x0, 0x0, 0x0, 0x0, 0x0, 0x0⟩,  -- S1_CNT
  ⟨0x50040, 1, 0x0, 1, 0x0, 0x0, 0x0, 0x0, 0x0, 0x0, 0x0⟩]  -- S1_DEFSTAT

/-- The registers of the CS space (Table 19-1, Table 19-2). -/
def regTableCS : List RegDef := [
  ⟨0x60000, 1, 0x0, 1, 0x0, 0x5F804000, 0x0, 0x0, 0x0, 0xFFC0FF3F, 0x0⟩,  -- CS_CFG
  ⟨0x60004, 1, 0x0, 1, 0x0, 0x0, 0x0, 0x0, 0x0, 0xFFFF, 0x0⟩,  -- CS_RATE
  ⟨0x60008, 1, 0x0, 1, 0x0, 0x1, 0x0, 0x0, 0x0, 0xFFFFFFFF, 0x0⟩,  -- CS_RING
  ⟨0x6000C, 1, 0x0, 1, 0x0, 0x1F000005, 0xFF00FFFF, 0x0, 0x0, 0x0, 0x0⟩,  -- CS_RINGTRIG
  ⟨0x60010, 1, 0x0, 1, 0x0, 0x0, 0x0, 0x0, 0x3, 0x0, 0x0⟩,  -- CS_RINGCMD
  ⟨0x60014, 1, 0x0, 1, 0x0, 0x0, 0x0, 0x0, 0x0, 0x0, 0x0⟩,  -- CS_RINGSTAT
  ⟨0x60018, 1, 0x0, 1, 0x0, 0x0, 0x0, 0x0, 0x0, 0x0, 0x0⟩,  -- CS_RINGEVT
  ⟨0x6001C, 1, 0x0, 1, 0x0, 0x4F, 0x0, 0x0, 0x0, 0x1FF, 0x0⟩,  -- CS_ACC
  ⟨0x60020, 1, 0x0, 1, 0x0, 0x400, 0x0, 0x0, 0x0, 0x3FFFFFF, 0x0⟩,  -- CS_SPILL
  ⟨0x60024, 1, 0x0, 1, 0x0, 0x0, 0x0, 0x0, 0x0, 0x0, 0x0⟩,  -- CS_ADMIT
  ⟨0x60028, 1, 0x0, 1, 0x0, 0x0, 0x0, 0x0, 0x0, 0x0, 0x0⟩,  -- CS_BUDGET
  ⟨0x60040, 4, 0x4, 1, 0x0, 0x0, 0x0, 0x0, 0x0, 0x0, 0x0⟩,  -- CS_CHnSTAT
  ⟨0x60050, 1, 0x0, 1, 0x0, 0x0, 0x0, 0x0, 0x0, 0x0, 0x0⟩,  -- CS_ECC
  ⟨0x60054, 1, 0x0, 1, 0x0, 0x0, 0x0, 0x3F, 0x0, 0x0, 0x0⟩,  -- CS_STAT
  ⟨0x60058, 1, 0x0, 1, 0x0, 0x0, 0x0, 0x0, 0x0, 0x0, 0x0⟩,  -- CS_CNT
  ⟨0x60060, 1, 0x0, 1, 0x0, 0x0, 0xFFFFFFFF, 0x0, 0x0, 0x0, 0x0⟩,  -- CS_RCFRM
  ⟨0x60064, 1, 0x0, 1, 0x0, 0x3FFF0000, 0x3FFF3FFF, 0x0, 0x0, 0x0, 0x0⟩,  -- CS_RCROWS
  ⟨0x60068, 1, 0x0, 1, 0x0, 0x0, 0x0, 0x0, 0xF1, 0x0, 0x0⟩,  -- CS_RCCMD
  ⟨0x6006C, 1, 0x0, 1, 0x0, 0x0, 0x0, 0x0, 0x0, 0x0, 0x0⟩]  -- CS_RCSTAT

/-- The registers of the CP space (Table 19-1, Table 19-2). -/
def regTableCP : List RegDef := [
  ⟨0x70000, 1, 0x0, 1, 0x0, 0xA0580100, 0x0, 0x0, 0x0, 0xEFFFFFFF, 0x0⟩,  -- CP_CFG
  ⟨0x70004, 1, 0x0, 1, 0x0, 0x0, 0x0, 0x0, 0x1, 0x0, 0x0⟩,  -- CP_COMMIT
  ⟨0x70008, 1, 0x0, 1, 0x0, 0x0, 0x0, 0x0, 0x0, 0x0, 0x0⟩,  -- CP_GEN
  ⟨0x7000C, 1, 0x0, 1, 0x0, 0x0, 0x0, 0x7C, 0x0, 0x0, 0x0⟩,  -- CP_STAT
  ⟨0x70010, 1, 0x0, 1, 0x0, 0x0, 0x0, 0x0, 0x0, 0x0, 0x0⟩,  -- CP_CNT
  ⟨0x70020, 1, 0x0, 1, 0x0, 0x10001000, 0x0, 0x0, 0x0, 0xFFFFFFFF, 0x0⟩,  -- CP_WBG0
  ⟨0x70024, 1, 0x0, 1, 0x0, 0x10001000, 0x0, 0x0, 0x0, 0xFFFFFFFF, 0x0⟩,  -- CP_WBG1
  ⟨0x70040, 9, 0x4, 1, 0x0, 0x0, 0x0, 0x0, 0x0, 0xFFFF, 0x0⟩,  -- CP_CMn
  ⟨0x70064, 3, 0x4, 1, 0x0, 0x0, 0x0, 0x0, 0x0, 0x1FFFF, 0x0⟩,  -- CP_CMOFSr
  ⟨0x70080, 1, 0x0, 1, 0x0, 0x20010000, 0x0, 0x0, 0x0, 0xF8FF0000, 0x0⟩,  -- CP_PV
  ⟨0x70084, 1, 0x0, 1, 0x0, 0x4380780, 0x0, 0x0, 0x0, 0x1FFF1FFF, 0x0⟩,  -- CP_PVSIZE
  ⟨0x70088, 1, 0x0, 1, 0x0, 0x0, 0x0, 0x0, 0x0, 0x0, 0x0⟩,  -- CP_OUTSIZE
  ⟨0x71000, 3, 0x1000, 512, 0x4, 0x0, 0x0, 0x0, 0x0, 0xFFFFFFFF, 0x0⟩,  -- CP_TCcPi, i = 0 to 511
  ⟨0x71800, 3, 0x1000, 1, 0x0, 0xFFFF, 0x0, 0x0, 0x0, 0xFFFF, 0x0⟩]  -- CP_TCcP512, whose bits 31:16 are reserved

/-- The registers of the LK space (Table 19-1, Table 19-2). -/
def regTableLK : List RegDef := [
  ⟨0x80000, 1, 0x0, 1, 0x0, 0xFFFFFFFF, 0xFFFFFFFF, 0x0, 0x0, 0x0, 0x0⟩,  -- LK_GRPEN
  ⟨0x80004, 1, 0x0, 1, 0x0, 0x0, 0xFFFFFFFF, 0x0, 0x0, 0x0, 0x0⟩,  -- LK_SPARE
  ⟨0x80008, 1, 0x0, 1, 0x0, 0xA001932, 0xFF00FFFF, 0x0, 0x0, 0x0, 0x0⟩,  -- LK_CRCFG
  ⟨0x8000C, 1, 0x0, 1, 0x0, 0x2710, 0xFFFF, 0x0, 0x0, 0x0, 0x0⟩,  -- LK_TRCFG
  ⟨0x80010, 1, 0x0, 1, 0x0, 0x0, 0x1F, 0x0, 0x0, 0x0, 0x0⟩,  -- LK_CTL
  ⟨0x80014, 1, 0x0, 1, 0x0, 0x0, 0xFFFFFFFF, 0x0, 0x0, 0x0, 0x0⟩,  -- LK_PRBSTX
  ⟨0x80018, 1, 0x0, 1, 0x0, 0x0, 0xFFFFFFFF, 0x0, 0x0, 0x0, 0x0⟩,  -- LK_PRBSRT
  ⟨0x8001C, 1, 0x0, 1, 0x0, 0x0, 0x0, 0x0, 0xFFFFFFFF, 0x0, 0x0⟩,  -- LK_RETIRE
  ⟨0x80020, 1, 0x0, 1, 0x0, 0x0, 0x0, 0xFF, 0x0, 0x0, 0x0⟩,  -- LK_SUM
  ⟨0x80100, 16, 0x4, 1, 0x0, 0x0, 0x0, 0x0, 0x0, 0xFFFFFFFF, 0x0⟩,  -- LK_VCMAPv
  ⟨0x80140, 16, 0x4, 1, 0x0, 0x0, 0x0, 0x0, 0x0, 0x0, 0x0⟩,  -- LK_VCACTv
  ⟨0x80200, 32, 0x4, 1, 0x0, 0x0, 0x0, 0x2000, 0x0, 0x0, 0x0⟩,  -- LK_GSTATg
  ⟨0x80280, 32, 0x4, 1, 0x0, 0x0, 0x0, 0x0, 0x0, 0x0, 0x0⟩,  -- LK_GLIMg
  ⟨0x80300, 32, 0x4, 1, 0x0, 0x0, 0x0, 0x0, 0x0, 0x0, 0x0⟩,  -- LK_GUSEDg
  ⟨0x80380, 32, 0x4, 1, 0x0, 0x0, 0x0, 0x0, 0x0, 0x0, 0x0⟩,  -- LK_RTERRg
  ⟨0x80400, 1, 0x0, 1, 0x0, 0x0, 0x0, 0x1, 0x0, 0x0, 0x0⟩,  -- LK_RIGSTAT
  ⟨0x80410, 1, 0x0, 1, 0x0, 0x4000000, 0xF7F3F03, 0x0, 0x80000000, 0x0, 0x0⟩,  -- LK_ESCFG
  ⟨0x80414, 1, 0x0, 1, 0x0, 0x0, 0x0, 0x0, 0x0, 0x0, 0x0⟩,  -- LK_ESRES
  ⟨0x81000, 32, 0x10, 4, 0x4, 0x20202020, 0x3F3F3F3F, 0x0, 0x0, 0x0, 0x0⟩]  -- LK_DLYgi

/-- The registers of the PK space (Table 19-1, Table 19-2). -/
def regTablePK : List RegDef := [
  ⟨0x90000, 1, 0x0, 1, 0x0, 0x6F, 0xFF, 0x0, 0x0, 0x0, 0x0⟩,  -- PK_CFG
  ⟨0x90004, 1, 0x0, 1, 0x0, 0x0, 0x0, 0x1, 0x0, 0x0, 0x0⟩,  -- PK_STAT
  ⟨0x90008, 1, 0x0, 1, 0x0, 0x0, 0x0, 0x0, 0x0, 0x0, 0x0⟩,  -- PK_CNT
  ⟨0x9000C, 1, 0x0, 1, 0x0, 0x0, 0x0, 0x0, 0x0, 0x0, 0x0⟩,  -- PK_ALV
  ⟨0x90100, 16, 0x4, 1, 0x0, 0x0, 0x0, 0x0, 0x0, 0x0, 0x0⟩,  -- PK_VCSEQv
  ⟨0x90200, 1, 0x0, 1, 0x0, 0x803C0096, 0x80FF00FF, 0x0, 0x0, 0x0, 0x0⟩,  -- PK_PVPHY
  ⟨0x90400, 1, 0x0, 1, 0x0, 0x0, 0x7, 0x0, 0x0, 0x0, 0x0⟩,  -- CE_CTL
  ⟨0x90404, 1, 0x0, 1, 0x0, 0x0, 0x0, 0x0, 0xFFFFFFFF, 0x0, 0x0⟩,  -- CE_DATA
  ⟨0x90410, 4, 0x4, 1, 0x0, 0xFFFFFFFF, 0xFFFFFFFF, 0x0, 0x0, 0x0, 0x0⟩,  -- CE_nVAL
  ⟨0x90440, 16, 0x4, 1, 0x0, 0xFFFFFFFF, 0x0, 0x0, 0x0, 0x0, 0x0⟩]  -- CE_CTXv

/-- The registers of the SA space (Table 19-1, Table 19-2). -/
def regTableSA : List RegDef := [
  ⟨0xA0000, 2, 0x1000, 1, 0x0, 0x0, 0xE00F3000, 0x0, 0x0, 0x0, 0x0⟩,  -- SA_CFG
  ⟨0xA0004, 2, 0x1000, 1, 0x0, 0x0, 0xFFFFFFFF, 0x0, 0x0, 0x0, 0x0⟩,  -- SA_TRIG
  ⟨0xA0008, 2, 0x1000, 1, 0x0, 0x5000000, 0x0, 0x1F, 0x0, 0x0, 0x0⟩,  -- SA_STAT
  ⟨0xA000C, 2, 0x1000, 1, 0x0, 0x0, 0x0, 0x0, 0x0, 0x0, 0x0⟩,  -- SA_CNT
  ⟨0xA0010, 2, 0x1000, 1, 0x0, 0x0, 0x0, 0xFFFFF, 0x0, 0x0, 0x0⟩,  -- SA_ALERT
  ⟨0xA0014, 2, 0x1000, 1, 0x0, 0x80000000, 0x0, 0x0, 0x0, 0x0, 0x0⟩,  -- SA_CAL
  ⟨0xA0018, 2, 0x1000, 1, 0x0, 0x10, 0xFFF, 0x0, 0x0, 0x0, 0x0⟩,  -- SA_HYS
  ⟨0xA0040, 2, 0x1000, 16, 0x4, 0x1B, 0xC701001F, 0x0, 0x0, 0x0, 0x0⟩,  -- SA_RSEQk
  ⟨0xA0080, 2, 0x1000, 4, 0x4, 0x1B, 0xC701001F, 0x0, 0x0, 0x0, 0x0⟩,  -- SA_ISEQj
  ⟨0xA00C0, 2, 0x1000, 16, 0x4, 0x7FFF8000, 0xFFFFFFFF, 0x0, 0x0, 0x0, 0x0⟩,  -- SA_RCMPk
  ⟨0xA0100, 2, 0x1000, 4, 0x4, 0x7FFF8000, 0xFFFFFFFF, 0x0, 0x0, 0x0, 0x0⟩,  -- SA_ICMPj
  ⟨0xA0200, 2, 0x1000, 16, 0x10, 0x0, 0x0, 0x0, 0x0, 0x0, 0x0⟩,  -- SA_RESk
  ⟨0xA0204, 2, 0x1000, 16, 0x10, 0x0, 0x0, 0x0, 0x0, 0x0, 0x0⟩,  -- SA_RESkTL
  ⟨0xA0208, 2, 0x1000, 16, 0x10, 0x0, 0x0, 0x0, 0x0, 0x0, 0x0⟩,  -- SA_RESkTH
  ⟨0xA0300, 2, 0x1000, 4, 0x10, 0x0, 0x0, 0x0, 0x0, 0x0, 0x0⟩,  -- SA_INJj
  ⟨0xA0304, 2, 0x1000, 4, 0x10, 0x0, 0x0, 0x0, 0x0, 0x0, 0x0⟩,  -- SA_INJjTL
  ⟨0xA0308, 2, 0x1000, 4, 0x10, 0x0, 0x0, 0x0, 0x0, 0x0, 0x0⟩,  -- SA_INJjTH
  ⟨0xA2000, 1, 0x0, 1, 0x0, 0x0, 0x0, 0x0, 0x8000011F, 0x0, 0x0⟩,  -- SA_ZCMD
  ⟨0xA2004, 1, 0x0, 1, 0x0, 0x0, 0x0, 0x0, 0x0, 0x0, 0x0⟩,  -- SA_ZSTAT
  ⟨0xA2040, 16, 0x4, 1, 0x0, 0x0, 0xC000FFFF, 0x0, 0x0, 0x0, 0x0⟩]  -- SA_ZOFSi

/-- The registers of the FE space (Table 19-1, Table 19-2). -/
def regTableFE : List RegDef := [
  ⟨0xB0000, 1, 0x0, 1, 0x0, 0x3E8, 0xFFFF, 0x0, 0x0, 0x0, 0x0⟩,  -- FE_CFG
  ⟨0xB0004, 1, 0x0, 1, 0x0, 0x0, 0x0, 0x3F, 0x0, 0x0, 0x0⟩,  -- FE_STAT
  ⟨0xB0008, 1, 0x0, 1, 0x0, 0x0, 0x0, 0x0, 0x0, 0x0, 0x0⟩,  -- FE_CNT
  ⟨0xB0010, 1, 0x0, 1, 0x0, 0x7D0, 0x8F8FFFFF, 0x0, 0x0, 0x0, 0x0⟩,  -- FE_LCFG
  ⟨0xB0014, 1, 0x0, 1, 0x0, 0x7FFF0000, 0xFFFFFFFF, 0x0, 0x0, 0x0, 0x0⟩,  -- FE_LZMAP
  ⟨0xB0018, 1, 0x0, 1, 0x0, 0x7FFF0000, 0xFFFFFFFF, 0x0, 0x0, 0x0, 0x0⟩,  -- FE_LFMAP
  ⟨0xB001C, 1, 0x0, 1, 0x0, 0x0, 0x0, 0x0, 0x0, 0x0, 0x0⟩,  -- FE_LSTATE
  ⟨0xB0100, 16, 0x20, 1, 0x0, 0x38000, 0xFFFFFF00, 0x0, 0x0, 0x0, 0x0⟩,  -- FE_FCnCFG
  ⟨0xB0104, 16, 0x20, 1, 0x0, 0x10, 0x3FF1FDFF, 0x0, 0x0, 0x0, 0x0⟩,  -- FE_FCnDEC
  ⟨0xB0108, 16, 0x20, 1, 0x0, 0x0, 0xFFFF, 0x0, 0x0, 0x0, 0x0⟩,  -- FE_FCnGD
  ⟨0xB010C, 16, 0x20, 1, 0x0, 0x28A, 0xFFFFFFFF, 0x0, 0x0, 0x0, 0x0⟩,  -- FE_FCnDET
  ⟨0xB0110, 16, 0x20, 1, 0x0, 0x0, 0x0, 0x0, 0x0, 0x0, 0x0⟩,  -- FE_FCnOUT
  ⟨0xB0114, 16, 0x20, 1, 0x0, 0x0, 0x0, 0x0, 0x0, 0x0, 0x0⟩,  -- FE_FCnSTAT
  ⟨0xB0118, 16, 0x20, 1, 0x0, 0x0, 0x0, 0x0, 0x0, 0x0, 0x0⟩,  -- FE_FCnTCOR
  ⟨0xB011C, 16, 0x20, 1, 0x0, 0x0, 0x0, 0x0, 0x0, 0x0, 0x0⟩,  -- FE_FCnDLY
  ⟨0xB0300, 16, 0x10, 1, 0x0, 0x0, 0x0, 0x0, 0x0, 0x0, 0x0⟩,  -- FE_FCnPK
  ⟨0xB0304, 16, 0x10, 1, 0x0, 0x0, 0x0, 0x0, 0x0, 0x0, 0x0⟩,  -- FE_FCnRMS
  ⟨0xB0308, 16, 0x10, 1, 0x0, 0x0, 0x0, 0x0, 0x0, 0x0, 0x0⟩,  -- FE_FCnENV
  ⟨0xB0400, 16, 0x8, 1, 0x0, 0x0, 0x0, 0x0, 0x0, 0x0, 0x0⟩,  -- FE_FCnANG
  ⟨0xB0404, 16, 0x8, 1, 0x0, 0x0, 0x0, 0x0, 0x0, 0x0, 0x0⟩,  -- FE_FCnMAG
  ⟨0xB0480, 16, 0x4, 1, 0x0, 0xFFFF0000, 0xFFFFFFFF, 0x0, 0x0, 0x0, 0x0⟩,  -- FE_FCnMLIM
  ⟨0xB1000, 1024, 0x4, 1, 0x0, 0x0, 0x3FFFF, 0x0, 0x0, 0x0, 0x0⟩]  -- FE_COEFi

/-- The registers of the TH space (Table 19-1, Table 19-2). -/
def regTableTH : List RegDef := [
  ⟨0xC0000, 1, 0x0, 1, 0x0, 0x87433250, 0xFFFFFFF0, 0x0, 0x0, 0x0, 0x0⟩,  -- TH_CFG
  ⟨0xC0004, 1, 0x0, 1, 0x0, 0x19, 0xFF, 0x0, 0x0, 0x0, 0x0⟩,  -- TH_CHK
  ⟨0xC0008, 1, 0x0, 1, 0x0, 0x30000000, 0x0, 0x0, 0x0, 0x0, 0x0⟩,  -- TH_STAT
  ⟨0xC000C, 1, 0x0, 1, 0x0, 0x0, 0x0, 0x0, 0x0, 0x0, 0x0⟩,  -- TH_LEVEL
  ⟨0xC0010, 1, 0x0, 1, 0x0, 0x0, 0x0, 0x0, 0x0, 0x0, 0x0⟩,  -- TH_CNT
  ⟨0xC0014, 1, 0x0, 1, 0x0, 0x0, 0x0, 0x0, 0x0, 0x0, 0x0⟩,  -- TH_FAIL
  ⟨0xC0018, 1, 0x0, 1, 0x0, 0x0, 0x0, 0x0, 0x0, 0x0, 0x0⟩,  -- TH_RGNDIV
  ⟨0xC0100, 24, 0x4, 1, 0x0, 0x0, 0x0, 0x0, 0x0, 0x0, 0x0⟩,  -- TH_TSn
  ⟨0xC1000, 1, 0x0, 1, 0x0, 0x0, 0x0, 0x0, 0x3, 0x0, 0x0⟩,  -- PM_CMD
  ⟨0xC1004, 1, 0x0, 1, 0x0, 0x0, 0x0, 0x3, 0x0, 0x0, 0x0⟩,  -- PM_STAT
  ⟨0xC1010, 8, 0x4, 1, 0x0, 0x0, 0x0, 0x0, 0x0, 0x0, 0x0⟩,  -- PM_BLKi
  ⟨0xC1030, 1, 0x0, 1, 0x0, 0x0, 0x0, 0x0, 0x0, 0x0, 0x0⟩,  -- PM_RGN
  ⟨0xC1034, 1, 0x0, 1, 0x0, 0x0, 0x0, 0x0, 0x0, 0x0, 0x0⟩,  -- PM_LG
  ⟨0xC1038, 1, 0x0, 1, 0x0, 0x0, 0x0, 0x0, 0x0, 0x0, 0x0⟩]  -- PM_OTHER

/-- The registers of the SP space (Table 19-1, Table 19-2). -/
def regTableSP : List RegDef := [
  ⟨0xD0000, 1, 0x0, 1, 0x0, 0x0, 0x0, 0x0, 0x0, 0x0, 0x0⟩,  -- SP_STAT
  ⟨0xD0004, 1, 0x0, 1, 0x0, 0x0, 0x0, 0x0, 0x0, 0x0, 0x0⟩,  -- SP_SUPLAST
  ⟨0xD0008, 1, 0x0, 1, 0x0, 0x0, 0x0, 0x0, 0x0, 0x0, 0x0⟩,  -- SP_WDSTAT
  ⟨0xD000C, 1, 0x0, 1, 0x0, 0x800003FC, 0x0, 0x0, 0x0, 0x0, 0x800007FF⟩,  -- SP_ALERT
  ⟨0xD0010, 1, 0x0, 1, 0x0, 0x0, 0x0, 0x0, 0x0, 0x0, 0x1F⟩,  -- SP_OTPEN
  ⟨0xD0040, 4, 0x20, 1, 0x0, 0x3E8, 0x0, 0x0, 0x0, 0x0, 0x8000FFFF⟩,  -- SP_PGnCFG
  ⟨0xD0044, 4, 0x20, 1, 0x0, 0xDAC, 0x0, 0x0, 0x0, 0x0, 0xFFFF⟩,  -- SP_PGnTOUT
  ⟨0xD0048, 4, 0x20, 1, 0x0, 0x10000, 0x0, 0x0, 0x0, 0x0, 0x7FFFFFFF⟩,  -- SP_PGnMAG
  ⟨0xD004C, 4, 0x20, 1, 0x0, 0x1000, 0x0, 0x0, 0x0, 0x0, 0x7FFFFFFF⟩,  -- SP_PGnSLEW
  ⟨0xD0050, 4, 0x20, 1, 0x0, 0x0, 0x0, 0x0, 0x0, 0x0, 0x0⟩]  -- SP_PGnSTAT

/-- The registers of the BT space (Table 19-1, Table 19-2). -/
def regTableBT : List RegDef := [
  ⟨0xE0000, 1, 0x0, 1, 0x0, 0x3E8, 0xFFFF, 0x0, 0x0, 0x0, 0x0⟩,  -- BT_CTRL
  ⟨0xE0004, 1, 0x0, 1, 0x0, 0x0, 0x0, 0x2, 0x0, 0x0, 0x0⟩,  -- BT_CFGSTAT
  ⟨0xE0008, 1, 0x0, 1, 0x0, 0x0, 0x0, 0x0, 0x0, 0x0, 0x0⟩,  -- BT_PINSTAT
  ⟨0xE0010, 6, 0x4, 1, 0x0, 0x0, 0x0, 0x0, 0x0, 0x0, 0x0⟩,  -- BT_PINOWNi
  ⟨0xE0028, 1, 0x0, 1, 0x0, 0x0, 0x0, 0x0, 0x0, 0x0, 0x0⟩,  -- BT_I3CSTAT
  ⟨0xE002C, 1, 0x0, 1, 0x0, 0x0, 0x0, 0x0, 0x0, 0x0, 0x0⟩]  -- BT_SPD

/-- The registers of the OT space (Table 19-1, Table 19-2). -/
def regTableOT : List RegDef := [
  ⟨0xF0000, 1, 0x0, 1, 0x0, 0x0, 0xC0FF00FF, 0x0, 0x0, 0x0, 0x0⟩,  -- OT_ADDR
  ⟨0xF0004, 1, 0x0, 1, 0x0, 0x0, 0xFFFFFFFF, 0x0, 0x0, 0x0, 0x0⟩,  -- OT_WDATA0
  ⟨0xF0008, 1, 0x0, 1, 0x0, 0x0, 0xFFFFFFFF, 0x0, 0x0, 0x0, 0x0⟩,  -- OT_WDATA1
  ⟨0xF000C, 1, 0x0, 1, 0x0, 0x0, 0x0, 0x0, 0xFFFF000F, 0x0, 0x0⟩,  -- OT_CMD
  ⟨0xF0010, 1, 0x0, 1, 0x0, 0x0, 0x0, 0x3, 0x0, 0x0, 0x0⟩,  -- OT_STAT
  ⟨0xF0014, 1, 0x0, 1, 0x0, 0x0, 0x0, 0x0, 0x0, 0x0, 0x0⟩,  -- OT_CNT
  ⟨0xF0018, 1, 0x0, 1, 0x0, 0x0, 0x0, 0x0, 0x0, 0x0, 0x0⟩,  -- OT_DRIFT
  ⟨0xF0020, 1, 0x0, 1, 0x0, 0x0, 0x0, 0x0, 0x0, 0x0, 0x0⟩,  -- OT_RDLO0
  ⟨0xF0024, 1, 0x0, 1, 0x0, 0x0, 0x0, 0x0, 0x0, 0x0, 0x0⟩,  -- OT_RDLO1
  ⟨0xF0028, 1, 0x0, 1, 0x0, 0x0, 0x0, 0x0, 0x0, 0x0, 0x0⟩,  -- OT_RDHI0
  ⟨0xF002C, 1, 0x0, 1, 0x0, 0x0, 0x0, 0x0, 0x0, 0x0, 0x0⟩,  -- OT_RDHI1
  ⟨0xF0030, 1, 0x0, 1, 0x0, 0x0, 0x0, 0x0, 0x0, 0x0, 0x0⟩,  -- OT_RDCHK
  ⟨0xF0100, 32, 0x4, 1, 0x0, 0x0, 0x0, 0x0, 0x0, 0x0, 0x0⟩]  -- OT_BLKSTi

/-- The registers of the BLK space (Table 19-1, Table 19-2). -/
def regTableBLK : List RegDef := [
  ⟨0x100000, 256, 0x1000, 1, 0x0, 0x0, 0x0, 0x0, 0x0, 0x1, 0x0⟩,  -- BLK_CFG
  ⟨0x100004, 256, 0x1000, 1, 0x0, 0x0, 0x0, 0x0, 0x0, 0x0, 0x0⟩,  -- BLK_STAT
  ⟨0x100010, 256, 0x1000, 8, 0x4, 0x0, 0x0, 0x0, 0x0, 0x0, 0x0⟩,  -- BLK_CSETi
  ⟨0x100030, 256, 0x1000, 8, 0x4, 0x0, 0x0, 0x0, 0x0, 0x0, 0x0⟩]  -- BLK_FAILi

/-- Table 19-1: the registers of the space that holds address `a`; none for 0x20_0000 and above (R501). -/
def regSpace (a : Nat) : List RegDef :=
  match a / 0x10000 with
  | 0 => regTableID
  | 1 => regTableTB
  | 2 => regTableEX
  | 3 => regTableRD
  | 4 => regTableTK
  | 5 => regTableS1
  | 6 => regTableCS
  | 7 => regTableCP
  | 8 => regTableLK
  | 9 => regTablePK
  | 10 => regTableSA
  | 11 => regTableFE
  | 12 => regTableTH
  | 13 => regTableSP
  | 14 => regTableBT
  | 15 => regTableOT
  | _ => if 0x100000 ≤ a ∧ a < 0x200000 then regTableBLK else []

/-- Whether address `a` is an instance of register `d` (R502). -/
def RegDef.holds (d : RegDef) (a : Nat) : Bool :=
  d.base ≤ a &&
    (let o := a - d.base
     if d.s1 = 0 then o == 0
     else if d.s2 = 0 then o % d.s1 == 0 && decide (o / d.s1 < d.c1)
     else decide (o / d.s1 < d.c1) && o % d.s1 % d.s2 == 0 && decide (o % d.s1 / d.s2 < d.c2))

/-- The register at a byte address, or none where the address is unmapped (R501). -/
def findReg (a : Nat) : Option RegDef := (regSpace a).find? (·.holds a)

/-- The reset value of the register at `a` (Table 19-2, the rows whose reset depends on the instance first, R503). The
fuse, strap and variant fields stand at 0 here: the boot writes them (log entry 4). -/
def resetWord (a : Nat) : BitVec 32 :=
  if a = 0x09041C then 0x0000FFFF#32
  else if a = 0x070040 ∨ a = 0x070050 ∨ a = 0x070060 then 0x00001000#32
  else if a = 0x030100 then 0x80000000#32
  else if a = 0x0D0040 then 0x800003E8#32
  else match findReg a with
    | none => 0#32
    | some d =>
      if d.base = 0x071000 then
        let i := a % 0x1000 / 4
        BitVec.ofNat 32 ((128 * i + 64) * 65536 + 128 * i)
      else BitVec.ofNat 32 d.reset

end Sys2Proof.Machine
end

