-- ==== Sys2Proof/Machine/Regs.lean ====
section
/-! DEFINITION. The register fields by name: for each field of the register tables of spec/ its register's address and
strides (R502), its lowest bit and its width. `Reg.A` is the field's place, used for reading, writing and in statements.
The names are the spec's: register, underscore, field. -/
namespace Sys2Proof.Machine

/-- A field: register base address, instance strides, lowest bit, width (R502), and whether its access code is
W1C (R8). -/
structure Fld where
  base : Nat
  s1 : Nat
  s2 : Nat
  lo : Nat
  w : Nat
  w1c : Bool
  deriving DecidableEq, Repr

/-- The address of instance `i`, `j` of a field's register (R502). -/
def Fld.addr (f : Fld) (i j : Nat) : Nat := f.base + f.s1 * i + f.s2 * j

namespace Reg

/-! ID_DEVSTATE -/
def ID_DEVSTATE_CAUSE : Fld := ⟨0x10, 0x0, 0x0, 16, 8, false⟩
def ID_DEVSTATE_PREV : Fld := ⟨0x10, 0x0, 0x0, 8, 4, false⟩
def ID_DEVSTATE_STATE : Fld := ⟨0x10, 0x0, 0x0, 0, 4, false⟩
/-! ID_FAULTSUM -/
def ID_FAULTSUM_DISCARD : Fld := ⟨0x14, 0x0, 0x0, 10, 1, true⟩
def ID_FAULTSUM_SUPPLY : Fld := ⟨0x14, 0x0, 0x0, 9, 1, true⟩
def ID_FAULTSUM_WDOG : Fld := ⟨0x14, 0x0, 0x0, 8, 1, true⟩
def ID_FAULTSUM_REFCLK : Fld := ⟨0x14, 0x0, 0x0, 7, 1, true⟩
def ID_FAULTSUM_PLL : Fld := ⟨0x14, 0x0, 0x0, 6, 1, true⟩
def ID_FAULTSUM_CSFAIL : Fld := ⟨0x14, 0x0, 0x0, 5, 1, true⟩
def ID_FAULTSUM_LGFAIL : Fld := ⟨0x14, 0x0, 0x0, 4, 1, true⟩
def ID_FAULTSUM_RGNFAIL : Fld := ⟨0x14, 0x0, 0x0, 3, 1, true⟩
def ID_FAULTSUM_BLKFAIL : Fld := ⟨0x14, 0x0, 0x0, 2, 1, true⟩
def ID_FAULTSUM_CELLFAIL : Fld := ⟨0x14, 0x0, 0x0, 1, 1, true⟩
def ID_FAULTSUM_OVERFLOW : Fld := ⟨0x14, 0x0, 0x0, 0, 1, true⟩
/-! ID_FAILCNT -/
def ID_FAILCNT_RGN : Fld := ⟨0x18, 0x0, 0x0, 26, 5, false⟩
def ID_FAILCNT_BLK : Fld := ⟨0x18, 0x0, 0x0, 17, 9, false⟩
def ID_FAILCNT_CELL : Fld := ⟨0x18, 0x0, 0x0, 0, 17, false⟩
/-! ID_CTRLSTAT -/
def ID_CTRLSTAT_LIVESRC : Fld := ⟨0x1C, 0x0, 0x0, 31, 1, false⟩
def ID_CTRLSTAT_UNAVAIL : Fld := ⟨0x1C, 0x0, 0x0, 30, 1, true⟩
def ID_CTRLSTAT_EARLYCNT : Fld := ⟨0x1C, 0x0, 0x0, 8, 8, false⟩
def ID_CTRLSTAT_REJCNT : Fld := ⟨0x1C, 0x0, 0x0, 0, 8, false⟩
/-! ID_ARRAY -/
def ID_ARRAY_SITEROWS : Fld := ⟨0x20, 0x0, 0x0, 24, 8, false⟩
def ID_ARRAY_SITECOLS : Fld := ⟨0x20, 0x0, 0x0, 16, 8, false⟩
def ID_ARRAY_CFA : Fld := ⟨0x20, 0x0, 0x0, 2, 2, false⟩
def ID_ARRAY_VARIANT : Fld := ⟨0x20, 0x0, 0x0, 0, 1, false⟩
/-! EX_PIXCFG -/
def EX_PIXCFG_HOLDWARN : Fld := ⟨0x200F0, 0x0, 0x0, 16, 8, false⟩
def EX_PIXCFG_ABLVL : Fld := ⟨0x200F0, 0x0, 0x0, 6, 2, false⟩
def EX_PIXCFG_CHGBIN : Fld := ⟨0x200F0, 0x0, 0x0, 0, 1, false⟩
/-! EX_PIXSTAT -/
def EX_PIXSTAT_HOLDCNT : Fld := ⟨0x200F4, 0x0, 0x0, 16, 16, false⟩
def EX_PIXSTAT_BINIGN : Fld := ⟨0x200F4, 0x0, 0x0, 1, 1, true⟩
def EX_PIXSTAT_HOLDLONG : Fld := ⟨0x200F4, 0x0, 0x0, 0, 1, true⟩
/-! TB_nCFG -/
def TB_CFG_PINI : Fld := ⟨0x10000, 0x40, 0x0, 27, 5, false⟩
def TB_CFG_PINB : Fld := ⟨0x10000, 0x40, 0x0, 22, 5, false⟩
def TB_CFG_PINA : Fld := ⟨0x10000, 0x40, 0x0, 17, 5, false⟩
def TB_CFG_IDXEN : Fld := ⟨0x10000, 0x40, 0x0, 16, 1, false⟩
def TB_CFG_INV : Fld := ⟨0x10000, 0x40, 0x0, 15, 1, false⟩
def TB_CFG_SEDGE : Fld := ⟨0x10000, 0x40, 0x0, 14, 1, false⟩
def TB_CFG_FCH : Fld := ⟨0x10000, 0x40, 0x0, 8, 4, false⟩
def TB_CFG_SRC : Fld := ⟨0x10000, 0x40, 0x0, 0, 3, false⟩
/-! TB_nMOD -/
def TB_MOD_MODULUS : Fld := ⟨0x10004, 0x40, 0x0, 0, 32, false⟩
/-! TB_nLIM -/
def TB_LIM_VMAX : Fld := ⟨0x1000C, 0x40, 0x0, 16, 16, false⟩
def TB_LIM_RESMAX : Fld := ⟨0x1000C, 0x40, 0x0, 0, 16, false⟩
/-! TB_nPMIN -/
def TB_PMIN_PMIN : Fld := ⟨0x10010, 0x40, 0x0, 0, 32, false⟩
/-! TB_nPMAX -/
def TB_PMAX_PMAX : Fld := ⟨0x10014, 0x40, 0x0, 0, 32, false⟩
/-! TB_nTO -/
def TB_TO_IDXTO : Fld := ⟨0x10018, 0x40, 0x0, 24, 8, false⟩
def TB_TO_COASTMAX : Fld := ⟨0x10018, 0x40, 0x0, 0, 16, false⟩
/-! TB_nGAIN -/
def TB_GAIN_ALPHA : Fld := ⟨0x10008, 0x40, 0x0, 16, 16, false⟩
def TB_GAIN_BETA : Fld := ⟨0x10008, 0x40, 0x0, 0, 16, false⟩
/-! TB_nPOS -/
def TB_POS_COUNT : Fld := ⟨0x10020, 0x40, 0x0, 0, 32, false⟩
/-! TB_nPOSF -/
def TB_POSF_FRAC : Fld := ⟨0x10024, 0x40, 0x0, 16, 16, false⟩
def TB_POSF_RES : Fld := ⟨0x10024, 0x40, 0x0, 0, 16, false⟩
/-! TB_nRATE -/
def TB_RATE_RATE : Fld := ⟨0x10028, 0x40, 0x0, 0, 32, false⟩
/-! TB_nSTAT -/
def TB_STAT_ERRCNT : Fld := ⟨0x10030, 0x40, 0x0, 24, 8, false⟩
def TB_STAT_ABS : Fld := ⟨0x10030, 0x40, 0x0, 15, 1, false⟩
def TB_STAT_CSTATE : Fld := ⟨0x10030, 0x40, 0x0, 12, 3, false⟩
def TB_STAT_RESERR : Fld := ⟨0x10030, 0x40, 0x0, 7, 1, true⟩
def TB_STAT_SRCINV : Fld := ⟨0x10030, 0x40, 0x0, 6, 1, true⟩
def TB_STAT_PERIODERR : Fld := ⟨0x10030, 0x40, 0x0, 5, 1, true⟩
def TB_STAT_SYNCMISS : Fld := ⟨0x10030, 0x40, 0x0, 4, 1, true⟩
def TB_STAT_IDXERR : Fld := ⟨0x10030, 0x40, 0x0, 3, 1, true⟩
def TB_STAT_IDXLOST : Fld := ⟨0x10030, 0x40, 0x0, 2, 1, true⟩
def TB_STAT_VELERR : Fld := ⟨0x10030, 0x40, 0x0, 1, 1, true⟩
def TB_STAT_QERR : Fld := ⟨0x10030, 0x40, 0x0, 0, 1, true⟩
/-! TB_TIMELO -/
def TB_TIMELO_TLO : Fld := ⟨0x10100, 0x0, 0x0, 0, 32, false⟩
/-! TB_TIMEHI -/
def TB_TIMEHI_THI : Fld := ⟨0x10104, 0x0, 0x0, 0, 32, false⟩
/-! TB_RIG -/
def TB_RIG_MASTER : Fld := ⟨0x10108, 0x0, 0x0, 31, 1, false⟩
def TB_RIG_HOP : Fld := ⟨0x10108, 0x0, 0x0, 24, 4, false⟩
def TB_RIG_RSTATE : Fld := ⟨0x10108, 0x0, 0x0, 22, 2, false⟩
def TB_RIG_LOSSCNT : Fld := ⟨0x10108, 0x0, 0x0, 16, 4, false⟩
def TB_RIG_OFFSET : Fld := ⟨0x10108, 0x0, 0x0, 0, 16, false⟩
/-! EV_nCFG -/
def EV_CFG_ARM : Fld := ⟨0x10400, 0x20, 0x0, 31, 1, false⟩
def EV_CFG_STRICT : Fld := ⟨0x10400, 0x20, 0x0, 30, 1, false⟩
def EV_CFG_DIR : Fld := ⟨0x10400, 0x20, 0x0, 28, 2, false⟩
def EV_CFG_MODE : Fld := ⟨0x10400, 0x20, 0x0, 26, 2, false⟩
def EV_CFG_CH : Fld := ⟨0x10400, 0x20, 0x0, 24, 2, false⟩
def EV_CFG_REPCNT : Fld := ⟨0x10400, 0x20, 0x0, 16, 8, false⟩
def EV_CFG_RIGBC : Fld := ⟨0x10400, 0x20, 0x0, 15, 1, false⟩
def EV_CFG_ACTION : Fld := ⟨0x10400, 0x20, 0x0, 8, 4, false⟩
def EV_CFG_ARG : Fld := ⟨0x10400, 0x20, 0x0, 0, 8, false⟩
/-! EV_nPOS -/
def EV_POS_POS : Fld := ⟨0x10404, 0x20, 0x0, 0, 32, false⟩
/-! EV_nFRAC -/
def EV_FRAC_POSF : Fld := ⟨0x10408, 0x20, 0x0, 16, 16, false⟩
def EV_FRAC_STEPF : Fld := ⟨0x10408, 0x20, 0x0, 0, 16, false⟩
/-! EV_nDELAY -/
def EV_DELAY_DELAY : Fld := ⟨0x1040C, 0x20, 0x0, 0, 32, false⟩
/-! EV_nSTEP -/
def EV_STEP_STEP : Fld := ⟨0x10410, 0x20, 0x0, 0, 32, false⟩
/-! EV_nSTAT -/
def EV_STAT_SSTATE : Fld := ⟨0x10414, 0x20, 0x0, 28, 2, false⟩
def EV_STAT_DONE : Fld := ⟨0x10414, 0x20, 0x0, 16, 8, false⟩
def EV_STAT_MISSED : Fld := ⟨0x10414, 0x20, 0x0, 8, 8, false⟩
def EV_STAT_DROPPED : Fld := ⟨0x10414, 0x20, 0x0, 0, 8, false⟩
/-! EV_nTIME -/
def EV_TIME_TE : Fld := ⟨0x10418, 0x20, 0x0, 0, 32, false⟩
/-! EV_nLATE -/
def EV_LATE_LATE : Fld := ⟨0x1041C, 0x20, 0x0, 0, 32, false⟩
/-! EV_SUM -/
def EV_SUM_COLLCNT : Fld := ⟨0x10300, 0x0, 0x0, 24, 8, false⟩
def EV_SUM_LATECMT : Fld := ⟨0x10300, 0x0, 0x0, 16, 8, false⟩
def EV_SUM_BADCNT : Fld := ⟨0x10300, 0x0, 0x0, 8, 8, false⟩
/-! TB_SCHED -/
def TB_SCHED_VBMIN : Fld := ⟨0x1010C, 0x0, 0x0, 16, 16, false⟩
def TB_SCHED_LEAD : Fld := ⟨0x1010C, 0x0, 0x0, 0, 9, false⟩
/-! TB_PULSE -/
def TB_PULSE_WIDTH : Fld := ⟨0x10120, 0x0, 0x0, 0, 16, false⟩
/-! TB_LATTLO -/
def TB_LATTLO_T : Fld := ⟨0x10180, 0x0, 0x0, 0, 32, false⟩
/-! TB_LATTHI -/
def TB_LATTHI_T : Fld := ⟨0x10184, 0x0, 0x0, 0, 32, false⟩
/-! TB_LATnPOS -/
def TB_LATCH_POS_COUNT : Fld := ⟨0x10188, 0x8, 0x0, 0, 32, false⟩
/-! TB_LATnFRAC -/
def TB_LATCH_FRAC_FRAC : Fld := ⟨0x1018C, 0x8, 0x0, 16, 16, false⟩
def TB_LATCH_FRAC_ABS : Fld := ⟨0x1018C, 0x8, 0x0, 3, 1, false⟩
def TB_LATCH_FRAC_CSTATE : Fld := ⟨0x1018C, 0x8, 0x0, 0, 3, false⟩
/-! TB_TRIG -/
def TB_TRIG_EN : Fld := ⟨0x1011C, 0x0, 0x0, 31, 1, false⟩
def TB_TRIG_STRICT : Fld := ⟨0x1011C, 0x0, 0x0, 30, 1, false⟩
def TB_TRIG_RIGSYNC : Fld := ⟨0x1011C, 0x0, 0x0, 29, 1, false⟩
def TB_TRIG_EDGE : Fld := ⟨0x1011C, 0x0, 0x0, 27, 2, false⟩
def TB_TRIG_PIN : Fld := ⟨0x1011C, 0x0, 0x0, 22, 5, false⟩
def TB_TRIG_MINW : Fld := ⟨0x1011C, 0x0, 0x0, 0, 16, false⟩
/-! TB_SKIP -/
def TB_SKIP_SKIPTH : Fld := ⟨0x10110, 0x0, 0x0, 0, 32, false⟩
/-! TB_SKIPTOT -/
def TB_SKIPTOT_LATETOT : Fld := ⟨0x10114, 0x0, 0x0, 16, 16, false⟩
def TB_SKIPTOT_SKIPTOT : Fld := ⟨0x10114, 0x0, 0x0, 0, 16, false⟩
/-! TB_DROPTOT -/
def TB_DROPTOT_DROPTOT : Fld := ⟨0x10118, 0x0, 0x0, 0, 16, false⟩
/-! EX_MODE -/
def EX_MODE_BURSTLEN : Fld := ⟨0x20000, 0x0, 0x0, 20, 4, false⟩
def EX_MODE_FREERUN : Fld := ⟨0x20000, 0x0, 0x0, 16, 1, false⟩
def EX_MODE_HDROUT : Fld := ⟨0x20000, 0x0, 0x0, 8, 1, false⟩
def EX_MODE_ALIGN : Fld := ⟨0x20000, 0x0, 0x0, 4, 1, false⟩
def EX_MODE_SHUTTER : Fld := ⟨0x20000, 0x0, 0x0, 0, 2, false⟩
/-! EX_FRPER -/
def EX_FRPER_PERIOD : Fld := ⟨0x20004, 0x0, 0x0, 0, 32, false⟩
/-! EX_COMMIT -/
def EX_COMMIT_GO : Fld := ⟨0x20008, 0x0, 0x0, 0, 1, false⟩
/-! EX_GEN -/
def EX_GEN_LASTCMT : Fld := ⟨0x2000C, 0x0, 0x0, 16, 16, false⟩
def EX_GEN_INFORCE : Fld := ⟨0x2000C, 0x0, 0x0, 0, 16, false⟩
/-! EX_STAT -/
def EX_STAT_IGNCNT : Fld := ⟨0x20010, 0x0, 0x0, 16, 16, false⟩
def EX_STAT_PENDING : Fld := ⟨0x20010, 0x0, 0x0, 7, 1, false⟩
def EX_STAT_ANGFB : Fld := ⟨0x20010, 0x0, 0x0, 6, 1, true⟩
def EX_STAT_HDRCLAMP : Fld := ⟨0x20010, 0x0, 0x0, 5, 1, true⟩
def EX_STAT_DURCLAMP : Fld := ⟨0x20010, 0x0, 0x0, 3, 1, true⟩
def EX_STAT_STEXPCLAMP : Fld := ⟨0x20010, 0x0, 0x0, 2, 1, true⟩
def EX_STAT_TAPBWAIT : Fld := ⟨0x20010, 0x0, 0x0, 1, 1, true⟩
/-! EX_HDR -/
def EX_HDR_RATIO : Fld := ⟨0x20014, 0x0, 0x0, 8, 7, false⟩
def EX_HDR_SLICES : Fld := ⟨0x20014, 0x0, 0x0, 0, 4, false⟩
/-! EX_ECnCFG -/
def EX_EC_CFG_ANGLE : Fld := ⟨0x20020, 0x10, 0x0, 31, 1, false⟩
def EX_EC_CFG_ANGCH : Fld := ⟨0x20020, 0x10, 0x0, 29, 2, false⟩
def EX_EC_CFG_GAIN : Fld := ⟨0x20020, 0x10, 0x0, 24, 2, false⟩
/-! EX_ECnOFS -/
def EX_EC_OFS_OFS : Fld := ⟨0x20024, 0x10, 0x0, 0, 32, false⟩
/-! EX_ECnDUR -/
def EX_EC_DUR_DUR : Fld := ⟨0x20028, 0x10, 0x0, 0, 32, false⟩
/-! EX_ECnDURB -/
def EX_EC_DURB_DURB : Fld := ⟨0x2002C, 0x10, 0x0, 0, 32, false⟩
/-! EX_BURSTm -/
def EX_BURST_USEMAP : Fld := ⟨0x200A0, 0x4, 0x0, 31, 1, false⟩
def EX_BURST_CLASS : Fld := ⟨0x200A0, 0x4, 0x0, 0, 3, false⟩
/-! EX_MAPi -/
def EX_MAP_CLASS7 : Fld := ⟨0x28000, 0x4, 0x0, 28, 3, false⟩
def EX_MAP_CLASS6 : Fld := ⟨0x28000, 0x4, 0x0, 24, 3, false⟩
def EX_MAP_CLASS5 : Fld := ⟨0x28000, 0x4, 0x0, 20, 3, false⟩
def EX_MAP_CLASS4 : Fld := ⟨0x28000, 0x4, 0x0, 16, 3, false⟩
def EX_MAP_CLASS3 : Fld := ⟨0x28000, 0x4, 0x0, 12, 3, false⟩
def EX_MAP_CLASS2 : Fld := ⟨0x28000, 0x4, 0x0, 8, 3, false⟩
def EX_MAP_CLASS1 : Fld := ⟨0x28000, 0x4, 0x0, 4, 3, false⟩
def EX_MAP_CLASS0 : Fld := ⟨0x28000, 0x4, 0x0, 0, 3, false⟩
/-! EX_LECFG -/
def EX_LECFG_EN : Fld := ⟨0x20110, 0x0, 0x0, 31, 1, false⟩
def EX_LECFG_HYST : Fld := ⟨0x20110, 0x0, 0x0, 24, 2, false⟩
def EX_LECFG_CLIPMAX : Fld := ⟨0x20110, 0x0, 0x0, 0, 13, false⟩
/-! EX_LETH -/
def EX_LETH_MEANHI : Fld := ⟨0x20114, 0x0, 0x0, 16, 16, false⟩
def EX_LETH_MEANLO : Fld := ⟨0x20114, 0x0, 0x0, 0, 16, false⟩
/-! EX_LEBNDm -/
def EX_LEBND_MAX3 : Fld := ⟨0x20118, 0x4, 0x0, 28, 3, false⟩
def EX_LEBND_MIN3 : Fld := ⟨0x20118, 0x4, 0x0, 24, 3, false⟩
def EX_LEBND_MAX2 : Fld := ⟨0x20118, 0x4, 0x0, 20, 3, false⟩
def EX_LEBND_MIN2 : Fld := ⟨0x20118, 0x4, 0x0, 16, 3, false⟩
def EX_LEBND_MAX1 : Fld := ⟨0x20118, 0x4, 0x0, 12, 3, false⟩
def EX_LEBND_MIN1 : Fld := ⟨0x20118, 0x4, 0x0, 8, 3, false⟩
def EX_LEBND_MAX0 : Fld := ⟨0x20118, 0x4, 0x0, 4, 3, false⟩
def EX_LEBND_MIN0 : Fld := ⟨0x20118, 0x4, 0x0, 0, 3, false⟩
/-! EX_LESTAT -/
def EX_LESTAT_MOVES : Fld := ⟨0x20128, 0x0, 0x0, 16, 16, false⟩
def EX_LESTAT_ORDERR : Fld := ⟨0x20128, 0x0, 0x0, 2, 1, true⟩
def EX_LESTAT_SUSP : Fld := ⟨0x20128, 0x0, 0x0, 1, 1, false⟩
def EX_LESTAT_ACTIVE : Fld := ⟨0x20128, 0x0, 0x0, 0, 1, false⟩
/-! EX_DARKCFG -/
def EX_DARKCFG_LIGHTCNT : Fld := ⟨0x20130, 0x0, 0x0, 24, 8, false⟩
def EX_DARKCFG_LIGHTTH : Fld := ⟨0x20130, 0x0, 0x0, 12, 12, false⟩
def EX_DARKCFG_NFR : Fld := ⟨0x20130, 0x0, 0x0, 0, 6, false⟩
/-! EX_DARKCMD -/
def EX_DARKCMD_ABORT : Fld := ⟨0x20134, 0x0, 0x0, 1, 1, false⟩
def EX_DARKCMD_START : Fld := ⟨0x20134, 0x0, 0x0, 0, 1, false⟩
/-! EX_DARKSTAT -/
def EX_DARKSTAT_WORST : Fld := ⟨0x20138, 0x0, 0x0, 16, 16, false⟩
def EX_DARKSTAT_DONE : Fld := ⟨0x20138, 0x0, 0x0, 10, 6, false⟩
def EX_DARKSTAT_RESULT : Fld := ⟨0x20138, 0x0, 0x0, 4, 4, false⟩
def EX_DARKSTAT_DSTATE : Fld := ⟨0x20138, 0x0, 0x0, 0, 2, false⟩
/-! RD_CONV -/
def RD_CONV_REFEVERY : Fld := ⟨0x30000, 0x0, 0x0, 20, 4, false⟩
def RD_CONV_REFOUT : Fld := ⟨0x30000, 0x0, 0x0, 16, 1, false⟩
def RD_CONV_DGOUT : Fld := ⟨0x30000, 0x0, 0x0, 8, 1, false⟩
def RD_CONV_BITS : Fld := ⟨0x30000, 0x0, 0x0, 0, 1, false⟩
/-! RD_FILL -/
def RD_FILL_FILL : Fld := ⟨0x30004, 0x0, 0x0, 0, 16, false⟩
/-! RD_PACE -/
def RD_PACE_RDTIME : Fld := ⟨0x30008, 0x0, 0x0, 0, 32, false⟩
/-! RD_STRIPE -/
def RD_STRIPE_EN : Fld := ⟨0x3000C, 0x0, 0x0, 31, 1, false⟩
def RD_STRIPE_V0 : Fld := ⟨0x3000C, 0x0, 0x0, 8, 6, false⟩
def RD_STRIPE_H : Fld := ⟨0x3000C, 0x0, 0x0, 0, 7, false⟩
/-! RD_PDCFG -/
def RD_PDCFG_NOPD : Fld := ⟨0x30010, 0x0, 0x0, 31, 1, false⟩
def RD_PDCFG_HOLDOFF : Fld := ⟨0x30010, 0x0, 0x0, 8, 8, false⟩
def RD_PDCFG_GUARD : Fld := ⟨0x30010, 0x0, 0x0, 0, 8, false⟩
/-! RD_STAT -/
def RD_STAT_TRUNC : Fld := ⟨0x30014, 0x0, 0x0, 7, 1, true⟩
def RD_STAT_NOTREADY : Fld := ⟨0x30014, 0x0, 0x0, 6, 1, true⟩
def RD_STAT_EMPTY : Fld := ⟨0x30014, 0x0, 0x0, 5, 1, true⟩
def RD_STAT_ROLLFB : Fld := ⟨0x30014, 0x0, 0x0, 4, 1, true⟩
def RD_STAT_STRIPECLIP : Fld := ⟨0x30014, 0x0, 0x0, 3, 1, true⟩
def RD_STAT_PWCLIP : Fld := ⟨0x30014, 0x0, 0x0, 2, 1, true⟩
def RD_STAT_PWERR : Fld := ⟨0x30014, 0x0, 0x0, 1, 1, true⟩
/-! RD_SPAN -/
def RD_SPAN_TRD : Fld := ⟨0x30018, 0x0, 0x0, 0, 32, false⟩
/-! RD_TCONV -/
def RD_TCONV_TCONV : Fld := ⟨0x3001C, 0x0, 0x0, 0, 32, false⟩
/-! RD_CNT -/
def RD_CNT_OVFROWS : Fld := ⟨0x30020, 0x0, 0x0, 16, 16, false⟩
def RD_CNT_DROPROWS : Fld := ⟨0x30020, 0x0, 0x0, 0, 16, false⟩
/-! RD_PWnCFG -/
def RD_PW_CFG_EN : Fld := ⟨0x30100, 0x20, 0x0, 31, 1, false⟩
def RD_PW_CFG_ROT : Fld := ⟨0x30100, 0x20, 0x0, 30, 1, false⟩
def RD_PW_CFG_ROLL : Fld := ⟨0x30100, 0x20, 0x0, 29, 1, false⟩
def RD_PW_CFG_RCH : Fld := ⟨0x30100, 0x20, 0x0, 26, 2, false⟩
def RD_PW_CFG_DBIN : Fld := ⟨0x30100, 0x20, 0x0, 24, 2, false⟩
def RD_PW_CFG_VC : Fld := ⟨0x30100, 0x20, 0x0, 20, 4, false⟩
def RD_PW_CFG_MARGIN : Fld := ⟨0x30100, 0x20, 0x0, 8, 8, false⟩
/-! RD_PWnPOS -/
def RD_PW_POS_Y0 : Fld := ⟨0x30104, 0x20, 0x0, 16, 14, false⟩
def RD_PW_POS_X0 : Fld := ⟨0x30104, 0x20, 0x0, 0, 14, false⟩
/-! RD_PWnSIZE -/
def RD_PW_SIZE_H : Fld := ⟨0x30108, 0x20, 0x0, 16, 15, false⟩
def RD_PW_SIZE_W : Fld := ⟨0x30108, 0x20, 0x0, 0, 15, false⟩
/-! RD_PWnCX -/
def RD_PW_CX_C : Fld := ⟨0x3010C, 0x20, 0x0, 0, 18, false⟩
/-! RD_PWnCY -/
def RD_PW_CY_C : Fld := ⟨0x30110, 0x20, 0x0, 0, 18, false⟩
/-! RD_PWnANG -/
def RD_PW_ANG_ANG : Fld := ⟨0x30114, 0x20, 0x0, 0, 32, false⟩
/-! RD_PWnROLL -/
def RD_PW_ROLL_RGAIN : Fld := ⟨0x30118, 0x20, 0x0, 0, 32, false⟩
/-! RD_PWnRP0 -/
def RD_PW_RP0_RP0 : Fld := ⟨0x3011C, 0x20, 0x0, 0, 32, false⟩
/-! RD_PWnINFO -/
def RD_PW_INFO_CELLS : Fld := ⟨0x30300, 0x8, 0x0, 0, 17, false⟩
/-! RD_PWnANGU -/
def RD_PW_ANGU_ANGU : Fld := ⟨0x30304, 0x8, 0x0, 0, 32, false⟩
/-! BLK_CFG -/
def BLK_CFG_FORCEON : Fld := ⟨0x100000, 0x1000, 0x0, 0, 1, false⟩
/-! BLK_STAT -/
def BLK_STAT_OVFCNT : Fld := ⟨0x100004, 0x1000, 0x0, 16, 8, false⟩
def BLK_STAT_READY : Fld := ⟨0x100004, 0x1000, 0x0, 9, 1, false⟩
def BLK_STAT_POWERED : Fld := ⟨0x100004, 0x1000, 0x0, 8, 1, false⟩
def BLK_STAT_STATUS : Fld := ⟨0x100004, 0x1000, 0x0, 0, 8, false⟩
/-! BLK_CSETi -/
def BLK_CSET_INSET : Fld := ⟨0x100010, 0x1000, 0x4, 0, 32, false⟩
/-! BLK_FAILi -/
def BLK_FAIL_FAILED : Fld := ⟨0x100030, 0x1000, 0x4, 0, 32, false⟩
/-! TK_CFG -/
def TK_CFG_VC : Fld := ⟨0x40000, 0x0, 0x0, 20, 4, false⟩
def TK_CFG_LOSSCOR : Fld := ⟨0x40000, 0x0, 0x0, 16, 1, false⟩
/-! TK_STAT -/
def TK_STAT_FAILCELL : Fld := ⟨0x40004, 0x0, 0x0, 3, 1, true⟩
def TK_STAT_ZSTALE : Fld := ⟨0x40004, 0x0, 0x0, 2, 1, true⟩
def TK_STAT_LOSSCLAMP : Fld := ⟨0x40004, 0x0, 0x0, 1, 1, true⟩
def TK_STAT_TWCLIP : Fld := ⟨0x40004, 0x0, 0x0, 0, 1, true⟩
/-! TK_CNT -/
def TK_CNT_NOWIN : Fld := ⟨0x40008, 0x0, 0x0, 24, 8, false⟩
def TK_CNT_NOPAIR : Fld := ⟨0x40008, 0x0, 0x0, 16, 8, false⟩
def TK_CNT_RESDROP : Fld := ⟨0x40008, 0x0, 0x0, 8, 8, false⟩
def TK_CNT_LATECNT : Fld := ⟨0x40008, 0x0, 0x0, 0, 8, false⟩
/-! TK_LOSS -/
def TK_LOSS_MAXLOSS : Fld := ⟨0x4000C, 0x0, 0x0, 16, 16, false⟩
def TK_LOSS_CLAMPCNT : Fld := ⟨0x4000C, 0x0, 0x0, 0, 16, false⟩
/-! TK_WnCFG -/
def TK_W_CFG_EN : Fld := ⟨0x40100, 0x10, 0x0, 31, 1, false⟩
def TK_W_CFG_RIGFWD : Fld := ⟨0x40100, 0x10, 0x0, 30, 1, false⟩
def TK_W_CFG_ADAPT : Fld := ⟨0x40100, 0x10, 0x0, 29, 1, false⟩
def TK_W_CFG_HM1 : Fld := ⟨0x40100, 0x10, 0x0, 20, 4, false⟩
def TK_W_CFG_WM1 : Fld := ⟨0x40100, 0x10, 0x0, 16, 4, false⟩
def TK_W_CFG_CY0 : Fld := ⟨0x40100, 0x10, 0x0, 8, 8, false⟩
def TK_W_CFG_CX0 : Fld := ⟨0x40100, 0x10, 0x0, 0, 8, false⟩
/-! TK_WnTH -/
def TK_W_TH_REL : Fld := ⟨0x40104, 0x10, 0x0, 24, 8, false⟩
def TK_W_TH_PED : Fld := ⟨0x40104, 0x10, 0x0, 14, 10, false⟩
def TK_W_TH_TH : Fld := ⟨0x40104, 0x10, 0x0, 0, 14, false⟩
/-! TK_WnQ -/
def TK_W_Q_SREF : Fld := ⟨0x40108, 0x10, 0x0, 16, 16, false⟩
def TK_W_Q_CONFMIN : Fld := ⟨0x40108, 0x10, 0x0, 0, 8, false⟩
/-! TK_WnAREA -/
def TK_W_AREA_AMAX : Fld := ⟨0x4010C, 0x10, 0x0, 16, 15, false⟩
def TK_W_AREA_AMIN : Fld := ⟨0x4010C, 0x10, 0x0, 0, 15, false⟩
/-! TK_PLANmCFG -/
def TK_PLAN_CFG_EN : Fld := ⟨0x41000, 0x10, 0x0, 31, 1, false⟩
def TK_PLAN_CFG_PHASE : Fld := ⟨0x41000, 0x10, 0x0, 29, 2, false⟩
def TK_PLAN_CFG_GAIN : Fld := ⟨0x41000, 0x10, 0x0, 28, 1, false⟩
def TK_PLAN_CFG_STRBEN : Fld := ⟨0x41000, 0x10, 0x0, 27, 1, false⟩
def TK_PLAN_CFG_STRBPIN : Fld := ⟨0x41000, 0x10, 0x0, 22, 5, false⟩
def TK_PLAN_CFG_DUR : Fld := ⟨0x41000, 0x10, 0x0, 0, 16, false⟩
/-! TK_PLANmWLO -/
def TK_PLAN_WLO_MASK : Fld := ⟨0x41004, 0x10, 0x0, 0, 32, false⟩
/-! TK_PLANmWHI -/
def TK_PLAN_WHI_MASK : Fld := ⟨0x41008, 0x10, 0x0, 0, 32, false⟩
/-! TK_PCnCFG -/
def TK_PC_CFG_EN : Fld := ⟨0x42000, 0x80, 0x0, 31, 1, false⟩
def TK_PC_CFG_MODE : Fld := ⟨0x42000, 0x80, 0x0, 30, 1, false⟩
def TK_PC_CFG_ZEN : Fld := ⟨0x42000, 0x80, 0x0, 29, 1, false⟩
def TK_PC_CFG_RHOP : Fld := ⟨0x42000, 0x80, 0x0, 24, 4, false⟩
def TK_PC_CFG_PER : Fld := ⟨0x42000, 0x80, 0x0, 0, 16, false⟩
/-! TK_PCnPHS -/
def TK_PC_PHS_PHS : Fld := ⟨0x42004, 0x80, 0x0, 0, 16, false⟩
/-! TK_PCnSRC -/
def TK_PC_SRC_SEN3 : Fld := ⟨0x42008, 0x80, 0x0, 31, 1, false⟩
def TK_PC_SRC_REM3 : Fld := ⟨0x42008, 0x80, 0x0, 30, 1, false⟩
def TK_PC_SRC_WIN3 : Fld := ⟨0x42008, 0x80, 0x0, 24, 6, false⟩
def TK_PC_SRC_SEN2 : Fld := ⟨0x42008, 0x80, 0x0, 23, 1, false⟩
def TK_PC_SRC_REM2 : Fld := ⟨0x42008, 0x80, 0x0, 22, 1, false⟩
def TK_PC_SRC_WIN2 : Fld := ⟨0x42008, 0x80, 0x0, 16, 6, false⟩
def TK_PC_SRC_SEN1 : Fld := ⟨0x42008, 0x80, 0x0, 15, 1, false⟩
def TK_PC_SRC_REM1 : Fld := ⟨0x42008, 0x80, 0x0, 14, 1, false⟩
def TK_PC_SRC_WIN1 : Fld := ⟨0x42008, 0x80, 0x0, 8, 6, false⟩
def TK_PC_SRC_SEN0 : Fld := ⟨0x42008, 0x80, 0x0, 7, 1, false⟩
def TK_PC_SRC_REM0 : Fld := ⟨0x42008, 0x80, 0x0, 6, 1, false⟩
def TK_PC_SRC_WIN0 : Fld := ⟨0x42008, 0x80, 0x0, 0, 6, false⟩
/-! TK_PCnA11 -/
def TK_PC_A11_A : Fld := ⟨0x4200C, 0x80, 0x0, 0, 32, false⟩
/-! TK_PCnA12 -/
def TK_PC_A12_A : Fld := ⟨0x42010, 0x80, 0x0, 0, 32, false⟩
/-! TK_PCnA21 -/
def TK_PC_A21_A : Fld := ⟨0x42018, 0x80, 0x0, 0, 32, false⟩
/-! TK_PCnA22 -/
def TK_PC_A22_A : Fld := ⟨0x4201C, 0x80, 0x0, 0, 32, false⟩
/-! TK_PCnA13 -/
def TK_PC_A13_A : Fld := ⟨0x42014, 0x80, 0x0, 0, 32, false⟩
/-! TK_PCnA23 -/
def TK_PC_A23_A : Fld := ⟨0x42020, 0x80, 0x0, 0, 32, false⟩
/-! TK_PCnSTAT -/
def TK_PC_STAT_ALIVE : Fld := ⟨0x42024, 0x80, 0x0, 24, 8, false⟩
def TK_PC_STAT_STALECNT : Fld := ⟨0x42024, 0x80, 0x0, 8, 8, false⟩
def TK_PC_STAT_ZSTALE : Fld := ⟨0x42024, 0x80, 0x0, 0, 1, false⟩
/-! TK_PCnZTi -/
def TK_PC_ZT_ZHI : Fld := ⟨0x42040, 0x80, 0x4, 16, 16, false⟩
def TK_PC_ZT_ZLO : Fld := ⟨0x42040, 0x80, 0x4, 0, 16, false⟩
/-! S1_CFG -/
def S1_CFG_DARKSCALE : Fld := ⟨0x50000, 0x0, 0x0, 6, 1, false⟩
def S1_CFG_DARKEN : Fld := ⟨0x50000, 0x0, 0x0, 5, 1, false⟩
def S1_CFG_LSCEN : Fld := ⟨0x50000, 0x0, 0x0, 4, 1, false⟩
def S1_CFG_DEFDEN : Fld := ⟨0x50000, 0x0, 0x0, 3, 1, false⟩
def S1_CFG_DEFSEN : Fld := ⟨0x50000, 0x0, 0x0, 2, 1, false⟩
def S1_CFG_BLEN : Fld := ⟨0x50000, 0x0, 0x0, 1, 1, false⟩
def S1_CFG_TRIMEN : Fld := ⟨0x50000, 0x0, 0x0, 0, 1, false⟩
/-! S1_BLCFG -/
def S1_BLCFG_DEFBL : Fld := ⟨0x50004, 0x0, 0x0, 20, 12, false⟩
def S1_BLCFG_BLREJ : Fld := ⟨0x50004, 0x0, 0x0, 12, 8, false⟩
def S1_BLCFG_PED : Fld := ⟨0x50004, 0x0, 0x0, 0, 12, false⟩
/-! S1_DEFCFG -/
def S1_DEFCFG_DLO : Fld := ⟨0x50008, 0x0, 0x0, 16, 14, false⟩
def S1_DEFCFG_DHI : Fld := ⟨0x50008, 0x0, 0x0, 0, 14, false⟩
/-! S1_LSCFG -/
def S1_LSCFG_FIXED : Fld := ⟨0x5000C, 0x0, 0x0, 31, 1, false⟩
def S1_LSCFG_FIXIDX : Fld := ⟨0x5000C, 0x0, 0x0, 16, 4, false⟩
def S1_LSCFG_NFM1 : Fld := ⟨0x5000C, 0x0, 0x0, 2, 2, false⟩
def S1_LSCFG_NZM1 : Fld := ⟨0x5000C, 0x0, 0x0, 0, 2, false⟩
/-! S1_LSZA -/
def S1_LSZA_PHI : Fld := ⟨0x50010, 0x0, 0x0, 16, 16, false⟩
def S1_LSZA_PLO : Fld := ⟨0x50010, 0x0, 0x0, 0, 16, false⟩
/-! S1_LSZB -/
def S1_LSZB_PHI : Fld := ⟨0x50014, 0x0, 0x0, 16, 16, false⟩
def S1_LSZB_PLO : Fld := ⟨0x50014, 0x0, 0x0, 0, 16, false⟩
/-! S1_LSFA -/
def S1_LSFA_PHI : Fld := ⟨0x50018, 0x0, 0x0, 16, 16, false⟩
def S1_LSFA_PLO : Fld := ⟨0x50018, 0x0, 0x0, 0, 16, false⟩
/-! S1_LSFB -/
def S1_LSFB_PHI : Fld := ⟨0x5001C, 0x0, 0x0, 16, 16, false⟩
def S1_LSFB_PLO : Fld := ⟨0x5001C, 0x0, 0x0, 0, 16, false⟩
/-! S1_MGTAP -/
def S1_MGTAP_KHI : Fld := ⟨0x50020, 0x0, 0x0, 16, 14, false⟩
def S1_MGTAP_KLO : Fld := ⟨0x50020, 0x0, 0x0, 0, 14, false⟩
/-! S1_MGDCG -/
def S1_MGDCG_KHI : Fld := ⟨0x50024, 0x0, 0x0, 16, 14, false⟩
def S1_MGDCG_KLO : Fld := ⟨0x50024, 0x0, 0x0, 0, 14, false⟩
/-! S1_MGSH -/
def S1_MGSH_PEDM : Fld := ⟨0x50028, 0x0, 0x0, 16, 16, false⟩
def S1_MGSH_AUTO : Fld := ⟨0x50028, 0x0, 0x0, 3, 1, false⟩
def S1_MGSH_SH : Fld := ⟨0x50028, 0x0, 0x0, 0, 3, false⟩
/-! S1_GAINRATIO -/
def S1_GAINRATIO_RATIO : Fld := ⟨0x5002C, 0x0, 0x0, 0, 16, false⟩
/-! S1_STCFG -/
def S1_STCFG_VC : Fld := ⟨0x50030, 0x0, 0x0, 20, 4, false⟩
def S1_STCFG_FRMEN : Fld := ⟨0x50030, 0x0, 0x0, 3, 1, false⟩
def S1_STCFG_WBEN : Fld := ⟨0x50030, 0x0, 0x0, 2, 1, false⟩
def S1_STCFG_BHEN : Fld := ⟨0x50030, 0x0, 0x0, 1, 1, false⟩
def S1_STCFG_CELLEN : Fld := ⟨0x50030, 0x0, 0x0, 0, 1, false⟩
/-! S1_WB -/
def S1_WB_WBMAX : Fld := ⟨0x50034, 0x0, 0x0, 16, 12, false⟩
def S1_WB_WBMIN : Fld := ⟨0x50034, 0x0, 0x0, 0, 12, false⟩
/-! S1_STAT -/
def S1_STAT_MEMUNC : Fld := ⟨0x50038, 0x0, 0x0, 6, 1, true⟩
def S1_STAT_DEFOVF : Fld := ⟨0x50038, 0x0, 0x0, 5, 1, true⟩
def S1_STAT_BLKEEP : Fld := ⟨0x50038, 0x0, 0x0, 4, 1, true⟩
def S1_STAT_BLDEF : Fld := ⟨0x50038, 0x0, 0x0, 3, 1, true⟩
def S1_STAT_LSERR : Fld := ⟨0x50038, 0x0, 0x0, 2, 1, true⟩
def S1_STAT_LSSTALE : Fld := ⟨0x50038, 0x0, 0x0, 1, 1, true⟩
/-! S1_CNT -/
def S1_CNT_DYNCNT : Fld := ⟨0x5003C, 0x0, 0x0, 16, 16, false⟩
def S1_CNT_UNCORR : Fld := ⟨0x5003C, 0x0, 0x0, 8, 8, false⟩
def S1_CNT_MEMCOR : Fld := ⟨0x5003C, 0x0, 0x0, 0, 8, false⟩
/-! S1_DEFSTAT -/
def S1_DEFSTAT_LOADED : Fld := ⟨0x50040, 0x0, 0x0, 11, 21, false⟩
def S1_DEFSTAT_BADENT : Fld := ⟨0x50040, 0x0, 0x0, 0, 11, false⟩
/-! CS_CFG -/
def CS_CFG_TCRIT : Fld := ⟨0x60000, 0x0, 0x0, 24, 8, false⟩
def CS_CFG_MAXSPD : Fld := ⟨0x60000, 0x0, 0x0, 22, 2, false⟩
def CS_CFG_OVC : Fld := ⟨0x60000, 0x0, 0x0, 12, 4, false⟩
def CS_CFG_RVC : Fld := ⟨0x60000, 0x0, 0x0, 8, 4, false⟩
def CS_CFG_SPILLEN : Fld := ⟨0x60000, 0x0, 0x0, 5, 1, false⟩
def CS_CFG_ACCEN : Fld := ⟨0x60000, 0x0, 0x0, 4, 1, false⟩
def CS_CFG_RINGEN : Fld := ⟨0x60000, 0x0, 0x0, 3, 1, false⟩
def CS_CFG_ROEN : Fld := ⟨0x60000, 0x0, 0x0, 2, 1, false⟩
def CS_CFG_S2EN : Fld := ⟨0x60000, 0x0, 0x0, 1, 1, false⟩
def CS_CFG_RWEN : Fld := ⟨0x60000, 0x0, 0x0, 0, 1, false⟩
/-! CS_RATE -/
def CS_RATE_FPSMAX : Fld := ⟨0x60004, 0x0, 0x0, 0, 16, false⟩
/-! CS_RING -/
def CS_RING_PRE : Fld := ⟨0x60008, 0x0, 0x0, 16, 16, false⟩
def CS_RING_POST : Fld := ⟨0x60008, 0x0, 0x0, 0, 16, false⟩
/-! CS_RINGTRIG -/
def CS_RINGTRIG_EN : Fld := ⟨0x6000C, 0x0, 0x0, 31, 1, false⟩
def CS_RINGTRIG_EDGE : Fld := ⟨0x6000C, 0x0, 0x0, 29, 2, false⟩
def CS_RINGTRIG_PIN : Fld := ⟨0x6000C, 0x0, 0x0, 24, 5, false⟩
def CS_RINGTRIG_MINW : Fld := ⟨0x6000C, 0x0, 0x0, 0, 16, false⟩
/-! CS_RINGCMD -/
def CS_RINGCMD_RELEASE : Fld := ⟨0x60010, 0x0, 0x0, 1, 1, false⟩
def CS_RINGCMD_FREEZE : Fld := ⟨0x60010, 0x0, 0x0, 0, 1, false⟩
/-! CS_RINGSTAT -/
def CS_RINGSTAT_RSTATE : Fld := ⟨0x60014, 0x0, 0x0, 30, 2, false⟩
def CS_RINGSTAT_PREACT : Fld := ⟨0x60014, 0x0, 0x0, 0, 16, false⟩
/-! CS_RINGEVT -/
def CS_RINGEVT_EFRAME : Fld := ⟨0x60018, 0x0, 0x0, 0, 32, false⟩
/-! CS_ACC -/
def CS_ACC_BURST : Fld := ⟨0x6001C, 0x0, 0x0, 8, 1, false⟩
def CS_ACC_ASH : Fld := ⟨0x6001C, 0x0, 0x0, 4, 4, false⟩
def CS_ACC_NM1 : Fld := ⟨0x6001C, 0x0, 0x0, 0, 4, false⟩
/-! CS_SPILL -/
def CS_SPILL_RSVG : Fld := ⟨0x60020, 0x0, 0x0, 20, 6, false⟩
def CS_SPILL_SIZE : Fld := ⟨0x60020, 0x0, 0x0, 0, 20, false⟩
/-! CS_ADMIT -/
def CS_ADMIT_REFUSED : Fld := ⟨0x60024, 0x0, 0x0, 8, 8, false⟩
def CS_ADMIT_ADMITTED : Fld := ⟨0x60024, 0x0, 0x0, 0, 7, false⟩
/-! CS_BUDGET -/
def CS_BUDGET_BUDGET : Fld := ⟨0x60028, 0x0, 0x0, 16, 16, false⟩
def CS_BUDGET_USED : Fld := ⟨0x60028, 0x0, 0x0, 0, 16, false⟩
/-! CS_CHnSTAT -/
def CS_CH_STAT_TEMP : Fld := ⟨0x60040, 0x4, 0x0, 24, 8, false⟩
def CS_CH_STAT_CAUSE : Fld := ⟨0x60040, 0x4, 0x0, 20, 4, false⟩
def CS_CH_STAT_SPEED : Fld := ⟨0x60040, 0x4, 0x0, 18, 2, false⟩
def CS_CH_STAT_SIZE : Fld := ⟨0x60040, 0x4, 0x0, 8, 8, false⟩
def CS_CH_STAT_LOST : Fld := ⟨0x60040, 0x4, 0x0, 1, 1, false⟩
def CS_CH_STAT_TRAINED : Fld := ⟨0x60040, 0x4, 0x0, 0, 1, false⟩
/-! CS_ECC -/
def CS_ECC_CORR : Fld := ⟨0x60050, 0x0, 0x0, 16, 16, false⟩
def CS_ECC_UNCORR : Fld := ⟨0x60050, 0x0, 0x0, 0, 16, false⟩
/-! CS_STAT -/
def CS_STAT_CHLOST : Fld := ⟨0x60054, 0x0, 0x0, 5, 1, true⟩
def CS_STAT_MEMERR : Fld := ⟨0x60054, 0x0, 0x0, 4, 1, true⟩
def CS_STAT_SPILLFULL : Fld := ⟨0x60054, 0x0, 0x0, 3, 1, true⟩
def CS_STAT_RINGCUT : Fld := ⟨0x60054, 0x0, 0x0, 2, 1, true⟩
def CS_STAT_NOSPACE : Fld := ⟨0x60054, 0x0, 0x0, 1, 1, true⟩
def CS_STAT_OVERCOMMIT : Fld := ⟨0x60054, 0x0, 0x0, 0, 1, true⟩
/-! CS_CNT -/
def CS_CNT_RATESKIP : Fld := ⟨0x60058, 0x0, 0x0, 16, 16, false⟩
def CS_CNT_ACCRST : Fld := ⟨0x60058, 0x0, 0x0, 0, 16, false⟩
/-! CS_RCFRM -/
def CS_RCFRM_FRAME : Fld := ⟨0x60060, 0x0, 0x0, 0, 32, false⟩
/-! CS_RCROWS -/
def CS_RCROWS_LAST : Fld := ⟨0x60064, 0x0, 0x0, 16, 14, false⟩
def CS_RCROWS_FIRST : Fld := ⟨0x60064, 0x0, 0x0, 0, 14, false⟩
/-! CS_RCCMD -/
def CS_RCCMD_VC : Fld := ⟨0x60068, 0x0, 0x0, 4, 4, false⟩
def CS_RCCMD_GO : Fld := ⟨0x60068, 0x0, 0x0, 0, 1, false⟩
/-! CS_RCSTAT -/
def CS_RCSTAT_ID : Fld := ⟨0x6006C, 0x0, 0x0, 24, 8, false⟩
def CS_RCSTAT_QUEUED : Fld := ⟨0x6006C, 0x0, 0x0, 16, 3, false⟩
def CS_RCSTAT_RESULT : Fld := ⟨0x6006C, 0x0, 0x0, 8, 4, false⟩
def CS_RCSTAT_RID : Fld := ⟨0x6006C, 0x0, 0x0, 0, 8, false⟩
/-! CP_CFG -/
def CP_CFG_LINKEN : Fld := ⟨0x70000, 0x0, 0x0, 31, 1, false⟩
def CP_CFG_ROLLACT : Fld := ⟨0x70000, 0x0, 0x0, 30, 1, false⟩
def CP_CFG_INTERP : Fld := ⟨0x70000, 0x0, 0x0, 29, 1, false⟩
def CP_CFG_PW : Fld := ⟨0x70000, 0x0, 0x0, 24, 4, false⟩
def CP_CFG_VC : Fld := ⟨0x70000, 0x0, 0x0, 20, 4, false⟩
def CP_CFG_FMT : Fld := ⟨0x70000, 0x0, 0x0, 18, 2, false⟩
def CP_CFG_YSTD : Fld := ⟨0x70000, 0x0, 0x0, 17, 1, false⟩
def CP_CFG_YFULL : Fld := ⟨0x70000, 0x0, 0x0, 16, 1, false⟩
def CP_CFG_EDGE : Fld := ⟨0x70000, 0x0, 0x0, 0, 16, false⟩
/-! CP_COMMIT -/
def CP_COMMIT_GO : Fld := ⟨0x70004, 0x0, 0x0, 0, 1, false⟩
/-! CP_GEN -/
def CP_GEN_LASTCMT : Fld := ⟨0x70008, 0x0, 0x0, 16, 16, false⟩
def CP_GEN_INFORCE : Fld := ⟨0x70008, 0x0, 0x0, 0, 16, false⟩
/-! CP_STAT -/
def CP_STAT_MEMUNC : Fld := ⟨0x7000C, 0x0, 0x0, 6, 1, true⟩
def CP_STAT_PVRATE : Fld := ⟨0x7000C, 0x0, 0x0, 5, 1, true⟩
def CP_STAT_NOWIN : Fld := ⟨0x7000C, 0x0, 0x0, 4, 1, true⟩
def CP_STAT_ROLLFB : Fld := ⟨0x7000C, 0x0, 0x0, 3, 1, true⟩
def CP_STAT_NOTADM : Fld := ⟨0x7000C, 0x0, 0x0, 2, 1, true⟩
def CP_STAT_PENDING : Fld := ⟨0x7000C, 0x0, 0x0, 1, 1, false⟩
/-! CP_CNT -/
def CP_CNT_DROPROWS : Fld := ⟨0x70010, 0x0, 0x0, 16, 16, false⟩
def CP_CNT_NOPROC : Fld := ⟨0x70010, 0x0, 0x0, 0, 16, false⟩
/-! CP_WBG0 -/
def CP_WBG0_GR : Fld := ⟨0x70020, 0x0, 0x0, 16, 16, false⟩
def CP_WBG0_R : Fld := ⟨0x70020, 0x0, 0x0, 0, 16, false⟩
/-! CP_WBG1 -/
def CP_WBG1_GR : Fld := ⟨0x70024, 0x0, 0x0, 16, 16, false⟩
def CP_WBG1_R : Fld := ⟨0x70024, 0x0, 0x0, 0, 16, false⟩
/-! CP_CMn -/
def CP_CM_M : Fld := ⟨0x70040, 0x4, 0x0, 0, 16, false⟩
/-! CP_CMOFSr -/
def CP_CMOFS_OFS : Fld := ⟨0x70064, 0x4, 0x0, 0, 17, false⟩
/-! CP_PV -/
def CP_PV_EN : Fld := ⟨0x70080, 0x0, 0x0, 31, 1, false⟩
def CP_PV_FMT : Fld := ⟨0x70080, 0x0, 0x0, 29, 2, false⟩
def CP_PV_PVC : Fld := ⟨0x70080, 0x0, 0x0, 27, 2, false⟩
def CP_PV_DIV : Fld := ⟨0x70080, 0x0, 0x0, 16, 8, false⟩
/-! CP_PVSIZE -/
def CP_PVSIZE_HOUT : Fld := ⟨0x70084, 0x0, 0x0, 16, 13, false⟩
def CP_PVSIZE_WOUT : Fld := ⟨0x70084, 0x0, 0x0, 0, 13, false⟩
/-! CP_OUTSIZE -/
def CP_OUTSIZE_HO : Fld := ⟨0x70088, 0x0, 0x0, 16, 15, false⟩
def CP_OUTSIZE_WO : Fld := ⟨0x70088, 0x0, 0x0, 0, 15, false⟩
/-! CP_TCcPi -/
def CP_TC_THI : Fld := ⟨0x71000, 0x1000, 0x4, 16, 16, false⟩
def CP_TC_TLO : Fld := ⟨0x71000, 0x1000, 0x4, 0, 16, false⟩
/-! LK_GRPEN -/
def LK_GRPEN_EN : Fld := ⟨0x80000, 0x0, 0x0, 0, 32, false⟩
/-! LK_SPARE -/
def LK_SPARE_SPARE : Fld := ⟨0x80004, 0x0, 0x0, 0, 32, false⟩
/-! LK_CRCFG -/
def LK_CRCFG_CRTO : Fld := ⟨0x80008, 0x0, 0x0, 24, 8, false⟩
def LK_CRCFG_RTTO : Fld := ⟨0x80008, 0x0, 0x0, 6, 10, false⟩
def LK_CRCFG_CRTT : Fld := ⟨0x80008, 0x0, 0x0, 0, 6, false⟩
/-! LK_TRCFG -/
def LK_TRCFG_TRCLASS : Fld := ⟨0x8000C, 0x0, 0x0, 30, 2, false⟩
def LK_TRCFG_PHTO : Fld := ⟨0x8000C, 0x0, 0x0, 0, 16, false⟩
/-! LK_CTL -/
def LK_CTL_CTLACT : Fld := ⟨0x80010, 0x0, 0x0, 16, 5, false⟩
def LK_CTL_CTLGRP : Fld := ⟨0x80010, 0x0, 0x0, 0, 5, false⟩
/-! LK_PRBSTX -/
def LK_PRBSTX_EN : Fld := ⟨0x80014, 0x0, 0x0, 0, 32, false⟩
/-! LK_PRBSRT -/
def LK_PRBSRT_EN : Fld := ⟨0x80018, 0x0, 0x0, 0, 32, false⟩
/-! LK_RETIRE -/
def LK_RETIRE_RETIRE : Fld := ⟨0x8001C, 0x0, 0x0, 0, 32, false⟩
/-! LK_SUM -/
def LK_SUM_RTDISC : Fld := ⟨0x80020, 0x0, 0x0, 24, 8, false⟩
def LK_SUM_RTDUP : Fld := ⟨0x80020, 0x0, 0x0, 16, 8, false⟩
def LK_SUM_NOMAPCNT : Fld := ⟨0x80020, 0x0, 0x0, 8, 8, false⟩
def LK_SUM_CTLMOVE : Fld := ⟨0x80020, 0x0, 0x0, 7, 1, true⟩
def LK_SUM_CRSTALL : Fld := ⟨0x80020, 0x0, 0x0, 6, 1, true⟩
def LK_SUM_PRBSREF : Fld := ⟨0x80020, 0x0, 0x0, 5, 1, true⟩
def LK_SUM_MAPERR : Fld := ⟨0x80020, 0x0, 0x0, 4, 1, true⟩
def LK_SUM_NOSPARE : Fld := ⟨0x80020, 0x0, 0x0, 3, 1, true⟩
def LK_SUM_TRAINTO : Fld := ⟨0x80020, 0x0, 0x0, 2, 1, true⟩
def LK_SUM_NOMAP : Fld := ⟨0x80020, 0x0, 0x0, 1, 1, true⟩
def LK_SUM_LGFAIL : Fld := ⟨0x80020, 0x0, 0x0, 0, 1, true⟩
/-! LK_VCMAPv -/
def LK_VCMAP_MAP : Fld := ⟨0x80100, 0x4, 0x0, 0, 32, false⟩
/-! LK_VCACTv -/
def LK_VCACT_MAP : Fld := ⟨0x80140, 0x4, 0x0, 0, 32, false⟩
/-! LK_GSTATg -/
def LK_GSTAT_LSTATE : Fld := ⟨0x80200, 0x4, 0x0, 28, 4, false⟩
def LK_GSTAT_CAUSE : Fld := ⟨0x80200, 0x4, 0x0, 24, 4, false⟩
def LK_GSTAT_RETRY : Fld := ⟨0x80200, 0x4, 0x0, 16, 8, false⟩
def LK_GSTAT_RTLOCK : Fld := ⟨0x80200, 0x4, 0x0, 15, 1, false⟩
def LK_GSTAT_RTPSYNC : Fld := ⟨0x80200, 0x4, 0x0, 14, 1, false⟩
def LK_GSTAT_CRSTALL : Fld := ⟨0x80200, 0x4, 0x0, 13, 1, true⟩
def LK_GSTAT_WITHHELD : Fld := ⟨0x80200, 0x4, 0x0, 12, 1, false⟩
def LK_GSTAT_SPILLING : Fld := ⟨0x80200, 0x4, 0x0, 8, 1, false⟩
def LK_GSTAT_GAPCNT : Fld := ⟨0x80200, 0x4, 0x0, 0, 8, false⟩
/-! LK_GLIMg -/
def LK_GLIM_VALUE : Fld := ⟨0x80280, 0x4, 0x0, 0, 24, false⟩
/-! LK_GUSEDg -/
def LK_GUSED_VALUE : Fld := ⟨0x80300, 0x4, 0x0, 0, 24, false⟩
/-! LK_RTERRg -/
def LK_RTERR_ERRS : Fld := ⟨0x80380, 0x4, 0x0, 0, 32, false⟩
/-! LK_DLYgi -/
def LK_DLY_TAP3 : Fld := ⟨0x81000, 0x10, 0x4, 24, 6, false⟩
def LK_DLY_TAP2 : Fld := ⟨0x81000, 0x10, 0x4, 16, 6, false⟩
def LK_DLY_TAP1 : Fld := ⟨0x81000, 0x10, 0x4, 8, 6, false⟩
def LK_DLY_TAP0 : Fld := ⟨0x81000, 0x10, 0x4, 0, 6, false⟩
/-! LK_RIGSTAT -/
def LK_RIGSTAT_INSTATE : Fld := ⟨0x80400, 0x0, 0x0, 30, 2, false⟩
def LK_RIGSTAT_OUTSTATE : Fld := ⟨0x80400, 0x0, 0x0, 28, 2, false⟩
def LK_RIGSTAT_FIXDROP : Fld := ⟨0x80400, 0x0, 0x0, 16, 8, false⟩
def LK_RIGSTAT_CRCERR : Fld := ⟨0x80400, 0x0, 0x0, 8, 8, false⟩
def LK_RIGSTAT_ESBUSY : Fld := ⟨0x80400, 0x0, 0x0, 1, 1, false⟩
def LK_RIGSTAT_ESDONE : Fld := ⟨0x80400, 0x0, 0x0, 0, 1, true⟩
/-! LK_ESCFG -/
def LK_ESCFG_GO : Fld := ⟨0x80410, 0x0, 0x0, 31, 1, false⟩
def LK_ESCFG_DWELL : Fld := ⟨0x80410, 0x0, 0x0, 24, 4, false⟩
def LK_ESCFG_VOFS : Fld := ⟨0x80410, 0x0, 0x0, 16, 7, false⟩
def LK_ESCFG_PHOFS : Fld := ⟨0x80410, 0x0, 0x0, 8, 6, false⟩
def LK_ESCFG_LANE : Fld := ⟨0x80410, 0x0, 0x0, 0, 2, false⟩
/-! LK_ESRES -/
def LK_ESRES_ERRS : Fld := ⟨0x80414, 0x0, 0x0, 0, 32, false⟩
/-! PK_CFG -/
def PK_CFG_SNVC : Fld := ⟨0x90000, 0x0, 0x0, 4, 4, false⟩
def PK_CFG_HBVC : Fld := ⟨0x90000, 0x0, 0x0, 0, 4, false⟩
/-! PK_STAT -/
def PK_STAT_VCCONF : Fld := ⟨0x90004, 0x0, 0x0, 0, 1, true⟩
/-! PK_CNT -/
def PK_CNT_OVCSKIP : Fld := ⟨0x90008, 0x0, 0x0, 16, 16, false⟩
def PK_CNT_VCCONF : Fld := ⟨0x90008, 0x0, 0x0, 0, 16, false⟩
/-! PK_ALV -/
def PK_ALV_GAPCNT : Fld := ⟨0x9000C, 0x0, 0x0, 16, 16, false⟩
def PK_ALV_REPCNT : Fld := ⟨0x9000C, 0x0, 0x0, 0, 16, false⟩
/-! PK_VCSEQv -/
def PK_VCSEQ_NEXT : Fld := ⟨0x90100, 0x4, 0x0, 0, 16, false⟩
/-! PK_PVPHY -/
def PK_PVPHY_CONTCLK : Fld := ⟨0x90200, 0x0, 0x0, 31, 1, false⟩
def PK_PVPHY_DSKPER : Fld := ⟨0x90200, 0x0, 0x0, 16, 8, false⟩
def PK_PVPHY_RATE : Fld := ⟨0x90200, 0x0, 0x0, 0, 8, false⟩
/-! CE_CTL -/
def CE_CTL_SEL : Fld := ⟨0x90400, 0x0, 0x0, 1, 2, false⟩
def CE_CTL_TEST : Fld := ⟨0x90400, 0x0, 0x0, 0, 1, false⟩
/-! CE_DATA -/
def CE_DATA_DATA : Fld := ⟨0x90404, 0x0, 0x0, 0, 32, false⟩
/-! CE_nVAL -/
def CE_VAL_VAL : Fld := ⟨0x90410, 0x4, 0x0, 0, 32, false⟩
/-! CE_CTXv -/
def CE_CTX_CTX : Fld := ⟨0x90440, 0x4, 0x0, 0, 32, false⟩
/-! SA_CFG -/
def SA_CFG_EN : Fld := ⟨0xA0000, 0x1000, 0x0, 31, 1, false⟩
def SA_CFG_CONT : Fld := ⟨0xA0000, 0x1000, 0x0, 30, 1, false⟩
def SA_CFG_PAIR : Fld := ⟨0xA0000, 0x1000, 0x0, 29, 1, false⟩
def SA_CFG_RLEN : Fld := ⟨0xA0000, 0x1000, 0x0, 16, 4, false⟩
def SA_CFG_ILEN : Fld := ⟨0xA0000, 0x1000, 0x0, 12, 2, false⟩
/-! SA_TRIG -/
def SA_TRIG_IDLY : Fld := ⟨0xA0004, 0x1000, 0x0, 16, 16, false⟩
def SA_TRIG_RDLY : Fld := ⟨0xA0004, 0x1000, 0x0, 0, 16, false⟩
/-! SA_STAT -/
def SA_STAT_USTATE : Fld := ⟨0xA0008, 0x1000, 0x0, 28, 4, false⟩
def SA_STAT_PENDING : Fld := ⟨0xA0008, 0x1000, 0x0, 27, 1, false⟩
def SA_STAT_SLICES : Fld := ⟨0xA0008, 0x1000, 0x0, 24, 3, false⟩
def SA_STAT_SLFAIL : Fld := ⟨0xA0008, 0x1000, 0x0, 19, 5, false⟩
def SA_STAT_CFGERR : Fld := ⟨0xA0008, 0x1000, 0x0, 4, 1, true⟩
def SA_STAT_PAIRIGN : Fld := ⟨0xA0008, 0x1000, 0x0, 3, 1, true⟩
def SA_STAT_CMPERR : Fld := ⟨0xA0008, 0x1000, 0x0, 2, 1, true⟩
def SA_STAT_CLIP : Fld := ⟨0xA0008, 0x1000, 0x0, 1, 1, true⟩
def SA_STAT_SLICEFAIL : Fld := ⟨0xA0008, 0x1000, 0x0, 0, 1, true⟩
/-! SA_CNT -/
def SA_CNT_OVRCNT : Fld := ⟨0xA000C, 0x1000, 0x0, 16, 16, false⟩
def SA_CNT_INJDROP : Fld := ⟨0xA000C, 0x1000, 0x0, 8, 8, false⟩
def SA_CNT_REDO : Fld := ⟨0xA000C, 0x1000, 0x0, 0, 8, false⟩
/-! SA_ALERT -/
def SA_ALERT_INJ : Fld := ⟨0xA0010, 0x1000, 0x0, 16, 4, true⟩
def SA_ALERT_REG : Fld := ⟨0xA0010, 0x1000, 0x0, 0, 16, true⟩
/-! SA_CAL -/
def SA_CAL_SPARE : Fld := ⟨0xA0014, 0x1000, 0x0, 29, 3, false⟩
def SA_CAL_ROTCNT : Fld := ⟨0xA0014, 0x1000, 0x0, 16, 8, false⟩
/-! SA_HYS -/
def SA_HYS_HYS : Fld := ⟨0xA0018, 0x1000, 0x0, 0, 12, false⟩
/-! SA_RSEQk -/
def SA_RSEQ_CMPEN : Fld := ⟨0xA0040, 0x1000, 0x4, 31, 1, false⟩
def SA_RSEQ_STREAM : Fld := ⟨0xA0040, 0x1000, 0x4, 30, 1, false⟩
def SA_RSEQ_AVG : Fld := ⟨0xA0040, 0x1000, 0x4, 24, 3, false⟩
def SA_RSEQ_SE : Fld := ⟨0xA0040, 0x1000, 0x4, 16, 1, false⟩
def SA_RSEQ_INSEL : Fld := ⟨0xA0040, 0x1000, 0x4, 0, 5, false⟩
/-! SA_ISEQj -/
def SA_ISEQ_CMPEN : Fld := ⟨0xA0080, 0x1000, 0x4, 31, 1, false⟩
def SA_ISEQ_STREAM : Fld := ⟨0xA0080, 0x1000, 0x4, 30, 1, false⟩
def SA_ISEQ_AVG : Fld := ⟨0xA0080, 0x1000, 0x4, 24, 3, false⟩
def SA_ISEQ_SE : Fld := ⟨0xA0080, 0x1000, 0x4, 16, 1, false⟩
def SA_ISEQ_INSEL : Fld := ⟨0xA0080, 0x1000, 0x4, 0, 5, false⟩
/-! SA_RCMPk -/
def SA_RCMP_HI : Fld := ⟨0xA00C0, 0x1000, 0x4, 16, 16, false⟩
def SA_RCMP_LO : Fld := ⟨0xA00C0, 0x1000, 0x4, 0, 16, false⟩
/-! SA_ICMPj -/
def SA_ICMP_HI : Fld := ⟨0xA0100, 0x1000, 0x4, 16, 16, false⟩
def SA_ICMP_LO : Fld := ⟨0xA0100, 0x1000, 0x4, 0, 16, false⟩
/-! SA_RESk -/
def SA_RES_UPD : Fld := ⟨0xA0200, 0x1000, 0x10, 24, 8, false⟩
def SA_RES_VALID : Fld := ⟨0xA0200, 0x1000, 0x10, 23, 1, false⟩
def SA_RES_CLIP : Fld := ⟨0xA0200, 0x1000, 0x10, 22, 1, false⟩
def SA_RES_OUT : Fld := ⟨0xA0200, 0x1000, 0x10, 21, 1, false⟩
def SA_RES_REDO : Fld := ⟨0xA0200, 0x1000, 0x10, 20, 1, false⟩
def SA_RES_VALUE : Fld := ⟨0xA0200, 0x1000, 0x10, 0, 16, false⟩
/-! SA_INJj -/
def SA_INJ_UPD : Fld := ⟨0xA0300, 0x1000, 0x10, 24, 8, false⟩
def SA_INJ_VALID : Fld := ⟨0xA0300, 0x1000, 0x10, 23, 1, false⟩
def SA_INJ_CLIP : Fld := ⟨0xA0300, 0x1000, 0x10, 22, 1, false⟩
def SA_INJ_OUT : Fld := ⟨0xA0300, 0x1000, 0x10, 21, 1, false⟩
def SA_INJ_REDO : Fld := ⟨0xA0300, 0x1000, 0x10, 20, 1, false⟩
def SA_INJ_VALUE : Fld := ⟨0xA0300, 0x1000, 0x10, 0, 16, false⟩
/-! SA_RESkTL -/
def SA_RESTL_T : Fld := ⟨0xA0204, 0x1000, 0x10, 0, 32, false⟩
/-! SA_RESkTH -/
def SA_RESTH_T : Fld := ⟨0xA0208, 0x1000, 0x10, 0, 32, false⟩
/-! SA_INJjTL -/
def SA_INJTL_T : Fld := ⟨0xA0304, 0x1000, 0x10, 0, 32, false⟩
/-! SA_INJjTH -/
def SA_INJTH_T : Fld := ⟨0xA0308, 0x1000, 0x10, 0, 32, false⟩
/-! SA_ZCMD -/
def SA_ZCMD_GO : Fld := ⟨0xA2000, 0x0, 0x0, 31, 1, false⟩
def SA_ZCMD_UNIT : Fld := ⟨0xA2000, 0x0, 0x0, 8, 1, false⟩
def SA_ZCMD_SE : Fld := ⟨0xA2000, 0x0, 0x0, 4, 1, false⟩
def SA_ZCMD_CHAN : Fld := ⟨0xA2000, 0x0, 0x0, 0, 4, false⟩
/-! SA_ZSTAT -/
def SA_ZSTAT_RESULT : Fld := ⟨0xA2004, 0x0, 0x0, 28, 4, false⟩
def SA_ZSTAT_BUSY : Fld := ⟨0xA2004, 0x0, 0x0, 27, 1, false⟩
def SA_ZSTAT_CHAN : Fld := ⟨0xA2004, 0x0, 0x0, 16, 4, false⟩
def SA_ZSTAT_MEAN : Fld := ⟨0xA2004, 0x0, 0x0, 0, 16, false⟩
/-! SA_ZOFSi -/
def SA_ZOFS_EN : Fld := ⟨0xA2040, 0x4, 0x0, 31, 1, false⟩
def SA_ZOFS_SE : Fld := ⟨0xA2040, 0x4, 0x0, 30, 1, false⟩
def SA_ZOFS_OFS : Fld := ⟨0xA2040, 0x4, 0x0, 0, 16, false⟩
/-! FE_CFG -/
def FE_CFG_ANGTOL : Fld := ⟨0xB0000, 0x0, 0x0, 0, 16, false⟩
/-! FE_STAT -/
def FE_STAT_ZVALID : Fld := ⟨0xB0004, 0x0, 0x0, 31, 1, false⟩
def FE_STAT_FVALID : Fld := ⟨0xB0004, 0x0, 0x0, 30, 1, false⟩
def FE_STAT_LSCFG : Fld := ⟨0xB0004, 0x0, 0x0, 5, 1, true⟩
def FE_STAT_MAGERR : Fld := ⟨0xB0004, 0x0, 0x0, 4, 1, true⟩
def FE_STAT_ANGSKEW : Fld := ⟨0xB0004, 0x0, 0x0, 3, 1, true⟩
def FE_STAT_STALEIN : Fld := ⟨0xB0004, 0x0, 0x0, 2, 1, true⟩
def FE_STAT_COEFRNG : Fld := ⟨0xB0004, 0x0, 0x0, 1, 1, true⟩
def FE_STAT_CFGERR : Fld := ⟨0xB0004, 0x0, 0x0, 0, 1, true⟩
/-! FE_CNT -/
def FE_CNT_STALECNT : Fld := ⟨0xB0008, 0x0, 0x0, 16, 16, false⟩
def FE_CNT_ANGBAD : Fld := ⟨0xB0008, 0x0, 0x0, 0, 16, false⟩
/-! FE_LCFG -/
def FE_LCFG_ZEN : Fld := ⟨0xB0010, 0x0, 0x0, 31, 1, false⟩
def FE_LCFG_ZCH : Fld := ⟨0xB0010, 0x0, 0x0, 24, 4, false⟩
def FE_LCFG_FEN : Fld := ⟨0xB0010, 0x0, 0x0, 23, 1, false⟩
def FE_LCFG_FCH : Fld := ⟨0xB0010, 0x0, 0x0, 16, 4, false⟩
def FE_LCFG_LSAGE : Fld := ⟨0xB0010, 0x0, 0x0, 0, 16, false⟩
/-! FE_LZMAP -/
def FE_LZMAP_HI : Fld := ⟨0xB0014, 0x0, 0x0, 16, 16, false⟩
def FE_LZMAP_LO : Fld := ⟨0xB0014, 0x0, 0x0, 0, 16, false⟩
/-! FE_LFMAP -/
def FE_LFMAP_HI : Fld := ⟨0xB0018, 0x0, 0x0, 16, 16, false⟩
def FE_LFMAP_LO : Fld := ⟨0xB0018, 0x0, 0x0, 0, 16, false⟩
/-! FE_LSTATE -/
def FE_LSTATE_ZQ : Fld := ⟨0xB001C, 0x0, 0x0, 16, 16, false⟩
def FE_LSTATE_FQ : Fld := ⟨0xB001C, 0x0, 0x0, 0, 16, false⟩
/-! FE_FCnCFG -/
def FE_FC_CFG_EN : Fld := ⟨0xB0100, 0x20, 0x0, 31, 1, false⟩
def FE_FC_CFG_STREAM : Fld := ⟨0xB0100, 0x20, 0x0, 30, 1, false⟩
def FE_FC_CFG_ASTREAM : Fld := ⟨0xB0100, 0x20, 0x0, 29, 1, false⟩
def FE_FC_CFG_SCS : Fld := ⟨0xB0100, 0x20, 0x0, 28, 1, false⟩
def FE_FC_CFG_ANGEN : Fld := ⟨0xB0100, 0x20, 0x0, 27, 1, false⟩
def FE_FC_CFG_GDOVR : Fld := ⟨0xB0100, 0x20, 0x0, 26, 1, false⟩
def FE_FC_CFG_ORDM1 : Fld := ⟨0xB0100, 0x20, 0x0, 24, 2, false⟩
def FE_FC_CFG_PAIR : Fld := ⟨0xB0100, 0x20, 0x0, 20, 4, false⟩
def FE_FC_CFG_RANKT : Fld := ⟨0xB0100, 0x20, 0x0, 18, 2, false⟩
def FE_FC_CFG_RSEL : Fld := ⟨0xB0100, 0x20, 0x0, 15, 3, false⟩
def FE_FC_CFG_DSRC : Fld := ⟨0xB0100, 0x20, 0x0, 14, 1, false⟩
def FE_FC_CFG_SRCU : Fld := ⟨0xB0100, 0x20, 0x0, 13, 1, false⟩
def FE_FC_CFG_SRCINJ : Fld := ⟨0xB0100, 0x20, 0x0, 12, 1, false⟩
def FE_FC_CFG_SRCENT : Fld := ⟨0xB0100, 0x20, 0x0, 8, 4, false⟩
/-! FE_FCnDEC -/
def FE_FC_DEC_BASE : Fld := ⟨0xB0104, 0x20, 0x0, 20, 10, false⟩
def FE_FC_DEC_FIRL : Fld := ⟨0xB0104, 0x20, 0x0, 10, 7, false⟩
def FE_FC_DEC_RATIO : Fld := ⟨0xB0104, 0x20, 0x0, 0, 9, false⟩
/-! FE_FCnGD -/
def FE_FC_GD_FIRGD : Fld := ⟨0xB0108, 0x20, 0x0, 0, 16, false⟩
/-! FE_FCnDET -/
def FE_FC_DET_HOLD : Fld := ⟨0xB010C, 0x20, 0x0, 16, 16, false⟩
def FE_FC_DET_DECAY : Fld := ⟨0xB010C, 0x20, 0x0, 12, 4, false⟩
def FE_FC_DET_ATK : Fld := ⟨0xB010C, 0x20, 0x0, 8, 4, false⟩
def FE_FC_DET_REL : Fld := ⟨0xB010C, 0x20, 0x0, 4, 4, false⟩
def FE_FC_DET_RMSW : Fld := ⟨0xB010C, 0x20, 0x0, 0, 4, false⟩
/-! FE_FCnOUT -/
def FE_FC_OUT_VALUE : Fld := ⟨0xB0110, 0x20, 0x0, 0, 32, false⟩
/-! FE_FCnSTAT -/
def FE_FC_STAT_UPD : Fld := ⟨0xB0114, 0x20, 0x0, 24, 8, false⟩
def FE_FC_STAT_VALID : Fld := ⟨0xB0114, 0x20, 0x0, 23, 1, false⟩
def FE_FC_STAT_SETTLING : Fld := ⟨0xB0114, 0x20, 0x0, 22, 1, false⟩
def FE_FC_STAT_NLEFT : Fld := ⟨0xB0114, 0x20, 0x0, 8, 8, false⟩
/-! FE_FCnTCOR -/
def FE_FC_TCOR_T : Fld := ⟨0xB0118, 0x20, 0x0, 0, 32, false⟩
/-! FE_FCnDLY -/
def FE_FC_DLY_DLY : Fld := ⟨0xB011C, 0x20, 0x0, 0, 32, false⟩
/-! FE_FCnPK -/
def FE_FC_PK_VALUE : Fld := ⟨0xB0300, 0x10, 0x0, 0, 32, false⟩
/-! FE_FCnRMS -/
def FE_FC_RMS_VALUE : Fld := ⟨0xB0304, 0x10, 0x0, 0, 32, false⟩
/-! FE_FCnENV -/
def FE_FC_ENV_VALUE : Fld := ⟨0xB0308, 0x10, 0x0, 0, 32, false⟩
/-! FE_FCnANG -/
def FE_FC_ANG_ANG : Fld := ⟨0xB0400, 0x8, 0x0, 0, 32, false⟩
/-! FE_FCnMAG -/
def FE_FC_MAG_MAG : Fld := ⟨0xB0404, 0x8, 0x0, 16, 16, false⟩
def FE_FC_MAG_AVALID : Fld := ⟨0xB0404, 0x8, 0x0, 0, 1, false⟩
/-! FE_FCnMLIM -/
def FE_FC_MLIM_MMAX : Fld := ⟨0xB0480, 0x4, 0x0, 16, 16, false⟩
def FE_FC_MLIM_MMIN : Fld := ⟨0xB0480, 0x4, 0x0, 0, 16, false⟩
/-! FE_COEFi -/
def FE_COEF_H : Fld := ⟨0xB1000, 0x4, 0x0, 0, 18, false⟩
/-! TH_CFG -/
def TH_CFG_ONSET : Fld := ⟨0xC0000, 0x0, 0x0, 24, 8, false⟩
def TH_CFG_HYS : Fld := ⟨0xC0000, 0x0, 0x0, 20, 4, false⟩
def TH_CFG_DW : Fld := ⟨0xC0000, 0x0, 0x0, 16, 4, false⟩
def TH_CFG_PMAX : Fld := ⟨0xC0000, 0x0, 0x0, 8, 8, false⟩
def TH_CFG_SLOPE : Fld := ⟨0xC0000, 0x0, 0x0, 4, 4, false⟩
/-! TH_CHK -/
def TH_CHK_NBMAX : Fld := ⟨0xC0004, 0x0, 0x0, 0, 8, false⟩
/-! TH_STAT -/
def TH_STAT_MECH : Fld := ⟨0xC0008, 0x0, 0x0, 31, 1, false⟩
def TH_STAT_GUARD : Fld := ⟨0xC0008, 0x0, 0x0, 30, 1, false⟩
def TH_STAT_VALIDCNT : Fld := ⟨0xC0008, 0x0, 0x0, 25, 5, false⟩
def TH_STAT_HOT : Fld := ⟨0xC0008, 0x0, 0x0, 20, 5, false⟩
def TH_STAT_TGOV : Fld := ⟨0xC0008, 0x0, 0x0, 0, 16, false⟩
/-! TH_LEVEL -/
def TH_LEVEL_DLVL : Fld := ⟨0xC000C, 0x0, 0x0, 28, 4, false⟩
def TH_LEVEL_DFLOOR : Fld := ⟨0xC000C, 0x0, 0x0, 24, 4, false⟩
def TH_LEVEL_P : Fld := ⟨0xC000C, 0x0, 0x0, 16, 8, false⟩
def TH_LEVEL_PLVL : Fld := ⟨0xC000C, 0x0, 0x0, 8, 6, false⟩
def TH_LEVEL_PFLOOR : Fld := ⟨0xC000C, 0x0, 0x0, 0, 6, false⟩
/-! TH_CNT -/
def TH_CNT_THSKIP : Fld := ⟨0xC0010, 0x0, 0x0, 16, 16, false⟩
def TH_CNT_ENTRIES : Fld := ⟨0xC0010, 0x0, 0x0, 8, 8, false⟩
/-! TH_FAIL -/
def TH_FAIL_FAILED : Fld := ⟨0xC0014, 0x0, 0x0, 0, 24, false⟩
/-! TH_RGNDIV -/
def TH_RGNDIV_NOSENS : Fld := ⟨0xC0018, 0x0, 0x0, 0, 16, false⟩
/-! TH_TSn -/
def TH_TS_VALID : Fld := ⟨0xC0100, 0x4, 0x0, 31, 1, false⟩
def TH_TS_FAILED : Fld := ⟨0xC0100, 0x4, 0x0, 30, 1, false⟩
def TH_TS_CAUSE : Fld := ⟨0xC0100, 0x4, 0x0, 28, 2, false⟩
def TH_TS_REJ : Fld := ⟨0xC0100, 0x4, 0x0, 24, 4, false⟩
def TH_TS_T : Fld := ⟨0xC0100, 0x4, 0x0, 0, 16, false⟩
/-! PM_CMD -/
def PM_CMD_WAKE : Fld := ⟨0xC1000, 0x0, 0x0, 1, 1, false⟩
def PM_CMD_SLEEP : Fld := ⟨0xC1000, 0x0, 0x0, 0, 1, false⟩
/-! PM_STAT -/
def PM_STAT_PGLOSS : Fld := ⟨0xC1004, 0x0, 0x0, 1, 1, true⟩
def PM_STAT_CMDIGN : Fld := ⟨0xC1004, 0x0, 0x0, 0, 1, true⟩
/-! PM_BLKi -/
def PM_BLK_ON : Fld := ⟨0xC1010, 0x4, 0x0, 0, 32, false⟩
/-! PM_RGN -/
def PM_RGN_ON : Fld := ⟨0xC1030, 0x0, 0x0, 0, 16, false⟩
/-! PM_LG -/
def PM_LG_ON : Fld := ⟨0xC1034, 0x0, 0x0, 0, 32, false⟩
/-! PM_OTHER -/
def PM_OTHER_ON : Fld := ⟨0xC1038, 0x0, 0x0, 4, 12, false⟩
def PM_OTHER_CS : Fld := ⟨0xC1038, 0x0, 0x0, 0, 4, false⟩
/-! SP_STAT -/
def SP_STAT_SRC : Fld := ⟨0xD0000, 0x0, 0x0, 30, 2, false⟩
def SP_STAT_LOCKED : Fld := ⟨0xD0000, 0x0, 0x0, 29, 1, false⟩
def SP_STAT_DIFF : Fld := ⟨0xD0000, 0x0, 0x0, 28, 1, false⟩
def SP_STAT_OSCERR : Fld := ⟨0xD0000, 0x0, 0x0, 27, 1, false⟩
def SP_STAT_VAONHI : Fld := ⟨0xD0000, 0x0, 0x0, 26, 1, false⟩
def SP_STAT_CLAMPCNT : Fld := ⟨0xD0000, 0x0, 0x0, 8, 8, false⟩
def SP_STAT_BADENT : Fld := ⟨0xD0000, 0x0, 0x0, 0, 8, false⟩
/-! SP_SUPLAST -/
def SP_SUPLAST_VALID : Fld := ⟨0xD0004, 0x0, 0x0, 31, 1, false⟩
def SP_SUPLAST_HIGH : Fld := ⟨0xD0004, 0x0, 0x0, 30, 1, false⟩
def SP_SUPLAST_RAIL : Fld := ⟨0xD0004, 0x0, 0x0, 27, 3, false⟩
/-! SP_WDSTAT -/
def SP_WDSTAT_ARMED : Fld := ⟨0xD0008, 0x0, 0x0, 31, 1, false⟩
def SP_WDSTAT_TRIPCNT : Fld := ⟨0xD0008, 0x0, 0x0, 16, 8, false⟩
def SP_WDSTAT_BADHB : Fld := ⟨0xD0008, 0x0, 0x0, 8, 8, false⟩
/-! SP_ALERT -/
def SP_ALERT_GUARDHOLD : Fld := ⟨0xD000C, 0x0, 0x0, 31, 1, false⟩
def SP_ALERT_FSMASK : Fld := ⟨0xD000C, 0x0, 0x0, 0, 11, false⟩
/-! SP_OTPEN -/
def SP_OTPEN_FLOCK : Fld := ⟨0xD0010, 0x0, 0x0, 4, 1, false⟩
def SP_OTPEN_CUST : Fld := ⟨0xD0010, 0x0, 0x0, 3, 1, false⟩
def SP_OTPEN_CHIP : Fld := ⟨0xD0010, 0x0, 0x0, 2, 1, false⟩
def SP_OTPEN_BLK : Fld := ⟨0xD0010, 0x0, 0x0, 1, 1, false⟩
def SP_OTPEN_CELL : Fld := ⟨0xD0010, 0x0, 0x0, 0, 1, false⟩
/-! SP_PGnCFG -/
def SP_PG_CFG_SERVE : Fld := ⟨0xD0040, 0x20, 0x0, 31, 1, false⟩
def SP_PG_CFG_GPER : Fld := ⟨0xD0040, 0x20, 0x0, 0, 16, false⟩
/-! SP_PGnTOUT -/
def SP_PG_TOUT_TOUT : Fld := ⟨0xD0044, 0x20, 0x0, 0, 16, false⟩
/-! SP_PGnMAG -/
def SP_PG_MAG_MAGMAX : Fld := ⟨0xD0048, 0x20, 0x0, 0, 31, false⟩
/-! SP_PGnSLEW -/
def SP_PG_SLEW_SLEWMAX : Fld := ⟨0xD004C, 0x20, 0x0, 0, 31, false⟩
/-! SP_PGnSTAT -/
def SP_PG_STAT_HOLDING : Fld := ⟨0xD0050, 0x20, 0x0, 31, 1, false⟩
def SP_PG_STAT_OALIVE : Fld := ⟨0xD0050, 0x20, 0x0, 16, 8, false⟩
def SP_PG_STAT_TOUTCNT : Fld := ⟨0xD0050, 0x20, 0x0, 8, 8, false⟩
def SP_PG_STAT_REJCNT : Fld := ⟨0xD0050, 0x20, 0x0, 0, 8, false⟩
/-! ID_IBIEN -/
def ID_IBIEN_EN : Fld := ⟨0x40, 0x0, 0x0, 0, 6, false⟩
/-! ID_IBISRC -/
def ID_IBISRC_OSC : Fld := ⟨0x44, 0x0, 0x0, 5, 1, true⟩
def ID_IBISRC_GUARD : Fld := ⟨0x44, 0x0, 0x0, 4, 1, true⟩
def ID_IBISRC_THERM : Fld := ⟨0x44, 0x0, 0x0, 3, 1, true⟩
def ID_IBISRC_SENSE : Fld := ⟨0x44, 0x0, 0x0, 2, 1, true⟩
def ID_IBISRC_FAULT : Fld := ⟨0x44, 0x0, 0x0, 1, 1, true⟩
def ID_IBISRC_STATE : Fld := ⟨0x44, 0x0, 0x0, 0, 1, true⟩
/-! ID_BOOTSTAT -/
def ID_BOOTSTAT_USED : Fld := ⟨0x30, 0x0, 0x0, 30, 2, false⟩
def ID_BOOTSTAT_SIGOK : Fld := ⟨0x30, 0x0, 0x0, 29, 1, false⟩
def ID_BOOTSTAT_SAFEBAD : Fld := ⟨0x30, 0x0, 0x0, 28, 1, false⟩
def ID_BOOTSTAT_ENFORCE : Fld := ⟨0x30, 0x0, 0x0, 27, 1, false⟩
def ID_BOOTSTAT_STABLEB : Fld := ⟨0x30, 0x0, 0x0, 24, 1, false⟩
def ID_BOOTSTAT_ITEMB : Fld := ⟨0x30, 0x0, 0x0, 20, 4, false⟩
def ID_BOOTSTAT_RESB : Fld := ⟨0x30, 0x0, 0x0, 16, 4, false⟩
def ID_BOOTSTAT_STABLEA : Fld := ⟨0x30, 0x0, 0x0, 8, 1, false⟩
def ID_BOOTSTAT_ITEMA : Fld := ⟨0x30, 0x0, 0x0, 4, 4, false⟩
def ID_BOOTSTAT_RESA : Fld := ⟨0x30, 0x0, 0x0, 0, 4, false⟩
/-! ID_STRAP -/
def ID_STRAP_TRCLASS : Fld := ⟨0x34, 0x0, 0x0, 7, 2, false⟩
def ID_STRAP_I3CA : Fld := ⟨0x34, 0x0, 0x0, 4, 3, false⟩
def ID_STRAP_NVM : Fld := ⟨0x34, 0x0, 0x0, 2, 2, false⟩
def ID_STRAP_SLOT : Fld := ⟨0x34, 0x0, 0x0, 0, 2, false⟩
/-! ID_IMGSEQ -/
def ID_IMGSEQ_SEQNUM : Fld := ⟨0x38, 0x0, 0x0, 0, 32, false⟩
/-! BT_CTRL -/
def BT_CTRL_LIVESRC : Fld := ⟨0xE0000, 0x0, 0x0, 31, 1, false⟩
def BT_CTRL_SPDI3C : Fld := ⟨0xE0000, 0x0, 0x0, 30, 1, false⟩
def BT_CTRL_BUSTO : Fld := ⟨0xE0000, 0x0, 0x0, 0, 16, false⟩
/-! BT_CFGSTAT -/
def BT_CFGSTAT_APPLIED : Fld := ⟨0xE0004, 0x0, 0x0, 16, 16, false⟩
def BT_CFGSTAT_IGNCNT : Fld := ⟨0xE0004, 0x0, 0x0, 8, 8, false⟩
def BT_CFGSTAT_TABSKIP : Fld := ⟨0xE0004, 0x0, 0x0, 2, 6, false⟩
def BT_CFGSTAT_PINCONFLICT : Fld := ⟨0xE0004, 0x0, 0x0, 1, 1, true⟩
def BT_CFGSTAT_RIGERR : Fld := ⟨0xE0004, 0x0, 0x0, 0, 1, false⟩
/-! BT_PINSTAT -/
def BT_PINSTAT_CONFCNT : Fld := ⟨0xE0008, 0x0, 0x0, 24, 8, false⟩
def BT_PINSTAT_CONF : Fld := ⟨0xE0008, 0x0, 0x0, 0, 24, false⟩
/-! BT_PINOWNi -/
def BT_PINOWN_LOST3 : Fld := ⟨0xE0010, 0x4, 0x0, 28, 4, false⟩
def BT_PINOWN_OWN3 : Fld := ⟨0xE0010, 0x4, 0x0, 24, 3, false⟩
def BT_PINOWN_LOST2 : Fld := ⟨0xE0010, 0x4, 0x0, 20, 4, false⟩
def BT_PINOWN_OWN2 : Fld := ⟨0xE0010, 0x4, 0x0, 16, 3, false⟩
def BT_PINOWN_LOST1 : Fld := ⟨0xE0010, 0x4, 0x0, 12, 4, false⟩
def BT_PINOWN_OWN1 : Fld := ⟨0xE0010, 0x4, 0x0, 8, 3, false⟩
def BT_PINOWN_LOST0 : Fld := ⟨0xE0010, 0x4, 0x0, 4, 4, false⟩
def BT_PINOWN_OWN0 : Fld := ⟨0xE0010, 0x4, 0x0, 0, 3, false⟩
/-! BT_I3CSTAT -/
def BT_I3CSTAT_DAVALID : Fld := ⟨0xE0028, 0x0, 0x0, 31, 1, false⟩
def BT_I3CSTAT_DYNADDR : Fld := ⟨0xE0028, 0x0, 0x0, 24, 7, false⟩
def BT_I3CSTAT_DISCNT : Fld := ⟨0xE0028, 0x0, 0x0, 16, 8, false⟩
def BT_I3CSTAT_TOCNT : Fld := ⟨0xE0028, 0x0, 0x0, 8, 8, false⟩
def BT_I3CSTAT_CCCNAK : Fld := ⟨0xE0028, 0x0, 0x0, 0, 8, false⟩
/-! BT_SPD -/
def BT_SPD_ERRCNT : Fld := ⟨0xE002C, 0x0, 0x0, 24, 8, false⟩
def BT_SPD_I3CACT : Fld := ⟨0xE002C, 0x0, 0x0, 16, 4, false⟩
def BT_SPD_PRESENT : Fld := ⟨0xE002C, 0x0, 0x0, 0, 4, false⟩
/-! ID_FUSESTAT -/
def ID_FUSESTAT_DEFHASH : Fld := ⟨0x48, 0x0, 0x0, 30, 2, false⟩
def ID_FUSESTAT_ENFORCE : Fld := ⟨0x48, 0x0, 0x0, 29, 1, false⟩
def ID_FUSESTAT_LOCKMARG : Fld := ⟨0x48, 0x0, 0x0, 28, 1, false⟩
def ID_FUSESTAT_CHIPST : Fld := ⟨0x48, 0x0, 0x0, 26, 2, false⟩
def ID_FUSESTAT_CUSTST : Fld := ⟨0x48, 0x0, 0x0, 24, 2, false⟩
def ID_FUSESTAT_IDBAD : Fld := ⟨0x48, 0x0, 0x0, 23, 1, false⟩
def ID_FUSESTAT_CHIPMARG : Fld := ⟨0x48, 0x0, 0x0, 8, 8, false⟩
def ID_FUSESTAT_CHIPINV : Fld := ⟨0x48, 0x0, 0x0, 0, 8, false⟩
/-! OT_ADDR -/
def OT_ADDR_AREA : Fld := ⟨0xF0000, 0x0, 0x0, 30, 2, false⟩
def OT_ADDR_BLOCK : Fld := ⟨0xF0000, 0x0, 0x0, 16, 8, false⟩
def OT_ADDR_WORD : Fld := ⟨0xF0000, 0x0, 0x0, 0, 8, false⟩
/-! OT_WDATA0 -/
def OT_WDATA0_DATA : Fld := ⟨0xF0004, 0x0, 0x0, 0, 32, false⟩
/-! OT_WDATA1 -/
def OT_WDATA1_DATA : Fld := ⟨0xF0008, 0x0, 0x0, 0, 32, false⟩
/-! OT_CMD -/
def OT_CMD_KEY : Fld := ⟨0xF000C, 0x0, 0x0, 16, 16, false⟩
def OT_CMD_OP : Fld := ⟨0xF000C, 0x0, 0x0, 0, 4, false⟩
/-! OT_STAT -/
def OT_STAT_BUSY : Fld := ⟨0xF0010, 0x0, 0x0, 31, 1, false⟩
def OT_STAT_RESULT : Fld := ⟨0xF0010, 0x0, 0x0, 24, 4, false⟩
def OT_STAT_ENCAUSE : Fld := ⟨0xF0010, 0x0, 0x0, 20, 4, false⟩
def OT_STAT_CLASS : Fld := ⟨0xF0010, 0x0, 0x0, 16, 3, false⟩
def OT_STAT_PULSES : Fld := ⟨0xF0010, 0x0, 0x0, 8, 8, false⟩
def OT_STAT_CMDIGN : Fld := ⟨0xF0010, 0x0, 0x0, 1, 1, true⟩
def OT_STAT_DRIFT : Fld := ⟨0xF0010, 0x0, 0x0, 0, 1, true⟩
/-! OT_CNT -/
def OT_CNT_DRIFTCNT : Fld := ⟨0xF0014, 0x0, 0x0, 24, 8, false⟩
def OT_CNT_INVCNT : Fld := ⟨0xF0014, 0x0, 0x0, 16, 8, false⟩
def OT_CNT_MARGCNT : Fld := ⟨0xF0014, 0x0, 0x0, 8, 8, false⟩
def OT_CNT_CORRCNT : Fld := ⟨0xF0014, 0x0, 0x0, 0, 8, false⟩
/-! OT_DRIFT -/
def OT_DRIFT_ADDR : Fld := ⟨0xF0018, 0x0, 0x0, 0, 32, false⟩
/-! OT_RDLO0 -/
def OT_RDLO0_RAW : Fld := ⟨0xF0020, 0x0, 0x0, 0, 32, false⟩
/-! OT_RDLO1 -/
def OT_RDLO1_RAW : Fld := ⟨0xF0024, 0x0, 0x0, 0, 32, false⟩
/-! OT_RDHI0 -/
def OT_RDHI0_RAW : Fld := ⟨0xF0028, 0x0, 0x0, 0, 32, false⟩
/-! OT_RDHI1 -/
def OT_RDHI1_RAW : Fld := ⟨0xF002C, 0x0, 0x0, 0, 32, false⟩
/-! OT_RDCHK -/
def OT_RDCHK_CHKHI : Fld := ⟨0xF0030, 0x0, 0x0, 16, 8, false⟩
def OT_RDCHK_CHKLO : Fld := ⟨0xF0030, 0x0, 0x0, 0, 8, false⟩
/-! ID_PART -/
def ID_PART_REV : Fld := ⟨0x0, 0x0, 0x0, 20, 8, false⟩
def ID_PART_CFA : Fld := ⟨0x0, 0x0, 0x0, 17, 2, false⟩
def ID_PART_VARIANT : Fld := ⟨0x0, 0x0, 0x0, 16, 1, false⟩
def ID_PART_PART : Fld := ⟨0x0, 0x0, 0x0, 0, 16, false⟩

end Reg

end Sys2Proof.Machine
end

