-- ==== Sys2Proof/Machine/State.lean ====
section
/-! DEFINITION. The state of the part as plain data, and the state right after reset. Every register of Table 19-2 has its
one home in `State.regs`, by address; what the registers do not show stands in the fields of the structures below. -/
namespace Sys2Proof.Machine

/-- A faulting access. No command of spec/ has one: what cannot be done is refused by the part itself and the part goes
on, so no meaning answers with a fault. The one constructor is raised by nothing (safe). -/
inductive Fault where
  | impossible
  deriving DecidableEq, Repr

/-- A refusal. `notModelled` is raised by an arm of `exec` whose command has no meaning yet (safe: no next state is
claimed). -/
inductive Refusal where
  | notModelled (mnemonic : String)
  deriving DecidableEq, Repr

/-- The states of Table 1-5 (R28). -/
inductive DevState where
  | off | safeBoot | load | train | run | standby | safe | haltConfig | shutdown
  deriving DecidableEq, Repr

/-- The causes of Table 1-7 (R34). -/
inductive Cause where
  | powerOn | loadDone | trainDone | hostStandby | hostWake | bootStart
  | watchdog | refclkLoss | pllLoss | vddcLoss | supplyLoss | sensorsFew | bootFail | thermal
  deriving DecidableEq, Repr

/-- A register image: address and word, addresses rising; an address that is not listed holds its reset word. -/
abbrev RegFile := List (Nat × Word)

/-- A packet of Table 11-1 before it is laid out in bytes (R314). `data` marks a data packet of the frame-structured
stream of its VC (R320), `bypass` one that is sent without credits (R299), `crc` one whose payload the frame CRC covers
(R329). -/
structure Packet where
  vc : Nat
  dt : Nat
  seq : Nat
  frameLo : Nat
  payload : List Byte
  data : Bool := false
  crc : Bool := false
  bypass : Bool := false
  deriving DecidableEq, Repr

/-- What the part puts on its pins and buses, in the order it does so (model's own record, log entry 3). Of a transmitter's
block stream, `idles` is a run of IDLE blocks and `blocks` lists coded blocks: lane, control block, scrambled payload (R284
to R286); a port below 32 is a link group, 32 is RIG_IN and 33 is RIG_OUT. `prbs` begins a group's PRBS of order 9 or 31: the
register of each lane, whose bits go out lowest first (R290, R308) (log entry 66). -/
inductive Out where
  | packet (group : Nat) (bytes : List Byte)
  | marker (group lane : Nat) (bytes : List Byte)
  | idles (port n : Nat)
  | blocks (port : Nat) (coded : List (Nat × Bool × Nat))
  | prbs (group order : Nat) (lanes : List Nat)
  | elecIdle (group : Nat)
  | pointing (bytes : List Byte)
  | i3c (bytes : List Byte)
  | i3cNack
  | ibi (data : Nat)
  | rig (port : Nat) (bytes : List Byte)
  | csi (bytes : List Byte)
  | csiDeskew (initial : Bool)
  | csiClock (hs : Bool)
  | spdSetaasa
  deriving DecidableEq, Repr

/-- The transmit side of a data lane: the last 58 scrambled bits, the oldest in bit 0 (R284), and the XOR of the scrambled
payload bytes sent since the previous marker (BIP, R288). -/
structure Lane where
  scr : Nat
  bip : Nat
  deriving DecidableEq, Repr

/-- The block stream of a transmitter (R286, R288): blocks sent since the last marker, blocks that wait for the slot after the next
one (control block or not, payload), and its lanes. -/
structure Line where
  sent : Nat
  carry : List (Bool × Nat)
  lanes : List Lane
  deriving DecidableEq, Repr

/-- A transmitter of `n` lanes that has sent nothing. -/
def Line.init (n : Nat) : Line := ⟨0, [], List.replicate n ⟨0, 0⟩⟩

/-- A link group beyond what LK_GSTATg shows (R283 to R303). -/
structure Group where
  /-- Device time at which the present training step began (R291). -/
  stepAt : Nat
  /-- ACK PATTERN_OK taken; markers start at the next marker slot (R291). -/
  patternOk : Bool
  /-- SEQ of the last accepted return-lane message (R295). -/
  rtSeq : Option Nat
  /-- Device time of the last valid RT block (R303). -/
  lastRt : Nat
  /-- Packets of the group at the fabric, head first: those that 16 KiB hold stand in the transmit buffer, the others wait to be
  admitted into it (R300). -/
  buf : List Packet
  /-- The group's packets in the cistern spill ring, oldest first (R248). -/
  spill : List Packet
  /-- Device time since which the head packet waits for credits (R300). -/
  waitAt : Option Nat
  /-- Device time at which credits became withheld (R302). -/
  withheldAt : Option Nat
  /-- Heartbeats sent since the group became ACTIVE; its low byte is ALIVE (R333). -/
  hbCount : Nat
  /-- Device time of the next heartbeat (R333). -/
  hbAt : Nat
  /-- The next heartbeat carries DISCARD (R37, R333). -/
  hbDiscard : Bool
  /-- Its 16 data lanes (R284 to R288). -/
  line : Line
  deriving DecidableEq, Repr

/-- A group that is off. -/
def Group.init : Group := ⟨0, false, none, 0, [], [], none, none, 0, 0, false, Line.init 16⟩

/-- A rig message waiting in a transmitter (R311, R312). For a PROBE_REPLY `arg2` holds the instant the probe arrived. -/
structure RigMsg where
  typ : Nat
  alive : Nat
  hop : Nat
  arg : Nat
  arg2 : Nat
  fix : List Byte
  deriving DecidableEq, Repr

/-- The rig ports and rig time (R77 to R80, R310 to R312). -/
structure Rig where
  /-- Messages waiting in RIG_OUT (downstream) and RIG_IN (upstream). -/
  outQ : List RigMsg
  inQ : List RigMsg
  /-- Locked receivers, RIG_IN then RIG_OUT (R310). -/
  inLock : Bool
  outLock : Bool
  /-- Link delay in ns from the last probe reply (R311). -/
  delay : Nat
  /-- Device time of the last valid TIME message (R80). -/
  lastTime : Option Nat
  /-- Consecutive messages with |e| at most 2 ns (R79). -/
  lockRun : Nat
  /-- The one forward step of this alignment has been taken or ruled out (R78). -/
  stepped : Bool
  /-- Nanoseconds of rate trim still to apply, signed (R78). -/
  trim : Int
  /-- Last accepted ALIVE by message type and origin hop (R334): (type, hop, alive). -/
  alive : List (Nat × Nat × Nat)
  /-- This device's own alive counters by type (R311). -/
  ownAlive : List (Nat × Nat)
  /-- The two lanes of RIG_IN's transmitter, then of RIG_OUT's (R310). -/
  lines : List Line
  deriving DecidableEq, Repr

/-- Rig ports after reset. -/
def Rig.init : Rig := ⟨[], [], false, false, 0, none, 0, false, 0, [], [], [Line.init 2, Line.init 2]⟩

/-- What the loader reads: the header, the section table, a section by TYPE (R440). -/
inductive BootItem where
  | header
  | table
  | part (typ : Nat)
  deriving DecidableEq, Repr

/-- A section table entry (Table 16-4). -/
structure Section where
  typ : Nat
  offset : Nat
  length : Nat
  deriving DecidableEq, Repr

/-- The boot loader (R428 to R444). -/
structure Boot where
  /-- Filtered PORn level and the instant of its rise (R428). -/
  porn : Bool
  pornAt : Nat
  /-- Straps sampled, fuse bank shadowed (R428). -/
  strapped : Bool
  shadowed : Bool
  /-- Slots still to try and the slot being read: 0 = A, 1 = B (R440). -/
  todo : List Nat
  slot : Option Nat
  /-- The item being read, with the data of this read (R441). -/
  item : Option BootItem
  buf : List Byte
  /-- Instant of the command of the burst under way (R433). -/
  burstAt : Nat
  /-- Computed CRC of each finished read of the item; none for a read that timed out (R441). -/
  reads : List (Option Nat)
  /-- The accepted header, table bytes, table entries and section contents of the slot (R439). -/
  header : List Byte
  tableBytes : List Byte
  sections : List Section
  contents : List (Nat × List Byte)
  /-- SAFETY failed its three reads (R442). -/
  safeBad : Bool
  /-- Write-list entries still to apply, the section they are of, and the end of a DELAY (R435). -/
  wl : List (List Byte)
  wlSection : Nat
  delayUntil : Option Nat
  /-- Every section read (R440). -/
  allRead : Bool
  /-- Result of the signature check once it has ended (R439). -/
  sig : Option Bool
  /-- Blocks whose trim shadows are loaded (R440). -/
  trims : List Nat
  /-- Cistern initialisation started and complete (R235, R440). -/
  cisStart : Bool
  cisDone : Bool
  /-- Revert after a failed slot is in progress (R443). -/
  reverting : Bool
  /-- Event slots that CONFIG arms in the first cycle of RUN (R436). -/
  armAtRun : List Nat
  /-- ROLE of the RIG section (R438). -/
  rigRole : Nat
  deriving DecidableEq, Repr

/-- The loader before LOAD. -/
def Boot.init : Boot :=
  ⟨true, 0, false, false, [], none, none, [], 0, [], [], [], [], [], false, [], 0, none, false, none, [], false, false,
    false, [], 0⟩

/-- The I3C target and the return-lane pointer (R296, R448 to R451). -/
structure Control where
  /-- Read pointer of private reads (R449). -/
  readPtr : Nat
  /-- Target events enabled by ENEC and DISEC (R448). -/
  events : Bool
  /-- IBI sources already signalled (R424): bits of ID_IBISRC. -/
  ibiDone : Nat
  /-- Write pointer of WADDR, none while invalid (R296). -/
  wptr : Option Nat
  /-- Frame of the last RCFRM since the last discard (R297). -/
  rcfrm : Option Nat
  /-- SPD hubs: consecutive failures of transfers (R453). -/
  spdFails : List Nat
  /-- Instant of the last discard of R37 (R449). -/
  discardAt : Option Nat
  deriving DecidableEq, Repr

/-- The control ports after reset; target events enabled. -/
def Control.init : Control := ⟨0, true, 0, none, none, [0, 0, 0, 0], none⟩

/-- A pointing channel of the guard (R199 to R201, R416 to R422). -/
structure GuardCh where
  /-- Why the channel holds on the guard's own account: 0 not, 1 before the first good message, 2 timeout, 3 SAFE,
  SHUTDOWN or HALT_CONFIG (R418). -/
  hold : Nat
  /-- Last accepted incoming ALIVE (R417). -/
  inAlive : Option Nat
  /-- Instant of the last main-logic message, and of the next own-account HOLD (R418). -/
  lastMsg : Nat
  nextHold : Nat
  /-- Errors of the last message sent, the base of the slew limit (R199). -/
  pan : Int
  tilt : Int
  /-- Consecutive messages without NEW (R200). -/
  stale : Nat
  /-- Incoming messages missed by gaps of their alive counter (R334). -/
  gaps : Nat
  deriving DecidableEq, Repr

/-- The guard before the first message. -/
def GuardCh.init : GuardCh := ⟨0, none, 0, 0, 0, 0, 0, 0⟩

/-- A message that waits for the pointing port (R198): when it fell due, its channel, whether it is a HOLD message and one
that the guard sends on its own account (R418), and the fields of Table 6-4 with the TMID that AGE is measured from. -/
structure PortMsg where
  due : Nat
  chan : Nat
  hold : Bool
  own : Bool
  flags : Nat
  pan : Int
  tilt : Int
  conf : Nat
  tmid : Option Nat
  deriving DecidableEq, Repr

/-- The safety partition beyond its registers (R403 to R427). -/
structure Safety where
  /-- Instant of the last valid heartbeat or of arming (R413), and its ALIVE (R412). -/
  wdAt : Nat
  hbAlive : Option Nat
  /-- Consecutive bad REFCLK windows, and whether REFCLK is found good (R408). -/
  badWin : Nat
  refBad : Bool
  /-- A loss of PLL_MAIN waits for the next REFCLK window (R408), and the instant at which SAFE was entered (R414). -/
  pllWait : Bool
  safeAt : Option Nat
  guard : List GuardCh
  /-- Messages waiting for the pointing port and the instant it is free (R198). -/
  port : List PortMsg
  portFree : Nat
  deriving DecidableEq, Repr

/-- The partition as VDDAON rises. -/
def Safety.init : Safety := ⟨0, none, 0, false, false, none, List.replicate 4 GuardCh.init, [], 0⟩

/-- What a sync or resolver input has brought since the last update (R63, R68, R69): a pulse count or an angle in 1/2^32
revolution with its instant, or a rejected input (`bad`). -/
structure Meas where
  z : Int
  t : Nat
  bad : Bool
  deriving DecidableEq, Repr

/-- A timebase channel beyond its registers (R60 to R76, R505). Positions are in counts and rates in counts per µs, both
exact (log entry 6). -/
structure TbCh where
  /-- Position and rate at the last estimator instant (R74). -/
  x : Rat
  v : Rat
  /-- The instant of `x`, and of the previous accepted measurement, ns. -/
  tx : Nat
  tz : Nat
  /-- Accepted measurements since the estimator was started: 0, 1 or 2 and more (R505). -/
  inits : Nat
  /-- Accepted measurements in a row (Table 3-3). -/
  run : Nat
  /-- Raw edge count, the count at the last update, and the filtered A and B levels (R64). -/
  raw : Int
  rawPrev : Int
  ab : Nat
  /-- An illegal transition since the last update (R65). -/
  bad : Bool
  /-- Sync and resolver inputs since the last update, in time order (R71). -/
  meas : List Meas
  /-- An index pulse has been taken since LOCKING (R67), and counts travelled since the last one. -/
  idxDone : Bool
  travel : Nat
  /-- Last accepted sync pulse, the pulse count, and whether the next pulse goes unchecked (R68). -/
  lastSync : Nat
  pulses : Int
  fresh : Bool
  /-- Resolver: angle of the previous accepted measurement in 1/2^32 revolution, accumulated count, arrival of the last
  output and the interval before it (R63, R72). -/
  angle : Option Nat
  acc : Rat
  lastOut : Option Nat
  interval : Option Nat
  /-- Instant of entry to COAST, and to LOCKING. -/
  coastAt : Nat
  lockAt : Nat
  /-- RES of the last accepted measurement, S8.8 (R75). -/
  res : Int
  /-- The channel has been LOST and has not tracked since (R89). -/
  lost : Bool
  deriving DecidableEq, Repr

/-- A channel that is off. -/
def TbCh.init : TbCh := ⟨0, 0, 0, 0, 0, 0, 0, 0, 0, false, [], false, 0, 0, 0, true, none, 0, none, none, 0, 0, 0, false⟩

/-- The working copy of an event slot (R81 to R90, R506). -/
structure Slot where
  cfg : Word
  /-- P and STEP in grains. -/
  p : Int
  step : Int
  delay : Nat
  /-- Difference position − P at the last update, grains (R82), and the instant it was taken (R85). -/
  prev : Option Int
  prevAt : Nat
  /-- Scheduled and committed instants, ns (R83). -/
  ts : Nat
  te : Nat
  /-- Instant of the commit (R88). -/
  commitAt : Nat
  /-- Executions since arming (R87). -/
  k : Nat
  /-- A recorded re-arm (R506). -/
  rearm : Bool
  /-- ARM = 0 was written while committed or pending (R84). -/
  stop : Bool
  deriving DecidableEq, Repr

/-- A slot at rest. -/
def Slot.init : Slot := ⟨0#32, 0, 0, 0, none, 0, 0, 0, 0, 0, false, false⟩

/-- A frame whose start is asked for and whose arming point is still to be taken (R95 to R102). -/
structure FrameReq where
  /-- 0 free-running, 1 event slot, 2 pin, 3 rig (Table 11-3). -/
  trig : Nat
  slot : Nat
  /-- Scheduled time, the instant it became fixed, and the arming point, ns. -/
  ts : Nat
  fixedAt : Nat
  armAt : Nat
  /-- Burst entry of the first frame (R133). -/
  entry : Nat
  strict : Bool
  /-- Of a repeat slot (R133). -/
  rep : Bool
  /-- One nominal period in ns, for the skip threshold (R100). -/
  nominal : Option Nat
  /-- Channel and P of the slot that started it (R92). -/
  ch : Nat := 0
  p : Int := 0
  /-- The channels' rates when the start became fixed (R110): usable, and grains per µs without sign. -/
  rates : List (Bool × Rat) := []
  deriving DecidableEq, Repr

/-- The trigger pins (R95, R251): level, edge instant, waiting to qualify, and the channels' rates at the edge (R110). -/
structure TrigPin where
  level : Bool
  edgeAt : Nat
  waiting : Bool
  rates : List (Bool × Rat) := []
  deriving DecidableEq, Repr

/-- The gallery outputs of GAL_SET, GAL_PULSE and the strobes (R86, R182, R446), and BOOTBUSY (R431). -/
structure Gallery where
  /-- Driven level of each pin, none for high impedance. -/
  out : List (Option Bool)
  /-- End of the pulse under way on each pin (Table 3-4). -/
  pulseEnd : List (Option Nat)
  /-- Level that the states give BOOTBUSY (R431). -/
  bootBusy : Bool
  deriving DecidableEq, Repr

/-- A commit that has not reached a frame yet (R135, R136, R274): its stamp, its generation, the settings it carries, and
whether it resets the local exposure loop (R122). -/
structure Commit where
  stamp : Nat
  gen : Nat
  img : RegFile
  reset : Bool
  /-- The admission made from these settings (R244), where the commit changed a field of it (R243): use bits, 1/R, PRE. -/
  adm : Option (Nat × (Nat × Nat) × Nat)
  deriving DecidableEq, Repr

/-- One exposure class in a frame (R109 to R113, R125 to R127). Instants and lengths in ns; `a` and `b` are the slice
lengths of tap-interleaved HDR. -/
structure FClass where
  use : Bool
  start : Nat
  dur : Nat
  durB : Nat
  a : Nat
  b : Nat
  gain : Nat
  deriving DecidableEq, Repr

/-- An entry of a cell queue: a row at one gain, or a tracking read (R166). `row` is the position in reading order for a
picture entry. -/
structure Entry where
  cell : Nat
  frame : Nat
  track : Bool
  row : Nat
  tapB : Bool
  lcg : Bool
  codes : List Nat
  deriving DecidableEq, Repr

/-- A row of a cell inside stage 1: its position in reading order, its sum after step 1, its values after step 3 and
after step 5 of Table 7-1 in 1/16 codes (R206), and its count of clipped pixels (R229). Of a reference row `after5` holds the
values after step 1; `lost` is the fill cause of a row whose data is gone: 4 after R167, 7 after an unreadable or lost merged-HDR tap (R257). -/
structure S1Row where
  cell : Nat
  row : Nat
  tapB : Bool
  lcg : Bool
  sum1 : Int
  after3 : List Int
  after5 : List Int
  clip : Nat
  lost : Nat
  deriving DecidableEq, Repr

/-- An output row of a cell that waits for the other cells of its run (R170): `gain` 0 HCG, 1 LCG, 2 merged; `cause` 0 for
data, else the fill cause of Table 5-3. -/
structure OutRow where
  vc : Nat
  cell : Nat
  row : Nat
  tapB : Bool
  gain : Nat
  spr : Nat
  cause : Nat
  codes : List Nat
  deriving DecidableEq, Repr

/-- An entry of the fill list (Tables 11-12 and 5-3): unit 0 cell, 1 block, 2 region, 3 line. -/
structure FillEnt where
  cause : Nat
  unit : Nat
  tapB : Bool
  gain : Nat
  index : Nat
  first : Nat
  last : Nat
  deriving DecidableEq, Repr

/-- What one VC of a frame has been sent (Table 11-9). -/
structure VcCount where
  vc : Nat
  rowsData : Nat
  rowsFill : Nat
  rowsDrop : Nat
  closed : Bool
  deriving DecidableEq, Repr

/-- The statistics flags of a cell in a frame (Table 7-6). -/
structure CellFlag where
  cell : Nat
  partlyLost : Bool
  blDef : Bool
  blKeep : Bool
  deriving DecidableEq, Repr

/-- The dark table in force, or about to come into force (R142, R212): differences by cell and gain in 1/16 codes. -/
structure DarkTable where
  diff : List (Nat × Bool × Int)
  map : RegFile
  ovr : Option Nat
  durs : List Nat
  deriving DecidableEq, Repr

/-- A frame from its arming point to the end of its closing sequences. -/
structure Frame where
  num : Nat
  gen : Nat
  /-- Settings in force and the class map words it uses (R115, R116). -/
  img : RegFile
  map : RegFile
  ovr : Option Nat
  /-- Its arming point (R102). -/
  arm : Nat
  trig : Nat
  slot : Nat
  slotCh : Nat
  slotP : Int
  /-- Its trigger is strict (R104). -/
  strict : Bool
  entry : Nat
  ts : Nat
  /-- Actual start of the earliest exposure, transfer instant, and T_A (R106, R125). -/
  start : Nat
  t : Nat
  ta : Nat
  late : Nat
  skipped : Nat
  cls : List FClass
  /-- θ of each enabled window (R159). -/
  theta : List (Nat × Int)
  /-- Powered set and ready blocks at the arming point, as bit masks (R163, R164). -/
  powered : Nat
  ready : Nat
  /-- Thermal division in force, code of DIV (R150). -/
  div : Nat
  strip : Bool
  tConv : Nat
  tRd : Nat
  tEnd : Nat
  holdP : Nat
  dark : Bool
  /-- FLAGS bits of the header that are fixed before T (Table 11-4). -/
  flags : Nat
  leSrc : Nat
  admis : Nat
  /-- Kinds suppressed for the frame: bit 0 raster and accumulation, bit 1 processed (R319). -/
  supp : Nat
  hdrout : Bool
  rateSkip : Bool
  /-- 0 armed, 1 exposing, 2 reading out, 3 readout ended. -/
  phase : Nat
  /-- FLUSHes begun: 0 of tap A, 1 of tap B, 2 of tap A in the cells whose tap B is tracking's (R185), with the instant. -/
  flush : List (Nat × Nat)
  /-- Classes released from RESET, in cell-rolling mode once for each row (Table 4-8), and STEERs done by class (R46). -/
  released : List Nat
  steers : List (Nat × Nat)
  /-- STEER A that sub-exposures have performed in its exposures: start and end of the sub-exposure, cells (Table 6-1 step 3). -/
  subSteers : List (Nat × Nat × List Nat)
  latchStart : List Byte
  latchT : List Byte
  startDiff : Int
  lzoom : Nat
  lfocus : Nat
  /-- Lost time of each tracked cell with its gain: cell, row (cell-rolling) or 0, L in ns, G in U4.12 (R186). -/
  loss : List (Nat × Nat × Nat × Nat)
  maxLoss : Nat
  /-- Cells whose gain has been clamped (CLAMPCNT). -/
  clamped : List Nat
  /-- Row slots that have started (R152), and rows converted by cell. -/
  slotsOpen : Nat
  rowsDone : List (Nat × Nat)
  s1 : List S1Row
  outRows : List OutRow
  fills : List FillEnt
  /-- Blocks of which a row was discarded under R167, as a bit mask (R178). -/
  ovf : Nat
  counts : List VcCount
  cflags : List CellFlag
  rstat : List (Nat × Nat)
  holdA : Nat
  holdB : Nat
  lastConv : Nat
  statsDone : Bool
  /-- First frame of its burst, and the burst's length (R253). -/
  burst : Nat
  burstLen : Nat
  /-- Output rows for the cistern (R250), and the raw header as built for CS_CFG.RVC. -/
  raster : List OutRow
  rasterHdr : List Byte
  /-- Raw headers built at T that wait for the frame before on their VC to be closed (R320). -/
  hdrDue : List (Nat × List Byte)
  /-- 1/R of the admission in force for the frame as a fraction of ns (R246). -/
  rate : Nat × Nat
  /-- Dynamic replacements so far (R216), and the dark table in force (R142). -/
  dynCnt : Nat
  darkTab : Option DarkTable
  /-- Stage 2 has taken the frame or passed it over (R260). -/
  s2Asked : Bool
  deriving DecidableEq, Repr

/-- The rest of a burst (R133, R511): the next frame's index, the frames still to arm, its scheduled earliest start. -/
structure Burst where
  trig : Nat
  slot : Nat
  entry : Nat
  first : Nat
  len : Nat
  j : Nat
  left : Nat
  start : Nat
  /-- Channel and P of the slot that started it (R92). -/
  ch : Nat
  p : Int
  deriving DecidableEq, Repr

/-- A START_EXP that waits for the next armed frame, or for its class to be free (R113): class, te, and the slot that is
held pending if it is one. -/
structure ExpReq where
  cls : Nat
  te : Nat
  deriving DecidableEq, Repr

/-- A running dark-reference capture (R141 to R143): sums by cell and gain in 1/16 codes, the classes of the first frame,
and the class durations of that frame. -/
structure DarkCap where
  nfr : Nat
  done : Nat
  worst : Nat
  sums : List (Nat × Bool × Rat × Nat)
  map : RegFile
  ovr : Option Nat
  durs : List Nat
  frames : List Nat
  deriving DecidableEq, Repr

/-- An arming point that has been taken, with what a sub-exposure is attributed to after it (R180): the frame's number, capture
generation and settings. -/
structure ArmMark where
  arm : Nat
  num : Nat
  gen : Nat
  img : RegFile
  deriving DecidableEq, Repr

/-- The exposure engine beyond its registers (R105 to R143). -/
structure Exposure where
  /-- Number of the last armed frame and time of its planned transfer and readout end (R98, R101, R153). -/
  num : Nat
  lastT : Option Nat
  lastEnd : Nat
  /-- Planned ends of its tap A rows in reading order (R185, R187). -/
  lastRows : List Nat
  /-- Frames skipped or dropped since the last delivered one (R101). -/
  skips : Nat
  burst : Option Burst
  /-- Free-running: the index of the next frame and its scheduled time (R132, R133). -/
  freeN : Nat
  freeAt : Option Nat
  /-- Durations, as converted to time, and offsets of the classes in the previous frame, units (R110). -/
  prev : List (Nat × Nat)
  /-- θ of the windows of the previous frame (R159). -/
  theta : List (Nat × Int)
  /-- START_EXP held for the next armed frame, and classes busy with the frame number they act on (R113). -/
  expNext : List ExpReq
  expBusy : List (Nat × Nat)
  /-- A write to EX_ since the previous commit (R122). -/
  exWritten : Bool
  /-- The loop: working map words, vote counters by cell (signed: up positive), the frame whose statistics last changed
  it, the least frame whose statistics it uses, and whether it ran in the last frame (R118 to R124). -/
  work : RegFile
  votes : List (Nat × Int)
  leSrc : Nat
  leFrom : Nat
  leOn : Bool
  /-- Decisions taken since the last arming point (header LEACT). -/
  leMoved : Bool
  /-- Working maps that a decision has replaced, oldest first: the instant, the map before it and its LESRC (R121). -/
  leLog : List (Nat × RegFile × Nat)
  dark : Option DarkCap
  darkTable : Option DarkTable
  /-- The table of a capture that is complete, and when it became so (R142). -/
  darkNext : Option DarkTable
  darkAt : Nat
  /-- Arming points of the frames armed, the latest first, as far back as a sub-exposure needs them (R180). -/
  armed : List ArmMark
  deriving DecidableEq, Repr

/-- The exposure engine on entry to RUN from TRAIN. -/
def Exposure.init : Exposure :=
  ⟨0, none, 0, [], 0, none, 0, none, List.replicate 8 (20, 0), [], [], [], false, [], [], 0, 0, false, false, [], none, none,
    none, 0, []⟩

/-- A cell at work (R149, R152, R166): what its converter is doing, tracking reads that wait, and its queue. -/
structure CellRt where
  cell : Nat
  /-- Row under conversion with its gain and start; the row resumes where a tracking read stopped it. -/
  conv : Option (Nat × Nat)
  /-- Tracking reads that wait for the converter, and one under way with its start: number of the sub-exposure (R188). -/
  trackWait : List Nat
  trackNow : Option (Nat × Nat)
  queue : List Entry
  /-- The frame it is reading and its next row in reading order. -/
  frame : Nat
  next : Nat
  /-- Strip samples of this frame by tap and gain (R12). -/
  strip : List (Bool × Bool × List Nat)
  /-- Since when its queue has held data unserved (Table 1-2). -/
  since : Nat := 0
  deriving DecidableEq, Repr

/-- A black level of stage 1 (R209, R210): cell, tap B, LCG, binned, level in 1/16 codes. -/
structure Black where
  cell : Nat
  tapB : Bool
  lcg : Bool
  bin : Bool
  frame : Nat
  level : Int
  deriving DecidableEq, Repr

/-- Blocks, cells and arbiters between converter and fabric, and stage 1 (R145 to R178, R204 to R232). -/
structure Readout where
  /-- Failed blocks and regions as bit masks; failed cells stand in BLK_FAILi (R12). -/
  blkFail : Nat
  rgnFail : Nat
  /-- Arming points each block has been outside the powered set, and the instant a switch-on began (R164, R165). -/
  outside : List (Nat × Nat)
  onAt : List (Nat × Nat)
  cells : List CellRt
  /-- Last cell served by each block arbiter, tracking and picture class, and last block by each region arbiter. -/
  trackRr : List (Nat × Nat)
  picRr : List (Nat × Nat)
  rgnRr : List (Nat × Nat)
  /-- Entries taken by the block arbiters that wait for their region arbiter, and by block since when it has held such data
  unserved (Table 1-2). -/
  blockOut : List Entry
  blockSince : List (Nat × Nat)
  blacks : List Black
  /-- Static defects: x, y, kind (R213). -/
  defects : List (Nat × Nat × Nat)
  /-- Lens-shading grids: index and node gains (R217). -/
  grids : List (Nat × List Nat)
  /-- Grid nodes that act as unity, and defect entries that are skipped, for the frame being read (R228). -/
  badNodes : List (Nat × Nat)
  badDefects : List Nat
  lastLens : Option (Nat × Nat)
  /-- Transfer and end of the last readout that has ended (R98, R153). -/
  done : Nat × Nat
  deriving DecidableEq, Repr

/-- Nothing converted, nothing failed. -/
def Readout.init : Readout :=
  ⟨0, 0, [], [], [], [], [], [], [], [], [], [], [], [], [], none, (0, 0)⟩

/-- A sub-exposure from its start to its last result (R182 to R190). -/
structure SubExp where
  id : Nat
  plan : Nat
  slot : Nat
  /-- Actual start, duration in ns, lateness, and the frame it is attributed to with its generation and settings. -/
  te : Nat
  dur : Nat
  late : Nat
  frame : Nat
  gen : Nat
  img : RegFile
  wins : List Nat
  /-- Its cells; those still to read, STEER B done, reads that the arbiters have delivered: cell and samples. -/
  span : List Nat
  cells : List Nat
  ended : Bool
  data : List (Nat × List Nat)
  /-- Windows whose result is taken, and those with a sub-exposure dropped or skipped since their previous one (R190). -/
  done : List Nat
  broken : List Nat
  deriving DecidableEq, Repr

/-- The previous sub-exposure of a window as a pair's first half (R190): its phase, duration, gain, the window's settings, its
mid-point, start, lateness, and its samples after trim in 1/16 codes with the mark of a raw code of 16383; and the PEAK of the
previous result with the start of its sub-exposure (R191). -/
structure WinHist where
  win : Nat
  phase : Nat
  dur : Nat
  lcg : Bool
  words : List Nat
  mid : Nat
  te : Nat
  late : Nat
  samples : List (Int × Bool)
  peak : Nat
  peakTe : Nat
  deriving DecidableEq, Repr

/-- The newest VALID result of a source (R194, R202): window, hop (none for this head), the channels whose updates have seen
it, centroid in 1/256 pixel, confidence and TMID. -/
structure Fix where
  win : Nat
  hop : Option Nat
  seen : List Nat
  cx : Nat
  cy : Nat
  conf : Nat
  tmid : Nat
  deriving DecidableEq, Repr

/-- A pointing channel beyond its registers (R195 to R197). -/
structure PointCh where
  pan : Int
  tilt : Int
  /-- TMID of the fix whose errors are repeated, none before the first. -/
  tmid : Option Nat
  /-- Device time of the last update, and the last valid Z (R194, R196). -/
  lastUpd : Option Nat
  z : Option Rat
  deriving DecidableEq, Repr

/-- The tracking engine and the pointing channels (R179 to R203). -/
structure Track where
  nextId : Nat
  subs : List SubExp
  /-- Past sub-exposures that may still fall in an exposure interval: start, end, cells (R186). -/
  past : List (Nat × Nat × List Nat)
  /-- Earliest next start of a cell (Table 6-1 step 9). -/
  cellFree : List (Nat × Nat)
  /-- Windows with a sub-exposure dropped or skipped since their last one (R190). -/
  broken : List Nat
  wins : List WinHist
  fixes : List Fix
  points : List PointCh
  /-- Strobe pins that are high, with the instant they go low (R182). -/
  strobes : List (Nat × Nat)
  /-- Arming points at which the settings of a window changed: window, instant (R190, R191). -/
  changed : List (Nat × Nat)
  /-- FLUSH B of the sub-exposures to come (Table 6-1 step 2): slot, instant, cells. -/
  flush : List (Nat × Nat × List Nat)
  deriving DecidableEq, Repr

/-- The tracking engine with nothing under way. -/
def Track.init : Track := ⟨0, [], [], [], [], [], [], List.replicate 4 ⟨0, 0, none, none, none⟩, [], [], []⟩

/-- The newest output of a filter channel: value S16.16, its flags, corrected time and D × Tin (R367, R370). -/
structure FiltOut where
  y : Int
  valid : Bool
  settling : Bool
  tcor : Int
  dly : Nat
  deriving DecidableEq, Repr

/-- An output under computation (R362): the instant at which it is available, and the timestamp of its newest input. -/
structure FiltDue where
  ready : Nat
  out : FiltOut
  tNew : Nat
  deriving DecidableEq, Repr

/-- A filter channel beyond its registers (R361 to R378). -/
structure FiltCh where
  /-- Latched inputs, oldest first: value, timestamp, and the instant of the latch. -/
  inQ : List (Int × Nat × Nat)
  /-- The round after that of the last input processed, and the outputs under computation, oldest first (R362). -/
  nextRound : Nat
  outQ : List FiltDue
  /-- Last inputs of the rank filter, newest first. -/
  hist : List Int
  /-- Integrators, comb delays, and inputs since the last output with the instant of the first of them. -/
  integ : List Int
  comb : List Int
  count : Nat
  tFirst : Nat
  sum : Int
  /-- FIR delay line, newest first. -/
  fir : List Int
  left : Nat
  resetAt : Nat
  upd : Nat
  out : Option FiltOut
  /-- Channels with an output since this channel's last angle, as a mask (R374). -/
  since : Nat
  /-- Detectors: peak, hold count, envelope, sum of squares and its count. -/
  pk : Nat
  hold : Nat
  env : Nat
  sq : Nat
  sqn : Nat
  deriving DecidableEq, Repr

/-- A channel after a reset at `t`. -/
def FiltCh.reset (t left : Nat) : FiltCh :=
  ⟨[], 0, [], [], [0, 0, 0, 0], [0, 0, 0, 0], 0, 0, 0, [], left, t, 0, none, 0, 0, 0, 0, 0, 0⟩

/-- The filter engine: its channels, and whether its domain has failed (R379). -/
structure Filters where
  ch : List FiltCh
  failed : Bool
  deriving DecidableEq, Repr

/-- The engine off. -/
def Filters.init : Filters := ⟨List.replicate 16 (FiltCh.reset 0 0), false⟩

/-- The thermal manager beyond its registers (R380 to R394). Temperatures are S9.7 °C codes. -/
structure Thermal where
  /-- Hottest valid sensor (heartbeat TMAX) and its index. -/
  tmax : Nat
  hot : Nat
  /-- DIV in force (R389). -/
  div : Nat
  /-- Consecutive samples at 155 °C or more (R385). -/
  sd : Nat
  guardOn : Bool
  /-- Sensors with an accepted sample since the end of SAFE_BOOT, and with an invalid trim word (R381, R460). -/
  accepted : Nat
  trimBad : Nat
  /-- Consecutive samples past NBMAX (R382). -/
  nb : List Nat
  /-- lu and ld of the last 8 samples, newest first: proportional, division (R385). -/
  pLu : List Nat
  pLd : List Nat
  dLu : List Nat
  dLd : List Nat
  /-- Thinning accumulators: frame starts, and START_TRACK by slot (R388). -/
  accFrame : Nat
  accTrack : List (Nat × Nat)
  /-- TH_CFG.SLOPE as the last sample took it (R388, R394). -/
  slope : Nat
  deriving DecidableEq, Repr

/-- The thermal manager as VDDAON rises. -/
def Thermal.init : Thermal :=
  ⟨0, 0, 0, 0, false, 0, 0, List.replicate 24 0, List.replicate 8 0, List.replicate 8 0, List.replicate 8 0,
    List.replicate 8 0, 99, [], 5⟩

/-- A raster frame in the cistern (R240, R250): the frame as it closed, its raw header, the rows stored for it, and the
lines that read with an uncorrectable error (R257). -/
structure Stored where
  frame : Frame
  hdr : List Byte
  rows : List OutRow
  mem : List Nat
  /-- The slot of the frame area that holds it (R238, R240). -/
  slot : Nat := 0
  deriving DecidableEq, Repr

/-- An output of a frame-structured stream that is under way beside the raw one (R319, R320): KIND of Table 11-3, the frame
or group, and what its footer counts. -/
structure OpenOut where
  kind : Nat
  vc : Nat
  stored : Stored
  firstNum : Nat
  nacc : Nat
  fills : List FillEnt
  linesData : Nat
  linesFill : Nat
  linesDrop : Nat
  lastRead : Nat
  deriving DecidableEq, Repr

/-- A recall request (R255): ID, frame, rows, VC. -/
structure Recall where
  id : Nat
  frame : Nat
  first : Nat
  last : Nat
  vc : Nat
  deriving DecidableEq, Repr

/-- An accumulation group (R253, R254): its burst (the number of the burst's first frame), frames so far, its first frame,
generation, sums by row, and the fill entries met. -/
structure AccGroup where
  count : Nat
  firstNum : Nat
  gen : Nat
  size : Nat
  sums : List (OutRow × List Nat)
  fills : List FillEnt
  last : Option Stored
  /-- Lines that read with an uncorrectable error in any of its frames (R257). -/
  mem : List Nat := []
  deriving DecidableEq, Repr

/-- The cistern (R233 to R259). -/
structure Cis where
  /-- Requests queued and the one running with the packets it has still to send (R255). -/
  recallQ : List Recall
  rcl : Option (Recall × List (List Byte))
  /-- Bytes of the spill ring, 0 without a working channel (R239). -/
  spillSize : Nat
  /-- Admission in force: use bits, 1/R as a fraction of ns, PRE (R242 to R244). -/
  admis : Nat
  rate : Nat × Nat
  pre : Nat
  /-- Rated speed codes of the modules (R234). -/
  rated : List Nat
  /-- Frames delivered without cistern uses for their rate, until a later frame is stored (R246, R254). -/
  rateSkips : List Nat
  /-- Share of the bandwidth that each reader of class 2 has had, in ns at its admitted cost, by its use of Table 8-2 (R247). -/
  served : List Rat
  /-- Instant of the channel loss whose re-admission is not complete (R244). -/
  readmit : Option Nat
  /-- Ring frames, oldest first; frames still to take in POSTING; the freeze trigger that waits for its event frame; a
  release that waits for recalls (R250 to R252). -/
  ring : List Stored
  postLeft : Nat
  trigAt : Option Nat
  release : Bool
  trig : TrigPin
  /-- Raster frames due for output (R319), accumulation results due, and the output under way. -/
  rasterDue : Option Stored
  accDue : List AccGroup
  acc : Option AccGroup
  out : Option OpenOut
  /-- Last transfer instant (R246). -/
  lastT : Option Nat
  /-- Command-address parity errors by channel and instant (R237). -/
  parity : List (Nat × Nat)
  /-- Stored frames that stage 2 has still to take (R261). -/
  s2Due : List Stored
  /-- The preview is disabled by the rate check on the settings in force (R280); preview frames sent per CSI-2 channel
  (R337), and since the port was enabled (R336); the clock lane is in its high-speed state (R336). -/
  pvOff : Bool
  pvNum : List Nat
  pvCount : Nat
  pvClk : Bool
  deriving DecidableEq, Repr

/-- The cistern before LOAD. -/
def Cis.init : Cis :=
  ⟨[], none, 0, 0, (0, 1), 0, [2, 2, 2, 2], [], List.replicate 6 0, none, [], 0, none, false, { level := false, edgeAt := 0, waiting := false }, none, [], none,
    none, none, [], [], false,
    [0, 0, 0, 0], 0, false⟩

/-- A processed frame in stage 2 (R261, R275 to R281): the stored frame with the raster's fill entries, its processing
generation and settings, the instant of entry, the angle of the resample, the next output row, whether it goes out on the
links and on the preview port, whether its read has ended and when, its own fill entries, rows sent as data, and the next
preview line. -/
structure S2Frame where
  stored : Stored
  pgen : Nat
  img : RegFile
  entered : Nat
  rate : Nat × Nat
  theta : Int
  nextRow : Nat
  linked : Bool
  pvOn : Bool
  readAt : Option Nat
  fills : List FillEnt
  rowsData : Nat
  rowsDrop : Nat
  pvLine : Nat
  /-- Ho: its output rows (R262). -/
  ho : Nat
  deriving DecidableEq, Repr

/-- A conversion in progress on a sense unit (R340): its sampling instant in 1/6 ns, the slice and the unit it resolves on,
the sequence and entry it is of with the entry's settings, whether it is the entry's last, a zero calibration's, or
discarded (R349), and the zero offset its result subtracts, S12.4 (R358). -/
structure SConv where
  at6 : Nat
  unit : Nat
  slice : Nat
  inj : Bool
  entry : Nat
  cfg : Word
  last : Bool
  zero : Bool
  dead : Bool
  redo : Bool
  zofs : Int
  deriving DecidableEq, Repr

/-- A sequence that has been accepted (R347): its start, ns, the settings taken at the start, the next conversion. -/
structure SeqRun where
  /-- The instant of acceptance, and whether its conversions follow an injected sequence (R348, R351). -/
  arrived : Nat
  follows : Bool
  startAt : Nat
  started : Bool
  cfgs : List Word
  entry : Nat
  idx : Nat
  redo : Bool
  overrun : Bool
  zofs : Int
  deriving DecidableEq, Repr

/-- What the conversions of an entry have given so far: corrected codes × 10^8, sampling instants in 1/6 ns (R345, R346). -/
structure SAcc where
  n : Nat
  sum : Int
  t6 : Nat
  clip : Bool
  deriving DecidableEq, Repr

/-- A zero calibration that runs (R357). -/
structure ZeroRun where
  chan : Nat
  se : Bool
  begun : Nat
  acc : SAcc
  deriving DecidableEq, Repr

/-- A sense unit beyond its registers (R340 to R360). -/
structure SenseUnit where
  /-- Enabled, and CONT and PAIR as they applied at the enable (R360). -/
  on : Bool
  cont : Bool
  pair : Bool
  failed : Bool
  reg : Option SeqRun
  inj : Option SeqRun
  /-- The injected trigger that is held pending: its IDLY after arrival (R350). -/
  pend : Option Nat
  flight : List SConv
  regAcc : SAcc
  injAcc : SAcc
  /-- Sampling instant of the next conversion and of the last one begun, 1/6 ns. -/
  next6 : Nat
  last6 : Nat
  /-- The next conversion of a pair goes to SA1 (R344). -/
  turn : Bool
  /-- Slices in service in rotation, the place of the next one, and the slices by time in service, longest first (R342). -/
  rot : List Nat
  pos : Nat
  age : List Nat
  /-- Offset in 1/100 code and gain error in 10^-6 of each slice's last calibration (R341). -/
  cal : List (Int × Int)
  /-- Whole millisecond of the last hand-over (R342). -/
  handMs : Nat
  /-- Comparator states OUTSIDE: regular entries in bits 15:0, injected in 19:16 (R355). -/
  outside : Nat
  /-- Timestamps of the results: regular entries 0 to 15, then injected entries (R352). -/
  times : List Nat
  /-- The result that was replaced last: entry, instant, word and timestamp (R353). -/
  was : Option (Nat × Nat × Word × Nat)
  zero : Option ZeroRun
  deriving DecidableEq, Repr

/-- A unit that is off, with its slices as they are at boot. -/
def SenseUnit.init : SenseUnit :=
  ⟨false, false, false, false, none, none, none, [], ⟨0, 0, 0, false⟩, ⟨0, 0, 0, false⟩, 0, 0, false, [0, 1, 2, 3], 0,
    [0, 1, 2, 3], List.replicate 5 (0, 0), 0, 0, List.replicate 20 0, none, none⟩

/-- An OTP command that pulses fuses (R466 to R476): operation 2 PROGRAM, 3 a lock, 5 enforcement; the word, the fuses that
must read 1 at its end, the fuses still to pulse in this round, rounds and pulses so far, the result it aborts with (0
for none, R469), and the instant at which the pulse or the verify read under way ends. -/
structure OtpRun where
  op : Nat
  key : Nat
  code : Nat
  todo : List Nat
  rounds : Nat
  pulses : Nat
  abort : Nat
  due : Nat
  deriving DecidableEq, Repr

/-- The fuses and the OTP controller (R454 to R476). -/
structure Otp where
  /-- How the fuses of a word read at present, low and high margin: key, raw, raw. A word that is not listed reads at both
  margins as shipped (log entry 20). -/
  fuses : List (Nat × Nat × Nat)
  /-- Boot result of the listed words: key, class of R461, value (R463, R464). -/
  boot : List (Nat × Nat × Nat)
  /-- Words that a PROGRAM has addressed since the last PORn (R463). -/
  programmed : List Nat
  run : Option OtpRun
  /-- VDDIO, and VPP where it is supplied, lie within their windows (R426). -/
  supplyOk : Bool
  deriving DecidableEq, Repr

/-- Fuses as shipped, nothing running. -/
def Otp.init : Otp := ⟨[], [], [], none, true⟩

/-- The whole part (R1 to R511). Registers stand in `regs`; the structures hold what no register shows. -/
structure State where
  /-- Commands that wait, first in, first out. -/
  pending : List Instr
  /-- What the part has put on its pins and buses, newest first (log entry 3). -/
  out : List Out
  /-- Index of the next free value (log entry 2). -/
  free : Nat
  /-- Nanoseconds of the always-on clock since VDDAON rose, and device time in ns (R18). -/
  up : Nat
  now : Nat
  /-- Device state, the state before it and the cause of the last transition (Tables 1-5 and 1-7). -/
  dev : DevState
  prev : DevState
  cause : Cause
  /-- Every register of Table 19-2 (Table 19-1: shadow values of RWC registers). -/
  regs : RegFile
  /-- W1C bits that hardware has set in the present cycle: address and mask (R9) (log entry 68). -/
  hot : List (Nat × Nat)
  /-- In-force values of the capture RWC registers (R135, R136) and of the stage-2 RWC registers (R276). -/
  inForce : RegFile
  cpInForce : RegFile
  /-- PLL_MAIN is locked; PLL_CS0 to PLL_CS3 and PLL_PV have not lost lock since reset (Table 1-4, R19). -/
  pllMain : Bool
  pllCs : List Bool
  pllPv : Bool
  /-- Domains of PM_OTHER that have lost power-good, by their bit, until the next boot (R399). -/
  domLost : Nat
  /-- Device time at which training was last started or restarted (R30). -/
  trainAt : Nat
  /-- The always-on supply is above its threshold (R410). -/
  vddaon : Bool
  groups : List Group
  rig : Rig
  boot : Boot
  ctl : Control
  safety : Safety
  cis : Cis
  thermal : Thermal
  /-- Round-robin place of the next packet among the groups of each VC (R322). -/
  deal : List Nat
  /-- Packets sent on each VC (R314), and the VC whose CE context stands in CE_VAL[2] (R330). -/
  vcPackets : List Nat
  ceVc : Option Nat
  /-- Spare groups in use: failed group and the spare in its place (R300). -/
  repl : List (Nat × Nat)
  /-- Groups that completed training after RUN and so are spares, as a bit mask (R30, R307). -/
  joined : Nat
  /-- Marker slots since PLL_MAIN locked, modulo 2^24, and the instant of the last one (R288). -/
  markerCount : Nat
  markerAt : Nat
  /-- Frame of the last frame header sent, 0 before the first (R333). -/
  lastHeader : Nat
  /-- Commits of capture and stage-2 settings that have not come into force (R135, R274). -/
  commits : List Commit
  cpCommits : List Commit
  /-- Data packets that had no room and are not yet counted in their frame (R174). -/
  dropped : List Packet
  /-- Packets that the frame CRCs cover so far (R329). -/
  covered : List Packet
  tbs : List TbCh
  slots : List Slot
  reqs : List FrameReq
  gal : Gallery
  trig : TrigPin
  /-- Resources that slots have executed on, with the instant (R88). -/
  execs : List (Nat × Nat)
  lastUpdate : Option Nat
  lastArmed : Nat
  frames : List Frame
  expo : Exposure
  rd : Readout
  trk : Track
  flt : Filters
  s2 : List S2Frame
  sense : List SenseUnit
  otp : Otp
  deriving DecidableEq, Repr

/-- The part right after reset: SAFE_BOOT in the cycle in which PORn rises after power-on, every register at its value of
Table 19-2, nothing under way (R28, R404, R428). -/
def State.reset : State where
  pending := []
  out := []
  free := 0
  up := 0
  now := 0
  dev := .safeBoot
  prev := .off
  cause := .powerOn
  regs := []
  hot := []
  inForce := []
  cpInForce := []
  pllMain := false
  pllCs := [true, true, true, true]
  pllPv := true
  domLost := 0
  trainAt := 0
  vddaon := true
  groups := List.replicate 32 Group.init
  rig := Rig.init
  boot := Boot.init
  ctl := Control.init
  safety := Safety.init
  cis := Cis.init
  thermal := Thermal.init
  deal := List.replicate 16 0
  vcPackets := List.replicate 16 0
  ceVc := none
  repl := []
  joined := 0
  markerCount := 0
  markerAt := 0
  lastHeader := 0
  commits := []
  cpCommits := []
  dropped := []
  covered := []
  tbs := List.replicate 4 TbCh.init
  slots := List.replicate 64 Slot.init
  reqs := []
  gal := ⟨List.replicate 24 none, List.replicate 24 none, true⟩
  trig := { level := false, edgeAt := 0, waiting := false }
  execs := []
  lastUpdate := none
  lastArmed := 0
  frames := []
  expo := Exposure.init
  rd := Readout.init
  trk := Track.init
  flt := Filters.init
  s2 := []
  sense := [SenseUnit.init, SenseUnit.init]
  otp := Otp.init

end Sys2Proof.Machine
end

