-- ==== Sys2Proof/Machine/Ops.lean ====
section
/-! DEFINITION. The named operations every meaning uses: reading and writing a register field, saturating counters, bytes
and words, the CRCs, entering a device state, discarding work in flight. -/
namespace Sys2Proof.Machine

/-! ## Words and bytes (R5) -/

/-- `n` bytes of `v`, least significant first (R5). -/
def leBytes (n v : Nat) : List Byte := (List.range n).map fun i => BitVec.ofNat 8 (v / 256 ^ i)

/-- The number that bytes hold, least significant first (R5). -/
def leNat : List Byte → Nat
  | [] => 0
  | b :: bs => b.toNat + 256 * leNat bs

/-- The little-endian number in bytes `[o, o + n)` of `bs`. -/
def leAt (bs : List Byte) (o n : Nat) : Nat := leNat ((bs.drop o).take n)

/-- Two's complement value of the low `w` bits of `v`. -/
def sext (w v : Nat) : Int :=
  let m := v % 2 ^ w
  if 2 * m < 2 ^ w then (m : Int) else (m : Int) - (2 ^ w : Nat)

/-- The `w`-bit two's complement code of `x`. -/
def scode (w : Nat) (x : Int) : Nat := (x % (2 ^ w : Nat)).toNat

/-- `x` brought into `lo .. hi`. -/
def clampI (lo hi x : Int) : Int := if x < lo then lo else if hi < x then hi else x

/-- `x` brought into `lo .. hi`. -/
def clampN (lo hi x : Nat) : Nat := if x < lo then lo else if hi < x then hi else x

/-- Rounded up quotient. -/
def ceilDiv (a b : Nat) : Nat := (a + b - 1) / b

/-- Quotient rounded to nearest, ties away from zero. -/
def roundDiv (a : Int) (b : Nat) : Int :=
  if a < 0 then -((2 * (-a) + b) / (2 * b)) else (2 * a + b) / (2 * b)

/-- Bit `i` of `v`. -/
def bitOf (v i : Nat) : Nat := v / 2 ^ i % 2

/-- Whether bit `i` of `v` is 1. -/
def hasBit (v i : Nat) : Bool := bitOf v i == 1

/-- `v` with bit `i` set. -/
def withBit (v i : Nat) : Nat := if hasBit v i then v else v + 2 ^ i

/-- `v` with bit `i` cleared. -/
def withoutBit (v i : Nat) : Nat := if hasBit v i then v - 2 ^ i else v

/-- The positions below `n` whose bit is set, ascending. -/
def bitsOf (n v : Nat) : List Nat := (List.range n).filter (hasBit v)

/-- Element `i` of a list replaced through `f`. -/
def listModify {α : Type} (l : List α) (i : Nat) (f : α → α) : List α :=
  match l, i with
  | [], _ => []
  | x :: xs, 0 => f x :: xs
  | x :: xs, i + 1 => x :: listModify xs i f

/-! ## CRCs -/

/-- One bit of a right-shifting CRC with the reflected polynomial `poly`. -/
def crcBitR (poly c : Nat) : Nat := if c % 2 = 1 then Nat.xor (c / 2) poly else c / 2

/-- One byte into a reflected 32-bit CRC register. -/
def crc32Byte (c : Nat) (b : Byte) : Nat :=
  (List.range 8).foldl (fun c _ => crcBitR 0x82F63B78 c) (Nat.xor c b.toNat)

/-- The running CRC-32C register over bytes, before the final XOR (R315, R330). -/
def crc32Run (c : Nat) (bs : List Byte) : Nat := bs.foldl crc32Byte c

/-- CRC-32C of R315: polynomial 0x1EDC_6F41 reflected, initial value and final XOR 0xFFFF_FFFF. -/
def crc32c (bs : List Byte) : Nat := Nat.xor (crc32Run 0xFFFFFFFF bs) 0xFFFFFFFF

/-- One byte into a left-shifting CRC of width `w` with polynomial `poly`. -/
def crcByteL (w poly c : Nat) (b : Byte) : Nat :=
  (List.range 8).foldl
    (fun c _ => let d := c * 2 % 2 ^ w
                if c / 2 ^ (w - 1) % 2 = 1 then Nat.xor d poly else d)
    (Nat.xor c (b.toNat * 2 ^ (w - 8)))

/-- CRC-8 of Table 10-2: polynomial 0x07, initial value 0. -/
def crc8 (bs : List Byte) : Nat := bs.foldl (crcByteL 8 0x07) 0

/-- CRC-16/IBM-3740 (R197): polynomial 0x1021, initial value 0xFFFF. -/
def crc16 (bs : List Byte) : Nat := bs.foldl (crcByteL 16 0x1021) 0xFFFF

/-- CRC-16 of a CSI-2 long packet (R336): polynomial 0x1021 reflected, initial value 0xFFFF (PRESUMED, log entry 33). -/
def crcCsi (bs : List Byte) : Nat :=
  bs.foldl (fun c b => (List.range 8).foldl (fun c _ => crcBitR 0x8408 c) (Nat.xor c b.toNat)) 0xFFFF

/-- The parity of the low 24 bits of a number. -/
def parity24 (x : Nat) : Nat := (bitsOf 24 x).length % 2

/-- ECC of a CSI-2 packet header whose first three bytes are the number `w` (R336) (PRESUMED, log entry 33). -/
def eccCsi (w : Nat) : Nat :=
  (List.range 6).foldl (fun m i =>
    m + 2 ^ i * parity24 (Nat.land w ([0xF12CB7, 0xF2555B, 0x749A6D, 0xB8E38E, 0xDF03F0, 0xEFFC00].getD i 0))) 0

/-- A CSI-2 packet header: channel, data type, word count or short-packet data, ECC (R336). -/
def csiHeader (vc dt n : Nat) : List Byte :=
  let w := vc * 64 + dt + 256 * (n % 65536)
  leBytes 3 w ++ leBytes 1 (eccCsi w)

/-- A CSI-2 long packet: header, payload, CRC-16 (R336). -/
def csiLong (vc dt : Nat) (bs : List Byte) : List Byte := csiHeader vc dt bs.length ++ bs ++ leBytes 2 (crcCsi bs)

/-! ## The register file -/

/-- The word at address `a` of an image. -/
def RegFile.word (r : RegFile) (a : Nat) : Word :=
  match r with
  | [] => resetWord a
  | (b, v) :: rest => if a = b then v else RegFile.word rest a

/-- The image with `v` at address `a`; addresses stay rising. -/
def RegFile.put (r : RegFile) (a : Nat) (v : Word) : RegFile :=
  match r with
  | [] => [(a, v)]
  | (b, w) :: rest =>
    if a = b then (a, v) :: rest
    else if a < b then (a, v) :: (b, w) :: rest
    else (b, w) :: RegFile.put rest a v

/-- The field of width `w` at bit `lo` of a word. -/
def fieldOf (v : Word) (lo w : Nat) : Nat := v.toNat / 2 ^ lo % 2 ^ w

/-- A word with the field of width `w` at bit `lo` set to `x`. -/
def withField (v : Word) (lo w x : Nat) : Word :=
  BitVec.ofNat 32 (v.toNat / 2 ^ (lo + w) * 2 ^ (lo + w) + x % 2 ^ w * 2 ^ lo + v.toNat % 2 ^ lo)

/-- A field of instance `i`, `j` of its register in an image. -/
def RegFile.fld (r : RegFile) (f : Fld) (i : Nat := 0) (j : Nat := 0) : Nat := fieldOf (r.word (f.addr i j)) f.lo f.w

/-- A field as a two's complement number. -/
def RegFile.sfld (r : RegFile) (f : Fld) (i : Nat := 0) (j : Nat := 0) : Int := sext f.w (r.fld f i j)

/-- A field as a flag. -/
def RegFile.flag (r : RegFile) (f : Fld) (i : Nat := 0) (j : Nat := 0) : Bool := r.fld f i j != 0

/-- An image with a field set. -/
def RegFile.setFld (r : RegFile) (f : Fld) (x : Nat) (i : Nat := 0) (j : Nat := 0) : RegFile :=
  r.put (f.addr i j) (withField (r.word (f.addr i j)) f.lo f.w x)

namespace State

/-- A register field of the part (shadow value where the field is RWC, R8). -/
def get (s : State) (f : Fld) (i : Nat := 0) (j : Nat := 0) : Nat := s.regs.fld f i j

/-- A register field as a two's complement number. -/
def getS (s : State) (f : Fld) (i : Nat := 0) (j : Nat := 0) : Int := s.regs.sfld f i j

/-- A one-bit register field. -/
def flag (s : State) (f : Fld) (i : Nat := 0) (j : Nat := 0) : Bool := s.regs.flag f i j

/-- The W1C bits that hardware has set in this cycle, with those of field `f` where it is one and takes `x` (R9). -/
def hotAfter (hot : List (Nat × Nat)) (f : Fld) (x i j : Nat) : List (Nat × Nat) :=
  if f.w1c && x % 2 ^ f.w != 0 then (f.addr i j, x % 2 ^ f.w * 2 ^ f.lo) :: hot else hot

/-- The bits of the word at `a` that hardware has set in this cycle (R9). -/
def hotMask (hot : List (Nat × Nat)) (a : Nat) : Nat :=
  hot.foldl (fun m e => if e.1 = a then Nat.lor m e.2 else m) 0

/-- Bits `m` of the word at `a` set by hardware (R9). -/
def raiseBits (s : State) (a m : Nat) : State :=
  { s with regs := s.regs.put a (BitVec.ofNat 32 (Nat.lor (s.regs.word a).toNat m)), hot := (a, m) :: s.hot }

/-- The part with a register field set by its hardware. A W1C bit that it sets is noted for the cycle (R9). -/
def set (s : State) (f : Fld) (x : Nat) (i : Nat := 0) (j : Nat := 0) : State :=
  { s with regs := s.regs.setFld f x i j, hot := hotAfter s.hot f x i j }

/-- The part with a register field set to the code of a signed value. -/
def setS (s : State) (f : Fld) (x : Int) (i : Nat := 0) (j : Nat := 0) : State := s.set f (scode f.w x) i j

/-- A counter field raised by `n`, saturating at its largest value. -/
def bump (s : State) (f : Fld) (n : Nat := 1) (i : Nat := 0) (j : Nat := 0) : State :=
  s.set f (min (s.get f i j + n) (2 ^ f.w - 1)) i j

/-- A capture setting in force (R136). -/
def live (s : State) (f : Fld) (i : Nat := 0) (j : Nat := 0) : Nat := s.inForce.fld f i j

/-- One more output of the part (log entry 3). -/
def emit (s : State) (o : Out) : State := { s with out := o :: s.out }

/-- The group `g`. -/
def group (s : State) (g : Nat) : Group := s.groups.getD g Group.init

/-- Group `g` changed through `f`. -/
def setGroup (s : State) (g : Nat) (f : Group → Group) : State := { s with groups := listModify s.groups g f }

/-- A free byte, and the state that will give another (log entry 2). -/
def takeFree (s : State) : BitVec 8 × State := (Config.freeByte s.free, { s with free := s.free + 1 })

/-- The part is a ZA268-M (R41): chip word W0, as ID_ARRAY.VARIANT reports it. -/
def mono (s : State) : Bool := s.flag Reg.ID_ARRAY_VARIANT

/-- A pure store of `v` at `a` by the access masks of its register (R8): RW and RWC bits take the value, W1C bits clear,
but for those that hardware has set in this cycle (R9). -/
def regStore (s : State) (a : Nat) (v : Word) : State :=
  match findReg a with
  | none => s
  | some d =>
    let m := BitVec.ofNat 32 (d.rw + d.rwc)
    let old := s.regs.word a
    { s with regs := s.regs.put a (((old &&& ~~~m) ||| (v &&& m)) &&&
      ~~~(v &&& BitVec.ofNat 32 d.w1c &&& ~~~(BitVec.ofNat 32 (hotMask s.hot a)))) }

/-- Power domain `i` of PM_OTHER.ON switched: 0 PD_TRK, 1 PD_SNS, 2 PD_FLT, 3 PD_S2, 4 PD_PV, 5 PD_RIG, 6 PD_OTP, 7 PD_CSC,
8 PD_SPD, 9 PD_NVM, 10 PD_STS, 11 PD_ACC. -/
def domSet (s : State) (i : Nat) (on : Bool) : State :=
  s.set Reg.PM_OTHER_ON (if on then withBit (s.get Reg.PM_OTHER_ON) i else withoutBit (s.get Reg.PM_OTHER_ON) i)

/-! ## Device states (R28, R34) -/

/-- The code of a state in Table 1-5; OFF has none and reads 0. -/
def devCode : DevState → Nat
  | .off => 0 | .safeBoot => 1 | .load => 2 | .train => 3 | .run => 4 | .standby => 5 | .safe => 6
  | .haltConfig => 7 | .shutdown => 8

/-- The code of a cause in Table 1-7. -/
def causeCode : Cause → Nat
  | .powerOn => 0x00 | .loadDone => 0x01 | .trainDone => 0x02 | .hostStandby => 0x03 | .hostWake => 0x04
  | .bootStart => 0x05 | .watchdog => 0x10 | .refclkLoss => 0x11 | .pllLoss => 0x12 | .vddcLoss => 0x13
  | .supplyLoss => 0x14 | .sensorsFew => 0x15 | .bootFail => 0x20 | .thermal => 0x30

/-- The always-on states in which the main logic is not reached (R26, R27). -/
def stopped (s : State) : Bool := s.dev == .safe || s.dev == .shutdown || s.dev == .haltConfig

/-- RUN or STANDBY. -/
def running (s : State) : Bool := s.dev == .run || s.dev == .standby

/-- The states before RUN, in which I3C writes are discarded and counted (R25). -/
def early (s : State) : Bool := s.dev == .safeBoot || s.dev == .load || s.dev == .train

/-- An I3C write to a register of the main logic, whose effect gives `t`: taken in RUN and STANDBY; counted in EARLYCNT before
them (R25); UNAVAIL in SAFE, SHUTDOWN and HALT_CONFIG (R27). -/
def mainWrite (s t : State) : State :=
  if s.running then t
  else if s.early then s.bump Reg.ID_CTRLSTAT_EARLYCNT
  else if s.stopped then s.set Reg.ID_CTRLSTAT_UNAVAIL 1
  else s

/-- An I3C read of a register of the main logic, whose effect gives `r`: the word goes out; in SAFE, SHUTDOWN and HALT_CONFIG
it is 0x0000_0000 and UNAVAIL is set (R26). -/
def mainRead (s : State) (r : State × Word) : State :=
  if s.dev == .off then s
  else if s.stopped then (s.set Reg.ID_CTRLSTAT_UNAVAIL 1).emit (.i3c (leBytes 4 0))
  else r.1.emit (.i3c (leBytes 4 r.2.toNat))

/-- A source bit of ID_IBISRC set by its event (R424); a new setting is unsignalled. In SAFE, SHUTDOWN and HALT_CONFIG
only STATE, FAULT and OSC can be set (R425). -/
def raiseIbi (s : State) (bit : Nat) : State :=
  if s.stopped && (bit == 2 || bit == 3 || bit == 4) then s
  else
    let src := s.regs.word 0x000044
    if hasBit src.toNat bit then { s with hot := (0x000044, 2 ^ bit) :: s.hot }
    else { s.raiseBits 0x000044 (2 ^ bit) with ctl := { s.ctl with ibiDone := withoutBit s.ctl.ibiDone bit } }

/-- Bit `b` of ID_FAULTSUM set, which raises the FAULT interrupt source when it was clear (R39). -/
def setFault (s : State) (b : Nat) : State :=
  if hasBit (s.regs.word 0x000014).toNat b then { s with hot := (0x000014, 2 ^ b) :: s.hot }
  else (s.raiseBits 0x000014 (2 ^ b)).raiseIbi 1

/-- BOOTBUSY's level in state `d`, after the level `b` (R431). -/
def busyIn (d : DevState) (b : Bool) : Bool :=
  match d with
  | .off | .safeBoot | .load | .haltConfig => true
  | .train | .run | .standby => false
  | .safe | .shutdown => b

/-- The device state changes, with PREV and CAUSE (ID_DEVSTATE), BOOTBUSY and the STATE interrupt source. -/
def enter (s : State) (d : DevState) (c : Cause) : State :=
  ({ s with dev := d, prev := s.dev, cause := c, gal := { s.gal with bootBusy := busyIn d s.gal.bootBusy } }).raiseIbi 0

end State

end Sys2Proof.Machine
end

