-- ==== Sys2Proof/Machine/Line.lean ====
section
/-! DEFINITION. The block streams of the link groups and rig ports: 66-bit blocks, the per-lane scrambler, packet framing,
IDLE fill and the parity that a marker carries (10_link_lanes.md R284 to R288, R310). -/
namespace Sys2Proof.Machine

/-- Block payload of a control block: its code in byte 0, `b` in byte 1 (Table 10-1). -/
def controlPayload (code b : Nat) : Nat := code + 256 * b

/-- The XOR of the eight bytes of a block payload. -/
def foldBytes (x : Nat) : Nat := (leBytes 8 x).foldl (fun a b => Nat.xor a b.toNat) 0

namespace Lane

/-- One payload through the scrambler x^58 + x^39 + 1, which XORs each bit with the 39th and the 58th bit that it put out
before (R284): the scrambled payload and the lane after it. Bit 0 goes first (log entry 69). -/
def scramble (l : Lane) (d : Nat) : Nat × Lane :=
  let head := Nat.xor (Nat.xor d (l.scr / 2 ^ 19)) l.scr % 2 ^ 39
  let past := l.scr % 2 ^ 58 + head * 2 ^ 58
  let o := Nat.xor (Nat.xor d (past / 2 ^ 19)) past % 2 ^ 64
  (o, ⟨o / 2 ^ 6, Nat.xor l.bip (foldBytes o)⟩)

end Lane

namespace Line

/-- Blocks that all lanes together send between two markers (R288). -/
def period (l : Line) : Nat := 16384 * l.lanes.length

/-- The next block of the stream goes to its lane: block k since the marker to lane k mod the number of lanes (R286). -/
def put (l : Line) (ctl : Bool) (d : Nat) : Line × (Nat × Bool × Nat) :=
  let i := l.sent % l.lanes.length
  let (o, lane) := (l.lanes.getD i ⟨0, 0⟩).scramble d
  ({ l with sent := l.sent + 1, lanes := l.lanes.set i lane }, (i, ctl, o))

/-- `n` IDLE blocks (R286). -/
def idle (l : Line) : Nat → Line
  | 0 => l
  | n + 1 => ((l.put true (controlPayload 0x1E 0)).1).idle n

/-- A list of blocks in order: coded up to the marker slot, the rest held for after it (R288). -/
def putAll (l : Line) : List (Bool × Nat) → Line × List (Nat × Bool × Nat)
  | [] => (l, [])
  | b :: rest =>
    if l.sent < l.period then
      let (l, c) := l.put b.1 b.2
      let (l, cs) := l.putAll rest
      (l, c :: cs)
    else ({ l with carry := l.carry ++ b :: rest }, [])

end Line

/-- The blocks of a packet or rig message of these bytes (R286, Table 10-1): SOP, data blocks padded with zeros, EOP with the
valid bytes of the last one. -/
def packetBlocks (bs : List Byte) : List (Bool × Nat) :=
  let n := ceilDiv bs.length 8
  (true, controlPayload 0x78 0) :: ((List.range n).map fun i => (false, leAt bs (8 * i) 8)) ++
    [(true, controlPayload 0x87 (if bs.length % 8 = 0 then 8 else bs.length % 8))]

namespace State

/-- Block slots of a lane that have passed since the last marker slot, 52.8 ns each (R284) (log entry 69). -/
def slotsPast (s : State) : Nat := min 16384 ((s.now - s.markerAt) * 5 / 264)

/-- The transmitter of a port: a link group, or 32 for RIG_IN and 33 for RIG_OUT. -/
def lineOf (s : State) (port : Nat) : Line :=
  if port < 32 then (s.groups.getD port Group.init).line else s.rig.lines.getD (port - 32) (Line.init 2)

/-- The transmitter of a port replaced. -/
def setLine (s : State) (port : Nat) (l : Line) : State :=
  if port < 32 then s.setGroup port fun x => { x with line := l }
  else { s with rig := { s.rig with lines := listModify s.rig.lines (port - 32) fun _ => l } }

/-- Block slots that have passed with nothing to carry are filled with IDLE (R286). -/
def fillIdle (s : State) (port slots : Nat) : State :=
  let l := s.lineOf port
  let n := slots * l.lanes.length - l.sent
  if n = 0 then s else (s.setLine port (l.idle n)).emit (.idles port n)

/-- Blocks of a packet enter a port's stream (R286). -/
def sendBlocks (s : State) (port : Nat) (blocks : List (Bool × Nat)) : State :=
  let s := s.fillIdle port s.slotsPast
  let (l, coded) := (s.lineOf port).putAll blocks
  (s.setLine port l).emit (.blocks port coded)

/-- A port's stream starts: each scrambler at a state that the spec leaves open (log entry 2). -/
def startLine (s : State) (port lanes : Nat) : State :=
  ({ s with free := s.free + lanes }).setLine port
    ⟨0, [], (List.range lanes).map fun i => ⟨(Config.scramblerStart (s.free + i)).toNat, 0⟩⟩

/-- After its marker, a port's parity is 0 and the blocks held back go first (R288). -/
def lineAfterMarker (s : State) (port : Nat) : State :=
  let l := s.lineOf port
  let (l, coded) := ({ l with sent := 0, carry := [], lanes := l.lanes.map fun x => { x with bip := 0 } } : Line).putAll l.carry
  let s := s.setLine port l
  if coded.isEmpty then s else s.emit (.blocks port coded)

end State

end Sys2Proof.Machine
end

