-- ==== Sys2Proof/Machine/Packets.lean ====
section
/-! DEFINITION. Packets, their dealing to link groups, the transmit buffers and the spill ring, heartbeats, group failure
and the discard of work in flight (11_packets_and_metadata.md; 10_link_lanes.md R298 to R309; 01_architecture.md R36 to
R38). -/
namespace Sys2Proof.Machine

/-- Bytes of a packet from header to CRC trailer (R314). -/
def Packet.size (p : Packet) : Nat := 12 + p.payload.length

/-- Credits that a packet needs (R298). -/
def Packet.need (p : Packet) : Nat := ceilDiv p.size 64

/-- Header and payload of a packet (Table 11-1). -/
def Packet.body (p : Packet) : List Byte :=
  leBytes 1 (p.vc % 16) ++ leBytes 1 p.dt ++ leBytes 2 p.payload.length ++ leBytes 2 p.seq ++ leBytes 2 p.frameLo ++
    p.payload

/-- The whole packet with its CRC-32C trailer (R314, R315). -/
def Packet.bytes (p : Packet) : List Byte := p.body ++ leBytes 4 (crc32c p.body)

/-- The packet carries data of a frame, a record or a recall: neither header, footer, exposure map, fill list, ABORT nor heartbeat
(Table 11-2) (log entry 71). -/
def Packet.carriesData (p : Packet) : Bool := decide (p.dt < 0x48) || p.dt == 0x50

/-- The first of a group's packets, that `room` bytes of buffer hold, and those that wait at the fabric (R300). -/
def splitBuffer (room : Nat) : List Packet → List Packet × List Packet
  | [] => ([], [])
  | p :: ps =>
    if p.size ≤ room then
      let (a, b) := splitBuffer (room - p.size) ps
      (p :: a, b)
    else ([], p :: ps)

/-- Group states of Table 10-3. -/
def lsOff : Nat := 0
/-- CLOCK. -/
def lsClock : Nat := 1
/-- PATTERN. -/
def lsPattern : Nat := 2
/-- MARKER. -/
def lsMarker : Nat := 3
/-- ACTIVE. -/
def lsActive : Nat := 4
/-- PRBS. -/
def lsPrbs : Nat := 5
/-- FAILED. -/
def lsFailed : Nat := 6

namespace State

/-- The state of group `g` (R290). -/
def lstate (s : State) (g : Nat) : Nat := s.get Reg.LK_GSTAT_LSTATE g

/-- Whether group `g` is ACTIVE. -/
def active (s : State) (g : Nat) : Bool := s.lstate g == lsActive

/-- Credits granted and not spent (R298). -/
def credits (s : State) (g : Nat) : Nat :=
  (s.get Reg.LK_GLIM_VALUE g + 2 ^ 24 - s.get Reg.LK_GUSED_VALUE g) % 2 ^ 24

/-- Whether group `g` holds credits for packet `p` (R298, R299). -/
def canStart (s : State) (g : Nat) (p : Packet) : Bool :=
  p.bypass || (decide (p.need ≤ s.credits g) && decide (s.credits g < 2 ^ 23))

/-- The packet next to leave group `g`: one that needs no credits first (R299), then the oldest spilled one (R248). -/
def headPacket (s : State) (g : Nat) : Option Packet :=
  match (s.group g).buf.find? (·.bypass) with
  | some p => some p
  | none => match (s.group g).spill with
    | p :: _ => some p
    | [] => (s.group g).buf.head?

/-- The instant since which the head packet of `g` waits for credits is kept up to date (R300). -/
def refreshWait (s : State) (g : Nat) : State :=
  match s.headPacket g with
  | none => s.setGroup g fun x => { x with waitAt := none }
  | some p =>
    if s.active g && s.canStart g p then s.setGroup g fun x => { x with waitAt := none }
    else s.setGroup g fun x => { x with waitAt := some (x.waitAt.getD s.now) }

/-- Bytes in a transmit buffer (R300). -/
def bufBytes (s : State) (g : Nat) : Nat := ((s.group g).buf.map Packet.size).sum

/-- A cistern channel is working: trained and not lost (R233, R258). -/
def chanUp (s : State) (n : Nat) : Bool := s.flag Reg.CS_CH_STAT_TRAINED n && !s.flag Reg.CS_CH_STAT_LOST n

/-- Bytes held in the spill ring by every group (R249). -/
def spillBytes (s : State) : Nat := (s.groups.map fun g => (g.spill.map Packet.size).sum).sum

/-- Spill serves: enabled in the settings in force, and a channel works (R248, R301). -/
def spillOn (s : State) : Bool := s.live Reg.CS_CFG_SPILLEN == 1 && (List.range 4).any s.chanUp

/-! ## Cistern arbitration (R247, Table 8-3) (log entry 70) -/

/-- A picture entry of frame `num` has still to go through stage 1. -/
def entryWaits (s : State) (num : Nat) : Bool :=
  s.rd.blockOut.any (·.frame == num) || s.rd.cells.any fun x => x.queue.any fun e => !e.track && e.frame == num

/-- Entry `e` is of a merged-HDR frame, whose tap A rows are held in the cistern (R154). -/
def heldEntry (s : State) (e : Entry) : Bool := s.frames.any fun f => f.num == e.frame && f.hdrout

/-- Entry `e` of tap B needs the tap A row that the cistern holds (R154). -/
def readsBack (s : State) (e : Entry) : Bool := e.tapB && s.heldEntry e

/-- An admitted write waits (class 1): the rows of a raster frame that has gone through stage 1 and is not stored yet, which an
accumulation takes with them, or a merged-HDR tap A row. -/
def writeWaits (s : State) : Bool :=
  s.dev == .run && (s.frames.any fun f => decide (3 ≤ f.phase) && !f.raster.isEmpty && !s.entryWaits f.num) ||
    s.rd.blockOut.any fun e => !e.tapB && s.heldEntry e

/-- Group `g` is one of the RSVG groups that the admitted spill reserve serves in class 2: those that spill, lowest first. -/
def reserved (s : State) (g : Nat) : Bool :=
  hasBit s.cis.admis 5 &&
    decide (((List.range g).filter fun h => !(s.group h).spill.isEmpty).length < s.live Reg.CS_SPILL_RSVG)

/-- Group `g` can drain its oldest spilled packet. -/
def drainReady (s : State) (g : Nat) : Bool :=
  match (s.group g).spill with
  | p :: _ => s.active g && s.canStart g p
  | [] => false

/-- The frame whose next rows stage 2 reads: not one whose header waits for the close of an earlier frame (R320). -/
def s2Next (s : State) : Option S2Frame :=
  match s.s2.find? fun x => decide (x.nextRow < x.ho) with
  | none => none
  | some x => if x.linked && s.s2.any fun y => y.linked && decide (y.entered < x.entered) then none else some x

/-- The rows behind the next output row fall due at the even pace of R261, 1/R − 10 µs for all of them. -/
def s2Due (s : State) : Bool :=
  match s.s2Next with
  | none => false
  | some x => decide ((x.nextRow + 1) * (x.rate.1 - 10000 * x.rate.2) ≤ (s.now - x.entered) * x.ho * x.rate.2)

/-- The readers of class 2 that wait, by their use of Table 8-2: 0 merged-HDR read-back, 2 stage 2, 3 raster output, 4
accumulation, 5 spill reserve. On OVC an accumulation result goes before a raster frame (R319). -/
def readersDue (s : State) : List Nat :=
  (if s.rd.blockOut.any s.readsBack then [0] else []) ++
  (if s.running && s.s2Due then [2] else []) ++
    (if s.running && s.cis.out.isNone && s.cis.accDue.isEmpty && s.cis.rasterDue.isSome then [3] else []) ++
    (if s.running && s.cis.out.isNone && !s.cis.accDue.isEmpty then [4] else []) ++
    (if (List.range 32).any fun g => s.reserved g && s.drainReady g then [5] else [])

/-- The reader whose turn it is in the weighted round-robin: the one that has had the least of its admitted share. -/
def readerTurn (s : State) : Option Nat :=
  s.readersDue.foldl (fun best r => match best with
    | none => some r
    | some b => if s.cis.served.getD r 0 < s.cis.served.getD b 0 then some r else best) none

/-- Reader `r` is served now: no write waits, and it is its turn. -/
def serves (s : State) (r : Nat) : Bool := !s.writeWaits && s.readerTurn == some r

/-- One frame interval 1/R of the admission in force, ns. -/
def interval (s : State) : Rat := (s.cis.rate.1 : Rat) / (max 1 s.cis.rate.2 : Nat)

/-- Reader `r` has had `ns` more nanoseconds of the bandwidth admitted to it. -/
def tookShare (s : State) (r : Nat) (ns : Rat) : State :=
  { s with cis := { s.cis with served := listModify s.cis.served r (· + ns) } }

/-- Group `g`'s credits count as withheld: they do, or it is not ACTIVE (R300, R36). -/
def withheld (s : State) (g : Nat) : Bool := (s.group g).withheldAt.isSome || !s.active g

/-- A spill write of group `g` waits in its buffer (R248, R301). -/
def spillWaits (s : State) (g : Nat) : Bool :=
  s.spillOn && (s.withheld g || !(s.group g).spill.isEmpty) && (s.group g).buf.any (!·.bypass)

/-- A request of class 3, spill beyond the reserve, is served now: nothing of classes 1 and 2 waits. -/
def servesSpill (s : State) : Bool :=
  !s.writeWaits && s.readersDue.isEmpty && !(List.range 32).any fun g => s.reserved g && s.spillWaits g

/-- A request of class 4, a recall read, is served now: nothing of classes 1 to 3 waits. -/
def servesRecall (s : State) : Bool :=
  s.servesSpill && !(List.range 32).any fun g => !s.reserved g && (s.drainReady g || s.spillWaits g)

/-- A spill write of group `g` is served now. -/
def servesSpillWrite (s : State) (g : Nat) : Bool := if s.reserved g then !s.writeWaits else s.servesSpill

/-- A drain of group `g`'s spilled packet is served now. -/
def servesDrain (s : State) (g : Nat) : Bool := if s.reserved g then s.serves 5 else s.servesSpill

/-! ## The frame CRC (R329, R330) -/

/-- The running CRC of CE2 over one more payload of VC `v` (R330): the old VC's value is saved, the new one's restored. -/
def ce2 (s : State) (v : Nat) (bs : List Byte) : State :=
  let s1 :=
    match s.ceVc with
    | some u => if u = v then s
                else (s.set Reg.CE_CTX_CTX (s.get Reg.CE_VAL_VAL 2) u).set Reg.CE_VAL_VAL (s.get Reg.CE_CTX_CTX v) 2
    | none => s.set Reg.CE_VAL_VAL (s.get Reg.CE_CTX_CTX v) 2
  ({ s1 with ceVc := some v }).set Reg.CE_VAL_VAL (crc32Run (s1.get Reg.CE_VAL_VAL 2) bs) 2

/-- The running value of VC `v` in CE2. -/
def ceCtx (s : State) (v : Nat) : Nat :=
  if s.ceVc = some v then s.get Reg.CE_VAL_VAL 2 else s.get Reg.CE_CTX_CTX v

/-- The running value of VC `v` replaced. -/
def ceLoad (s : State) (v x : Nat) : State :=
  if s.ceVc = some v then s.set Reg.CE_VAL_VAL x 2 else s.set Reg.CE_CTX_CTX x v

/-- The footer of the frame with these low bits still waits in a group of VC `v`. -/
def footerWaits (s : State) (v frameLo : Nat) : Bool :=
  s.groups.any fun g => (g.buf ++ g.spill).any fun p => p.dt == 0x49 && p.vc == v && p.frameLo == frameLo

/-- The context of VC `v` set to 0xFFFF_FFFF, when a frame header is built on it (R330). What an earlier frame covers is kept
while its footer waits (R332). -/
def ceReset (s : State) (v : Nat) : State :=
  { s.ceLoad v 0xFFFFFFFF with covered := s.covered.filter fun p => p.vc != v || s.footerWaits v p.frameLo }

/-- The packets of a frame that its CRC covers. -/
def coveredOf (s : State) (v frameLo : Nat) : List Packet := s.covered.filter fun q => q.vc == v && q.frameLo == frameLo

/-- The running frame CRC over packets (R329). -/
def runOf (ps : List Packet) : Nat := crc32Run 0xFFFFFFFF (ps.flatMap (·.payload))

/-- Packet `p` is dropped (R174): it is counted in its frame later, and where it had been covered by the frame CRC of its VC,
that is taken again over the packets that remain (R329). -/
def drop (s : State) (p : Packet) : State :=
  let s : State := { s with dropped := s.dropped ++ [p] }
  if !s.covered.contains p then s
  else
    let s : State := { s with covered := s.covered.erase p }
    if s.footerWaits p.vc p.frameLo then s
    else { s with vcPackets := listModify s.vcPackets p.vc (· - 1) }.ceLoad p.vc (runOf (s.coveredOf p.vc p.frameLo))

/-! ## Buffers and the spill ring -/

/-- Packet `p` of group `g` written to the spill ring, or dropped where the ring is full (R248, R249). -/
def ringPut (s : State) (g : Nat) (p : Packet) : State × Bool :=
  if s.spillBytes + p.size ≤ s.cis.spillSize then
    let s := s.setGroup g fun x => { x with spill := x.spill ++ [p] }
    (s.set Reg.LK_GSTAT_SPILLING 1 g, true)
  else (s.set Reg.CS_STAT_SPILLFULL 1, false)

/-- The packets that wait in group `g`'s buffer go to the spill ring, oldest first, but for those that need no credits (R301). -/
def bufToRing (s : State) (g : Nat) : State :=
  let was := (s.group g).buf.filter (!·.bypass)
  let s := s.setGroup g fun x => { x with buf := x.buf.filter (·.bypass) }
  was.foldl (fun s p =>
    let (s, kept) := s.ringPut g p
    if kept then s else s.drop p) s

/-- A header put among queued packets: before every data packet (R321), but after what its own VC has queued (R171, R320). -/
def putHeader (p : Packet) (ps : List Packet) : List Packet :=
  let n := ps.length - (ps.reverse.takeWhile fun q => q.vc != p.vc).length
  ps.take n ++ (ps.drop n).takeWhile (!·.carriesData) ++ [p] ++ (ps.drop n).dropWhile (!·.carriesData)

/-- The buffer of group `g` with packet `p`: a header ahead of data (R321), one that needs no credits before the others (R299). -/
def bufPut (s : State) (g : Nat) (p : Packet) (ahead : Bool) : State :=
  s.setGroup g fun x =>
    { x with buf :=
        if p.bypass then x.buf.takeWhile (·.bypass) ++ [p] ++ x.buf.dropWhile (·.bypass)
        else if ahead then putHeader p x.buf
        else x.buf ++ [p] }

/-- The spill write of group `g` is served, `full` saying that its buffer has no more room: one of the reserve has its share by
then (Table 8-3), one beyond it must wait for its turn (R249). -/
def spillServed (s : State) (g : Nat) (full : Bool) : Bool := s.servesSpillWrite g || (full && s.reserved g)

/-- Packet `p` handed to group `g` (R174, R248, R249, R299, R300, R301, R36): to the buffer, or behind it at the fabric; while
credits are withheld to the spill ring, behind what the buffer holds, or to the buffer where the write is not served; or dropped.
The flag says whether it was kept. -/
def enqueue (s : State) (g : Nat) (p : Packet) (ahead : Bool := false) : State × Bool :=
  let fits := decide (s.bufBytes g + p.size ≤ 16384)
  if p.bypass then ((s.bufPut g p ahead).refreshWait g, true)
  else if (s.withheld g || !(s.group g).spill.isEmpty) && s.spillOn then
    if s.spillServed g (!fits) then
      let (s, kept) := (s.bufToRing g).ringPut g p
      (s.refreshWait g, kept)
    else if fits then ((s.bufPut g p false).refreshWait g, true)
    else (s.set Reg.CS_STAT_SPILLFULL 1, false)
  else if s.withheld g && (!fits || !s.active g) then (s, false)
  else ((s.bufPut g p ahead).refreshWait g, true)

/-- Credits of group `g` count as withheld (R301): with spill on its packets go to the ring as soon as that is served, and where
spill does not take them those that the buffer has no room for are dropped (R249). -/
def withholdBuffer (s : State) (g : Nat) : State :=
  let (fit, out) := splitBuffer 16384 (s.group g).buf
  if s.spillOn && s.spillServed g (!out.isEmpty) then s.bufToRing g
  else if out.isEmpty then s
  else
    let s : State := if s.spillOn then s.set Reg.CS_STAT_SPILLFULL 1 else s
    out.foldl drop (s.setGroup g fun x => { x with buf := fit })

/-- The groups of the mask in force on VC `v` (R304). -/
def vcMask (s : State) (v : Nat) : List Nat := bitsOf 32 (s.get Reg.LK_VCACT_MAP v)

/-- Data for VC `v` finds no working group: it is discarded at the fabric and counted (R305). -/
def noMap (s : State) : State := (s.bump Reg.LK_SUM_NOMAPCNT).set Reg.LK_SUM_NOMAP 1

/-- Group `g` carries the VCs that name it: it is ACTIVE, and not one that joined as a spare after RUN (R30, R307). -/
def carries (s : State) (g : Nat) : Bool := s.active g && !hasBit s.joined g

/-- The replacement of a failed or absent group, kept once chosen while it is ACTIVE: the lowest ACTIVE group of LK_SPARE, or of
those that joined as spares (R30), that is in the mask of no VC (R306) (log entry 11). -/
def spareFor (s : State) (g : Nat) : Option Nat :=
  let used := (List.range 16).foldl (fun m v =>
    m ++ s.vcMask v ++ (bitsOf 32 (s.live Reg.LK_VCMAP_MAP v)).filter fun x => !hasBit s.joined x) []
  let free (r : Nat) : Bool := s.active r && !used.contains r && !s.repl.any fun e => e.2 == r && e.1 != g
  match (s.repl.find? fun e => e.1 == g && s.active e.2) with
  | some (_, r) => some r
  | none => (bitsOf 32 (Nat.lor (s.get Reg.LK_SPARE_SPARE) s.joined)).find? free

/-- A failed group of the mask whose streams a spare will take over, so that its traffic counts as withheld until then (R36,
R306); none of them is left where the VC has no working group and no spare (R305). -/
def heldGroup (s : State) (mask : List Nat) : Option Nat := mask.find? fun g => (s.spareFor g).isSome

/-- The running recall with ID `id` is discarded with no END packet (R38, R256): what waits of it in the groups goes too. -/
def purgeRecalls (s : State) (id : Nat) : State :=
  let keep (p : Packet) : Bool := !(p.dt == 0x50 && leAt p.payload 0 1 == id)
  { s with groups := s.groups.map fun (x : Group) => { x with buf := x.buf.filter keep, spill := x.spill.filter keep } }

/-- The fabric builds a packet on VC `v`: the next SEQ, then a group of the mask in force, the lowest working one for the
packets of R304's first item (`fixed`), else in turn by the VC's deal counter. The flag says whether it was kept
(log entry 71). -/
def build (s : State) (v dt frameLo : Nat) (payload : List Byte) (fixed data crc : Bool) : State × Bool :=
  let mask := s.vcMask v
  let up := mask.filter s.active
  if up.isEmpty && (s.heldGroup mask).isNone then (s.noMap, false)
  else
    let k := s.deal.getD v 0
    let g := if fixed then up.getD 0 ((s.heldGroup mask).getD 0) else mask.getD (k % mask.length) 0
    let p : Packet := ⟨v, dt, s.get Reg.PK_VCSEQ_NEXT v, frameLo % 65536, payload, data, crc, dt == 0x4E⟩
    let s := s.set Reg.PK_VCSEQ_NEXT ((s.get Reg.PK_VCSEQ_NEXT v + 1) % 65536) v
    let s : State := if fixed then s else { s with deal := listModify s.deal v (fun k => (k + 1) % 32 % (max mask.length 1)) }
    let (s, kept) := s.enqueue g p (ahead := dt == 0x48)
    let s : State := if kept then s else s.drop p
    let s := s.set Reg.CE_VAL_VAL (crc32Run 0xFFFFFFFF p.body) 1
    let s : State := if kept && crc then
        let s := s.ce2 v payload
        { s with vcPackets := listModify s.vcPackets v (· + 1), covered := s.covered ++ [p] }
      else s
    (s, kept)

/-- A packet that belongs to no frame-structured stream (R318). -/
def sendPlain (s : State) (v dt frameLo : Nat) (payload : List Byte) : State :=
  (s.build v dt frameLo payload false false false).1

/-- What a group that is not ACTIVE holds of VC `v`, in the spill ring or behind it in its buffer, goes to its spare, or to the
lowest group of the new mask where it has none, and is dropped where the VC has no group left (R36, R306) (log entry 71). -/
def moveSpilled (s : State) (v : Nat) (mask : List Nat) : State :=
  (List.range 32).foldl (fun s g =>
    let mine := ((s.group g).spill ++ (s.group g).buf).filter fun p => p.vc == v && p.dt != 0x4F
    if mine.isEmpty || s.active g then s
    else
      let s := s.setGroup g fun x => { x with spill := x.spill.filter (·.vc != v), buf := x.buf.filter (·.vc != v) }
      let s := s.set Reg.LK_GSTAT_SPILLING (if (s.group g).spill.isEmpty then 0 else 1) g
      let target := match s.repl.find? (·.1 == g) with
        | some (_, r) => if mask.contains r then some r else mask.head?
        | none => mask.head?
      match target with
      | none => mine.foldl drop s
      | some r =>
        ((s.setGroup r fun x => { x with spill := x.spill ++ mine }).set Reg.LK_GSTAT_SPILLING 1 r).refreshWait r) s

/-- The mask in force of VC `v` is fixed again from LK_VCMAPv (R304, R306): a group that is not enabled is ignored, one that has
failed or is not there yet is replaced (log entry 11). -/
def fixMask (s : State) (v : Nat) : State :=
  let en := s.get Reg.LK_GRPEN_EN
  let (s, m) := (bitsOf 32 (s.live Reg.LK_VCMAP_MAP v)).foldl
    (fun (st : State × Nat) g =>
      let (s, m) := st
      if !hasBit en g && s.lstate g != lsFailed then (s.set Reg.LK_SUM_MAPERR 1, m)
      else if s.carries g then (s, withBit m g)
      else match s.spareFor g with
        | some r => ({ s with repl := (g, r) :: s.repl.filter (·.1 != g) }, withBit m r)
        | none => (s.set Reg.LK_SUM_NOSPARE 1, m)) (s, 0)
  (s.set Reg.LK_VCACT_MAP m v).moveSpilled v (bitsOf 32 m)

/-- The RUN condition of R292: each group of every mask is ACTIVE, or enough ACTIVE spares stand by. -/
def runReady (s : State) : Bool :=
  let en := s.get Reg.LK_GRPEN_EN
  let wanted := (List.range 32).filter fun g =>
    hasBit en g && (List.range 16).any fun v => hasBit (s.live Reg.LK_VCMAP_MAP v) g
  let missing := wanted.filter (!s.active ·)
  let spares := (bitsOf 32 (s.get Reg.LK_SPARE_SPARE)).filter fun g => s.active g && !wanted.contains g
  decide (missing.length ≤ spares.length)

/-- A release (R252): at once, or when the last recall completes. -/
def releaseRing (s : State) : State :=
  if s.get Reg.CS_RINGSTAT_RSTATE = 2 then
    if s.cis.rcl.isSome || !s.cis.recallQ.isEmpty then { s with cis := { s.cis with release := true } }
    else
      let s : State := { s with cis := { s.cis with release := false, postLeft := 0, trigAt := none } }
      (s.set Reg.CS_RINGSTAT_RSTATE 0).set Reg.CS_RINGSTAT_PREACT s.cis.pre
  else s

/-- Running and queued recalls discarded, with what waits of them in the groups (R38, R256); a release that waited for them takes
effect (R252). -/
def discardRecalls (s : State) : State :=
  match s.cis.rcl, s.cis.recallQ with
  | none, [] => s
  | r, q =>
    let id := match r with
      | some (x, _) => x.id
      | none => (q.getLast?.map (·.id)).getD 0
    let s := s.purgeRecalls id
    let s : State := ((s.set Reg.CS_RCSTAT_RESULT 2).set Reg.CS_RCSTAT_RID id).set Reg.CS_RCSTAT_QUEUED 0
    let s : State := { s with cis := { s.cis with rcl := none, recallQ := [] } }
    if s.cis.release then s.releaseRing else s

/-- A discard of work in flight: ID_FAULTSUM.DISCARD, and the next heartbeats flag it (R37). -/
def flagDiscard (s : State) : State :=
  let s := s.setFault 10
  { s with groups := s.groups.map fun g => { g with hbDiscard := true } }

/-- Work in flight is discarded (R37): recalls not complete, commits whose arming point has not come, the return-lane
pointer and RCFRM (R296, R297). DISCARD is set and the next heartbeats flag it where there was such work
(DEDUCED, log entry 5). -/
def workDiscard (s : State) : State :=
  let lost := !s.commits.isEmpty || !s.cpCommits.isEmpty
  let had := !s.cis.recallQ.isEmpty || s.cis.rcl.isSome || lost || s.ctl.wptr.isSome || s.ctl.rcfrm.isSome
  let s := s.discardRecalls
  let s : State := { s with
    commits := [], cpCommits := []
    ctl := { s.ctl with wptr := none, rcfrm := none, discardAt := some s.up } }
  let s : State := (s.set Reg.EX_STAT_PENDING 0).set Reg.CP_STAT_PENDING 0
  if had then s.flagDiscard else s

/-- The control group moves to the lowest ACTIVE group when it has failed (R296) (log entry 61). -/
def moveControl (s : State) (g : Nat) : State :=
  if s.get Reg.LK_CTL_CTLACT = g then
    match (List.range 32).find? s.active with
    | some c => ({ s with ctl := { s.ctl with wptr := none } }.set Reg.LK_CTL_CTLACT c).set Reg.LK_SUM_CTLMOVE 1
    | none => s
  else s

/-- Group `g` fails with a cause of LK_GSTATg.CAUSE (R306, Table 1-6): switched off, FAILED, its buffer to the spill ring
or dropped (R36), work in flight discarded (R37). -/
def groupFail (s : State) (g cause : Nat) : State :=
  if s.lstate g = lsFailed then s
  else
    let s : State := (s.set Reg.LK_GSTAT_LSTATE lsFailed g).set Reg.LK_GSTAT_CAUSE cause g
    let s : State := (s.set Reg.LK_GSTAT_RTLOCK 0 g).set Reg.LK_GSTAT_RTPSYNC 0 g
    let s : State := (s.setFault 4).set Reg.LK_SUM_LGFAIL 1
    let s := s.setGroup g fun x => { x with waitAt := none, buf := x.buf.filter (·.dt != 0x4F) }
    let s : State := if s.spillOn then s.bufToRing g else (s.group g).buf.foldl drop s
    let s := s.setGroup g fun x => { x with buf := [], line := Line.init 16 }
    let s : State := (s.set Reg.PM_LG_ON (withoutBit (s.get Reg.PM_LG_ON) g)).emit (.elecIdle g)
    (s.workDiscard).moveControl g

/-- The heartbeat payload of group `g` (Table 11-15). -/
def heartbeat (s : State) (g : Nat) (final : Bool) : List Byte :=
  let b (c : Bool) (i : Nat) : Nat := if c then 2 ^ i else 0
  let flags := b (s.dev == .safe || s.dev == .shutdown) 0 + b (s.group g).hbDiscard 1 + b final 2 +
    b (s.dev == .standby) 3 + b (s.thermal.div != 0) 4 + b (s.get Reg.TB_RIG_RSTATE != 2) 5 +
    b (s.flag Reg.LK_GSTAT_SPILLING g) 6 + b (s.flag Reg.LK_GSTAT_CRSTALL g) 7
  leBytes 1 (s.group g).hbCount ++ leBytes 1 g ++ leBytes 1 (devCode s.dev) ++ leBytes 1 (causeCode s.cause) ++
    leBytes 8 s.now ++ leBytes 4 s.lastHeader ++ leBytes 2 (s.get Reg.EX_GEN_INFORCE) ++
    leBytes 2 (s.get Reg.CP_GEN_INFORCE) ++ leBytes 4 (s.regs.word 0x000014).toNat ++ leBytes 4 flags ++
    leBytes 2 s.thermal.tmax ++ leBytes 2 0

/-- A heartbeat packet of group `g`: SEQ is the group's heartbeat count (R316, R333) (log entry 23). -/
def heartbeatPacket (s : State) (g : Nat) (final : Bool) : Packet :=
  ⟨s.get Reg.PK_CFG_HBVC, 0x4F, (s.group g).hbCount % 65536, s.lastHeader % 65536, s.heartbeat g final, false, false,
    final⟩

end State

end Sys2Proof.Machine
end

