-- ==== Sys2Proof/Machine/Links.lean ====
section
/-! DEFINITION. The link groups: training, return-lane messages that need no other unit, credits, markers, heartbeats, the
PRBS tests and the eye scan (10_link_lanes.md). -/
namespace Sys2Proof.Machine

open Host (Outcome)

/-- One meaning's answer: the part goes on in `s`, which is the state before where the event cannot happen (log entry 8). -/
abbrev ok (s : State) : Outcome State Fault Refusal := .next s

/-- The register of a PRBS one bit on: its bits are the next `w` ones to be sent, bit 0 first, and bit n + w is the sum of the bits
n and n + `tap` (R290: x^9 + x^5 + 1 has `w` 9 and `tap` 4; R308: x^31 + x^28 + 1 has 31 and 3). -/
def prbsStep (w tap r : Nat) : Nat := r / 2 + (bitOf r 0 + bitOf r tap) % 2 * 2 ^ (w - 1)

/-- The register after `n` bits. -/
def prbsAt (w tap r : Nat) : Nat → Nat
  | 0 => r
  | n + 1 => prbsStep w tap (prbsAt w tap r n)

/-- Bit `n` of a lane that began with register `r`: of PRBS9 as it stands, of PRBS31 inverted (R290, R308). -/
def prbsBit (w tap r n : Nat) : Bool := (w == 31) != hasBit (prbsAt w tap r n) 0

namespace State

/-- Training of group `g` begins: its domain on, CK running, CLOCK (R291, R307). -/
def startTraining (s : State) (g : Nat) : State :=
  let s : State := (s.set Reg.LK_GSTAT_LSTATE lsClock g).set Reg.LK_GSTAT_RTLOCK 0 g
  let s := s.set Reg.PM_LG_ON (withBit (s.get Reg.PM_LG_ON) g)
  s.setGroup g fun x => { x with stepAt := s.now, patternOk := false, lastRt := s.now }

/-- A group in CLOCK, PATTERN or MARKER goes back to CLOCK (R291, R303). -/
def backToClock (s : State) (g : Nat) : State :=
  (s.set Reg.LK_GSTAT_LSTATE lsClock g).setGroup g fun x => { x with stepAt := s.now, patternOk := false }

/-- The register with which a PRBS of order `w` begins in lane 0: any but 0, as the spec leaves it open (log entry 2). -/
def prbsFrom (s : State) (w : Nat) : Nat := 1 + (Config.prbsStart s.free).toNat % (2 ^ w - 1)

/-- The lanes of group `g` begin a PRBS of order `w` (R290, R308): lane k 31 k bits into the sequence. -/
def startPrbs (s : State) (g w tap : Nat) : State :=
  ({ s with free := s.free + 1 }).emit (.prbs g w ((List.range 16).map fun k => prbsAt w tap (s.prbsFrom w) (31 * k)))

/-- CLOCK is left for PATTERN once 10 µs have passed and RT block lock holds (R290, R291). -/
def clockStep (s : State) (g : Nat) : State :=
  if s.lstate g = lsClock ∧ s.flag Reg.LK_GSTAT_RTLOCK g ∧ 10000 ≤ s.now - (s.group g).stepAt then
    ((s.set Reg.LK_GSTAT_LSTATE lsPattern g).setGroup g fun x => { x with stepAt := s.now }).startPrbs g 9 4
  else s

/-- A valid RT block: it counts for the return-lane timeout with lock or without (R294, R303). -/
def rtValid (s : State) (g : Nat) : State := (s.setGroup g fun x => { x with lastRt := s.now }).clockStep g

/-- RT `g` takes messages: block lock, and not in PRBS checking (R294, R309). -/
def rtTakes (s : State) (g : Nat) : Bool :=
  s.flag Reg.LK_GSTAT_RTLOCK g && !hasBit (s.get Reg.LK_PRBSRT_EN) g

/-- A return-lane message with sequence number `seq` on group `g` (R295): a repeat of the last accepted SEQ is counted in
RTDUP; `act` gives the effect, or none where the message is discarded and counted in RTDISC. -/
def rtMsg (s : State) (g seq : Nat) (act : State → Option State) : State :=
  let s := s.rtValid g
  if !s.rtTakes g then s
  else if (s.group g).rtSeq = some (seq % 256) then s.bump Reg.LK_SUM_RTDUP
  else match act s with
    | none => s.bump Reg.LK_SUM_RTDISC
    | some t =>
      let gap := match (s.group g).rtSeq with
        | none => 0
        | some q => (seq + 255 - q) % 256
      (t.bump Reg.LK_GSTAT_GAPCNT gap g).setGroup g fun x => { x with rtSeq := some (seq % 256) }

/-- Whether group `g` is the control group or carries a VC, so that a PRBS request is refused (R308) (log entry 15). -/
def prbsRefused (s : State) (g : Nat) : Bool :=
  s.get Reg.LK_CTL_CTLACT == g || (List.range 16).any fun v => hasBit (s.get Reg.LK_VCACT_MAP v) g

/-- Bit `g` of LK_PRBSTX written 1 (R308) (log entry 15). -/
def prbsTxStart (s : State) (g : Nat) : State :=
  if s.prbsRefused g then s.set Reg.LK_SUM_PRBSREF 1
  else
    let s := s.set Reg.LK_PRBSTX_EN (withBit (s.get Reg.LK_PRBSTX_EN) g)
    if s.active g then (s.set Reg.LK_GSTAT_LSTATE lsPrbs g).startPrbs g 31 3 else s

/-- Bit `g` of LK_PRBSTX written 0: MARKER again, USED at 0 (R308). -/
def prbsTxStop (s : State) (g : Nat) : State :=
  let s := s.set Reg.LK_PRBSTX_EN (withoutBit (s.get Reg.LK_PRBSTX_EN) g)
  if s.lstate g = lsPrbs then
    (((s.startLine g 16).set Reg.LK_GSTAT_LSTATE lsMarker g).set Reg.LK_GUSED_VALUE 0 g).setGroup g fun x =>
      { x with stepAt := s.now, line := { x.line with sent := 16 * s.slotsPast } }
  else s

/-- Bit `g` of LK_PRBSRT written 1 (R309). -/
def prbsRtStart (s : State) (g : Nat) : State :=
  if s.prbsRefused g then s.set Reg.LK_SUM_PRBSREF 1
  else ((s.set Reg.LK_PRBSRT_EN (withBit (s.get Reg.LK_PRBSRT_EN) g)).set Reg.LK_RTERR_ERRS 0 g).set
    Reg.LK_GSTAT_RTPSYNC 0 g

/-- Bit `g` of LK_PRBSRT written 0: message mode, and R303 applies again from now (R309). -/
def prbsRtStop (s : State) (g : Nat) : State :=
  ((s.set Reg.LK_PRBSRT_EN (withoutBit (s.get Reg.LK_PRBSRT_EN) g)).set Reg.LK_GSTAT_RTPSYNC 0 g).setGroup g
    fun x => { x with lastRt := s.now }

/-- Bit `g` of LK_GRPEN written 1 (R307). -/
def groupEnable (s : State) (g : Nat) : State :=
  let s := s.set Reg.LK_GRPEN_EN (withBit (s.get Reg.LK_GRPEN_EN) g)
  if s.lstate g = lsOff ∧ (s.dev = .train ∨ s.running) then s.startTraining g else s

/-- Bit `g` of LK_GRPEN written 0 (R307) (log entry 15). -/
def groupDisable (s : State) (g : Nat) : State :=
  let s := s.set Reg.LK_GRPEN_EN (withoutBit (s.get Reg.LK_GRPEN_EN) g)
  if s.lstate g = lsOff then s else s.groupFail g 4

/-- The bits of a 32-bit enable that differ between `old` and `new`, taken one by one through `on` and `off`. -/
def eachBit (s : State) (old new : Nat) (on off : State → Nat → State) : State :=
  (List.range 32).foldl (fun s g =>
    if hasBit new g && !hasBit old g then on s g
    else if hasBit old g && !hasBit new g then off s g else s) s

/-- Packet `p`, the head of group `g`, leaves its queue. -/
def takeHead (s : State) (g : Nat) (p : Packet) : State :=
  s.setGroup g fun x =>
    let x := if p.bypass then { x with buf := x.buf.erase p }
      else match x.spill with
        | _ :: r => { x with spill := r }
        | [] => { x with buf := x.buf.tail }
    { x with waitAt := none, withheldAt := none }

/-- Packet `p` goes out on group `g`: its bytes, in coded blocks (R284 to R286). A frame header is then the last one sent (R333);
the trailer of a heartbeat is taken now (R330). -/
def putOnLanes (s : State) (g : Nat) (p : Packet) : State :=
  let s : State := if p.dt = 0x48 then { s with lastHeader := leAt p.payload 4 4 } else s
  let s : State := if p.dt = 0x4F then s.set Reg.CE_VAL_VAL (crc32Run 0xFFFFFFFF p.body) 1 else s
  (s.emit (.packet g p.bytes)).sendBlocks g (packetBlocks p.bytes)

/-- Packet `p` as its SOP goes out: a heartbeat carries the device time of that instant (Table 11-15). -/
def stamped (s : State) (p : Packet) : Packet :=
  if p.dt = 0x4F then { p with payload := p.payload.take 4 ++ leBytes 8 s.now ++ p.payload.drop 12 } else p

/-- Head packet of group `g` leaves (R298, R299, R301): spilled packets first (R248), USED raised, withholding ended. -/
def sendHead (s : State) (g : Nat) (p : Packet) : State :=
  let s := s.takeHead g p
  let used := if p.bypass then s.get Reg.LK_GUSED_VALUE g else (s.get Reg.LK_GUSED_VALUE g + p.need) % 2 ^ 24
  let s : State := (s.set Reg.LK_GUSED_VALUE used g).set Reg.LK_GSTAT_WITHHELD 0 g
  let s := s.set Reg.LK_GSTAT_SPILLING (if (s.group g).spill.isEmpty then 0 else 1) g
  (s.putOnLanes g (s.stamped p)).refreshWait g

/-- The head packet comes out of the spill ring. -/
def fromRing (s : State) (g : Nat) (p : Packet) : Bool := !p.bypass && !(s.group g).spill.isEmpty

/-- Spilled packet `p` of group `g` is read: counted to the reserve's share where the group has one (R247). -/
def countDrain (s : State) (g : Nat) (p : Packet) : State :=
  if s.fromRing g p && s.reserved g then
    s.tookShare 5 ((p.size * 1000000000 : Nat) / (max 1 (s.live Reg.CS_SPILL_RSVG) * 4687500000 : Nat))
  else s

/-- The bytes of an alignment marker (Table 10-2). -/
def markerBytes (grp lane count : Nat) (bip : Byte) : List Byte :=
  let b := leBytes 1 0xA5 ++ leBytes 1 grp ++ leBytes 1 lane ++ leBytes 3 count ++ [bip]
  b ++ leBytes 1 (crc8 b)

/-- The MARKERs of a port's lanes in a marker slot (R288): the slots before it are filled with IDLE, BIP starts again. `grp` is
the GRP byte (Table 10-2). -/
def sendMarkers (s : State) (port grp : Nat) : State :=
  let s := s.fillIdle port 16384
  let l := s.lineOf port
  let s : State := (List.range l.lanes.length).foldl (fun s i =>
    s.emit (.marker grp i (markerBytes grp i s.markerCount (BitVec.ofNat 8 (l.lanes.getD i ⟨0, 0⟩).bip)))) s
  s.lineAfterMarker port

/-- The CRTT of R300 in ns: values above 50 are used as 50 (log entry 12). -/
def crtt (s : State) : Nat := min (s.get Reg.LK_CRCFG_CRTT) 50 * 100

/-- The CRTO of R302 in ns: 0 is used as 1. -/
def crto (s : State) : Nat := max (s.get Reg.LK_CRCFG_CRTO) 1 * 1000000

/-- GO of LK_ESCFG with the register's other fields (R313). -/
def eyeScanStart (s : State) (v : Word) : State :=
  let s : State := { s with regs := s.regs.put 0x080410 (v &&& 0x0F7F3F03#32) }
  if s.flag Reg.LK_RIGSTAT_ESBUSY then s else s.set Reg.LK_RIGSTAT_ESBUSY 1

end State

/-- RT_BLOCK_LOCK (R291, R294). -/
def execRtBlockLock (g : Nat) (s : State) : Outcome State Fault Refusal :=
  ok (if g < 32 ∧ s.lstate g ≠ lsOff ∧ s.lstate g ≠ lsFailed then (s.set Reg.LK_GSTAT_RTLOCK 1 g).rtValid g else s)

/-- RT_LOCK_LOSS (R294): lock lost; a new alignment search begins. -/
def execRtLockLoss (g : Nat) (s : State) : Outcome State Fault Refusal := ok (s.set Reg.LK_GSTAT_RTLOCK 0 g)

/-- IDLE (R294, R303): a valid block and nothing else; SEQ is not looked at. -/
def execIdle (g : Nat) (s : State) : Outcome State Fault Refusal := ok (s.rtValid g)

/-- CREDIT (R298): the cumulative limit, unless the grant would be 2^23 or more. -/
def execCredit (g seq limit : Nat) (s : State) : Outcome State Fault Refusal :=
  ok (s.rtMsg g seq fun s =>
    if (limit + 2 ^ 24 - s.get Reg.LK_GUSED_VALUE g) % 2 ^ 24 < 2 ^ 23 then
      some ((s.set Reg.LK_GLIM_VALUE limit g).refreshWait g)
    else none)

/-- PATTERN_OK (R291): the markers start at the next marker slot. -/
def execPatternOk (g seq : Nat) (s : State) : Outcome State Fault Refusal :=
  ok (s.rtMsg g seq fun s =>
    some (if s.lstate g = lsPattern then s.setGroup g fun x => { x with patternOk := true } else s))

/-- PHASE (R291): the transmit delay tap of a lane, in PATTERN only. -/
def execPhase (g seq lane tap : Nat) (s : State) : Outcome State Fault Refusal :=
  ok (s.rtMsg g seq fun s =>
    if s.lstate g = lsPattern then
      let f : Fld := ⟨0x081000, 0x10, 0x4, 8 * (lane % 4), 6, false⟩
      some (s.set f tap g (lane / 4 % 4))
    else none)

/-- WADDR (R296): the write pointer, on the control group; address bits 1:0 are 0. -/
def execWaddr (g seq addr : Nat) (s : State) : Outcome State Fault Refusal :=
  ok (s.rtMsg g seq fun s =>
    if s.get Reg.LK_CTL_CTLACT = g then some { s with ctl := { s.ctl with wptr := some (addr % 2 ^ 24) } } else none)

/-- RCFRM (R297): the frame of the next return-lane recall. -/
def execRcfrm (g seq frame : Nat) (s : State) : Outcome State Fault Refusal :=
  ok (s.rtMsg g seq fun s =>
    if s.get Reg.LK_CTL_CTLACT = g then some { s with ctl := { s.ctl with rcfrm := some frame } } else none)

/-- A message of reserved type, or on the wrong group (R295): discarded and counted. -/
def execRtReservedType (g seq : Nat) (s : State) : Outcome State Fault Refusal := ok (s.rtMsg g seq fun _ => none)

/-- TRAINING_STEP_TIMEOUT (R291). -/
def execTrainingStepTimeout (g : Nat) (s : State) : Outcome State Fault Refusal :=
  let p := s.get Reg.LK_TRCFG_PHTO
  let l := s.lstate g
  ok (if p ≠ 0 ∧ (l = lsClock ∨ l = lsPattern ∨ l = lsMarker) ∧ p * 1000 ≤ s.now - (s.group g).stepAt then
    (s.backToClock g).bump Reg.LK_GSTAT_RETRY 1 g else s)

/-- The rig transmitters run: from TRAIN on, with a role in a rig and PD_RIG powered (R310, Table 1-6). -/
def State.rigSends (s : State) : Bool := s.boot.rigRole != 0 && (s.dev == .train || s.running) && !hasBit s.domLost 5

/-- A group that waits with PATTERN_OK enters MARKER in a marker slot, its block stream starting there (R291). -/
def State.enterMarker (s : State) (g : Nat) : State :=
  if s.lstate g = lsPattern ∧ (s.group g).patternOk then
    ((s.startLine g 16).set Reg.LK_GSTAT_LSTATE lsMarker g).setGroup g fun x =>
      { x with stepAt := s.now, line := { x.line with sent := 16384 * 16 } }
  else s

/-- ALIGNMENT_MARKER (R288, R291): in the next marker slot, 865.128 µs after the last, every lane of every group in MARKER or
ACTIVE, and the rig lanes, send a MARKER; groups that wait with PATTERN_OK enter MARKER in it. -/
def execAlignmentMarker (s : State) : Outcome State Fault Refusal :=
  if !s.pllMain || decide (s.now < s.markerAt + 865128) then ok s
  else
    let s : State := { s with markerCount := (s.markerCount + 1) % 2 ^ 24 }
    let s : State := (List.range 32).foldl (fun s g =>
      let s := s.enterMarker g
      if s.lstate g = lsMarker ∨ s.active g then s.sendMarkers g g else s) s
    let s : State := if s.rigSends then (s.sendMarkers 32 0x20).sendMarkers 33 0x21 else s
    ok { s with markerAt := s.markerAt + 865128 }

/-- LINK_HEARTBEAT (R333): every 1 ms each ACTIVE group sends one on HBVC, but not in HALT_CONFIG (R293). -/
def execLinkHeartbeat (g : Nat) (s : State) : Outcome State Fault Refusal :=
  ok (if s.active g ∧ (s.dev = .train ∨ s.running) ∧ (s.group g).hbAt ≤ s.now then
    let p := s.heartbeatPacket g false
    let s : State := (s.enqueue g p).1
    s.setGroup g fun x => { x with hbCount := x.hbCount + 1, hbAt := x.hbAt + 1000000, hbDiscard := false }
  else s)

/-- RETURN_LANE_TIMEOUT (R303): a block that arrives in the cycle of the timeout wins, so the lane times out once that cycle has
passed (log entry 72). -/
def execReturnLaneTimeout (g : Nat) (s : State) : Outcome State Fault Refusal :=
  let l := s.lstate g
  ok (if hasBit (s.get Reg.LK_PRBSRT_EN) g ∨ s.now - (s.group g).lastRt ≤ s.get Reg.LK_CRCFG_RTTO * 1000 then s
    else if l = lsActive then s.groupFail g 1
    else if l = lsClock ∨ l = lsPattern ∨ l = lsMarker then (s.backToClock g).set Reg.LK_GSTAT_RTLOCK 0 g
    else s)

/-- LINK_GROUP_CLOCK_FAULT (Table 1-6, R306). -/
def execLinkGroupClockFault (g : Nat) (s : State) : Outcome State Fault Refusal :=
  ok (if s.lstate g = lsOff then s else s.groupFail g 3)

/-- CREDIT_WITHHOLD (R300, R301): the head packet has waited longer than CRTT; with spill on, the buffer goes to the spill
ring, as soon as its write is served (log entry 12). -/
def execCreditWithhold (g : Nat) (s : State) : Outcome State Fault Refusal :=
  match (s.group g).waitAt with
  | none => ok s
  | some t =>
    if !s.active g || s.now - t ≤ s.crtt then ok s
    else
      let s : State := if (s.group g).withheldAt.isSome then s
        else (s.setGroup g fun x => { x with withheldAt := some s.now }).set Reg.LK_GSTAT_WITHHELD 1 g
      ok (s.withholdBuffer g)

/-- CREDIT_STALL (R302). -/
def execCreditStall (g : Nat) (s : State) : Outcome State Fault Refusal :=
  match (s.group g).withheldAt with
  | none => ok s
  | some t =>
    ok (if s.now - t < s.crto then s
      else (s.set Reg.LK_GSTAT_CRSTALL 1 g).set Reg.LK_SUM_CRSTALL 1)

/-- PACKET_SEND (R286, R298): the head packet of group `g` starts once it has the credits it needs; a spilled one also waits for
its turn at the cistern (R247). -/
def execPacketSend (g : Nat) (s : State) : Outcome State Fault Refusal :=
  match s.headPacket g with
  | none => ok s
  | some p =>
    ok (if s.active g && s.canStart g p && (!s.fromRing g p || s.servesDrain g) then (s.countDrain g p).sendHead g p else s)

/-- GROUP_ENABLE (R307). -/
def execGroupEnable (g : Nat) (s : State) : Outcome State Fault Refusal := ok (if g < 32 then s.mainWrite (s.groupEnable g) else s)

/-- GROUP_DISABLE (R307). -/
def execGroupDisable (g : Nat) (s : State) : Outcome State Fault Refusal := ok (if g < 32 then s.mainWrite (s.groupDisable g) else s)

/-- GROUP_RETIRE (R307) (log entry 15). -/
def execGroupRetire (g : Nat) (s : State) : Outcome State Fault Refusal := ok (if g < 32 then s.mainWrite (s.groupFail g 4) else s)

/-- PRBS_TX_START (R308). -/
def execPrbsTxStart (g : Nat) (s : State) : Outcome State Fault Refusal := ok (if g < 32 then s.mainWrite (s.prbsTxStart g) else s)

/-- PRBS_TX_STOP (R308). -/
def execPrbsTxStop (g : Nat) (s : State) : Outcome State Fault Refusal := ok (if g < 32 then s.mainWrite (s.prbsTxStop g) else s)

/-- PRBS_RT_START (R309). -/
def execPrbsRtStart (g : Nat) (s : State) : Outcome State Fault Refusal := ok (if g < 32 then s.mainWrite (s.prbsRtStart g) else s)

/-- PRBS_RT_STOP (R309). -/
def execPrbsRtStop (g : Nat) (s : State) : Outcome State Fault Refusal := ok (if g < 32 then s.mainWrite (s.prbsRtStop g) else s)

/-- RT_PRBS_SYNC (R309). -/
def execRtPrbsSync (g : Nat) (s : State) : Outcome State Fault Refusal :=
  ok (if hasBit (s.get Reg.LK_PRBSRT_EN) g then s.set Reg.LK_GSTAT_RTPSYNC 1 g else s)

/-- RT_PRBS_SYNC_LOSS (R309). -/
def execRtPrbsSyncLoss (g : Nat) (s : State) : Outcome State Fault Refusal :=
  ok (if hasBit (s.get Reg.LK_PRBSRT_EN) g then s.set Reg.LK_GSTAT_RTPSYNC 0 g else s)

/-- RT_PRBS_BIT_ERROR (R309): counted in sync; the count saturates. -/
def execRtPrbsBitError (g : Nat) (s : State) : Outcome State Fault Refusal :=
  ok (if hasBit (s.get Reg.LK_PRBSRT_EN) g ∧ s.flag Reg.LK_GSTAT_RTPSYNC g then s.bump Reg.LK_RTERR_ERRS 1 g else s)

/-- EYE_SCAN_START (R313): a write of `v` with GO = 1 to LK_ESCFG; a GO while a scan runs is ignored. The other fields
take their values (RW). -/
def execEyeScanStart (v : Word) (s : State) : Outcome State Fault Refusal := ok (s.mainWrite (s.eyeScanStart v))

/-- EYE_SCAN_DONE (R313): the scan ends with `n` mismatches. -/
def execEyeScanDone (n : Nat) (s : State) : Outcome State Fault Refusal :=
  ok (if s.flag Reg.LK_RIGSTAT_ESBUSY then
    ((s.set Reg.LK_RIGSTAT_ESBUSY 0).set Reg.LK_RIGSTAT_ESDONE 1).set Reg.LK_ESRES_ERRS n else s)

end Sys2Proof.Machine
end

