-- ==== Sys2Proof/Machine/Timebase.lean ====
section
/-! DEFINITION. The timebase channels, device time and the rig's time messages (03_timebase_and_events.md R60 to R80, R505;
10_link_lanes.md R310 to R312). -/
namespace Sys2Proof.Machine

open Host (Outcome)

/-- Channel states of Table 3-3. -/
def csOff : Nat := 0
/-- LOCKING. -/
def csLocking : Nat := 1
/-- TRACK. -/
def csTrack : Nat := 2
/-- COAST. -/
def csCoast : Nat := 3
/-- LOST. -/
def csLost : Nat := 4

/-- A position in grains brought into the count range of a modulus (R61). -/
def wrapGrains (modulus : Nat) (g : Int) : Int :=
  if modulus = 0 then sext 48 (scode 48 g) else g % (modulus * 65536 : Nat)

/-- The signed difference of two positions, in grains (R61). -/
def wrapDiff (modulus : Nat) (d : Int) : Int :=
  if modulus = 0 then sext 48 (scode 48 d)
  else
    let m : Int := (modulus * 65536 : Nat)
    let r := d % m
    if 2 * r < m then r else r - m

/-- The signed difference of two exact positions, in counts (R61). -/
def wrapDiffQ (modulus : Nat) (d : Rat) : Rat :=
  if modulus = 0 then
    let k := (d / 4294967296).floor
    let r := d - k * 4294967296
    if r < 2147483648 then r else r - 4294967296
  else
    let m : Rat := modulus
    let r := d - (d / m).floor * m
    if 2 * r < m then r else r - m

namespace State

/-- Channel `n`. -/
def tb (s : State) (n : Nat) : TbCh := s.tbs.getD n TbCh.init

/-- Channel `n` changed through `f`. -/
def setTb (s : State) (n : Nat) (f : TbCh → TbCh) : State := { s with tbs := listModify s.tbs n f }

/-- TB_nSTAT.CSTATE. -/
def cstate (s : State) (n : Nat) : Nat := s.get Reg.TB_STAT_CSTATE n

/-- TB_nMOD.MODULUS. -/
def modulus (s : State) (n : Nat) : Nat := s.get Reg.TB_MOD_MODULUS n

/-- Channel `n` follows device time (R62). -/
def isDeviceTime (s : State) (n : Nat) : Bool := s.get Reg.TB_CFG_SRC n == 4

/-- Position of channel `n` at device time `t`, in whole grains (R62, R74, R94, R505). The count of a device-time channel, a
32-bit number, is brought into MODULUS as every position is (R61) (log entry 73). -/
def posAt (s : State) (n t : Nat) : Int :=
  if s.isDeviceTime n then
    wrapGrains (s.modulus n) (sext 32 (t / 1000) * 65536 + (t % 1000 * 65536 / 1000 : Nat))
  else
    let c := s.tb n
    let q := c.x + c.v * ((t : Rat) - c.tx) / 1000
    wrapGrains (s.modulus n) (q * 65536).floor

/-- Rate of channel `n`, counts per µs (R62; 0 in LOST and before the first measurement). -/
def rateOf (s : State) (n : Nat) : Rat := if s.isDeviceTime n then 1 else (s.tb n).v

/-- Position of the slot's channel minus P, at instant `t` (R82). -/
def slotDiff (s : State) (x : Slot) (t : Nat) : Int :=
  wrapDiff (s.modulus (fieldOf x.cfg 24 2)) (s.posAt (fieldOf x.cfg 24 2) t - x.p)

/-- Slot `x` after a jump of its channel, which is no crossing (R73): what it is compared with from now on is the difference just
after it (R82). -/
def afterJump (s : State) (x : Slot) : Slot :=
  { x with prev := x.prev.map fun _ => s.slotDiff x s.now, prevAt := s.now }

/-- A jump of channel `n` is no crossing (R73). -/
def forgetCrossings (s : State) (n : Nat) : State :=
  { s with slots := s.slots.map fun x => if fieldOf x.cfg 24 2 = n then s.afterJump x else x }

/-- The same for a step of device time, which moves every position (R78). -/
def forgetCrossingsAll (s : State) : State := { s with slots := s.slots.map s.afterJump }

/-- The position of channel `n` at the present instant, in counts. -/
def posNow (s : State) (n : Nat) : Rat :=
  if s.isDeviceTime n then (s.posAt n s.now : Rat) / 65536
  else (s.tb n).x + (s.tb n).v * ((s.now : Rat) - (s.tb n).tx) / 1000

/-- Channel `n` holds its present position, and its rate is 0 (R94, R505). -/
def holdPos (s : State) (n : Nat) : State :=
  let x := s.posNow n
  s.setTb n fun c => { c with x := x, v := 0, tx := s.now }

/-- Channel `n` enters LOCKING: the estimator starts from its own measurements (R505); the jump is no crossing (R73). A resolver
keeps its previous accepted angle and its accumulated count (R63). -/
def toLocking (s : State) (n : Nat) : State :=
  let s := s.setTb n fun c => { c with
    v := 0, tx := s.now, inits := 0, run := 0, meas := [], idxDone := false, travel := 0, fresh := true
    lastOut := none, interval := none, lockAt := s.now, bad := false, rawPrev := c.raw }
  (s.set Reg.TB_STAT_CSTATE csLocking n).forgetCrossings n

/-- TRACK is left for COAST (R72). -/
def toCoast (s : State) (n : Nat) : State :=
  if s.cstate n = csTrack then
    (s.set Reg.TB_STAT_CSTATE csCoast n).setTb n fun c => { c with coastAt := s.now }
  else s

/-- A rejected measurement on channel `n` (R72): TRACK to COAST; in LOCKING the run and the estimator start again. -/
def rejectMeas (s : State) (n : Nat) : State :=
  if s.cstate n = csLocking then s.setTb n fun c => { c with run := 0, inits := 0, v := 0, meas := [] }
  else s.toCoast n

/-- An accepted measurement counts toward Table 3-3. -/
def acceptCount (s : State) (n : Nat) : State :=
  let need := if s.get Reg.TB_CFG_SRC n = 2 then 4 else 16
  let s := s.setTb n fun c => { c with run := c.run + 1 }
  let st := s.cstate n
  if st = csLocking then (if need ≤ (s.tb n).run then s.set Reg.TB_STAT_CSTATE csTrack n else s)
  else if st = csCoast then s.set Reg.TB_STAT_CSTATE csTrack n
  else if st = csLost then s.toLocking n
  else s

/-- One measurement `z` (counts) at `tz` into the estimator of channel `n` (R74, R505); a residual above RESMAX rejects it
(R66). `keep` notes what goes with an accepted measurement. The residual is rounded down to S8.8, and measurements with the same
time give no rate (log entry 73). -/
def measure (s : State) (n : Nat) (z : Rat) (tz : Nat) (keep : TbCh → TbCh) : State :=
  if s.cstate n = csLost then (s.setTb n fun c => keep { c with tz := tz }).acceptCount n
  else
    let c := s.tb n
    let m := s.modulus n
    if c.inits = 0 then
      (s.setTb n fun c => keep { c with x := z, v := 0, tx := tz, tz := tz, inits := 1 }).acceptCount n
    else
      let dt : Rat := ((tz : Rat) - c.tz) / 1000
      if c.inits = 1 then
        let v := if dt = 0 then 0 else wrapDiffQ m (z - c.x) / dt
        (s.setTb n fun c => keep { c with x := z, v := v, tx := tz, tz := tz, inits := 2 }).acceptCount n
      else
        let xp := c.x + c.v * ((tz : Rat) - c.tx) / 1000
        let r := wrapDiffQ m (z - xp)
        if (if r < 0 then -r else r) * 256 > s.get Reg.TB_LIM_RESMAX n then
          ((s.set Reg.TB_STAT_RESERR 1 n).bump Reg.TB_STAT_ERRCNT 1 n).rejectMeas n
        else
          let al : Rat := (s.get Reg.TB_GAIN_ALPHA n : Rat) / 65536
          let be : Rat := (s.get Reg.TB_GAIN_BETA n : Rat) / 65536
          let v := if dt = 0 then c.v else c.v + be / dt * r
          (s.setTb n fun c => keep { c with
            x := xp + al * r, v := v, tx := tz, tz := tz
            res := clampI (-32768) 32767 (r * 256).floor }).acceptCount n

/-- The shorter way from angle `a` to angle `b`, counts of 1/65,536 revolution (R63), signed by INV. -/
def angleStep (s : State) (n : Nat) (a b : Int) : Rat :=
  let d : Rat := (sext 32 (scode 32 (b - a)) : Int) / 65536
  if s.flag Reg.TB_CFG_INV n then -d else d

/-- One input of a sync or resolver channel into the estimator (R63, R68, R69, R72). The count starts with the absolute angle of the
first accepted measurement (log entry 84). -/
def takeInput (s : State) (n : Nat) (m : Meas) : State :=
  if m.bad then s.rejectMeas n
  else if s.get Reg.TB_CFG_SRC n = 3 then
    let acc := match (s.tb n).angle with
      | some a => (s.tb n).acc + s.angleStep n a m.z
      | none => if s.flag Reg.TB_CFG_INV n then -((m.z : Rat) / 65536) else (m.z : Rat) / 65536
    s.measure n acc m.t fun c => { c with angle := some m.z.toNat, acc := acc }
  else s.measure n m.z m.t id

/-- The counts that the inputs of one update have gathered (R66): the turn from the angle before them, or the pulses. -/
def countsGathered (s : State) (n : Nat) (ms : List Meas) : Rat :=
  let good := ms.filter (!·.bad)
  if s.get Reg.TB_CFG_SRC n = 3 then
    match good.getLast?, (match (s.tb n).angle with | some a => some (a : Int) | none => good.head?.map (·.z)) with
    | some m, some a => s.angleStep n a m.z
    | _, _ => 0
  else good.length

/-- Counts `d` gathered in `us` µs exceed the rate limit (R66). -/
def tooFast (s : State) (n : Nat) (d us : Rat) : Bool :=
  decide ((if d < 0 then -d else d) * 256 > s.get Reg.TB_LIM_VMAX n * us)

/-- The time in µs in which the inputs `ms` have gathered their counts (R66): one update; for a resolver, whose outputs come further
apart, from its previous accepted measurement on (log entry 73). -/
def gatherTime (s : State) (n : Nat) (ms : List Meas) : Rat :=
  if s.get Reg.TB_CFG_SRC n = 3 then
    match (s.tb n).angle, (ms.filter (!·.bad)).getLast? with
    | some _, some m => max 1 (((m.t : Rat) - (s.tb n).tz) / 1000)
    | _, _ => 1
  else 1

/-- An update above the rate limit is rejected (R66). -/
def rejectFast (s : State) (n : Nat) : State :=
  ((s.set Reg.TB_STAT_VELERR 1 n).bump Reg.TB_STAT_ERRCNT 1 n).rejectMeas n

/-- The measurement of an encoder channel at the present update (R65, R66). -/
def encoderUpdate (s : State) (n : Nat) : State :=
  let c := s.tb n
  let s := s.setTb n fun c => { c with rawPrev := c.raw, bad := false }
  if c.bad then s.rejectMeas n
  else if s.tooFast n (c.raw - c.rawPrev : Int) 1 then s.rejectFast n
  else s.measure n c.raw s.now id

/-- The inputs of a sync or resolver channel since the last update, in time order (R66, R71, R74). -/
def inputUpdate (s : State) (n : Nat) : State :=
  let ms := (s.tb n).meas
  let s := s.setTb n fun c => { c with meas := [] }
  if s.tooFast n (s.countsGathered n ms) (s.gatherTime n ms) then s.rejectFast n
  else ms.foldl (fun s m => s.takeInput n m) s

/-- The 1 µs update of channel `n` at the present instant (R66, R74) (log entry 6). -/
def updateChannel (s : State) (n : Nat) : State :=
  if s.cstate n = csOff ∨ s.isDeviceTime n then s
  else
    let s := if s.get Reg.TB_CFG_SRC n = 1 then s.encoderUpdate n else s.inputUpdate n
    if s.cstate n = csLost then s
    else s.setTb n fun c =>
      if c.inits = 0 then { c with tx := s.now }
      else { c with x := c.x + c.v * ((s.now : Rat) - c.tx) / 1000, tx := s.now }

/-- A write to TB_nCFG puts channel `n` in the state its SRC selects (R60), its position held until a source moves it (R94,
R505) (log entry 19). -/
def tbCfgWritten (s : State) (n : Nat) : State :=
  let src := s.get Reg.TB_CFG_SRC n
  let s := s.set Reg.TB_STAT_ABS 0 n
  if src = 4 then (s.setTb n fun c => { c with res := 0 }).set Reg.TB_STAT_CSTATE csTrack n
  else if src = 1 ∨ src = 2 ∨ src = 3 then (s.setTb n fun c => { c with angle := none, acc := 0 }).toLocking n
  else s.set Reg.TB_STAT_CSTATE csOff n

/-- A write of `v` to TB_nCFG (R60, R94). -/
def tbCfgStore (s : State) (n : Nat) (v : Word) : State :=
  ((s.holdPos n).regStore (Reg.TB_CFG_SRC.addr n 0) v).tbCfgWritten n

/-- Count and fraction registers of a position in grains (R74). -/
def countOf (g : Int) : Int := g / 65536

/-- The fraction of a position, grains. -/
def fracOf (g : Int) : Nat := (g % 65536).toNat

/-- The instant whose position the TB_nPOS registers show: the last update, or now for device time. -/
def posInstant (s : State) (n : Nat) : Nat := if s.isDeviceTime n then s.now else (s.tb n).tx

/-- A read of TB_nPOS (R76): TB_nPOSF and TB_nRATE are captured from the same update. -/
def posRead (s : State) (n : Nat) : State × Word :=
  let g := s.posAt n (s.posInstant n)
  let s : State := (s.set Reg.TB_POSF_FRAC (fracOf g) n).setS Reg.TB_POSF_RES (s.tb n).res n
  let s := s.setS Reg.TB_RATE_RATE (clampI (-2147483648) 2147483647 (s.rateOf n * 65536).floor) n
  let s := s.setS Reg.TB_POS_COUNT (countOf g) n
  (s, BitVec.ofInt 32 (countOf g))

/-- A read of TB_TIMELO captures TB_TIMEHI (TB_TIMEHI table). -/
def timeloRead (s : State) : State × Word :=
  let s : State := (s.set Reg.TB_TIMEHI_THI (s.now / 2 ^ 32)).set Reg.TB_TIMELO_TLO s.now
  (s, BitVec.ofNat 32 s.now)

/-- The 8-byte latch record of channel `n` at `t` (Table 11-3 LATCH; R92, R94). -/
def latchRecord (s : State) (n t : Nat) : List Byte :=
  let g := s.posAt n t
  leBytes 4 (scode 32 (countOf g)) ++ leBytes 2 (fracOf g) ++
    leBytes 1 (s.cstate n + 8 * s.get Reg.TB_STAT_ABS n) ++ leBytes 1 0

/-- The four channels' latch records. -/
def latchAll (s : State) (t : Nat) : List Byte := ((List.range 4).map fun n => s.latchRecord n t).flatten

/-- COASTMAX has passed on channel `n` in COAST by the instant `t` (Table 3-3). -/
def coastOver (s : State) (n t : Nat) : Bool :=
  s.cstate n == csCoast && decide (s.get Reg.TB_TO_COASTMAX n * 1000 < t - (s.tb n).coastAt)

/-- Channel `n` is LOST: the position is held and the rate reads 0. -/
def toLost (s : State) (n : Nat) : State :=
  ((s.holdPos n).setTb n fun c => { c with lost := true }).set Reg.TB_STAT_CSTATE csLost n

/-- Channel `n` as an input arrives at `t`: one that comes after COASTMAX finds it LOST, one before or with it wins (R70, R71). -/
def beforeInput (s : State) (n t : Nat) : State :=
  if s.coastOver n t && !(s.tb n).meas.any (!·.bad) then s.toLost n else s

/-- An output of filter channel `ch`: angle `a` in 1/2^32 revolution with its corrected time `tz` (R63, R69, R376). Its arrival, at `t`,
is what R72 times. -/
def resolverOutput (s : State) (ch a tz : Nat) (valid : Bool) (t : Nat) : State :=
  (List.range 4).foldl (fun s n =>
    if s.get Reg.TB_CFG_SRC n = 3 ∧ s.get Reg.TB_CFG_FCH n = ch then
      let s := (s.beforeInput n t).setTb n fun c => { c with
        lastOut := some t, interval := c.lastOut.map fun l => t - l
        meas := c.meas ++ [⟨a, tz, !valid⟩] }
      if valid then s else (s.set Reg.TB_STAT_SRCINV 1 n).bump Reg.TB_STAT_ERRCNT 1 n
    else s) s

/-! ## Rig time -/

/-- An ALIVE check of R334 for messages of `typ` from origin `hop`: none where the message is a repeat. -/
def rigAlive (s : State) (typ hop alive : Nat) : Option State :=
  let old := (s.rig.alive.find? fun e => e.1 == typ && e.2.1 == hop).map (·.2.2)
  let keep := s.rig.alive.filter fun e => !(e.1 == typ && e.2.1 == hop)
  let s' := { s with rig := { s.rig with alive := (typ, hop, alive % 256) :: keep } }
  match old with
  | none => some s'
  | some b => if b = alive % 256 then none else some (s'.bump Reg.PK_ALV_GAPCNT ((alive + 255 - b) % 256))

/-- The alive counters of the types that port `port` receives are taken afresh (R334): RIG_IN (0) receives all but PROBE, RIG_OUT
that alone. -/
def rigAliveClear (s : State) (port : Nat) : State :=
  { s with rig := { s.rig with alive := s.rig.alive.filter fun e => (e.1 == 2) != (port != 0) } }

/-- Rig time is free (R80), counted once for each entry. -/
def rigFree (s : State) : State :=
  if s.get Reg.TB_RIG_RSTATE = 0 then s
  else
    let s : State := (s.set Reg.TB_RIG_RSTATE 0).bump Reg.TB_RIG_LOSSCNT
    { s with rig := { s.rig with trim := 0, lockRun := 0, stepped := false } }

/-- This device's next alive value for messages of `typ` (R311). -/
def nextAlive (s : State) (typ : Nat) : State × Nat :=
  let a := ((s.rig.ownAlive.find? (·.1 == typ)).map (·.2)).getD 0
  ({ s with rig := { s.rig with ownAlive := (typ, (a + 1) % 256) :: s.rig.ownAlive.filter (·.1 != typ) } }, a)

/-- The rig ports forward: powered and not in a state of R16. -/
def rigUp (s : State) : Bool := s.rigSends

/-- A message queued on RIG_OUT, which holds at most 64 FIX messages and drops the newest (R312). -/
def rigQueueOut (s : State) (m : RigMsg) : State :=
  if m.typ = 5 ∧ 64 ≤ (s.rig.outQ.filter (·.typ == 5)).length then s.bump Reg.LK_RIGSTAT_FIXDROP
  else { s with rig := { s.rig with outQ := s.rig.outQ ++ [m] } }

/-- A valid message makes the receiving port direction UP (R310). -/
def rigHeard (s : State) (port : Nat) : State :=
  if port = 0 then (if s.rig.inLock then s.set Reg.LK_RIGSTAT_INSTATE 2 else s)
  else if s.rig.outLock then s.set Reg.LK_RIGSTAT_OUTSTATE 2 else s

/-- Device time steps forward by `n` ns, once (R78). -/
def stepNow (s : State) (n : Nat) : State :=
  { s with now := s.now + n, markerAt := s.markerAt + n, rig := { s.rig with trim := 0, stepped := true } }

/-- The offset `e` of an accepted TIME message acts on device time and RSTATE (R77 to R79). Alignment starts when RSTATE leaves
FREE; a return from LOCKED to ALIGNING goes on by the rate trim (log entry 73). -/
def rigAlign (s : State) (e : Int) : State :=
  let s := s.setS Reg.TB_RIG_OFFSET (clampI (-32767) 32767 e)
  let small := decide (e.natAbs ≤ 2)
  let st := s.get Reg.TB_RIG_RSTATE
  let starting := st == 0
  let s : State := if starting then s.set Reg.TB_RIG_RSTATE 1 else s
  let s : State := if starting && decide (e > 1000) then
      (s.stepNow e.toNat).forgetCrossingsAll
    else { s with rig := { s.rig with trim := if small then 0 else e } }
  let run := if s.get Reg.TB_RIG_RSTATE = 2 then (if small then 0 else s.rig.lockRun + 1)
    else if small then s.rig.lockRun + 1 else 0
  let s : State := { s with rig := { s.rig with lockRun := run } }
  if s.get Reg.TB_RIG_RSTATE = 2 then
    (if 4 ≤ run then ({ s with rig := { s.rig with lockRun := 0 } }).set Reg.TB_RIG_RSTATE 1 else s)
  else if 16 ≤ run then ({ s with rig := { s.rig with lockRun := 0 } }).set Reg.TB_RIG_RSTATE 2
  else s

/-- The bytes of a rig message before its CRC (Table 10-7). -/
def rigBody (typ alive hop : Nat) (pay : List Byte) : List Byte :=
  leBytes 1 typ ++ leBytes 1 alive ++ leBytes 1 hop ++ leBytes 1 pay.length ++ pay

/-- The running value of CE1 after a message of these bytes (Table 11-8, R330). -/
def ce1 (s : State) (body : List Byte) : State := s.set Reg.CE_VAL_VAL (crc32Run 0xFFFFFFFF body) 1

/-- The running value of CE3 after a message of these bytes (Table 11-8, R330). -/
def ce3 (s : State) (body : List Byte) : State := s.set Reg.CE_VAL_VAL (crc16 body) 3

/-- The bytes of a rig message as it is sent (Table 10-7). -/
def rigBytes (s : State) (m : RigMsg) : List Byte :=
  let pay := match m.typ with
    | 1 => leBytes 8 s.now
    | 2 => leBytes 8 s.now
    | 3 => leBytes 8 m.arg ++ leBytes 8 (s.now - m.arg2)
    | 4 => leBytes 8 m.arg
    | _ => m.fix
  let b := rigBody m.typ m.alive m.hop pay
  b ++ leBytes 4 (crc32c b)

/-- Priority of a rig message: TIME, FRAMEBC, PROBE or PROBE_REPLY, FIX (R312). -/
def rigPriority (m : RigMsg) : Nat :=
  match m.typ with
  | 1 => 0
  | 4 => 1
  | 2 => 2
  | 3 => 2
  | _ => 3

/-- The message that leaves next: the first of the lowest priority number. -/
def rigNext (q : List RigMsg) : Option RigMsg :=
  (List.range 4).findSome? fun p => q.find? fun m => rigPriority m == p

end State

/-- ENCODER_EDGE (R64, R65): the levels of A and B of channel `n` change behind the glitch filter; A leading B counts up (log
entry 7). Travel without an index pulse counts edges of both directions (log entry 73). -/
def execEncoderEdge (n : Nat) (a b : Bool) (s : State) : Outcome State Fault Refusal :=
  let new := (if a then 2 else 0) + (if b then 1 else 0)
  let old := (s.tb n).ab
  if n < 4 ∧ s.get Reg.TB_CFG_SRC n = 1 ∧ s.cstate n ≠ csOff then
    let s := s.setTb n fun c => { c with ab := new }
    let up (d : Int) : State :=
      let d := if s.flag Reg.TB_CFG_INV n then -d else d
      s.setTb n fun c => { c with raw := c.raw + d, travel := c.travel + 1 }
    ok (match old, new with
      | 0, 2 => up 1 | 2, 3 => up 1 | 3, 1 => up 1 | 1, 0 => up 1
      | 2, 0 => up (-1) | 3, 2 => up (-1) | 1, 3 => up (-1) | 0, 1 => up (-1)
      | _, _ => if old = new then s
        else ((s.set Reg.TB_STAT_QERR 1 n).bump Reg.TB_STAT_ERRCNT 1 n).setTb n fun c => { c with bad := true })
  else ok s

/-- The delay of the glitch filter, which is subtracted from the instant of an edge, ns (R64). -/
def glitchDelay : Nat := 15

/-- INDEX_PULSE (R64, R67, R73) (log entry 19). -/
def execIndexPulse (n : Nat) (s : State) : Outcome State Fault Refusal :=
  if n < 4 ∧ s.flag Reg.TB_CFG_IDXEN n ∧ s.get Reg.TB_CFG_SRC n = 1 ∧ s.modulus n ≠ 0 then
    let at' := s.now - glitchDelay
    if !(s.tb n).idxDone then
      let s := s.setTb n fun c => { c with
        x := 0, tx := at', raw := 0, rawPrev := c.rawPrev - c.raw, idxDone := true, travel := 0 }
      ok ((s.set Reg.TB_STAT_ABS 1 n).forgetCrossings n)
    else
      let d := wrapDiff (s.modulus n) (State.countOf (s.posAt n at') * 65536)
      let s := s.setTb n fun c => { c with travel := 0 }
      ok (if d.natAbs > 65536 then s.set Reg.TB_STAT_IDXERR 1 n else s)
  else ok s

/-- INDEX_TIMEOUT (R67). -/
def execIndexTimeout (n : Nat) (s : State) : Outcome State Fault Refusal :=
  let m := s.modulus n
  let k := s.get Reg.TB_TO_IDXTO n
  ok (if n < 4 ∧ s.flag Reg.TB_CFG_IDXEN n ∧ (m = 0 ∨ (k ≠ 0 ∧ k * m < (s.tb n).travel)) then
    s.set Reg.TB_STAT_IDXLOST 1 n else s)

/-- No pulse has been accepted within PMAX of the last one (R68). -/
def State.syncLate (s : State) (n : Nat) : Bool :=
  !(s.tb n).fresh && decide (min (s.get Reg.TB_PMAX_PMAX n) 1000000000 < s.now - (s.tb n).lastSync)

/-- SYNCMISS (R68, R72). -/
def State.syncMiss (s : State) (n : Nat) : State :=
  ((s.set Reg.TB_STAT_SYNCMISS 1 n).setTb n fun c => { c with fresh := true }).toCoast n

/-- SYNC_PULSE (R68): accepted as a measurement, or rejected as early; one past PMAX follows a SYNCMISS. -/
def execSyncPulse (n : Nat) (s : State) : Outcome State Fault Refusal :=
  if n < 4 ∧ s.get Reg.TB_CFG_SRC n = 2 ∧ s.cstate n ≠ csOff then
    let s : State := if s.syncLate n then s.syncMiss n else s
    let s := s.beforeInput n s.now
    let c := s.tb n
    if !c.fresh ∧ s.now - c.lastSync < max (s.get Reg.TB_PMIN_PMIN n) 10000 then
      ok (((s.set Reg.TB_STAT_PERIODERR 1 n).bump Reg.TB_STAT_ERRCNT 1 n).setTb n fun c =>
        { c with meas := c.meas ++ [⟨0, s.now, true⟩] })
    else
      let k := if s.flag Reg.TB_CFG_INV n then c.pulses - 1 else c.pulses + 1
      ok (s.setTb n fun c => { c with
        pulses := k, lastSync := s.now, fresh := false, meas := c.meas ++ [⟨k, s.now, false⟩] })
  else ok s

/-- SYNC_MISS (R68, R72): a pulse that arrives in the cycle in which PMAX expires wins (R70) (log entry 72). -/
def execSyncMiss (n : Nat) (s : State) : Outcome State Fault Refusal :=
  ok (if n < 4 ∧ s.get Reg.TB_CFG_SRC n = 2 ∧ s.cstate n ≠ csOff ∧ s.syncLate n then s.syncMiss n else s)

/-- POS_READ (R26, R76). -/
def execPosRead (n : Nat) (s : State) : Outcome State Fault Refusal := ok (if n < 4 then s.mainRead (s.posRead n) else s)

/-- TIMELO_READ (R18, R26). -/
def execTimeloRead (s : State) : Outcome State Fault Refusal := ok (s.mainRead s.timeloRead)

/-- RIG_TIME_SEND: every 8 µs the rig master queues a TIME message on RIG_OUT (R77). -/
def execRigTimeSend (s : State) : Outcome State Fault Refusal :=
  ok (if s.rigUp ∧ s.flag Reg.TB_RIG_MASTER then
    let (s, a) := s.nextAlive 1
    s.rigQueueOut ⟨1, a, s.get Reg.TB_RIG_HOP, 0, 0, []⟩
  else s)

/-- RIG_PROBE_SEND: every 1 ms a non-master queues a PROBE upstream on RIG_IN (R311). -/
def execRigProbeSend (s : State) : Outcome State Fault Refusal :=
  ok (if s.rigUp ∧ !s.flag Reg.TB_RIG_MASTER then
    let (s, a) := s.nextAlive 2
    { s with rig := { s.rig with inQ := s.rig.inQ ++ [⟨2, a, s.get Reg.TB_RIG_HOP, 0, 0, []⟩] } }
  else s)

/-- RIG_TIME_RECEIVE (R77 to R79, R312, R334): time `t` of origin `hop`; a fresh TIME message goes downstream. -/
def execRigTimeReceive (alive hop t : Nat) (s : State) : Outcome State Fault Refusal :=
  if !s.rigUp || s.flag Reg.TB_RIG_MASTER then ok s
  else
    let s := s.ce1 (State.rigBody 1 alive hop (leBytes 8 t))
    match s.rigAlive 1 hop alive with
    | none => ok (s.bump Reg.PK_ALV_REPCNT)
    | some s =>
      let e : Int := (t + s.rig.delay : Nat) - (s.now : Int)
      let s : State := (s.rigHeard 0).rigAlign e
      let s : State := { s with rig := { s.rig with lastTime := some s.now } }
      let (s, a) := s.nextAlive 1
      ok (s.rigQueueOut ⟨1, a, s.get Reg.TB_RIG_HOP, 0, 0, []⟩)

/-- RIG_PROBE_RECEIVE (R311): a PROBE that arrives on RIG_OUT from the device below is answered with a PROBE_REPLY that
carries the probe's time and the turnaround. -/
def execRigProbeReceive (alive hop t : Nat) (s : State) : Outcome State Fault Refusal :=
  if !s.rigUp then ok s
  else
    let s := s.ce1 (State.rigBody 2 alive hop (leBytes 8 t))
    match s.rigAlive 2 hop alive with
    | none => ok (s.bump Reg.PK_ALV_REPCNT)
    | some s =>
      let (s, a) := (s.rigHeard 1).nextAlive 3
      ok (s.rigQueueOut ⟨3, a, s.get Reg.TB_RIG_HOP, t, s.now, []⟩)

/-- RIG_PROBE_REPLY_RECEIVE (R311): link delay = (round trip − turnaround) / 2. -/
def execRigProbeReplyReceive (alive hop t turn : Nat) (s : State) : Outcome State Fault Refusal :=
  if !s.rigUp then ok s
  else
    let s := s.ce1 (State.rigBody 3 alive hop (leBytes 8 t ++ leBytes 8 turn))
    match s.rigAlive 3 hop alive with
    | none => ok (s.bump Reg.PK_ALV_REPCNT)
    | some s =>
      let s := s.rigHeard 0
      ok { s with rig := { s.rig with delay := (s.now - t - turn) / 2 } }

/-- RIG_IN_TIMEOUT (R80): 64 µs without a valid TIME message; one in the cycle of the timeout wins (R70) (log entry 72). -/
def execRigInTimeout (s : State) : Outcome State Fault Refusal :=
  let due : Bool := match s.rig.lastTime with
    | some t => decide (64000 < s.now - t)
    | none => decide (64000 < s.now)
  ok (if s.boot.rigRole ≠ 0 ∧ !s.flag Reg.TB_RIG_MASTER ∧ due then s.rigFree else s)

/-- RIG_RX_LOCK (R310, R334): the receiver of RIG_IN (0) or RIG_OUT (1) is locked and deskewed; UP follows with a message, whose
alive counter is taken as the reference. -/
def execRigRxLock (port : Nat) (s : State) : Outcome State Fault Refusal :=
  ok (if !s.rigUp then s
    else
      let s := s.rigAliveClear port
      if port = 0 then
        ({ s with rig := { s.rig with inLock := true } }).set Reg.LK_RIGSTAT_INSTATE (max 1 (s.get Reg.LK_RIGSTAT_INSTATE))
      else
        ({ s with rig := { s.rig with outLock := true } }).set Reg.LK_RIGSTAT_OUTSTATE
          (max 1 (s.get Reg.LK_RIGSTAT_OUTSTATE)))

/-- RIG_MESSAGE_SEND (R312, R330): the free transmitter of RIG_OUT (1) or RIG_IN (0) sends its next message in priority order. -/
def execRigMessageSend (port : Nat) (s : State) : Outcome State Fault Refusal :=
  if !s.rigUp then ok s
  else
    let q := if port = 0 then s.rig.inQ else s.rig.outQ
    match State.rigNext q with
    | none => ok s
    | some m =>
      let bs := s.rigBytes m
      let s := ((s.ce1 (bs.take (bs.length - 4))).emit (.rig port bs)).sendBlocks (if port = 0 then 32 else 33) (packetBlocks bs)
      ok (if port = 0 then { s with rig := { s.rig with inQ := q.erase m } }
        else { s with rig := { s.rig with outQ := q.erase m } })

/-- RIG_CRC_ERROR (R311). -/
def execRigCrcError (s : State) : Outcome State Fault Refusal :=
  ok (if s.rigUp then s.bump Reg.LK_RIGSTAT_CRCERR else s)

end Sys2Proof.Machine
end

