-- ==== Sys2Proof/Machine/Events.lean ====
section
/-! DEFINITION. The event slots, the gallery pins, latches and the frame trigger pin (03_timebase_and_events.md R81 to
R104, R506; 16_boot_and_configuration.md R445, R446). -/
namespace Sys2Proof.Machine

open Host (Outcome)

/-- Slot states of EV_nSTAT.SSTATE. -/
def ssIdle : Nat := 0
/-- ARMED. -/
def ssArmed : Nat := 1
/-- COMMITTED. -/
def ssCommitted : Nat := 2
/-- PENDING. -/
def ssPending : Nat := 3

namespace Slot

/-- ACTION of the working copy (Table 3-4). -/
def action (x : Slot) : Nat := fieldOf x.cfg 8 4
/-- ARG. -/
def arg (x : Slot) : Nat := fieldOf x.cfg 0 8
/-- CH. -/
def ch (x : Slot) : Nat := fieldOf x.cfg 24 2
/-- DIR: 0 forward, 1 reverse, 2 either; 3 acts as 0. -/
def dir (x : Slot) : Nat := if fieldOf x.cfg 28 2 = 3 then 0 else fieldOf x.cfg 28 2
/-- MODE = repeat; reserved values act as one-shot. -/
def repeats (x : Slot) : Bool := fieldOf x.cfg 26 2 == 1
/-- REPCNT. -/
def repcnt (x : Slot) : Nat := fieldOf x.cfg 16 8
/-- STRICT. -/
def strict (x : Slot) : Bool := fieldOf x.cfg 30 1 == 1
/-- RIGBC. -/
def rigbc (x : Slot) : Bool := fieldOf x.cfg 15 1 == 1
/-- Gallery pin of a GAL action. -/
def pin (x : Slot) : Nat := x.arg % 32
/-- Level of a GAL action. -/
def level (x : Slot) : Bool := hasBit x.arg 5

end Slot

namespace State

/-- Slot `n`. -/
def slot (s : State) (n : Nat) : Slot := s.slots.getD n Slot.init

/-- Slot `n` changed through `f`. -/
def setSlot (s : State) (n : Nat) (f : Slot → Slot) : State := { s with slots := listModify s.slots n f }

/-- EV_nSTAT.SSTATE. -/
def sstate (s : State) (n : Nat) : Nat := s.get Reg.EV_STAT_SSTATE n

/-! ## Pins (R445, R446) -/

/-- The rows of Table 16-11 that use pin `p`, ascending. A pulse under way uses its pin until its last edge (log entry 41). -/
def pinUsers (s : State) (p : Nat) : List Nat :=
  let r1 := (List.range 4).any fun n =>
    let src := s.get Reg.TB_CFG_SRC n
    (src == 1 || src == 2) && (s.get Reg.TB_CFG_PINA n == p || (src == 1 && s.get Reg.TB_CFG_PINB n == p) ||
      (s.flag Reg.TB_CFG_IDXEN n && s.get Reg.TB_CFG_PINI n == p))
  let r2 := s.flag Reg.TB_TRIG_EN && s.get Reg.TB_TRIG_PIN == p
  let r3 := s.flag Reg.CS_RINGTRIG_EN && s.get Reg.CS_RINGTRIG_PIN == p
  let r4 := (List.range 256).any fun m =>
    s.live Reg.TK_PLAN_CFG_EN m == 1 && s.live Reg.TK_PLAN_CFG_STRBEN m == 1 && s.live Reg.TK_PLAN_CFG_STRBPIN m == p
  let r5 := (s.gal.pulseEnd.getD p none).isSome || (List.range 64).any fun n =>
    s.sstate n != ssIdle && ((s.slot n).action == 6 || (s.slot n).action == 7) && (s.slot n).pin == p
  (if r1 then [1] else []) ++ (if r2 then [2] else []) ++ (if r3 then [3] else []) ++ (if r4 then [4] else []) ++
    (if r5 then [5] else [])

/-- The field of BT_PINOWNi that gives the owner of pin `p`. -/
def ownFld (p : Nat) : Fld := ⟨0x0E0010, 4, 0, 8 * (p % 4), 3, false⟩

/-- The field of BT_PINOWNi that gives the rows that lost pin `p`. -/
def lostFld (p : Nat) : Fld := ⟨0x0E0010, 4, 0, 8 * (p % 4) + 4, 4, false⟩

/-- The row that owns pin `p`, 0 for none. -/
def pinOwner (s : State) (p : Nat) : Nat := if p < 24 then s.get (ownFld p) (p / 4) else 0

/-- One pin's ownership evaluated (R445) and its driver set (R446). -/
def evalPin (s : State) (p : Nat) : State :=
  let us := s.pinUsers p
  let own := us.headD 0
  let lost := (us.tail.filter (2 ≤ ·)).foldl (fun m k => m + 2 ^ (k - 2)) 0
  let was := s.pinOwner p
  let hadConf := hasBit (s.get Reg.BT_PINSTAT_CONF) p
  let s : State := (s.set (ownFld p) own (p / 4)).set (lostFld p) lost (p / 4)
  let conf := s.get Reg.BT_PINSTAT_CONF
  let s := s.set Reg.BT_PINSTAT_CONF (if lost = 0 then withoutBit conf p else withBit conf p)
  let s : State := if lost ≠ 0 ∧ !hadConf then (s.bump Reg.BT_PINSTAT_CONFCNT).set Reg.BT_CFGSTAT_PINCONFLICT 1 else s
  if own = was then s
  else if 4 ≤ own then { s with gal := { s.gal with out := s.gal.out.set p (some false) } }
  else { s with gal := { s.gal with out := s.gal.out.set p none, pulseEnd := s.gal.pulseEnd.set p none } }

/-- Pin ownership evaluated at the end of LOAD and at each change (R445). -/
def evalPins (s : State) : State :=
  if s.dev == .train || s.running then (List.range 24).foldl evalPin s else s

/-- Pin `p` driven by row `row`, where it owns the pin (R445, R446). -/
def drivePin (s : State) (row p : Nat) (l : Bool) : State :=
  if s.pinOwner p = row then { s with gal := { s.gal with out := s.gal.out.set p (some l) } } else s

/-! ## Arming (R81, R506) -/

/-- The working copy taken from the registers of slot `n` (R81). -/
def latchedSlot (s : State) (n : Nat) : Slot :=
  { cfg := s.regs.word (0x010400 + 0x20 * n)
    p := s.getS Reg.EV_POS_POS n * 65536 + s.get Reg.EV_FRAC_POSF n
    step := s.getS Reg.EV_STEP_STEP n * 65536 + s.get Reg.EV_FRAC_STEPF n
    delay := s.get Reg.EV_DELAY_DELAY n
    prev := none, prevAt := s.now, ts := 0, te := 0, commitAt := 0, k := 0, rearm := false, stop := false }

/-- Slot `n` at rest: ARM reads 0. -/
def slotIdle (s : State) (n : Nat) : State := (s.set Reg.EV_STAT_SSTATE ssIdle n).set Reg.EV_CFG_ARM 0 n

/-- Slot `n` armed afresh from the registers (R81), or refused for a reserved action (Table 3-4). -/
def armFresh (s : State) (n : Nat) : State :=
  let x := s.latchedSlot n
  if 9 < x.action then (s.bump Reg.EV_SUM_BADCNT).slotIdle n
  else
    let s := s.setSlot n fun _ => { x with prev := some (s.slotDiff x s.now) }
    ((s.set Reg.EV_STAT_SSTATE ssArmed n).set Reg.EV_CFG_ARM 1 n).set Reg.EV_STAT_DONE 0 n

/-- ARM = 1 written (R81, R506). -/
def slotArm (s : State) (n : Nat) : State :=
  let st := s.sstate n
  if st = ssIdle ∨ st = ssArmed then (s.armFresh n).evalPins
  else (s.setSlot n fun x => { x with rearm := true, stop := false }).set Reg.EV_CFG_ARM 1 n

/-- ARM = 0 written (R84, R506). -/
def slotDisarm (s : State) (n : Nat) : State :=
  let st := s.sstate n
  if st = ssIdle ∨ st = ssArmed then (s.slotIdle n).evalPins
  else (s.setSlot n fun x => { x with rearm := false, stop := true }).set Reg.EV_CFG_ARM 1 n

/-- A write of `v` to EV_nCFG: its other fields take the value, then ARM acts (R81, R506). -/
def evCfgWritten (s : State) (n : Nat) (v : Word) : State :=
  let s : State := { s with regs := s.regs.put (0x010400 + 0x20 * n) (v &&& 0xFFFF8FFF#32) }
  if hasBit v.toNat 31 then s.slotArm n else s.slotDisarm n

/-! ## Execution (R86, R87) -/

/-- Slot `n` has had an execution with lateness `late` (R87): counted, and then disarmed, re-armed one step on, or armed
afresh where a re-arm was recorded (R506) (log entries 10 and 41). -/
def slotDone (s : State) (n late : Nat) (dropped : Bool) : State :=
  let x := s.slot n
  let s : State := (s.bump Reg.EV_STAT_DONE 1 n).set Reg.EV_LATE_LATE (min late (2 ^ 32 - 1)) n
  let s : State := if dropped then s.bump Reg.EV_STAT_DROPPED 1 n else s
  if x.rearm then ((s.slotIdle n).armFresh n).evalPins
  else if x.repeats && !x.stop && (x.repcnt == 0 || decide (x.k + 1 < x.repcnt)) then
    let y := s.latchedSlot n
    let z := { y with p := wrapGrains (s.modulus x.ch) (x.p + x.step), k := x.k + 1 }
    let z := { z with prev := some (s.slotDiff z s.now) }
    ((s.setSlot n fun _ => z).set Reg.EV_STAT_SSTATE ssArmed n).evalPins
  else (s.slotIdle n).evalPins

/-- Slot `n` is due: committed with action `a`, at te or after, in a state in which slots execute (R84, R90). -/
def slotDue (s : State) (n a : Nat) : Bool :=
  decide (n < 64) && s.sstate n == ssCommitted && (s.slot n).action == a && decide ((s.slot n).te ≤ s.now) && s.running

/-- A step of device time has passed over the te of slot `n` (R80), and not only the jitter of 2 ns (R86), which the rate trim of R78
stays within. -/
def slotPassed (s : State) (n : Nat) : Bool := decide ((s.slot n).te + 2 < s.now)

/-- A strict slot cannot execute at its scheduled time: its te lies after it (R83), or a step of device time has passed it
over (R80), so that it is dropped and never executes late (R104) (log entry 10). -/
def slotStrictLate (s : State) (n : Nat) : Bool :=
  (s.slot n).strict && (decide ((s.slot n).ts < (s.slot n).te) || s.slotPassed n)

/-- Lateness of slot `n` at its execution: of te after ts, or of this cycle after a te that a step of device time has passed
over (R80). -/
def slotLate (s : State) (n : Nat) : Nat :=
  if s.slotPassed n then s.now - (s.slot n).te else (s.slot n).te - (s.slot n).ts

/-- Slot `n` at its te, its action done or dropped (R80, R87). -/
def slotEnd (s : State) (n : Nat) (dropped : Bool) : State := s.slotDone n (s.slotLate n) dropped

/-- Two resources of `slotResource` have something in common: all the filter channels hold each of them (R88). -/
def overlaps (a b : Nat) : Bool :=
  a == b || (a == 0x3FF && decide (0x300 ≤ b ∧ b < 0x310)) || (b == 0x3FF && decide (0x300 ≤ a ∧ a < 0x310))

/-- Resource `r` has been executed on in this cycle. -/
def claim (s : State) (r : Nat) : State := { s with execs := (r, s.now) :: s.execs.filter (·.1 != r) }

/-- Whether a slot other than `n` is held pending on the resource that `key` gives (R103). -/
def pendingOn (s : State) (n : Nat) (key : Slot → Option Nat) (r : Nat) : Bool :=
  (List.range 64).any fun m => m != n && s.sstate m == ssPending && (key (s.slot m)).any (overlaps r)

/-- The resource of a slot's action (R88): classes 0x100 + k, gallery pins 0x200 + p, filter channels 0x300 + c (0x3FF for
all), sense units 0x400 + u, tracking plan entries 0x500 + m, the frame 0x600. -/
def slotResource (x : Slot) : Option Nat :=
  match x.action with
  | 1 => some 0x600
  | 2 => some (0x100 + x.arg % 8)
  | 3 => some (0x500 + x.arg)
  | 4 => some (0x400 + x.arg % 2)
  | 5 => some (0x400 + x.arg % 2)
  | 6 => some (0x200 + x.pin)
  | 7 => some (0x200 + x.pin)
  | 8 => some (if hasBit x.arg 7 then 0x3FF else 0x300 + x.arg % 16)
  | _ => none

/-- A lower-numbered slot than `n` whose action `test` asks about is still to execute in the same cycle, its te being this instant or
one that a step of device time has passed over with that of `n` (R80, R88). -/
def lowerDue (s : State) (n : Nat) (test : Slot → Bool) : Bool :=
  (List.range (min n 64)).any fun m => s.sstate m == ssCommitted && decide ((s.slot m).te ≤ s.now) && !s.slotStrictLate m &&
    test (s.slot m)

/-- A lower-numbered slot than `n` is still to execute in the same cycle on what resource `r` overlaps (R88). -/
def outranked (s : State) (n r : Nat) : Bool := s.lowerDue n fun x => (slotResource x).any (overlaps r)

/-- In this cycle another slot has executed on what resource `r` of slot `n` overlaps, or a lower-numbered one is to (R88). -/
def collides (s : State) (n r : Nat) : Bool :=
  (s.execs.any fun e => overlaps e.1 r && e.2 == s.now) || s.outranked n r

/-- A due slot whose target is busy (R88, R103, R104): dropped where strict or where one is already pending, else held (log entry 27). -/
def slotBusy (s : State) (n : Nat) (collision : Bool) : State :=
  let x := s.slot n
  let s : State := if collision then s.bump Reg.EV_SUM_COLLCNT else s
  match slotResource x with
  | none => s
  | some r =>
    if x.strict || s.pendingOn n slotResource r then s.slotEnd n true
    else s.set Reg.EV_STAT_SSTATE ssPending n

/-- Pin `p` is busy with a pulse (R103). -/
def pinBusy (s : State) (p : Nat) : Bool := (s.gal.pulseEnd.getD p none).isSome

/-- GAL_SET's effect (Table 3-4). -/
def galSet (s : State) (n late : Nat) : State :=
  let x := s.slot n
  ((s.drivePin 5 x.pin x.level).claim (0x200 + x.pin)).slotDone n late false

/-- GAL_PULSE's effect (Table 3-4); WIDTH 0 acts as 1 (log entry 41). -/
def galPulse (s : State) (n late : Nat) : State :=
  let x := s.slot n
  let s := s.drivePin 5 x.pin x.level
  let s : State := if s.pinOwner x.pin = 5 then
      { s with gal := { s.gal with
        pulseEnd := s.gal.pulseEnd.set x.pin (some (s.now + 10 * max 1 (s.get Reg.TB_PULSE_WIDTH))) } }
    else s
  (s.claim (0x200 + x.pin)).slotDone n late false

/-- The LATCH effect (R93): the registers from the one instant `t`, and a latch record on the sense stream. -/
def latchNow (s : State) (t : Nat) : State :=
  let s : State := (s.set Reg.TB_LATTLO_T t).set Reg.TB_LATTHI_T (t / 2 ^ 32)
  let s : State := (List.range 4).foldl (fun s n =>
    let g := s.posAt n t
    let s : State := (s.setS Reg.TB_LATCH_POS_COUNT (countOf g) n).set Reg.TB_LATCH_FRAC_FRAC (fracOf g) n
    (s.set Reg.TB_LATCH_FRAC_ABS (s.get Reg.TB_STAT_ABS n) n).set Reg.TB_LATCH_FRAC_CSTATE (s.cstate n) n) s
  let rec1 := leBytes 1 3 ++ leBytes 7 0 ++ leBytes 8 t ++ s.latchAll t
  s.sendPlain (s.get Reg.PK_CFG_SNVC) 0x42 s.lastArmed
    (leBytes 1 1 ++ leBytes 3 0 ++ leBytes 4 s.lastArmed ++ leBytes 8 t ++ rec1)

/-! ## Fixing a frame start (R90, R102 to R104, R132) -/

/-- The settings that a frame with arming point `arm` takes (R136). -/
def settingsAt (s : State) (arm : Nat) : RegFile :=
  ((s.commits.filter fun c => decide (c.stamp < arm)).getLast?.map (·.img)).getD s.inForce

/-- The frame target is busy with a burst that has frames still to arm (R103, R133); one whose last frame is exposing counts as well,
when the request is armed (log entry 27). -/
def frameTargetBusy (s : State) : Bool := s.expo.burst.isSome

/-- The rates of the four channels as R110 uses them: usable, and grains per µs without sign. -/
def tbRates (s : State) : List (Bool × Rat) :=
  (List.range 4).map fun n =>
    let st := s.cstate n
    let v := s.rateOf n * 65536
    let v := if v < 0 then -v else v
    ((st == csTrack || st == csCoast) && decide (1 ≤ v), v)

/-- A frame start that is dropped (R101, R103, R104): it counts once in SKIPPED, whatever its burst's length (log entry 85). -/
def dropReq (s : State) (r : FrameReq) : State :=
  let s : State := { s with expo := { s.expo with skips := s.expo.skips + 1 } }
  if r.trig = 1 then s.bump Reg.EV_STAT_DROPPED 1 r.slot else s.bump Reg.TB_DROPTOT_DROPTOT

/-- A frame start becomes fixed (R90, R102, R103, R132): a pin or rig trigger has no effect in STANDBY; all are counted while
FREERUN is 1; while a burst runs one is held and the others, or a strict one, are dropped. What is left is armed by
ARMING_POINT (log entry 27). -/
def fixFrame (s : State) (r : FrameReq) : State :=
  if s.dev ≠ .run ∧ r.trig ≠ 1 then s
  else if (s.settingsAt r.armAt).flag Reg.EX_MODE_FREERUN then s.bump Reg.EX_STAT_IGNCNT
  else if s.frameTargetBusy && (r.strict || !s.reqs.isEmpty) then s.dropReq r
  else { s with reqs := s.reqs ++ [r] }

/-! ## Commit (R83, R85) -/

/-- Slot `n` commits with scheduled time `ts` (R83, R85, R88, R96, R102). -/
def slotCommit (s : State) (n ts : Nat) : State :=
  let x := s.slot n
  let late := decide (ts < s.now + 1000)
  let te := if late then s.now + 1000 else ts
  let s := s.setSlot n fun x => { x with ts := ts, te := te, commitAt := s.now }
  let s : State := (s.set Reg.EV_STAT_SSTATE ssCommitted n).set Reg.EV_TIME_TE te n
  let s : State := if late then (s.set Reg.EV_LATE_LATE (min (te - ts) (2 ^ 32 - 1)) n).bump Reg.EV_SUM_LATECMT else s
  if x.action = 1 then
    let v := s.rateOf x.ch
    let nominal := if x.repeats ∧ v ≠ 0 then
        some (((x.step.natAbs : Rat) * 1000 / (65536 * (if v < 0 then -v else v))).floor.toNat) else none
    let s := s.fixFrame
      { trig := 1, slot := n, ts := ts, fixedAt := s.now, armAt := min s.now (ts - 50000)
        entry := if x.repeats then min x.k 15 else x.arg % 16, strict := x.strict, rep := x.repeats, nominal := nominal
        ch := x.ch, p := x.p, rates := s.tbRates }
    if x.rigbc && s.flag Reg.TB_RIG_MASTER && s.rigUp then
      let (s, a) := s.nextAlive 4
      s.rigQueueOut ⟨4, a, s.get Reg.TB_RIG_HOP, te, 0, []⟩
    else s
  else s

/-- A START_FRAME slot that is to execute in the cycle `t`, other than `n` (R88). -/
def frameAt (s : State) (n t : Nat) : Bool :=
  (List.range 64).any fun m => m != n && s.sstate m == ssCommitted && (s.slot m).action == 1 && (s.slot m).te == t

/-- A crossing of P in the slot's direction between differences `a` and `b` (R82); a jump of half the range is none (log entry 18). -/
def crossed (modulus dir : Nat) (a b : Int) : Bool :=
  let half : Nat := if modulus = 0 then 2 ^ 47 else modulus * 65536 / 2
  decide ((b - a).natAbs < half) &&
    ((dir != 1 && decide (a < 0) && decide (0 ≤ b)) || (dir != 0 && decide (0 < a) && decide (b ≤ 0)))

/-- The scheduler's look at slot `n` after an update (R82, R83, R85) (log entry 18). -/
def scheduleSlot (s : State) (n : Nat) : State :=
  let x := s.slot n
  let st := s.cstate x.ch
  if s.sstate n ≠ ssArmed then s
  else if st ≠ csTrack ∧ st ≠ csCoast then s.setSlot n fun x => { x with prev := none }
  else
    let d := s.slotDiff x s.now
    let s := s.setSlot n fun x => { x with prev := some d, prevAt := s.now }
    let hit : Bool := match x.prev with
      | some a => crossed (s.modulus x.ch) x.dir a d
      | none => false
    if hit then
      let a := (x.prev.getD 0).natAbs
      let tc := s.now - (s.now - x.prevAt) * d.natAbs / max 1 (a + d.natAbs)
      s.slotCommit n (tc + x.delay)
    else
      let q := s.rateOf x.ch * 65536
      let v := if q < 0 then -q else q
      let ahead := (decide (0 < q) && decide (d < 0) && x.dir != 1) || (decide (q < 0) && decide (0 < d) && x.dir != 0)
      if v < 1 || !ahead then s
      else
        let ts := s.now + (((d.natAbs * 1000 : Nat) : Rat) / v).floor.toNat + x.delay
        if ts ≤ s.now + 1000 * s.get Reg.TB_SCHED_LEAD then s.slotCommit n ts else s

/-- Recovery from LOST (R89): an armed repeat slot steps on until P lies ahead, each step counted in MISSED. It comes with
the first TRACK after LOST, when the position is known again (log entry 74). -/
def recoverSlot (s : State) (ch n : Nat) : State :=
  let x := s.slot n
  if s.sstate n ≠ ssArmed ∨ x.ch ≠ ch ∨ !x.repeats ∨ x.step = 0 then s
  else
    let d := s.slotDiff x s.now
    let k : Nat :=
      if 0 < x.step ∧ x.dir ≠ 1 ∧ 0 ≤ d then (d / x.step).toNat + 1
      else if x.step < 0 ∧ x.dir ≠ 0 ∧ d ≤ 0 then ((-d) / (-x.step)).toNat + 1
      else 0
    (s.setSlot n fun x => { x with p := wrapGrains (s.modulus ch) (x.p + k * x.step), prev := none }).bump
      Reg.EV_STAT_MISSED k n

end State

/-- Channel `n` tracks again after LOST: its slots recover (R89). -/
def State.recoverChannel (s : State) (n : Nat) : State :=
  if (s.tb n).lost ∧ s.cstate n = csTrack then
    (List.range 64).foldl (fun s m => s.recoverSlot n m) (s.setTb n fun c => { c with lost := false })
  else s

/-- TB_CFG_WRITE (R25, R27, R60): `v` written to TB_nCFG. -/
def execTbCfgWrite (n : Nat) (v : Word) (s : State) : Outcome State Fault Refusal :=
  ok (if n < 4 then s.mainWrite (s.tbCfgStore n v).evalPins else s)

/-- SLOT_ARM (R25, R27, R81, R506): `v` written to EV_nCFG, with ARM = 1. -/
def execSlotArm (n : Nat) (v : Word) (s : State) : Outcome State Fault Refusal :=
  ok (if n < 64 then s.mainWrite (s.evCfgWritten n (v ||| 0x80000000#32)) else s)

/-- SLOT_DISARM (R25, R27, R84, R506): `v` written to EV_nCFG, with ARM = 0. -/
def execSlotDisarm (n : Nat) (v : Word) (s : State) : Outcome State Fault Refusal :=
  ok (if n < 64 then s.mainWrite (s.evCfgWritten n (v &&& 0x7FFFFFFF#32)) else s)

/-- NONE (Table 3-4, R104). -/
def execActNone (n : Nat) (s : State) : Outcome State Fault Refusal :=
  ok (if s.slotDue n 0 then s.slotEnd n (s.slotStrictLate n) else s)

/-- GAL_SET (Table 3-4, R88, R103, R104). -/
def execGalSet (n : Nat) (s : State) : Outcome State Fault Refusal :=
  if !s.slotDue n 6 then ok s
  else if s.slotStrictLate n then ok (s.slotEnd n true)
  else
    let p := (s.slot n).pin
    ok (if s.collides n (0x200 + p) then s.slotBusy n true
      else if s.pinBusy p || s.pendingOn n State.slotResource (0x200 + p) then s.slotBusy n false
      else s.galSet n (s.slotLate n))

/-- GAL_PULSE (Table 3-4, R88, R103, R104). -/
def execGalPulse (n : Nat) (s : State) : Outcome State Fault Refusal :=
  if !s.slotDue n 7 then ok s
  else if s.slotStrictLate n then ok (s.slotEnd n true)
  else
    let p := (s.slot n).pin
    ok (if s.collides n (0x200 + p) then s.slotBusy n true
      else if s.pinBusy p || s.pendingOn n State.slotResource (0x200 + p) then s.slotBusy n false
      else s.galPulse n (s.slotLate n))

/-- GAL_PULSE_END (Table 3-4): the width has passed, the pin goes to the opposite level, and is
let go where nothing else uses it (log entry 41). -/
def execGalPulseEnd (p : Nat) (s : State) : Outcome State Fault Refusal :=
  match s.gal.pulseEnd.getD p none with
  | none => ok s
  | some t =>
    ok (if t ≤ s.now then
      let l := (s.gal.out.getD p none).getD false
      let s : State := { s with gal := { s.gal with pulseEnd := s.gal.pulseEnd.set p none } }
      (s.drivePin 5 p (!l)).evalPins
    else s)

/-- LATCH (R93, R104). -/
def execLatch (n : Nat) (s : State) : Outcome State Fault Refusal :=
  if !s.slotDue n 9 then ok s
  else if s.slotStrictLate n then ok (s.slotEnd n true)
  else ok ((s.latchNow (s.slot n).te).slotDone n (s.slotLate n) false)

/-- TRIGGER_EDGE (R95): the level of TB_TRIG.PIN changes and qualification begins on an edge of the selected kind. -/
def execTriggerEdge (level : Bool) (s : State) : Outcome State Fault Refusal :=
  let e := s.get Reg.TB_TRIG_EDGE
  let wanted := e == 2 || (if level then e != 1 else e == 1)
  let on := s.flag Reg.TB_TRIG_EN && s.pinOwner (s.get Reg.TB_TRIG_PIN) == 2
  ok (if level = s.trig.level then s else { s with trig := ⟨level, s.now, wanted && on, s.tbRates⟩ })

/-- TRIGGER_QUALIFY (R95, R90, R103): the pin has held its level for MINW × 10 ns; the frame is scheduled 100 ns later. A
trigger that finds one already held is dropped. -/
def execTriggerQualify (s : State) : Outcome State Fault Refusal :=
  let q := s.trig.edgeAt + 10 * s.get Reg.TB_TRIG_MINW
  if !s.trig.waiting || decide (s.now < q) then ok s
  else
    let s : State := { s with trig := { s.trig with waiting := false } }
    ok (s.fixFrame
      { trig := 2, slot := 255, ts := q + 100, fixedAt := q, armAt := min q (q + 100 - 50000), entry := 0
        strict := s.flag Reg.TB_TRIG_STRICT, rep := false, nominal := none, rates := s.trig.rates })

/-- RIG_FRAMEBC_RECEIVE (R96, R312, R334): forwarded, and with RIGSYNC it schedules a frame at the same te. -/
def execRigFramebcReceive (alive hop te : Nat) (s : State) : Outcome State Fault Refusal :=
  if !s.rigUp then ok s
  else
    let s := s.ce1 (State.rigBody 4 alive hop (leBytes 8 te))
    match s.rigAlive 4 hop alive with
    | none => ok (s.bump Reg.PK_ALV_REPCNT)
    | some s =>
      let s : State := (s.rigHeard 0).rigQueueOut ⟨4, alive, hop, te, 0, []⟩
      ok (if s.flag Reg.TB_TRIG_RIGSYNC then s.fixFrame
        { trig := 3, slot := 255, ts := te, fixedAt := s.now, armAt := min s.now (te - 50000), entry := 0
          strict := s.flag Reg.TB_TRIG_STRICT, rep := false, nominal := none, rates := s.tbRates }
      else s)

end Sys2Proof.Machine
end

