-- ==== Sys2Proof/Machine/Filter.lean ====
section
/-! DEFINITION. The filter engine: rank filter, CIC, FIR, output, angles, the lens state and the detectors
(13_filter_engine.md R361 to R379), and what the timebase does with its outputs (03_timebase_and_events.md R66 to R72). Outputs that have
become available by the present instant reach their consumers before anything else is done with the engine. -/
namespace Sys2Proof.Machine

open Host (Outcome)

/-- Integer square root, bit by bit from bit `n`. -/
def isqrtFrom (v : Nat) : Nat → Nat → Nat
  | 0, r => if (r + 1) * (r + 1) ≤ v then r + 1 else r
  | n + 1, r => let q := r + 2 ^ (n + 1); isqrtFrom v n (if q * q ≤ v then q else r)

/-- Integer square root of a number below 2^128. -/
def isqrt (v : Nat) : Nat := isqrtFrom v 63 0

/-- `x` wrapped to 48-bit two's complement (R364). -/
def wrap48 (x : Int) : Int := sext 48 (scode 48 x)

/-- `x` saturated to 32-bit two's complement. -/
def sat32 (x : Int) : Int := clampI (-2147483648) 2147483647 x

/-- atan(2^-i) in 1/2^64 revolution, for the CORDIC of R374. -/
def atanTable : List Nat :=
  [2305843009213693952, 1361218612134873190, 719230530580881038, 365092647525521947,
   183254791493294829, 91716730292036216, 45869556482713130, 22936177926750895,
   11468263948075831, 5734153847876408, 2867079658191483, 1433540170878135] ++
  [716770128161890, 358385069421298, 179192535378193, 89596267772540,
   44798133896700, 22399066949654, 11199533474990, 5599766737515,
   2799883368760, 1399941684380, 699970842190, 349985421095] ++
  [174992710548, 87496355274, 43748177637, 21874088818,
   10937044409, 5468522205, 2734261102, 1367130551,
   683565276, 341782638, 170891319, 85445659] ++
  [42722830, 21361415, 10680707, 5340354,
   2670177, 1335088, 667544, 333772,
   166886, 83443, 41722, 20861]

/-- Vectoring of (c, s) with c ≥ 0 to the axis: the angle in 1/2^64 revolution (R374). -/
def cordic (ts : List Nat) (i : Nat) (c s a : Int) : Int :=
  match ts with
  | [] => a
  | t :: rest =>
    if 0 ≤ s then cordic rest (i + 1) (c + s / 2 ^ i) (s - c / 2 ^ i) (a + t)
    else cordic rest (i + 1) (c - s / 2 ^ i) (s + c / 2 ^ i) (a - t)

/-- atan2(s, c) as U0.32 revolution, rounded down (R374). -/
def atan2Rev (s c : Int) : Nat :=
  if s = 0 ∧ c = 0 then 0
  else
    let (c', s', base) : Int × Int × Int := if c < 0 then (-c, -s, (2 : Int) ^ 63) else (c, s, 0)
    let a := cordic atanTable 0 (c' * 2 ^ 40) (s' * 2 ^ 40) base
    scode 32 (a / 2 ^ 32)

/-- The base-2 logarithm of `v`, rounded up. -/
def clog2 (v : Nat) : Nat := ((List.range 64).find? fun b => decide (v ≤ 2 ^ b)).getD 64

/-- Insertion into an ascending list. -/
def insertAsc (x : Int) : List Int → List Int
  | [] => [x]
  | y :: ys => if x ≤ y then x :: y :: ys else y :: insertAsc x ys

/-- A list in ascending order. -/
def sortAsc (l : List Int) : List Int := l.foldr insertAsc []

namespace State

/-- Filter channel `n`. -/
def filt (s : State) (n : Nat) : FiltCh := s.flt.ch.getD n (FiltCh.reset 0 0)

/-- Filter channel `n` changed through `f`. -/
def setFilt (s : State) (n : Nat) (f : FiltCh → FiltCh) : State :=
  { s with flt := { s.flt with ch := listModify s.flt.ch n f } }

/-- Rank taps T, 1 when the filter is off (R363, R369). -/
def filtTaps (s : State) (n : Nat) : Nat :=
  match s.get Reg.FE_FC_CFG_RANKT n with
  | 0 => 1
  | k => 2 * k + 1

/-- CIC order N (R364). -/
def filtOrder (s : State) (n : Nat) : Nat := s.get Reg.FE_FC_CFG_ORDM1 n + 1

/-- Decimation ratio R (R364). -/
def filtRatio (s : State) (n : Nat) : Nat := clampN 4 256 (s.get Reg.FE_FC_DEC_RATIO n)

/-- FIR length L in force, 0 where it is bypassed (R365). -/
def filtLen (s : State) (n : Nat) : Nat :=
  let l := min 64 (s.get Reg.FE_FC_DEC_FIRL n)
  if 1024 < s.get Reg.FE_FC_DEC_BASE n + l then 0 else l

/-- Outputs of the settling count (R372). -/
def filtSettle (s : State) (n : Nat) : Nat :=
  let t := ceilDiv (s.filtTaps n - 1) (s.filtRatio n)
  if s.flag Reg.FE_FC_CFG_SCS n then t else s.filtOrder n + max (s.filtLen n) 1 - 2 + t

/-- Synchronising reset of channel `n` at `t` (R372): what is latched, and what has left the chain, stays; its detectors read 0. -/
def filtReset (s : State) (n t : Nat) : State :=
  let c := s.filt n
  let s := s.setFilt n fun _ => { FiltCh.reset t (s.filtSettle n) with
    inQ := c.inQ, nextRound := c.nextRound, outQ := c.outQ, upd := c.upd, out := c.out, since := c.since }
  ((s.set Reg.FE_FC_PK_VALUE 0 n).set Reg.FE_FC_ENV_VALUE 0 n).set Reg.FE_FC_RMS_VALUE 0 n

/-- D × Tin of channel `n` for a mean input interval of `num / den` ns, rounded to 1 ns (R369, R370). -/
def filtDelay (s : State) (n num den : Nat) : Nat :=
  let t := s.filtTaps n
  let r := s.filtRatio n
  -- D in 1/512 input samples
  let d := if s.flag Reg.FE_FC_CFG_SCS n then 256 * (t - 1) + 256 * (r - 1)
    else
      let f := if s.filtLen n = 0 then 0
        else if s.flag Reg.FE_FC_CFG_GDOVR n then 2 * s.get Reg.FE_FC_GD_FIRGD n
        else 256 * (s.filtLen n - 1)
      256 * (t - 1) + 256 * s.filtOrder n * (r - 1) + r * f
  (2 * d * num + 512 * den) / (2 * 512 * den)

/-- Sense unit `u` is FAILED (Table 12-2). -/
def senseFailed (s : State) (u : Nat) : Bool := (s.sense.getD u SenseUnit.init).failed

/-- The channel is fed by a sense unit that is FAILED (R367). -/
def filtSrcFailed (s : State) (n : Nat) : Bool := s.senseFailed (s.get Reg.FE_FC_CFG_SRCU n)

/-- One detector sample `x` in S16.16 (R378). -/
def filtDetect (s : State) (n : Nat) (x : Int) : State :=
  let a := x.natAbs
  let decay := s.get Reg.FE_FC_DET_DECAY n
  let w := 2 ^ s.get Reg.FE_FC_DET_RMSW n
  let atk := 2 ^ s.get Reg.FE_FC_DET_ATK n
  let rel := 2 ^ s.get Reg.FE_FC_DET_REL n
  let hold := s.get Reg.FE_FC_DET_HOLD n
  let s := s.setFilt n fun c =>
    let (pk, h) := if c.pk ≤ a then (a, hold)
      else if 0 < c.hold then (c.pk, c.hold - 1)
      else (if decay = 0 then c.pk else c.pk - c.pk / 2 ^ decay, 0)
    let env := if c.env < a then c.env + (a - c.env) / atk else c.env - (c.env - a) / rel
    { c with pk := pk, hold := h, env := env, sq := c.sq + a * a, sqn := c.sqn + 1 }
  let c := s.filt n
  let s : State := (s.set Reg.FE_FC_PK_VALUE c.pk n).set Reg.FE_FC_ENV_VALUE c.env n
  if w ≤ c.sqn then
    (s.set Reg.FE_FC_RMS_VALUE (isqrt (c.sq / w)) n).setFilt n fun c => { c with sq := 0, sqn := 0 }
  else s

/-- A sense record of type 0x01 or 0x02 on the sense stream (R335, Table 11-14). -/
def senseRecord (s : State) (typ chan flags val time : Nat) : State :=
  s.sendPlain (s.get Reg.PK_CFG_SNVC) 0x42 s.lastArmed
    (leBytes 1 1 ++ leBytes 3 0 ++ leBytes 4 s.lastArmed ++ leBytes 8 time ++
      leBytes 1 typ ++ leBytes 1 chan ++ leBytes 2 flags ++ leBytes 4 val ++ leBytes 8 time)

/-- The angle of sine channel `n` and cosine channel `p`, both with an output since its last angle (R374 to R376). The CORDIC error of at
most 16 units is a free value (log entry 2). It is there at `t0`. -/
def filtAngle (s : State) (n t0 : Nat) : State :=
  let p := s.get Reg.FE_FC_CFG_PAIR n
  match (s.filt n).out, (s.filt p).out with
  | some o, some q =>
    if !(s.flag Reg.FE_FC_CFG_ANGEN n && hasBit (s.filt n).since n && hasBit (s.filt n).since p) then s
    else
      let err : Int := ((Config.freeWord s.free).toNat % 32 : Nat) - (15 : Int)
      let s : State := { s with free := s.free + 1 }
      let a := scode 32 ((atan2Rev o.y q.y : Int) + err)
      let sq := (o.y * o.y + q.y * q.y).toNat
      let mag := isqrt sq / 65536
      let t := (o.tcor + q.tcor) / 2
      let skew := decide (s.get Reg.FE_CFG_ANGTOL < (o.tcor - q.tcor).natAbs)
      let lim (m : Nat) : Nat := (65536 * m) * (65536 * m)
      let magBad := decide (sq < lim (s.get Reg.FE_FC_MLIM_MMIN n) ∨ lim (s.get Reg.FE_FC_MLIM_MMAX n) < sq)
      let valid := o.valid && q.valid && !skew && !magBad && p != n
      let s := s.setFilt n fun c => { c with since := 0 }
      let s : State := if skew then s.set Reg.FE_STAT_ANGSKEW 1 else s
      let s : State := if magBad then s.set Reg.FE_STAT_MAGERR 1 else s
      let s : State := if valid then s else s.bump Reg.FE_CNT_ANGBAD
      let s : State := (s.set Reg.FE_FC_ANG_ANG a n).set Reg.FE_FC_MAG_MAG (min mag 65535) n
      let s := s.set Reg.FE_FC_MAG_AVALID (if valid then 1 else 0) n
      let settling := o.settling || q.settling
      let s : State := if s.flag Reg.FE_FC_CFG_ASTREAM n then
          s.senseRecord 1 (64 + n) ((if valid then 1 else 0) + (if settling then 2 else 0)) a t.toNat
        else s
      s.resolverOutput n a t.toNat valid t0
  | _, _ => s

/-- Output `y` of channel `n` with the newest input's timestamp is made in the round of 32 ns that starts at `t0` (R362, R367, R370,
R372): it is available 2n + 40 + 32 × ceil(L/16) ns later. -/
def filtOutput (s : State) (n : Nat) (y : Int) (tNew tFirst t0 : Nat) : State :=
  let settling := decide (0 < (s.filt n).left)
  let dly := s.filtDelay n (tNew - tFirst) (s.filtRatio n - 1)
  let l := if s.flag Reg.FE_FC_CFG_SCS n then 0 else s.filtLen n
  let d : FiltDue := ⟨t0 + 2 * n + 40 + 32 * ceilDiv l 16, ⟨y, !settling, settling, (tNew : Int) - dly, dly⟩, tNew⟩
  s.setFilt n fun c => { c with left := c.left - 1, count := 0, sum := 0, outQ := c.outQ ++ [d] }

/-- The output `d` of channel `n` reaches its consumers (R367, R370, R371, R374, R376, R378). -/
def filtShow (s : State) (n : Nat) (d : FiltDue) : State :=
  let o := { d.out with valid := d.out.valid && !s.filtSrcFailed n && !s.flt.failed }
  let s := s.setFilt n fun c => { c with upd := (c.upd + 1) % 256, out := some o }
  let s : State := { s with flt := { s.flt with ch := s.flt.ch.map fun (c : FiltCh) => { c with since := withBit c.since n } } }
  let s : State := (s.setS Reg.FE_FC_OUT_VALUE o.y n).set Reg.FE_FC_DLY_DLY o.dly n
  let s : State := if s.flag Reg.FE_FC_CFG_DSRC n then s else s.filtDetect n o.y
  let s : State := if s.flag Reg.FE_FC_CFG_STREAM n then
      s.senseRecord 1 n ((if o.valid then 1 else 0) + (if o.settling then 2 else 0)) (scode 32 o.y) d.tNew
    else s
  -- a resolver channel whose FCH has no angle gets an invalid measurement (R376)
  let s : State := if s.flag Reg.FE_FC_CFG_ANGEN n then s else s.resolverOutput n 0 o.tcor.toNat false d.ready
  let s := s.filtAngle n d.ready
  (List.range 16).foldl (fun s m => if m ≠ n ∧ s.get Reg.FE_FC_CFG_PAIR m = n then s.filtAngle m d.ready else s) s

/-- The channel whose output is available next, by now, with that output: the lower one of two. -/
def filtNext (s : State) : Option (Nat × FiltDue) :=
  (List.range 16).foldl (fun (best : Option (Nat × FiltDue)) n => match (s.filt n).outQ, best with
    | d :: _, none => if d.ready ≤ s.now then some (n, d) else none
    | d :: _, some b => if d.ready < b.2.ready then some (n, d) else some b
    | [], _ => best) none

/-- Every output that is available by now reaches its consumers, `fuel` at most. -/
def filtRunN (s : State) : Nat → State
  | 0 => s
  | fuel + 1 => match s.filtNext with
    | none => s
    | some (n, d) => filtRunN ((s.setFilt n fun c => { c with outQ := c.outQ.tail }).filtShow n d) fuel

/-- The engine brought up to the present instant (R362). -/
def filtRun (s : State) : State :=
  if s.running && !s.flt.failed then s.filtRunN (s.flt.ch.map (·.outQ.length)).sum else s

/-- Sense unit `u` is FAILED: no output that it feeds, and no angle of such outputs, is VALID any more (R367, R379, Table 12-2). -/
def filtUnfed (s : State) (u : Nat) : State :=
  (List.range 16).foldl (fun s n =>
    let fed (m : Nat) : Bool := s.get Reg.FE_FC_CFG_SRCU m == u
    let s : State := if fed n then s.setFilt n fun c => { c with out := c.out.map fun (o : FiltOut) => { o with valid := false } } else s
    if fed n || fed (s.get Reg.FE_FC_CFG_PAIR n) then s.set Reg.FE_FC_MAG_AVALID 0 n else s) s

/-- The FIR of channel `n` over its delay line (R365). -/
def filtFir (s : State) (n : Nat) (line : List Int) : Int :=
  let l := s.filtLen n
  let base := s.get Reg.FE_FC_DEC_BASE n
  let sum := (List.range l).foldl (fun (acc : Int) i =>
    acc + s.getS Reg.FE_COEF_H (base + i) * line.getD i 0) 0
  sat32 (roundDiv sum 65536)

/-- One input of channel `n` through rank filter, CIC and FIR, or the group mean, in the round that starts at `t0` (R363 to R366) (log
entry 29). -/
def filtProcess (s : State) (n : Nat) (v : Int) (t t0 : Nat) : State :=
  let taps := s.filtTaps n
  let hist := (v :: (s.filt n).hist).take taps
  let sorted := sortAsc (hist ++ List.replicate (taps - hist.length) 0)
  let rsel := s.get Reg.FE_FC_CFG_RSEL n
  let x := sorted.getD (if taps ≤ rsel then (taps - 1) / 2 else rsel) 0
  let x := if taps = 1 then v else x
  let s := s.setFilt n fun c => { c with hist := hist, tFirst := if c.count = 0 then t else c.tFirst, count := c.count + 1 }
  let s : State := if s.flag Reg.FE_FC_CFG_DSRC n then s.filtDetect n (x * 65536) else s
  let r := s.filtRatio n
  let ord := s.filtOrder n
  let c := s.filt n
  if s.flag Reg.FE_FC_CFG_SCS n then
    let sum := c.sum + x
    let s := s.setFilt n fun c => { c with sum := sum }
    if c.count < r then s else s.filtOutput n (sat32 (roundDiv (sum * 65536) r)) t c.tFirst t0
  else
    let integ := ((c.integ.take ord).foldl (fun (acc : List Int × Int) i =>
      let v := wrap48 (i + acc.2); (acc.1 ++ [v], v)) ([], x)).1
    let s := s.setFilt n fun c => { c with integ := integ ++ c.integ.drop ord }
    if c.count < r then s
    else
      let (comb, y) := (c.comb.take ord).foldl (fun (acc : List Int × Int) d =>
        (acc.1 ++ [acc.2], wrap48 (acc.2 - d))) ([], integ.getLast?.getD 0)
      let s := s.setFilt n fun c => { c with comb := comb ++ c.comb.drop ord }
      let b := clog2 (r ^ ord)
      let norm := roundDiv ((2 : Int) ^ (17 + b)) (r ^ ord)
      let y := y * norm / 2 ^ (b + 1)
      let line := (y :: c.fir).take 64
      let s := s.setFilt n fun c => { c with fir := line }
      let l := s.filtLen n
      let s : State := if l = 0 ∧ s.get Reg.FE_FC_DEC_FIRL n ≠ 0 then s.set Reg.FE_STAT_COEFRNG 1 else s
      s.filtOutput n (if l = 0 then sat32 y else s.filtFir n line) t c.tFirst t0

/-- A sense result `v` stamped `t` reaches every channel that takes its entry (R361). -/
def filtLatch (s : State) (unit : Nat) (inj : Bool) (entry : Nat) (v : Int) (t : Nat) : State :=
  (List.range 16).foldl (fun s n =>
    if s.flag Reg.FE_FC_CFG_EN n && s.get Reg.FE_FC_CFG_SRCU n == unit && s.flag Reg.FE_FC_CFG_SRCINJ n == inj &&
        s.get Reg.FE_FC_CFG_SRCENT n == entry && !s.flt.failed then
      s.setFilt n fun c => { c with inQ := c.inQ ++ [(v, t, s.now)] }
    else s) s

/-- Zoom or focus at `t`: value and validity (R377). -/
def lensPart (s : State) (en ch hi lo : Nat) (t : Nat) : Nat × Bool :=
  if en = 0 then (0, true)
  else match (s.filt ch).out with
    | none => (0, false)
    | some o =>
      let h := sext 16 hi
      let l := sext 16 lo
      if h = l then (0, false)
      else
        let num := o.y - l * 65536
        let q := if h < l then roundDiv (-num) (l - h).toNat else roundDiv num (h - l).toNat
        ((clampI 0 65535 q).toNat,
          o.valid && !s.flt.failed && s.running && decide ((t : Int) - o.tcor ≤ 1000 * s.get Reg.FE_LCFG_LSAGE))

/-- The zoom part at `t`. -/
def zoomAt (s : State) (t : Nat) : Nat × Bool :=
  s.lensPart (s.get Reg.FE_LCFG_ZEN) (s.get Reg.FE_LCFG_ZCH) (s.get Reg.FE_LZMAP_HI) (s.get Reg.FE_LZMAP_LO) t

/-- The focus part at `t`. -/
def focusAt (s : State) (t : Nat) : Nat × Bool :=
  s.lensPart (s.get Reg.FE_LCFG_FEN) (s.get Reg.FE_LCFG_FCH) (s.get Reg.FE_LFMAP_HI) (s.get Reg.FE_LFMAP_LO) t

/-- A lens map whose HI equals LO is in use: LSCFG (R377). -/
def lensCheck (s : State) : State :=
  let bad (en hi lo : Nat) : Bool := en == 1 && hi == lo
  if bad (s.get Reg.FE_LCFG_ZEN) (s.get Reg.FE_LZMAP_HI) (s.get Reg.FE_LZMAP_LO) ||
      bad (s.get Reg.FE_LCFG_FEN) (s.get Reg.FE_LFMAP_HI) (s.get Reg.FE_LFMAP_LO) then s.set Reg.FE_STAT_LSCFG 1 else s

/-- FE_STAT and FE_LSTATE as they stand now (R377). -/
def lensRefresh (s : State) : State :=
  let s := s.filtRun.lensCheck
  let z := s.zoomAt s.now
  let f := s.focusAt s.now
  let b (c : Bool) : Nat := if c then 1 else 0
  ((s.set Reg.FE_STAT_ZVALID (b (z.2 && s.running))).set Reg.FE_STAT_FVALID (b (f.2 && s.running))).set
    Reg.FE_LSTATE_ZQ z.1 |>.set Reg.FE_LSTATE_FQ f.1

/-- A read of FE_FCnOUT captures FE_FCnSTAT and FE_FCnTCOR. -/
def filtOutRead (s : State) (n : Nat) : State × Word :=
  let s := s.filtRun
  let c := s.filt n
  let b (f : FiltOut → Bool) : Nat := match c.out with
    | some o => if f o then 1 else 0
    | none => 0
  let s : State := (s.set Reg.FE_FC_STAT_UPD c.upd n).set Reg.FE_FC_STAT_VALID (b (·.valid)) n
  let s : State := (s.set Reg.FE_FC_STAT_SETTLING (b (·.settling)) n).set Reg.FE_FC_STAT_NLEFT c.left n
  let s : State := match c.out with
    | some o => s.set Reg.FE_FC_TCOR_T (scode 32 o.tcor) n
    | none => s
  (s, s.regs.word (0x0B0110 + 0x20 * n))

/-- FE_FCnCFG or FE_FCnDEC of channel `n` has been written (R361, R365, R372). -/
def filtCfgWritten (s : State) (n : Nat) : State :=
  let s : State := if s.flag Reg.FE_FC_CFG_SRCINJ n && decide (3 < s.get Reg.FE_FC_CFG_SRCENT n) then
      s.set Reg.FE_STAT_CFGERR 1 else s
  let s : State := if s.filtLen n = 0 ∧ s.get Reg.FE_FC_DEC_FIRL n ≠ 0 then s.set Reg.FE_STAT_COEFRNG 1 else s
  s.filtReset n s.now

/-- Start of the round of channel `n` that runs at the present instant (R362). -/
def filtRound (s : State) (n : Nat) : Nat := (s.now - 2 * n) / 32

end State

/-- FILTER_INPUT (R362, R373): the oldest latched input of channel `n` is processed in the channel's cycle of the round after that of
the latch, one input in each round; one older than the last reset is discarded (log entry 29). -/
def execFilterInput (n : Nat) (s : State) : Outcome State Fault Refusal :=
  if !s.running || s.flt.failed then ok s
  else match (s.filt n).inQ with
    | [] => ok s
    | (v, t, at') :: rest =>
      let k := s.filtRound n
      if s.now < 32 * max (at' / 32 + 1) (s.filt n).nextRound + 2 * n then ok s
      else
        let s := s.filtRun.setFilt n fun c => { c with inQ := rest, nextRound := k + 1 }
        if !s.flag Reg.FE_FC_CFG_EN n then ok s
        else if t < (s.filt n).resetAt then ok ((s.set Reg.FE_STAT_STALEIN 1).bump Reg.FE_CNT_STALECNT)
        else ok (s.filtProcess n v t (32 * k))

/-- FILTER_CONFIG_WRITE (R25, R27, R372): `v` written to FE_FCnCFG, or to FE_FCnDEC where `dec`. -/
def execFilterConfigWrite (n : Nat) (dec : Bool) (v : Word) (s : State) : Outcome State Fault Refusal :=
  ok (if n < 16 then
    s.mainWrite ((s.filtRun.regStore ((if dec then 0x0B0104 else 0x0B0100) + 0x20 * n) v).filtCfgWritten n) else s)

/-- FILTER_OUTPUT_READ (R26, R370). -/
def execFilterOutputRead (n : Nat) (s : State) : Outcome State Fault Refusal :=
  ok (if n < 16 then s.mainRead (s.filtOutRead n) else s)

/-- FILTER_RESET (R86, R104, R372, Table 3-4): the te of a due slot that names one channel, or all. -/
def execFilterReset (n : Nat) (s : State) : Outcome State Fault Refusal :=
  if !s.slotDue n 8 then ok s
  else if s.slotStrictLate n then ok (s.slotEnd n true)
  else
    let x := s.slot n
    let all := hasBit x.arg 7
    let r := if all then 0x3FF else 0x300 + x.arg % 16
    if s.collides n r then ok (s.slotBusy n true)
    else if s.pendingOn n State.slotResource r then ok (s.slotBusy n false)
    else
      let s := s.filtRun
      let s : State := if all then (List.range 16).foldl (fun s c => s.filtReset c x.te) s else s.filtReset (x.arg % 16) x.te
      ok ((s.claim r).slotDone n (s.slotLate n) false)

/-- TB_UPDATE (R66, R72, R74, R82 to R85, R89): in each µs of device time, at its beginning, the channels take their
measurements and advance, and then the slots are scheduled in ascending order. The rate trim can pass over the first
nanosecond (R78). -/
def execTbUpdate (s : State) : Outcome State Fault Refusal :=
  if !s.running || decide (1 < s.now % 1000) || s.lastUpdate.any (fun t => t / 1000 == s.now / 1000) then ok s
  else
    let s : State := { s.filtRun with lastUpdate := some s.now }
    let s : State := (List.range 4).foldl (fun s n => (s.updateChannel n).recoverChannel n) s
    ok ((List.range 64).foldl State.scheduleSlot s)

/-- COAST_TIMEOUT (Table 3-3, R70, R71): an accepted input that waits for its update comes before it. -/
def execCoastTimeout (n : Nat) (s : State) : Outcome State Fault Refusal := ok (if n < 4 then s.filtRun.beforeInput n s.now else s)

/-- RESOLVER_OUTPUT_TIMEOUT (R72): the measurement counts as missing; an output in the cycle of the timeout wins (R70) (log entry
72). -/
def execResolverOutputTimeout (n : Nat) (s : State) : Outcome State Fault Refusal :=
  let s := s.filtRun
  let c := s.tb n
  let due : Bool := match c.lastOut, c.interval with
    | some l, some d => decide (2 * d < s.now - l)
    | some l, none => decide (s.get Reg.TB_TO_COASTMAX n * 1000 < s.now - l)
    | none, _ => decide (s.get Reg.TB_TO_COASTMAX n * 1000 < s.now - c.lockAt)
  ok (if n < 4 ∧ s.get Reg.TB_CFG_SRC n = 3 ∧ due then s.toCoast n else s)

end Sys2Proof.Machine
end

