-- ==== Sys2Proof/Machine/Sense.lean ====
section
/-! DEFINITION. The sense unit: slices, sequences and triggers, results, comparators, zero calibration
(12_sense_unit.md R338 to R360). Sampling instants are kept in 1/6 ns, in which every spacing of R340 and R344 is whole;
conversions that have begun by the present instant are entered in `flight` before anything else is done to a unit. -/
namespace Sys2Proof.Machine

open Host (Outcome)

/-- A sequence has begun all its conversions. -/
def SeqRun.spent (r : SeqRun) : Bool := decide (r.cfgs.length ≤ r.entry)

/-- A sequence accepted at `t` that starts `dly` × 10 ns later (R347). -/
def SeqRun.accept (t dly : Nat) (follows : Bool) : SeqRun := ⟨t, follows, t + 10 * dly, false, [], 0, 0, false, false, 0⟩

/-- A sequence that starts at `t` with its settings. -/
def SeqRun.begin (t : Nat) (cfgs : List Word) : SeqRun := ⟨t, false, t, true, cfgs, 0, 0, false, false, 0⟩

/-- The last `n` conversions in flight of one kind are discarded; the latest stand first. -/
def killLast (inj : Bool) : Nat → List SConv → List SConv
  | _, [] => []
  | 0, cs => cs
  | n + 1, c :: cs =>
    if c.inj == inj && !c.zero && !c.dead then { c with dead := true } :: killLast inj n cs else c :: killLast inj (n + 1) cs

/-- The conversions in flight that a partial entry of `n` conversions has begun are discarded (R349, Table 12-2). -/
def killPart (inj : Bool) (n : Nat) (fl : List SConv) : List SConv := (killLast inj n fl.reverse).reverse

/-- An entry's conversions with nothing in them. -/
def SAcc.zero : SAcc := ⟨0, 0, 0, false⟩

/-- One corrected code (× 10^8) with its sampling instant added. -/
def SAcc.add (a : SAcc) (v : Int) (t6 : Nat) (clip : Bool) : SAcc := ⟨a.n + 1, a.sum + v, a.t6 + t6, a.clip || clip⟩

namespace State

/-- Sense unit `u`. -/
def su (s : State) (u : Nat) : SenseUnit := s.sense.getD u SenseUnit.init

/-- Sense unit `u` changed through `f`. -/
def setSu (s : State) (u : Nat) (f : SenseUnit → SenseUnit) : State := { s with sense := listModify s.sense u f }

/-- SA1 is in state SLAVE: SA0 was enabled with PAIR (R344). -/
def senseSlave (s : State) (u : Nat) : Bool := u == 1 && (s.su 0).on && (s.su 0).pair

/-- Working slices of unit `u`: those not marked in SLFAIL. -/
def slicesUp (s : State) (u : Nat) : Nat := 5 - (bitsOf 5 (s.get Reg.SA_STAT_SLFAIL u)).length

/-- Unit `u` has a spare slice (R342, R343). -/
def hasSpare (s : State) (u : Nat) : Bool := s.slicesUp u == 5

/-- Spacing of one unit's conversions in 1/6 ns (R340). -/
def unitSpacing (s : State) (u : Nat) : Nat := 3000 / max 1 (s.su u).rot.length

/-- Spacing of unit `u`'s conversions, or of the pair's (R340, R344). -/
def spacing6 (s : State) (u : Nat) : Nat :=
  if (s.su u).pair then max (s.unitSpacing 0) (s.unitSpacing 1) / 2 else s.unitSpacing u

/-- SA_STAT.USTATE, PENDING and SLICES of unit `u` as it stands. -/
def senseShow (s : State) (u : Nat) : State :=
  let x := s.su u
  let st := if x.failed then 5
    else if s.senseSlave u then 4
    else if !x.on then 0
    else if x.zero.isSome then 6
    else if x.inj.isSome then 3
    else if x.reg.isSome then 2
    else 1
  ((s.set Reg.SA_STAT_USTATE st u).set Reg.SA_STAT_PENDING (if x.pend.isSome then 1 else 0) u).set
    Reg.SA_STAT_SLICES (s.slicesUp u) u

/-- The settings of a sequence (R345): its entries' words, as many as RLEN or ILEN says. -/
def seqSettings (s : State) (u : Nat) (inj : Bool) : List Word :=
  if inj then (List.range (s.get Reg.SA_CFG_ILEN u + 1)).map fun j => s.regs.word (Reg.SA_ISEQ_AVG.addr u j)
  else (List.range (s.get Reg.SA_CFG_RLEN u + 1)).map fun k => s.regs.word (Reg.SA_RSEQ_AVG.addr u k)

/-- Conversions of an entry: 2^AVG, AVG 7 used as 6 (R345). -/
def entryCount (cfg : Word) : Nat := 2 ^ min 6 (fieldOf cfg 24 3)

/-- INSEL of an entry; reserved values convert as 27 (Table 12-1). -/
def entryInput (cfg : Word) : Nat := min 27 (fieldOf cfg 0 5)

/-- The zero offset in force for an entry, S12.4 codes (R358). -/
def zeroOffset (s : State) (cfg : Word) : Int :=
  let i := fieldOf cfg 0 5
  if i < 16 ∧ s.flag Reg.SA_ZOFS_EN i ∧ s.get Reg.SA_ZOFS_SE i = fieldOf cfg 16 1 then s.getS Reg.SA_ZOFS_OFS i else 0

/-- The spare of unit `u` takes the place of the slice longest in service, at the first conversion start at or after each whole
millisecond (R342); `t6` is that start. -/
def handOver (s : State) (u t6 : Nat) : State :=
  let x := s.su u
  match x.age with
  | [] => s
  | o :: rest =>
    if x.handMs < t6 / 6000000 ∧ s.hasSpare u then
      let spare := s.get Reg.SA_CAL_SPARE u
      let s := s.setSu u fun x => { x with
        rot := x.rot.map (fun r => if r = o then spare else r), age := rest ++ [spare], handMs := t6 / 6000000 }
      (s.set Reg.SA_CAL_SPARE o u).set Reg.SA_CAL_ROTCNT ((s.get Reg.SA_CAL_ROTCNT u + 1) % 256) u
    else s

/-- The slice of the next conversion, taken in rotation, and the state after it (R340, R342, R344). -/
def takeSlice (s : State) (u : Nat) : State × Nat × Nat :=
  let x := s.su u
  let p := if x.pair && x.turn then 1 else u
  let s := s.handOver p x.next6
  let y := s.su p
  let sl := y.rot.getD (y.pos % max 1 y.rot.length) 0
  let s := s.setSu p fun y => { y with pos := (y.pos + 1) % max 1 y.rot.length }
  (s.setSu u fun x => { x with turn := !x.turn }, p, sl)

/-- A regular entry that has begun some but not all of its conversions is interrupted (R349). -/
def interruptRegular (s : State) (u : Nat) : State :=
  match (s.su u).reg with
  | none => s
  | some r =>
    if r.idx = 0 ∨ r.spent then s
    else
      let s := s.setSu u fun x =>
        let fl := killPart false r.idx x.flight
        { x with
          flight := fl, reg := some { r with idx := 0, redo := true }
          regAcc := if fl.any fun c => !c.inj && !c.dead then x.regAcc else SAcc.zero }
      s.bump Reg.SA_CNT_REDO 1 u

/-- The injected sequence of unit `u` starts at `start` ns (R349); `slot` where it follows a running one at the normal
spacing (R350). -/
def startInjected (s : State) (u start : Nat) (slot : Bool) : State :=
  let busy := ((s.su u).flight.filter fun c => !c.inj && !c.dead && decide (6 * start < c.at6 + 3000)).map (·.at6)
  let s := s.interruptRegular u
  let cfgs := s.seqSettings u true
  s.setSu u fun x => { x with
    inj := some (SeqRun.begin start cfgs), injAcc := if slot then x.injAcc else SAcc.zero
    next6 := if slot then max x.next6 (6 * start)
      else match busy.getLast? with
        | some a => a + 3120
        | none => 6 * start + 120 }

/-- An injected sequence of unit `u` has not begun all its conversions. -/
def injBusy (s : State) (u : Nat) : Bool := (s.su u).inj.any (!·.spent)

/-- The regular sequence of unit `u` starts (R345, R347); the spacing of an injected sequence that converts stays (R346). -/
def startRegular (s : State) (u : Nat) : State :=
  let cfgs := s.seqSettings u false
  s.setSu u fun x => match x.reg with
    | none => x
    | some r => { x with
        reg := some { r with started := true, cfgs := cfgs }, regAcc := SAcc.zero
        next6 := if x.inj.any fun i => i.started && !i.spent then x.next6 else max x.next6 (6 * r.startAt + 120) }

/-- One conversion of run `r` begins at the unit's next instant. -/
def beginConv (s : State) (u : Nat) (inj : Bool) (r : SeqRun) : State :=
  let cfg := r.cfgs.getD r.entry 0#32
  let zofs := if r.idx = 0 then s.zeroOffset cfg else r.zofs
  let (s, p, sl) := s.takeSlice u
  let s : State := if 28 ≤ fieldOf cfg 0 5 then s.set Reg.SA_STAT_CFGERR 1 u else s
  let last := decide (entryCount cfg ≤ r.idx + 1)
  let r' := if last then { r with entry := r.entry + 1, idx := 0, redo := false, zofs := zofs }
    else { r with idx := r.idx + 1, zofs := zofs }
  let sp := s.spacing6 u
  s.setSu u fun x =>
    let c : SConv := ⟨x.next6, p, sl, inj, r.entry, cfg, last, false, false, r.redo, zofs⟩
    { x with
      flight := x.flight ++ [c], last6 := x.next6, next6 := x.next6 + sp
      reg := if inj then x.reg else some r', inj := if inj then some r' else x.inj }

/-- The next step of the regular sequence of unit `u` by the present instant: a conversion, or the next start of a continuous one
(R346 to R348). -/
def regularStep (s : State) (u : Nat) : Option State :=
  let x := s.su u
  x.reg.bind fun r =>
    if !r.started || decide (6 * s.now < x.next6) || (r.follows && s.injBusy u) then none
    else if !r.spent then some (s.beginConv u false r)
    else if x.cont then
      let cfgs := s.seqSettings u false
      some (s.setSu u fun x => { x with reg := some (SeqRun.begin (ceilDiv x.next6 6) cfgs) })
    else none

/-- The next conversion of a zero calibration of unit `u` (R357). -/
def zeroStep (s : State) (u : Nat) (z : ZeroRun) : Option State :=
  if z.begun < 1024 ∧ (s.su u).next6 ≤ 6 * s.now then
    let (s, p, sl) := s.takeSlice u
    let sp := s.unitSpacing u
    some (s.setSu u fun x => { x with
      flight := x.flight ++ [⟨x.next6, p, sl, false, 0, BitVec.ofNat 32 z.chan, false, true, false, false, 0⟩]
      last6 := x.next6, next6 := x.next6 + sp, zero := some { z with begun := z.begun + 1 } })
  else none

/-- The next conversion of unit `u`, where one begins by the present instant (R344, R346 to R350, R357). -/
def senseStep (s : State) (u : Nat) : Option State :=
  let x := s.su u
  let injNow := x.inj.any fun r => r.started && !r.spent
  let due := x.pend.bind fun a =>
    let a := max a (ceilDiv x.last6 6)
    if a ≤ s.now ∧ !s.injBusy u then some a else none
  if x.failed || !x.on || s.senseSlave u then none
  else match x.zero, due with
    | some z, _ => s.zeroStep u z
    | none, some a =>
      if x.next6 < 6 * a ∧ (s.regularStep u).isSome then s.regularStep u
      else some ((s.startInjected u a true).setSu u fun x => { x with pend := none })
    | none, none =>
      if injNow then (if x.next6 ≤ 6 * s.now then x.inj.map fun r => s.beginConv u true r else none)
      else s.regularStep u

/-- Every conversion of unit `u` that has begun by now, `fuel` at most. -/
def senseRunN (s : State) (u : Nat) : Nat → State
  | 0 => s
  | n + 1 => match s.senseStep u with
    | none => s
    | some s => senseRunN s u n

/-- Unit `u` brought up to the present instant: at most 16 conversions can begin between two of its completions. -/
def senseRun (s : State) (u : Nat) : State := s.senseRunN u 32

/-- Both units brought up to the present instant: what has started has taken its settings (R345), and each conversion its zero offset
(R358). -/
def senseRunAll (s : State) : State := if s.running then (s.senseRun 0).senseRun 1 else s

/-- A zero calibration ends with a result code (R357, R358). -/
def zeroEnd (s : State) (u res : Nat) : State :=
  ((s.setSu u fun x => { x with
    zero := none, flight := x.flight.map fun c => if c.zero then { c with dead := true } else c }).set
    Reg.SA_ZSTAT_RESULT res).set Reg.SA_ZSTAT_BUSY (if (s.su (1 - u)).zero.isSome then 1 else 0)

/-- A trigger reaches unit `u` (R344, R347 to R351, R357). -/
def senseTrigger (s : State) (u : Nat) (inj : Bool) : State :=
  if s.senseSlave u then s.set Reg.SA_STAT_PAIRIGN 1 u
  else
    let s := s.senseRun u
    let x := s.su u
    if !x.on || x.failed then s
    else if inj then
      let s : State := if x.zero.isSome then s.zeroEnd u 4 else s
      (if x.pend.isSome then s.bump Reg.SA_CNT_INJDROP 1 u
      else if x.inj.isSome then s.setSu u fun x => { x with pend := some (s.now + 10 * s.get Reg.SA_TRIG_IDLY u) }
      else s.setSu u fun x => { x with
        inj := some (SeqRun.accept s.now (s.get Reg.SA_TRIG_IDLY u) false)
        reg := x.reg.map fun r => { r with follows := r.follows || (r.arrived == s.now && r.idx == 0 && r.entry == 0) } }).senseShow u
    else if x.cont then s
    else if x.zero.isSome then s.bump Reg.SA_CNT_OVRCNT 1 u
    else match x.reg with
      | some _ => (s.bump Reg.SA_CNT_OVRCNT 1 u).setSu u fun x => { x with reg := x.reg.map fun r => { r with overrun := true } }
      | none =>
        (s.setSu u fun x => { x with reg := some (SeqRun.accept s.now (s.get Reg.SA_TRIG_RDLY u) (s.injBusy u)) }).senseShow u

/-- Raw code `c` corrected by the slice's calibration and the entry's zero offset, × 10^8, saturated (R341, R358); the
local temperature of INSEL 26 is in its own format already (R339) (log entry 36). -/
def senseCorrect (s : State) (k : SConv) (c : Int) : Int :=
  if entryInput k.cfg = 26 then c * 100000000
  else
    let (ofs, gn) := (s.su k.unit).cal.getD k.slice (0, 0)
    clampI (-3276800000000) 3276700000000 ((100 * c - ofs) * (1000000 + gn) - k.zofs * 6250000)

/-- The comparator of an entry on result `v`: the next OUTSIDE state, and whether it alerts (R355). -/
def senseCompare (s : State) (u : Nat) (k : SConv) (v : Int) (outside : Bool) : State × Bool × Bool :=
  let lo := if k.inj then s.regs.sfld Reg.SA_ICMP_LO u k.entry else s.regs.sfld Reg.SA_RCMP_LO u k.entry
  let hi := if k.inj then s.regs.sfld Reg.SA_ICMP_HI u k.entry else s.regs.sfld Reg.SA_RCMP_HI u k.entry
  let hys : Int := s.get Reg.SA_HYS_HYS u
  if !hasBit k.cfg.toNat 31 then (s, false, false)
  else if hi < lo then (s.set Reg.SA_STAT_CMPERR 1 u, outside, false)
  else if outside then (s, !decide (lo + hys ≤ v ∧ v ≤ hi - hys), false)
  else
    let out := decide (v < lo ∨ hi < v)
    (s, out, out)

/-- The result of an entry is written (R352), checked (R355), sent (R354) and passed to the filter engine (R346, R361). -/
def senseResult (s : State) (u : Nat) (k : SConv) (acc : SAcc) (overrun : Bool) : State :=
  let v := roundDiv acc.sum (acc.n * 100000000)
  let t := acc.t6 / (6 * max 1 acc.n)
  let bit := if k.inj then 16 + k.entry else k.entry
  let t0 := (s.su u).times.getD bit 0
  let (s, out, alert) := s.senseCompare u k v (hasBit (s.su u).outside bit)
  let s := s.setSu u fun x => { x with
    outside := if out then withBit x.outside bit else withoutBit x.outside bit, times := x.times.set bit t }
  let b (c : Bool) : Nat := if c then 1 else 0
  let w := (s.regs.word (if k.inj then Reg.SA_INJ_VALUE.addr u k.entry else Reg.SA_RES_VALUE.addr u k.entry)).toNat
  let word := BitVec.ofNat 32 ((w / 2 ^ 24 + 1) % 256 * 2 ^ 24 + 2 ^ 23 + b acc.clip * 2 ^ 22 + b out * 2 ^ 21 +
    b k.redo * 2 ^ 20 + scode 16 v)
  let s := s.setSu u fun x => { x with was := some (bit, s.now, BitVec.ofNat 32 w, t0) }
  let s : State := { s with
    regs := s.regs.put (if k.inj then Reg.SA_INJ_VALUE.addr u k.entry else Reg.SA_RES_VALUE.addr u k.entry) word }
  let s : State := if alert then
      let a := (s.regs.word (Reg.SA_ALERT_REG.addr u 0)).toNat
      let s := s.raiseBits (Reg.SA_ALERT_REG.addr u 0) (2 ^ bit)
      if hasBit a bit then s else s.raiseIbi 2
    else s
  let s : State := if hasBit k.cfg.toNat 30 then
      s.senseRecord 2 (k.entry + (if k.inj then 16 else 0) + 128 * u) (1 + 4 * b alert + 8 * b overrun) (scode 32 v) t
    else s
  s.filtLatch u k.inj k.entry v t

/-- The conversion that completes first on unit `u` gives raw code `c` (R338, R345, R346). -/
def convDone (s : State) (u : Nat) (k : SConv) (c : Int) : State :=
  let s := s.setSu u fun x => { x with flight := x.flight.tail }
  if k.dead then s
  else
    let clip := decide (c < -32768 ∨ 32767 < c)
    let s : State := if clip then s.set Reg.SA_STAT_CLIP 1 u else s
    let c := clampI (-32768) 32767 c
    let v := s.senseCorrect k c
    if k.zero then
      s.setSu u fun x => { x with zero := x.zero.map fun z => { z with acc := z.acc.add v k.at6 clip } }
    else
      let x := s.su u
      let acc := (if k.inj then x.injAcc else x.regAcc).add v k.at6 clip
      if !k.last then s.setSu u fun x => if k.inj then { x with injAcc := acc } else { x with regAcc := acc }
      else
        let ovr : Bool := match x.reg with
          | some r => r.overrun && !k.inj
          | none => false
        let s := s.senseResult u k acc ovr
        s.setSu u fun x =>
          let x := if k.inj then { x with injAcc := SAcc.zero } else { x with regAcc := SAcc.zero }
          let more := x.flight.any fun d => d.inj == k.inj && !d.dead && !d.zero
          if k.inj then
            match x.inj with
            | some r => if r.spent && !more then { x with inj := none } else x
            | none => x
          else match x.reg with
            | some r => if r.spent && !more && !x.cont then { x with reg := none } else x
            | none => x

/-- Unit `u` stops converting (Table 12-2): conversions in progress complete, a partial entry and a pending injected trigger are
discarded. -/
def senseHalt (s : State) (u : Nat) : State :=
  let s := s.senseRun u
  let s : State := if (s.su u).zero.isSome then s.zeroEnd u 4 else s
  let part (r : Option SeqRun) : Nat := (r.map (·.idx)).getD 0
  s.setSu u fun x => { x with
    on := false, reg := none, inj := none, pend := none
    flight := killPart true (part x.inj) (killPart false (part x.reg) x.flight) }

/-- Unit `u` starts with its CONT, and PAIR on SA0 (R359, R360): a continuous unit accepts its first sequence. -/
def senseStart (s : State) (u : Nat) (pair : Bool) : State :=
  let cont := s.flag Reg.SA_CFG_CONT u
  s.setSu u fun x => { x with
    on := true, cont := cont, pair := pair, turn := false, inj := none, pend := none
    regAcc := SAcc.zero, injAcc := SAcc.zero, zero := none
    reg := if cont then some (SeqRun.accept s.now (s.get Reg.SA_TRIG_RDLY u) false) else none }

/-- EN of unit `u` takes effect as 1 (R344, R359, R360). With PAIR on SA0, SA1 stops and is its SLAVE, whose enable takes no effect before
the pair ends (log entry 90). -/
def senseApply (s : State) (u : Nat) : State :=
  if (s.su u).failed || (s.su u).on || s.senseSlave u then s
  else
    let pair := u == 0 && s.flag Reg.SA_CFG_PAIR 0
    let s : State := if pair then s.senseHalt 1 else s
    ((s.senseStart u pair).senseShow 0).senseShow 1

/-- EN of unit `u` is cleared (Table 12-2); SA1 takes up its own enable where a pair ends (log entry 90). -/
def senseOff (s : State) (u : Nat) : State :=
  let pair := u == 0 && (s.su 0).pair
  let s := s.senseHalt u
  let s : State := if pair && s.flag Reg.SA_CFG_EN 1 && !(s.su 1).failed then s.senseStart 1 false else s
  (s.senseShow 0).senseShow 1

/-- SA_CFG of unit `u` has been written with EN going from `was` to its new value (R359, R360). -/
def senseCfgWritten (s : State) (u : Nat) (was : Bool) : State :=
  let now := s.flag Reg.SA_CFG_EN u
  if !s.running then s
  else if now && !was then s.senseApply u
  else if was && !now then s.senseOff u
  else s

/-- Both units take up the written enables on entry to RUN (Table 12-2). -/
def senseEnterRun (s : State) : State :=
  let s : State := if s.flag Reg.SA_CFG_EN 0 then s.senseApply 0 else s
  let s : State := if s.flag Reg.SA_CFG_EN 1 then s.senseApply 1 else s
  (s.senseShow 0).senseShow 1

/-- A calibration of slice `sl` of unit `u` gives an offset in 1/100 code and a gain error in 10^-6 (R341, R343) (log entry 36). -/
def sliceCal (s : State) (u sl : Nat) (ofs gain : Int) : State :=
  if decide (16384 < ofs.natAbs) || decide (10000 < gain.natAbs) then
    let fail := withBit (s.get Reg.SA_STAT_SLFAIL u) sl
    let had := s.hasSpare u
    let spare := s.get Reg.SA_CAL_SPARE u
    let s : State := (s.set Reg.SA_STAT_SLFAIL fail u).set Reg.SA_STAT_SLICEFAIL 1 u
    let s := s.setSu u fun x =>
      let fill := if had && spare != sl then some spare else none
      let rot := match fill with
        | some p => x.rot.map fun r => if r = sl then p else r
        | none => x.rot.filter (· != sl)
      let age := x.age.filter (· != sl) ++ fill.toList
      { x with rot := rot, age := age, pos := x.pos % max 1 rot.length, failed := x.failed || decide (rot.length < 2) }
    let s : State := if (s.su u).failed then s.filtUnfed u else s
    (s.senseShow 0).senseShow 1
  else s.setSu u fun x => { x with cal := x.cal.set sl (ofs, gain) }

/-- SA_ZCMD written with GO = 1 (R357). -/
def zeroCmd (s : State) (v : Word) : State :=
  let u := fieldOf v 8 1
  let s := s.senseRun u
  let x := s.su u
  let idle := x.on && !x.failed && x.reg.isNone && x.inj.isNone && x.zero.isNone
  if !idle || x.cont || s.senseSlave u || !s.running then s.set Reg.SA_ZSTAT_RESULT 3
  else
    let s := s.setSu u fun x => { x with
      zero := some ⟨fieldOf v 0 4, fieldOf v 4 1 == 1, 0, SAcc.zero⟩, next6 := max x.next6 (6 * s.now + 120) }
    ((s.set Reg.SA_ZSTAT_BUSY 1).set Reg.SA_ZSTAT_CHAN (fieldOf v 0 4)).senseShow u

/-- A read of SA_RESk or SA_INJj captures the entry's timestamp words (R353); `i` is k, or 16 + j. In the cycle in which a result is
written it gives the one before. -/
def senseRead (s : State) (u i : Nat) : State × Word :=
  let old := (s.su u).was.filter fun w => w.1 == i && w.2.1 == s.now
  let t := (old.map (·.2.2.2)).getD ((s.su u).times.getD i 0)
  let word (w : Word) : Word := (old.map (·.2.2.1)).getD w
  if i < 16 then
    let s : State := (s.set Reg.SA_RESTL_T t u i).set Reg.SA_RESTH_T (t / 2 ^ 32) u i
    (s, word (s.regs.word (Reg.SA_RES_VALUE.addr u i)))
  else
    let s : State := (s.set Reg.SA_INJTL_T t u (i - 16)).set Reg.SA_INJTH_T (t / 2 ^ 32) u (i - 16)
    (s, word (s.regs.word (Reg.SA_INJ_VALUE.addr u (i - 16))))

/-- The slot's trigger of its unit (R86, R88, R351); a lower-numbered slot of the same cycle goes first. -/
def senseSlot (s : State) (n : Nat) (inj : Bool) : State :=
  let x := s.slot n
  let r := 0x400 + x.arg % 2
  if s.outranked n r then s
  else
    let s : State := if s.collides n r then s.bump Reg.EV_SUM_COLLCNT else s
    ((s.claim r).senseTrigger (x.arg % 2) inj).slotDone n (s.slotLate n) false

end State

/-- SENSE_REG (Table 3-4, R104, R347, R348). -/
def execSenseReg (n : Nat) (s : State) : Outcome State Fault Refusal :=
  if !s.slotDue n 4 then ok s
  else if s.slotStrictLate n then ok (s.slotEnd n true)
  else ok (s.senseSlot n false)

/-- SENSE_INJ (Table 3-4, R104, R349, R350). -/
def execSenseInj (n : Nat) (s : State) : Outcome State Fault Refusal :=
  if !s.slotDue n 5 then ok s
  else if s.slotStrictLate n then ok (s.slotEnd n true)
  else ok (s.senseSlot n true)

/-- SEQUENCE_START (R347, R349): an accepted sequence of unit `u` has waited for its RDLY or IDLY. -/
def execSequenceStart (u : Nat) (inj : Bool) (s : State) : Outcome State Fault Refusal :=
  let s' := s.senseRun u
  match (if inj then (s'.su u).inj else (s'.su u).reg) with
  | none => ok s
  | some r =>
    ok (if !s.running || r.started || decide (s.now < r.startAt) then s
      else if inj then s'.startInjected u r.startAt false
      else s'.startRegular u)

/-- SENSE_CONVERSION_DONE (R338 to R341, R345, R346, R352 to R355): the conversion of unit `u` that began first completes;
`code` is what its slice resolved, before saturation, or the S9.7 temperature of INSEL 26. -/
def execSenseConversionDone (u : Nat) (code : Int) (s : State) : Outcome State Fault Refusal :=
  let s' := s.senseRun u
  match (s'.su u).flight with
  | [] => ok s
  | k :: _ =>
    ok (if s.running ∧ !(s.su u).failed ∧ k.at6 + 3000 ≤ 6 * s.now then (s'.convDone u k code).senseShow u else s)

/-- SLICE_HANDOVER (R342): the first conversion start at or after a whole millisecond, at which the spare of unit `u` takes the place of
the slice longest in service: the conversions that have started by now, and the hand-over with the one that it belongs to. -/
def execSliceHandover (u : Nat) (s : State) : Outcome State Fault Refusal :=
  ok (if u < 2 ∧ s.running then s.senseRun (if s.senseSlave u then 0 else u) else s)

/-- SLICE_CALIBRATION_DONE (R341 to R343): a calibration of slice `sl` of unit `u` ends; it is the spare's, or any slice's
while the unit does not convert. `ofs` is in 1/100 code and `gain` in 10^-6. -/
def execSliceCalibrationDone (u sl : Nat) (ofs gain : Int) (s : State) : Outcome State Fault Refusal :=
  let s := s.senseRun u
  let spare := s.hasSpare u && s.get Reg.SA_CAL_SPARE u == sl
  ok (if u < 2 ∧ sl < 5 ∧ s.running ∧ !hasBit (s.get Reg.SA_STAT_SLFAIL u) sl ∧
      (spare ∨ (!(s.su u).on ∧ !s.senseSlave u)) then s.sliceCal u sl ofs gain else s)

/-- SENSE_ENABLE (R25, R27, R360): `v` written to SA_CFG with EN = 1. -/
def execSenseEnable (u : Nat) (v : Word) (s : State) : Outcome State Fault Refusal :=
  ok (if u < 2 then
    let was := s.flag Reg.SA_CFG_EN u
    let m := if u = 0 then 0xFFFFFFFF#32 else 0xDFFFFFFF#32
    s.mainWrite ((s.senseRunAll.regStore (Reg.SA_CFG_EN.addr u 0) ((v ||| 0x80000000#32) &&& m)).senseCfgWritten u was) else s)

/-- SENSE_DISABLE (R25, R27, Table 12-2): `v` written to SA_CFG with EN = 0. -/
def execSenseDisable (u : Nat) (v : Word) (s : State) : Outcome State Fault Refusal :=
  ok (if u < 2 then
    let was := s.flag Reg.SA_CFG_EN u
    let m := if u = 0 then 0x7FFFFFFF#32 else 0x5FFFFFFF#32
    s.mainWrite ((s.senseRunAll.regStore (Reg.SA_CFG_EN.addr u 0) (v &&& m)).senseCfgWritten u was) else s)

/-- ZERO_CAL_START (R25, R27, R357): `v` written to SA_ZCMD; without GO it has no effect. -/
def execZeroCalStart (v : Word) (s : State) : Outcome State Fault Refusal :=
  ok (s.mainWrite (if hasBit v.toNat 31 then s.zeroCmd v else s))

/-- ZERO_CAL_DONE (R357, R358): the 1,024 conversions of unit `u` are in; a mean past 655.36 codes is 10,486 sixteenths or more. -/
def execZeroCalDone (u : Nat) (s : State) : Outcome State Fault Refusal :=
  match (s.su u).zero with
  | none => ok s
  | some z =>
    if z.acc.n < 1024 then ok s
    else
      let mean := roundDiv (z.acc.sum * 16) (1024 * 100000000)
      let s := s.senseRunAll.setS Reg.SA_ZSTAT_MEAN (clampI (-32768) 32767 mean)
      ok (if 10485 < mean.natAbs then (s.zeroEnd u 2).senseShow u
        else
          let s : State := (s.zeroEnd u 1).setS Reg.SA_ZOFS_OFS mean z.chan
          ((s.set Reg.SA_ZOFS_EN 1 z.chan).set Reg.SA_ZOFS_SE (if z.se then 1 else 0) z.chan).senseShow u)

/-- SENSE_RESULT_READ (R26, R353): a read of SA_RESk, or of SA_INJj as entry 16 + j, of unit `u`. -/
def execSenseResultRead (u k : Nat) (s : State) : Outcome State Fault Refusal :=
  ok (if u < 2 ∧ k < 20 then s.mainRead (s.senseRead u k) else s)

end Sys2Proof.Machine
end

