-- ==== Sys2Proof/Machine/Crypto.lean ====
section
/-! DEFINITION. SHA-256 (FIPS 180-4) and the ECDSA P-256 check (FIPS 186-5), which R439 and R477 name. -/
namespace Sys2Proof.Machine

/-- 32-bit addition. -/
def add32 (a b : Nat) : Nat := (a + b) % 2 ^ 32

/-- 32-bit rotation to the right. -/
def rotr32 (x n : Nat) : Nat := Nat.lor (x / 2 ^ n) (x * 2 ^ (32 - n) % 2 ^ 32)

/-- The eight 32-bit words of a 256-bit number, the top one first. -/
def wordsOf256 (v : Nat) : List Nat := [7, 6, 5, 4, 3, 2, 1, 0].map fun i => v / 2 ^ (32 * i) % 2 ^ 32

/-- The round constants of SHA-256: the first 32 fraction bits of the cube roots of the first 64 primes, eight in a row. -/
def shaK : List Nat :=
  ([0x428a2f9871374491b5c0fbcfe9b5dba53956c25b59f111f1923f82a4ab1c5ed5,
    0xd807aa9812835b01243185be550c7dc372be5d7480deb1fe9bdc06a7c19bf174,
    0xe49b69c1efbe47860fc19dc6240ca1cc2de92c6f4a7484aa5cb0a9dc76f988da,
    0x983e5152a831c66db00327c8bf597fc7c6e00bf3d5a7914706ca635114292967,
    0x27b70a852e1b21384d2c6dfc53380d13650a7354766a0abb81c2c92e92722c85,
    0xa2bfe8a1a81a664bc24b8b70c76c51a3d192e819d6990624f40e3585106aa070,
    0x19a4c1161e376c082748774c34b0bcb5391c0cb34ed8aa4a5b9cca4f682e6ff3,
    0x748f82ee78a5636f84c878148cc7020890befffaa4506cebbef9a3f7c67178f2]).flatMap wordsOf256

/-- The initial hash value of SHA-256: the first 32 fraction bits of the square roots of the first eight primes. -/
def shaH0 : List Nat := wordsOf256 0x6a09e667bb67ae853c6ef372a54ff53a510e527f9b05688c1f83d9ab5be0cd19

/-- The number of big-endian bytes. -/
def beNat (bs : List Byte) : Nat := bs.foldl (fun a b => a * 256 + b.toNat) 0

/-- `n` bytes of `v`, most significant first. -/
def beBytes (n v : Nat) : List Byte := (leBytes n v).reverse

/-- The message schedule, newest word first: 48 words after the 16 of the block. -/
def shaSchedule (w : List Nat) : List Nat :=
  (List.range 48).foldl (fun (l : List Nat) _ =>
    let a := l.getD 1 0
    let b := l.getD 14 0
    let s1 := Nat.xor (Nat.xor (rotr32 a 17) (rotr32 a 19)) (a / 2 ^ 10)
    let s0 := Nat.xor (Nat.xor (rotr32 b 7) (rotr32 b 18)) (b / 2 ^ 3)
    add32 (add32 (l.getD 15 0) s0) (add32 (l.getD 6 0) s1) :: l) w.reverse

/-- One round on the working variables a to h. -/
def shaRound (v : List Nat) (kw : Nat × Nat) : List Nat :=
  match v with
  | [a, b, c, d, e, f, g, h] =>
    let s1 := Nat.xor (Nat.xor (rotr32 e 6) (rotr32 e 11)) (rotr32 e 25)
    let ch := Nat.xor (Nat.land e f) (Nat.land (2 ^ 32 - 1 - e) g)
    let t1 := add32 (add32 (add32 h s1) (add32 ch kw.1)) kw.2
    let s0 := Nat.xor (Nat.xor (rotr32 a 2) (rotr32 a 13)) (rotr32 a 22)
    let mj := Nat.xor (Nat.xor (Nat.land a b) (Nat.land a c)) (Nat.land b c)
    [add32 t1 (add32 s0 mj), a, b, c, add32 d t1, e, f, g]
  | _ => v

/-- One 64-byte block into the hash value. -/
def shaBlock (h : List Nat) (blk : List Byte) : List Nat :=
  let w := (List.range 16).map fun i => beNat ((blk.drop (4 * i)).take 4)
  let v := (shaK.zip (shaSchedule w).reverse).foldl shaRound h
  List.zipWith add32 h v

/-- SHA-256 of a byte string, as 32 bytes. -/
def sha256 (m : List Byte) : List Byte :=
  let pad := (119 - m.length % 64) % 64
  let t := m ++ [0x80] ++ List.replicate pad 0 ++ beBytes 8 (8 * m.length)
  let h := (List.range (t.length / 64)).foldl (fun h i => shaBlock h ((t.drop (64 * i)).take 64)) shaH0
  (h.map (beBytes 4)).flatten

/-! ## P-256 -/

/-- The field prime of P-256. -/
def p256p : Nat := 0xffffffff00000001000000000000000000000000ffffffffffffffffffffffff
/-- The group order of P-256. -/
def p256n : Nat := 0xffffffff00000000ffffffffffffffffbce6faada7179e84f3b9cac2fc632551
/-- The coefficient b of P-256 (a is −3). -/
def p256b : Nat := 0x5ac635d8aa3a93e7b3ebbd55769886bc651d06b0cc53b0f63bce3c3e27d2604b
/-- The base point of P-256. -/
def p256g : Nat × Nat :=
  (0x6b17d1f2e12c4247f8bce6e563a440f277037d812deb33a0f4a13945d898c296,
   0x4fe342e2fe1a7f9b8ee7eb4a7c0f9e162bce33576b315ececbb6406837bf51f5)

/-- `b ^ e mod m`, the low 256 bits of the exponent taken from the top. -/
def powMod (b e m : Nat) : Nat :=
  (List.range 256).foldl (fun r i =>
    let r := r * r % m
    if e / 2 ^ (255 - i) % 2 = 1 then r * b % m else r) 1

/-- Inverse modulo a prime. -/
def invMod (a m : Nat) : Nat := powMod (a % m) (m - 2) m

/-- Sum of two points of P-256; none is the point at infinity. -/
def p256Add (a b : Option (Nat × Nat)) : Option (Nat × Nat) :=
  match a, b with
  | none, q => q
  | q, none => q
  | some (x1, y1), some (x2, y2) =>
    let p := p256p
    let line (l : Nat) : Option (Nat × Nat) :=
      let x3 := (l * l + 2 * p - x1 - x2) % p
      some (x3, (l * (x1 + p - x3) + p - y1) % p)
    if x1 = x2 then
      if (y1 + y2) % p = 0 then none
      else line ((3 * x1 * x1 + p - 3) * invMod (2 * y1) p % p)
    else line ((y2 + p - y1) * invMod (x2 + p - x1) p % p)

/-- A multiple of a point. -/
def p256Mul (k : Nat) (q : Option (Nat × Nat)) : Option (Nat × Nat) :=
  (List.range 256).foldl (fun r i =>
    let r := p256Add r r
    if k / 2 ^ (255 - i) % 2 = 1 then p256Add r q else r) none

/-- The ECDSA check of a 32-byte digest with public key `(qx, qy)` and signature `(r, t)` (FIPS 186-5). -/
def ecdsaValid (digest : List Byte) (qx qy r t : Nat) : Bool :=
  let onCurve := decide (qx < p256p ∧ qy < p256p ∧
    qy * qy % p256p = (qx * qx * qx + (p256p - 3) * qx + p256b) % p256p)
  if !onCurve || r = 0 || t = 0 || decide (p256n ≤ r) || decide (p256n ≤ t) then false
  else
    let w := invMod t p256n
    let e := beNat digest
    match p256Add (p256Mul (e * w % p256n) (some p256g)) (p256Mul (r * w % p256n) (some (qx, qy))) with
    | none => false
    | some (x, _) => x % p256n == r

end Sys2Proof.Machine
end

