-- ==== Sys2Proof/Machine/Fuse.lean ====
section
/-! DEFINITION. The fuses: SECDED codewords, the classes of a read, what boot recorded, and the values the part takes from
them (17_otp_memory.md R454 to R463, R472, R475). A word has a key: chip word w is w, strip word w of block b is
256 + 8·b + w, cell l of block b is 4096 + 256·b + l; the lock fuses of block area b are 131072 + b, of the chip factory
area 131328, of the customer area 131329, and the enforcement fuses 131330. -/
namespace Sys2Proof.Machine

/-- Key of a strip word. -/
def stripKey (b w : Nat) : Nat := 256 + 8 * b + w
/-- Key of a cell word, by block and local cell. -/
def cellKey (b l : Nat) : Nat := 4096 + 256 * b + l
/-- Key of the lock fuses of an area: 0 to 255 block areas, 256 chip factory, 257 customer, 258 enforcement. -/
def lockKey (area : Nat) : Nat := 131072 + area

/-- Data bits of a word. -/
def dataBits (key : Nat) : Nat := if 131072 ≤ key then 3 else if 4096 ≤ key then 32 else 64
/-- Hamming check bits of a word. -/
def checkBits (key : Nat) : Nat := if 131072 ≤ key then 0 else if 4096 ≤ key then 6 else 7

/-- The position of data bit `i`: the (i + 1)-th that is not a power of 2 (R455). -/
def hammingPos (i : Nat) : Nat :=
  ((List.range 80).filter fun p => decide (2 < p) && !((List.range 7).any fun k => p == 2 ^ k)).getD i 0

/-- XOR of bits. -/
def parityOf (bs : List Nat) : Nat := bs.foldl (fun a b => (a + b) % 2) 0

/-- The Hamming check bits of `nd` data bits (R455). -/
def checkOf (nd nc d : Nat) : Nat :=
  (List.range nc).foldl (fun c k =>
    c + 2 ^ k * parityOf (((List.range nd).filter fun i => hasBit (hammingPos i) k).map (bitOf d))) 0

/-- The codeword of data `d`: data fuses, check fuses, the overall bit (R455). -/
def codeword (key d : Nat) : Nat :=
  let nd := dataBits key
  let nc := checkBits key
  if nc = 0 then d
  else
    let c := checkOf nd nc d
    let p := parityOf ((List.range nd).map (bitOf d) ++ (List.range nc).map (bitOf c))
    d + 2 ^ nd * c + 2 ^ (nd + nc) * p

/-- A raw word decoded (R456): the data and whether an error was corrected, or none where it is uncorrectable. Lock fuses have no
check bits. -/
def decodeWord (key raw : Nat) : Option (Nat × Bool) :=
  let nd := dataBits key
  let nc := checkBits key
  if nc = 0 then some (raw % 2 ^ nd, false) else
  let d := raw % 2 ^ nd
  let c := raw / 2 ^ nd % 2 ^ nc
  let s := Nat.xor (checkOf nd nc d) c
  let p := parityOf ((List.range (nd + nc + 1)).map (bitOf raw))
  if p = 0 then (if s = 0 then some (d, false) else none)
  else if s = 0 ∨ (List.range nc).any (fun k => s == 2 ^ k) then some (d, true)
  else match (List.range nd).find? fun i => hammingPos i == s with
    | some i => some (if hasBit d i then d - 2 ^ i else d + 2 ^ i, true)
    | none => none

/-- Class and value of a read at both margins (R461): 0 GOOD, 1 CORRECTED, 2 MARGINAL, 3 INVALID. -/
def classify (key lo hi : Nat) : Nat × Nat :=
  match decodeWord key lo, decodeWord key hi with
  | some (a, e), some (b, _) =>
    if lo = hi then (if e then 1 else 0, a)
    else if a = b then (2, a)
    else (3, 0)
  | _, _ => (3, 0)

/-- Three lock fuses read as blown: at least two (R475). -/
def lockBlown (raw : Nat) : Bool := decide (2 ≤ (bitsOf 3 raw).length)

/-- Addresses of the registers with an SPL field, in order (R404, Table 17-4). -/
def splAddrs : List Nat :=
  [0x0D000C, 0x0D0010] ++ (List.range 4).flatMap fun n => (List.range 4).map fun i => 0x0D0040 + 0x20 * n + 4 * i

/-- The data of a word as shipped (log entry 20): the safety defaults hold the Reset column (R404), W22 holds 6.0, a cell
word is programmed with no correction, and every other word is blank. -/
def shippedData (key : Nat) : Nat :=
  if key = 22 then 0x6000
  else if 24 ≤ key ∧ key ≤ 32 then
    (resetWord (splAddrs.getD (2 * (key - 24)) 0)).toNat + 2 ^ 32 * (resetWord (splAddrs.getD (2 * (key - 24) + 1) 0)).toNat
  else if 4096 ≤ key ∧ key < 131072 then 2 ^ 31
  else 0

namespace State

/-- How the fuses of a word read at present: low margin, high margin (log entry 20). -/
def fuseRaw (s : State) (key : Nat) : Nat × Nat :=
  match s.otp.fuses.find? (·.1 == key) with
  | some (_, lo, hi) => (lo, hi)
  | none => let c := codeword key (shippedData key); (c, c)

/-- The fuses of a word read otherwise from here on (log entry 21). -/
def setFuse (s : State) (key lo hi : Nat) : State :=
  { s with otp := { s.otp with fuses := (key, lo, hi) :: s.otp.fuses.filter (·.1 != key) } }

/-- Words that a read finds to read as given: analogue drift of the fuses (log entry 21). -/
def drift (s : State) (ws : List (Nat × Nat × Nat)) : State := ws.foldl (fun s w => s.setFuse w.1 w.2.1 w.2.2) s

/-- Class and value of a word as it reads at present (R461). -/
def fuseClass (s : State) (key : Nat) : Nat × Nat := let r := s.fuseRaw key; classify key r.1 r.2

/-- Boot result of a word: class and value (R463). -/
def bootClass (s : State) (key : Nat) : Nat × Nat :=
  match s.otp.boot.find? (·.1 == key) with
  | some (_, c, v) => (c, v)
  | none => (0, shippedData key)

/-- The area of a word: 0 to 255 block areas, 256 chip factory, 257 customer. -/
def areaOf (key : Nat) : Nat :=
  if key < 224 then 256 else if key < 256 then 257 else if key < 4096 then (key - 256) / 8 else (key - 4096) / 256

/-- The field of OT_BLKSTi for block area `b`. -/
def blkStFld (b : Nat) : Fld := ⟨0x0F0100, 4, 0, 4 * (b % 8), 2, false⟩

/-- State of an area as boot found it (R475): 0 OPEN, 1 LOCKED, 2 INCOMPLETE. -/
def areaState (s : State) (area : Nat) : Nat :=
  if area = 256 then s.get Reg.ID_FUSESTAT_CHIPST
  else if area = 257 then s.get Reg.ID_FUSESTAT_CUSTST
  else s.get (blkStFld area) (area / 8)

/-- The value of a word in force since boot; none where it is invalid or its area is INCOMPLETE (R461, R475). -/
def bootVal (s : State) (key : Nat) : Option Nat :=
  let (c, v) := s.bootClass key
  if c = 3 ∨ s.areaState (areaOf key) = 2 then none else some v

/-- The words that an area's header covers, in order, with the header's key (R472). -/
def areaWords (area : Nat) : List Nat × Nat :=
  if area = 256 then (List.range 223, 223)
  else if area = 257 then ((List.range 31).map (224 + ·), 255)
  else
    ((List.range 6).map (stripKey area) ++ [stripKey area 7] ++ (List.range 256).map (cellKey area), stripKey area 6)

/-- The words that a LOCK reads: the header, and the words that it covers where it can be read (R472, R473). -/
def lockReads (f : Nat → Nat × Nat) (area : Nat) : List Nat :=
  let (ws, h) := areaWords area
  h :: (if (f h).1 = 3 then [] else ws.take ((f h).2 % 65536))

/-- The header of an area matches its words, read through `f` (R472). -/
def headerMatches (f : Nat → Nat × Nat) (area : Nat) : Bool :=
  let (ws, h) := areaWords area
  let (c, v) := f h
  let len := v % 65536
  let read := (ws.take len).map fun k => (k, f k)
  let bytes := read.flatMap fun x => leBytes (dataBits x.1 / 8) x.2.2
  c != 3 && v / 2 ^ 48 == 0x1C0D && decide (1 ≤ len ∧ len ≤ ws.length) && read.all (fun x => x.2.1 != 3) &&
    crc32c bytes == v / 65536 % 2 ^ 32

/-- State and LOCKMARG of an area from its lock fuses and, where locked, its header (R475). -/
def judgeArea (s : State) (area : Nat) : Nat × Bool :=
  let (lo, hi) := s.fuseRaw (lockKey area)
  let locked := lockBlown hi
  (if !locked then 0 else if headerMatches s.fuseClass area then 1 else 2, lockBlown lo != locked)

/-- One word read at boot: recorded and counted (R461). -/
def bootRead (s : State) (key : Nat) : State :=
  match s.otp.fuses.find? (·.1 == key) with
  | none => s
  | some (_, lo, hi) =>
    let (c, v) := classify key lo hi
    let s : State := { s with otp := { s.otp with boot := (key, c, v) :: s.otp.boot.filter (·.1 != key) } }
    let chip := decide (key < 256)
    if c = 1 then s.bump Reg.OT_CNT_CORRCNT
    else if c = 2 then
      let s := s.bump Reg.OT_CNT_MARGCNT
      if chip then s.bump Reg.ID_FUSESTAT_CHIPMARG else s
    else if c = 3 then
      let s := s.bump Reg.OT_CNT_INVCNT
      let s : State := if lo = hi then s else s.bump Reg.OT_CNT_MARGCNT
      if chip then s.bump Reg.ID_FUSESTAT_CHIPINV else s
    else s

/-- OT_ADDR's coding of a word's key (R463). -/
def otAddr (key : Nat) : Nat :=
  if key < 256 then 2 ^ 31 + key
  else if key < 4096 then 2 ^ 30 + (key - 256) / 8 * 65536 + (key - 256) % 8
  else (key - 4096) / 256 * 65536 + (key - 4096) % 256

/-- A later read of a word compared with its boot result (R463). -/
def checkDrift (s : State) (key : Nat) : State :=
  if s.otp.programmed.contains key then s
  else
    let (c, v) := s.fuseClass key
    let (d, w) := s.bootClass key
    if (c == 3) != (d == 3) || (c != 3 && v != w) then
      ((s.set Reg.OT_STAT_DRIFT 1).bump Reg.OT_CNT_DRIFTCNT).set Reg.OT_DRIFT_ADDR (otAddr key)
    else s

/-- Offset and gain trim of a cell in 14-bit codes (Table 17-2, R208); an invalid word's cell is failed. -/
def cellTrim (s : State) (b l : Nat) : Int × Int :=
  let w := (s.bootVal (cellKey b l)).getD 0
  (sext 10 w, sext 10 (w / 1024))

/-- A strip mean in 1/16 of 14-bit codes is outside the window of R458 for local cell `l` of block `b`. -/
def stripBad (s : State) (b l : Nat) (mean : Int) : Bool :=
  let refb := sext 6 ((s.bootVal (cellKey b l)).getD 0 / 2 ^ 20)
  let rwin := match s.bootVal (stripKey b 4) with
    | some w => w % 256
    | none => 32
  decide (256 * rwin < (mean - 16 * (1024 + 16 * refb)).natAbs)

/-- SHA-256 digest stored in four chip words from `w` on (Table 17-4), none where one is invalid. -/
def fuseDigest (s : State) (w : Nat) : Option (List Byte) :=
  match s.bootVal w, s.bootVal (w + 1), s.bootVal (w + 2), s.bootVal (w + 3) with
  | some a, some b, some c, some d => some (leBytes 8 a ++ leBytes 8 b ++ leBytes 8 c ++ leBytes 8 d)
  | _, _, _, _ => none

/-- The customer key hash; empty where there is none (R460) (log entry 13). -/
def keyHash (s : State) : List Byte := (s.fuseDigest 224).getD []

/-- DEFHASH for the content of a DEFECTS section (R477). -/
def defectHash (s : State) (bs : List Byte) : State :=
  s.set Reg.ID_FUSESTAT_DEFHASH (match s.fuseDigest 33 with
    | none => 3
    | some d => if d == sha256 bs then 1 else 2)

/-- The mask of the SPL fields of a register. -/
def splMask (a : Nat) : Word := match findReg a with
  | some d => BitVec.ofNat 32 d.spl
  | none => 0#32

/-- The factory default of an SPL register, in its fields alone (R7, R404). -/
def splDefault (s : State) (a : Nat) : Word :=
  match splAddrs.findIdx? (· == a) with
  | none => resetWord a
  | some i => match s.bootVal (24 + i / 2) with
    | none => resetWord a
    | some v => BitVec.ofNat 32 (v / 2 ^ (32 * (i % 2))) &&& splMask a

end State

end Sys2Proof.Machine
end

