-- ==== Sys2Proof/Machine/Layout.lean ====
section
/-! DEFINITION. The layout of a frame computed from its settings: windows and cell sets, digital binning, rows in reading
order, converter time, packets on the links, the readout span (05_cell_readout.md R145 to R163; R42, R44, R53, R55). -/
namespace Sys2Proof.Machine

/-! ## Cells, blocks and regions (R42, R44) -/

/-- Column of a cell. -/
def cellX (c : Nat) : Nat := c % 256
/-- Row of a cell. -/
def cellY (c : Nat) : Nat := c / 256
/-- Block of a cell. -/
def cellBlock (c : Nat) : Nat := 16 * (cellY c / 16) + cellX c / 16
/-- Local index of a cell in its block (R44). -/
def cellLocal (c : Nat) : Nat := 16 * (cellY c % 16) + cellX c % 16
/-- The cell of a block with a local index. -/
def cellOf (block loc : Nat) : Nat := 256 * (16 * (block / 16) + loc / 16) + 16 * (block % 16) + loc % 16
/-- Region of a block. -/
def blockRegion (b : Nat) : Nat := 4 * (b / 64) + b % 16 / 4
/-- The block of a region with a local index (R44). -/
def blockOf (region loc : Nat) : Nat := 16 * (4 * (region / 4) + loc / 4) + 4 * (region % 4) + loc % 4
/-- The blocks of a region, in ascending local index. -/
def regionBlocks (r : Nat) : List Nat := (List.range 16).map (blockOf r)

/-! ## Sine and cosine × 2^30 (R158) -/

/-- π × 2^96. -/
def piFix : Nat := 248902613312231085230521944622

/-- Terms of the sine series from `t`, the current term, with the step number `k`; `x2` is the square of the angle. -/
def sinSeries (x2 : Int) : Nat → Nat → Int → Int → Int
  | 0, _, _, acc => acc
  | n + 1, k, t, acc =>
    let t' := -(t * x2 / 2 ^ 96) / ((2 * k) * (2 * k + 1) : Nat)
    sinSeries x2 n (k + 1) t' (acc + t')

/-- Sine of `m` millidegrees, 0 to 90,000, × 2^96. -/
def sinFix (m : Nat) : Int :=
  let x : Int := (piFix * m / 180000 : Nat)
  sinSeries (x * x / 2 ^ 96) 24 1 x x

/-- Sine of any angle in millidegrees × 2^30, rounded to nearest, ties away from zero (R158). -/
def sin30 (a : Int) : Int :=
  let m := (a % 360000).toNat
  let (q, neg) : Nat × Bool := if m < 180000 then (m, false) else (m - 180000, true)
  let q := if 90000 < q then 180000 - q else q
  let v := roundDiv (sinFix q) (2 ^ 66)
  if neg then -v else v

/-- Cosine × 2^30 (R158). -/
def cos30 (a : Int) : Int := sin30 (a + 90000)

/-- θ reduced into −179,999 to 180,000 (R157). -/
def reduceAngle (a : Int) : Int :=
  let m := a % 360000
  if 180000 < m then m - 360000 else m

/-! ## Picture windows (R156 to R161) -/

/-- Window `n` is enabled: EN = 1 and neither W nor H is 0 (R156). -/
def winOn (img : RegFile) (n : Nat) : Bool :=
  img.flag Reg.RD_PW_CFG_EN n && img.fld Reg.RD_PW_SIZE_W n != 0 && img.fld Reg.RD_PW_SIZE_H n != 0

/-- The enabled windows, ascending. -/
def winsOn (img : RegFile) : List Nat := (List.range 16).filter (winOn img)

/-- The grown rectangle of an axis-aligned window: first and last pixel in x and y, before clipping (R156). -/
def winRect (img : RegFile) (n : Nat) : Int × Int × Int × Int :=
  let m : Int := img.fld Reg.RD_PW_CFG_MARGIN n
  let x : Int := img.fld Reg.RD_PW_POS_X0 n
  let y : Int := img.fld Reg.RD_PW_POS_Y0 n
  (x - m, x + img.fld Reg.RD_PW_SIZE_W n - 1 + m, y - m, y + img.fld Reg.RD_PW_SIZE_H n - 1 + m)

/-- The test of R158 for cell `c` and window `n` at angle whose cosine and sine × 2^30 are `co`, `si`. -/
def rotHas (img : RegFile) (n c : Nat) (co si : Int) : Bool :=
  let m := img.fld Reg.RD_PW_CFG_MARGIN n
  let a : Int := img.fld Reg.RD_PW_SIZE_W n * 8 + m * 16
  let b : Int := img.fld Reg.RD_PW_SIZE_H n * 8 + m * 16
  let h0 : Int := 504
  let qx : Int := 1024 * cellX c + h0 - img.fld Reg.RD_PW_CX_C n
  let qy : Int := 1024 * cellY c + h0 - img.fld Reg.RD_PW_CY_C n
  let ca : Int := co.natAbs
  let sa : Int := si.natAbs
  let k : Int := 2 ^ 30
  decide (qx.natAbs * k ≤ h0 * k + a * ca + b * sa) && decide (qy.natAbs * k ≤ h0 * k + a * sa + b * ca) &&
    decide ((qx * co + qy * si).natAbs ≤ a * k + h0 * (ca + sa)) &&
    decide ((qy * co - qx * si).natAbs ≤ b * k + h0 * (ca + sa))

/-- Membership of cells in window `n` at angle θ (R156, R158). -/
def winHas (img : RegFile) (n : Nat) (theta : Int) : Nat → Bool :=
  if img.flag Reg.RD_PW_CFG_ROT n then
    let co := cos30 theta
    let si := sin30 theta
    fun c => rotHas img n c co si
  else
    let (x0, x1, y0, y1) := winRect img n
    fun c => decide (x0 ≤ 64 * cellX c + 63 ∧ 64 * cellX c ≤ x1 ∧ y0 ≤ 64 * cellY c + 63 ∧ 64 * cellY c ≤ y1)

/-- Part of the grown window lies outside the array (R156, R158): for a rotated one, a corner past −0.5 to 16,383.5. -/
def winClipped (img : RegFile) (n : Nat) (theta : Int) : Bool :=
  if img.flag Reg.RD_PW_CFG_ROT n then
    let m := img.fld Reg.RD_PW_CFG_MARGIN n
    let a : Int := img.fld Reg.RD_PW_SIZE_W n * 8 + m * 16
    let b : Int := img.fld Reg.RD_PW_SIZE_H n * 8 + m * 16
    let co : Int := (cos30 theta).natAbs
    let si : Int := (sin30 theta).natAbs
    let ex := a * co + b * si
    let ey := a * si + b * co
    let k : Int := 2 ^ 30
    let cx : Int := img.fld Reg.RD_PW_CX_C n
    let cy : Int := img.fld Reg.RD_PW_CY_C n
    decide (cx * k - ex < -8 * k) || decide (262136 * k < cx * k + ex) || decide (cy * k - ey < -8 * k) ||
      decide (262136 * k < cy * k + ey)
  else
    let (x0, x1, y0, y1) := winRect img n
    decide (x0 < 0 ∨ 16383 < x1 ∨ y0 < 0 ∨ 16383 < y1)

/-- θ of a window in a list fixed at an arming point. -/
def thetaOf (theta : List (Nat × Int)) (n : Nat) : Int :=
  match theta.find? (·.1 == n) with
  | some (_, a) => a
  | none => 0

/-- The cells of the windows for which `p` holds. -/
def cellsWhere (img : RegFile) (theta : List (Nat × Int)) (p : Nat → Bool) : List Nat :=
  let tests := ((winsOn img).filter p).map fun n => winHas img n (thetaOf theta n)
  (List.range 65536).filter fun c => tests.any fun t => t c

/-- The union of every enabled window's cell set (R160). -/
def unionCells (img : RegFile) (theta : List (Nat × Int)) : List Nat := cellsWhere img theta fun _ => true

/-- The cell set of a VC (R160). -/
def vcCells (img : RegFile) (theta : List (Nat × Int)) (v : Nat) : List Nat :=
  cellsWhere img theta fun n => img.fld Reg.RD_PW_CFG_VC n == v

/-- The raw VCs: of the enabled windows, or RD_PW0CFG.VC where there is none (R161). -/
def rawVcs (img : RegFile) : List Nat :=
  match winsOn img with
  | [] => [img.fld Reg.RD_PW_CFG_VC 0]
  | ws => (List.range 16).filter fun v => ws.any fun n => img.fld Reg.RD_PW_CFG_VC n == v

/-- Code of DBIN in use: 3 acts as 0. -/
def dbinOf (img : RegFile) (n : Nat) : Nat := if img.fld Reg.RD_PW_CFG_DBIN n = 3 then 0 else img.fld Reg.RD_PW_CFG_DBIN n

/-- The finest binning of cell `c` on VC `v` (R160). -/
def cellDbin (img : RegFile) (theta : List (Nat × Int)) (v c : Nat) : Nat :=
  let ws := (winsOn img).filter fun n => img.fld Reg.RD_PW_CFG_VC n == v && winHas img n (thetaOf theta n) c
  (ws.map (dbinOf img)).foldl min 2

/-! ## Rows of a frame (R145 to R148, R155, R162) -/

/-- SHUTTER of the settings. -/
def shutter (img : RegFile) : Nat := img.fld Reg.EX_MODE_SHUTTER

/-- Both taps serve the picture (Table 4-1). -/
def twoTaps (img : RegFile) : Bool := shutter img == 1 || shutter img == 2

/-- Charge binning in force: not with a mode that uses tap B for the picture (R53, R55). -/
def chgBin (img : RegFile) : Bool := img.flag Reg.EX_PIXCFG_CHGBIN && !twoTaps img

/-- Sites of a row (R146, R53). -/
def rowSites (img : RegFile) : Nat := if chgBin img then 32 else 64

/-- Stripe in force: first row, rows, and whether it was reduced (R155). -/
def stripe (img : RegFile) : Nat × Nat × Bool :=
  let avail := rowSites img
  if img.flag Reg.RD_STRIPE_EN then
    let v0 := img.fld Reg.RD_STRIPE_V0
    let h := max 1 (img.fld Reg.RD_STRIPE_H)
    if avail ≤ v0 then (avail - 1, 1, true)
    else if avail < v0 + h then (v0, avail - v0, true)
    else (v0, h, false)
  else (0, avail, false)

/-- Reference rows of a frame that reads the strip (R147). -/
def refRows (img : RegFile) (strip : Bool) : Nat := if strip then (if chgBin img then 1 else 2) else 0

/-- A row in reading order (R146): row in sample units, tap B, whether it is of the reference strip. -/
structure RowId where
  v : Nat
  tapB : Bool
  ref : Bool
  deriving DecidableEq, Repr

/-- The rows of a cell in reading order (R146). -/
def rowList (img : RegFile) (strip : Bool) : List RowId :=
  let (v0, h, _) := stripe img
  let first := if chgBin img then 32 else 64
  let tap (b : Bool) : List RowId :=
    ((List.range h).map fun i => ⟨v0 + i, b, false⟩) ++
      (List.range (refRows img strip)).map fun i => ⟨first + i, b, true⟩
  tap false ++ (if twoTaps img then tap true else [])

/-- GAIN of a class: 3 acts as 2, both (R114). -/
def gainOf (img : RegFile) (k : Nat) : Nat := min 2 (img.fld Reg.EX_EC_CFG_GAIN k)

/-- Gains a class reads. -/
def gainCount (g : Nat) : Nat := if g = 2 then 2 else 1

/-- Four times the division factor d (R150). -/
def div4 (code : Nat) : Nat := [4, 5, 6, 8, 12, 16].getD code 4

/-- Converter time of one row, ns: 25.6 µs × gains, half that when charge-binned, × d (R150, R151). -/
def rConv (img : RegFile) (gains div : Nat) : Nat := rowSites img * gains * 100 * div4 div

/-- t_conv in ns (R147, R150). -/
def tConvOf (img : RegFile) (strip : Bool) (gains div : Nat) : Nat :=
  (rowList img strip).length * rConv img gains div

/-- Rows that produce raw output (R151). -/
def nOut (img : RegFile) (strip : Bool) : Nat :=
  ((rowList img strip).filter fun r => !r.ref || img.flag Reg.RD_CONV_REFOUT).length

/-- Other rows (R151). -/
def nRef (img : RegFile) (strip : Bool) : Nat := (rowList img strip).length - nOut img strip

/-- Bytes of an output row of `n` samples at `bits` bits (R324). -/
def packedBytes (n bits : Nat) : Nat := n * bits / 8

/-- Output width of unmerged rows (R145). -/
def rawBits (img : RegFile) : Nat := if img.flag Reg.RD_CONV_BITS then 14 else 12

/-- Samples of an output row under binning code `d` (R162). -/
def sprOf (img : RegFile) (d : Nat) : Nat := rowSites img / 2 ^ d

/-- Largest run of cells for rows of `bytes` bytes (R170) (log entry 28). -/
def runCap (bytes : Nat) : Nat := min 255 (4088 / max 1 bytes)

/-- The rows above that an output row of a binned cell needs: the output rows that combine one of the stripe's rows (R162).
On a ZA268-C group rows lie two apart. -/
def outRowOf (mono : Bool) (d v : Nat) : Nat :=
  if d = 0 then v
  else if mono then v / 2 ^ d
  else 2 * (v / 2 ^ (d + 1)) + v % 2

/-- The output rows of the active rows of a frame at binning code `d`, ascending. -/
def outRows (img : RegFile) (mono : Bool) (d : Nat) : List Nat :=
  let (v0, h, _) := stripe img
  let ys := (List.range h).map fun i => outRowOf mono d (v0 + i)
  (List.range 64).filter ys.contains

/-- Maximal runs of consecutive numbers in an ascending list: first and length (log entry 28). -/
def runsOf : List Nat → List (Nat × Nat)
  | [] => []
  | x :: xs =>
    match runsOf xs with
    | [] => [(x, 1)]
    | (y, n) :: rest => if y = x + 1 then (x, n + 1) :: rest else (x, 1) :: (y, n) :: rest

/-- The local indices of cells in block `b`, ascending. -/
def localsIn (cells : List Nat) (b : Nat) : List Nat :=
  (List.range 256).filter fun l => cells.contains (cellOf b l)

/-- Rows that a cell puts out per frame on a VC, as (rows, bytes of each): unmerged gains, taps and reference rows (R172). -/
def rowsOut (img : RegFile) (mono strip hdrout : Bool) (gains d : Nat) : Nat × Nat :=
  let merged := hdrout || (gains == 2 && img.flag Reg.RD_CONV_DGOUT)
  let act := (outRows img mono d).length
  let refs := if img.flag Reg.RD_CONV_REFOUT then refRows img strip else 0
  let taps := if twoTaps img && !hdrout then 2 else 1
  let g := if gains = 2 ∧ !img.flag Reg.RD_CONV_DGOUT then 2 else 1
  ((act + refs) * taps * g, packedBytes (sprOf img d) (if merged then 16 else rawBits img))

/-- Gains of the output row sets of a tap of a cell whose class has GAIN `g` (R114, R172): 0 HCG, 1 LCG, 2 a merged set, 3 the
merged set of the LCG samples where the class reads both gains. `fb` marks the HDR fallback of Table 4-3. -/
def gainKeys (img : RegFile) (hdrout fb : Bool) (g : Nat) (tapB : Bool) : List Nat :=
  let split := g == 2 && !img.flag Reg.RD_CONV_DGOUT
  if hdrout then (if split && !fb then [2, 3] else [2])
  else if fb then [if tapB then 1 else 0]
  else if g = 2 then (if split then [0, 1] else [2])
  else [g]

/-- What t_link needs of a cell of a VC: the cell, its binning code, its class's GAIN, whether it is in the HDR fallback, and the
fill causes of its tap A and tap B rows, 0 for data. -/
structure CellLoad where
  cell : Nat
  dbin : Nat
  gain : Nat
  fb : Bool
  causeA : Nat
  causeB : Nat

/-- Lengths of the stretches of consecutive local indices with one fill cause, in an ascending list of both. -/
def stretchesOf : List (Nat × Nat) → List Nat
  | [] => []
  | x :: xs => match xs, stretchesOf xs with
    | y :: _, n :: ns => if y.1 = x.1 + 1 ∧ y.2 = x.2 then (n + 1) :: ns else 1 :: n :: ns
    | _, _ => [1]

/-- Packets of one output row of the cells `cs`, each with its fill cause (R170): a run goes on over consecutive local indices with
one fill cause, up to `cap` cells, and the next begins behind it (log entry 28). -/
def rowPackets (cs : List (Nat × Nat)) (cap : Nat) : Nat :=
  ((List.range 256).map fun b =>
    let mine := (List.range 256).filterMap fun l => (cs.find? fun x => x.1 == cellOf b l).map fun x => (l, x.2)
    ((stretchesOf mine).map fun n => ceilDiv n cap).sum).sum

/-- Bytes of a frame's raw data packets for the cells of a VC, headers and trailers included (R151): 20 bytes a packet. -/
def vcLoad (img : RegFile) (mono strip hdrout : Bool) (cells : List CellLoad) : Nat :=
  let refs := if img.flag Reg.RD_CONV_REFOUT then refRows img strip else 0
  let taps := if twoTaps img && !hdrout then [false, true] else [false]
  ([0, 1, 2].map fun d => (taps.map fun tapB => ([0, 1, 2, 3].map fun k =>
    let cs := cells.filter fun x => x.dbin == d && (gainKeys img hdrout x.fb x.gain tapB).contains k
    let bytes := packedBytes (sprOf img d) (if 2 ≤ k then 16 else rawBits img)
    let packets := if cs.isEmpty then 0
      else rowPackets (cs.map fun x => (x.cell, if tapB then x.causeB else x.causeA)) (runCap bytes)
    ((outRows img mono d).length + refs) * (cs.length * bytes + 20 * packets)).sum).sum).sum

/-- t_link in ns as a fraction: the largest load over the groups, the bytes of a VC dealt evenly over the groups of its
mask (R151, R304), at 18.75 Gbit/s, that is 32 / 75 ns a byte. `load c d` is what cell `c`, binned by code `d`, puts out, and
`groups v` the mask of VC `v` (log entry 26). -/
def tLinkOf (img : RegFile) (theta : List (Nat × Int)) (mono strip hdrout : Bool) (load : Nat → Nat → CellLoad)
    (groups : Nat → List Nat) : Rat :=
  let loads := (rawVcs img).filterMap fun v =>
    let gs := groups v
    if gs.isEmpty then none
    else
      let cells := (vcCells img theta v).map fun c => load c (cellDbin img theta v c)
      some (gs, ((vcLoad img mono strip hdrout cells : Nat) : Rat) / (gs.length : Nat))
  let per := (List.range 32).map fun g => (loads.map fun l => if l.1.contains g then l.2 else 0).sum
  (per.foldl max 0) * 32 / 75

/-- t_rd in ns, rounded up (R151) (log entry 26). -/
def tRdOf (img : RegFile) (strip : Bool) (gains div : Nat) (tlink : Rat) : Nat :=
  let rc := rConv img gains div
  let no := nOut img strip
  let paced : Rat := (nRef img strip * rc : Nat) + max ((no * rc : Nat) : Rat) tlink
  max (max (tConvOf img strip gains div) paced.ceil.toNat) (img.fld Reg.RD_PACE_RDTIME)

/-- Start of slot `i` of the rows after T, truncated to 1 ns (R152). -/
def slotStart (img : RegFile) (strip : Bool) (gains div tRd i : Nat) : Nat :=
  let rc := rConv img gains div
  let rows := (rowList img strip).take i
  let outs := (rows.filter fun r => !r.ref || img.flag Reg.RD_CONV_REFOUT).length
  let others := rows.length - outs
  others * rc + outs * (tRd - nRef img strip * rc) / max 1 (nOut img strip)

/-- Output-row slot s, ns, truncated (R151, Table 11-3 RSLOT). -/
def rowSlot (img : RegFile) (strip : Bool) (gains div tRd : Nat) : Nat :=
  (tRd - nRef img strip * rConv img gains div) / max 1 (nOut img strip)

/-! ## The class map (R115, R116) -/

/-- The field of EX_MAPi that gives the class of cell `c`. -/
def mapFld (c : Nat) : Fld := ⟨0x028000 + 4 * (c / 8), 0, 0, 4 * (c % 8), 3, false⟩

/-- The class of cell `c` in a map. -/
def mapClass (m : RegFile) (c : Nat) : Nat := m.fld (mapFld c)

/-- The words of the class map of an image. -/
def mapWords (img : RegFile) : RegFile := img.filter fun e => decide (0x028000 ≤ e.1 ∧ e.1 < 0x030000)

/-! ## Tracking windows (R130, R179) -/

/-- Cells of tracking window `n`, clipped to the array (R179). -/
def twCells (img : RegFile) (n : Nat) : List Nat :=
  let x0 := img.fld Reg.TK_W_CFG_CX0 n
  let y0 := img.fld Reg.TK_W_CFG_CY0 n
  let w := min (img.fld Reg.TK_W_CFG_WM1 n + 1) (256 - x0)
  let h := min (img.fld Reg.TK_W_CFG_HM1 n + 1) (256 - y0)
  (List.range h).flatMap fun j => (List.range w).map fun i => 256 * (y0 + j) + x0 + i

/-- Window `n` reaches past the array (R179). -/
def twClipped (img : RegFile) (n : Nat) : Bool :=
  decide (256 < img.fld Reg.TK_W_CFG_CX0 n + img.fld Reg.TK_W_CFG_WM1 n + 1) ||
    decide (256 < img.fld Reg.TK_W_CFG_CY0 n + img.fld Reg.TK_W_CFG_HM1 n + 1)

/-- The window mask of plan entry `m`. -/
def planMask (img : RegFile) (m : Nat) : Nat := img.fld Reg.TK_PLAN_WLO_MASK m + 2 ^ 32 * img.fld Reg.TK_PLAN_WHI_MASK m

/-- Enabled windows that an enabled plan entry names (R130). -/
def twOwned (img : RegFile) : List Nat :=
  (List.range 64).filter fun n => img.flag Reg.TK_W_CFG_EN n &&
    (List.range 256).any fun m => img.flag Reg.TK_PLAN_CFG_EN m && hasBit (planMask img m) n

/-- Enabled tracking windows: they keep blocks powered (R163). -/
def twOn (img : RegFile) : List Nat := (List.range 64).filter fun n => img.flag Reg.TK_W_CFG_EN n

/-- Window settings as they decide pairs and the previous peak (R190, R191). -/
def winWords (img : RegFile) (w : Nat) : List Nat := (List.range 4).map fun i => (img.word (0x040100 + 16 * w + 4 * i)).toNat

/-- Cells whose tap B tracking owns (R130). -/
def trackedCells (img : RegFile) : List Nat := ((twOwned img).flatMap (twCells img)).eraseDups

/-! ## Block power (R163) -/

/-- Cells of a block grown by `g` cells in each direction, inside the array. -/
def grownBlock (b g : Nat) : List Nat :=
  let x0 := 16 * (b % 16) - g
  let x1 := min 255 (16 * (b % 16) + 15 + g)
  let y0 := 16 * (b / 16) - g
  let y1 := min 255 (16 * (b / 16) + 15 + g)
  (List.range (y1 + 1 - y0)).flatMap fun j => (List.range (x1 + 1 - x0)).map fun i => 256 * (y0 + j) + x0 + i

/-- The powered set of settings with angles θ, as a bit mask of blocks (R163). -/
def poweredSet (img : RegFile) (theta : List (Nat × Int)) : Nat :=
  let tests := (winsOn img).map fun n => winHas img n (thetaOf theta n)
  let g := img.fld Reg.RD_PDCFG_GUARD
  let tracked := (twOn img).flatMap (twCells img)
  (List.range 256).foldl (fun m b =>
    if img.flag Reg.RD_PDCFG_NOPD || img.flag Reg.BLK_CFG_FORCEON b || tracked.any (fun c => cellBlock c == b) ||
        (grownBlock b g).any (fun c => tests.any fun t => t c) then m + 2 ^ b else m) 0

/-! ## Failed and ready units -/

namespace State

/-- Cell `c` is marked failed (BLK_FAILi). -/
def cellFailed (s : State) (c : Nat) : Bool :=
  hasBit (s.get Reg.BLK_FAIL_FAILED (cellBlock c) (cellLocal c / 32)) (cellLocal c % 32)

/-- Block `b` is failed. -/
def blockFailed (s : State) (b : Nat) : Bool := hasBit s.rd.blkFail b

/-- Region `r` is failed. -/
def regionFailed (s : State) (r : Nat) : Bool := hasBit s.rd.rgnFail r

/-- Cell `c` is failed at any level. -/
def unitFailed (s : State) (c : Nat) : Bool :=
  s.cellFailed c || s.blockFailed (cellBlock c) || s.regionFailed (blockRegion (cellBlock c))

/-- The groups that carry VC `v` for the arming-point computation: its working groups and the spares that will replace
failed ones (R151, R306). -/
def carryGroups (s : State) (img : RegFile) (v : Nat) : List Nat :=
  let en := s.get Reg.LK_GRPEN_EN
  ((bitsOf 32 (img.fld Reg.LK_VCMAP_MAP v)).filter fun g => hasBit en g || s.lstate g == lsFailed).filterMap fun g =>
    if s.carries g then some g else s.spareFor g

/-- Why the rows of cell `c` are filled, 0 for none: its unit has failed, or its block is not among the `ready` ones (R164,
R173). -/
def causeOf (s : State) (ready c : Nat) : Nat :=
  let b := cellBlock c
  if s.regionFailed (blockRegion b) then 3
  else if s.blockFailed b then 2
  else if s.cellFailed c then 1
  else if !hasBit ready b then 5
  else 0

/-- What cell `c` of class `k` puts on a VC that bins it by code `d`. -/
def cellLoad (s : State) (img : RegFile) (ready : Nat) (tracked : List Nat) (k c d : Nat) : CellLoad :=
  let tr := tracked.contains c
  let cause := s.causeOf ready c
  ⟨c, d, gainOf img k, shutter img == 2 && tr, cause, if cause = 0 ∧ shutter img = 1 ∧ tr then 8 else cause⟩

/-- The classes in use: those of the non-failed cells of the blocks in `blocks` (R111). `clsOf` gives a cell's class. -/
def classesUsed (s : State) (clsOf : Nat → Nat) (blocks : Nat) : List Nat :=
  let bs := (List.range 256).filter fun b => hasBit blocks b && !s.blockFailed b && !s.regionFailed (blockRegion b)
  let used := bs.foldl (fun m b => (List.range 256).foldl (fun m l =>
    let c := cellOf b l
    if s.cellFailed c then m else withBit m (clsOf c)) m) 0
  bitsOf 8 used

/-- The largest gain count among classes (R147). -/
def maxGains (img : RegFile) (ks : List Nat) : Nat := (ks.map fun k => gainCount (gainOf img k)).foldl max 1

end State

end Sys2Proof.Machine
end

