-- ==== Sys2Proof/Machine/Thermal.lean ====
section
/-! DEFINITION. The thermal manager: sensors, governing temperature, throttle levels, the two mechanisms and thinning
(14_thermal_and_power.md R380 to R394). -/
namespace Sys2Proof.Machine

/-- The logic-die sensors whose regions share an edge with region `r` (R382). -/
def regionNeighbours (r : Nat) : List Nat :=
  (if r % 4 = 0 then [] else [r - 1]) ++ (if r % 4 = 3 then [] else [r + 1]) ++
    (if r < 4 then [] else [r - 4]) ++ (if 11 < r then [] else [r + 4])

/-- The region under corner `k` of TS16 to TS23 (Table 14-1). -/
def cornerRegion (k : Nat) : Nat := [0, 3, 12, 15].getD k 0

/-- The neighbours of sensor `i` (R382). -/
def sensorNeighbours (i : Nat) : List Nat :=
  if i < 16 then regionNeighbours i
  else if i < 20 then [cornerRegion (i - 16), i + 4]
  else [cornerRegion (i - 20), i - 4]

/-- The sensors that serve region `r` (Table 14-1). -/
def regionSensors (r : Nat) : List Nat :=
  r :: ((List.range 4).filter fun k => cornerRegion k == r).flatMap fun k => [16 + k, 20 + k]

/-- Highest level whose threshold `onset + (l − 1) × w` °C the S9.7 temperature `t` reaches, at most `top` (R385). -/
def levelOf (t onset : Int) (w top : Nat) : Nat :=
  let d := t - onset * 128
  if d < 0 then 0 else min top ((d / (128 * w : Nat)).toNat + 1)

namespace State

/-- Sensor `i` is failed. -/
def sensorFailed (s : State) (i : Nat) : Bool := s.flag Reg.TH_TS_FAILED i

/-- Sensor `i` is valid: not failed and with an accepted sample (R381). -/
def sensorValid (s : State) (i : Nat) : Bool := hasBit s.thermal.accepted i && !s.sensorFailed i

/-- Last accepted value of sensor `i`. -/
def sensorT (s : State) (i : Nat) : Int := s.getS Reg.TH_TS_T i

/-- Sensor `i` fails with a cause; where it gave tmeas, the guard and the floors follow (R383, R385, R392). -/
def failSensor (s : State) (i cause : Nat) : State :=
  let s : State := (s.set Reg.TH_TS_FAILED 1 i).set Reg.TH_TS_CAUSE cause i
  let s : State := (s.set Reg.TH_TS_VALID 0 i).set Reg.TH_FAIL_FAILED (withBit (s.get Reg.TH_FAIL_FAILED) i)
  if i = s.thermal.hot ∧ hasBit s.thermal.accepted i then
    let s : State := { s with thermal := { s.thermal with guardOn := true } }
    (s.set Reg.TH_LEVEL_PFLOOR (max (s.get Reg.TH_LEVEL_PFLOOR) (s.get Reg.TH_LEVEL_PLVL))).set Reg.TH_LEVEL_DFLOOR
      (max (s.get Reg.TH_LEVEL_DFLOOR) (s.get Reg.TH_LEVEL_DLVL))
  else s

/-- The sample `x` of sensor `i` (R381); no value where its converter gives no result. -/
def takeSample (s : State) (i : Nat) (x : Option Int) : State :=
  if s.sensorFailed i then s
  else if hasBit s.thermal.trimBad i then s.failSensor i 3
  else
    let seen := hasBit s.thermal.accepted i
    let good : Bool := match x with
      | none => false
      | some v => decide (-50 * 128 ≤ v ∧ v ≤ 170 * 128) && (!seen || decide ((v - s.sensorT i).natAbs ≤ 5 * 128))
    match x, good with
    | some v, true =>
      let s : State := { s with thermal := { s.thermal with accepted := withBit s.thermal.accepted i } }
      ((s.setS Reg.TH_TS_T v i).set Reg.TH_TS_REJ 0 i).set Reg.TH_TS_VALID 1 i
    | _, _ =>
      let r := min 8 (s.get Reg.TH_TS_REJ i + 1)
      let s := s.set Reg.TH_TS_REJ r i
      if r = 8 then s.failSensor i (if x.isSome then 1 else 3) else s

/-- The neighbour check of sensor `i` (R382) (log entry 32). -/
def checkNeighbours (s : State) (i : Nat) : State :=
  if !s.sensorValid i then s
  else
    let vs := sortAsc (((sensorNeighbours i).filter s.sensorValid).map s.sensorT)
    if vs.isEmpty then s
    else
      let k := vs.length
      let twice := vs.getD ((k - 1) / 2) 0 + vs.getD (k / 2) 0
      let far := decide (2 * 128 * s.get Reg.TH_CHK_NBMAX < (2 * s.sensorT i - twice).natAbs)
      let n := if far then s.thermal.nb.getD i 0 + 1 else 0
      let s : State := { s with thermal := { s.thermal with nb := s.thermal.nb.set i n } }
      if n = 64 then s.failSensor i 2 else s

/-- The level after new lu and ld (R385): `up` and `down` are the last 8 of each, newest first. -/
def nextLevel (lvl floor : Nat) (up down : List Nat) : Nat :=
  let lo := up.foldl min (up.headD 0)
  let hi := down.foldl max 0
  max floor (if lvl < lo then lo else if hi < lvl then hi else lvl)

/-- A frame is armed or in readout (R389). -/
def frameBusy (s : State) : Bool := s.frames.any fun f => decide (f.phase < 3)

/-- The chip-wide division that the acting mechanism asks for (R387, R389). -/
def chipDiv (s : State) : Nat := if s.get Reg.TH_STAT_MECH = 1 then s.get Reg.TH_LEVEL_DLVL else 0

/-- p in percent (R387, R388), with the SLOPE of the last sample (R394). -/
def thinPct (s : State) : Nat :=
  if s.get Reg.TH_STAT_MECH = 1 then 0 else s.get Reg.TH_LEVEL_PLVL * s.thermal.slope

/-- TH_LEVEL.P, and division where no frame is armed or in readout (R387, R389). -/
def applyLevels (s : State) : State :=
  let s := s.set Reg.TH_LEVEL_P s.thinPct
  if s.frameBusy then s else { s with thermal := { s.thermal with div := s.chipDiv } }

/-- The hottest valid sensor and its value, the lowest index of equal ones (R383). -/
def hottest (s : State) : List Nat → Option (Int × Nat)
  | [] => none
  | i :: rest => match hottest s rest with
    | none => some (s.sensorT i, i)
    | some (t, j) => if s.sensorT i < t then some (t, j) else some (s.sensorT i, i)

/-- The samples taken and checked, sensor by sensor (R385), with VALIDCNT and NOSENS (R381, R382, R391). -/
def sampleSensors (s : State) (xs : List (Option Int)) : State :=
  let s : State := (List.range 24).foldl (fun s i => (s.takeSample i (xs.getD i none)).checkNeighbours i) s
  let s := s.set Reg.TH_STAT_VALIDCNT ((List.range 24).filter s.sensorValid).length
  s.set Reg.TH_RGNDIV_NOSENS
    ((List.range 16).foldl (fun m r => if (regionSensors r).any s.sensorValid then m else withBit m r) 0)

/-- tmeas, tgov and the count of samples at 155 °C (R383, R385): without a valid sensor the last tmeas stays. -/
def governing (s : State) : State :=
  let h : Int × Nat := (s.hottest ((List.range 24).filter s.sensorValid)).getD (sext 16 s.thermal.tmax, s.thermal.hot)
  let sd := if 155 * 128 ≤ h.1 then s.thermal.sd + 1 else 0
  let s : State := { s with thermal := { s.thermal with tmax := scode 16 h.1, hot := h.2, sd := sd } }
  let s := s.set Reg.TH_STAT_HOT h.2
  let s := s.setS Reg.TH_STAT_TGOV (h.1 + (if s.thermal.guardOn then 8 * 128 else 0))
  s.set Reg.TH_STAT_GUARD (if s.thermal.guardOn then 1 else 0)

/-- The new histories of lu and ld from tgov (R385). -/
def newHistories (s : State) (tgov : Int) : Thermal :=
  let onset : Int := s.get Reg.TH_CFG_ONSET
  let hys : Int := s.get Reg.TH_CFG_HYS
  let dw := s.get Reg.TH_CFG_DW
  let pTop := s.get Reg.TH_CFG_PMAX / max 1 (s.get Reg.TH_CFG_SLOPE)
  let th := s.thermal
  { th with
    slope := s.get Reg.TH_CFG_SLOPE
    pLu := (levelOf tgov onset 1 pTop :: th.pLu).take 8
    pLd := (levelOf tgov (onset - hys) 1 pTop :: th.pLd).take 8
    dLu := (levelOf tgov onset dw 5 :: th.dLu).take 8
    dLd := (levelOf tgov (onset - hys) dw 5 :: th.dLd).take 8 }

/-- PLVL and DLVL after a sample (R385, R388), with the count of rises of the acting one from 0 and its interrupt
(R424). -/
def moveLevels (s : State) : State :=
  let s : State := { s with thermal := s.newHistories (s.getS Reg.TH_STAT_TGOV) }
  let p0 := s.get Reg.TH_LEVEL_PLVL
  let d0 := s.get Reg.TH_LEVEL_DLVL
  let p := nextLevel p0 (s.get Reg.TH_LEVEL_PFLOOR) s.thermal.pLu s.thermal.pLd
  let d := nextLevel d0 (s.get Reg.TH_LEVEL_DFLOOR) s.thermal.dLu s.thermal.dLd
  let s : State := if p0 = 0 ∧ 0 < p then { s with thermal := { s.thermal with accFrame := 99, accTrack := [] } } else s
  let rise := if s.get Reg.TH_STAT_MECH = 1 then decide (d0 = 0 ∧ 0 < d) else decide (p0 = 0 ∧ 0 < p)
  let s : State := if rise then (s.bump Reg.TH_CNT_ENTRIES).raiseIbi 3 else s
  ((s.set Reg.TH_LEVEL_PLVL p).set Reg.TH_LEVEL_DLVL d).applyLevels

/-- The stop that the samples call for (R385, R393). -/
def thermalStop (s : State) : Option (DevState × Cause) :=
  if 4 ≤ s.thermal.sd then some (.shutdown, .thermal)
  else if s.get Reg.TH_STAT_VALIDCNT < 12 then some (.safe, .sensorsFew)
  else none

/-- The steps of R385 on the 24 samples, and the stop they call for. -/
def thermalSample (s : State) (xs : List (Option Int)) : State × Option (DevState × Cause) :=
  let s : State := ((s.sampleSensors xs).governing).moveLevels
  (s, s.thermalStop)

/-- The mechanism chosen at an arming point from the number of powered blocks (R387), and the division that then takes
effect (R389). -/
def chooseMech (s : State) (blocks : Nat) : State :=
  let s := s.set Reg.TH_STAT_MECH (if 64 < blocks then 1 else 0)
  let s := s.set Reg.TH_LEVEL_P s.thinPct
  { s with thermal := { s.thermal with div := s.chipDiv } }

/-- Four times the division in force in region `r` (R150, R391). -/
def regionDiv4 (s : State) (r : Nat) : Nat := if hasBit (s.get Reg.TH_RGNDIV_NOSENS) r then max 16 (div4 s.thermal.div) else div4 s.thermal.div

/-- The division at which a frame over some regions is read (R391). -/
def frameDiv (s : State) (regions : List Nat) : Nat :=
  if regions.any fun r => hasBit (s.get Reg.TH_RGNDIV_NOSENS) r then 5 else s.chipDiv

/-- One step of a thinning accumulator (R388): the new value, and whether to execute. -/
def thinStep (acc p : Nat) : Nat × Bool :=
  let a := acc + (100 - p)
  if 100 ≤ a then (a - 100, true) else (a, false)

/-- A frame start is thinned (R388): it executes, or is counted in THSKIP. -/
def thinFrame (s : State) : State × Bool :=
  if s.thinPct = 0 then (s, true)
  else
    let (a, go) := thinStep s.thermal.accFrame s.thinPct
    let s : State := { s with thermal := { s.thermal with accFrame := a } }
    (if go then s else s.bump Reg.TH_CNT_THSKIP, go)

/-- A START_TRACK execution of slot `n` is thinned (R388). -/
def thinTrack (s : State) (n : Nat) : State × Bool :=
  if s.thinPct = 0 then (s, true)
  else
    let acc := match s.thermal.accTrack.find? (·.1 == n) with
      | some (_, a) => a
      | none => 99
    let (a, go) := thinStep acc s.thinPct
    ({ s with thermal := { s.thermal with accTrack := (n, a) :: s.thermal.accTrack.filter (·.1 != n) } }, go)

end State

end Sys2Proof.Machine
end

