-- ==== Sys2Proof/Machine/Cistern.lean ====
section
/-! DEFINITION. The cistern's capacity, costs and admission, channel loss, the ring, recalls and their discard
(08_cistern.md R233 to R259). -/
namespace Sys2Proof.Machine

/-- Planning figure per channel in bytes per second (Table 8-1), by speed code. -/
def planFigure (speed : Nat) : Nat := [28125000000, 32812500000, 37500000000].getD speed 37500000000

/-- A size rounded up to 2 MiB: one slot (R240). -/
def slotSize (f : Nat) : Nat := ceilDiv f 2097152 * 2097152

/-- Result of an admission run. -/
structure Admission where
  bits : Nat
  refused : Nat
  used : Rat
  budget : Nat
  rate : Nat × Nat
  pre : Nat
  ovr : Bool
  nospace : Bool
  cut : Bool

/-- The values of the fields that Table 8-2 and R240 use (R243): the uses' enables and sizes, what makes F, S and R (R242), and
through the mode limit what makes t_rd (R151). -/
def admitKey (img : RegFile) : List Nat × RegFile :=
  let flds : List Fld := [Reg.EX_MODE_SHUTTER, Reg.EX_MODE_HDROUT, Reg.EX_MODE_FREERUN, Reg.EX_FRPER_PERIOD, Reg.EX_PIXCFG_CHGBIN,
    Reg.EX_BURST_CLASS, Reg.EX_BURST_USEMAP, Reg.RD_CONV_REFEVERY, Reg.RD_CONV_REFOUT, Reg.RD_CONV_DGOUT, Reg.RD_CONV_BITS,
    Reg.RD_PACE_RDTIME, Reg.RD_STRIPE_EN, Reg.RD_STRIPE_V0, Reg.RD_STRIPE_H, Reg.RD_PDCFG_NOPD, Reg.RD_PDCFG_GUARD,
    Reg.CS_CFG_MAXSPD, Reg.CS_CFG_RVC, Reg.CS_CFG_ACCEN, Reg.CS_CFG_RINGEN, Reg.CS_CFG_ROEN, Reg.CS_CFG_S2EN, Reg.CS_CFG_RWEN,
    Reg.CS_RATE_FPSMAX, Reg.CS_RING_PRE, Reg.CS_RING_POST, Reg.CS_SPILL_RSVG]
  let wins : List Fld := [Reg.RD_PW_CFG_EN, Reg.RD_PW_CFG_ROT, Reg.RD_PW_CFG_DBIN, Reg.RD_PW_CFG_VC, Reg.RD_PW_CFG_MARGIN,
    Reg.RD_PW_POS_Y0, Reg.RD_PW_POS_X0, Reg.RD_PW_SIZE_H, Reg.RD_PW_SIZE_W, Reg.RD_PW_CX_C, Reg.RD_PW_CY_C, Reg.RD_PW_ANG_ANG,
    Reg.LK_VCMAP_MAP]
  let track : List Fld := [Reg.TK_W_CFG_EN, Reg.TK_W_CFG_HM1, Reg.TK_W_CFG_WM1, Reg.TK_W_CFG_CY0, Reg.TK_W_CFG_CX0]
  let plans : List Fld := [Reg.TK_PLAN_CFG_EN, Reg.TK_PLAN_WLO_MASK, Reg.TK_PLAN_WHI_MASK]
  let each (n : Nat) (fs : List Fld) : List Nat := (List.range n).flatMap fun i => fs.map fun f => img.fld f i
  (flds.map (fun f => img.fld f) ++ each 8 [Reg.EX_EC_CFG_GAIN] ++ each 16 wins ++ each 64 track ++ each 64 plans, mapWords img)

/-- Binning of a window's raster samples: charge binning times DBIN (R262). -/
def windowBin (img : RegFile) (n : Nat) : Nat := (if chgBin img then 2 else 1) * 2 ^ dbinOf img n

/-- Wo and Ho of window `n` (R262). -/
def outSize (img : RegFile) (n : Nat) : Nat × Nat :=
  let b := windowBin img n
  let w := img.fld Reg.RD_PW_SIZE_W n
  let h := img.fld Reg.RD_PW_SIZE_H n
  if img.flag Reg.RD_PW_CFG_ROT n then (w / b, h / b)
  else
    let x := img.fld Reg.RD_PW_POS_X0 n
    let y := img.fld Reg.RD_PW_POS_Y0 n
    ((min (x + w) 16384 - 1) / b + 1 - x / b, (min (y + h) 16384 - 1) / b + 1 - y / b)

/-- Window CP_CFG.PW is enabled and on the raster VC (R260). -/
def procWin (cp img : RegFile) : Bool :=
  let n := cp.fld Reg.CP_CFG_PW
  winOn img n && img.fld Reg.RD_PW_CFG_VC n == img.fld Reg.CS_CFG_RVC

/-- Size of the preview picture from Wo × Ho (R278). -/
def previewSize (cp : RegFile) (wo ho : Nat) : Nat × Nat :=
  let fit (x o : Nat) : Nat := if o < x then o else max x (ceilDiv o 16)
  let w := fit (cp.fld Reg.CP_PVSIZE_WOUT) wo
  (if cp.fld Reg.CP_PV_FMT < 2 then w + w % 2 else w, fit (cp.fld Reg.CP_PVSIZE_HOUT) ho)

namespace State

/-- The working channels (R235, R258). -/
def channels (s : State) : List Nat := (List.range 4).filter s.chanUp

/-- Speed code under settings `img`: the lowest rated among the working modules, limited by MAXSPD (R234). -/
def cisSpeed (s : State) (img : RegFile) : Nat :=
  s.channels.foldl (fun m n => min m (s.cis.rated.getD n 2)) (min 2 (img.fld Reg.CS_CFG_MAXSPD))

/-- The speed in use shown for the working channels (CS_CHnSTAT.SPEED). -/
def showSpeed (s : State) (img : RegFile) : State :=
  let code := s.cisSpeed img
  s.channels.foldl (fun s n => s.set Reg.CS_CH_STAT_SPEED code n) s

/-- The channel and the address in it of byte `a` of the cistern: 4 KiB granules in turn over the working channels, in
ascending order (R238). -/
def granule (s : State) (a : Nat) : Nat × Nat :=
  let cs := s.channels
  let g := a / 4096
  (cs.getD (g % cs.length) 0, g / cs.length * 4096 + a % 4096)

/-- Capacity of the working channels in bytes (R233, R234). -/
def cisBytes (s : State) : Nat :=
  let gb := s.channels.map fun n => s.get Reg.CS_CH_STAT_SIZE n
  match gb with
  | [] => 0
  | g :: gs => gb.length * (gs.foldl min g) * 1024 * 1048576

/-- Capacity of the frame area: all but the top sixteenth of each working channel (R239). -/
def frameArea (s : State) : Nat := s.cisBytes - s.cisBytes / 16

/-- θ for admission: every window at its base angle (R242). -/
def baseTheta (img : RegFile) : List (Nat × Int) :=
  (winsOn img).map fun n =>
    (n, if img.flag Reg.RD_PW_CFG_ROT n then reduceAngle (img.sfld Reg.RD_PW_ANG_ANG n) else 0)

/-- The class of a cell for burst entry `e` of settings (R116). -/
def entryClass (img map : RegFile) (e c : Nat) : Nat :=
  if img.flag Reg.EX_BURST_USEMAP e then mapClass map c else img.fld Reg.EX_BURST_CLASS e

/-- Bytes, samples and bytes of one tap that the stream on a VC carries per frame (R241). -/
def streamSize (img : RegFile) (theta : List (Nat × Int)) (mono hdrout : Bool) (gOf : Nat → Nat) (v : Nat) :
    Nat × Nat × Nat :=
  let cells := (vcCells img theta v).map fun c => (cellDbin img theta v c, gOf c)
  cells.foldl (fun (acc : Nat × Nat × Nat) x =>
    let (rows, bytes) := rowsOut img mono true hdrout x.2 x.1
    let one := rows * packedBytes (sprOf img x.1) (rawBits img)
    (acc.1 + rows * bytes, acc.2.1 + rows * sprOf img x.1, acc.2.2 + one)) (0, 0, 0)

/-- The groups that carry VC `v` for an admission run (R242, R510): those of its mask that are enabled and have not failed, and
the spares of those that have. -/
def admitGroups (s : State) (img : RegFile) (v : Nat) : List Nat :=
  let en := s.get Reg.LK_GRPEN_EN
  ((bitsOf 32 (img.fld Reg.LK_VCMAP_MAP v)).filter fun g => hasBit en g || s.lstate g == lsFailed).filterMap fun g =>
    if s.lstate g = lsFailed ∨ hasBit s.joined g then s.spareFor g else some g

/-- The frame limit as an interval in ns, from the powered set, the classes and the groups of an arming point (R153, R154,
R242). -/
def frameInterval (s : State) (img : RegFile) (theta : List (Nat × Int)) (hdrout : Bool) (clsOf : Nat → Nat) : Nat :=
  let powered := poweredSet img theta
  let gains := maxGains img (s.classesUsed clsOf powered)
  let tracked := trackedCells img
  let tl := tLinkOf img theta s.mono true hdrout (fun c => s.cellLoad img powered tracked (clsOf c) c) (s.admitGroups img)
  let vb := 1000 * s.get Reg.TB_SCHED_VBMIN
  if hdrout then max (max (max (tConvOf img true gains 0) (img.fld Reg.RD_PACE_RDTIME) + vb) (tl.ceil.toNat + vb)) 500000
  else max (tRdOf img true gains 0 tl + vb) 500000

/-- One admission run on settings `img` (R240 to R243) (log entry 35). -/
def admission (s : State) (img : RegFile) : Admission :=
  let theta := baseTheta img
  let clsOf := entryClass img (mapWords img) 0
  let gOf := fun c => gainCount (gainOf img (clsOf c))
  let wantHold := shutter img == 2 && img.flag Reg.EX_MODE_HDROUT
  let rateOf (hdr : Bool) : Nat × Nat :=
    if img.flag Reg.EX_MODE_FREERUN then (10 * max 1 (img.fld Reg.EX_FRPER_PERIOD), 1)
    else if img.fld Reg.CS_RATE_FPSMAX ≠ 0 then (16000000000, img.fld Reg.CS_RATE_FPSMAX)
    else (s.frameInterval img theta hdr clsOf, 1)
  let v := img.fld Reg.CS_CFG_RVC
  let n := s.channels.length
  let budget := n * planFigure (s.cisSpeed img)
  let area := s.frameArea
  let perSec (x : Nat) (r : Nat × Nat) : Rat := (x : Rat) * 1000000000 * (r.2 : Nat) / (max 1 r.1 : Nat)
  -- merged-HDR holding first; refused, it is read with HDROUT taken as 0 (R245)
  let r0 := rateOf wantHold
  let (_, _, ftap) := streamSize img theta s.mono wantHold gOf v
  let c0 := perSec (4 * ftap) r0
  let fits0 := decide (c0 ≤ (budget : Nat)) && n != 0
  let room0 := decide (2 * slotSize ftap ≤ area)
  let hold := wantHold && fits0 && room0
  let r := if hold then r0 else rateOf false
  let (f, sam, _) := streamSize img theta s.mono hold gOf v
  let used := if hold then c0 else 0
  let space := if hold then 2 * slotSize ftap else 0
  let ovr := wantHold && !fits0
  let nosp := wantHold && fits0 && !room0
  let bits := if hold then 1 else 0
  let ref := if wantHold && !hold then 1 else 0
  let rsvg := min 32 (img.fld Reg.CS_SPILL_RSVG)
  let uses : List (Nat × Bool × Rat × Nat × Bool) :=
    [(1, img.flag Reg.CS_CFG_RWEN, perSec f r, 2 * slotSize f, false),
     (2, img.flag Reg.CS_CFG_S2EN, perSec f r, 0, true),
     (3, img.flag Reg.CS_CFG_ROEN, perSec f r, 0, true),
     (4, img.flag Reg.CS_CFG_ACCEN, perSec (8 * sam) r, 2 * slotSize (4 * sam), true),
     (5, rsvg != 0, ((rsvg * 4687500000 : Nat) : Rat), 0, false)]
  let (bits, ref, used, space, ovr, nosp) := uses.foldl
    (fun (a : Nat × Nat × Rat × Nat × Bool × Bool) u =>
      let (bits, ref, used, space, ovr, nosp) := a
      let (i, want, cost, need, needsRw) := u
      if !want then a
      else if (needsRw && !hasBit bits 1) || (i == 4 && hasBit s.domLost 11) then (bits, ref + 2 ^ i, used, space, ovr, nosp)
      else if n = 0 ∨ (budget : Rat) < used + cost then (bits, ref + 2 ^ i, used, space, true, nosp)
      else if area < space + need then (bits, ref + 2 ^ i, used, space, ovr, true)
      else (bits + 2 ^ i, ref, used + cost, space + need, ovr, nosp))
    (bits, ref, used, space, ovr, nosp)
  let pre := img.fld Reg.CS_RING_PRE
  let post := max 1 (img.fld Reg.CS_RING_POST)
  let slots := (area - space) / max 1 (slotSize f)
  let (bits, ref, pre, nosp, cut) :=
    if !img.flag Reg.CS_CFG_RINGEN then (bits, ref, pre, nosp, false)
    else if !hasBit bits 1 then (bits, ref + 64, pre, nosp, false)
    else if slots < post then (bits, ref + 64, pre, true, false)
    else (bits + 64, ref, min pre (slots - post), nosp, decide (slots - post < pre))
  ⟨bits, ref, used, budget, r, pre, ovr, nosp, cut⟩

/-- The preview asks for more than 0.9 of the port (R280). `rate` is 1/R as a fraction of ns. -/
def previewOver (s : State) (cp img : RegFile) (rate : Nat × Nat) : Bool :=
  let (wo, ho) := if procWin cp img then outSize img (cp.fld Reg.CP_CFG_PW) else (0, 0)
  let (w, h) := if wo = 0 ∨ ho = 0 then (cp.fld Reg.CP_PVSIZE_WOUT, cp.fld Reg.CP_PVSIZE_HOUT) else previewSize cp wo ho
  let bpp := [16, 20, 10, 12].getD (cp.fld Reg.CP_PV_FMT) 20
  let lane := clampN 8 250 (s.get Reg.PK_PVPHY_RATE) * 10000000
  decide (36 * lane * rate.1 < 10 * (w * h * bpp * (1000000000 * rate.2)))

/-- A pending stage-2 commit with its preview check made again, against settings `img` and 1/R (R280). -/
def recheckPreview (s : State) (img : RegFile) (rate : Nat × Nat) (c : Commit) : Commit :=
  { c with reset := s.previewOver c.img img rate }

/-- The system area without the descriptors, in MiB: the most that the spill ring can have (R239). -/
def spillMax (s : State) : Nat := s.cisBytes / 16 / 1048576 - 64

/-- CS_SPILL.SIZE reduced to what fits (R239). -/
def fitSpill (s : State) : State :=
  if s.channels.isEmpty then s
  else { s with regs := s.regs.setFld Reg.CS_SPILL_SIZE (min (s.get Reg.CS_SPILL_SIZE) s.spillMax) }

/-- The spill ring of the settings in force (R239). -/
def takeSpill (s : State) : State :=
  if s.channels.isEmpty then s
  else { s with cis := { s.cis with spillSize := min (s.inForce.fld Reg.CS_SPILL_SIZE) s.spillMax * 1048576 } }

/-- The result of an admission run shown in CS_ADMIT, CS_BUDGET and CS_STAT (R240, R243, R244), with the preview's check
(R280). -/
def showAdmission (s : State) (img : RegFile) (a : Admission) : State :=
  let s : State := (s.set Reg.CS_ADMIT_ADMITTED a.bits).set Reg.CS_ADMIT_REFUSED a.refused
  let hundredths (x : Rat) : Nat := min 65535 (x / 10000000).floor.toNat
  let s : State := (s.set Reg.CS_BUDGET_BUDGET (hundredths a.budget)).set Reg.CS_BUDGET_USED (hundredths a.used)
  let s : State := if a.ovr then s.set Reg.CS_STAT_OVERCOMMIT 1 else s
  let s : State := if a.nospace then s.set Reg.CS_STAT_NOSPACE 1 else s
  let s : State := if a.cut then s.set Reg.CS_STAT_RINGCUT 1 else s
  let off := s.previewOver s.cpInForce img a.rate
  let pend := s.cpCommits.map (s.recheckPreview img a.rate)
  let s : State := if off || pend.any (·.reset) then s.set Reg.CP_STAT_PVRATE 1 else s
  { s with cpCommits := pend }

/-- The accumulation group under way is abandoned (R254). -/
def dropGroup (s : State) : State :=
  if s.cis.acc.isSome then ({ s with cis := { s.cis with acc := none } }).bump Reg.CS_CNT_ACCRST else s

/-- An admission takes force for the frames armed from here on (R244), and the preview with it (R280). -/
def takeAdmission (s : State) (bits : Nat) (rate : Nat × Nat) (pre : Nat) : State :=
  let s : State := { s with cis := { s.cis with
    admis := bits, rate := rate, pre := pre, served := List.replicate 6 0
    pvOff := s.previewOver s.cpInForce s.inForce rate } }
  let s := s.showSpeed s.inForce
  let s : State := (if hasBit bits 4 then s else s.dropGroup).domSet 3 (hasBit bits 2)
  if s.get Reg.CS_RINGSTAT_RSTATE = 0 then s.set Reg.CS_RINGSTAT_PREACT pre else s

/-- Admission at the end of LOAD, and after a channel loss (R243, R244). -/
def admitNow (s : State) (img : RegFile) : State :=
  let a := s.admission img
  ((s.fitSpill.showAdmission img a).takeAdmission a.bits a.rate a.pre).takeSpill

/-- Every copy of stored frame `num` changed through `g`, in the ring, due, under output, in an accumulation group or in stage
2. `low` compares the low 16 bits of the number. -/
def mapStored (s : State) (num : Nat) (low : Bool) (g : Frame → Frame) : State :=
  let one (x : Stored) : Stored :=
    if x.frame.num = num ∨ (low ∧ x.frame.num % 65536 = num) then { x with frame := g x.frame } else x
  let grp (a : AccGroup) : AccGroup := { a with last := a.last.map one }
  { s with
    cis := { s.cis with
      ring := s.cis.ring.map one, rasterDue := s.cis.rasterDue.map one, s2Due := s.cis.s2Due.map one
      out := s.cis.out.map fun (o : OpenOut) => { o with stored := one o.stored }
      acc := s.cis.acc.map grp, accDue := s.cis.accDue.map grp }
    s2 := s.s2.map fun (x : S2Frame) => { x with stored := one x.stored } }

/-- Every stored frame, accumulator, held tap and spilled packet is lost (R254, R258, R259): the ring runs empty, and what the
frames in readout have written goes too. An output whose lines have been read is closed as usual (R318) (log entry 42). -/
def cisternEmpty (s : State) : State :=
  let lost := s.groups.flatMap (·.spill)
  let s := s.dropGroup
  let s : State := { s with
    groups := s.groups.map (fun (g : Group) => { g with spill := [] })
    cis := { s.cis with
      ring := [], postLeft := 0, trigAt := none, release := false, rasterDue := none, accDue := [], acc := none
      s2Due := [] }
    s2 := s.s2.map fun (x : S2Frame) => { x with stored := { x.stored with rows := [] } }
    frames := s.frames.map fun (f : Frame) =>
      let f := if f.hdrout && decide (2 ≤ f.phase) then
          { f with s1 := f.s1.map fun (x : S1Row) => if x.tapB then x else { x with lost := 7 } } else f
      if f.phase < 2 then f else { f with raster := [], admis := f.admis % 2 } }
  let s := lost.foldl drop s
  let s : State := (List.range 32).foldl (fun s g => s.set Reg.LK_GSTAT_SPILLING 0 g) s
  let s : State := (s.set Reg.CS_RINGSTAT_RSTATE 0).set Reg.CS_RINGSTAT_PREACT s.cis.pre
  s.discardRecalls

/-- Channel `n` is lost with a CAUSE (R258, Table 1-6): its domain and the content go, work in flight is discarded (R37),
and re-admission begins, its result in force once complete (R244). -/
def channelLost (s : State) (n cause : Nat) : State :=
  if n < 4 ∧ !s.flag Reg.CS_CH_STAT_LOST n then
    let was := s.chanUp n
    let s : State := ((s.set Reg.CS_CH_STAT_LOST 1 n).set Reg.CS_CH_STAT_TRAINED 0 n).set Reg.CS_CH_STAT_CAUSE cause n
    let s := s.set Reg.PM_OTHER_CS (withoutBit (s.get Reg.PM_OTHER_CS) n)
    let s : State := (s.set Reg.CS_STAT_CHLOST 1).setFault 5
    if s.dev == .train || s.running then
      if was then
        let s := s.workDiscard.cisternEmpty
        let s : State := if s.channels.isEmpty then { s with cis := { s.cis with spillSize := 0 } } else s
        { s with cis := { s.cis with readmit := some s.now } }
      else s
    else s
  else s

/-- A frozen frame with a number (R255). -/
def frozenFrame (s : State) (num : Nat) : Option Stored :=
  if s.get Reg.CS_RINGSTAT_RSTATE = 2 then s.cis.ring.find? fun x => x.frame.num == num else none

/-- Stored row of an output row: y in sample rows of the stream (R325); the reference rows of cell row cy lie past the
active ones, at 16384 + 2 cy (log entry 30). `sites` is the number of samples of an unbinned row. -/
def storedRow (sites : Nat) (r : OutRow) : Nat :=
  if r.row < sites then r.spr * cellY r.cell + r.row else 16384 + 2 * cellY r.cell + (r.row - sites)

/-- The first and last stored row of a frame. -/
def storedSpan (x : Stored) : Nat × Nat :=
  let ys := (x.rows.map (storedRow (rowSites x.frame.img))).filter fun y => decide (y < 16384)
  (ys.foldl min (ys.headD 0), ys.foldl max 0)

/-- A recall request (R255, R297): queued with the next ID, or refused. -/
def submitRecall (s : State) (frame first last vc : Nat) : State :=
  let refuse (r : Nat) : State := (s.set Reg.CS_RCSTAT_RESULT r).set Reg.CS_RCSTAT_RID 0
  if 4 ≤ s.get Reg.CS_RCSTAT_QUEUED then refuse 4
  else match s.frozenFrame frame with
    | none => refuse 3
    | some x =>
      if last < first ∨ last < (storedSpan x).1 ∨ (storedSpan x).2 < last then refuse 5
      else
        let id := (s.get Reg.CS_RCSTAT_ID + 1) % 256
        let s : State := (s.set Reg.CS_RCSTAT_ID id).bump Reg.CS_RCSTAT_QUEUED
        { s with cis := { s.cis with recallQ := s.cis.recallQ ++ [⟨id, frame, first, last, vc⟩] } }

/-- A freeze trigger at instant `t` (R250, R251): heeded in RUNNING only (log entry 46). -/
def freezeRing (s : State) (t : Nat) : State :=
  if s.get Reg.CS_RINGSTAT_RSTATE = 0 ∧ hasBit s.cis.admis 6 then
    let s := s.set Reg.CS_RINGSTAT_RSTATE 1
    let keep := s.cis.ring.drop (s.cis.ring.length - min s.cis.ring.length s.cis.pre)
    let s : State := { s with cis := { s.cis with
      ring := keep, trigAt := some t, postLeft := max 1 (s.live Reg.CS_RING_POST) } }
    s.set Reg.CS_RINGSTAT_PREACT keep.length
  else s

/-- The running recall, with ID `id`, ends without its END packet: what still waits of it goes, and RESULT shows it. -/
def recallLost (s : State) (id : Nat) : State :=
  let s : State := { s.purgeRecalls id with cis := { s.cis with rcl := none } }
  ((s.set Reg.CS_RCSTAT_RESULT 2).set Reg.CS_RCSTAT_RID id).set Reg.CS_RCSTAT_QUEUED (s.get Reg.CS_RCSTAT_QUEUED - 1)

/-- The running recall is discarded because a packet of it was dropped (R38, R256). A release that waited takes effect after the
last recall (R252). -/
def recallFail (s : State) : State :=
  match s.cis.rcl with
  | none => s
  | some (r, _) =>
    let s := s.recallLost r.id
    if s.cis.release then s.releaseRing else s

end State

end Sys2Proof.Machine
end

