-- ==== Sys2Proof/Machine/Exposure.lean ====
section
/-! DEFINITION. The exposure engine up to the arming point: class durations, commits, the local loop's map, block power, the
skip decision, bursts and free-running frames (04_exposure.md; 05_cell_readout.md R151 to R165, R510). -/
namespace Sys2Proof.Machine

open Host (Outcome)

/-- A class as its settings give it (R109, R110, R126), in 10 ns units: the duration d as time, that or the
HDR span, offset, tap B's duration, HDR slices, and which conditions it met. -/
structure ClassPlan where
  d : Nat
  dur : Nat
  ofs : Nat
  durB : Nat
  a : Nat
  b : Nat
  low : Bool
  lowB : Bool
  hdrClamp : Bool
  angFb : Bool
  deriving DecidableEq, Repr

/-- What an arming has worked out for its frame (R510): the settings and their number of frames, the number and burst entry,
the class plans, the class map with its LESRC, the angles, the powered and ready blocks, the division, the classes' times, the instants,
the streams admitted, the readout times, the planned hold and the ends of tap A's rows. -/
structure ArmPlan where
  img : RegFile
  num : Nat
  len : Nat
  entry : Nat
  plan : List ClassPlan
  map : RegFile
  leSrc : Nat
  ovr : Option Nat
  theta : List (Nat × Int)
  rollFb : Bool
  powered : Nat
  ready : Nat
  div : Nat
  used : List Nat
  ts : Nat
  start : Nat
  t : Nat
  ta : Nat
  cls : List FClass
  admis : Nat
  hdrAsked : Bool
  hdrout : Bool
  darkOn : Bool
  strip : Bool
  tConv : Nat
  tRd : Nat
  tEnd : Nat
  holdp : Nat
  rowsA : List Nat
  deriving DecidableEq, Repr

/-- What steps 1 to 4 of R510 give: settings, number, burst and class plan, the angles, the cells of the windows and the cells
whose first exposure must let tap A of the last frame be read (R185). -/
structure ArmSets where
  img : RegFile
  num : Nat
  entry : Nat
  plan : List ClassPlan
  map : RegFile
  leSrc : Nat
  ovr : Option Nat
  tracked : List Nat
  lastSet : List Nat
  theta : List (Nat × Int)
  rollFb : Bool
  cells : List Nat
  deriving DecidableEq, Repr

/-- The class of cell `c` under the plan's map or its burst entry (R133). -/
def ArmSets.clsOf (b : ArmSets) (c : Nat) : Nat := match b.ovr with
  | some k => k
  | none => mapClass b.map c

/-- The blocks that carry cells of the windows. -/
def ArmSets.blocks (b : ArmSets) : List Nat := (List.range 256).filter fun k => b.cells.any fun c => cellBlock c == k

/-- The earliest first exposure, of those of `starts`, among the cells of `lastSet` (R185). -/
def ArmSets.trOf (b : ArmSets) (starts : List Nat) : Option Nat :=
  let ks := b.lastSet.map fun c => starts.getD (b.clsOf c) 0
  if b.lastSet.isEmpty then none else some (ks.foldl min (ks.headD 0))

/-- Slices of tap-interleaved HDR: the number k of tap B slices and the ratio q (R126). -/
def hdrShape (img : RegFile) : Nat × Nat :=
  let n := img.fld Reg.EX_HDR_SLICES
  let n := max 3 (if n % 2 = 0 then n - 1 else n)
  ((n - 1) / 2, clampN 1 64 (img.fld Reg.EX_HDR_RATIO))

/-- Slice lengths of a span `dur` (R126): a, b, and whether the span was lengthened. -/
def hdrSlices (dur k q : Nat) : Nat × Nat × Bool :=
  let b := dur / (k * (q + 1))
  let a := q * k * b / (k + 1)
  if b < 20 ∨ a < 20 then (max a 20, max b 20, true) else (a, b, false)

/-- The layout of a frame relative to its start S (R111, R112, R125, Table 4-8), ns: T, T_A and each class's start. -/
def layoutOf (img : RegFile) (plan : List ClassPlan) (used : List Nat) : Nat × Nat × List Nat :=
  let sh := shutter img
  let span (p : ClassPlan) : Nat := 10 * p.dur
  let dmax := (used.map fun k => match plan[k]? with | some p => span p | none => 0).foldl max 0
  let ofsMin := (used.filterMap fun k => (plan[k]?).map (·.ofs))
  let omin := ofsMin.foldl min (ofsMin.headD 0)
  let startAligned := img.flag Reg.EX_MODE_ALIGN && sh != 3
  let starts := plan.map fun p => if startAligned then 10 * (p.ofs - omin) else dmax - span p
  let ends := used.map fun k => starts.getD k 0 + (match plan[k]? with | some p => span p | none => 0)
  let ta := ends.foldl max 0
  let t := if sh = 1 then (used.map fun k =>
      starts.getD k 0 + (match plan[k]? with | some p => span p + 10 * p.durB | none => 0)).foldl max 0
    else ta
  (t, ta, starts)

/-- How long after the start of a frame, whose classes start at `starts`, its taps must be empty: its first STEER A, or its start in
tap-interleaved HDR (R47, Tables 4-5 to 4-8). -/
def firstSteer (img : RegFile) (plan : List ClassPlan) (used : List Nat) (starts : List Nat) : Nat :=
  let ends := used.map fun k => starts.getD k 0 + (match plan[k]? with | some p => 10 * p.dur | none => 0)
  if shutter img = 2 then 0 else ends.foldl min (ends.headD 0)

namespace State

/-! ## Commits (R134 to R138) -/

/-- EX_COMMIT.GO (R135, R122, R132): admission is run where the commit changes a field of it against the settings that stand before
it (R243), and the spill ring's size is fitted (R239). -/
def captureCommit (s : State) : State :=
  let gen := (s.get Reg.EX_GEN_LASTCMT + 1) % 65536
  let img := s.regs
  let before := (s.commits.getLast?.map (·.img)).getD s.inForce
  let changed := admitKey img != admitKey before
  let a := s.admission img
  let s : State := if changed then s.fitSpill.showAdmission img a else s.fitSpill
  let c : Commit := ⟨s.now, gen, img, s.expo.exWritten, if changed then some (a.bits, a.rate, a.pre) else none⟩
  let free := img.flag Reg.EX_MODE_FREERUN && !before.flag Reg.EX_MODE_FREERUN
  let s : State := { s with
    commits := s.commits ++ [c]
    expo := { s.expo with
      exWritten := false
      freeAt := if free then some (s.now + 1 + 50000) else s.expo.freeAt
      freeN := if free then 0 else s.expo.freeN } }
  (s.set Reg.EX_GEN_LASTCMT gen).set Reg.EX_STAT_PENDING 1

/-- The commits stamped before an arming point reach the frame (R136, R137): the last one's settings come into force, with the
last admission made among them (R244).
Tracking windows whose settings change are noted (R190, R191). The flags say whether a commit did, and whether that one resets the
loop (R122). -/
def reachCommits (s : State) (arm : Nat) : State × Bool × Bool :=
  let hit := s.commits.filter fun c => decide (c.stamp < arm)
  match hit.getLast? with
  | none => (s, false, false)
  | some c =>
    let rest := s.commits.filter fun c => !decide (c.stamp < arm)
    let new := (List.range 64).filter fun w => winWords c.img w != winWords s.inForce w
    let s : State := { s with
      commits := rest, inForce := c.img
      trk := { s.trk with changed := new.map (fun w => (w, arm)) ++ s.trk.changed } }
    let s : State := (s.set Reg.EX_GEN_INFORCE c.gen).set Reg.EX_STAT_PENDING (if rest.isEmpty then 0 else 1)
    let s : State := if s.cis.readmit.isSome then s
      else (match hit.reverse.findSome? Commit.adm with
        | some (bits, rate, pre) => s.takeAdmission bits rate pre
        | none => s).takeSpill
    let s : State := if c.img.flag Reg.EX_PIXCFG_CHGBIN && twoTaps c.img then s.set Reg.EX_PIXSTAT_BINIGN 1 else s
    (s.evalPins, true, c.reset)

/-! ## Classes (R109, R110, R126) -/

/-- The plan of class `k` from the rates at the instant the frame's start became fixed (log entry 28). -/
def classPlan (s : State) (img : RegFile) (rates : List (Bool × Rat)) (k : Nat) : ClassPlan :=
  let (okV, v) := rates.getD (img.fld Reg.EX_EC_CFG_ANGCH k) (false, 1)
  let angle := img.flag Reg.EX_EC_CFG_ANGLE k
  let conv (g : Nat) : Nat := min 4294967295 (roundDiv (((g : Rat) * 100 / v * 2).floor) 2).toNat
  let (pd, po) := s.expo.prev.getD k (20, 0)
  let (d, o) := if !angle then (img.fld Reg.EX_EC_DUR_DUR k, img.fld Reg.EX_EC_OFS_OFS k)
    else if okV then (conv (img.fld Reg.EX_EC_DUR_DUR k), conv (img.fld Reg.EX_EC_OFS_OFS k))
    else (pd, po)
  let db := img.fld Reg.EX_EC_DURB_DURB k
  let low := decide (d < 20)
  let d := max d 20
  let (kk, q) := hdrShape img
  let (a, b, cl) := hdrSlices d kk q
  let hdr := shutter img == 2
  { d := d, dur := if hdr then (kk + 1) * a + kk * b else d
    ofs := o, durB := max db 20, a := a, b := b, low := low, lowB := decide (db < 20)
    hdrClamp := hdr && cl, angFb := angle && !okV }

/-! ## Block power (R163 to R165, R399) -/

/-- Block `b` is on. -/
def blockOn (s : State) (b : Nat) : Bool := hasBit (s.get Reg.PM_BLK_ON (b / 32)) (b % 32)

/-- Block `b` switched on at `t`: not ready until BLOCK_READY (R164); its region with it (R165). -/
def switchOn (s : State) (b t : Nat) : State :=
  let s := s.set Reg.PM_BLK_ON (withBit (s.get Reg.PM_BLK_ON (b / 32)) (b % 32)) (b / 32)
  let s : State := (s.set Reg.BLK_STAT_POWERED 1 b).set Reg.BLK_STAT_READY 0 b
  let s := s.set Reg.PM_RGN_ON (withBit (s.get Reg.PM_RGN_ON) (blockRegion b))
  { s with rd := { s.rd with onAt := (b, t) :: s.rd.onAt.filter (·.1 != b) } }

/-- Block `b` switched off: its trim shadows, queues and black levels go; its region too when all 16 blocks are off. -/
def switchOff (s : State) (b : Nat) : State :=
  let s := s.set Reg.PM_BLK_ON (withoutBit (s.get Reg.PM_BLK_ON (b / 32)) (b % 32)) (b / 32)
  let s : State := (s.set Reg.BLK_STAT_POWERED 0 b).set Reg.BLK_STAT_READY 0 b
  let s : State := { s with rd := { s.rd with
    onAt := s.rd.onAt.filter (·.1 != b)
    outside := s.rd.outside.filter (·.1 != b)
    cells := s.rd.cells.filter fun c => cellBlock c.cell != b
    blacks := s.rd.blacks.filter fun c => cellBlock c.cell != b } }
  if (regionBlocks (blockRegion b)).any s.blockOn then s
  else s.set Reg.PM_RGN_ON (withoutBit (s.get Reg.PM_RGN_ON) (blockRegion b))

/-- Powering at an arming point (R163 to R165): wanted blocks go on at once, others off after HOLDOFF points. -/
def powerBlocks (s : State) (want t hold : Nat) : State :=
  (List.range 256).foldl (fun s b =>
    if s.blockFailed b || s.regionFailed (blockRegion b) then s
    else if hasBit want b then
      let s : State := { s with rd := { s.rd with outside := s.rd.outside.filter (·.1 != b) } }
      if s.blockOn b then s else s.switchOn b t
    else if s.blockOn b then
      let n := ((s.rd.outside.find? (·.1 == b)).map (·.2)).getD 0 + 1
      if hold ≤ n then s.switchOff b
      else { s with rd := { s.rd with outside := (b, n) :: s.rd.outside.filter (·.1 != b) } }
    else s) s

/-- Blocks that are on, as a mask. -/
def onMask (s : State) : Nat := (List.range 8).foldl (fun m i => m + 2 ^ (32 * i) * s.get Reg.PM_BLK_ON i) 0

/-- Blocks that are ready, as a mask. -/
def readyMask (s : State) : Nat :=
  (List.range 256).foldl (fun m b => if s.flag Reg.BLK_STAT_READY b then m + 2 ^ b else m) 0

/-! ## The local loop's map at an arming point (R115, R116, R121 to R124) -/

/-- Durations of the classes non-decreasing in time units (R124). -/
def dursSorted (plan : List ClassPlan) : Bool :=
  (List.range 7).all fun k => match plan[k]?, plan[k + 1]? with
    | some p, some q => decide (p.d ≤ q.d)
    | _, _ => true

/-- The loop's map and LESRC as they stood at the instant `t`: decisions complete before it are in them (R121). -/
def mapAt (e : Exposure) (t : Nat) : RegFile × Nat :=
  match e.leLog.find? fun x => decide (t ≤ x.1) with
  | some x => x.2
  | none => (e.work, e.leSrc)

/-- The class map words that frame `num` with arming point `arm` uses, their LESRC, and the loop's state (R115, R116, R121 to
R124). A resetting commit (`reset`) and a resumption start from the committed map. -/
def loopMap (s : State) (img : RegFile) (plan : List ClassPlan) (reset : Bool) (num arm : Nat) : State × RegFile × Nat :=
  let com := mapWords img
  let en := img.flag Reg.EX_LECFG_EN
  let sorted := dursSorted plan
  let run := en && sorted && shutter img != 2
  let s : State := (s.set Reg.EX_LESTAT_SUSP (if en && !run then 1 else 0)).set Reg.EX_LESTAT_ACTIVE (if run then 1 else 0)
  let s : State := if en && !sorted then s.set Reg.EX_LESTAT_ORDERR 1 else s
  if !run then ({ s with expo := { s.expo with leOn := false, work := com, leSrc := 0, leLog := [] } }, com, 0)
  else if reset || !s.expo.leOn then
    ({ s with expo := { s.expo with
      leOn := true, work := com, votes := [], leSrc := 0, leFrom := num, leMoved := false, leLog := [] } }, com, 0)
  else
    let m := mapAt s.expo arm
    ({ s with expo := { s.expo with leLog := s.expo.leLog.filter fun x => decide (arm ≤ x.1) } }, m.1, m.2)

/-! ## Windows at an arming point (R156 to R161) -/

/-- θ of window `n` for a frame whose planned transfer is `t` (R157, R159), and whether the previous θ was used. -/
def windowTheta (s : State) (img : RegFile) (n t : Nat) : Int × Bool :=
  if !img.flag Reg.RD_PW_CFG_ROT n then (0, false)
  else
    let ang := img.sfld Reg.RD_PW_ANG_ANG n
    if !img.flag Reg.RD_PW_CFG_ROLL n then (reduceAngle ang, false)
    else
      let ch := img.fld Reg.RD_PW_CFG_RCH n
      let st := s.cstate ch
      if st = csTrack ∨ st = csCoast then
        let d := wrapDiff (s.modulus ch) (s.posAt ch t - img.sfld Reg.RD_PW_RP0_RP0 n * 65536)
        (reduceAngle (ang + roundDiv (img.sfld Reg.RD_PW_ROLL_RGAIN n * d) (2 ^ 32)), false)
      else match s.expo.theta.find? (·.1 == n) with
        | some (_, a) => (a, true)
        | none => (reduceAngle ang, true)

/-- Registers that report the geometry of the most recently armed frame (R156, R158, R161, BLK_CSETi). -/
def showGeometry (s : State) (img : RegFile) (theta : List (Nat × Int)) (cells : List Nat) : State :=
  let s : State := (List.range 16).foldl (fun s n =>
    let on := winOn img n
    let s : State := if img.flag Reg.RD_PW_CFG_EN n && !on then s.set Reg.RD_STAT_PWERR 1 else s
    if on then
      let a := thetaOf theta n
      let s := s.set Reg.RD_PW_INFO_CELLS ((List.range 65536).filter (winHas img n a)).length n
      let s := s.setS Reg.RD_PW_ANGU_ANGU a n
      if winClipped img n a then s.set Reg.RD_STAT_PWCLIP 1 else s
    else (s.set Reg.RD_PW_INFO_CELLS 0 n).set Reg.RD_PW_ANGU_ANGU 0 n) s
  let s : State := (List.range 256).foldl (fun s b =>
    let ls := localsIn cells b
    (List.range 8).foldl (fun s i =>
      s.set Reg.BLK_CSET_INSET ((ls.filter fun l => l / 32 == i).foldl (fun m l => m + 2 ^ (l % 32)) 0) b i) s) s
  let s : State := if (winsOn img).isEmpty then s.set Reg.RD_STAT_EMPTY 1 else s
  if (stripe img).2.2 then s.set Reg.RD_STAT_STRIPECLIP 1 else s

/-! ## The limits of the previous frame (R98, R108, R149, R153, R185) -/

/-- The share u of converter time that tracking reads take in the worst cell, from the rates of the armed repeat START_TRACK
slots whose windows cover it (R149, R181) (log entry 35). -/
def trackShare (s : State) (img : RegFile) (div : Nat) : Rat :=
  let read : Rat := ((6400 * div4 div : Nat) : Rat)
  let rate (n : Nat) : Rat :=
    let x := s.slot n
    let v := s.rateOf x.ch
    (if v < 0 then -v else v) * 65536 / (x.step.natAbs : Nat) / 1000
  let owned := twOwned img
  let loads := ((List.range 64).filter fun n =>
      let x := s.slot n
      s.sstate n != ssIdle && x.action == 3 && x.repeats && x.step != 0 && img.flag Reg.TK_PLAN_CFG_EN x.arg).map fun n =>
    (rate n, (owned.filter (hasBit (planMask img (s.slot n).arg))).flatMap (twCells img))
  let shares := (trackedCells img).map fun c => ((loads.filter fun l => l.2.contains c).map (·.1)).sum
  shares.foldl max 0 * read

/-- A readout time stretched by the share `u` (R149), rounded up to a whole ns (log entry 26). -/
def stretch (t : Nat) (u : Rat) (div : Nat) : Nat :=
  if 0 < u ∧ u < 1 then ((t : Rat) / (1 - u)).ceil.toNat + 6400 * div4 div else t

/-- The earliest start of a frame whose transfer comes `t0` after it and whose first STEER `fa` after it, `two` taps being used (R47,
R98, R108, R153). `tr` gives, by row of the last frame's tap A, how long after the start the exposure of a tracked cell needs that row
read, none where nothing does (R185, R187). -/
def earliestStart (s : State) (t0 fa : Nat) (two : Bool) (tr : Option (Nat → Nat)) : Nat :=
  match s.expo.lastT with
  | none => 0
  | some lt =>
    let et := max (s.expo.lastEnd + 1000 * s.get Reg.TB_SCHED_VBMIN) (lt + 500000)
    let tapA := s.expo.lastRows.foldl max 0
    let tapB := if two && s.frames.getLast?.any (fun g => twoTaps g.img) then s.expo.lastEnd else 0
    let base := max (max lt (et - t0)) (if max tapA tapB = 0 then 0 else max tapA tapB + 340 - fa)
    match tr with
    | none => base
    | some off => (s.expo.lastRows.zipIdx.map fun x => x.1 + 340 - off x.2).foldl max base

/-! ## START_EXP (R113) -/

/-- Class `c` of an end-aligned frame started at `st` by START_EXP (R113, R126). In tap-interleaved HDR its slices are computed
from the time left, and its span ends at T (log entry 75). -/
def startedAt (f : Frame) (c : FClass) (st : Nat) : FClass :=
  if shutter f.img = 2 then
    let (k, q) := hdrShape f.img
    let (a, b, _) := hdrSlices ((f.ta - st) / 10) k q
    let span := 10 * ((k + 1) * a + k * b)
    { c with start := f.ta - span, dur := span, a := 10 * a, b := 10 * b }
  else { c with start := st, dur := f.ta - st }

/-- Class `k` of frame `f` is to be exposed from the start: what it has had of its release and its STEERs counts no more. -/
def freshClass (f : Frame) (k : Nat) : Frame :=
  { f with released := f.released.filter (· != k), steers := f.steers.filter (·.1 != k) }

/-- Class `k` of a frame armed and not yet transferred starts at `te` (R113), with the clamp flag. -/
def expOnFrame (f : Frame) (k te : Nat) : Frame × Bool :=
  match f.cls[k]? with
  | none => (f, false)
  | some c =>
    if !c.use then (f, false)
    else if f.img.flag Reg.EX_MODE_ALIGN && shutter f.img != 3 then
      let c := { c with start := max te f.start }
      let cls := f.cls.set k c
      let used := cls.filter (·.use)
      let ta := (used.map fun c => c.start + c.dur).foldl max 0
      let t := if shutter f.img = 1 then (used.map fun c => c.start + c.dur + c.durB).foldl max 0 else ta
      ({ f with cls := cls, ta := ta, t := t }, false)
    else
      let st := max te f.start
      let clamp := decide (f.ta < st + 200)
      let st := if clamp then f.ta - 200 else st
      ({ f with cls := f.cls.set k (startedAt f c st) }, clamp)

/-- START_EXP of class `k` at `te`, executed at `now` (R113): a class that has begun already begins again, unless its new start has
passed. -/
def startExpOn (f : Frame) (k te now : Nat) : Frame × Bool :=
  let g := expOnFrame f k te
  if decide (now ≤ (g.1.cls.getD k ⟨false, 0, 0, 0, 0, 0, 0⟩).start) then (freshClass g.1 k, g.2) else g

/-- Frame `f`, whose times are now those of `g`: the limits of the next frame follow where it was the last one (R98). -/
def retimed (s : State) (f g : Frame) : State :=
  if s.expo.lastT = some f.t then
    { s with expo := { s.expo with lastT := some g.t, lastEnd := s.expo.lastEnd + g.t - f.t
                                   lastRows := s.expo.lastRows.map fun x => x + g.t - f.t } }
  else s

/-- The effect of START_EXP on frame `num`: times, lateness, and the clamp flag. -/
def applyExp (s : State) (num k te : Nat) : State :=
  match s.frames.find? (·.num == num) with
  | none => s
  | some f =>
    let (g, clamp) := startExpOn f k te s.now
    let starts := (g.cls.filter (·.use)).map (·.start)
    let first := starts.foldl min (starts.headD g.start)
    let g := if g.phase = 0 then { g with start := first, late := first - g.ts } else g
    let g := if clamp then { g with flags := withBit g.flags 12 } else g
    let s : State := { s with frames := s.frames.map fun h => if h.num == num then g else h }
    let s := s.retimed f g
    if clamp then s.set Reg.EX_STAT_STEXPCLAMP 1 else s

/-! ## Arming (R99, R102, R510, R133) -/

/-- A dark capture ends without a result (R143); EX_DARKSTAT then shows it as done (log entry 79). -/
def darkAbort (s : State) : State :=
  match s.expo.dark with
  | none => s
  | some _ =>
    ({ s with expo := { s.expo with dark := none } }.set Reg.EX_DARKSTAT_RESULT 3).set Reg.EX_DARKSTAT_DSTATE 2

/-- Kinds that share a VC with an earlier kind send nothing for the frame (R319) (log entry 45). -/
def vcConflicts (s : State) (img : RegFile) (admis : Nat) : State × Nat :=
  let raw := rawVcs img
  let ovcUsed := hasBit admis 3 || hasBit admis 4
  let s2Used := hasBit admis 2 && s.cpInForce.flag Reg.CP_CFG_LINKEN
  let ovc := img.fld Reg.CS_CFG_OVC
  let cp := s.cpInForce.fld Reg.CP_CFG_VC
  let c1 := ovcUsed && raw.contains ovc
  let c2 := s2Used && (raw.contains cp || (ovcUsed && ovc == cp))
  (if c1 || c2 then (s.bump Reg.PK_CNT_VCCONF).set Reg.PK_STAT_VCCONF 1 else s, (if c1 then 1 else 0) + (if c2 then 2 else 0))

/-- The VCs that carry a frame-structured stream (R304, R318): raw, raster and accumulation, processed, each where it is sent, and
those of the outputs under way. -/
def structuredVcs (s : State) (img : RegFile) (admis : Nat) : List Nat :=
  rawVcs img ++ (if hasBit admis 3 || hasBit admis 4 then [img.fld Reg.CS_CFG_OVC] else []) ++
    (if hasBit admis 2 && s.cpInForce.flag Reg.CP_CFG_LINKEN then [s.cpInForce.fld Reg.CP_CFG_VC] else []) ++
    (s.cis.out.map (·.vc)).toList ++ (s.s2.filter (·.linked)).map (·.img.fld Reg.CP_CFG_VC)

/-- The masks of the VCs that carry no frame-structured stream are fixed (R304). -/
def fixPlainMasks (s : State) (img : RegFile) (admis : Nat) : State :=
  let structured := s.structuredVcs img admis
  (List.range 16).foldl (fun s v => if structured.contains v then s else s.fixMask v) s

/-- The planned longest hold of a layout, ns (R51, R323): per tap from the last STEER into it to the end of its rows. `fb` says
that a cell is in the HDR fallback, whose tap A is read at both gains and so to the end of the readout (Table 4-3). -/
def plannedHolds (img : RegFile) (cls : List FClass) (strip fb : Bool) (gains div tRd tEnd t : Nat) (u : Rat) : Nat × Nat :=
  let n := (rowList img strip).length
  let half := if twoTaps img then n / 2 else n
  let rc := rConv img gains div
  let endOf (i : Nat) : Nat := slotStart img strip gains div tRd (i - 1) + rc
  let used := cls.filter (·.use)
  let lastOf (l : List Nat) : Nat := l.foldl min (l.headD t)
  let reach (i : Nat) : Nat := min tEnd (max (endOf i) (stretch (endOf i) u div))
  if shutter img = 3 then (rc, 0)
  else
    let ha := t + reach (if fb then n else half) - lastOf (used.map fun c => c.start + c.dur)
    let hb := if !twoTaps img then 0
      else if shutter img = 1 then t + reach n - lastOf (used.map fun c => c.start + c.dur + c.durB)
      else t + reach n - lastOf (used.map fun c => c.start + c.dur - c.a)
    (ha, hb)

/-- A frame that is not armed after all: `len` frames are skipped (R99, R101). -/
def armSkip (s : State) (r : FrameReq) (len : Nat) : State :=
  let s : State := { s with expo := { s.expo with skips := s.expo.skips + len } }
  let s := s.bump Reg.TB_SKIPTOT_SKIPTOT len
  if r.trig = 1 then s.bump Reg.EV_STAT_DROPPED 1 r.slot else s

/-- What an arming shows in the status registers: fall-back of angle-locked classes, clamps, the readout times, lateness. -/
def armShow (s : State) (ang lows hdrCl : Bool) (tRd tConv late : Nat) : State :=
  let s : State := if ang then s.set Reg.EX_STAT_ANGFB 1 else s
  let s : State := if lows then s.set Reg.EX_STAT_DURCLAMP 1 else s
  let s : State := if hdrCl then s.set Reg.EX_STAT_HDRCLAMP 1 else s
  let s : State := (s.set Reg.RD_SPAN_TRD tRd).set Reg.RD_TCONV_TCONV tConv
  if 0 < late then s.bump Reg.TB_SKIPTOT_LATETOT else s

/-- An arming point put among the others, the latest first. -/
def insertMark (m : ArmMark) : List ArmMark → List ArmMark
  | [] => [m]
  | x :: xs => if m.arm < x.arm then x :: insertMark m xs else m :: x :: xs

/-- The frame whose arming point most recently precedes the instant `t` (R180). -/
def markAt (ms : List ArmMark) (t : Nat) : Option ArmMark := ms.find? fun m => decide (m.arm < t)

/-- The arming points that the sub-exposures under way and those to come can still need. -/
def trimMarks (s : State) : List ArmMark :=
  let t0 := (s.trk.subs.map (·.te)).foldl min s.now
  s.expo.armed.takeWhile (fun m => decide (t0 ≤ m.arm)) ++ (s.expo.armed.dropWhile fun m => decide (t0 ≤ m.arm)).take 1

/-- Sub-exposures under way are attributed by the arming points as they now stand (R180), where one became known after them. They
take its frame's settings too where these leave their windows' cells alone (log entry 76). -/
def adoptSubs (s : State) : State :=
  let same (x : SubExp) (img : RegFile) : Bool := x.wins.all fun w => twCells img w == twCells x.img w
  let one (x : SubExp) : SubExp := match markAt s.expo.armed x.te with
    | some m => { x with frame := m.num, gen := m.gen, img := if same x m.img then m.img else x.img }
    | none => x
  { s with trk := { s.trk with subs := s.trk.subs.map one } }

/-- Whether a completed capture's table reaches a frame with arming point `arm` (R142). -/
def darkReaches (s : State) (arm : Nat) : Bool := s.expo.darkNext.isSome && decide (s.expo.darkAt < arm)

/-- The dark table of a frame with arming point `arm` (R142). -/
def darkFor (s : State) (arm : Nat) : Option DarkTable := if s.darkReaches arm then s.expo.darkNext else s.expo.darkTable

/-- Frame `f` is armed: it joins the frames, and its limits hold for the next one (R98, R108, R113, R142, R143, R180). -/
def addArmed (s : State) (f : Frame) (plan : List ClassPlan) (rowsA : List Nat) (darkOn : Bool) (arm : Nat) : State :=
  let reach := s.darkReaches arm
  let s : State := { s with
    frames := s.frames ++ [f]
    lastArmed := f.num
    expo := { s.expo with
      num := f.num, lastT := some f.t, lastEnd := f.t + f.tEnd, lastRows := rowsA, skips := 0, leMoved := false
      theta := f.theta
      prev := plan.map fun (p : ClassPlan) => (p.d, p.ofs)
      armed := insertMark ⟨arm, f.num, f.gen, f.img⟩ s.trimMarks
      darkTable := if reach then s.expo.darkNext else s.expo.darkTable
      darkNext := if reach then none else s.expo.darkNext
      dark := s.expo.dark.map fun (d : DarkCap) => if darkOn then { d with frames := d.frames ++ [f.num] } else d } }
  let s := s.adoptSubs
  let s : State := s.expo.expNext.foldl (fun s e => s.applyExp f.num e.cls e.te) s
  { s with expo := { s.expo with
    expBusy := s.expo.expBusy.map (fun (e : Nat × Nat) => if e.2 = 0 then (e.1, f.num) else e), expNext := [] } }

/-- The burst goes on after frame `f` (R133, R511): the start of its next frame, or its end. One request is held while it runs,
and any other is dropped (R103). -/
def nextOfBurst (s : State) (f : Frame) (r : FrameReq) (entry len : Nat) (cont : Option Burst) : State :=
  let left := match cont with
    | some b => b.left - 1
    | none => len - 1
  let next : Option Burst := if left = 0 then none else
    let first := match cont with
      | some b => b
      | none => ⟨r.trig, r.slot, entry, f.num, len, 0, left, 0, r.ch, r.p⟩
    some { first with j := first.j + 1, left := left, start := s.earliestStart (f.t - f.start) (f.t - f.start) false none }
  let s : State := { s with expo := { s.expo with burst := next } }
  if next.isNone then s
  else
    let held := (s.reqs.find? (!·.strict)).toList
    (s.reqs.filter (!held.contains ·)).foldl dropReq { s with reqs := held }

/-- A START_FRAME slot that is committed takes the start that R98 leaves it as its te, in EV_nTIME and in the FRAMEBC message
that still waits (R83, R96, Table 3-5). One that would have executed in the cycle of another START_FRAME slot has found the frame target
busy with it (R88). -/
def slotStartsAt (s : State) (n t : Nat) : State :=
  if s.sstate n = ssCommitted ∧ (s.slot n).action = 1 then
    let old := (s.slot n).te
    let hop := s.get Reg.TB_RIG_HOP
    let one (m : RigMsg) : RigMsg := if m.typ == 4 && m.hop == hop && m.arg == old then { m with arg := t } else m
    let s : State := if t ≠ old ∧ s.frameAt n old then s.bump Reg.EV_SUM_COLLCNT else s
    let s := s.setSlot n fun x => { x with te := t }
    ({ s with rig := { s.rig with outQ := if (s.slot n).rigbc then s.rig.outQ.map one else s.rig.outQ } }).set Reg.EV_TIME_TE t n
  else s

/-- The commits that a request's arming point reaches are in force; a dark capture that they cut short is aborted (R135, R143). -/
def armReach (s : State) (r : FrameReq) : State × Bool :=
  let (s, reached, reset) := s.reachCommits r.armAt
  (if reached && (s.expo.dark.any fun (d : DarkCap) => decide (d.frames.length < d.nfr)) then s.darkAbort else s, reset)

/-- The start of a frame whose transfer comes `t0` and whose first STEER `fa` after it, no earlier than its limits (R47, R83, R98, R99,
R185); `cont` marks a later
frame of a burst, whose scheduled time is its start. -/
def armStart (s : State) (r : FrameReq) (cont : Option Burst) (t0 fa : Nat) (two : Bool) (tr : Option (Nat → Nat)) : Nat :=
  match cont with
  | some b => max b.start (s.earliestStart t0 fa two tr)
  | none =>
    let x := max r.ts (s.earliestStart t0 fa two tr)
    if r.trig = 1 then max x (r.fixedAt + 1000) else if r.trig = 3 then max x r.fixedAt else x

/-- Class plans of a request's frame, at the channels' rates of the instant that R110 gives. -/
def armClasses (s : State) (r : FrameReq) (cont : Option Burst) : List ClassPlan :=
  (List.range 8).map (s.classPlan s.inForce (if r.trig = 0 ∨ cont.isSome then s.tbRates else r.rates))

/-- Steps 1 to 4 of R510: the planned transfer over every non-failed cell, and what follows from it. `lm` is the class map with its
LESRC. -/
def armSets (s : State) (r : FrameReq) (cont : Option Burst) (lm : RegFile × Nat) : ArmSets :=
  let img := s.inForce
  let len := img.fld Reg.EX_MODE_BURSTLEN + 1
  let entry := if r.trig = 0 then s.expo.freeN % len else min r.entry 15
  let tracked := trackedCells img
  let lastSet := match s.frames.getLast? with
    | some g => let tests := (winsOn g.img).map fun n => winHas g.img n (thetaOf g.theta n)
                tracked.filter fun c => !s.unitFailed c && tests.any fun t => t c
    | none => []
  let b : ArmSets := ⟨img, s.expo.num % 0xFFFFFFFF + 1, entry, s.armClasses r cont, lm.1, lm.2,
    if img.flag Reg.EX_BURST_USEMAP entry then none else some (img.fld Reg.EX_BURST_CLASS entry), tracked, lastSet, [], false, []⟩
  let used0 := s.classesUsed b.clsOf (2 ^ 256 - 1)
  let (t0, _, st0) := layoutOf img b.plan used0
  let s0 := s.armStart r cont t0 (firstSteer img b.plan used0 st0) (twoTaps img) (if shutter img = 3 then none else (b.trOf st0).map fun x _ => x)
  let thetas := (winsOn img).map fun n => (n, s.windowTheta img n (s0 + t0))
  let theta := thetas.map fun x => (x.1, x.2.1)
  { b with theta := theta, rollFb := thetas.any (·.2.2), cells := unionCells img theta }

/-- What steps 3 and 4 of R510 show and switch: the windows' status, the powered set, the mechanism (R160, R163, R164). -/
def armPower (s : State) (r : FrameReq) (b : ArmSets) : State :=
  let s : State := if (twOn b.img).any (twClipped b.img) then s.set Reg.TK_STAT_TWCLIP 1 else s
  let s := s.showGeometry b.img b.theta b.cells
  let s : State := if b.rollFb then s.set Reg.RD_STAT_ROLLFB 1 else s
  let want := poweredSet b.img b.theta
  let s := s.powerBlocks want r.armAt (max 1 (b.img.fld Reg.RD_PDCFG_HOLDOFF))
  let s : State := if b.blocks.any (fun k => hasBit s.onMask k && !hasBit s.readyMask k) then s.set Reg.RD_STAT_NOTREADY 1 else s
  s.chooseMech (bitsOf 256 want).length

/-- Steps 5 and 6 of R510: classes in use, the readout span, T and the starts. With merged output the span has no share of the links,
and in cell-rolling mode with tracking every output slot leaves room for one tracking read (R144) (log entry 87). -/
def armTimes (s : State) (r : FrameReq) (cont : Option Burst) (b : ArmSets) : ArmPlan :=
  let img := b.img
  let powered := s.onMask
  let ready := s.readyMask
  let div := s.frameDiv (((b.blocks ++ (((twOn img).flatMap (twCells img)).map cellBlock)).map blockRegion).eraseDups)
  let used := s.classesUsed b.clsOf powered
  let (t1, ta1, st1) := layoutOf img b.plan used
  let admis := if s.cis.readmit.isSome then 0 else s.cis.admis
  let hdrAsked := shutter img == 2 && img.flag Reg.EX_MODE_HDROUT
  let hdrout := hdrAsked && hasBit admis 0
  let every := max 1 (img.fld Reg.RD_CONV_REFEVERY)
  let darkOn := match s.expo.dark with
    | some d => decide (d.frames.length < d.nfr)
    | none => false
  let strip := darkOn || b.num % every == 0
  let gains := maxGains img used
  let tl := tLinkOf img b.theta s.mono strip hdrout (fun c => s.cellLoad img ready b.tracked (b.clsOf c) c) (s.carryGroups img)
  let tConv := tConvOf img strip gains div
  let u := if b.tracked.isEmpty then 0 else s.trackShare img div
  let stretched := decide (0 < u) && decide (u < 1)
  let tRd0 := if hdrout then max tConv (img.fld Reg.RD_PACE_RDTIME) else tRdOf img strip gains div tl
  let roll := shutter img == 3 && !b.tracked.isEmpty
  let room := 6400 * div4 div
  let tRd := if roll then max tRd0 (max (stretch tConv u div) (tConv + nOut img strip * room)) else tRd0
  let start := s.armStart r cont t1 (firstSteer img b.plan used st1) (twoTaps img)
    ((b.trOf st1).map fun x i => if shutter img = 3 then x + slotStart img strip gains div tRd i else x)
  let ts := match cont with
    | some _ => start
    | none => r.ts
  let cls := (List.range 8).map fun k => match b.plan[k]? with
    | some p => if used.contains k then
        ({ use := true, start := start + st1.getD k 0, dur := 10 * p.dur, durB := 10 * p.durB, a := 10 * p.a
           b := 10 * p.b, gain := gainOf img k } : FClass)
      else ⟨false, 0, 0, 0, 0, 0, 0⟩
    | none => ⟨false, 0, 0, 0, 0, 0, 0⟩
  let tEnd0 := if roll then tRd + room else if stretched then max tRd (stretch tConv u div) else tRd
  let tEnd := if hdrout then max tEnd0 tl.ceil.toNat else tEnd0
  let t := start + t1
  let fb := shutter img == 2 && !b.tracked.isEmpty
  let (ha, hb) := plannedHolds img cls strip fb gains div tRd tEnd t u
  let rows := (rowList img strip).length
  let rc := rConv img gains div
  let upTo := if twoTaps img && !fb then rows / 2 else rows
  let rowsA := (List.range upTo).map fun i => t + (if fb || i + 1 = rows then tEnd else slotStart img strip gains div tRd i + rc)
  ⟨img, b.num, img.fld Reg.EX_MODE_BURSTLEN + 1, b.entry, b.plan, b.map, b.leSrc, b.ovr, b.theta, b.rollFb, powered, ready, div, used,
    ts, start, t, start + ta1, cls, admis, hdrAsked, hdrout, darkOn, strip, tConv, tRd, tEnd, max ha hb, rowsA⟩

/-- Steps 1 to 6 of R510 for a request; `cont` marks a later frame of a burst. The commits that the arming point reaches are in
force, the blocks are powered, and nothing is armed yet. -/
def armPlan (s : State) (r : FrameReq) (cont : Option Burst) : State × ArmPlan :=
  let (s, reset) := s.armReach r
  let (s, lm) := s.loopMap s.inForce (s.armClasses r cont) reset (s.expo.num % 0xFFFFFFFF + 1) r.armAt
  let b := s.armSets r cont lm
  let s := s.armPower r b
  (s, s.armTimes r cont b)

/-- The status bits of an armed frame (Table 11-4): what its plan gives, and what the local loop shows (R115, R123). -/
def planFlags (p : ArmPlan) (ang lows hdrCl moved susp : Bool) : Nat :=
  let warn := p.img.fld Reg.EX_PIXCFG_HOLDWARN
  let bit (c : Bool) (i : Nat) : Nat := if c then 2 ^ i else 0
  bit (warn != 0 && decide (warn * 1000000 < p.holdp)) 0 + bit p.darkOn 2 + bit (p.hdrAsked && !p.hdrout) 3 +
    bit p.strip 5 + bit (p.img.flag Reg.RD_STRIPE_EN) 6 + bit ang 9 + bit lows 10 + bit hdrCl 11 + bit p.rollFb 13 +
    bit (winsOn p.img).isEmpty 14 + bit (moved && p.ovr.isNone) 15 + bit susp 16 + bit (p.img.flag Reg.RD_CONV_REFOUT) 17

/-- The frame of a plan as it is armed in state `s`, with its conflicts of R319 and its status bits. Of a burst only the first frame
is strict (log entry 86). -/
def frameOf (s : State) (r : FrameReq) (cont : Option Burst) (p : ArmPlan) (len supp flags : Nat) : Frame :=
  { num := p.num, gen := s.get Reg.EX_GEN_INFORCE, img := p.img, map := p.map, ovr := p.ovr, arm := r.armAt, trig := r.trig, slot := r.slot
    slotCh := r.ch, slotP := r.p, strict := r.strict && cont.isNone, entry := p.entry, ts := p.ts, start := p.start, t := p.t, ta := p.ta
    late := p.start - p.ts, skipped := min 255 s.expo.skips, cls := p.cls, theta := p.theta, powered := p.powered
    ready := p.ready, div := p.div, strip := p.strip, tConv := p.tConv, tRd := p.tRd, tEnd := p.tEnd, holdP := p.holdp
    dark := p.darkOn, flags := flags, leSrc := p.leSrc, admis := p.admis, supp := supp, hdrout := p.hdrout
    rateSkip := false, phase := 0, flush := [], released := [], steers := [], subSteers := [], latchStart := [], latchT := []
    startDiff := 0, lzoom := 0, lfocus := 0, loss := [], maxLoss := 0, clamped := [], slotsOpen := 0, rowsDone := []
    s1 := [], outRows := [], fills := [], ovf := 0, counts := (rawVcs p.img).map fun v => ⟨v, 0, 0, 0, false⟩, cflags := []
    rstat := [], holdA := 0, holdB := 0, lastConv := 0, statsDone := false
    burst := (cont.map (·.first)).getD p.num
    burstLen := (cont.map (·.len)).getD len
    raster := [], rasterHdr := [], hdrDue := [], rate := s.cis.rate, dynCnt := 0
    darkTab := s.darkFor r.armAt
    s2Asked := false }

/-- A plan that neither the skip threshold nor thinning has stopped is armed (R102). -/
def armPlanned (s : State) (r : FrameReq) (cont : Option Burst) (p : ArmPlan) (len : Nat) : State :=
  let c := s.vcConflicts p.img p.admis
  let s := c.1
  let planAny (q : ClassPlan → Bool) : Bool := p.used.any fun k => (p.plan[k]?).any q
  let lows := planAny fun q => q.low || (shutter p.img == 1 && q.lowB)
  let ang := p.plan.any (·.angFb)
  let hdrCl := planAny (·.hdrClamp)
  let flags := planFlags p ang lows hdrCl s.expo.leMoved (s.flag Reg.EX_LESTAT_SUSP)
  let s := s.armShow ang lows hdrCl p.tRd p.tConv (p.start - p.ts)
  let f := s.frameOf r cont p len c.2 flags
  let s : State := ((s.addArmed f p.plan p.rowsA p.darkOn r.armAt).fixPlainMasks p.img p.admis).nextOfBurst f r p.entry len cont
  if r.trig = 1 ∧ cont.isNone then s.slotStartsAt r.slot p.start else s

/-- Frames that will still wait or expose when request `r` is due (R103, R133) (log entry 27). -/
def framesAhead (s : State) (r : FrameReq) : Nat := (s.frames.filter fun f => decide (f.phase < 2 ∧ r.ts < f.t)).length

/-- What becomes of a plan (R99, R103, R104, R388): a strict request that would be late, or one that finds one held before it, is
dropped; one past the skip threshold or thinned out is skipped; else the frame is armed. EX_FRPER.PERIOD 0 counts as 1 (log
entry 77). -/
def armFrom (s : State) (r : FrameReq) (cont : Option Burst) (p : ArmPlan) : State :=
  let late := p.start - p.ts
  let len := if r.trig = 0 || r.rep then 1 else p.len
  let thr := if s.get Reg.TB_SKIP_SKIPTH ≠ 0 then some (s.get Reg.TB_SKIP_SKIPTH)
    else if r.trig = 0 then some (10 * max 1 (p.img.fld Reg.EX_FRPER_PERIOD)) else r.nominal
  if cont.isNone && r.strict && decide (0 < late) then s.dropReq r
  else if cont.isNone && r.trig != 0 && decide (2 ≤ s.framesAhead r) then s.dropReq r
  else if cont.isNone && thr.any (fun x => decide (x < late)) then s.armSkip r len
  else if cont.isSome then s.armPlanned r cont p len
  else
    let g := s.thinFrame
    if g.2 then g.1.armPlanned r cont p len else g.1.armSkip r len

/-- One frame armed for a request; `cont` marks a later frame of a burst. -/
def armFrame (s : State) (r : FrameReq) (cont : Option Burst) : State :=
  let p := s.armPlan r cont
  p.1.armFrom r cont p.2

end State

/-- ARMING_POINT (R102, R132, R133, R510, R511): the next frame whose arming point has come: of the burst under way, of the
oldest trigger, or of the free-running sequence, whose PERIOD 0 counts as 1 (log entry 77). -/
def execArmingPoint (s : State) : Outcome State Fault Refusal :=
  if s.dev ≠ .run then ok s
  else match s.expo.burst with
    | some b =>
      if b.start ≤ s.now + 50000 then
        ok (s.armFrame ⟨b.trig, b.slot, b.start, b.start - 50000, b.start - 50000, min (b.entry + b.j) 15, false, false,
          none, b.ch, b.p, []⟩ (some b))
      else ok s
    | none =>
      match s.reqs with
      | r :: rest =>
        if r.fixedAt ≤ s.now then ok (({ s with reqs := rest }).armFrame r none) else ok s
      | [] =>
        match s.expo.freeAt with
        | none => ok s
        | some t =>
          if s.now + 50000 < t then ok s
          else if !(s.settingsAt (t - 50000)).flag Reg.EX_MODE_FREERUN then
            ok { s with expo := { s.expo with freeAt := none } }
          else
            let s := s.armFrame ⟨0, 255, t, t - 50000, t - 50000, 0, false, false, none, 0, 0, []⟩ none
            ok { s with expo := { s.expo with
              freeN := s.expo.freeN + 1
              freeAt := some (t + 10 * max 1 (s.inForce.fld Reg.EX_FRPER_PERIOD)) } }

/-- A write from the live-parameter source, whose effect gives `t` (R23): from the return lane it is taken in RUN and STANDBY
only; from I3C it is a write to the main logic. -/
def State.liveWrite (s t : State) : State :=
  if s.flag Reg.ID_CTRLSTAT_LIVESRC then (if s.running then t else s) else s.mainWrite t

/-- CAPTURE_COMMIT (R23, R25, R27, R135): EX_COMMIT.GO from the live-parameter source. -/
def execCaptureCommit (s : State) : Outcome State Fault Refusal := ok (s.liveWrite s.captureCommit)

end Sys2Proof.Machine
end

