-- ==== Sys2Proof/Machine/Transfer.lean ====
section
/-! DEFINITION. A frame from its first exposure to its transfer: starts, flushes, steers, the lost light of tracking, the
frame header and the ABORT packet (02_pixel_array.md R46, R47; 04_exposure.md R106 to R113; 06_tracking.md R186;
11_packets_and_metadata.md R321 to R323, R332). -/
namespace Sys2Proof.Machine

open Host (Outcome)

namespace Frame

/-- Class of cell `c` in this frame (R116, R117). -/
def clsOf (f : Frame) (c : Nat) : Nat :=
  match f.ovr with
  | some k => k
  | none => mapClass f.map c

/-- Rows of the frame in reading order. -/
def rowIds (f : Frame) : List RowId := rowList f.img f.strip

/-- Cell `c` is in the cell set of VC `v`. -/
def inVc (f : Frame) (v c : Nat) : Bool :=
  ((winsOn f.img).filter fun n => f.img.fld Reg.RD_PW_CFG_VC n == v).any fun n => winHas f.img n (thetaOf f.theta n) c

/-- Cell `c` is in some cell set. -/
def inSet (f : Frame) (c : Nat) : Bool := (winsOn f.img).any fun n => winHas f.img n (thetaOf f.theta n) c

/-- Cell `c` is tracked in the frame (R130). -/
def tracks (f : Frame) (c : Nat) : Bool :=
  (twOwned f.img).any fun n => (twCells f.img n).contains c

/-- Cell `c` is read as the HDR fallback of Table 4-3: tap A at HCG in the tap A rows, at LCG in the tap B rows. -/
def fallback (f : Frame) (c : Nat) : Bool := shutter f.img == 2 && f.tracks c

/-- Class record of cell `c`. -/
def cellClass (f : Frame) (c : Nat) : FClass := f.cls.getD (f.clsOf c) ⟨false, 0, 0, 0, 0, 0, 0⟩

/-- The largest gain count of the classes in use. -/
def gains (f : Frame) : Nat := ((f.cls.filter (·.use)).map fun c => gainCount c.gain).foldl max 1

/-- STEERs that a class takes: one, two with both taps, n in tap-interleaved HDR (R106, R125, R127). -/
def steerCount (f : Frame) : Nat :=
  match shutter f.img with
  | 1 => 2
  | 2 => 2 * (hdrShape f.img).1 + 1
  | _ => 1

/-- The instant at which STEER number `i` of class `c` completes (R46, R125, R127). -/
def steerAt (f : Frame) (c : FClass) (i : Nat) : Nat :=
  match shutter f.img with
  | 1 => if i = 0 then c.start + c.dur else c.start + c.dur + c.durB
  | 2 => c.start + (i / 2 + 1) * c.a + (i + 1) / 2 * c.b
  | _ => c.start + c.dur

/-- STEERs of class `k` done so far. -/
def steersDone (f : Frame) (k : Nat) : Nat := ((f.steers.find? (·.1 == k)).map (·.2)).getD 0

/-- Every class in use has had all its STEERs. -/
def steered (f : Frame) : Bool :=
  (List.range 8).all fun k => match f.cls[k]? with
    | some c => !c.use || f.steersDone k == f.steerCount
    | none => true

/-- The achieved HDR ratio of a class as U16.16 (R127). -/
def ratioOf (f : Frame) (c : FClass) : Nat :=
  let k := (hdrShape f.img).1
  if shutter f.img = 2 ∧ c.use ∧ c.b ≠ 0 then (k + 1) * c.a * 65536 / (k * c.b) else 0

/-- The largest ratio that a merge of the frame uses, U16.16 (R224, Table 7-4): the HDR slices' of the classes whose cells it delivers, or
the gains' in tracked cells of a merged frame and in cells read at both gains with DGOUT. -/
def mergeRatio (f : Frame) (gainRatio : Nat) : Nat :=
  let tr := trackedCells f.img
  let cells := (List.range 65536).filter f.inSet
  let classes (p : Nat → Bool) : List FClass := (f.cls.zipIdx.filter fun x => x.1.use && cells.any fun c => p c && f.clsOf c == x.2).map (·.1)
  if f.hdrout then
    ((classes fun c => !tr.contains c).map f.ratioOf).foldl max (if cells.any tr.contains then gainRatio * 16 else 0)
  else if f.img.flag Reg.RD_CONV_DGOUT && (classes fun c => !(f.fallback c)).any (·.gain == 2) then gainRatio * 16
  else 0

/-- SH of the frame (R224). -/
def mergeShift (f : Frame) (gainRatio : Nat) : Nat :=
  if f.img.flag Reg.S1_MGSH_AUTO then
    let r := f.mergeRatio gainRatio
    if r = 0 then 0 else clog2 (ceilDiv r 65536) - 2
  else f.img.fld Reg.S1_MGSH_SH

/-- MODE of the header (Table 11-3). -/
def modeByte (f : Frame) : Nat :=
  let b (c : Bool) (i : Nat) : Nat := if c then 2 ^ i else 0
  shutter f.img + b (f.img.flag Reg.EX_MODE_ALIGN) 2 + b (f.img.flag Reg.EX_MODE_FREERUN) 3 + b (chgBin f.img) 4 +
    b (f.img.flag Reg.RD_CONV_BITS) 5 + b f.hdrout 6 + b (f.img.flag Reg.RD_CONV_DGOUT) 7

/-- A window record (Table 11-5). -/
def windowRecord (f : Frame) (n : Nat) : List Byte :=
  let i := f.img
  let b (c : Bool) (k : Nat) : Nat := if c then 2 ^ k else 0
  let th := thetaOf f.theta n
  leBytes 1 (n + 16 * i.fld Reg.RD_PW_CFG_VC n) ++
    leBytes 1 (b (i.flag Reg.RD_PW_CFG_ROT n) 0 + b (i.flag Reg.RD_PW_CFG_ROLL n) 1 + 4 * dbinOf i n +
      16 * i.fld Reg.RD_PW_CFG_RCH n) ++
    leBytes 1 (i.fld Reg.RD_PW_CFG_MARGIN n) ++ leBytes 1 0 ++ leBytes 2 (i.fld Reg.RD_PW_POS_X0 n) ++
    leBytes 2 (i.fld Reg.RD_PW_POS_Y0 n) ++ leBytes 2 (i.fld Reg.RD_PW_SIZE_W n) ++
    leBytes 2 (i.fld Reg.RD_PW_SIZE_H n) ++ leBytes 4 (i.fld Reg.RD_PW_CX_C n) ++ leBytes 4 (i.fld Reg.RD_PW_CY_C n) ++
    leBytes 4 (scode 32 th) ++ leBytes 4 ((List.range 65536).filter (winHas i n th)).length ++ leBytes 4 0

/-- The windows of VC `v`. -/
def vcWindows (f : Frame) (v : Nat) : List Nat := (winsOn f.img).filter fun n => f.img.fld Reg.RD_PW_CFG_VC n == v

/-- Bytes 4 to 335 of the raw header (Table 11-3). -/
def headerCore (f : Frame) (pgen gainRatio : Nat) : List Byte :=
  let (v0, h, _) := stripe f.img
  let cls := (List.range 8).flatMap fun k =>
    let c := f.cls.getD k ⟨false, 0, 0, 0, 0, 0, 0⟩
    if c.use then
      leBytes 8 c.start ++ leBytes 8 c.dur ++ leBytes 4 (f.ratioOf c) ++
        leBytes 1 (f.img.fld Reg.EX_EC_CFG_GAIN k) ++ leBytes 1 1 ++ leBytes 2 0
    else List.replicate 24 0#8
  leBytes 4 f.num ++ leBytes 2 f.gen ++ leBytes 2 pgen ++ leBytes 4 f.flags ++ leBytes 8 f.start ++ leBytes 8 f.t ++
    leBytes 4 (min f.late 0xFFFFFFFF) ++ leBytes 1 f.skipped ++ leBytes 1 (f.entry + 16 * f.trig) ++ leBytes 1 f.slot ++
    leBytes 1 f.div ++ leBytes 4 (scode 32 (clampI (-2147483648) 2147483647 f.startDiff)) ++ leBytes 4 f.leSrc ++
    leBytes 4 f.tRd ++ leBytes 4 (rowSlot f.img f.strip f.gains f.div f.tRd) ++
    leBytes 1 (if f.img.flag Reg.RD_STRIPE_EN then v0 else 0) ++ leBytes 1 h ++ leBytes 1 f.admis ++
    leBytes 1 (f.mergeShift gainRatio) ++ leBytes 2 (f.img.fld Reg.S1_MGSH_PEDM) ++ leBytes 2 (f.img.fld Reg.S1_BLCFG_PED) ++
    leBytes 2 (f.img.fld Reg.RD_FILL_FILL) ++ leBytes 2 0 ++ leBytes 2 f.lzoom ++ leBytes 2 f.lfocus ++
    leBytes 4 (f.holdP / 1000) ++ leBytes 4 0 ++ f.latchStart ++ f.latchT ++ cls

/-- A header payload: KIND, MODE, length, core, STREAM and the window records (R322). -/
def headerBytes (f : Frame) (kind : Nat) (core stream : List Byte) (wins : List Nat) : List Byte :=
  leBytes 1 kind ++ leBytes 1 f.modeByte ++ leBytes 2 (352 + 32 * wins.length) ++ core ++
    (stream ++ List.replicate 16 0#8).take 16 ++ wins.flatMap f.windowRecord

/-- Lost time of a cell's tap A exposure under sub-exposures `subs` of start, end and cells, the interval shifted by
`shift` (R186, R187). -/
def lostTime (f : Frame) (subs : List (Nat × Nat × List Nat)) (c shift : Nat) : Nat :=
  let k := f.cellClass c
  let a := k.start + shift
  let b := a + k.dur
  (subs.map fun x => if x.2.2.contains c then min b x.2.1 - max a x.1 else 0).sum

/-- The gain of R186 in U4.12 for lost time `l` of an interval `e`, and whether it is clamped. -/
def lossGain (f : Frame) (l e : Nat) : Nat × Bool :=
  if !f.img.flag Reg.TK_CFG_LOSSCOR || e = 0 then (4096, false)
  else if 3 * e < 4 * l then (0x4000, true)
  else ((roundDiv (e * 4096 : Nat) (e - l)).toNat, false)

end Frame

namespace State

/-- The sub-exposures that can still fall in an exposure interval, those under way included. -/
def allSubs (s : State) : List (Nat × Nat × List Nat) :=
  s.trk.past ++ (s.trk.subs.filter (!·.ended)).map fun x => (x.te, x.te + x.dur, x.cells)

/-- L and G of the tracked cells of a frame for a row (R186, R187), with MAXLOSS and CLAMPCNT, the cells clamped so far. -/
def measureLoss (s : State) (f : Frame) (row shift : Nat) : State × Frame :=
  let subs := s.allSubs
  let (loss, mx, cl) := (trackedCells f.img).foldl (fun (acc : List (Nat × Nat × Nat × Nat) × Nat × List Nat) c =>
    let e := (f.cellClass c).dur
    let l := f.lostTime subs c shift
    let (g, clamp) := f.lossGain l e
    let share := if e = 0 then 0 else min 65535 (roundDiv (l * 65536 : Nat) e).toNat
    (acc.1 ++ [(c, row, l, g)], max acc.2.1 share, if clamp && !acc.2.2.contains c then acc.2.2 ++ [c] else acc.2.2))
    ([], f.maxLoss, f.clamped)
  let more := decide (f.clamped.length < cl.length)
  let f := { f with loss := f.loss ++ loss, maxLoss := mx, clamped := cl }
  let s := s.set Reg.TK_LOSS_MAXLOSS f.maxLoss
  let s : State := if f.img.flag Reg.TK_CFG_LOSSCOR then s.set Reg.TK_LOSS_CLAMPCNT (min 65535 f.clamped.length) else s
  (if more then s.set Reg.TK_STAT_LOSSCLAMP 1 else s, f)

/-- Frame `num` changed through `g`. -/
def setFrame (s : State) (num : Nat) (g : Frame → Frame) : State :=
  { s with frames := s.frames.map fun f => if f.num == num then g f else f }

/-- Cell `c` at work. -/
def cellRt (s : State) (c : Nat) : CellRt := (s.rd.cells.find? (·.cell == c)).getD ⟨c, none, [], none, [], 0, 0, [], 0⟩

/-- Frame `num`. -/
def frame (s : State) (num : Nat) : Option Frame := s.frames.find? (·.num == num)

/-- A frame header sent on VC `v` (R304, R321, R330): the mask is fixed, the CRC context starts afresh. -/
def sendHeader (s : State) (v num : Nat) (payload : List Byte) : State :=
  let s : State := (s.fixMask v).ceReset v
  let s : State := { s with vcPackets := s.vcPackets.set v 0 }
  (s.build v 0x48 num payload true false true).1

/-- Processing generation in force. -/
def pgen (s : State) : Nat := s.get Reg.CP_GEN_INFORCE

/-- The lens state at T taken by a frame (R218, R219). -/
def lensForFrame (s : State) (f : Frame) : State × Frame :=
  let s := s.filtRun.lensCheck
  let z := s.zoomAt s.now
  let c := s.focusAt s.now
  if z.2 && c.2 then
    ({ s with rd := { s.rd with lastLens := some (z.1, c.1) } },
      { f with lzoom := z.1, lfocus := c.1, flags := withBit f.flags 7 })
  else
    let (q, r) := s.rd.lastLens.getD (0, 0)
    (s.set Reg.S1_STAT_LSSTALE 1, { f with lzoom := q, lfocus := r, flags := withBit f.flags 8 })

/-- Frame `f` at its transfer: its instant and latches, the lens state and the light loss (R92, R186, R218). -/
def transferFrame (s : State) (f : Frame) : State × Frame :=
  let f := { f with phase := 2, latchT := s.latchAll s.now, t := s.now }
  let f := if s.get Reg.TB_RIG_RSTATE = 2 then f else { f with flags := withBit f.flags 1 }
  let p := s.lensForFrame f
  if shutter p.2.img = 3 then p else p.1.measureLoss p.2 0 0

/-- The frame comes less than its 1/R after the last transfer (R246). -/
def tooEarly (s : State) (f : Frame) : Bool :=
  match s.cis.lastT with
  | some t => decide ((s.now - t) * f.rate.2 < f.rate.1)
  | none => false

/-- A frame before frame `num` is still open on VC `v`: its closing sequence has not been sent (R320). -/
def vcOpen (s : State) (v num : Nat) : Bool :=
  ((s.frames.takeWhile fun g => g.num != num).any fun g => decide (2 ≤ g.phase) && g.counts.any fun c => c.vc == v && !c.closed) ||
    s.cis.out.any (·.vc == v) || s.s2.any fun x => x.linked && decide (0 < x.nextRow) && x.img.fld Reg.CP_CFG_VC == v

/-- The readout of frame `f` starts and its raw headers go out, but for those that wait for the frame before (R106, R113, R320,
R321). -/
def startReadout (s : State) (f : Frame) : State :=
  let core := f.headerCore s.pgen (s.get Reg.S1_GAINRATIO_RATIO)
  let hdrOf (v : Nat) : List Byte := f.headerBytes 1 core (leBytes 1 (f.vcWindows v).length) (f.vcWindows v)
  let f := { f with rasterHdr := hdrOf (f.img.fld Reg.CS_CFG_RVC) }
  let (wait, go) := (rawVcs f.img).partition fun v => s.vcOpen v f.num
  let s := s.setFrame f.num fun _ => { f with hdrDue := wait.map fun v => (v, hdrOf v) }
  let s : State := go.foldl (fun s v => s.sendHeader v f.num (hdrOf v)) s
  let keep := s.trk.past.filter fun x => decide (s.now < x.2.1 + 100000000000)
  { s with
    expo := { s.expo with
      expBusy := s.expo.expBusy.filter fun e => e.2 != f.num
      lastT := if s.expo.num = f.num then some f.t else s.expo.lastT
      lastEnd := if s.expo.num = f.num then f.t + f.tEnd else s.expo.lastEnd
      lastRows := if s.expo.num = f.num then s.expo.lastRows.map fun x => x + f.t - s.expo.lastT.getD f.t
        else s.expo.lastRows }
    trk := { s.trk with past := keep } }

/-- Transfer at T (R92, R106, R186, R218, R246, R321); headers may have to wait (log entry 91). -/
def transfer (s : State) (f : Frame) : State :=
  let p := s.transferFrame f
  let early := p.1.tooEarly p.2
  let s : State := if early then
      let s := p.1.bump Reg.CS_CNT_RATESKIP
      { s with cis := { s.cis with rateSkips := s.cis.rateSkips ++ [f.num] } }
    else p.1
  let f := if early then { p.2 with rateSkip := true, flags := withBit p.2.flags 4 } else p.2
  State.startReadout { s with cis := { s.cis with lastT := some s.now } } f

/-- The frame whose exposure comes next: armed or exposing. -/
def exposing (s : State) : Option Frame := s.frames.find? fun f => decide (f.phase < 2)

/-- The last conversion of a sub-exposure's reads at the latest (R188). -/
def readsEnd (s : State) (x : SubExp) : Nat :=
  let nb := (x.span.map fun c => (x.span.filter fun d => cellBlock d == cellBlock c).length).foldl max 1
  x.te + x.dur + 400 + ceilDiv ((70 * (nb - 1) + 25600) * div4 s.thermal.div) 4

/-- When the tracking reads that a picture tap B of frame `f` waits for have ended (R131): none where one is overdue. -/
def tapBFrom (s : State) (f : Frame) : Option Nat :=
  let tr := trackedCells f.img
  let outs := if twoTaps f.img then s.trk.subs.filter fun x => x.cells.any fun c => !tr.contains c else []
  let e := (outs.map s.readsEnd).foldl max 0
  if outs.isEmpty then some 0 else if e < s.now then none else some e

/-- Planned ends of the tap A rows of frame `f`, in reading order (R185, R187). -/
def rowEndsA (f : Frame) : List Nat :=
  let n := f.rowIds.length
  let fb := shutter f.img == 2 && !(trackedCells f.img).isEmpty
  let rc := rConv f.img f.gains f.div
  (List.range (if twoTaps f.img && !fb then n / 2 else n)).map fun i =>
    f.t + (if fb || i + 1 = n then f.tEnd else slotStart f.img f.strip f.gains f.div f.tRd i + rc)

/-- The cells that `p` picks hold no charge of the first `n` rows of frame `g` that is still to be read (R47, R48). -/
def rowsRead (s : State) (g : Frame) (p : Nat → Bool) (n : Nat) : Bool :=
  n == 0 || decide (3 ≤ g.phase) || (g.phase == 2 && decide (n ≤ g.slotsOpen) && (List.range 65536).all fun c =>
    !g.inSet c || !p c || s.causeOf g.ready c != 0 || ((s.cellRt c).frame == g.num && decide (n ≤ (s.cellRt c).next)))

/-- The FLUSHes of a frame (R47, R185, R187, Tables 4-5 to 4-8): 0 of tap A and 1 of tap B of the picture; in tracked cells, whose
tap A is filled from the start of their exposure on, 2 of tap A, and in cell-rolling mode 3 + v of its row v. -/
def flushKinds (f : Frame) : List Nat :=
  let tr := !(trackedCells f.img).isEmpty
  0 :: (if twoTaps f.img then [1] else []) ++ (if !tr || shutter f.img == 2 then []
    else if shutter f.img = 3 then (List.range (f.rowIds.filter (!·.ref)).length).map (3 + ·) else [2])

/-- The earliest of the instants `l`. -/
def soonest (f : Frame) (l : List Nat) : Nat := l.foldl min (l.headD f.start)

/-- The instant up to which a FLUSH of frame `f` and 40 ns must have passed: its first STEER A, or the start of the exposure in
tap-interleaved HDR and in tracked cells (R185, Tables 4-5 to 4-7). -/
def flushFor (f : Frame) (kind : Nat) : Nat :=
  let first := soonest f (((trackedCells f.img).map f.cellClass).filterMap fun c => if c.use then some c.start else none)
  if kind < 2 then
    if shutter f.img = 2 then f.start else soonest f ((f.cls.filter (·.use)).map fun c => f.steerAt c 0)
  else first + (if kind = 2 then 0 else slotStart f.img f.strip f.gains f.div f.tRd (kind - 3))

/-- The cells that a FLUSH of frame `f` is for. -/
def flushCells (f : Frame) (kind : Nat) : Nat → Bool :=
  let tr := trackedCells f.img
  fun c => if kind < 2 then shutter f.img == 2 || !tr.contains c else tr.contains c

/-- Rows of the earlier frame `g`, in reading order, that must have been read before a FLUSH of kind `kind`. -/
def flushRows (g : Frame) (kind : Nat) : Nat :=
  let n := g.rowIds.length
  let a := if twoTaps g.img then n / 2 else n
  if kind = 1 then (if twoTaps g.img then n else 0) else if 3 ≤ kind ∧ shutter g.img = 3 then min n (kind - 2) else a

/-- The planned end of the rows that a FLUSH waits for. -/
def flushRowsEnd (g : Frame) (kind : Nat) : Nat :=
  if kind = 1 then g.t + g.tEnd else (rowEndsA g).getD (flushRows g kind - 1) (g.t + g.tEnd)

/-- When the taps that a FLUSH of frame `f` empties hold nothing more to be read: 0 where they do not now, none where that is
overdue (R47, R131). -/
def flushFrom (s : State) (f : Frame) (kind : Nat) : Option Nat :=
  let p := flushCells f kind
  let one (acc : Option Nat) (g : Frame) : Option Nat :=
    if s.rowsRead g p (flushRows g kind) then acc
    else if flushRowsEnd g kind < s.now then none
    else acc.map (max · (flushRowsEnd g kind))
  (s.frames.takeWhile fun g => g.num != f.num).foldl one (if kind = 1 then s.tapBFrom f else some 0)

/-- The earliest start that the frames before `f` and the tracking reads leave it (R47, R98, R108, R131, R153), as far as it is
known: none while an earlier frame has not been transferred, or reads out beyond its plan. -/
def requiredStart (s : State) (f : Frame) : Option Nat :=
  let vb := 1000 * s.get Reg.TB_SCHED_VBMIN
  let after (t e : Nat) : Nat := max t (max (e + vb) (t + 500000) - (f.t - f.start))
  let first := if s.rd.done.2 = 0 then 0 else after s.rd.done.1 s.rd.done.2
  let one (acc : Option Nat) (g : Frame) : Option Nat :=
    if 3 ≤ g.phase then acc
    else if g.phase < 2 || decide (g.t + g.tEnd < s.now) then none
    else acc.map fun r => max r (after g.t (g.t + g.tEnd))
  let before := (s.frames.takeWhile fun g => g.num != f.num).foldl one (some first)
  let tap (acc : Option Nat) (kind : Nat) : Option Nat := match acc, s.flushFrom f kind with
    | some r, some e => some (if e = 0 then r else max r (e + 340 - (flushFor f kind - f.start)))
    | _, _ => none
  if f.cls.any (·.use) then (flushKinds f).foldl tap before else before

/-- Frame `f`, armed or begun, can keep its start (R47, R98). -/
def onTime (s : State) (f : Frame) : Bool := (s.requiredStart f).any fun r => decide (r ≤ f.start)

/-- Frame `f` moved on as a whole by `d` ns (R98, R108): its exposures keep their lengths. -/
def shiftFrame (f : Frame) (d : Nat) : Frame :=
  { f with
    start := f.start + d, t := f.t + d, ta := f.ta + d, late := f.start + d - f.ts
    cls := f.cls.map fun c => if c.use then { c with start := c.start + d } else c }

/-- The same with what follows it: LATETOT, and the limits of the next frame. -/
def moveFrame (s : State) (f : Frame) (d : Nat) : State × Frame :=
  if d = 0 then (s, f)
  else
    let g := shiftFrame f d
    let s : State := if f.late = 0 then s.bump Reg.TB_SKIPTOT_LATETOT else s
    let s := s.setFrame f.num fun _ => g
    let last := s.expo.num == f.num
    ({ s with expo := { s.expo with
      lastT := if last then some g.t else s.expo.lastT
      lastEnd := if last then s.expo.lastEnd + d else s.expo.lastEnd
      lastRows := if last then s.expo.lastRows.map (· + d) else s.expo.lastRows } }, g)

/-- The frames that remain without those of `gone`, with what each takes over in SKIPPED, `n` of them carried so far: a frame that
leaves hands on `counts`. The numbers stay. -/
def carrySkips (gone : Frame → Bool) (counts : Frame → Nat) : List Frame → Nat → List Frame × Nat
  | [], n => ([], n)
  | f :: fs, n =>
    if gone f then carrySkips gone counts fs (n + counts f)
    else
      let p := carrySkips gone counts fs 0
      ({ f with skipped := min 255 (f.skipped + n) } :: p.1, p.2)

/-- Armed frames are taken out (R90, R101, R104): those after them move down in number, the next one delivered counts them as `counts`
says, and the limits of R98 are those of the last frame that is left, or of the last readout. -/
def removeFrames (s : State) (gone : Frame → Bool) (counts : Frame → Nat) : State :=
  let out := (s.frames.filter gone).map (·.num)
  let down (k : Nat) : Nat := k - (out.filter fun n => decide (n < k)).length
  let p := carrySkips gone counts s.frames 0
  let rest := p.1.map fun (f : Frame) => { f with num := down f.num, burst := down f.burst }
  let last := rest.getLast?
  let left (k : Nat) : Bool := !out.contains k
  let s : State := { s with
    frames := rest
    lastArmed := if left s.lastArmed then down s.lastArmed else s.lastArmed
    trk := { s.trk with subs := s.trk.subs.map fun (x : SubExp) => { x with frame := down x.frame } }
    expo := { s.expo with
      num := s.expo.num - out.length
      skips := s.expo.skips + p.2
      lastT := (last.map (·.t)).or (if s.rd.done.2 = 0 then none else some s.rd.done.1)
      lastEnd := (last.map fun f => f.t + f.tEnd).getD s.rd.done.2
      lastRows := (last.map rowEndsA).getD []
      burst := (s.expo.burst.filter fun b => left b.first).map fun (b : Burst) => { b with first := down b.first }
      expBusy := (s.expo.expBusy.filter fun e => left e.2).map fun e => (e.1, down e.2)
      armed := (s.expo.armed.filter fun m => left m.num).map fun (m : ArmMark) => { m with num := down m.num }
      dark := s.expo.dark.map fun (d : DarkCap) => { d with frames := (d.frames.filter left).map down } } }
  s.adoptSubs

/-- An armed frame of a strict trigger that would start late is dropped, with the frames of its burst (R101, R103, R104) (log entries
10 and 85). -/
def dropArmed (s : State) (f : Frame) : State :=
  let s := s.removeFrames (fun g => g.burst == f.burst && g.phase == 0) fun g => g.skipped + (if g.num = f.num then 1 else 0)
  if f.trig = 1 then s.bump Reg.EV_STAT_DROPPED 1 f.slot else s.bump Reg.TB_DROPTOT_DROPTOT

/-- Frame `f` is that of the START_FRAME that slot `n` is committed to or holds pending (R84). -/
def slotFrame (s : State) (n : Nat) (f : Frame) : Bool :=
  f.trig == 1 && f.slot == n && f.num == f.burst && f.ts == (s.slot n).ts

/-- The START_FRAME of frame `f` has executed, if its slot was waiting for that (R84, R87). -/
def frameBegun (s : State) (f : Frame) : State :=
  if s.slotFrame f.slot f && s.sstate f.slot == ssPending && (s.slot f.slot).action == 1 then
    s.slotDone f.slot (s.now - f.ts) false
  else s

/-- A frame that had begun starts afresh, no earlier than its start then is (R47): its taps are flushed once more, and its slot reports the
lateness (R84) (log entry 89). -/
def restartFrame (s : State) (f : Frame) : State × Frame :=
  if f.phase = 0 then (s, f)
  else
    let g := { f with phase := 0, flush := [], released := [], steers := [], subSteers := [], latchStart := [] }
    (s.setFrame f.num fun _ => g, g)

/-- Frame `f` begins its earliest exposure at this instant (R92), late where this is after its start. -/
def beginFrame (s : State) (f : Frame) : State × Frame :=
  if f.phase ≠ 0 then (s, f)
  else
    let (s, f) := (s.frameBegun f).moveFrame f (s.now - f.start)
    let d := if f.slot < 64 then wrapDiff (s.modulus f.slotCh) (s.posAt f.slotCh s.now - f.slotP) else 0
    (s, { f with phase := 1, latchStart := s.latchAll s.now, startDiff := d })

/-- Rows of class `k` released so far; in the global modes all go together. -/
def rowsReleased (f : Frame) (k : Nat) : Nat := f.released.count k

/-- Releases that class `k` of a frame takes: one, and in cell-rolling mode one for each active row (Table 4-8). -/
def releases (f : Frame) : Nat := if shutter f.img = 3 then (f.rowIds.filter (!·.ref)).length else 1

/-- The instant of the next release of class `c`, number `k`, of frame `f` (R106, Table 4-8). -/
def releaseAt (f : Frame) (k : Nat) (c : FClass) : Nat :=
  c.start + if shutter f.img = 3 then slotStart f.img f.strip f.gains f.div f.tRd (rowsReleased f k) else 0

/-- The cells of class `k` of frame `f` are released from RESET (R106), in cell-rolling mode those of its next row (Table 4-8); a
class that is released late starts then (R46, R109). A frame with no class in use is transferred (R507). -/
def releaseClass (s : State) (f : Frame) (k : Nat) : State :=
  let (s, f) := s.beginFrame f
  if f.cls.any (·.use) then
    let c := f.cls.getD k ⟨false, 0, 0, 0, 0, 0, 0⟩
    let late := shutter f.img != 3 && decide (c.start < s.now)
    let g := if late then (expOnFrame f k s.now).1 else f
    (s.retimed f g).setFrame f.num fun _ => { g with released := f.released ++ [k] }
  else (s.setFrame f.num fun _ => f).transfer f

/-- The ABORT packet of a frame on VC `v` over the packets of it that have been sent (R176, R332). -/
def sendAbort (s : State) (kind v num gen pgen : Nat) : State :=
  let payload := leBytes 1 kind ++ leBytes 1 (devCode s.dev) ++ leBytes 1 (causeCode s.cause) ++ leBytes 1 0 ++
    leBytes 4 num ++ leBytes 2 gen ++ leBytes 2 pgen ++
    leBytes 4 (Nat.xor (runOf (s.coveredOf v (num % 65536))) 0xFFFFFFFF) ++
    leBytes 4 (s.coveredOf v (num % 65536)).length
  (s.build v 0x4E num payload true false false).1

/-- Last footer parts that wait in the groups and will not leave any more. -/
def waitingFooters (s : State) : List Packet :=
  s.groups.flatMap fun g => (g.buf ++ g.spill).filter fun p => p.dt == 0x49 && leAt p.payload 1 1 == 0

/-- What waits in the groups for credits is neither sent nor covered by a frame CRC any more (R176, R332). -/
def discardWaiting (s : State) : State :=
  let ps := s.groups.flatMap fun g => (g.spill ++ g.buf).filter (!·.bypass)
  { s with
    groups := s.groups.map fun (g : Group) => { g with spill := [], buf := g.buf.filter (·.bypass) }
    covered := s.covered.filter fun p => !ps.contains p }

/-- ABORT on each VC with a frame in progress, in place of its footer (R176), that of a frame included whose footer waits in a
group; a frame whose header has not gone out is in progress on no VC. -/
def abortFrames (s : State) : State :=
  let foots := s.waitingFooters
  let s := s.discardWaiting
  let s := foots.foldl (fun s p =>
    s.sendAbort (leAt p.payload 0 1) p.vc (leAt p.payload 4 4) (leAt p.payload 8 2) (leAt p.payload 10 2)) s
  let s := s.frames.foldl (fun s f => if f.phase < 2 then s else
    f.counts.foldl (fun s c => if c.closed || f.hdrDue.any (·.1 == c.vc) then s
      else s.sendAbort 1 c.vc f.num f.gen (leAt f.rasterHdr 10 2)) s) s
  let s : State := match s.cis.out with
    | some o => s.sendAbort o.kind o.vc o.stored.frame.num o.stored.frame.gen (leAt o.stored.hdr 10 2)
    | none => s
  s.s2.foldl (fun s x => if x.linked && decide (0 < x.nextRow) then
    s.sendAbort 4 (x.img.fld Reg.CP_CFG_VC) x.stored.frame.num x.stored.frame.gen x.pgen else s) s

end State

/-- A FLUSH of frame `f` has ended at the instant `now`, with the 40 ns of a STEER: it takes 300 ns (Table 2-2). -/
def Frame.flushed (f : Frame) (kind now : Nat) : Bool := f.flush.any fun e => e.1 == kind && decide (e.2 + 340 ≤ now)

/-- The taps that must be empty before class `k` of frame `f` is released have been flushed (Table 4-7, R185, R187), and in
cell-rolling mode no row is released before the last frame's exposure of it has ended (R108). -/
def State.readyToExpose (s : State) (f : Frame) (k : Nat) : Bool :=
  let v := State.rowsReleased f k
  if shutter f.img = 2 then f.flushed 0 s.now && f.flushed 1 s.now
  else
    let row := (s.frames.takeWhile fun g => g.num != f.num).all fun g => shutter g.img != 3 || g.phase != 2 || decide (v < g.slotsOpen)
    (shutter f.img != 3 || row) &&
      (!((trackedCells f.img).any fun c => f.clsOf c == k) || f.flushed (if shutter f.img = 3 then 3 + v else 2) s.now)

/-- The frame in readout whose rows of class `k` are still being released in cell-rolling mode (Table 4-8) (log entry
92). -/
def State.rollingDue (s : State) (k : Nat) : Option Frame :=
  s.frames.find? fun f => f.phase == 2 && shutter f.img == 3 && (f.cls[k]?).any (fun c => c.use &&
    decide (State.rowsReleased f k < State.releases f ∧ State.releaseAt f k c ≤ s.now))

/-- CLASS_EXPOSURE_START (R92, R106, R111, R112, R507): the start instant of class `k` in the next frame. The first class begins
the frame, at its start or, where R47, R98, R108 or R131 hold it back, late and as a whole; a strict frame that would be late
is dropped (R104). In cell-rolling mode each row of the class has its own start (Table 4-8). -/
def execClassExposureStart (k : Nat) (s : State) : Outcome State Fault Refusal :=
  if !s.running then ok s
  else match s.rollingDue k, if s.dev = .run then s.exposing else none with
  | some g, _ => ok (if s.readyToExpose g k then s.setFrame g.num fun h => { h with released := h.released ++ [k] } else s)
  | none, none => ok s
  | none, some f =>
    let c := f.cls.getD k ⟨false, 0, 0, 0, 0, 0, 0⟩
    let none' := !f.cls.any (·.use)
    if f.phase = 0 then
      match s.requiredStart f with
      | none => ok s
      | some r =>
        let first := none' || (c.use && decide (c.start ≤ f.start) && s.readyToExpose f k)
        if s.now < max r f.start ∨ !first then ok s
        else if f.strict ∧ f.ts + 2 < s.now then ok (s.dropArmed f)
        else ok (s.releaseClass f k)
    else if c.use && decide (State.rowsReleased f k < State.releases f ∧ State.releaseAt f k c ≤ s.now) && s.readyToExpose f k &&
        s.onTime f then
      ok (s.releaseClass f k)
    else ok s

/-- LATE_FRAME_START (R47, R98, R104, R108, R131, R153): the next frame is held back, and the end of what holds it is known: its
classes move on together, so that its transfer comes VBMIN after the end of the readout before it. A frame that had begun starts
afresh (log entry 89). -/
def execLateFrameStart (s : State) : Outcome State Fault Refusal :=
  match s.exposing with
  | none => ok s
  | some f =>
    if s.dev ≠ .run then ok s
    else match s.requiredStart f with
      | none => ok s
      | some r =>
        let st := if f.phase = 0 then max f.start (if f.start < s.now then max r s.now else r)
          else if f.start < r then max r s.now else f.start
        if st = f.start then ok s
        else
          let (s, g) := s.restartFrame f
          if g.strict ∧ g.ts + 2 < st then ok (s.dropArmed g)
          else
            let s := (s.moveFrame g (st - g.start)).1
            ok (if f.phase ≠ 0 ∧ s.slotFrame f.slot f then s.set Reg.EV_LATE_LATE (min (st - f.ts) (2 ^ 32 - 1)) f.slot else s)

/-- The FLUSH of a picture tap that is due: the first one of the frame in hand that has not been done and lies at most 340 ns ahead,
and whose tap holds nothing that is still to be read (R47, R131, R185, Tables 4-5 to 4-8). -/
def State.flushDue (s : State) (f : Frame) (tapB : Bool) : Option Nat :=
  (State.flushKinds f).find? fun k => (k == 1) == tapB && !(f.flush.any (·.1 == k)) &&
    decide (State.flushFor f k ≤ s.now + 340) && s.flushFrom f k == some 0

/-- FLUSH of a picture tap (R45, R47, R131, R185): it starts now and is recorded with its frame. -/
def State.flushPicture (s : State) (tapB : Bool) : Option State :=
  let begun (f : Frame) : Bool := ((s.dev == .run && decide (f.phase < 2)) || (f.phase == 2 && shutter f.img == 3)) && f.cls.any (·.use)
  if !s.running then none
  else (s.frames.findSome? fun f => if begun f then (s.flushDue f tapB).map fun k => (f.num, k) else none).map fun p =>
    s.setFrame p.1 fun g => { g with flush := g.flush ++ [(p.2, s.now)] }

/-- Class `c` of frame `f` whose STEER number `i` completes now: a STEER that comes late lengthens its exposure (R46, R109). -/
def steeredLate (f : Frame) (c : FClass) (i now : Nat) : FClass :=
  let d := now - f.steerAt c i
  if shutter f.img = 2 then c
  else if i = 0 then { c with dur := c.dur + d }
  else { c with durB := c.durB + d }

/-- STEER_DONE (R46, R47, R106, R107, R125, R127): a STEER of class `k` completes; the last one of the frame is its transfer. A
STEER into a tap that has not been flushed, or of a frame that unread charge or an overrunning readout holds back, is not performed: the
frame starts late (R47, R98, R153). -/
def execSteerDone (k : Nat) (s : State) : Outcome State Fault Refusal :=
  match s.frames.find? (fun f => f.phase == 1) with
  | none => ok s
  | some f =>
    let c := f.cls.getD k ⟨false, 0, 0, 0, 0, 0, 0⟩
    let i := f.steersDone k
    let tap := i % 2
    if s.dev ≠ .run ∨ !c.use ∨ !f.released.contains k ∨ f.steerCount ≤ i ∨ s.now < f.steerAt c i ∨ !f.flushed tap s.now ∨ !s.onTime f then
      ok s
    else
      let f := { f with steers := (k, i + 1) :: f.steers.filter (·.1 != k), cls := f.cls.set k (steeredLate f c i s.now) }
      let s := s.setFrame f.num fun _ => f
      ok (if f.steered then s.transfer f else s)

/-- The frames and the request of slot `n` that have not begun. -/
def State.slotWaits (s : State) (n : Nat) : Bool :=
  s.reqs.any (fun r => r.trig == 1 && r.slot == n) || s.frames.any fun f => s.slotFrame n f && f.phase == 0

/-- What slot `n` was to start in STANDBY is discarded without a count (R90). -/
def State.discardSlot (s : State) (n : Nat) : State :=
  let s : State := { s with reqs := s.reqs.filter fun r => !(r.trig == 1 && r.slot == n) }
  let firsts := (s.frames.filter fun f => s.slotFrame n f && f.phase == 0).map (·.num)
  s.removeFrames (fun g => firsts.contains g.burst && g.phase == 0) (·.skipped)

/-- Lateness of the START_FRAME of slot `n`: that of its frame where it has begun (R97). -/
def State.frameLate (s : State) (n : Nat) : Nat :=
  match s.frames.find? (fun f => s.slotFrame n f && f.phase != 0) with
  | some f => f.start - f.ts
  | none => s.slotLate n

/-- START_FRAME (R80, R84, R86 to R88, R90, R103, R133): the te of a START_FRAME slot. Its frame was armed at the commit, or waits for
a busy target; the slot has executed once the frame has begun. In STANDBY it starts nothing, and nothing is counted. -/
def execStartFrame (n : Nat) (s : State) : Outcome State Fault Refusal :=
  if !s.slotDue n 1 then ok s
  else if s.dev ≠ .run then ok ((s.discardSlot n).slotDone n (s.slotLate n) false)
  else
    let s1 : State := if s.collides n 0x600 then s.bump Reg.EV_SUM_COLLCNT else s.claim 0x600
    ok (if s.slotWaits n then s1.set Reg.EV_STAT_SSTATE ssPending n else s1.slotDone n (s.frameLate n) false)

/-- START_EXP's effect for class `k` at `te` (R113): on the next frame armed and not transferred, else on the next one to be
armed. -/
def State.startExp (s : State) (k te : Nat) : State :=
  match s.exposing with
  | some f =>
    let s := s.applyExp f.num k te
    { s with expo := { s.expo with expBusy := (k, f.num) :: s.expo.expBusy.filter (·.1 != k) } }
  | none =>
    { s with expo := { s.expo with
      expNext := s.expo.expNext ++ [⟨k, te⟩], expBusy := (k, 0) :: s.expo.expBusy.filter (·.1 != k) } }

/-- START_EXP (R113, R88, R90, R103, R104). -/
def execStartExp (n : Nat) (s : State) : Outcome State Fault Refusal :=
  if !s.slotDue n 2 then ok s
  else
    let x := s.slot n
    let k := x.arg % 8
    if s.dev ≠ .run then ok (s.slotDone n (s.slotLate n) false)
    else if s.slotStrictLate n then ok (s.slotEnd n true)
    else if s.collides n (0x100 + k) then ok (s.slotBusy n true)
    else if s.expo.expBusy.any (·.1 == k) || s.pendingOn n State.slotResource (0x100 + k) then ok (s.slotBusy n false)
    else ok (((s.startExp k x.te).claim (0x100 + k)).slotDone n (s.slotLate n) false)

end Sys2Proof.Machine
end

