-- ==== Sys2Proof/Machine/Readout.lean ====
section
/-! DEFINITION. The readout: failures of cells, blocks and regions, row slots, cell converters and queues, the block
arbiters, output rows and their runs, the end of a readout and the closing sequence of a raw frame (01_architecture.md R12
to R15; 05_cell_readout.md R145 to R178; 11_packets_and_metadata.md R320, R324 to R328). -/
namespace Sys2Proof.Machine

open Host (Outcome)

/-- Codes packed as a little-endian bit stream of `w` bits each (R324). -/
def packBits (w : Nat) (codes : List Nat) : List Byte :=
  let v := codes.foldr (fun c acc => c % 2 ^ w + 2 ^ w * acc) 0
  leBytes (codes.length * w / 8) v

/-- An output row that a cell owes (R172): its row, tap and gain, and the position in reading order of its last source. -/
structure OutKey where
  row : Nat
  tapB : Bool
  gain : Nat
  pos : Nat
  deriving DecidableEq, Repr

namespace Frame

/-- Whether the entries of a row of cell `c` are LCG, in the order of conversion (R48, R114); the one READ of tap A in the HDR
fallback gives both (Table 4-3) (log entry 38). -/
def readGains (f : Frame) (c : Nat) : List Bool :=
  if f.fallback c then [false, true]
  else match (f.cellClass c).gain with
    | 0 => [false]
    | 1 => [true]
    | _ => [false, true]

/-- Gains of the output row sets of a tap of a cell (R114, R172). -/
def outGains (f : Frame) (c : Nat) (tapB : Bool) : List Nat :=
  gainKeys f.img f.hdrout (f.fallback c) (f.cellClass c).gain tapB

/-- Rows that a tap of a cell gives. -/
def tapRows (f : Frame) : Nat := if twoTaps f.img then f.rowIds.length / 2 else f.rowIds.length

/-- The row of cell `c` after row `i` in reading order: a tracked cell has no tap B rows (Table 4-3). -/
def rowAfter (f : Frame) (c i : Nat) : Nat :=
  if twoTaps f.img && f.tracks c && decide (f.tapRows ≤ i + 1) then f.rowIds.length else i + 1

/-- Position and tap under which a sample of row `i` is delivered: in the HDR fallback the tap B position carries the LCG sample
(Table 4-3). -/
def placeOf (f : Frame) (c i : Nat) (tapB lcg : Bool) : Nat × Bool :=
  if f.fallback c && lcg then (i + f.tapRows, true) else (i, tapB)

/-- The output rows that cell `c` owes on VC `v`, in order (R162, R171, R172). -/
def owed (f : Frame) (mono : Bool) (v c : Nat) : List OutKey :=
  let d := cellDbin f.img f.theta v c
  let ids := f.rowIds
  let lastPos (p : RowId → Bool) : Nat :=
    ((List.range ids.length).filter fun i => match ids[i]? with
      | some r => p r
      | none => false).getLast?.getD 0
  let tapRows (b src : Bool) : List OutKey :=
    let act := (Machine.outRows f.img mono d).flatMap fun y => (f.outGains c b).map fun g =>
      (⟨y, b, g, lastPos fun r => r.tapB == src && !r.ref && outRowOf mono d r.v == y⟩ : OutKey)
    let refs := if f.img.flag Reg.RD_CONV_REFOUT && f.strip then
        (List.range (refRows f.img true)).flatMap fun i => (f.outGains c b).map fun g =>
          let y := (if chgBin f.img then 32 else 64) + i
          (⟨y, b, g, lastPos fun r => r.tapB == src && r.ref && r.v == y⟩ : OutKey)
      else []
    act ++ refs
  if f.hdrout then tapRows false true
  else tapRows false false ++ (if twoTaps f.img then tapRows true true else [])

/-- Outputs of cell `c` on VC `v` made so far. -/
def outDone (f : Frame) (v c : Nat) : Nat := ((f.rowsDone.find? (·.1 == 16 * c + v)).map (·.2)).getD 0

/-- One more output of cell `c` on VC `v`. -/
def addDone (f : Frame) (v c : Nat) : Frame :=
  let n := f.outDone v c + 1
  { f with rowsDone := (16 * c + v, n) :: f.rowsDone.filter (·.1 != 16 * c + v) }

/-- A fill list with entry `e`, joined to the entry of the same unit, tap and cause, with GAIN 2 where both gains are meant
(R175, Table 11-12). Lines stand one by one. -/
def joinFill (es : List FillEnt) (e : FillEnt) : List FillEnt :=
  let same (x : FillEnt) : Bool :=
    x.cause == e.cause && x.unit == e.unit && x.tapB == e.tapB && x.index == e.index && (e.unit != 3 || x == e)
  if es.any same then
    es.map fun x => if same x then { x with
      first := min x.first e.first, last := max x.last e.last, gain := if x.gain = e.gain then x.gain else 2 } else x
  else es ++ [e]

/-- Failed unit `x` of a fill list lies inside failed unit `e` (R15). -/
def insideFill (e x : FillEnt) : Bool :=
  (e.cause == 2 && x.cause == 1 && cellBlock x.index == e.index) ||
    (e.cause == 3 && ((x.cause == 1 && blockRegion (cellBlock x.index) == e.index) ||
      (x.cause == 2 && blockRegion x.index == e.index)))

/-- A fill list with one more entry (R175): what it names inside a failed block or region goes over to that unit, and an entry
inside a unit that it names goes to that one (R15) (log entry 78). -/
def withFill (es : List FillEnt) (e : FillEnt) : List FillEnt :=
  let into (e x : FillEnt) : FillEnt := if insideFill e x then { x with cause := e.cause, unit := e.unit, index := e.index } else x
  let e := es.foldl (fun e x => if x.tapB = e.tapB then into x e else e) e
  if es.any (insideFill e) then (es.map (into e) ++ [e]).foldl joinFill [] else joinFill es e

/-- Two fill lists as one (R15, R175). -/
def joinFills (xs es : List FillEnt) : List FillEnt := es.foldl withFill xs

/-- A fill-list entry added to a frame's list. -/
def addFill (f : Frame) (e : FillEnt) : Frame := { f with fills := withFill f.fills e }

/-- The count record of VC `v` changed. -/
def setCount (f : Frame) (v : Nat) (g : VcCount → VcCount) : Frame :=
  { f with counts := f.counts.map fun c => if c.vc == v then g c else c }

/-- A statistics flag of a cell. -/
def flagCell (f : Frame) (c : Nat) (g : CellFlag → CellFlag) : Frame :=
  if f.cflags.any (·.cell == c) then { f with cflags := f.cflags.map fun x => if x.cell == c then g x else x }
  else { f with cflags := g ⟨c, false, false, false⟩ :: f.cflags }

end Frame

namespace State

/-- Cell `c` at work changed through `f`. -/
def setCell (s : State) (c : Nat) (f : CellRt → CellRt) : State :=
  let x := f (s.cellRt c)
  { s with rd := { s.rd with cells := x :: s.rd.cells.filter (·.cell != c) } }

/-- The frame that is being read out. -/
def reading (s : State) : Option Frame := s.frames.find? (·.phase == 2)

/-- The unit that accounts for a filled row of cell `c` (R15, R175): cause, unit and index. -/
def fillUnit (s : State) (c cause : Nat) : Nat × Nat × Nat :=
  let b := cellBlock c
  if cause = 4 ∨ cause = 6 ∨ cause = 7 then (cause, 0, c)
  else if cause = 5 then (5, 1, b)
  else if s.regionFailed (blockRegion b) then (3, 2, blockRegion b)
  else if s.blockFailed b then (2, 1, b)
  else (1, 0, c)

/-- A group of output rows of one run, all data or all fill of one cause, sent as one raw packet (R170, R324). -/
def sendRun (s : State) (f : Frame) (rows : List OutRow) : State :=
  match rows with
  | [] => s
  | r :: _ =>
    let b (c : Bool) (i : Nat) : Nat := if c then 2 ^ i else 0
    let n := rows.length
    let w := if 2 ≤ r.gain then 16 else rawBits f.img
    let dt := if 2 ≤ r.gain then 0x22 else if rawBits f.img = 14 then 0x21 else 0x20
    let flags := b r.tapB 0 + 2 * min 2 r.gain + b (r.cause != 0) 3 + b (chgBin f.img) 4
    let payload := leBytes 1 (cellBlock r.cell) ++ leBytes 1 (cellLocal r.cell) ++ leBytes 1 n ++ leBytes 1 r.row ++
      leBytes 1 flags ++ leBytes 1 r.spr ++ leBytes 1 r.cause ++ leBytes 1 0 ++ rows.flatMap fun x => packBits w x.codes
    let s : State := (s.build r.vc dt f.num payload false true true).1
    s.setFrame f.num fun f =>
      let f := f.setCount r.vc fun c => if r.cause = 0 then { c with rowsData := c.rowsData + n }
        else { c with rowsFill := c.rowsFill + n }
      if r.cause = 0 ∨ r.cause = 8 then f
      else rows.foldl (fun f x =>
        let (cause, unit, index) := s.fillUnit x.cell x.cause
        f.addFill ⟨cause, unit, x.tapB, min 2 x.gain, index, x.row, x.row⟩) f

/-- The stretch of consecutive set cells of its block that owe output row `k` on its VC and hold cell `k.cell`, from local index
to local index (R170). -/
def runSpan (s : State) (f : Frame) (k : OutRow) : Nat × Nat :=
  let ls := (List.range 256).filter fun l =>
    let x := cellOf (cellBlock k.cell) l
    f.inVc k.vc x && sprOf f.img (cellDbin f.img f.theta k.vc x) == k.spr &&
      (f.owed s.mono k.vc x).any fun o => o.row == k.row && o.tapB == k.tapB && o.gain == k.gain
  match (runsOf ls).find? fun r => decide (r.1 ≤ cellLocal k.cell ∧ cellLocal k.cell < r.1 + r.2) with
  | none => (cellLocal k.cell, cellLocal k.cell + 1)
  | some (a, n) => (a, a + n)

/-- The run that output row `r` begins, once it is there: the rows of a stretch go out in ascending local index, so `r` must be the
first that has not gone; it takes the rows of its cause that follow, up to the cap, and is complete at the cap, at the end of the
stretch or before a row of another cause (R170, R171, R324) (log entry 28). `none` where it has to wait. -/
def runIfReady (s : State) (f : Frame) (r : OutRow) : Option (List OutRow) :=
  let first (x : OutRow) : Bool := (f.outRows.find? fun y => y.vc == x.vc && y.cell == x.cell) == some x
  let (a, e) := s.runSpan f r
  let b := cellBlock r.cell
  let l := cellLocal r.cell
  let cap := runCap (packedBytes r.spr (if 2 ≤ r.gain then 16 else rawBits f.img))
  let mine (l : Nat) : Option OutRow :=
    (f.outRows.find? fun y => y.vc == r.vc && y.cell == cellOf b l).filter fun y =>
      y.row == r.row && y.tapB == r.tapB && y.gain == r.gain
  let owes (l : Nat) : Bool := ((f.owed s.mono r.vc (cellOf b l)).drop (f.outDone r.vc (cellOf b l))).any (fun o =>
      o.row == r.row && o.tapB == r.tapB && o.gain == r.gain) ||
    f.outRows.any fun y => y.vc == r.vc && y.cell == cellOf b l && y.row == r.row && y.tapB == r.tapB && y.gain == r.gain
  if !first r || f.hdrDue.any (·.1 == r.vc) || ((List.range (l - a)).any fun i => owes (a + i)) then none
  else
    let after := (List.range (min cap (e - l))).map fun i => mine (l + i)
    let got := (after.takeWhile fun x => x.any (·.cause == r.cause)).filterMap id
    let whole := got.length == cap || l + got.length == e || (mine (l + got.length)).isSome
    if whole then some got else none

/-- Every run of frame `num` that can leave does, at most as many as the fuel says. -/
def sendRuns (s : State) (num : Nat) : Nat → State
  | 0 => s
  | fuel + 1 =>
    match s.frame num with
    | none => s
    | some f =>
      match f.outRows.findSome? (s.runIfReady f) with
      | none => s
      | some got =>
        let s := s.setFrame num fun f => { f with outRows := f.outRows.filter fun x => !got.contains x }
        sendRuns (s.sendRun f got) num fuel

/-- An output row of a cell (R170, R171): it waits for its run and for its cell's earlier rows. In STANDBY the cistern is not
written (R259). -/
def pushOut (s : State) (num : Nat) (r : OutRow) : State :=
  let s := s.setFrame num fun f =>
    let f := (f.addDone r.vc r.cell)
    let f := { f with outRows := f.outRows ++ [r] }
    let keep := s.dev == .run && r.vc == f.img.fld Reg.CS_CFG_RVC && hasBit f.admis 1 && !f.rateSkip
    let f := if keep then { f with raster := f.raster ++ [r] } else f
    if r.cause = 4 ∨ r.cause = 5 then f.flagCell r.cell fun x => { x with partlyLost := true } else f
  s.sendRuns num (((s.frame num).map (·.outRows.length)).getD 0)

/-- A fill row of cell `c` for an owed output (R173). -/
def fillRow (f : Frame) (v c : Nat) (k : OutKey) (cause : Nat) : OutRow :=
  let spr := sprOf f.img (cellDbin f.img f.theta v c)
  ⟨v, c, k.row, k.tapB, k.gain, spr, cause, List.replicate spr (f.img.fld Reg.RD_FILL_FILL)⟩

/-- The next outputs of cell `c` on VC `v` whose last source row lies at or before position `i` are filled (R13, R14). -/
def fillUpTo (s : State) (num v c i cause : Nat) : State :=
  match s.frame num with
  | none => s
  | some f =>
    let due := ((f.owed s.mono v c).drop (f.outDone v c)).takeWhile fun k => decide (k.pos ≤ i)
    due.foldl (fun s k => s.pushOut num (fillRow f v c k cause)) s

/-- Rows of cell `c` that its slots have already opened and that have not been delivered are filled, on every VC that carries it,
those of a frame whose readout has ended included (R13, R14). -/
def fillOpen (s : State) (c cause : Nat) : State :=
  s.frames.foldl (fun s f =>
    if 2 ≤ f.phase ∧ 0 < f.slotsOpen then
      (rawVcs f.img).foldl (fun s v => if f.inVc v c then s.fillUpTo f.num v c (f.slotsOpen - 1) cause else s) s
    else s) s

/-- Everything a failed cell still holds is dropped, and its open rows are filled (R14, R227). -/
def clearCell (s : State) (c cause : Nat) : State :=
  let s : State := { s with rd := { s.rd with
    cells := s.rd.cells.filter (·.cell != c), blockOut := s.rd.blockOut.filter (·.cell != c) } }
  let subs := s.trk.subs.map fun x =>
    if x.span.contains c && !(x.data.any (·.1 == c)) then { x with cells := x.cells.erase c, data := (c, []) :: x.data } else x
  ({ s with trk := { s.trk with subs := subs } }).fillOpen c cause

/-- Cell `c` is marked failed until the next boot (R12, R15). -/
def cellFail (s : State) (c : Nat) : State :=
  if s.cellFailed c then s
  else
    let b := cellBlock c
    let l := cellLocal c
    let s := s.set Reg.BLK_FAIL_FAILED (withBit (s.get Reg.BLK_FAIL_FAILED b (l / 32)) (l % 32)) b (l / 32)
    let s := s.setFault 1
    let s : State := if s.blockFailed b || s.regionFailed (blockRegion b) then s else s.bump Reg.ID_FAILCNT_CELL
    s.clearCell c 1

/-- Failed cells of block `b`, as ID_FAILCNT counted them. -/
def failedCellsIn (s : State) (b : Nat) : Nat := ((List.range 256).filter fun l => s.cellFailed (cellOf b l)).length

/-- Block `b` is marked failed until the next boot and its domain is switched off (R12); its cells are no longer counted on
their own (R15). -/
def blockFail (s : State) (b : Nat) : State :=
  if s.blockFailed b then s
  else
    let s := s.setFault 2
    let s : State := if s.regionFailed (blockRegion b) then s
      else (s.set Reg.ID_FAILCNT_CELL (s.get Reg.ID_FAILCNT_CELL - s.failedCellsIn b)).bump Reg.ID_FAILCNT_BLK
    let s : State := { s with rd := { s.rd with blkFail := withBit s.rd.blkFail b } }
    let s : State := if s.blockOn b then s.switchOff b else s
    (List.range 256).foldl (fun s l => s.clearCell (cellOf b l) 2) s

/-- Region `r` is marked failed until the next boot; its domain and its 16 block domains are switched off (R12), and work in
flight is discarded (R37). -/
def regionFail (s : State) (r : Nat) : State :=
  if s.regionFailed r then s
  else
    let s := s.setFault 3
    let bs := regionBlocks r
    let cells := (bs.map fun b => if s.blockFailed b then 0 else s.failedCellsIn b).sum
    let s := s.set Reg.ID_FAILCNT_CELL (s.get Reg.ID_FAILCNT_CELL - cells)
    let s : State := (s.set Reg.ID_FAILCNT_BLK (s.get Reg.ID_FAILCNT_BLK - (bs.filter s.blockFailed).length)).bump Reg.ID_FAILCNT_RGN
    let s : State := { s with rd := { s.rd with rgnFail := withBit s.rd.rgnFail r } }
    let s := bs.foldl (fun s b => if s.blockOn b then s.switchOff b else s) s
    let s := s.set Reg.PM_RGN_ON (withoutBit (s.get Reg.PM_RGN_ON) r)
    (bs.foldl (fun s b => (List.range 256).foldl (fun s l => s.clearCell (cellOf b l) 3) s) s).workDiscard

/-- Why the rows of cell `c` are filled in frame `f`: 0 where they are not (R164, R173). -/
def fillCause (s : State) (f : Frame) (c : Nat) : Nat := s.causeOf f.ready c

/-- Bytes of an entry: 96 at 12 bits, 112 at 14 bits, 112 for a tracking read, none for a discarded row (R166, R167). -/
def entryBytes (bits : Nat) (e : Entry) : Nat :=
  if e.track then 112 else if e.codes.isEmpty then 0 else 8 * bits

/-- Bytes that row entries need in a queue (R166). -/
def rowRoom (bits entries : Nat) : Nat := entries * (8 * bits)

/-- Bytes held by a cell queue. -/
def queueBytes (s : State) (c bits : Nat) : Nat := ((s.cellRt c).queue.map (entryBytes bits)).sum

/-- A dropped raw row packet of `n` cells listed in its frame, whose rows have not been sent after all (R174, R328). -/
def dropRows (f : Frame) (p : Packet) : Frame :=
  let at' (i : Nat) : Nat := leAt p.payload i 1
  let n := at' 2
  let f := f.setCount p.vc fun c =>
    let c := { c with rowsDrop := c.rowsDrop + n }
    if hasBit (at' 4) 3 then { c with rowsFill := c.rowsFill - n } else { c with rowsData := c.rowsData - n }
  (List.range n).foldl (fun f i =>
    let c := cellOf (at' 0) (at' 1 + i)
    (f.addFill ⟨6, 0, hasBit (at' 4) 0, at' 4 / 2 % 4, c, at' 3, at' 3⟩).flagCell c fun x =>
      { x with partlyLost := true }) f

/-- Packets that were dropped are listed with cause DROP and counted (R174, R193, R249): a raw row in its frame, or in the
stored copies of one that has retired. A recall of which a packet is dropped is discarded (R38, R256). -/
def accountDrops (s : State) : State :=
  let ps := s.dropped
  let s : State := { s with dropped := [] }
  ps.foldl (fun s p =>
    if p.dt = 0x20 ∨ p.dt = 0x21 ∨ p.dt = 0x22 then
      let s := s.bump Reg.RD_CNT_DROPROWS (leAt p.payload 2 1)
      match s.frames.find? (fun f => f.num % 65536 == p.frameLo) with
      | none => s.mapStored p.frameLo true fun f => dropRows f p
      | some f => s.setFrame f.num fun f => dropRows f p
    else if p.dt = 0x50 then
      if s.cis.rcl.any fun x => x.1.id == leAt p.payload 0 1 then s.recallFail else s
    else if p.dt = 0x41 then s.bump Reg.TK_CNT_RESDROP
    else if p.dt = 0x30 ∨ p.dt = 0x31 then
      let row := leAt p.payload 2 2
      let hitRow (x : S2Frame) : Bool := x.stored.frame.num % 65536 == p.frameLo &&
        !(x.fills.any fun e => e.cause == 6 && e.first == row)
      let new := s.s2.any hitRow
      let one (x : S2Frame) : S2Frame :=
        { x with rowsDrop := x.rowsDrop + 1, fills := x.fills ++ [⟨6, 3, false, 0, 0, row, row⟩] }
      let s : State := { s with s2 := s.s2.map fun x => bif hitRow x then one x else x }
      if new then s.bump Reg.CP_CNT_DROPROWS else s
    else if p.dt = 0x23 then
      let row := leAt p.payload 2 2
      let listed (o : OpenOut) : Bool := o.fills.any fun e => e.cause == 6 && e.unit == 3 && e.first == row
      let one (o : OpenOut) : OpenOut :=
        { o with linesDrop := o.linesDrop + 1, fills := o.fills ++ [⟨6, 3, false, 0, 0, row, row⟩] }
      { s with cis := { s.cis with out := s.cis.out.map fun o => bif listed o then o else one o } }
    else s) s

/-- The status byte of block `b` for a frame (Table 5-4). -/
def blockStatus (s : State) (f : Frame) (b : Nat) : Nat :=
  let bit (c : Bool) (i : Nat) : Nat := if c then 2 ^ i else 0
  let set := (List.range 256).filter fun l => f.inSet (cellOf b l)
  let inset := !set.isEmpty
  let has (k : Nat) : Bool := f.fills.any fun e => e.cause == k && e.unit == 0 && cellBlock e.index == b
  bit (hasBit f.powered b) 0 + bit inset 1 + bit (set.any fun l => s.cellFailed (cellOf b l)) 2 +
    bit (s.blockFailed b) 3 + bit (s.regionFailed (blockRegion b)) 4 + bit (hasBit f.ovf b) 5 + bit (has 6) 6 +
    bit (inset && !hasBit f.ready b) 7

/-- The exposure-map packets of a stream (R117, R326). -/
def sendExposureMap (s : State) (f : Frame) (v : Nat) (inStream : Nat → Bool) : State :=
  (List.range 16).foldl (fun s r =>
    let cells := (regionBlocks r).flatMap fun b => (List.range 256).map (cellOf b)
    if cells.any inStream then
      let nib (c : Nat) : Nat := f.clsOf c + if inStream c then 8 else 0
      let bytes := (List.range 2048).map fun i =>
        BitVec.ofNat 8 (nib (cells.getD (2 * i) 0) + 16 * nib (cells.getD (2 * i + 1) 0))
      (s.build v 0x4A f.num (leBytes 4 f.num ++ leBytes 2 f.gen ++ leBytes 1 r ++ leBytes 1 0 ++ bytes) true false true).1
    else s) s

/-- A fill-list entry (Table 11-12). -/
def fillEntry (e : FillEnt) : List Byte :=
  leBytes 1 (e.cause + 16 * e.unit + if e.tapB then 128 else 0) ++ leBytes 1 e.gain ++ leBytes 2 e.index ++
    leBytes 2 e.first ++ leBytes 2 e.last

/-- The fill list as it is sent: at most 4,096 entries, the last one TRUNC where more are needed (R175, R327). -/
def listedFills (es : List FillEnt) : List FillEnt :=
  if es.length ≤ 4096 then es else es.take 4095 ++ [⟨15, 0, false, 0, 0, 0, 0⟩]

/-- The fill-list packets of a stream (R327). -/
def sendFills (s : State) (v num : Nat) (es : List FillEnt) : State :=
  let n := ceilDiv es.length 511
  (List.range n).foldl (fun s i =>
    let part := (es.drop (511 * i)).take 511
    (s.build v 0x4B num (leBytes 4 num ++ leBytes 2 part.length ++ leBytes 1 i ++
      leBytes 1 (if i + 1 = n then 1 else 0) ++ part.flatMap fillEntry) true false true).1) s

/-- The footer parts of a stream (R328, Table 11-9). -/
def sendFooter (s : State) (f : Frame) (kind v pgen : Nat) (es : List FillEnt) (data fill drop tend : Nat)
    (memerr complete : Bool) : State :=
  let tracked := trackedCells f.img
  let blocks := (List.range 256).filter fun b => tracked.any fun c => cellBlock c == b
  let nparts := 1 + ceilDiv blocks.length 113
  let s : State := (List.range (nparts - 1)).foldl (fun s i =>
    let part := (blocks.drop (113 * i)).take 113
    let recs := part.flatMap fun b => leBytes 2 b ++ leBytes 2 0 ++
      leBytes 32 ((tracked.filter fun c => cellBlock c == b).foldl (fun m c => withBit m (cellLocal c)) 0)
    (s.build v 0x49 f.num (leBytes 1 kind ++ leBytes 1 (i + 1) ++ leBytes 1 nparts ++ leBytes 1 part.length ++ recs)
      true false false).1) s
  let b (c : Bool) (i : Nat) : Nat := if c then 2 ^ i else 0
  let trunc := es.any (·.cause == 15)
  let warn := f.img.fld Reg.EX_PIXCFG_HOLDWARN
  let long := warn != 0 && decide (warn * 1000000 < max f.holdA f.holdB)
  let blk := (List.range 256).map fun b => BitVec.ofNat 8 (s.blockStatus f b)
  let body := leBytes 1 kind ++ leBytes 1 0 ++ leBytes 1 nparts ++
    leBytes 1 (b complete 0 + b trunc 1 + b long 2 + b memerr 3) ++ leBytes 4 f.num ++ leBytes 2 f.gen ++ leBytes 2 pgen ++
    leBytes 4 (Nat.xor (s.ceCtx v) 0xFFFFFFFF) ++ leBytes 4 (s.vcPackets.getD v 0) ++ leBytes 4 data ++ leBytes 4 fill ++
    leBytes 4 drop ++ leBytes 4 es.length ++ leBytes 4 (f.holdA / 1000) ++ leBytes 4 (f.holdB / 1000) ++
    leBytes 2 f.maxLoss ++ leBytes 2 f.clamped.length ++ leBytes 8 tend ++ leBytes 2 blocks.length ++ leBytes 6 0 ++ blk
  (s.build v 0x49 f.num body true false false).1

/-- Data packets of a frame on VC `v` that still wait in a group (R320); what a failed group holds is not waited for
(R36) (log entry 71). -/
def queued (s : State) (v num : Nat) : Bool :=
  (List.range 32).any fun g => s.active g && ((s.group g).buf ++ (s.group g).spill).any fun p =>
    p.data && p.vc == v && p.frameLo == num % 65536

/-- Every output row of VC `v` has been made and has left its run. -/
def vcDone (s : State) (f : Frame) (v : Nat) : Bool :=
  !(f.outRows.any (·.vc == v)) &&
    (List.range 65536).all fun c => !f.inVc v c || f.outDone v c == (f.owed s.mono v c).length

/-- Frames that owe nothing more leave the list; their stored copies keep the fill list as it is then. -/
def retireFrames (s : State) : State :=
  let gone (f : Frame) : Bool := f.phase == 3 && f.counts.all (·.closed) && f.statsDone && f.raster.isEmpty && f.s2Asked
  let s := (s.frames.filter gone).foldl (fun s f => s.mapStored f.num false fun _ => f) s
  { s with frames := s.frames.filter fun f => !gone f }

/-- The headers that waited for a frame to close go out once no earlier frame is open on their VC, and their runs after them
(R320) (log entry 91). -/
def releaseHeaders (s : State) : State :=
  s.frames.foldl (fun s f =>
    let (wait, go) := f.hdrDue.partition fun h => s.vcOpen h.1 f.num
    if go.isEmpty then s
    else
      let s := s.setFrame f.num fun (g : Frame) => { g with hdrDue := wait }
      let s := go.foldl (fun s h => s.sendHeader h.1 f.num h.2) s
      s.sendRuns f.num f.outRows.length) s

/-- The raw closing sequence on VC `v` (R320, R328, R175, R178), and the header of the next frame where it waited. -/
def closeRaw (s : State) (f : Frame) (v : Nat) : State :=
  let s := s.sendExposureMap f v (f.inVc v)
  let es := listedFills f.fills
  let s : State := if es.any (·.cause == 15) then s.set Reg.RD_STAT_TRUNC 1 else s
  let s : State := if es.isEmpty then s else s.sendFills v f.num es
  let c := (f.counts.find? (·.vc == v)).getD ⟨v, 0, 0, 0, false⟩
  let complete := f.counts.all (·.rowsDrop == 0) && !es.any (·.cause == 15)
  let mem := es.any (·.cause == 7)
  let s := s.sendFooter f 1 v (leAt f.rasterHdr 10 2) es c.rowsData c.rowsFill c.rowsDrop f.lastConv mem (complete && !mem)
  let s : State := (List.range 256).foldl (fun s b => s.set Reg.BLK_STAT_STATUS (s.blockStatus f b) b) s
  ((s.setFrame f.num fun f => f.setCount v fun c => { c with closed := true }).retireFrames).releaseHeaders

/-- Block `b` has work left in STANDBY (R401): it is in a readout or a sub-exposure, or what it has read has not left it; or FORCEON
keeps it on (R163). -/
def blockNeeded (s : State) (b : Nat) : Bool :=
  s.inForce.flag Reg.BLK_CFG_FORCEON b ||
    s.rd.cells.any (fun x => cellBlock x.cell == b && (x.conv.isSome || x.trackNow.isSome || !x.trackWait.isEmpty || !x.queue.isEmpty)) ||
    s.rd.blockOut.any (fun e => cellBlock e.cell == b) || s.trk.subs.any (fun x => x.cells.any fun c => cellBlock c == b) ||
    s.frames.any fun f => f.phase == 2 && (List.range 256).any fun l => f.inSet (cellOf b l)

/-- In STANDBY every block is switched off once its last readout has ended (R401) (log entry 54). -/
def standbyBlocks (s : State) : State :=
  if s.dev = .standby then (List.range 256).foldl (fun s b => if s.blockOn b && !s.blockNeeded b then s.switchOff b else s) s
  else s

/-- The end of a frame's readout (R51, R153, R401): holds are judged; in STANDBY its blocks go off. -/
def endReadout (s : State) (f : Frame) : State :=
  let warn := f.img.fld Reg.EX_PIXCFG_HOLDWARN
  let long := warn != 0 && decide (warn * 1000000 < max f.holdA f.holdB)
  let s : State := if long then (s.set Reg.EX_PIXSTAT_HOLDLONG 1).bump Reg.EX_PIXSTAT_HOLDCNT else s
  let e := max (f.t + f.tEnd) f.lastConv
  let s := s.setFrame f.num fun f => { f with phase := 3 }
  let s : State := { s with
    rd := { s.rd with done := (f.t, e) }
    expo := { s.expo with lastEnd := if s.expo.num = f.num then max s.expo.lastEnd e else s.expo.lastEnd } }
  s.standbyBlocks.applyLevels.retireFrames

end State

/-- ROW_SLOT_START (R152, R173): the next row slot of the frame in readout opens; rows of failed or unready cells, and tap B
rows of tracked cells with both taps, are filled at it. In cell-rolling mode it is the STEER A of a row that has been released, and the
row's light loss is complete (R187, Table 4-8). -/
def execRowSlotStart (s : State) : Outcome State Fault Refusal :=
  match s.reading with
  | none => ok s
  | some f =>
    let i := f.slotsOpen
    match f.rowIds[i]? with
    | none => ok s
    | some r =>
      let held := shutter f.img == 3 && !r.ref && (List.range 8).any fun k => (f.cls[k]?).any fun c =>
        c.use && decide (State.rowsReleased f k ≤ i)
      if s.now < f.t + slotStart f.img f.strip f.gains f.div f.tRd i ∨ held then ok s
      else
        let s := s.setFrame f.num fun f => { f with slotsOpen := i + 1 }
        let s : State := if shutter f.img = 3 && !r.ref then
            let (s, g) := s.measureLoss f r.v (slotStart f.img f.strip f.gains f.div f.tRd i)
            s.setFrame f.num fun h => { h with loss := g.loss, maxLoss := g.maxLoss, clamped := g.clamped }
          else s
        ok ((rawVcs f.img).foldl (fun s v => (List.range 65536).foldl (fun s c =>
          if f.inVc v c then
            let cause := s.fillCause f c
            if cause ≠ 0 then s.fillUpTo f.num v c i cause
            else if shutter f.img = 1 ∧ r.tapB ∧ f.tracks c then s.fillUpTo f.num v c i 8
            else s
          else s) s) s)

/-- ROW_CONVERT_START (R149, R152, R166): cell `c` starts its next row: its slot is open, its converter is free of rows and
tracking reads, and its queue has room for the row's entries. -/
def execRowConvertStart (c : Nat) (s : State) : Outcome State Fault Refusal :=
  match s.reading with
  | none => ok s
  | some f =>
    let x := s.cellRt c
    let next := if x.frame = f.num then x.next else 0
    match f.rowIds[next]? with
    | none => ok s
    | some _ =>
      let bits := rawBits f.img
      let room := decide (s.queueBytes c bits + State.rowRoom bits (f.readGains c).length ≤ 512)
      ok (if c < 65536 ∧ f.inSet c ∧ s.fillCause f c = 0 ∧ next < f.slotsOpen ∧ x.conv.isNone ∧ x.trackNow.isNone ∧
          x.trackWait.isEmpty ∧ room then
        s.setCell c fun x => { x with conv := some (next, s.now), frame := f.num, next := next
                                      strip := if x.frame = f.num then x.strip else [] }
      else s)

/-- The delivered code of a 14-bit conversion (R145). -/
def deliveredCode (bits c : Nat) : Nat := if bits = 14 then min c 16383 else min 4095 ((c + 2) / 4)

/-- The strip of a cell is stuck: 128 samples of one code; 32 when charge-binned (R12, R53). -/
def stripStuck (n : Nat) (xs : List Nat) : Bool := xs.length == n && xs.all (· == xs.headD 0)

/-- A row of the reference strip of cell `c` joins its samples, and a strip that is stuck fails the cell (R148, Table 1-2):
its delivered codes are compared (log entry 78). -/
def State.stripTaken (s : State) (f : Frame) (c : Nat) (es : List Entry) : State :=
  let x := s.cellRt c
  let add (st : List (Bool × Bool × List Nat)) (e : Entry) : List (Bool × Bool × List Nat) :=
    let old := ((st.find? fun y => y.1 == e.tapB && y.2.1 == e.lcg).map (·.2.2)).getD []
    (e.tapB, e.lcg, old ++ e.codes) :: st.filter fun y => !(y.1 == e.tapB && y.2.1 == e.lcg)
  let strip := es.foldl add x.strip
  let s := s.setCell c fun x => { x with strip := strip }
  let full := if chgBin f.img then 32 else 128
  let bad := strip.any fun y => y.2.2.length == full && stripStuck full y.2.2
  if bad then s.cellFail c else s

/-- The instant of the last STEER A of cell `c` for row `i` of frame `f` (R51): that at the end of its exposure, or earlier, at the
start of a sub-exposure that runs then (R183, Table 6-1). -/
def Frame.steerA (f : Frame) (c i : Nat) : Nat :=
  let k := f.cellClass c
  let shift := if shutter f.img = 3 then slotStart f.img f.strip f.gains f.div f.tRd i else 0
  let e := k.start + k.dur + shift
  match f.subSteers.find? fun x => x.2.2.contains c && decide (k.start + shift ≤ x.1 ∧ x.1 < e ∧ e ≤ x.2.1) with
  | some x => x.1
  | none => e

/-- The hold of row `i` of cell `c` that ends now (R51). -/
def State.holdOf (s : State) (f : Frame) (c i : Nat) (tapB : Bool) : Nat :=
  let k := f.cellClass c
  s.now - (if tapB then (if shutter f.img = 1 then k.start + k.dur + k.durB else k.start + k.dur - k.a) else f.steerA c i)

/-- Entries join the queue of cell `c` (R166): one that was empty begins to wait. -/
def State.queueEntries (s : State) (c : Nat) (es : List Entry) : State :=
  s.setCell c fun x => { x with queue := x.queue ++ es, since := if x.queue.isEmpty then s.now else x.since }

/-- ROW_CONVERSION_DONE (R145, R146, R149, R166, R12): the row of cell `c` ends; `hcg` and `lcg` are its 14-bit results at the
gains its class reads. A row that a tracking read has interrupted does not end before it, and one that waited for the row takes the
converter now. The entries go to the cell queue, the
longest hold is kept, and a full strip is checked. -/
def execRowConversionDone (c : Nat) (hcg lcg : List Nat) (s : State) : Outcome State Fault Refusal :=
  match s.reading, (s.cellRt c).conv with
  | some f, some (i, t0) =>
    match f.rowIds[i]? with
    | none => ok s
    | some r =>
      let gs := f.readGains c
      let n := rowSites f.img
      if s.now < t0 + rConv f.img gs.length f.div ∨ (s.cellRt c).frame ≠ f.num ∨ (s.cellRt c).trackNow.isSome then ok s
      else
        let bits := rawBits f.img
        let mk (l : Bool) (xs : List Nat) : Entry :=
          let p := f.placeOf c i r.tapB l
          ⟨c, f.num, false, p.1, p.2, l, (List.range n).map fun j => deliveredCode bits (xs.getD j 0)⟩
        let es := gs.map fun l => mk l (if l then lcg else hcg)
        let s := (s.setCell c fun x => { x with
          conv := none, next := f.rowAfter c i
          trackNow := x.trackWait.head?.map fun j => (j, s.now), trackWait := x.trackWait.tail }).queueEntries c es
        let hold := s.holdOf f c i r.tapB
        let s := s.setFrame f.num fun f =>
          let f := { f with lastConv := max f.lastConv s.now }
          if r.tapB then { f with holdB := max f.holdB hold } else { f with holdA := max f.holdA hold }
        ok (if r.ref then s.stripTaken f c es else s)
  | _, _ => ok s

/-- The first element of an ascending list after `last`, wrapping round (R168, R169). -/
def nextAfter (xs : List Nat) (last : Option Nat) : Option Nat :=
  match last with
  | none => xs.head?
  | some l => (xs.find? fun x => decide (l < x)).orElse fun _ => xs.head?

/-- BLOCK_ARBITER_ENTRY (R168): block `b` moves its next entry: a tracking entry to the tracking engine first, else a
picture entry towards its region arbiter. -/
def execBlockArbiterEntry (b : Nat) (s : State) : Outcome State Fault Refusal :=
  let cells := (s.rd.cells.filter fun x => cellBlock x.cell == b && !x.queue.isEmpty)
  let locs (p : CellRt → Bool) : List Nat :=
    (List.range 256).filter fun l => cells.any fun x => cellLocal x.cell == l && p x
  let trk := locs fun x => x.queue.any (·.track)
  let lastOf (l : List (Nat × Nat)) : Option Nat := (l.find? (·.1 == b)).map (·.2)
  match nextAfter trk (lastOf s.rd.trackRr) with
  | some l =>
    let c := cellOf b l
    match (s.cellRt c).queue.find? (·.track) with
    | none => ok s
    | some e =>
      let s := s.setCell c fun x => { x with queue := x.queue.erase e, since := s.now }
      let s : State := { s with rd := { s.rd with trackRr := (b, l) :: s.rd.trackRr.filter (·.1 != b) } }
      let subs := s.trk.subs.map fun x => if x.id == e.frame then { x with data := (c, e.codes) :: x.data } else x
      ok ({ s with trk := { s.trk with subs := subs } }).standbyBlocks
  | none =>
    match nextAfter (locs fun _ => true) (lastOf s.rd.picRr) with
    | none => ok s
    | some l =>
      let c := cellOf b l
      match (s.cellRt c).queue with
      | [] => ok s
      | e :: rest =>
        let s := s.setCell c fun x => { x with queue := rest, since := s.now }
        let waits := s.rd.blockOut.any fun x => cellBlock x.cell == b
        ok { s with rd := { s.rd with
          picRr := (b, l) :: s.rd.picRr.filter (·.1 != b), blockOut := s.rd.blockOut ++ [e]
          blockSince := if waits then s.rd.blockSince else (b, s.now) :: s.rd.blockSince.filter (·.1 != b) } }

/-- READOUT_END (R153): t_end has passed since the transfer and every row of the frame's working cells is converted. -/
def execReadoutEnd (s : State) : Outcome State Fault Refusal :=
  match s.reading with
  | none => ok s
  | some f =>
    let rows := f.rowIds.length
    let owes := (List.range 65536).any fun c => f.inSet c && s.fillCause f c == 0 &&
      ((s.cellRt c).frame != f.num || (s.cellRt c).next != rows || (s.cellRt c).conv.isSome)
    ok (if f.t + f.tEnd ≤ s.now ∧ f.slotsOpen = rows ∧ !owes then s.endReadout f else s)

/-- The arbiter timeouts of Table 1-2 in region `r`: 20 µs × d (R150, R391). -/
def State.arbiterTime (s : State) (r : Nat) : Nat := 5000 * s.regionDiv4 r

/-- BLOCK_ARBITER_TIMEOUT (R12, R150): a non-empty cell queue of block `b` has not been served for 4,000 CLK_SEQ cycles. -/
def execBlockArbiterTimeout (b : Nat) (s : State) : Outcome State Fault Refusal :=
  let overdue := s.rd.cells.any fun x =>
    cellBlock x.cell == b && !x.queue.isEmpty && decide (x.since + s.arbiterTime (blockRegion b) ≤ s.now)
  ok (if b < 256 ∧ s.running ∧ overdue then s.blockFail b else s)

/-- REGION_ARBITER_TIMEOUT (R12, R150): a block of region `r` that holds data has not been served for 20,000 cycles of the
region pipeline. -/
def execRegionArbiterTimeout (r : Nat) (s : State) : Outcome State Fault Refusal :=
  let since (b : Nat) : Nat := ((s.rd.blockSince.find? (·.1 == b)).map (·.2)).getD s.now
  let overdue := s.rd.blockOut.any fun e =>
    blockRegion (cellBlock e.cell) == r && decide (since (cellBlock e.cell) + s.arbiterTime r ≤ s.now)
  ok (if r < 16 ∧ s.running ∧ overdue then s.regionFail r else s)

/-- BLOCK_READY (R164, R464): 1,000 µs at most after it was switched on, block `b` has its trims again. Its cell words have
been read once more, `ws` of them otherwise than before (log entry 21), and each is compared with its boot result. -/
def execBlockReady (b : Nat) (ws : List (Nat × Nat × Nat)) (s : State) : Outcome State Fault Refusal :=
  ok (if b < 256 ∧ s.running ∧ s.blockOn b ∧ !s.flag Reg.BLK_STAT_READY b then
    let mine := ws.filter fun w => decide (cellKey b 0 ≤ w.1 ∧ w.1 < cellKey b 256)
    let s := s.drift mine
    let s : State := (List.range 256).foldl (fun s l => s.checkDrift (cellKey b l)) s
    ({ s with rd := { s.rd with onAt := s.rd.onAt.filter (·.1 != b) } }).set Reg.BLK_STAT_READY 1 b
  else s)

end Sys2Proof.Machine
end

