-- ==== Sys2Proof/Machine/Stage1.lean ====
section
/-! DEFINITION. Stage 1: the steps of Table 7-1 on a row entry, black levels, defects, lens shading, merges and packing, the
statistics, the local exposure loop and the dark-reference capture (07_stage1_corrections_and_statistics.md R204 to R232;
04_exposure.md R118 to R123, R141 to R143). Sample values are held in 1/16 of a 14-bit code (R206). -/
namespace Sys2Proof.Machine

open Host (Outcome)

/-! ## Arithmetic -/

/-- Saturated to the range of S16.4 (R206). -/
def sat16 (x : Int) : Int := clampI (-524288) 524287 x

/-- A converter code as it enters stage 1 (R206). -/
def codeIn (bits k : Nat) : Int := if bits = 14 then 16 * k else 64 * k

/-- `x` put into an ascending list. -/
def insertSorted (x : Int) : List Int → List Int
  | [] => [x]
  | y :: ys => if x ≤ y then x :: y :: ys else y :: insertSorted x ys

/-- A list in ascending order. -/
def sortInts : List Int → List Int
  | [] => []
  | x :: xs => insertSorted x (sortInts xs)

/-- Twice the median; the mean of the two middle ones for an even count (R209, R216). -/
def median2 (xs : List Int) : Int :=
  let ys := sortInts xs
  ys.getD ((ys.length - 1) / 2) 0 + ys.getD (ys.length / 2) 0

/-- Step 1 (R208) (log entry 47). -/
def trimSample (ofs tg : Int) (x : Int) : Int := sat16 (roundDiv ((x - 16 * ofs) * (4096 + tg)) 4096)

/-- Columns, or rows, of the pixels of a sample (R53). -/
def samplePx (chg : Bool) (u : Nat) : List Nat :=
  if chg then [4 * (u / 2) + u % 2, 4 * (u / 2) + u % 2 + 2] else [u]

/-! ## Defects (R214 to R216) -/

/-- Step 3 on a row: `cur` before correction and `above` the row v − d after it, each with its listed sites. `stat` and `dyn`
are the enables, `hi` and `lo` the margins. The counts are the listed sites left uncorrected and the dynamic
replacements. -/
def fixRow (d : Nat) (stat dyn : Bool) (hi lo : Int) (cur : List Int) (curL : List Nat) (above : List Int)
    (aboveL : List Nat) : List Int × Nat × Nat :=
  let pick (row : List Int) (l : List Nat) (u : Nat) : List Int :=
    if l.contains u then [] else match row[u]? with
      | some x => [x]
      | none => []
  let left (row : List Int) (l : List Nat) (u : Nat) : List Int := if u < d then [] else pick row l (u - d)
  let one (u : Nat) (x : Int) : Int × Nat × Nat :=
    let ns := left cur curL u ++ pick cur curL (u + d) ++ left above aboveL u ++ pick above aboveL u ++
      pick above aboveL (u + d)
    if curL.contains u then
      if !stat then (x, 0, 0)
      else if ns.isEmpty then (x, 1, 0)
      else (sat16 (roundDiv ns.sum ns.length), 0, 0)
    else if dyn && decide (2 ≤ ns.length) then
      let ys := sortInts ns
      if ys.getLast?.getD x + hi < x ∨ x < ys.headD x - lo then (sat16 (roundDiv (median2 ns) 2), 0, 1) else (x, 0, 0)
    else (x, 0, 0)
  let rs := (List.range cur.length).map fun u => one u (cur.getD u 0)
  (rs.map (·.1), (rs.map (·.2.1)).sum, (rs.map (·.2.2)).sum)

/-! ## Lens shading (R217 to R220) -/

/-- The point at or below `q` among breakpoints, with the weight of the next one as a fraction (R218). -/
def lensPick (pts : List Nat) (q : Nat) : Nat × Nat × Nat :=
  let q := clampN (pts.headD 0) (pts.getLast?.getD 0) q
  let i := ((List.range pts.length).filter fun k => decide (pts.getD k 0 ≤ q)).getLast?.getD 0
  if i + 1 < pts.length then (i, q - pts.getD i 0, pts.getD (i + 1) 0 - pts.getD i 0) else (i, 0, 1)

/-- Strictly increasing. -/
def increasing : List Nat → Bool
  | x :: y :: rest => decide (x < y) && increasing (y :: rest)
  | _ => true

/-- Zoom and focus breakpoints in use. -/
def zoomPts (img : RegFile) : List Nat :=
  [img.fld Reg.S1_LSZA_PLO, img.fld Reg.S1_LSZA_PHI, img.fld Reg.S1_LSZB_PLO, img.fld Reg.S1_LSZB_PHI].take
    (img.fld Reg.S1_LSCFG_NZM1 + 1)

/-- Focus breakpoints in use. -/
def focusPts (img : RegFile) : List Nat :=
  [img.fld Reg.S1_LSFA_PLO, img.fld Reg.S1_LSFA_PHI, img.fld Reg.S1_LSFB_PLO, img.fld Reg.S1_LSFB_PHI].take
    (img.fld Reg.S1_LSCFG_NFM1 + 1)

/-- The grids of a frame with their weights, the sum of the weights, and whether the breakpoints are in order (R218,
R219). -/
def Frame.grids (f : Frame) : List (Nat × Nat) × Nat × Bool :=
  if f.img.flag Reg.S1_LSCFG_FIXED then ([(f.img.fld Reg.S1_LSCFG_FIXIDX, 1)], 1, true)
  else
    let zs := zoomPts f.img
    let fs := focusPts f.img
    if !increasing zs || !increasing fs then ([(0, 1)], 1, false)
    else
      let (zi, zn, zd) := lensPick zs f.lzoom
      let (fi, fn, fd) := lensPick fs f.lfocus
      (([(4 * fi + zi, (zd - zn) * (fd - fn)), (4 * fi + zi + 1, zn * (fd - fn)), (4 * fi + 4 + zi, (zd - zn) * fn),
        (4 * fi + 5 + zi, zn * fn)]).filter (·.2 != 0), zd * fd, true)

/-- Colour plane of a pixel: R, Gr, Gb, B, or one on the ZA268-M. -/
def planeOf (mono : Bool) (x y : Nat) : Nat := if mono then 0 else x % 2 + 2 * (y % 2)

namespace State

/-- The gain of node (i, j) of grid `g` (R217, R228): unity where the grid is missing or the word cannot be read. -/
def nodeGain (s : State) (g plane i j : Nat) : Nat :=
  if s.rd.badNodes.contains (g, 65 * j + i) then 16384
  else match s.rd.grids.find? (·.1 == g) with
    | none => 16384
    | some (_, nodes) => nodes.getD ((65 * j + i) * (if s.mono then 1 else 4) + plane) 16384

/-- The lens-shading gain of a pixel in U2.14 (R218, R220). -/
def shadeGain (s : State) (gs : List (Nat × Nat)) (den x y : Nat) : Int :=
  let p := planeOf s.mono x y
  let node (i j : Nat) : Int := roundDiv ((gs.map fun g => g.2 * s.nodeGain g.1 p i j).sum : Nat) den
  let i := x / 256
  let j := y / 256
  let fx : Int := (x % 256 : Nat)
  let fy : Int := (y % 256 : Nat)
  roundDiv ((256 - fx) * (256 - fy) * node i j + fx * (256 - fy) * node (i + 1) j + (256 - fx) * fy * node i (j + 1) +
    fx * fy * node (i + 1) (j + 1)) 65536

/-- LSERR for a frame (R217, R219): breakpoints out of order, or a required grid missing. -/
def lensErr (s : State) (f : Frame) : Bool :=
  let has (g : Nat) : Bool := s.rd.grids.any (·.1 == g)
  if f.img.flag Reg.S1_LSCFG_FIXED then !has (f.img.fld Reg.S1_LSCFG_FIXIDX)
  else !f.grids.2.2 || (List.range (f.img.fld Reg.S1_LSCFG_NFM1 + 1)).any fun fi =>
    (List.range (f.img.fld Reg.S1_LSCFG_NZM1 + 1)).any fun zi => !has (4 * fi + zi)

/-- The listed sites of a sample row `v` of cell `c` for a tap (R213, R214, R228) (log entry 38). -/
def listedSites (s : State) (f : Frame) (c v : Nat) (tapB : Bool) : List Nat :=
  let chg := chgBin f.img
  let ys := (samplePx chg v).map (64 * cellY c + ·)
  let hits := s.rd.defects.zipIdx.filter fun e =>
    ys.contains e.1.2.1 && e.1.1 / 64 == cellX c && !s.rd.badDefects.contains e.2 &&
      (e.1.2.2 == 0 || e.1.2.2 == (if tapB then 2 else 1))
  (List.range (rowSites f.img)).filter fun u =>
    (samplePx chg u).any fun x => hits.any fun e => e.1.1 == 64 * cellX c + x

/-- The black level in use for a row (R210). -/
def blackOf (s : State) (c : Nat) (tapB lcg bin : Bool) : Option Int :=
  (s.rd.blacks.find? fun b => b.cell == c && b.tapB == tapB && b.lcg == lcg && b.bin == bin).map (·.level)

/-- The dark-table entry of a cell (R211, R212). -/
def darkOf (f : Frame) (c : Nat) (lcg : Bool) : Int :=
  match f.darkTab with
  | none => 0
  | some d =>
    match d.diff.find? fun e => e.1 == c && e.2.1 == lcg with
    | none => 0
    | some (_, _, x) =>
      if f.img.flag Reg.S1_CFG_DARKSCALE then
        let k := match d.ovr with
          | some k => k
          | none => mapClass d.map c
        let was := d.durs.getD k 0
        if was = 0 then x else roundDiv (x * (f.cellClass c).dur) was
      else x

/-- Step 2 on the samples of a row (R211), and whether DEFBL was used. -/
def blackStep (s : State) (f : Frame) (c : Nat) (tapB lcg : Bool) (xs : List Int) : List Int × Bool :=
  if !f.img.flag Reg.S1_CFG_BLEN then (xs, false)
  else
    let known := s.blackOf c tapB lcg (chgBin f.img)
    let bl := known.getD (16 * f.img.fld Reg.S1_BLCFG_DEFBL)
    let d := if f.img.flag Reg.S1_CFG_DARKEN && !tapB then darkOf f c lcg else 0
    (xs.map fun x => sat16 (x - bl - d + 16 * f.img.fld Reg.S1_BLCFG_PED), known.isNone)

/-- Step 4 on the samples of a row (R220). -/
def shadeStep (s : State) (f : Frame) (c v : Nat) (xs : List Int) : List Int :=
  if !f.img.flag Reg.S1_CFG_LSCEN then xs
  else
    let (gs, den, _) := f.grids
    let ped : Int := 16 * f.img.fld Reg.S1_BLCFG_PED
    let chg := chgBin f.img
    let y := 64 * cellY c + (samplePx chg v).headD 0
    xs.zipIdx.map fun e =>
      let x := 64 * cellX c + (samplePx chg e.2).headD 0
      sat16 (roundDiv (16384 * ped + (e.1 - ped) * s.shadeGain gs den x y) 16384)

/-- Step 5 on the samples of a row: the gain of R186 for tap A of a tracked cell (R221). -/
def lossStep (f : Frame) (c v : Nat) (tapB : Bool) (xs : List Int) : List Int :=
  if tapB then xs
  else match f.loss.find? fun e => e.1 == c && e.2.1 == (if shutter f.img = 3 then v else 0) with
    | none => xs
    | some (_, _, _, g) =>
      let ped : Int := 16 * f.img.fld Reg.S1_BLCFG_PED
      xs.map fun x => sat16 (roundDiv (4096 * ped + (x - ped) * g) 4096)

end State

/-- The row record of a cell at a position in reading order and gain. -/
def Frame.rowAt (f : Frame) (c i : Nat) (lcg : Bool) : Option S1Row :=
  f.s1.find? fun x => x.cell == c && x.row == i && x.lcg == lcg

/-- The tap that an entry's charge comes from: tap A in the HDR fallback (Table 4-3). -/
def Frame.sourceB (f : Frame) (c : Nat) (tapB : Bool) : Bool := tapB && !f.fallback c

namespace State

/-- A row joins stage 1 with `n` newly found dynamic defects (R215). -/
def addRow (s : State) (num : Nat) (x : S1Row) (n : Nat) : State :=
  s.setFrame num fun (g : Frame) => { g with s1 := g.s1 ++ [x], dynCnt := g.dynCnt + n }

/-- The codes of an entry after step 1 (R206). -/
def step1 (s : State) (f : Frame) (e : Entry) : List Int :=
  let t := s.cellTrim (cellBlock e.cell) (cellLocal e.cell)
  let bits := rawBits f.img
  e.codes.map fun k => if f.img.flag Reg.S1_CFG_TRIMEN then trimSample t.1 t.2 (codeIn bits k) else codeIn bits k

/-- A picture row through steps 1 to 5 (R206 to R221, R229): the row, the sites left uncorrected, the dynamic defects and
whether the black level was a default. -/
def stepValues (s : State) (f : Frame) (e : Entry) (r : RowId) : S1Row × Nat × Nat × Bool :=
  let c := e.cell
  let b := f.sourceB c e.tapB
  let xs1 := s.step1 f e
  let (xs2, bldef) := s.blackStep f c b e.lcg xs1
  let d := if s.mono then 1 else 2
  let above : Option S1Row := if r.v < d then none else
    match f.rowIds.findIdx? fun q => q.v == r.v - d && q.tapB == r.tapB && !q.ref with
    | some i => f.rowAt c i e.lcg
    | none => none
  let aboveVals := match above with
    | some x => x.after3
    | none => []
  let aboveL := if aboveVals.isEmpty then [] else s.listedSites f c (r.v - d) b
  let (xs3, unc, dyn) := fixRow d (f.img.flag Reg.S1_CFG_DEFSEN) (f.img.flag Reg.S1_CFG_DEFDEN)
    (16 * f.img.fld Reg.S1_DEFCFG_DHI) (16 * f.img.fld Reg.S1_DEFCFG_DLO) xs2 (s.listedSites f c r.v b) aboveVals aboveL
  let xs5 := lossStep f c r.v b (s.shadeStep f c r.v xs3)
  let full := if rawBits f.img = 14 then 16383 else 4095
  (⟨c, e.row, e.tapB, e.lcg, xs1.sum, xs3, xs5, (e.codes.filter (· == full)).length, 0⟩, unc, dyn, bldef)

/-- A row entry through steps 1 to 5. An entry whose row was lost (R167) has no values; a reference row ends after step 1 (log entry 37). -/
def stepRow (s : State) (f : Frame) (e : Entry) (r : RowId) : State :=
  if e.codes.isEmpty then s.addRow f.num ⟨e.cell, e.row, e.tapB, e.lcg, 0, [], [], 0, 4⟩ 0
  else if r.ref then s.addRow f.num ⟨e.cell, e.row, e.tapB, e.lcg, 0, [], s.step1 f e, 0, 0⟩ 0
  else
    let p := s.stepValues f e r
    let s1 : State := if p.2.1 = 0 then s else s.bump Reg.S1_CNT_UNCORR p.2.1
    let s1 : State := if p.2.2.2 then
        (s1.set Reg.S1_STAT_BLDEF 1).setFrame f.num fun (g : Frame) => g.flagCell e.cell fun x => { x with blDef := true }
      else s1
    let s1 : State := if f.img.flag Reg.S1_CFG_LSCEN && s1.lensErr f then s1.set Reg.S1_STAT_LSERR 1 else s1
    s1.addRow f.num p.1 p.2.2.1

/-- The strip of a cell is complete (R209, R12, R458): the black level it gives, judged and kept. -/
def stripDone (s : State) (num : Nat) (e : Entry) : State :=
  match s.frame num with
  | none => s
  | some f =>
    let c := e.cell
    let ids := f.rowIds
    let refs := (List.range ids.length).filter fun i => match ids[i]? with
      | some r => r.ref && r.tapB == e.tapB
      | none => false
    let rows := refs.filterMap fun i => f.rowAt c i e.lcg
    if refs.getLast? ≠ some e.row ∨ rows.length ≠ refs.length ∨ rows.any (·.after5.isEmpty) then s
    else
      let xs := rows.flatMap (·.after5)
      let m2 := median2 xs
      let rej : Int := 32 * f.img.fld Reg.S1_BLCFG_BLREJ
      let kept := xs.filter fun x => decide ((2 * x - m2).natAbs ≤ rej.natAbs)
      if 2 * kept.length < xs.length then
        (s.set Reg.S1_STAT_BLKEEP 1).setFrame num fun (g : Frame) => g.flagCell c fun x => { x with blKeep := true }
      else
        let level := roundDiv kept.sum kept.length
        if s.stripBad (cellBlock c) (cellLocal c) level then s.cellFail c
        else
          let b : Black := ⟨c, f.sourceB c e.tapB, e.lcg, chgBin f.img, num, level⟩
          { s with rd := { s.rd with blacks := b :: s.rd.blacks.filter fun x =>
            !(x.cell == c && x.tapB == b.tapB && x.lcg == b.lcg && x.bin == b.bin) } }

end State

/-! ## Binning, merging and packing (R222 to R226) -/

/-- Sources of an output row of cell `c` as (tap position, LCG): one, or the pair A, B of Table 7-4.
With merged output of two taps read at both gains the pair is that of the HCG taps (log entry 37). -/
def Frame.sources (f : Frame) (c : Nat) (k : OutKey) : List (Bool × Bool) :=
  if k.gain < 2 then [(k.tapB, k.gain == 1)]
  else if f.hdrout then
    if f.fallback c then [(false, false), (true, true)]
    else
      let l := (f.cellClass c).gain == 1 || k.gain == 3
      [(false, l), (true, l)]
  else [(k.tapB, false), (k.tapB, true)]

/-- Positions in reading order of the rows that an output row combines on one tap (R162, R222); a reference row stands alone
(log entry 37). -/
def Frame.feeds (f : Frame) (mono : Bool) (d : Nat) (k : OutKey) (tapB : Bool) : List Nat :=
  let ids := f.rowIds
  let ref := decide ((if chgBin f.img then 32 else 64) ≤ k.row)
  (List.range ids.length).filter fun i => match ids[i]? with
    | some r => r.tapB == tapB && r.ref == ref && (if ref then r.v == k.row else outRowOf mono d r.v == k.row)
    | none => false

/-- Step 6 (R222): rows of one tap and gain binned by code `d`. -/
def binRows (mono : Bool) (d n : Nat) (rows : List (List Int)) : List Int :=
  (List.range (n / 2 ^ d)).map fun x =>
    let us := (List.range n).filter fun u => outRowOf mono d u == x
    let vs := rows.flatMap fun r => us.map fun u => r.getD u 0
    sat16 (roundDiv vs.sum vs.length)

/-- The merged code of R223: A and B after step 6 in 1/16 codes, the ratio, the knees in codes above PED (log entry 38). -/
def mergeCode (a b : Int) (ped klo khi sh pedm : Nat) (rho : Rat) : Nat :=
  let a : Rat := ((max 0 (a - 16 * ped) : Int) : Rat) / 16
  let b : Rat := ((max 0 (b - 16 * ped) : Int) : Rat) / 16
  let klo := min klo khi
  let y : Rat := if a ≤ klo then a
    else if khi ≤ a then rho * b
    else
      let w := (a - klo) / ((khi - klo : Nat) : Rat)
      (1 - w) * a + w * rho * b
  min 65535 ((y / (2 ^ sh : Nat) + 1 / 2).floor.toNat + pedm)

/-- An unmerged packed code (R224). -/
def packCode (bits : Nat) (x : Int) : Nat :=
  if bits = 14 then (clampI 0 16383 (roundDiv x 16)).toNat else (clampI 0 4095 (roundDiv x 64)).toNat

namespace State

/-- The output row of key `k` once every source of it has gone through stage 1: the fill cause of a lost source row, or 0 with
its codes (log entry 39). -/
def makeRow (s : State) (f : Frame) (c d : Nat) (k : OutKey) : Option (Nat × List Nat) :=
  let n := rowSites f.img
  let parts := (f.sources c k).map fun x => (f.feeds s.mono d k x.1).map fun i => f.rowAt c i x.2
  if parts.any fun p => p.isEmpty || p.any (·.isNone) then none
  else
    let lost := (parts.flatMap fun p => (p.filterMap id).map (·.lost)).find? (· != 0)
    let rows := parts.map fun p => (p.filterMap id).map (·.after5)
    match lost with
    | some cause => some (cause, [])
    | none =>
      let out := rows.map (binRows s.mono d n)
      some (0, match out with
        | [a, b] =>
          let cls := f.cellClass c
          let q := (hdrShape f.img).1
          let tap := f.hdrout && !f.fallback c
          let rho : Rat := if tap then (((q + 1) * cls.a : Nat) : Rat) / ((max 1 (q * cls.b) : Nat) : Rat)
            else ((s.get Reg.S1_GAINRATIO_RATIO : Nat) : Rat) / 4096
          let (klo, khi) := if tap then (f.img.fld Reg.S1_MGTAP_KLO, f.img.fld Reg.S1_MGTAP_KHI)
            else (f.img.fld Reg.S1_MGDCG_KLO, f.img.fld Reg.S1_MGDCG_KHI)
          let sh := f.mergeShift (s.get Reg.S1_GAINRATIO_RATIO)
          a.zipWith (fun x y => mergeCode x y (f.img.fld Reg.S1_BLCFG_PED) klo khi sh (f.img.fld Reg.S1_MGSH_PEDM) rho) b
        | [a] => a.map (packCode (rawBits f.img))
        | _ => [])

/-- One output row of cell `c` on VC `v` leaves stage 1, if its sources are there. -/
def emitNext (s : State) (num v c : Nat) : State :=
  match s.frame num with
  | none => s
  | some f =>
    let d := cellDbin f.img f.theta v c
    match ((f.owed s.mono v c).drop (f.outDone v c)).head? with
    | none => s
    | some k =>
      match s.makeRow f c d k with
      | none => s
      | some (0, codes) => s.pushOut num ⟨v, c, k.row, k.tapB, k.gain, sprOf f.img d, 0, codes⟩
      | some (cause, _) => s.pushOut num (fillRow f v c k cause)

/-- Every output row that a cell's last row completes leaves, in reading order, on each of its VCs (R160, R171). -/
def emitRows (s : State) (num c : Nat) : State :=
  match s.frame num with
  | none => s
  | some f => (rawVcs f.img).foldl (fun s v =>
      if f.inVc v c then ((f.owed s.mono v c).drop (f.outDone v c)).foldl (fun s _ => s.emitNext num v c) s else s) s

/-- A row entry taken through stage 1 (R204 to R227). -/
def stage1 (s : State) (e : Entry) : State :=
  match s.frame e.frame with
  | none => s
  | some f =>
    match f.rowIds[e.row]? with
    | none => s
    | some r =>
      let s := (s.stepRow f e r).emitRows f.num e.cell
      if r.ref then s.stripDone f.num e else s

end State

/-- Share of the merged-HDR use that the read-back of an entry takes, in ns: its bytes at the admitted cost, a frame's taps four
times over (R241, R247). -/
def State.readBackShare (s : State) (e : Entry) : Rat :=
  match s.frame e.frame with
  | none => 0
  | some f =>
    let (_, _, tap) := State.streamSize f.img f.theta s.mono true (fun c => gainCount (f.cellClass c).gain) (f.img.fld Reg.CS_CFG_RVC)
    (State.entryBytes (rawBits f.img) e : Nat) * s.interval / (max 1 (4 * tap) : Nat)

/-- The part with entry `e` of region `r` taken from the blocks: a block that still holds data waits from now on (Table 1-2), and a
merged-HDR read-back is counted to its use (R247). -/
def State.takeEntry (s : State) (r l : Nat) (e : Entry) : State :=
  let out := s.rd.blockOut.erase e
  let b := cellBlock e.cell
  let since := s.rd.blockSince.filter (·.1 != b)
  let t : State := if s.readsBack e then s.tookShare 0 (s.readBackShare e) else s
  { t with rd := { s.rd with
    blockOut := out, rgnRr := (r, l) :: s.rd.rgnRr.filter (·.1 != r)
    blockSince := if out.any fun x => cellBlock x.cell == b then (b, s.now) :: since else since } }

/-- S1_ENTRY_OUT (R169, R205): the region arbiter of region `r` takes its next entry, and it leaves its lane corrected. An entry
that needs a tap A row from the cistern waits for that read to be served (R154, R247). -/
def execS1EntryOut (r : Nat) (s : State) : Outcome State Fault Refusal :=
  let mine := s.rd.blockOut.filter fun e => blockRegion (cellBlock e.cell) == r && (!s.readsBack e || s.serves 0)
  let local' (b : Nat) : Nat := 4 * (b / 16 % 4) + b % 4
  let have' := (List.range 16).filter fun l => mine.any fun e => local' (cellBlock e.cell) == l
  match nextAfter have' ((s.rd.rgnRr.find? (·.1 == r)).map (·.2)) with
  | none => ok s
  | some l =>
    match mine.find? fun e => local' (cellBlock e.cell) == l with
    | none => ok s
    | some e => ok ((s.takeEntry r l e).stage1 e).standbyBlocks

/-- LINE_MEMORY_ERROR (R228): `kind` 0 a corrected error, 1 an uncorrectable one in a line memory of region `x`, 2 in the
shading memory at node `y` of grid `x`, 3 in the defect memory at entry `x` (log entry 39). -/
def execLineMemoryError (kind x y : Nat) (s : State) : Outcome State Fault Refusal :=
  match kind with
  | 0 => ok (s.bump Reg.S1_CNT_MEMCOR)
  | 1 => ok (if x < 16 then s.regionFail x else s)
  | 2 => ok (({ s with rd := { s.rd with badNodes := (x, y) :: s.rd.badNodes } }).set Reg.S1_STAT_MEMUNC 1)
  | 3 => ok (({ s with rd := { s.rd with badDefects := x :: s.rd.badDefects } }).set Reg.S1_STAT_MEMUNC 1)
  | _ => ok s

/-! ## Statistics (R229 to R232) -/

/-- The statistics samples of cell `c` in frame `f`: sample row, values in 1/64 of a 12-bit code, clipped pixels (R229). -/
def Frame.statRows (f : Frame) (c : Nat) : List (Nat × List Nat × Nat × Int) :=
  let ids := f.rowIds
  let lcg := (f.cellClass c).gain != 0 || f.fallback c
  let ped : Int := 16 * f.img.fld Reg.S1_BLCFG_PED
  (f.s1.filter fun x => x.cell == c && x.lcg == lcg && !f.sourceB c x.tapB && !x.after3.isEmpty).filterMap fun x =>
    match ids[x.row]? with
    | some r => if r.ref then none else some (r.v, x.after5.map (fun y => (max 0 (y - ped)).toNat), x.clip, x.sum1)
    | none => none

/-- `x / d` rounded to nearest, halves up (log entry 37). -/
def roundNat (x d : Nat) : Nat := (2 * x + d) / (2 * d)

/-- The focus metric of R230 on the rows of a cell. -/
def focusOf (d : Nat) (rows : List (Nat × List Nat × Nat × Int)) : Nat :=
  let sq (a b : Nat) : Nat := (a - b + (b - a)) * (a - b + (b - a))
  let row (r : Nat × List Nat × Nat × Int) : Nat :=
    let xs := r.2.1
    let hor := ((xs.drop d).zipWith sq xs).sum
    let ver := if r.1 < d then 0 else match rows.find? fun q => q.1 == r.1 - d with
      | some q => (xs.zipWith sq q.2.1).sum
      | none => 0
    hor + ver
  min 0xFFFFFFFF (roundNat ((rows.map row).sum) (4096 * 16))

/-- The 16-byte sub-header of Table 7-5. -/
def statHeader (f : Frame) (kind plane count first : Nat) : List Byte :=
  leBytes 1 kind ++ leBytes 1 plane ++ leBytes 2 count ++ leBytes 4 f.num ++ leBytes 2 f.gen ++ leBytes 2 first ++
    leBytes 4 0

/-- A list cut into parts of `n`. -/
def chunks {α : Type} (n : Nat) : Nat → List α → List (List α)
  | 0, _ => []
  | fuel + 1, xs => if xs.isEmpty then [] else xs.take n :: chunks n fuel (xs.drop n)

/-- Mean of a cell in U12.4 (R230), none without a sample. -/
def meanOf (rows : List (Nat × List Nat × Nat × Int)) : Option Nat :=
  let n := (rows.map fun r => r.2.1.length).sum
  if n = 0 then none else some (roundNat ((rows.map fun r => r.2.1.sum).sum) (4 * n))

namespace State

/-- Cell records (Table 7-6, kind 0x01). The mean and the maximum of a cell without a sample are free values: the spec gives
none (log entry 2). The maximum and the focus metric are rounded to nearest (log entry 37). -/
def cellRecord (s : State) (f : Frame) (c i : Nat) : List Byte :=
  let rows := if s.unitFailed c then [] else f.statRows c
  let d := if s.mono then 1 else 2
  let fl := (f.cflags.find? (·.cell == c)).getD ⟨c, false, false, false⟩
  let b (x : Bool) (k : Nat) : Nat := if x then 2 ^ k else 0
  let part := fl.partlyLost || !hasBit f.ready (cellBlock c)
  let (mean, top) : List Byte × List Byte := match meanOf rows with
    | some m => (leBytes 2 (min 65535 m), leBytes 2 (roundNat ((rows.map fun r => r.2.1.foldl max 0).foldl max 0) 64))
    | none => ([Config.freeByte (s.free + 4 * i), Config.freeByte (s.free + 4 * i + 1)],
        [Config.freeByte (s.free + 4 * i + 2), Config.freeByte (s.free + 4 * i + 3)])
  leBytes 2 c ++ mean ++ top ++ leBytes 2 ((rows.map (·.2.2.1)).sum) ++ leBytes 4 (focusOf d rows) ++
    leBytes 1 (b (s.unitFailed c) 0 + b part 1 + b (f.tracks c) 2 + b fl.blDef 3 + b fl.blKeep 4) ++
    leBytes 1 (f.clsOf c) ++ leBytes 2 0

/-- A counter list with bin `i` raised. -/
def hit (bins : List Nat) (i : Nat) : List Nat := listModify bins i (· + 1)

/-- Sent on S1_STCFG.VC as data type 0x40 (R232). -/
def sendStat (s : State) (f : Frame) (payload : List Byte) : State :=
  s.sendPlain (f.img.fld Reg.S1_STCFG_VC) 0x40 f.num payload

/-- The white-balance zone sums over the quads of the cells of a zone (R230): counted quads and sums R, G, B in 1/64 of a
12-bit code (log entry 39). -/
def zoneSums (s : State) (f : Frame) (cells : List Nat) : Nat × Nat × Nat × Nat :=
  let lo := 64 * f.img.fld Reg.S1_WB_WBMIN
  let hi := 64 * f.img.fld Reg.S1_WB_WBMAX
  let inside (x : Nat) : Bool := decide (lo ≤ x ∧ x ≤ hi)
  cells.foldl (fun acc c =>
    let rows := if s.unitFailed c then [] else f.statRows c
    rows.foldl (fun (acc : Nat × Nat × Nat × Nat) r =>
      if r.1 % 2 = 1 then acc
      else match rows.find? fun q => q.1 == r.1 + 1 with
        | none => acc
        | some q => (List.range (r.2.1.length / 2)).foldl (fun (acc : Nat × Nat × Nat × Nat) i =>
            let a := r.2.1.getD (2 * i) 0
            let g := r.2.1.getD (2 * i + 1) 0
            let h := q.2.1.getD (2 * i) 0
            let b := q.2.1.getD (2 * i + 1) 0
            if inside a && inside g && inside h && inside b then
              if s.mono then (acc.1 + 1, 0, acc.2.2.1 + a + g + h + b, 0)
              else (acc.1 + 1, acc.2.1 + a, acc.2.2.1 + g + h, acc.2.2.2 + b)
            else acc) acc) acc) (0, 0, 0, 0)

/-- The statistics of a frame sent, kinds 0x01 to 0x04 in order (R232) (log entry 37). -/
def sendStats (s : State) (f : Frame) : State :=
  let cells := (List.range 65536).filter f.inSet
  let recs := cells.zipIdx.map fun x => s.cellRecord f x.1 x.2
  let s : State := { s with free := s.free + 4 * cells.length }
  let s : State := if f.img.flag Reg.S1_STCFG_CELLEN then
      (chunks 255 258 recs).foldl (fun s part => s.sendStat f (statHeader f 1 0 part.length 0 ++ part.flatten)) s
    else s
  let vals (c : Nat) : List (Nat × List Nat × Nat × Int) := if s.unitFailed c then [] else f.statRows c
  let s : State := if f.img.flag Reg.S1_STCFG_BHEN then
      (List.range 256).foldl (fun s b =>
        let mine := cells.filter fun c => cellBlock c == b
        if mine.isEmpty then s
        else
          let bins := (mine.flatMap vals).foldl (fun h r => r.2.1.foldl (fun h x => hit h (min 255 (x / 1024))) h)
            (List.replicate 256 0)
          s.sendStat f (statHeader f 2 0 256 b ++ bins.flatMap (leBytes 4))) s
    else s
  let s : State := if f.img.flag Reg.S1_STCFG_WBEN then
      let zoneOf (c : Nat) : Nat := 64 * (cellY c / 4) + cellX c / 4
      let zones := (List.range 4096).filter fun z => cells.any fun c => zoneOf c == z
      let recs := zones.map fun z =>
        let (n, r, g, b) := s.zoneSums f (cells.filter fun c => zoneOf c == z)
        leBytes 2 z ++ leBytes 2 n ++ leBytes 4 (roundNat r 64) ++ leBytes 4 (roundNat g 64) ++ leBytes 4 (roundNat b 64)
      (chunks 255 17 recs).foldl (fun s part => s.sendStat f (statHeader f 3 0 part.length 0 ++ part.flatten)) s
    else s
  if f.img.flag Reg.S1_STCFG_FRMEN then
    (List.range (if s.mono then 1 else 4)).foldl (fun s p =>
      let bins := cells.foldl (fun h c => (vals c).foldl (fun h r => r.2.1.zipIdx.foldl (fun h x =>
          if planeOf s.mono x.2 r.1 = p then hit h (min 1023 (x.1 / 256)) else h) h) h) (List.replicate 1024 0)
      [0, 512].foldl (fun s first =>
        s.sendStat f (statHeader f 4 p 512 first ++ ((bins.drop first).take 512).flatMap (leBytes 4))) s) s
  else s

/-! ## The local exposure loop (R118 to R123) -/

/-- MIN and MAX of a region (R120). -/
def loopBounds (img : RegFile) (r : Nat) : Nat × Nat :=
  let hi := img.fld ⟨0x20118, 4, 0, 8 * (r % 4) + 4, 3, false⟩ (r / 4)
  (min (img.fld ⟨0x20118, 4, 0, 8 * (r % 4), 3, false⟩ (r / 4)) hi, hi)

/-- The vote of a cell: −1 down, 1 up, 0 none (R118). -/
def voteOf (img : RegFile) (mean clip : Nat) : Int :=
  if img.fld Reg.EX_LECFG_CLIPMAX < clip ∨ img.fld Reg.EX_LETH_MEANHI < mean then -1
  else if clip = 0 ∧ mean < img.fld Reg.EX_LETH_MEANLO then 1
  else 0

/-- Counter and class of a cell after a frame the loop uses, with its vote (R119, R120). -/
def moveCell (img : RegFile) (r cls : Nat) (cnt vote : Int) : Int × Nat :=
  let (lo, hi) := loopBounds img r
  if cls < lo then (0, cls + 1)
  else if hi < cls then (0, cls - 1)
  else
    let n : Int := if vote = 0 then 0 else if 0 < vote * cnt then cnt + vote else vote
    if (img.fld Reg.EX_LECFG_HYST + 1 : Nat) ≤ n.natAbs then
      (0, if 0 < n then (if cls < hi then cls + 1 else cls) else (if lo < cls then cls - 1 else cls))
    else (n, cls)

/-- The loop takes the statistics of a frame (R118 to R123, R231) (log entry 39). -/
def runLoop (s : State) (f : Frame) : State :=
  let e := s.expo
  if !e.leOn || f.ovr.isSome || f.dark || e.dark.isSome || s.dev == .standby || decide (f.num < e.leFrom) then s
  else
    let cells := (List.range 65536).filter f.inSet
    let (work, votes, moved) := cells.foldl (fun (a : RegFile × List (Nat × Int) × Nat) c =>
      let fl := (f.cflags.find? (·.cell == c)).getD ⟨c, false, false, false⟩
      if s.unitFailed c || fl.partlyLost || !hasBit f.ready (cellBlock c) then a
      else
        let rows := f.statRows c
        match meanOf rows with
        | none => a
        | some mean =>
          let cls := mapClass a.1 c
          let cnt := ((a.2.1.find? (·.1 == c)).map (·.2)).getD 0
          let (cnt, k) := moveCell f.img (blockRegion (cellBlock c)) cls cnt
            (voteOf f.img mean (rows.map (·.2.2.1)).sum)
          let votes := a.2.1.filter (·.1 != c)
          let votes := if cnt = 0 then votes else (c, cnt) :: votes
          (if k = cls then a.1 else a.1.setFld (mapFld c) k, votes, if k = cls then a.2.2 else a.2.2 + 1)) (e.work, e.votes, 0)
    let s : State := { s with expo := { e with
      work := work, votes := votes
      leSrc := if moved = 0 then e.leSrc else f.num
      leMoved := e.leMoved || decide (0 < moved)
      leLog := if moved = 0 then e.leLog else e.leLog ++ [(s.now, e.work, e.leSrc)] } }
    s.set Reg.EX_LESTAT_MOVES (min 65535 moved)

/-! ## Dark-reference capture (R141 to R143) -/

/-- A captured frame is complete (R141, R142): the differences of its cells join the sums.
The mean of a strip is its black level, and a cell whose level was kept gives no difference (log entry 79). -/
def darkFrame (s : State) (f : Frame) : State :=
  match s.expo.dark with
  | none => s
  | some d =>
    if !f.dark || !d.frames.contains f.num then s
    else
      let first := d.done == 0
      let cells := (List.range 65536).filter fun c => f.inSet c && !s.unitFailed c
      let diffs : List (Nat × Bool × Rat) := cells.flatMap fun c => [false, true].filterMap fun l =>
        let rows := f.s1.filter fun x => x.cell == c && x.lcg == l && !x.tapB && !x.after3.isEmpty
        let n := (rows.map (·.after5.length)).sum
        match s.rd.blacks.find? fun b => b.cell == c && !b.tapB && b.lcg == l && b.frame == f.num with
        | some b => if n = 0 then none else some (c, l, (((rows.map (·.sum1)).sum : Int) : Rat) / (n : Nat) - (b.level : Int))
        | none => none
      let thr : Rat := ((64 * s.get Reg.EX_DARKCFG_LIGHTTH : Nat) : Rat)
      let bright := ((diffs.filter fun x => decide (thr < x.2.2)).map (·.1)).eraseDups.length
      let worst := max d.worst bright
      let done := d.done + 1
      let s : State := (s.set Reg.EX_DARKSTAT_WORST (min 65535 worst)).set Reg.EX_DARKSTAT_DONE done
      if s.get Reg.EX_DARKCFG_LIGHTCNT < bright then
        (({ s with expo := { s.expo with dark := none } }).set Reg.EX_DARKSTAT_RESULT 2).set Reg.EX_DARKSTAT_DSTATE 2
      else
        let old (c : Nat) (l : Bool) : Rat × Nat :=
          ((d.sums.find? fun e => e.1 == c && e.2.1 == l).map (·.2.2)).getD (0, 0)
        let upd := diffs.map fun x => (x.1, x.2.1, (old x.1 x.2.1).1 + x.2.2, (old x.1 x.2.1).2 + 1)
        let sums := upd ++ d.sums.filter fun e => !(diffs.any fun x => x.1 == e.1 && x.2.1 == e.2.1)
        let d : DarkCap := { d with
          done := done, worst := worst, sums := sums
          map := if first then f.map else d.map
          ovr := if first then f.ovr else d.ovr
          durs := if first then f.cls.map (·.dur) else d.durs }
        if done < d.nfr then { s with expo := { s.expo with dark := some d } }
        else
          let diff := sums.map fun e => (e.1, e.2.1, clampI (-32768) 32767 (roundDiv (e.2.2.1.num) (e.2.2.1.den * e.2.2.2)))
          let s : State := { s with expo := { s.expo with
            dark := none, darkNext := some ⟨diff, d.map, d.ovr, d.durs⟩, darkAt := s.now } }
          (s.set Reg.EX_DARKSTAT_RESULT 1).set Reg.EX_DARKSTAT_DSTATE 2

end State

/-- STATS_COMPLETE (R121, R229 to R232): every row of a frame has gone through stage 1; its statistics are sent, and the
local loop and a dark-reference capture take them. Without PD_STS there are no statistics and the loop holds (Table 14-6). -/
def execStatsComplete (s : State) : Outcome State Fault Refusal :=
  let waits (n : Nat) : Bool := s.rd.blockOut.any (·.frame == n) ||
    s.rd.cells.any fun x => x.queue.any fun e => !e.track && e.frame == n
  match s.frames.find? fun f => f.phase == 3 && !f.statsDone && !waits f.num with
  | none => ok s
  | some f =>
    let s := s.set Reg.S1_CNT_DYNCNT (min 65535 f.dynCnt)
    let s : State := if hasBit s.domLost 10 then s else (s.sendStats f).runLoop f
    let s := s.darkFrame f
    let s : State := { s with rd := { s.rd with badNodes := [], badDefects := [] } }
    ok ((s.setFrame f.num fun (g : Frame) => { g with statsDone := true, s1 := [] }).retireFrames)

/-- DARK_START's effect: EX_DARKCMD.START (R141). A START that is refused ends the capture before it began:
DSTATE, WORST and DONE show that (log entry 79). -/
def State.darkStart (s : State) : State :=
  if s.expo.dark.isSome then s
  else
    let s : State := (s.set Reg.EX_DARKSTAT_WORST 0).set Reg.EX_DARKSTAT_DONE 0
    if shutter s.inForce = 0 ∨ shutter s.inForce = 3 then
      let n := max 1 (s.get Reg.EX_DARKCFG_NFR)
      let s : State := { s with expo := { s.expo with dark := some ⟨n, 0, 0, [], [], none, [], []⟩ } }
      (s.set Reg.EX_DARKSTAT_RESULT 0).set Reg.EX_DARKSTAT_DSTATE 1
    else (s.set Reg.EX_DARKSTAT_RESULT 4).set Reg.EX_DARKSTAT_DSTATE 2

/-- An I3C write to an EX_ register is counted for the next commit where I3C is the live-parameter source (R122). -/
def State.exTouched (s : State) : State :=
  if s.flag Reg.ID_CTRLSTAT_LIVESRC then s else { s with expo := { s.expo with exWritten := true } }

/-- DARK_START (R25, R27, R122, R141): EX_DARKCMD.START; ignored while a capture runs. -/
def execDarkStart (s : State) : Outcome State Fault Refusal := ok (s.mainWrite s.exTouched.darkStart)

/-- DARK_ABORT (R25, R27, R122, R143): EX_DARKCMD.ABORT ends a running capture; the previous table is kept. The
state shown after it is done (log entry 79). -/
def execDarkAbort (s : State) : Outcome State Fault Refusal := ok (s.mainWrite s.exTouched.darkAbort)

end Sys2Proof.Machine
end

