-- ==== Sys2Proof/Machine/Raster.lean ====
section
/-! DEFINITION. What the cistern does with frames: raster frames, the ring, raster output, accumulation, recalls, memory
errors, channel initialisation and temperature (08_cistern.md R233 to R259; 11_packets_and_metadata.md R319 to R328). -/
namespace Sys2Proof.Machine

open Host (Outcome)

/-! ## Lines (R325) -/

/-- Width of the raster samples of a frame: 12, 14 or 16. -/
def rasterWidth (x : Stored) : Nat := if x.rows.any fun r => decide (2 ≤ r.gain) then 16 else rawBits x.frame.img

/-- A piece of a line: its row, its first sample, its fill cause and its codes. -/
structure Segment where
  y : Nat
  x : Nat
  cause : Nat
  codes : List Nat

/-- Rows of one line in ascending column joined into runs of consecutive cells of one binning and fill cause. -/
def joinCells (y : Nat) : List OutRow → List Segment
  | [] => []
  | r :: rs =>
    let seg : Segment := ⟨y, r.spr * cellX r.cell, r.cause, r.codes⟩
    match joinCells y rs with
    | [] => [seg]
    | q :: qs => if q.x = seg.x + r.spr ∧ q.cause = r.cause then { seg with codes := r.codes ++ q.codes } :: qs
      else seg :: q :: qs

/-- A segment cut to the packets of R325. -/
def cutSegment (most : Nat) (g : Segment) : List Segment :=
  (chunks most (ceilDiv g.codes.length most) g.codes).zipIdx.map fun c =>
    { g with x := g.x + most * c.2, codes := c.1 }

/-- Samples of one packet at a width (R325). -/
def segMost (w : Nat) : Nat := if w = 12 then 2724 else if w = 14 then 2336 else 2044

/-- Ascending insertion of a row by column. -/
def insertCol (r : OutRow) : List OutRow → List OutRow
  | [] => [r]
  | q :: qs => if cellX r.cell ≤ cellX q.cell then r :: q :: qs else q :: insertCol r qs

/-- The line `y` of a stored frame as segments: tap A before tap B and HCG before LCG where a site has several exposures
(log entry 30). A line whose memory reads with an uncorrectable error is fill with cause MEMERR (R257). -/
def lineSegments (x : Stored) (y : Nat) : List Segment :=
  let rows := x.rows.filter fun r => State.storedRow (rowSites x.frame.img) r == y
  let rows := if x.mem.contains y then rows.map fun (r : OutRow) => { r with cause := 7 } else rows
  let w := segMost (rasterWidth x)
  [false, true].flatMap fun b => (List.range 4).flatMap fun g =>
    let rs := (rows.filter fun r => r.tapB == b && r.gain == g).foldr insertCol []
    (joinCells y rs).flatMap (cutSegment w)

/-- The lines of a stored frame, ascending (log entry 30). -/
def storedLines (x : Stored) : List Nat :=
  let ys := x.rows.map (State.storedRow (rowSites x.frame.img))
  (List.range 16896).filter ys.contains

/-- A line packet's payload (Table 11-7). -/
def linePayload (id : Nat) (last : Bool) (w : Nat) (g : Segment) : List Byte :=
  leBytes 1 id ++ leBytes 1 ((if g.cause = 0 then 0 else 1) + (if last then 2 else 0) + 16 * g.cause) ++ leBytes 2 g.y ++
    leBytes 2 g.x ++ leBytes 2 g.codes.length ++ packBits w g.codes

/-- Lines sent as data and as fill: a line is fill where all of it is. -/
def countLines (segs : List Segment) : Nat × Nat :=
  let ys := (segs.map (·.y)).eraseDups
  let data := (ys.filter fun y => segs.any fun g => g.y == y && g.cause == 0).length
  (data, ys.length - data)

/-- Fill entries of the MEMERR lines of a stored frame (R257, R327). -/
def memFills (x : Stored) : List FillEnt := x.mem.map fun y => ⟨7, 3, false, 0, 0, y, y⟩

namespace State

/-- Raw fill entries of a stored frame: those of the frame as it stands, where it is not closed yet (R327). -/
def rawFills (s : State) (x : Stored) : List FillEnt :=
  match s.frame x.frame.num with
  | some f => f.fills
  | none => x.frame.fills

/-! ## Raster frames and the ring (R250) -/

/-- A raster frame goes into the ring (R250, R251). -/
def ringFrame (s : State) (x : Stored) : State :=
  let newest (l : List Stored) : List Stored := l.drop (l.length - min l.length s.cis.pre)
  let rs := s.get Reg.CS_RINGSTAT_RSTATE
  if rs = 0 then { s with cis := { s.cis with ring := newest (s.cis.ring ++ [x]) } }
  else if rs = 1 then
    match s.cis.trigAt with
    | some t =>
      if x.frame.t ≤ t then
        let ring := newest (s.cis.ring ++ [x])
        ({ s with cis := { s.cis with ring := ring } }).set Reg.CS_RINGSTAT_PREACT ring.length
      else
        let s := s.set Reg.CS_RINGEVT_EFRAME x.frame.num
        let s : State := { s with cis := { s.cis with
          ring := s.cis.ring ++ [x], trigAt := none, postLeft := s.cis.postLeft - 1 } }
        if s.cis.postLeft = 0 then s.set Reg.CS_RINGSTAT_RSTATE 2 else s
    | none =>
      let s : State := { s with cis := { s.cis with ring := s.cis.ring ++ [x], postLeft := s.cis.postLeft - 1 } }
      if s.cis.postLeft = 0 then s.set Reg.CS_RINGSTAT_RSTATE 2 else s
  else s

/-! ## Accumulation (R253, R254) -/

/-- A sample as the accumulator takes it: max(0, s − PED) in 14-bit codes. -/
def accSample (f : Frame) (gain k : Nat) : Nat :=
  (if 2 ≤ gain then k else if rawBits f.img = 14 then k else 4 * k) - f.img.fld Reg.S1_BLCFG_PED

/-- The sums of a group with one more frame: rows of one place are added; a fill row keeps its cause. -/
def accRows (f : Frame) (sums : List (OutRow × List Nat)) (rows : List OutRow) : List (OutRow × List Nat) :=
  let val (r : OutRow) : List Nat := r.codes.map (accSample f r.gain)
  if sums.isEmpty then rows.map fun r => ({ r with codes := [] }, val r)
  else sums.map fun e =>
    match rows.find? fun r => r.cell == e.1.cell && r.row == e.1.row && r.tapB == e.1.tapB && r.gain == e.1.gain with
    | some r => ({ e.1 with cause := if e.1.cause = 0 then r.cause else e.1.cause }, e.2.zipWith (· + ·) (val r))
    | none => e

/-- A raster frame joins its accumulation group, begins one, or ends one without a result (R253, R254) (log entry 42). -/
def accFrame (s : State) (x : Stored) : State :=
  let f := x.frame
  let s : State := match s.cis.acc with
    | some a => if a.count = a.size then
        { s with cis := { s.cis with accDue := s.cis.accDue ++ [a], acc := none } } else s
    | none => s
  let byBurst := f.img.flag Reg.CS_ACC_BURST
  let s : State := match s.cis.acc with
    | some a => if byBurst && a.firstNum != f.burst then s.dropGroup else s
    | none => s
  let skip (a : AccGroup) : Bool := s.cis.rateSkips.any fun k =>
    decide ((a.last.map (·.frame.num)).getD a.firstNum < k ∧ k < f.num)
  let s : State := if s.cis.acc.any skip then s.dropGroup else s
  let s : State := { s with cis := { s.cis with rateSkips := s.cis.rateSkips.filter fun k => decide (f.num < k) } }
  let a := s.cis.acc.getD ⟨0, if byBurst then f.burst else f.num, f.gen,
    if byBurst then min 16 f.burstLen else f.img.fld Reg.CS_ACC_NM1 + 1, [], [], none, []⟩
  if 0 < f.skipped ∨ f.gen ≠ a.gen then
    ({ s with cis := { s.cis with acc := none } }).bump Reg.CS_CNT_ACCRST
  else
    let g : AccGroup := { a with
      count := a.count + 1
      sums := accRows f a.sums x.rows
      fills := Frame.joinFills a.fills f.fills
      last := some { x with rows := [] }
      mem := (a.mem ++ x.mem).eraseDups }
    { s with cis := { s.cis with acc := some g } }

/-- A completed group as the frame that goes out: 16-bit rows under the header of the group's last frame (R253) (log entry 42). -/
def accStored (a : AccGroup) : Option Stored :=
  a.last.map fun x =>
    let ash := x.frame.img.fld Reg.CS_ACC_ASH
    { x with
      frame := { x.frame with fills := a.fills }
      mem := a.mem
      rows := a.sums.map fun e => { e.1 with gain := 2 + e.1.gain % 2, codes := e.2.map fun v => min 65535 (v / 2 ^ ash) } }

/-! ## Raster output (R319 to R322) -/

/-- STREAM of a raster or accumulation header (Table 11-4). -/
def lineStream (x : Stored) (kind first nacc width nwin : Nat) : List Byte :=
  let (lo, hi) := storedSpan x
  leBytes 2 lo ++ leBytes 2 hi ++ leBytes 4 first ++ leBytes 4 x.frame.num ++ leBytes 1 nacc ++
    leBytes 1 (if kind = 3 then x.frame.img.fld Reg.CS_ACC_ASH else 0) ++ leBytes 1 width ++ leBytes 1 nwin

/-- The output of a stored frame on OVC starts: header, then its lines (R320, R321); `fills` are the entries of an accumulation
group (log entry 42). -/
def startOutput (s : State) (kind : Nat) (x : Stored) (first nacc : Nat) (fills : List FillEnt) : State :=
  let f := x.frame
  let v := f.img.fld Reg.CS_CFG_OVC
  let wins := f.vcWindows (f.img.fld Reg.CS_CFG_RVC)
  let w := if kind = 3 then 16 else rasterWidth x
  let core := (x.hdr.drop 4).take 332
  let s := s.sendHeader v f.num (f.headerBytes kind core (lineStream x kind first nacc w wins.length) wins)
  let segs := (storedLines x).flatMap (lineSegments x)
  let (data, fill) := countLines segs
  let o : OpenOut := ⟨kind, v, x, first, nacc, fills ++ memFills x, data, fill, 0, s.now⟩
  let s : State := { s with cis := { s.cis with out := some o } }
  segs.foldl (fun s g => (s.build v 0x23 f.num (linePayload 0 false w g) false true true).1) s

/-- The next output that is due, an accumulation result first (R319), once its reader is served (R247). A result whose last frame
may send nothing on OVC is not sent (R319). -/
def nextOutput (s : State) : State :=
  if s.cis.out.isSome || !s.running || !(s.serves 3 || s.serves 4) then s
  else match s.cis.accDue with
    | a :: rest =>
      let s : State := { s with cis := { s.cis with accDue := rest } }
      let s := s.tookShare 4 (a.count * s.interval)
      match accStored a with
      | some x => if hasBit x.frame.supp 0 then s else s.startOutput 3 x a.firstNum a.count a.fills
      | none => s
    | [] =>
      match s.cis.rasterDue with
      | none => s
      | some x =>
        (({ s with cis := { s.cis with rasterDue := none } }).tookShare 3 s.interval).startOutput 2 x x.frame.num 1 []

/-- The closing sequence of the output under way (R320, R326 to R328). -/
def closeOut (s : State) (o : OpenOut) : State :=
  let f := o.stored.frame
  let rvc := f.img.fld Reg.CS_CFG_RVC
  let s := s.sendExposureMap f o.vc (f.inVc rvc)
  let raw := if o.kind = 2 then s.rawFills o.stored else []
  let es := listedFills (raw ++ o.fills)
  let s : State := if es.isEmpty then s else s.sendFills o.vc f.num es
  let mem := es.any (·.cause == 7)
  let complete := !es.any (fun e => e.cause == 15 || e.cause == 6) && !mem
  let s := s.sendFooter f o.kind o.vc (leAt o.stored.hdr 10 2) es (o.linesData - o.linesDrop) o.linesFill o.linesDrop
    o.lastRead mem complete
  State.releaseHeaders { s with cis := { s.cis with out := none } }

/-! ## Recalls (R255, R256) -/

/-- The packets of a recall: its lines in ascending order, the last one with END; a recall of rows that hold nothing is one
empty line with END (log entry 31). -/
def recallPackets (x : Stored) (r : Recall) : List (List Byte) :=
  let w := rasterWidth x
  let segs := ((storedLines x).filter fun y => decide (r.first ≤ y ∧ y ≤ r.last)).flatMap (lineSegments x)
  let segs := if segs.isEmpty then [⟨r.first, 0, 0, []⟩] else segs
  segs.zipIdx.map fun g => linePayload r.id (g.2 + 1 == segs.length) w g.1

/-- A packet of the running recall sent; where it is dropped the recall is discarded (R38, R256). -/
def recallSend (s : State) (r : Recall) (p : List Byte) : State :=
  if s.cis.rcl.isNone then s
  else
    let b := s.build r.vc 0x50 r.frame p false false false
    if b.2 then b.1 else b.1.recallFail

/-- The frames that stand in the frame area: slots of the ring, of outputs and of stage 2 (R240). -/
def storedFrames (s : State) : List Stored :=
  s.cis.ring ++ s.cis.rasterDue.toList ++ s.cis.s2Due ++ (s.cis.out.map (·.stored)).toList ++ s.s2.map (·.stored)

/-- The slot of the frame area that the next frame takes: the lowest free one (R240) (log entry 83). -/
def freeSlot (s : State) : Nat :=
  let used := s.storedFrames.map (·.slot)
  ((List.range (used.length + 1)).find? fun k => !used.contains k).getD used.length

/-- Bytes of a stored frame (R240). -/
def storedBytes (x : Stored) : Nat :=
  (x.rows.map fun r => packedBytes r.spr (if 2 ≤ r.gain then 16 else rawBits x.frame.img)).sum

/-- The channel and address of byte `i` of a stored frame (R238, R240) (log entry 83). -/
def storedAt (s : State) (x : Stored) (i : Nat) : Nat × Nat := s.granule (x.slot * slotSize (storedBytes x) + i)

end State

/-- RASTER_FRAME_STORED (R250, R253, R319): the oldest raster frame whose rows have all been written. In STANDBY no frame is
written (R259). -/
def execRasterFrameStored (s : State) : Outcome State Fault Refusal :=
  match s.frames.find? fun f => decide (3 ≤ f.phase) && !f.raster.isEmpty && s.vcDone f (f.img.fld Reg.CS_CFG_RVC) with
  | none => ok s
  | some f =>
    let x : Stored := ⟨{ f with raster := [], rasterHdr := [], s1 := [], outRows := [] }, f.rasterHdr, f.raster, [], s.freeSlot⟩
    let s := s.setFrame f.num fun (g : Frame) => { g with raster := [] }
    if s.dev ≠ .run ∨ s.channels.isEmpty then ok s.retireFrames
    else
      let s : State := if hasBit f.admis 6 then s.ringFrame x else s
      let s : State := if hasBit f.admis 2 then { s with cis := { s.cis with s2Due := s.cis.s2Due ++ [x] } } else s
      let s : State := if hasBit f.admis 4 && !hasBit s.domLost 11 then s.accFrame x else s
      let s : State := if hasBit f.admis 3 && !hasBit f.supp 0 then
          let s : State := if s.cis.rasterDue.isSome then s.bump Reg.PK_CNT_OVCSKIP else s
          { s with cis := { s.cis with rasterDue := some x } }
        else s
      ok s.retireFrames

/-- RASTER_OUTPUT_START (R247, R319, R321): the output read of the next stored frame, or accumulation result, starts on OVC. -/
def execRasterOutputStart (s : State) : Outcome State Fault Refusal := ok s.nextOutput

/-- ACC_GROUP_DONE (R253): a complete accumulation group falls due and its result goes out. -/
def execAccGroupDone (s : State) : Outcome State Fault Refusal :=
  match s.cis.acc with
  | some a =>
    if a.count = a.size then
      ok ({ s with cis := { s.cis with accDue := s.cis.accDue ++ [a], acc := none } }).nextOutput
    else ok s
  | none => ok s

/-- RING_FREEZE (R251): CS_RINGCMD.FREEZE. -/
def execRingFreeze (s : State) : Outcome State Fault Refusal := ok (s.mainWrite (s.freezeRing s.now))

/-- RING_RELEASE (R252): CS_RINGCMD.RELEASE. -/
def execRingRelease (s : State) : Outcome State Fault Refusal := ok (s.mainWrite s.releaseRing)

/-- RING_TRIGGER_EDGE (R251, R445): the level `up` on the CS_RINGTRIG pin, where that row owns it; an edge of the chosen sense
begins to qualify, and any edge ends a wait. -/
def execRingTriggerEdge (up : Bool) (s : State) : Outcome State Fault Refusal :=
  if s.cis.trig.level = up then ok s
  else
    let e := s.get Reg.CS_RINGTRIG_EDGE
    let sense := e == 2 || (e == 1) == !up
    let on := s.flag Reg.CS_RINGTRIG_EN && s.pinOwner (s.get Reg.CS_RINGTRIG_PIN) == 3 && s.running && sense
    ok { s with cis := { s.cis with trig := ⟨up, s.now, on, []⟩ } }

/-- RING_TRIGGER_QUALIFY (R251): the level has held for MINW; the trigger instant is the edge (log entry 46). -/
def execRingTriggerQualify (s : State) : Outcome State Fault Refusal :=
  let t := s.cis.trig
  ok (if t.waiting && decide (t.edgeAt + 10 * s.get Reg.CS_RINGTRIG_MINW ≤ s.now) then
    let s : State := { s with cis := { s.cis with trig := { t with waiting := false } } }
    if s.running then s.freezeRing t.edgeAt else s
  else s)

/-- RECALL_SUBMIT (R255): CS_RCCMD with GO and VC `vc`; the frame and rows stand in CS_RCFRM and CS_RCROWS. -/
def execRecallSubmit (vc : Nat) (s : State) : Outcome State Fault Refusal :=
  ok (s.mainWrite
    (s.submitRecall (s.get Reg.CS_RCFRM_FRAME) (s.get Reg.CS_RCROWS_FIRST) (s.get Reg.CS_RCROWS_LAST) (vc % 16)))

/-- RECALL_START (R247, R255): the oldest request reaches service, once the cistern has nothing else to serve; its lines are read
and sent, but for the last packet. -/
def execRecallStart (s : State) : Outcome State Fault Refusal :=
  match s.cis.rcl, s.cis.recallQ with
  | none, r :: rest =>
    match s.frozenFrame r.frame with
    | none => ok s
    | some x =>
      if !s.running || !s.servesRecall then ok s
      else
        let ps := State.recallPackets x r
        let s : State := { s with cis := { s.cis with recallQ := rest, rcl := some (r, ps.drop (ps.length - 1)) } }
        ok ((ps.take (ps.length - 1)).foldl (fun s p => s.recallSend r p) s).accountDrops
  | _, _ => ok s

/-- Recall `r` is complete (R255); a release that waited takes effect after the last recall (R252). -/
def State.recallOk (s : State) (r : Recall) : State :=
  let s : State := { s with cis := { s.cis with rcl := none } }
  let s : State := (s.set Reg.CS_RCSTAT_RESULT 1).set Reg.CS_RCSTAT_RID r.id
  let s := s.set Reg.CS_RCSTAT_QUEUED (s.get Reg.CS_RCSTAT_QUEUED - 1)
  if s.cis.release then s.releaseRing else s

/-- RECALL_END (R255, R256, R252): the last packet goes out with END; a recall of which a packet has been dropped ends with no
END packet. -/
def execRecallEnd (s : State) : Outcome State Fault Refusal :=
  let s := s.accountDrops
  match s.cis.rcl with
  | none => ok s
  | some (r, ps) =>
    let s := (ps.foldl (fun s p => s.recallSend r p) s).accountDrops
    ok (if s.cis.rcl.isSome then s.recallOk r else s)

/-- CA_PARITY_ERROR (R237): the access is retried; the ninth error of channel `n` within 1 ms loses it. -/
def execCaParityError (n : Nat) (s : State) : Outcome State Fault Refusal :=
  if !s.chanUp n then ok s
  else
    let p := (n, s.now) :: s.cis.parity.filter fun e => decide (s.now < e.2 + 1000000)
    let s : State := { s with cis := { s.cis with parity := p } }
    ok (if 8 < (p.filter (·.1 == n)).length then s.channelLost n 5 else s)

/-- MEMORY_ECC_ERROR (R257, R249): `kind` 0 a corrected error; 1 an uncorrectable one in line `y` of frame `x` (raster,
accumulation or recall read); 2 in the merged-HDR read-back of the row at position `y` of cell `x`; 3 in the oldest spilled
packet of group `x` (log entry 43). -/
def execMemoryEccError (kind x y : Nat) (s : State) : Outcome State Fault Refusal :=
  let bad (s : State) : State := (s.bump Reg.CS_ECC_UNCORR).set Reg.CS_STAT_MEMERR 1
  let mark (t : Stored) : Stored := if t.frame.num = x then { t with mem := t.mem ++ [y] } else t
  match kind with
  | 0 => ok (s.bump Reg.CS_ECC_CORR)
  | 1 =>
    let c := s.cis
    let group (a : AccGroup) : AccGroup :=
      if a.firstNum ≤ x ∧ x ≤ (a.last.map (·.frame.num)).getD 0 then { a with mem := (a.mem ++ [y]).eraseDups } else a
    ok (bad { s with cis := { c with
      ring := c.ring.map mark, rasterDue := c.rasterDue.map mark, s2Due := c.s2Due.map mark
      accDue := c.accDue.map group, acc := c.acc.map group } })
  | 2 =>
    let lose (r : S1Row) : S1Row := if r.cell = x ∧ r.row = y then { r with lost := 7 } else r
    ok (bad { s with frames := s.frames.map fun (f : Frame) =>
      if f.hdrout && decide (2 ≤ f.phase) then { f with s1 := f.s1.map lose } else f })
  | 3 =>
    match (s.group x).spill with
    | [] => ok s
    | p :: rest =>
      let s := s.setGroup x fun g => { g with spill := rest }
      let s := s.set Reg.LK_GSTAT_SPILLING (if rest.isEmpty then 0 else 1) x
      ok ((bad (s.drop p)).refreshWait x)
  | _ => ok s

/-- READMISSION_DONE (R244): the new admission holds for the frames armed from here on. -/
def execReadmissionDone (s : State) : Outcome State Fault Refusal :=
  ok (if s.cis.readmit.isSome then ({ s with cis := { s.cis with readmit := none } }).admitNow s.inForce else s)

/-- CISTERN_INIT_DONE (R235, R234): for each channel the CAUSE that lost it (0 for a trained one), the rated speed code, the
module size in GB and its temperature. -/
def execCisternInitDone (chans : List (Nat × Nat × Nat × Nat)) (s : State) : Outcome State Fault Refusal :=
  if s.dev ≠ .load ∨ !s.boot.cisStart ∨ s.boot.cisDone then ok s
  else
    let up (n : Nat) : Bool := (chans.getD n (1, 0, 0, 0)).1 == 0 && !s.flag Reg.CS_CH_STAT_LOST n
    let rated := (List.range 4).map fun n => (chans.getD n (1, 0, 0, 0)).2.1
    let s : State := { s with cis := { s.cis with rated := rated } }
    let s := (List.range 4).foldl (fun s n =>
      let (cause, _, size, temp) := chans.getD n (1, 0, 0, 0)
      let s : State := (s.set Reg.CS_CH_STAT_SIZE size n).set Reg.CS_CH_STAT_TEMP temp n
      if up n then
        let s : State := (s.set Reg.CS_CH_STAT_TRAINED 1 n).set Reg.CS_CH_STAT_CAUSE 0 n
        s.set Reg.PM_OTHER_CS (withBit (s.get Reg.PM_OTHER_CS) n)
      else if s.flag Reg.CS_CH_STAT_LOST n then s
      else s.channelLost n cause) s
    ok { s.showSpeed s.regs with boot := { s.boot with cisDone := true } }

/-- SPD_TEMP_POLL (R236): the module temperatures in °C, none for a hub that did not answer; above TCRIT the channel is lost.
The doubled refresh above 85 °C shows in no register and leaves the planning figures as they are (log entry 44). -/
def execSpdTempPoll (temps : List (Option Nat)) (s : State) : Outcome State Fault Refusal :=
  ok ((List.range 4).foldl (fun s n =>
    match temps.getD n none with
    | none => s
    | some t =>
      if !s.chanUp n then s
      else
        let s := s.set Reg.CS_CH_STAT_TEMP (min 255 t) n
        let crit := if s.dev = .load then s.get Reg.CS_CFG_TCRIT else s.live Reg.CS_CFG_TCRIT
        if crit < t then s.channelLost n 6 else s) s)

end Sys2Proof.Machine
end

