-- ==== Sys2Proof/Machine/Stage2.lean ====
section
/-! DEFINITION. Stage 2: commits, entry of a frame, the colour pipeline, the resample, output on the links and the preview
port; the closing sequences of every stream; the CRC units (09_colour_pipeline.md R260 to R282;
11_packets_and_metadata.md R319, R320, R329 to R331, R337). -/
namespace Sys2Proof.Machine

open Host (Outcome)

/-- Coordinate mirrored about the edges `lo` and `hi` (R264). -/
def mirror (lo hi x : Int) : Int :=
  if hi ≤ lo then lo
  else
    let p := 2 * (hi - lo)
    let m := (x - lo) % p
    lo + min m (p - m)

/-- Brought into U16 (R264). -/
def sat65535 (x : Int) : Int := clampI 0 65535 x

/-- A colour value: R, G, B. -/
abbrev Rgb := Int × Int × Int

/-- Component `c` of a colour value. -/
def Rgb.at (p : Rgb) (c : Nat) : Int := match c with
  | 0 => p.1
  | 1 => p.2.1
  | _ => p.2.2

/-- A stored code as a linear value (R263). -/
def linear (f : Frame) (gain k : Nat) : Nat :=
  if 2 ≤ gain then k - f.img.fld Reg.S1_MGSH_PEDM
  else if rawBits f.img = 14 then (k - f.img.fld Reg.S1_BLCFG_PED) * 4
  else (4 * k - f.img.fld Reg.S1_BLCFG_PED) * 4

/-- The linear value of the raster sample at (X, Y) of a stored frame in window `n`'s coordinates: tap A and LCG where a site
has several exposures (R263); FILL where nothing is stored (R264). -/
def rasterLinear (x : Stored) (n : Nat) (px py : Nat) : Nat :=
  let f := x.frame
  let side := rowSites f.img / 2 ^ dbinOf f.img n
  let c := 256 * (py / side) + px / side
  let rows := x.rows.filter fun r => r.cell == c && r.row == py % side && !r.tapB && r.spr == side
  let best := (rows.find? fun r => r.gain == 1 || r.gain == 3).orElse fun _ => rows.head?
  match best with
  | some r => linear f r.gain (r.codes.getD (px % side) 0)
  | none => linear f (if rasterWidth x = 16 then 2 else 0) (f.img.fld Reg.RD_FILL_FILL)

/-- The white-balanced sample at a point, mirrored at the edges (R264, R265, R273). -/
def balanced (mono : Bool) (cp : RegFile) (x : Stored) (n : Nat) (px py : Int) : Int :=
  let img := x.frame.img
  let b := windowBin img n
  let w := img.fld Reg.RD_PW_SIZE_W n
  let h := img.fld Reg.RD_PW_SIZE_H n
  let (x0, x1, y0, y1) : Int × Int × Int × Int :=
    if img.flag Reg.RD_PW_CFG_ROT n then (0, (16384 / b : Nat) - 1, 0, (16384 / b : Nat) - 1)
    else
      let xa := img.fld Reg.RD_PW_POS_X0 n
      let ya := img.fld Reg.RD_PW_POS_Y0 n
      ((xa / b : Nat), ((min (xa + w) 16384 - 1) / b : Nat), (ya / b : Nat), ((min (ya + h) 16384 - 1) / b : Nat))
  let mx := (mirror x0 x1 px).toNat
  let my := (mirror y0 y1 py).toNat
  let g := if mono then cp.fld Reg.CP_WBG0_GR
    else match planeOf false mx my with
      | 0 => cp.fld Reg.CP_WBG0_R
      | 1 => cp.fld Reg.CP_WBG0_GR
      | 2 => cp.fld Reg.CP_WBG1_R
      | _ => cp.fld Reg.CP_WBG1_GR
  sat65535 (roundDiv (rasterLinear x n mx my * g : Nat) 4096)

/-- The demosaic at a site whose plane is `plane`, over the neighbours `p dx dy` (R266). -/
def demosaic (edge : Int) (plane : Nat) (p : Int → Int → Int) : Rgb :=
  let c := p 0 0
  let gh := 4 * (p (-1) 0 + p 1 0) + 2 * (2 * c - p (-2) 0 - p 2 0)
  let gv := 4 * (p 0 (-1) + p 0 1) + 2 * (2 * c - p 0 (-2) - p 0 2)
  let r (x : Int) : Int := sat65535 (roundDiv x 8)
  if plane = 1 then (r gh, c, r gv)
  else if plane = 2 then (r gv, c, r gh)
  else
    let dh : Int := (p (-1) 0 - p 1 0).natAbs + (2 * c - p (-2) 0 - p 2 0).natAbs
    let dv : Int := (p 0 (-1) - p 0 1).natAbs + (2 * c - p 0 (-2) - p 0 2).natAbs
    let g := if dh + edge < dv then gh else if dv + edge < dh then gv else (gh + gv) / 2
    let d := 2 * (p (-1) (-1) + p 1 (-1) + p (-1) 1 + p 1 1) + (4 * c - p (-2) 0 - p 2 0 - p 0 (-2) - p 0 2)
    if plane = 0 then (c, r g, r d) else (r d, r g, c)

/-- Point `k` of tone curve `c` (R268). -/
def tonePoint (cp : RegFile) (c k : Nat) : Int :=
  if k % 2 = 0 then cp.fld Reg.CP_TC_TLO c (k / 2) else cp.fld Reg.CP_TC_THI c (k / 2)

/-- Tone curve `c` (R268). -/
def toneCurve (cp : RegFile) (c : Nat) (v : Int) : Int :=
  let i := (v / 64).toNat
  let t := tonePoint cp c i
  sat65535 (roundDiv (64 * t + (tonePoint cp c (i + 1) - t) * (v % 64)) 64)

/-- The colour matrix (R267). -/
def colourMatrix (cp : RegFile) (p : Rgb) : Rgb :=
  let row (r : Nat) : Int :=
    let m (c : Nat) : Int := cp.sfld Reg.CP_CM_M (3 * r + c) * p.at c
    sat65535 (roundDiv (m 0 + m 1 + m 2 + cp.sfld Reg.CP_CMOFS_OFS r * 4096) 4096)
  (row 0, row 1, row 2)

/-- A raster site after the tone curves (R265 to R268, R273). -/
def site (mono : Bool) (cp : RegFile) (x : Stored) (n : Nat) (px py : Int) : Rgb :=
  let p (dx dy : Int) : Int := balanced mono cp x n (px + dx) (py + dy)
  if mono then
    let v := toneCurve cp 1 (p 0 0)
    (v, v, v)
  else
    let side := 16384 / windowBin x.frame.img n
    let plane := planeOf false (mirror 0 (side - 1) px).toNat (mirror 0 (side - 1) py).toNat
    let q := colourMatrix cp (demosaic (cp.fld Reg.CP_CFG_EDGE) plane p)
    (toneCurve cp 0 q.1, toneCurve cp 1 q.2.1, toneCurve cp 2 q.2.2)

/-- Interpolation weights at phase `k`/64 for the samples −1, 0, 1, 2, times 2^19 (R269) (log entry 34). -/
def weights (bicubic : Bool) (k : Int) : List Int :=
  if bicubic then
    let k2 := k * k
    let k3 := k2 * k
    [-k3 + 128 * k2 - 4096 * k, 3 * k3 - 320 * k2 + 524288, -3 * k3 + 256 * k2 + 4096 * k, k3 - 64 * k2]
  else [0, (64 - k) * 8192, k * 8192, 0]

/-- Source point of output pixel (i, j) in 1/65,536 sample, truncated (R269). -/
def sourcePoint (img : RegFile) (n wo ho : Nat) (theta : Int) (i j : Nat) : Int × Int :=
  let b := windowBin img n
  let co := cos30 theta
  let si := sin30 theta
  let u : Int := 2 * (i : Int) - wo + 1
  let v : Int := 2 * (j : Int) - ho + 1
  let at' (c : Nat) (t : Int) : Int := Int.tdiv ((c : Int) * 134217728 + t * (b : Nat)) ((b * 32768 : Nat) : Int)
  (at' (img.fld Reg.RD_PW_CX_C n) (u * co - v * si), at' (img.fld Reg.RD_PW_CY_C n) (u * si + v * co))

/-- Output pixel (i, j) of a processed frame, before quantisation (R262, R269) (log entries 6 and 34). -/
def processedPixel (mono : Bool) (x : S2Frame) (i j : Nat) : Rgb :=
  let img := x.stored.frame.img
  let n := x.img.fld Reg.CP_CFG_PW
  if x.fills.any fun e => e.cause == 7 && e.first == j then (0, 0, 0)
  else if !img.flag Reg.RD_PW_CFG_ROT n then
    let b := windowBin img n
    site mono x.img x.stored n ((img.fld Reg.RD_PW_POS_X0 n / b + i : Nat)) ((img.fld Reg.RD_PW_POS_Y0 n / b + j : Nat))
  else
    let (wo, ho) := outSize img n
    let (xs, ys) := sourcePoint img n wo ho x.theta i j
    let wx := weights (x.img.flag Reg.CP_CFG_INTERP) (xs % 65536 / 1024)
    let wy := weights (x.img.flag Reg.CP_CFG_INTERP) (ys % 65536 / 1024)
    let pts := [0, 1, 2, 3].map fun a => [0, 1, 2, 3].map fun c =>
      (wx.getD c 0 * wy.getD a 0, site mono x.img x.stored n (xs / 65536 - 1 + c) (ys / 65536 - 1 + a))
    let sum (c : Nat) : Int := sat65535 (roundDiv ((pts.flatten.map fun q => q.1 * q.2.at c).sum) (2 ^ 38))
    (sum 0, sum 1, sum 2)

/-! ## Output formats (R270, R271, R278, R279) -/

/-- An RGB or single component at `n` bits (R270). -/
def quant (n : Nat) (v : Int) : Nat := (clampI 0 (2 ^ n - 1) (roundDiv v (2 ^ (16 - n)))).toNat

/-- A rational rounded to nearest, ties away from zero. -/
def roundRat (x : Rat) : Int := roundDiv x.num x.den

/-- Y′, Cb and Cr of a pixel before quantisation (R271, R273). -/
def ycc (mono ystd : Bool) (p : Rgb) : Rat × Rat × Rat :=
  let r : Rat := (p.1 : Rat) / 65535
  let g : Rat := (p.2.1 : Rat) / 65535
  let b : Rat := (p.2.2 : Rat) / 65535
  if mono then (g, 0, 0)
  else
    let kr : Rat := if ystd then 2627 / 10000 else 2126 / 10000
    let kb : Rat := if ystd then 593 / 10000 else 722 / 10000
    let y := kr * r + (1 - kr - kb) * g + kb * b
    (y, (b - y) / (2 * (1 - kb)), (r - y) / (2 * (1 - kr)))

/-- Codes Cb, Y0, Cr, Y1 of a pair at `n` = 8 or 10 bits (R271, R279). -/
def pairCodes (mono : Bool) (cp : RegFile) (n : Nat) (p q : Rgb) : List Nat :=
  let std := cp.flag Reg.CP_CFG_YSTD
  let (y0, b0, r0) := ycc mono std p
  let (y1, b1, r1) := ycc mono std q
  let k : Rat := ((2 ^ (n - 8) : Nat) : Rat)
  let full := cp.flag Reg.CP_CFG_YFULL
  let top : Int := 2 ^ n - 1
  let lum (y : Rat) : Nat := (clampI 0 top (roundRat (if full then (top : Rat) * y else 16 * k + 219 * k * y))).toNat
  let chr (c : Rat) : Nat := (clampI 0 top (roundRat (if full then 128 * k + (top : Rat) * c else 128 * k + 224 * k * c))).toNat
  [chr ((b0 + b1) / 2), lum y0, chr ((r0 + r1) / 2), lum y1]

/-- A line's pixels in pairs, the last one repeated (R271). -/
def pairs : List Rgb → List (Rgb × Rgb)
  | [] => []
  | [p] => [(p, p)]
  | p :: q :: rest => (p, q) :: pairs rest

/-- The packets of an output row: pixels in each, and its data bytes (R270, R325) (log entry 45). -/
def processedPackets (mono : Bool) (cp : RegFile) (px : List Rgb) : List (Nat × List Byte) :=
  let group (w bytes : Nat) (codes : List Nat) : List Byte :=
    leBytes (ceilDiv (codes.length * w) (8 * bytes) * bytes) (codes.foldr (fun c acc => c + 2 ^ w * acc) 0)
  match cp.fld Reg.CP_CFG_FMT with
  | 0 => (chunks 1088 16 px).map fun c => (c.length, group 10 15 (c.flatMap fun p =>
      [quant 10 p.1, quant 10 p.2.1, quant 10 p.2.2]))
  | 1 => (chunks 908 20 px).map fun c => (c.length, group 12 9 (c.flatMap fun p =>
      [quant 12 p.1, quant 12 p.2.1, quant 12 p.2.2]))
  | _ => (chunks 817 11 (pairs px)).map fun c => (2 * c.length, group 10 5 (c.flatMap fun p => pairCodes mono cp 10 p.1 p.2))

/-- Four 10-bit samples in five bytes, as CSI-2 packs RAW10 and YUV422 10-bit (PRESUMED, log entry 33). -/
def pack10 : List Nat → List Byte
  | a :: b :: c :: d :: rest =>
    [BitVec.ofNat 8 (a / 4), BitVec.ofNat 8 (b / 4), BitVec.ofNat 8 (c / 4), BitVec.ofNat 8 (d / 4),
      BitVec.ofNat 8 (a % 4 + 4 * (b % 4) + 16 * (c % 4) + 64 * (d % 4))] ++ pack10 rest
  | [] => []
  | part => let q := part ++ List.replicate (4 - part.length) 0
            [BitVec.ofNat 8 (q.getD 0 0 / 4), BitVec.ofNat 8 (q.getD 1 0 / 4), BitVec.ofNat 8 (q.getD 2 0 / 4), 0#8,
              BitVec.ofNat 8 (q.getD 0 0 % 4 + 4 * (q.getD 1 0 % 4) + 16 * (q.getD 2 0 % 4))]

/-- Two 12-bit samples in three bytes, as CSI-2 packs RAW12 (PRESUMED, log entry 33). -/
def pack12 : List Nat → List Byte
  | a :: b :: rest =>
    [BitVec.ofNat 8 (a / 16), BitVec.ofNat 8 (b / 16), BitVec.ofNat 8 (a % 16 + 16 * (b % 16))] ++ pack12 rest
  | [a] => [BitVec.ofNat 8 (a / 16), 0#8, BitVec.ofNat 8 (a % 16)]
  | [] => []

/-- The CSI-2 data type of CP_PV.FMT (R279, R337). -/
def previewType (cp : RegFile) : Nat := [0x1E, 0x1F, 0x2B, 0x2C].getD (cp.fld Reg.CP_PV_FMT) 0x2C

/-- A preview line's bytes in the format of CP_PV.FMT (R279) (log entry 33). -/
def previewBytes (mono : Bool) (cp : RegFile) (px : List Rgb) : List Byte :=
  match cp.fld Reg.CP_PV_FMT with
  | 0 => (pairs px).flatMap fun p => (pairCodes mono cp 8 p.1 p.2).map (BitVec.ofNat 8)
  | 1 => pack10 ((pairs px).flatMap fun p => pairCodes mono cp 10 p.1 p.2)
  | 2 => pack10 (px.map fun p => quant 10 p.2.1)
  | _ => pack12 (px.map fun p => quant 12 p.2.1)

/-- The samples that output position `i` of `n` over `len` source samples overlaps, with the overlaps in 1/256 (R278). -/
def overlaps (len n i : Nat) : List (Nat × Nat) :=
  let a := 256 * i * len / n
  let b := 256 * (i + 1) * len / n
  (List.range ((b + 255) / 256 - a / 256)).filterMap fun k =>
    let p := a / 256 + k
    let w := min b (256 * (p + 1)) - max a (256 * p)
    if w = 0 then none else some (p, w)

/-- Preview line `j` of a processed frame (R278). -/
def previewLinePx (mono : Bool) (x : S2Frame) (j : Nat) : List Rgb :=
  let (wo, ho) := outSize x.stored.frame.img (x.img.fld Reg.CP_CFG_PW)
  let (w, h) := previewSize x.img wo ho
  let rows := overlaps ho h j
  (List.range w).map fun i =>
    let cols := overlaps wo w i
    let pts := rows.flatMap fun r => cols.map fun c => (r.2 * c.2, processedPixel mono x c.1 r.1)
    let area := (pts.map (·.1)).sum
    let sum (c : Nat) : Int := sat65535 (roundDiv ((pts.map fun q => (q.1 : Int) * q.2.at c).sum) (max 1 area))
    (sum 0, sum 1, sum 2)

/-- Preview lines that output rows below `j` complete. -/
def previewReady (x : S2Frame) (j : Nat) : Nat :=
  let (wo, ho) := outSize x.stored.frame.img (x.img.fld Reg.CP_CFG_PW)
  let (_, h) := previewSize x.img wo ho
  ((List.range h).filter fun k => decide ((256 * (k + 1) * ho / h + 255) / 256 ≤ j)).length

namespace State

/-! ## Commits and entry (R260 to R262, R274 to R277, R280) -/

/-- CP_COMMIT.GO (R274, R276, R280). -/
def stage2Commit (s : State) : State :=
  let gen := (s.get Reg.CP_GEN_LASTCMT + 1) % 65536
  let off := s.previewOver s.regs s.inForce s.cis.rate
  let s : State := if off then s.set Reg.CP_STAT_PVRATE 1 else s
  let c : Commit := ⟨s.now, gen, s.regs, off, none⟩
  (({ s with cpCommits := s.cpCommits ++ [c] }).set Reg.CP_GEN_LASTCMT gen).set Reg.CP_STAT_PENDING 1

/-- A preview frame is open: its Frame Start is sent and its Frame End is not (R337). -/
def pvOpen (x : S2Frame) : Bool :=
  let o := outSize x.stored.frame.img (x.img.fld Reg.CP_CFG_PW)
  x.pvOn && decide (0 < x.pvLine) && decide (x.pvLine < (previewSize x.img o.1 o.2).2)

/-- The preview port's clock lane goes to its high-speed state, or to the stop state (R336). -/
def pvClock (s : State) (hs : Bool) : State :=
  if s.cis.pvClk = hs then s else ({ s with cis := { s.cis with pvClk := hs } }).emit (.csiClock hs)

/-- Between frames the clock lane is continuous under CONTCLK while the port is powered, else in LP (R336). -/
def pvIdle (s : State) : State :=
  if s.flag Reg.PK_PVPHY_CONTCLK && hasBit (s.get Reg.PM_OTHER_ON) 4 then s else s.pvClock false

/-- The preview port is switched on or off: on, the initial deskew sequence is sent (R336); off, the lanes go to the stop state once no
frame is open. -/
def previewPort (s : State) (on : Bool) : State :=
  if on = hasBit (s.get Reg.PM_OTHER_ON) 4 then s
  else
    let s := s.domSet 4 on
    if on then
      let s : State := ({ s with cis := { s.cis with pvCount := 0 } }).pvClock true
      (s.emit (.csiDeskew true)).pvIdle
    else if s.s2.any pvOpen then s else s.pvIdle

/-- Frame End, and after every DSKPER-th frame the periodic deskew sequence (R336, R337). -/
def previewEnd (s : State) (pvc num : Nat) : State :=
  let n := s.cis.pvCount + 1
  let d := s.get Reg.PK_PVPHY_DSKPER
  let s : State := ({ s with cis := { s.cis with pvCount := n } }).emit (.csi (csiHeader pvc 0x01 num))
  let s : State := if d ≠ 0 ∧ n % d = 0 then s.emit (.csiDeskew false) else s
  s.pvIdle

/-- The processing commits stamped before now reach the frame that enters (R275). -/
def reachStage2 (s : State) : State :=
  match (s.cpCommits.filter fun c => decide (c.stamp < s.now)).getLast? with
  | none => s
  | some c =>
    let rest := s.cpCommits.filter fun c => !decide (c.stamp < s.now)
    let s : State := { s with cpCommits := rest, cpInForce := c.img, cis := { s.cis with pvOff := c.reset } }
    let s : State := (s.set Reg.CP_GEN_INFORCE c.gen).set Reg.CP_STAT_PENDING (if rest.isEmpty then 0 else 1)
    s.previewPort (c.img.flag Reg.CP_PV_EN && s.pllPv && !hasBit s.domLost 4)

/-- The angle of the resample (R269), and whether the readout angle stood in for the latched roll. -/
def resampleTheta (s : State) (cp : RegFile) (f : Frame) (n : Nat) : Int × Bool :=
  let used := thetaOf f.theta n
  if !(f.img.flag Reg.RD_PW_CFG_ROT n && f.img.flag Reg.RD_PW_CFG_ROLL n && cp.flag Reg.CP_CFG_ROLLACT) then (used, false)
  else
    let ch := f.img.fld Reg.RD_PW_CFG_RCH n
    let st := leAt f.latchT (8 * ch + 6) 1 % 8
    if st = csTrack ∨ st = csCoast then
      let pos := sext 32 (leAt f.latchT (8 * ch) 4) * 65536 + (leAt f.latchT (8 * ch + 4) 2 : Nat)
      let d := wrapDiff (s.modulus ch) (pos - f.img.sfld Reg.RD_PW_RP0_RP0 n * 65536)
      (reduceAngle (f.img.sfld Reg.RD_PW_ANG_ANG n + roundDiv (f.img.sfld Reg.RD_PW_ROLL_RGAIN n * d) (2 ^ 32)), false)
    else (used, true)

/-- A frame that stage 2 takes (R261, R262, R269, R279). -/
def enterStage2 (s : State) (x : Stored) : State :=
  let s := s.reachStage2
  let cp := s.cpInForce
  let f := x.frame
  let n := cp.fld Reg.CP_CFG_PW
  let (theta, fb) := s.resampleTheta cp f n
  let s : State := if fb then s.set Reg.CP_STAT_ROLLFB 1 else s
  let (wo, ho) := outSize f.img n
  let s : State := (s.set Reg.CP_OUTSIZE_WO wo).set Reg.CP_OUTSIZE_HO ho
  let pv := cp.flag Reg.CP_PV_EN && !s.cis.pvOff && s.pllPv && f.num % max 1 (cp.fld Reg.CP_PV_DIV) == 0
  let y : S2Frame :=
    { stored := x, pgen := s.get Reg.CP_GEN_INFORCE, img := cp, entered := s.now, rate := s.cis.rate, theta := theta
      nextRow := 0, linked := cp.flag Reg.CP_CFG_LINKEN && !hasBit f.supp 1, pvOn := pv, readAt := none, fills := []
      rowsData := 0, rowsDrop := 0, pvLine := 0, ho := ho }
  { s with s2 := s.s2 ++ [y] }

/-! ## Rows -/

/-- The processed header (R277, R322). -/
def stage2Header (x : S2Frame) : List Byte :=
  let f := x.stored.frame
  let n := x.img.fld Reg.CP_CFG_PW
  let (wo, ho) := outSize f.img n
  let b (c : Nat) (i : Nat) : Nat := c * 2 ^ i
  let hdr := x.stored.hdr
  let core := (hdr.drop 4).take 6 ++ leBytes 2 x.pgen ++ (hdr.drop 12).take 324
  let stream := leBytes 2 wo ++ leBytes 2 ho ++ leBytes 1 (x.img.fld Reg.CP_CFG_FMT) ++
    leBytes 1 (b (x.img.fld Reg.CP_CFG_INTERP) 0 + b (x.img.fld Reg.CP_CFG_YSTD) 1 + b (x.img.fld Reg.CP_CFG_YFULL) 2 +
      b (x.img.fld Reg.CP_CFG_ROLLACT) 3) ++ leBytes 1 1 ++ leBytes 1 0 ++ leBytes 4 (scode 32 x.theta) ++ leBytes 4 0
  f.headerBytes 4 core stream [n]

/-- Frame `num` in stage 2 changed through `g`. -/
def setS2 (s : State) (num : Nat) (g : S2Frame → S2Frame) : State :=
  { s with s2 := s.s2.map fun x => bif x.stored.frame.num == num then g x else x }

/-- The preview of a frame as far as its output rows below `j` go (R279, R337); nothing once PLL_PV has lost lock (R19). -/
def previewRows (s : State) (x : S2Frame) (j : Nat) : State :=
  if !x.pvOn || !s.pllPv then s
  else
    let pvc := x.img.fld Reg.CP_PV_PVC
    let (wo, ho) := outSize x.stored.frame.img (x.img.fld Reg.CP_CFG_PW)
    let h := (previewSize x.img wo ho).2
    let ready := previewReady x j
    let num := s.cis.pvNum.getD pvc 0
    let start := x.pvLine == 0 && decide (0 < ready)
    let num := if start then num % 65535 + 1 else num
    let s : State := if start then
        let s : State := ({ s with cis := { s.cis with pvNum := s.cis.pvNum.set pvc num } }).pvClock true
        (s.emit (.csi (csiHeader pvc 0x00 num))).emit (.csi (csiLong pvc 0x12 ((stage2Header x).take 352)))
      else s
    let s := (List.range (ready - x.pvLine)).foldl (fun (s : State) k =>
      s.emit (.csi (csiLong pvc (previewType x.img) (previewBytes s.mono x.img (previewLinePx s.mono x (x.pvLine + k)))))) s
    let s : State := if x.pvLine < ready ∧ ready = h then s.previewEnd pvc num else s
    s.setS2 x.stored.frame.num fun y => { y with pvLine := ready }

/-- Output row `j` of a frame on the links (R270, R272) (log entry 45). -/
def stage2Row (s : State) (x : S2Frame) (j : Nat) (bad : Bool) : State :=
  let num := x.stored.frame.num
  let v := x.img.fld Reg.CP_CFG_VC
  let (wo, _) := outSize x.stored.frame.img (x.img.fld Reg.CP_CFG_PW)
  let s : State := if x.linked && j == 0 then s.sendHeader v num (stage2Header x) else s
  let s : State := if !x.linked then s
    else
      let px := (List.range wo).map fun i => if bad then ((0, 0, 0) : Rgb) else processedPixel s.mono x i j
      let dt := if x.img.fld Reg.CP_CFG_FMT < 2 then 0x30 else 0x31
      let parts := processedPackets s.mono x.img px
      (parts.foldl (fun (a : State × Nat) p =>
        let data := if bad then List.replicate p.2.length 0#8 else p.2
        let head := leBytes 1 0 ++ leBytes 1 (if bad then 0x71 else 0) ++ leBytes 2 j ++ leBytes 2 a.2 ++ leBytes 2 p.1
        ((a.1.build v dt num (head ++ data) false true true).1, a.2 + p.1)) (s, 0)).1
  let s := s.setS2 num fun y => { y with
    nextRow := j + 1
    rowsData := if bad then y.rowsData else y.rowsData + 1
    fills := if bad then y.fills ++ [⟨7, 3, false, 0, 0, j, j⟩] else y.fills }
  match s.s2.find? fun y => y.stored.frame.num == num with
  | some y => s.previewRows y (j + 1)
  | none => s

/-- Every output row of a processed frame has been sent. -/
def stage2Done (x : S2Frame) : Bool :=
  x.nextRow == x.ho && x.readAt.isSome

/-- The closing sequence of a processed frame (R264, R272, R320). -/
def closeStage2 (s : State) (x : S2Frame) : State :=
  let f := x.stored.frame
  let v := x.img.fld Reg.CP_CFG_VC
  let n := x.img.fld Reg.CP_CFG_PW
  let s := s.sendExposureMap f v (winHas f.img n (thetaOf f.theta n))
  let raster := s.rawFills x.stored ++ memFills x.stored
  let es := listedFills (raster ++ x.fills)
  let s : State := if es.isEmpty then s else s.sendFills v f.num es
  let complete := !raster.any (fun e => e.cause == 15 || e.cause == 6 || e.cause == 7) && x.rowsDrop == 0 &&
    !es.any (·.cause == 15)
  let bad := (x.fills.filter (·.cause == 7)).length
  let s := s.sendFooter f 4 v x.pgen es (x.rowsData - x.rowsDrop) bad x.rowsDrop (x.readAt.getD s.now)
    (es.any (·.cause == 7)) complete
  State.releaseHeaders { s with s2 := s.s2.filter fun y => y.stored.frame.num != f.num }

/-- Frames that stage 2 has done with and that go nowhere leave it. -/
def retireStage2 (s : State) : State := { s with s2 := s.s2.filter fun x => !(stage2Done x && !x.linked) }

end State

/-- STAGE2_COMMIT (R23, R25, R27, R274): CP_COMMIT.GO from the live-parameter source. -/
def execStage2Commit (s : State) : Outcome State Fault Refusal := ok (s.liveWrite s.stage2Commit)

/-- STAGE2_ENTRY (R260, R261, R275, R282): the oldest read-out frame that stage 2 has not seen. Without PD_S2 it is not
processed (Table 14-6), and in STANDBY no frame enters (log entry 45). -/
def execStage2Entry (s : State) : Outcome State Fault Refusal :=
  match s.frames.find? fun f => decide (3 ≤ f.phase) && !f.s2Asked with
  | none => ok s
  | some f =>
    if !f.raster.isEmpty then ok s
    else
      let x := s.cis.s2Due.find? fun x => x.frame.num == f.num
      let s : State := { s with cis := { s.cis with s2Due := s.cis.s2Due.filter fun x => x.frame.num != f.num } }
      let s := (s.setFrame f.num fun (g : Frame) => { g with s2Asked := true }).retireFrames
      if !s.running then ok s
      else
        let cp := ((s.cpCommits.filter fun c => decide (c.stamp < s.now)).getLast?.map (·.img)).getD s.cpInForce
        let win := procWin cp f.img
        match x, win with
        | some x, true =>
          if hasBit s.domLost 3 then ok (s.bump Reg.CP_CNT_NOPROC) else if s.dev = .run then ok (s.enterStage2 x) else ok s
        | _, _ =>
          let s := s.bump Reg.CP_CNT_NOPROC
          let s : State := if win then s else s.set Reg.CP_STAT_NOWIN 1
          ok (if hasBit f.admis 2 then s else s.set Reg.CP_STAT_NOTADM 1)

/-- STAGE2_ROW_OUT (R247, R261, R270 to R272, R281): the next output row of the oldest unfinished frame, once the cistern serves
the read behind it. `err` is 1 for an uncorrectable error in a line store, 2 for one in a tone curve. A frame's header waits for
the close of the frame before it (R320). Of a frame whose stored rows are lost (R258) the rows go out as MEMERR fill (log
entry 83). -/
def execStage2RowOut (err : Nat) (s : State) : Outcome State Fault Refusal :=
  match s.s2Next with
  | none => ok s
  | some x =>
    if !s.running || !s.serves 2 then ok s
    else
      let s := s.tookShare 2 (s.interval / (max 1 x.ho : Nat))
      let s : State := if err = 2 then s.set Reg.CP_STAT_MEMUNC 1 else s
      ok ((s.stage2Row x x.nextRow (err == 1 || err == 2 || x.stored.rows.isEmpty)).retireStage2)

/-- STAGE2_READ_END (R261): the paced read of the oldest frame ends, 1/R − 10 µs after its entry. -/
def execStage2ReadEnd (s : State) : Outcome State Fault Refusal :=
  match s.s2.find? (·.readAt.isNone) with
  | none => ok s
  | some x =>
    ok (if (s.now + 10000 - x.entered) * x.rate.2 < x.rate.1 then s
      else (s.setS2 x.stored.frame.num fun y => { y with readAt := some s.now }).retireStage2)

/-- FRAME_CLOSE (R320): on VC `v`, every data packet of the frame under way has left or been dropped; its closing sequence is
sent. -/
def execFrameClose (v : Nat) (s : State) : Outcome State Fault Refusal :=
  if !s.running then ok s
  else
    let s := s.accountDrops
    let raw := s.frames.find? fun f => decide (3 ≤ f.phase) && f.counts.any fun c => c.vc == v && !c.closed
    match raw with
    | some f => ok (if s.vcDone f v && !s.queued v f.num then s.closeRaw f v else s)
    | none =>
      match s.cis.out.filter (·.vc == v) with
      | some o => ok (if s.queued v o.stored.frame.num then s else s.closeOut o)
      | none =>
        match s.s2.find? fun x => x.linked && x.img.fld Reg.CP_CFG_VC == v with
        | some x => ok (if State.stage2Done x && !s.queued v x.stored.frame.num then s.closeStage2 x else s)
        | none => ok s

/-! ## The CRC units in test (R330, R331) -/

/-- CE_TEST_SET (R25, R27, R331): a write of `v` to CE_CTL. TEST can be set in STANDBY only. -/
def execCeTestSet (v : Word) (s : State) : Outcome State Fault Refusal :=
  ok (s.mainWrite ((s.set Reg.CE_CTL_SEL (fieldOf v 1 2)).set Reg.CE_CTL_TEST
    (if s.dev = .standby then fieldOf v 0 1 else 0)))

/-- CE_DATA_WRITE (R25, R27, R331): in TEST, the 4 bytes of `v` go into unit SEL, CE0 to CE2; SEL 3 is used as 2. -/
def execCeDataWrite (v : Word) (s : State) : Outcome State Fault Refusal :=
  let n := min 2 (s.get Reg.CE_CTL_SEL)
  ok (s.mainWrite (if s.flag Reg.CE_CTL_TEST then
    s.set Reg.CE_VAL_VAL (crc32Run (s.get Reg.CE_VAL_VAL n) (leBytes 4 v.toNat)) n else s))

/-- CE_VAL_WRITE (R25, R27, R331): in TEST, the running value of CE0 to CE2. -/
def execCeValWrite (n : Nat) (v : Word) (s : State) : Outcome State Fault Refusal :=
  ok (s.mainWrite (if s.flag Reg.CE_CTL_TEST && decide (n < 3) then s.set Reg.CE_VAL_VAL v.toNat n else s))

end Sys2Proof.Machine
end

