-- ==== Sys2Proof/Machine/Tracking.lean ====
section
/-! DEFINITION. Tracking windows, sub-exposures, tracking reads and results, the pointing channels, the pointing guard and its
port (06_tracking_and_pointing.md R179 to R203; 15_safety_partition.md R416 to R421), and the triggers held pending of
R103. -/
namespace Sys2Proof.Machine

open Host (Outcome)

/-! ## Pointing guard and port (R197 to R201, R416 to R421) -/

/-- A port message put in its place: by the instant it fell due, then by channel (R198). -/
def insertMsg (m : PortMsg) : List PortMsg → List PortMsg
  | [] => [m]
  | x :: xs =>
    if m.due < x.due ∨ (m.due = x.due ∧ m.chan < x.chan) then m :: x :: xs else x :: insertMsg m xs

/-- The 16 bytes of a pointing message (Table 6-4). -/
def pointingBytes (alive chan flags : Nat) (pan tilt : Int) (conf age : Nat) : List Byte :=
  let body := leBytes 1 alive ++ leBytes 1 chan ++ leBytes 2 flags ++ leBytes 4 (scode 32 pan) ++ leBytes 4 (scode 32 tilt) ++
    leBytes 1 conf ++ leBytes 1 age
  body ++ leBytes 2 (crc16 body)

namespace State

/-- Guard channel `n`. -/
def guardCh (s : State) (n : Nat) : GuardCh := s.safety.guard.getD n GuardCh.init

/-- Guard channel `n` changed through `f`. -/
def setGuard (s : State) (n : Nat) (f : GuardCh → GuardCh) : State :=
  { s with safety := { s.safety with guard := listModify s.safety.guard n f } }

/-- Channel `n` is served (R416) (log entry 51). -/
def served (s : State) (n : Nat) : Bool := s.flag Reg.SP_PG_CFG_SERVE n

/-- The GPER of channel `n` in ns (R418) (log entry 48). -/
def gper (s : State) (n : Nat) : Nat := 1000 * max 125 (s.get Reg.SP_PG_CFG_GPER n)

/-- A message queued for the port. -/
def portAdd (s : State) (m : PortMsg) : State :=
  { s with safety := { s.safety with port := insertMsg m s.safety.port } }

/-- A HOLD message of channel `n` queued (R421); the next message is limited from zero error (R199). -/
def sendHold (s : State) (n : Nat) (own : Bool) : State :=
  (s.setGuard n fun g => { g with pan := 0, tilt := 0 }).portAdd ⟨s.up, n, true, own, 0, 0, 0, 0, none⟩

/-- Channel `n` begins to hold on the guard's own account for a reason, with one HOLD message at once, in place of an own-account one
that still waits (R418, R419) (log entry 48). -/
def beginHold (s : State) (n why : Nat) : State :=
  let s := s.setGuard n fun g => { g with hold := why, nextHold := s.up + s.gper n }
  let s : State := { s with safety := { s.safety with port := s.safety.port.filter fun m => !(m.chan == n && m.own) } }
  ((s.set Reg.SP_PG_STAT_HOLDING 1 n).sendHold n true).raiseIbi 4

/-- Every served channel holds (R201, R419), in ascending order. -/
def holdAll (s : State) (why : Nat) : State :=
  (List.range 4).foldl (fun s n => if s.served n then s.beginHold n why else s) s

/-- One error limited to ±`mag`, and then to `slew` from the last one (R199); which limits acted. -/
def limitError (e last : Int) (mag slew : Nat) : Int × Bool × Bool :=
  let m := clampI (-(mag : Int)) mag e
  let l := clampI (last - slew) (last + slew) m
  (l, m != e, l != m)

/-- The CRC of a message agrees with its bytes (R197, R199). -/
def messageOk (m : List Byte) : Bool := leAt m 14 2 == crc16 (m.take 14)

/-- The 16-byte message `m` of the main logic reaches the guard (R199, R200, R416 to R420): it is turned away where its CRC fails or
its alive counter repeats (log entry 48). `tmid` is the TMID that its AGE is measured from. -/
def guardIn (s : State) (n : Nat) (m : List Byte) (tmid : Option Nat) : State :=
  if s.stopped then s
  else if !s.served n then s.bump Reg.SP_PG_STAT_REJCNT 1 n
  else
    let alive := leAt m 0 1
    let flags := leAt m 2 2
    let pan := sext 32 (leAt m 4 4)
    let tilt := sext 32 (leAt m 8 4)
    let conf := leAt m 12 1
    let g := s.guardCh n
    let bad := !messageOk m || g.inAlive == some alive
    let stale := if bad then g.stale else if hasBit flags 1 then 0 else g.stale + 1
    let ownNow : Bool := s.safety.port.any fun m => m.chan == n && m.own && m.due == s.up
    let s : State := s.setGuard n fun g => { g with
      lastMsg := s.up, inAlive := if messageOk m then some alive else g.inAlive, stale := stale
      gaps := g.gaps + (if bad then 0 else (g.inAlive.map fun b => (alive + 255 - b) % 256).getD 0) }
    let s : State := if bad then s.bump Reg.SP_PG_STAT_REJCNT 1 n else s
    if bad || decide (3 ≤ stale) || (g.hold == 1 && s.dev != .run) then
      let s := s.setGuard n fun g => { g with nextHold := s.up + s.gper n }
      if ownNow then s else s.sendHold n false
    else
      let s : State := { s with safety := { s.safety with
        port := s.safety.port.filter fun m => !(m.chan == n && m.own && m.due == s.up) } }
      let mag := s.get Reg.SP_PG_MAG_MAGMAX n
      let slew := s.get Reg.SP_PG_SLEW_SLEWMAX n
      let (p, pm, ps) := limitError pan g.pan mag slew
      let (t, tm, ts) := limitError tilt g.tilt mag slew
      let fl := if pm || tm then withBit flags 3 else flags
      let fl := if ps || ts then withBit fl 4 else fl
      let s : State := s.setGuard n fun g => { g with hold := 0, pan := p, tilt := t }
      (s.set Reg.SP_PG_STAT_HOLDING 0 n).portAdd ⟨s.up, n, false, false, fl, p, t, conf, tmid⟩

/-- The AGE byte of a message (Table 6-4): 255 for HOLD; a STALE message that repeats no fix has an AGE that spec/ does not
state (log entry 2). -/
def portAge (s : State) (m : PortMsg) : State × Nat :=
  if m.hold then (s, 255)
  else match m.tmid with
    | some t => (s, min 255 ((s.now + 2 ^ 32 - t % 2 ^ 32) % 2 ^ 32 / 4000))
    | none => (s.takeFree.2, s.takeFree.1.toNat)

/-- Message `m` leaves the port, and `rest` waits: 128 clock periods and a gap of 8 (R197, R198) (log entry 48). -/
def sendPort (s : State) (m : PortMsg) (rest : List PortMsg) : State :=
  let a := (s.get Reg.SP_PG_STAT_OALIVE m.chan + 1) % 256
  let p := s.portAge m
  let flags := if m.hold then (if s.stopped then 129 else 1) else m.flags
  let s := p.1.set Reg.SP_PG_STAT_OALIVE a m.chan
  let s : State := { s with safety := { s.safety with port := rest, portFree := s.up + 8500 } }
  s.emit (.pointing (pointingBytes a m.chan flags m.pan m.tilt m.conf p.2))

end State

/-- POINTING_MESSAGE_SEND (R197, R198, R417, R421): once the port is free the next message starts. -/
def execPointingMessageSend (s : State) : Outcome State Fault Refusal :=
  match s.safety.port with
  | [] => ok s
  | m :: rest =>
    ok (if s.up < s.safety.portFree ∨ s.dev = .off ∨ s.dev = .safeBoot then s else s.sendPort m rest)

/-- GUARD_TIMEOUT (R418): TOUT µs without a message of a served channel in RUN or STANDBY; a message in the cycle in which they expire wins
(R420). -/
def execGuardTimeout (n : Nat) (s : State) : Outcome State Fault Refusal :=
  let g := s.guardCh n
  ok (if n < 4 ∧ s.running ∧ s.served n ∧ g.hold = 0 ∧ g.lastMsg + 1000 * max 250 (s.get Reg.SP_PG_TOUT_TOUT n) < s.up then
      (s.bump Reg.SP_PG_STAT_TOUTCNT 1 n).beginHold n 2
    else s)

/-- GUARD_HOLD_PERIOD (R418): GPER has passed on a channel that holds on the guard's own account. -/
def execGuardHoldPeriod (n : Nat) (s : State) : Outcome State Fault Refusal :=
  let g := s.guardCh n
  ok (if n < 4 ∧ s.dev ≠ .off ∧ s.dev ≠ .safeBoot ∧ s.served n ∧ g.hold ≠ 0 ∧ g.nextHold ≤ s.up then
      (s.setGuard n fun g => { g with nextHold := s.up + s.gper n }).sendHold n true
    else s)

/-! ## Sub-exposures (R180 to R187) -/

namespace State

/-- The division that governs the reads of block `b` (R150, R391). -/
def blockDiv4 (s : State) (b : Nat) : Nat := s.regionDiv4 (blockRegion b)

/-- Tap B of cell `c` still belongs to a picture that has not been read (R131): until its last row has been read, or where it has none to
read, to the end of the readout. -/
def tapBHeld (s : State) (c : Nat) : Bool :=
  !s.unitFailed c && s.frames.any fun f => decide (f.phase < 3) && twoTaps f.img && !f.tracks c &&
    !((s.cellRt c).frame == f.num && (s.cellRt c).next == f.rowIds.length && (s.cellRt c).conv.isNone)

/-- The frame that a sub-exposure starting now is attributed to, the boot settings before the first (R180). -/
def trackMark (s : State) : ArmMark := (markAt s.expo.armed s.now).getD ⟨0, 0, 0, s.inForce⟩

/-- The windows that entry `m` names in settings `img`: those enabled, and how many are not (R182). -/
def planWins (img : RegFile) (m : Nat) : List Nat × Nat :=
  let named := bitsOf 64 (planMask img m)
  let on := named.filter fun w => img.flag Reg.TK_W_CFG_EN w
  (on, named.length - on.length)

/-- The cells of windows (R181). -/
def winsCells (img : RegFile) (ws : List Nat) : List Nat := (ws.flatMap (twCells img)).eraseDups

/-- The cells of the sub-exposure that entry `m` starts now. -/
def planCells (s : State) (m : Nat) : List Nat :=
  let img := s.trackMark.img
  if img.flag Reg.TK_PLAN_CFG_EN m then winsCells img (planWins img m).1 else []

/-- A cell of the list is busy at `t` for another sub-exposure (R184), and whether its tap B is the picture's (R131). -/
def trackBusy (s : State) (cells : List Nat) (t : Nat) : Bool × Bool :=
  let own := cells.any fun c => s.trk.subs.any (·.cells.contains c) ||
    s.trk.cellFree.any fun e => e.1 == c && decide (t < e.2)
  let pic := cells.any s.tapBHeld
  (own || pic, pic)

/-- FLUSH B for the START_TRACK of slot `n` has ended, with the 40 ns of a STEER, in every cell of `cells` (Table 6-1, R47). -/
def subFlushed (s : State) (n : Nat) (cells : List Nat) : Bool :=
  s.trk.flush.any fun e => e.1 == n && decide (e.2.1 + 340 ≤ s.now) && cells.all e.2.2.contains

/-- The START_TRACK whose FLUSH B is due: that of a slot that executes at most 340 ns ahead or is held pending, once tap B of all
its cells is free (R47, R184, Table 6-1). -/
def flushSub (s : State) : Option State :=
  let due (n : Nat) : Bool :=
    let x := s.slot n
    let cells := s.planCells x.arg
    x.action == 3 && ((s.sstate n == ssCommitted && decide (x.te ≤ s.now + 340)) || s.sstate n == ssPending) &&
      !cells.isEmpty && !(s.trk.flush.any fun e => e.1 == n && cells.all e.2.2.contains) && !(s.trackBusy cells (s.now + 340)).1
  if s.dev ≠ .run then none
  else ((List.range 64).find? due).map fun n => { s with trk := { s.trk with
    flush := s.trk.flush.filter (·.1 != n) ++ [(n, s.now, s.planCells (s.slot n).arg)] } }

/-- A sub-exposure of these windows is dropped or skipped: their pairs are broken (R190). -/
def breakPairs (s : State) (ws : List Nat) : State :=
  { s with trk := { s.trk with broken := ws ++ s.trk.broken.filter fun w => !ws.contains w } }

/-- Tap A of cell `c` is exposing for frame `f`: of one of its rows at least in cell-rolling mode (R183, R187). -/
def tapARunning (s : State) (f : Frame) (c : Nat) : Bool :=
  let k := f.cellClass c
  let last := if shutter f.img = 3 then slotStart f.img f.strip f.gains f.div f.tRd (f.rowIds.length - 1) else 0
  k.use && f.released.contains (f.clsOf c) && decide (k.start ≤ s.now ∧ s.now < k.start + k.dur + last)

/-- Step 3 of Table 6-1: at the start of a sub-exposure of `dur` ns, STEER A takes the charge of the tap A exposures that run in
its cells. -/
def steerSubs (s : State) (cells : List Nat) (dur : Nat) : State :=
  { s with frames := s.frames.map fun (f : Frame) =>
    let run := cells.filter (s.tapARunning f)
    if run.isEmpty then f else { f with subSteers := f.subSteers ++ [(s.now, s.now + dur, run)] } }

/-- The sub-exposure of slot `n` with plan entry `m` starts in all its cells, `late` ns after its schedule (R180 to R184). -/
def trackStart (s : State) (n m late : Nat) (wins cells : List Nat) : State :=
  let k := s.trackMark
  let img := k.img
  let dead := cells.filter s.unitFailed
  let sub : SubExp :=
    { id := s.trk.nextId, plan := m, slot := n, te := s.now, dur := 10 * max 20 (img.fld Reg.TK_PLAN_CFG_DUR m)
      late := late, frame := k.num, gen := k.gen, img := img
      wins := wins, span := cells, cells := cells.filter fun c => !dead.contains c, ended := false
      data := dead.map fun c => (c, []), done := [], broken := wins.filter s.trk.broken.contains }
  let s : State := { s with trk := { s.trk with
    nextId := s.trk.nextId + 1
    subs := s.trk.subs ++ [sub]
    cellFree := cells.map (fun c => (c, s.now + 125000)) ++ s.trk.cellFree.filter fun e => !cells.contains e.1
    flush := s.trk.flush.filter fun e => !(e.1 == n || cells.any e.2.2.contains)
    broken := s.trk.broken.filter fun w => !wins.contains w } }
  let s := s.steerSubs sub.cells sub.dur
  let s : State := if 0 < late then s.bump Reg.TK_CNT_LATECNT else s
  let pin := img.fld Reg.TK_PLAN_CFG_STRBPIN m
  if img.flag Reg.TK_PLAN_CFG_STRBEN m && decide (pin < 24) then
    ({ s with trk := { s.trk with strobes := (pin, s.now + sub.dur) :: s.trk.strobes } }).drivePin 4 pin true
  else s

/-- A lower-numbered START_TRACK slot that is to execute in this cycle shares a cell with `cells` (R184). -/
def sharedLower (s : State) (n : Nat) (cells : List Nat) : Bool :=
  s.lowerDue n fun x => x.action == 3 && (s.planCells x.arg).any cells.contains

/-- The START_TRACK of slot `n` finds its cells free, but their FLUSH B has not ended (log entry 88). -/
def flushAwaited (s : State) (n : Nat) : Bool :=
  let cells := s.planCells (s.slot n).arg
  !cells.isEmpty && !(s.trackBusy cells s.now).1 && !s.subFlushed n cells

/-- A START_TRACK execution of slot `n`; `held` marks one that was held pending (R182 to R184). Where its cells are free but their
FLUSH B has not ended it waits for that (log entry 88). -/
def trackSlot (s : State) (n : Nat) (held : Bool) : State :=
  let x := s.slot n
  let m := x.arg
  let img := s.trackMark.img
  let late := if held then s.now - x.ts else s.slotLate n
  if !img.flag Reg.TK_PLAN_CFG_EN m then (s.bump Reg.TK_CNT_NOWIN).slotDone n late false
  else
    let (wins, off) := planWins img m
    let cells := winsCells img wins
    let (own, pic) := s.trackBusy cells s.now
    let busy := own || s.sharedLower n cells || (!held && s.pendingOn n slotResource (0x500 + m))
    if (held && busy) || (!busy && s.flushAwaited n) then s
    else
      let s : State := if pic then s.set Reg.EX_STAT_TAPBWAIT 1 else s
      if busy then
        let t := s.slotBusy n false
        if t.sstate n = ssPending then t else t.breakPairs wins
      else
        let s := s.bump Reg.TK_CNT_NOWIN off
        let s := s.breakPairs ((bitsOf 64 (planMask img m)).filter fun w => !wins.contains w)
        let s : State := if cells.isEmpty then s else s.trackStart n m late wins cells
        (s.claim (0x500 + m)).slotDone n late false

end State

/-- FLUSH (R45, R47, R131, R183, R185, Tables 4-5 to 4-8 and 6-1): a tap of the picture, or tap B of the cells of a sub-exposure, is
flushed, once for each exposure that it collects and once nothing in it is still to be read; it takes 300 ns (log entry 88). -/
def execFlush (tapB : Bool) (s : State) : Outcome State Fault Refusal :=
  match s.flushPicture tapB with
  | some t => ok t
  | none =>
    if tapB then
      match s.flushSub with
      | some t => ok t
      | none => ok s
    else ok s

/-- START_TRACK (R182 to R184, R88, R90, R104, R388). -/
def execStartTrack (n : Nat) (s : State) : Outcome State Fault Refusal :=
  if !s.slotDue n 3 then ok s
  else
    let x := s.slot n
    let wins := (State.planWins s.trackMark.img x.arg).1
    if s.dev ≠ .run ∨ hasBit s.domLost 0 then ok (s.slotDone n (s.slotLate n) false)
    else if s.slotStrictLate n then ok ((s.slotEnd n true).breakPairs wins)
    else if s.flushAwaited n then ok s
    else
      let (s, go) := s.thinTrack n
      if !go then ok ((s.slotDone n (s.slotLate n) true).breakPairs wins)
      else if s.collides n (0x500 + x.arg) then
        let t := s.slotBusy n true
        ok (if t.sstate n = ssPending then t else t.breakPairs wins)
      else ok (s.trackSlot n false)

/-- SUBEXPOSURE_END (R183): STEER B of the sub-exposure that ends first completes, and its strobe goes low. -/
def execSubexposureEnd (s : State) : Outcome State Fault Refusal :=
  match s.trk.subs.find? (fun x => !x.ended && decide (x.te + x.dur ≤ s.now)) with
  | none => ok s
  | some x =>
    let subs := s.trk.subs.map fun y => if y.id == x.id then { y with ended := true } else y
    let s : State := { s with trk := { s.trk with subs := subs, past := s.trk.past ++ [(x.te, x.te + x.dur, x.span)] } }
    let pin := x.img.fld Reg.TK_PLAN_CFG_STRBPIN x.plan
    if x.img.flag Reg.TK_PLAN_CFG_STRBEN x.plan && decide (pin < 24) then
      let rest := s.trk.strobes.erase (pin, x.te + x.dur)
      let s : State := { s with trk := { s.trk with strobes := rest } }
      ok (if rest.any (·.1 == pin) then s else s.drivePin 4 pin false)
    else ok s

/-- TRACK_READ_PENDING (R188, R149): the read of cell `c` becomes pending 70 ns × k after STEER B, k its place among the
sub-exposure's cells of its block, and takes the converter next; in cell-rolling mode after the row under conversion (R144) (log
entry 82). -/
def execTrackReadPending (c : Nat) (s : State) : Outcome State Fault Refusal :=
  let b := cellBlock c
  let rt := s.cellRt c
  let free (x : SubExp) : Bool :=
    x.ended && x.cells.contains c && !rt.trackWait.contains x.id && !(rt.trackNow.any (·.1 == x.id))
  match s.trk.subs.find? free with
  | none => ok s
  | some x =>
    let k := (x.span.filter fun d => cellBlock d == b && decide (cellLocal d < cellLocal c)).length
    if s.now < x.te + x.dur + ceilDiv (70 * k * s.blockDiv4 b) 4 then ok s
    else
      let rolling := rt.conv.isSome && s.reading.any fun f => shutter f.img == 3
      ok (s.setCell c fun y => if y.trackNow.isNone && !rolling then { y with trackNow := some (x.id, s.now) }
      else { y with trackWait := y.trackWait ++ [x.id] })

namespace State

/-- The oldest picture entries of a cell queue are discarded until `need` bytes fit (R167); the fuel is the queue's length. No room
is kept for the entries of a row that is under conversion (log entry 80). -/
def makeRoom (s : State) (c bits need : Nat) : Nat → State
  | 0 => s
  | fuel + 1 =>
    if s.queueBytes c bits + need ≤ 512 then s
    else match (s.cellRt c).queue.find? fun e => !e.track && !e.codes.isEmpty with
      | none => s
      | some e =>
        let s := s.setCell c fun x => { x with queue := x.queue.map fun d => if d == e then { d with codes := [] } else d }
        let s : State := (s.bump Reg.RD_CNT_OVFROWS).bump Reg.BLK_STAT_OVFCNT 1 (cellBlock c)
        let s := s.setFrame e.frame fun f => { f with ovf := withBit f.ovf (cellBlock c) }
        makeRoom (s.setFault 0) c bits need fuel

end State

/-- TRACK_READ_DONE (R56, R149, R166, R167, R188): the 64 conversions of the read under way in cell `c` end; its entry is
always written, and a row that it interrupted goes on. -/
def execTrackReadDone (c : Nat) (codes : List Nat) (s : State) : Outcome State Fault Refusal :=
  match (s.cellRt c).trackNow with
  | none => ok s
  | some (id, t0) =>
    let len := 6400 * s.blockDiv4 (cellBlock c)
    if s.now < t0 + len then ok s
    else match s.trk.subs.find? (·.id == id) with
      | none => ok (s.setCell c fun x => { x with trackNow := none })
      | some x =>
        let bits := match s.frame (s.cellRt c).frame with
          | some f => rawBits f.img
          | none => 14
        let lcg := x.img.flag Reg.TK_PLAN_CFG_GAIN x.plan
        let e : Entry := ⟨c, id, true, 0, true, lcg, (List.range 64).map fun i => min 16383 (codes.getD i 0)⟩
        let s := s.makeRoom c bits 112 (s.cellRt c).queue.length
        let s := (s.queueEntries c [e]).setCell c fun y => { y with
          conv := y.conv.map fun v => (v.1, v.2 + len)
          trackNow := y.trackWait.head?.map fun i => (i, s.now)
          trackWait := y.trackWait.tail }
        ok { s with trk := { s.trk with
          subs := s.trk.subs.map fun y => if y.id == id then { y with cells := y.cells.erase c } else y } }

/-! ## Results (R189 to R193) -/

/-- A sample of a window: half-pixel coordinates (R179), value in 1/16 code, raw code at full scale, outermost. -/
structure TrackSample where
  x2 : Nat
  y2 : Nat
  v : Int
  sat : Bool
  edge : Bool
  deriving DecidableEq, Repr

/-- The sums of R191 over samples above `th`, in half-pixel coordinates and 1/16 codes. -/
structure TrackSums where
  s0 : Int
  sx : Int
  sy : Int
  sxx : Int
  syy : Int
  sxy : Int
  area : Nat
  peak : Int
  edge : Bool
  sat : Bool
  deriving DecidableEq, Repr

/-- One sample into the sums (R191). -/
def TrackSums.add (th : Int) (a : TrackSums) (p : TrackSample) : TrackSums :=
  let a := { a with peak := max a.peak p.v, sat := a.sat || p.sat }
  let w := p.v - th
  if 0 < w then
    { a with
      s0 := a.s0 + w, sx := a.sx + w * p.x2, sy := a.sy + w * p.y2, sxx := a.sxx + w * p.x2 * p.x2
      syy := a.syy + w * p.y2 * p.y2, sxy := a.sxy + w * p.x2 * p.y2, area := a.area + 1, edge := a.edge || p.edge }
  else a

/-- The sums of a window's samples (R191). -/
def trackSums (th : Int) (ps : List TrackSample) : TrackSums :=
  ps.foldl (TrackSums.add th) ⟨0, 0, 0, 0, 0, 0, 0, 0, false, false⟩

/-- A second moment in 1/16 pixel² from half-pixel sums (R191): 16/4 × (sab/s0 − sa·sb/s0²) (log entry 6). -/
def trackMoment (sab sa sb s0 : Int) : Int := roundDiv (4 * (sab * s0 - sa * sb)) (s0 * s0).toNat

/-- The confidence of R192 from the sums, in 1/16 codes. -/
def trackConf (a : TrackSums) (sref amin amax : Nat) : Nat :=
  if a.area = 0 then 0
  else
    let c := if sref = 0 then 255 else min 255 (255 * a.s0.toNat / (16 * 256 * sref))
    let c := if a.area < amin ∨ amax < a.area then c / 2 else c
    let c := if a.edge then c / 2 else c
    if a.sat then c / 2 else c

/-- The samples of window `w` in a list of values by cell, 64 a cell (R56, R179). -/
def winSamples (img : RegFile) (w : Nat) (vals : List (Int × Bool)) : List TrackSample :=
  let cells := twCells img w
  let xs := cells.map cellX
  let ys := cells.map cellY
  let x0 := xs.foldl min (xs.headD 0)
  let x1 := xs.foldl max 0
  let y0 := ys.foldl min (ys.headD 0)
  let y1 := ys.foldl max 0
  let at' (c i : Nat) : Nat × Nat := (8 * cellX c + i % 8, 8 * cellY c + i / 8)
  let places := cells.flatMap fun c => (List.range 64).map (at' c)
  (places.zip vals).map fun (p, v) =>
    { x2 := 16 * p.1 + 7, y2 := 16 * p.2 + 7, v := v.1, sat := v.2
      edge := p.1 == 8 * x0 || p.1 == 8 * x1 + 7 || p.2 == 8 * y0 || p.2 == 8 * y1 + 7 }

namespace State

/-- The values of window `w` in a sub-exposure after the trim of stage 1's first step (R189, R207): zero for failed cells (log entry
47). -/
def subValues (s : State) (x : SubExp) (w : Nat) : List (Int × Bool) :=
  (twCells x.img w).flatMap fun c =>
    let codes := if s.unitFailed c then [] else ((x.data.find? (·.1 == c)).map (·.2)).getD []
    let (ofs, tg) := s.cellTrim (cellBlock c) (cellLocal c)
    (List.range 64).map fun i => match codes[i]? with
      | some (k : Nat) => (if x.img.flag Reg.S1_CFG_TRIMEN then trimSample ofs tg (16 * (k : Int)) else 16 * (k : Int), k == 16383)
      | none => (0, false)

/-- The record of Table 6-3 (R191 to R193). -/
def trackRecord (x : SubExp) (w : Nat) (ps : List TrackSample) (peakprev tmid : Nat) (diff fail late : Bool) :
    List Byte × Bool × Nat :=
  let img := x.img
  let tth := img.fld Reg.TK_W_TH_TH w
  let th := if img.flag Reg.TK_W_CFG_ADAPT w then max tth (peakprev * img.fld Reg.TK_W_TH_REL w / 256) else tth
  let a := trackSums (16 * th) ps
  let conf := trackConf a (img.fld Reg.TK_W_Q_SREF w) (img.fld Reg.TK_W_AREA_AMIN w) (img.fld Reg.TK_W_AREA_AMAX w)
  let valid := decide (1 ≤ a.area) && decide (img.fld Reg.TK_W_Q_CONFMIN w ≤ conf)
  let d := a.s0.toNat
  let cx := if a.area = 0 then 0 else (roundDiv (128 * a.sx) d).toNat
  let cy := if a.area = 0 then 0 else (roundDiv (128 * a.sy) d).toNat
  let mom (sab sa sb : Int) : Int := if a.area = 0 then 0 else trackMoment sab sa sb a.s0
  let mxx := mom a.sxx a.sx a.sx
  let myy := mom a.syy a.sy a.sy
  let mxy := mom a.sxy a.sx a.sy
  let msat := decide (65535 < mxx ∨ 65535 < myy ∨ mxy < -32768 ∨ 32767 < mxy)
  let peak := min 16383 (roundDiv a.peak 16).toNat
  let b (c : Bool) (i : Nat) : Nat := if c then 2 ^ i else 0
  let flags := b valid 0 + b diff 1 + b a.sat 2 + b a.edge 3 + b msat 4 + b late 5 + b fail 6 + b (twClipped img w) 7
  (leBytes 1 w ++ leBytes 1 flags ++ leBytes 1 x.plan ++ leBytes 1 conf ++ leBytes 2 x.frame ++ leBytes 2 x.gen ++
    leBytes 4 tmid ++ leBytes 4 cx ++ leBytes 4 cy ++ leBytes 2 (clampI 0 65535 mxx).toNat ++
    leBytes 2 (clampI 0 65535 myy).toNat ++ leBytes 2 (scode 16 (clampI (-32768) 32767 mxy)) ++ leBytes 2 peak ++
    leBytes 2 a.area ++ leBytes 2 (min 65535 x.late), valid, peak)

/-- A record's fix offered to the pointing channels (R194, R202): the newest of its window and hop. -/
def takeFix (s : State) (hop : Option Nat) (r : List Byte) : State :=
  let w := leAt r 0 1 % 64
  let f : Fix := ⟨w, hop, [], leAt r 12 4 % 2 ^ 22, leAt r 16 4 % 2 ^ 22, leAt r 3 1, leAt r 8 4⟩
  { s with trk := { s.trk with fixes := f :: s.trk.fixes.filter fun e => !(e.win == w && e.hop == hop) } }

/-- A remote record (R202): only VALID results are fixes. -/
def remoteFix (s : State) (hop : Nat) (r : List Byte) : State := if hasBit (leAt r 1 1) 0 then s.takeFix (some hop) r else s

/-- The settings of window `w` have changed between sub-exposures that started at `a` and `b` (R190, R191). -/
def winChanged (s : State) (w a b : Nat) : Bool := s.trk.changed.any fun e => e.1 == w && decide (a < e.2 ∧ e.2 ≤ b)

/-- A result of window `w` sent, kept, forwarded and remembered (R191 to R194, R202). -/
def sendResult (s : State) (x : SubExp) (w : Nat) (ps : List TrackSample) (tmid : Nat) (diff late : Bool) : State :=
  let peakprev := match s.trk.wins.find? (·.win == w) with
    | some h => if s.winChanged w h.peakTe x.te then 0 else h.peak
    | none => 0
  let fail := (twCells x.img w).any s.unitFailed
  let (rec', valid, peak) := trackRecord x w ps peakprev tmid diff fail late
  let s : State := if fail then s.set Reg.TK_STAT_FAILCELL 1 else s
  let s : State := if twClipped x.img w then s.set Reg.TK_STAT_TWCLIP 1 else s
  let one (h : WinHist) : WinHist := if h.win == w then { h with peak := peak, peakTe := x.te } else h
  let s : State := { s with trk := { s.trk with wins := s.trk.wins.map one } }
  let s : State := s.sendPlain (x.img.fld Reg.TK_CFG_VC) 0x41 x.frame rec'
  if !valid then s
  else
    let s := s.takeFix none rec'
    if x.img.flag Reg.TK_W_CFG_RIGFWD w && s.rigUp then
      let (s, a) := s.nextAlive 5
      s.rigQueueOut ⟨5, a, s.get Reg.TB_RIG_HOP, 0, 0, rec'⟩
    else s

/-- The result of window `w` of a sub-exposure (R189, R190): SINGLE gives one at once; ON and OFF complete a pair or start
one. NOPAIR counts each window for itself, and the mean of two mid-points is truncated to 1 ns (log entry 81). -/
def trackResult (s : State) (x : SubExp) (w : Nat) : State :=
  let p := x.img.fld Reg.TK_PLAN_CFG_PHASE x.plan
  let phase := if p = 3 then 0 else p
  let lcg := x.img.flag Reg.TK_PLAN_CFG_GAIN x.plan
  let vals := s.subValues x w
  let words := winWords x.img w
  let mid := x.te + x.dur / 2
  let old := s.trk.wins.find? (·.win == w)
  let h : WinHist :=
    { win := w, phase := phase, dur := x.dur, lcg := lcg, words := words, mid := mid, te := x.te, late := x.late
      samples := vals, peak := ((old.map (·.peak)).getD 0), peakTe := ((old.map (·.peakTe)).getD 0) }
  let s : State := { s with trk := { s.trk with wins := h :: s.trk.wins.filter (·.win != w) } }
  if phase = 0 then
    let ped : Int := 16 * x.img.fld Reg.TK_W_TH_PED w
    let ps := winSamples x.img w (vals.map fun v => (max 0 (v.1 - ped), v.2))
    s.sendResult x w ps mid false (decide (0 < x.late))
  else
    match old with
    | none => s.bump Reg.TK_CNT_NOPAIR
    | some o =>
      if o.phase + phase = 3 ∧ o.phase ≠ 0 ∧ o.dur = x.dur ∧ o.lcg = lcg ∧ o.words = words ∧
          !s.winChanged w o.te x.te ∧ !x.broken.contains w then
        let (on, off) := if phase = 1 then (vals, o.samples) else (o.samples, vals)
        let ps := winSamples x.img w ((on.zip off).map fun (a, b) => (max 0 (a.1 - b.1), a.2 || b.2))
        s.sendResult x w ps ((mid + o.mid) / 2) true (decide (0 < x.late) || decide (0 < o.late))
      else s.bump Reg.TK_CNT_NOPAIR

/-- The first sub-exposure, and its first window, whose samples have all arrived and whose result is not taken yet. -/
def resultDue (s : State) : Option (SubExp × Nat) :=
  s.trk.subs.findSome? fun x =>
    if !x.ended then none
    else (x.wins.find? fun w => !x.done.contains w &&
      (twCells x.img w).all fun c => x.data.any (·.1 == c)).map fun w => (x, w)

end State

/-- TRACK_RESULT (R189 to R193): all samples of a window have arrived. In STANDBY they give no result, and the pair is broken
(R203). -/
def execTrackResult (s : State) : Outcome State Fault Refusal :=
  match s.resultDue with
  | none => ok s
  | some (x, w) =>
    let s : State := if s.dev = .standby then s.breakPairs [w] else s.trackResult x w
    let one (y : SubExp) : SubExp := if y.id == x.id then { y with done := w :: y.done } else y
    let subs := (s.trk.subs.map one).filter fun y => !(y.ended && y.cells.isEmpty && y.wins.all y.done.contains)
    ok ({ s with trk := { s.trk with subs := subs } }).accountDrops

/-- RIG_FIX_RECEIVE (R202, R312, R334): a 32-byte Table 6-3 record of origin `hop` is queued for forwarding and offered to
the remote pointing sources. -/
def execRigFixReceive (alive hop : Nat) (fix : List Byte) (s : State) : Outcome State Fault Refusal :=
  if !s.rigUp then ok s
  else
    let s := s.ce1 (State.rigBody 5 alive hop (fix.take 32))
    match s.rigAlive 5 hop alive with
    | none => ok (s.bump Reg.PK_ALV_REPCNT)
    | some s =>
      let s := (s.rigHeard 0).rigQueueOut ⟨5, alive, hop, 0, 0, fix.take 32⟩
      ok (s.remoteFix hop (fix.take 32))

/-! ## Pointing channels (R194 to R197) -/

/-- The source fields of a channel: enable, remote, window. -/
def srcFlds : List (Fld × Fld × Fld) :=
  [(Reg.TK_PC_SRC_SEN0, Reg.TK_PC_SRC_REM0, Reg.TK_PC_SRC_WIN0), (Reg.TK_PC_SRC_SEN1, Reg.TK_PC_SRC_REM1, Reg.TK_PC_SRC_WIN1),
    (Reg.TK_PC_SRC_SEN2, Reg.TK_PC_SRC_REM2, Reg.TK_PC_SRC_WIN2), (Reg.TK_PC_SRC_SEN3, Reg.TK_PC_SRC_REM3, Reg.TK_PC_SRC_WIN3)]

/-- Z at zoom `q` from the table of channel `n` (R196). -/
def zoomScale (img : RegFile) (n q : Nat) : Rat :=
  let pt (i : Nat) : Nat := img.fld (if i % 2 = 0 then Reg.TK_PC_ZT_ZLO else Reg.TK_PC_ZT_ZHI) n (i / 2)
  let j := q / 4096
  let a : Int := pt j
  let b : Int := pt (j + 1)
  ((a * 4096 + (b - a) * (q % 4096 : Nat) : Int) : Rat) / 16777216

/-- An error in counts × 256 for centroid (x, y) in 1/256 pixel (R196). -/
def pointError (z : Rat) (a1 a2 a3 : Int) (x y : Rat) : Int :=
  clampI (-2147483648) 2147483647 (roundRat (z * ((a1 * x + a2 * y) / 65536 + a3)))

namespace State

/-- The fixes that channel `n` takes at an update, by source, each with its hop (R194, R202). -/
def sourceFixes (s : State) (img : RegFile) (n : Nat) : List Fix :=
  srcFlds.filterMap fun (en, rem, win) =>
    let hop := if img.flag rem n then some (img.fld Reg.TK_PC_CFG_RHOP n) else none
    if img.flag en n then s.trk.fixes.find? fun f => f.win == img.fld win n && f.hop == hop && !f.seen.contains n
    else none

/-- Z for channel `n` and whether it is stale; the last valid Z is kept (R196). -/
def zoomFor (s : State) (img : RegFile) (n : Nat) : Rat × Bool × Option Rat :=
  let last := (s.trk.points.getD n ⟨0, 0, none, none, none⟩).z
  if !img.flag Reg.TK_PC_CFG_ZEN n then (1, false, last)
  else
    let q := s.zoomAt s.now
    let f := s.focusAt s.now
    if q.2 && f.2 then
      let z := zoomScale img n q.1
      (z, false, some z)
    else (last.getD 1, true, last)

/-- The fixes have been seen by channel `n`. -/
def seeFixes (s : State) (n : Nat) : State :=
  let one (f : Fix) : Fix := if f.seen.contains n then f else { f with seen := n :: f.seen }
  { s with trk := { s.trk with fixes := s.trk.fixes.map one } }

/-- The message of channel `n` handed to the guard with the next ALIVE (R195 to R197) (log entry 23). -/
def pointingMessage (s : State) (n flags : Nat) (pan tilt : Int) (conf : Nat) (tmid : Option Nat) : State :=
  let a := (s.get Reg.TK_PC_STAT_ALIVE n + 1) % 256
  let m := pointingBytes a n flags pan tilt conf 0
  ((s.set Reg.TK_PC_STAT_ALIVE a n).ce3 (m.take 14)).guardIn n m tmid

/-- The oldest TMID of fixes, by its age at this instant (R195). -/
def oldestTmid (s : State) (fs : List Fix) : Nat :=
  let age (t : Nat) : Nat := (s.now + 2 ^ 32 - t % 2 ^ 32) % 2 ^ 32
  fs.foldl (fun t f => if age t < age f.tmid then f.tmid else t) (match fs with
    | f :: _ => f.tmid
    | [] => 0)

/-- The update of channel `n` (R194 to R197) (log entry 47). -/
def pointingUpdate (s : State) (n : Nat) : State :=
  let s := s.filtRun
  let img := s.inForce
  let found := s.sourceFixes img n
  let (z, stale, last) := s.zoomFor img n
  let s := s.seeFixes n
  let p := s.trk.points.getD n ⟨0, 0, none, none, none⟩
  let put (s : State) (q : PointCh) : State := { s with trk := { s.trk with points := listModify s.trk.points n fun _ => q } }
  match found with
  | [] =>
    let s := (put s { p with lastUpd := some s.now, z := last }).bump Reg.TK_PC_STAT_STALECNT 1 n
    (s.set Reg.TK_PC_STAT_ZSTALE 0 n).pointingMessage n 4 p.pan p.tilt 0 p.tmid
  | f :: _ =>
    let used := if img.flag Reg.TK_PC_CFG_MODE n then found else [f]
    let sum := (used.map (·.conf)).sum
    let wt (f : Fix) : Nat := if sum = 0 then 1 else f.conf
    let tot : Nat := (used.map wt).sum
    let x : Rat := ((used.map fun f => wt f * f.cx).sum : Nat) / (tot : Rat)
    let y : Rat := ((used.map fun f => wt f * f.cy).sum : Nat) / (tot : Rat)
    let pan := pointError z (img.sfld Reg.TK_PC_A11_A n) (img.sfld Reg.TK_PC_A12_A n) (img.sfld Reg.TK_PC_A13_A n) x y
    let tilt := pointError z (img.sfld Reg.TK_PC_A21_A n) (img.sfld Reg.TK_PC_A22_A n) (img.sfld Reg.TK_PC_A23_A n) x y
    let tmid := s.oldestTmid used
    let conf := (used.map (·.conf)).foldl max 0
    let flags := 2 + (if stale then 32 else 0) + (if used.any (·.hop.isSome) then 64 else 0)
    let s : State := if stale then s.set Reg.TK_STAT_ZSTALE 1 else s
    let s := put s { pan := pan, tilt := tilt, tmid := some tmid, lastUpd := some s.now, z := last }
    (s.set Reg.TK_PC_STAT_ZSTALE (if stale then 1 else 0) n).pointingMessage n flags pan tilt conf (some tmid)

end State

/-- POINTING_UPDATE (R194 to R197): the update microsecond of an enabled channel; the rate trim can pass over its first nanosecond
(R78). -/
def execPointingUpdate (n : Nat) (s : State) : Outcome State Fault Refusal :=
  let per := max 125 (s.inForce.fld Reg.TK_PC_CFG_PER n)
  let phs := s.inForce.fld Reg.TK_PC_PHS_PHS n % per
  let due := decide (s.now % 1000 ≤ 1) && s.now / 1000 % per == phs &&
    !(s.trk.points.getD n ⟨0, 0, none, none, none⟩).lastUpd.any (fun t => t / 1000 == s.now / 1000)
  ok (if n < 4 ∧ s.running ∧ s.inForce.flag Reg.TK_PC_CFG_EN n ∧ due then s.pointingUpdate n else s)

/-! ## Triggers held pending (R88, R90, R103, R184) -/

/-- What the START_FRAME of slot `n` waits for still holds its frame back (R84, R98). -/
def State.slotHeldBack (s : State) (n : Nat) : Bool :=
  s.expo.burst.isSome || s.frames.any fun f => s.slotFrame n f && f.phase == 0 &&
    !((s.requiredStart f).any fun r => decide (max r f.start ≤ s.now))

/-- PENDING_TRIGGER_EXECUTE (R90, R103, R113, R184): the trigger that slot `n` holds executes once its target is free; in
STANDBY a held START_FRAME, START_EXP or START_TRACK is discarded without a count. -/
def execPendingTriggerExecute (n : Nat) (s : State) : Outcome State Fault Refusal :=
  let x := s.slot n
  let late := s.now - x.ts
  if 64 ≤ n ∨ s.sstate n ≠ ssPending ∨ !s.running then ok s
  else match x.action with
    | 1 =>
      if s.dev ≠ .run then
        ok (if s.slotHeldBack n then s else (s.discardSlot n).slotDone n late false)
      else ok (if s.slotWaits n then s else s.slotDone n (match s.frames.find? (fun f => s.slotFrame n f) with
        | some f => f.start - f.ts
        | none => late) false)
    | 2 =>
      let k := x.arg % 8
      if s.collides n (0x100 + k) || s.expo.expBusy.any (·.1 == k) then ok s
      else if s.dev ≠ .run then ok (s.slotDone n late false)
      else ok (((s.startExp k s.now).claim (0x100 + k)).slotDone n late false)
    | 3 =>
      if s.collides n (0x500 + x.arg) then ok s
      else if s.dev ≠ .run ∨ hasBit s.domLost 0 then
        ok (if (s.trackBusy (s.planCells x.arg) s.now).1 then s else s.slotDone n late false)
      else ok (s.trackSlot n true)
    | 6 => if s.collides n (0x200 + x.pin) || s.pinBusy x.pin then ok s else ok (s.galSet n late)
    | 7 => if s.collides n (0x200 + x.pin) || s.pinBusy x.pin then ok s else ok (s.galPulse n late)
    | 8 =>
      let all := hasBit x.arg 7
      let r := if all then 0x3FF else 0x300 + x.arg % 16
      if s.collides n r then ok s
      else
        let s : State := if all then (List.range 16).foldl (fun s c => s.filtReset c s.now) s else s.filtReset (x.arg % 16) s.now
        ok ((s.claim r).slotDone n late false)
    | _ => ok s

end Sys2Proof.Machine
end

