-- ==== Sys2Proof/Machine/Otp.lean ====
section
/-! DEFINITION. The fuse reads of boot and the OTP controller: READ, PROGRAM, LOCK, FORCELOCK and ENFORCE with their pulses
and verify reads (17_otp_and_factory_calibration.md R454 to R476; 15_safety_partition.md R426, R427). -/
namespace Sys2Proof.Machine

open Host (Outcome)

namespace State

/-! ## Boot reads (R460 to R462, R475) -/

/-- ID_PART and ID_ARRAY from chip word W0 (R41, R504) (log entry 50). -/
def takeIdentity (s : State) : State :=
  let w := (s.bootVal 0).getD 0
  let s : State := (s.set Reg.ID_PART_PART w).set Reg.ID_PART_VARIANT (w / 2 ^ 16)
  let s : State := (s.set Reg.ID_PART_CFA (w / 2 ^ 17)).set Reg.ID_PART_REV (w / 2 ^ 20)
  let s : State := (s.set Reg.ID_ARRAY_CFA (w / 2 ^ 17)).set Reg.ID_ARRAY_VARIANT (w / 2 ^ 16)
  s.set Reg.ID_FUSESTAT_IDBAD (if (s.bootVal 0).isSome then 0 else 1)

/-- The safety defaults come into the SPL fields that are not locked (R404, R407). -/
def takeSafetyDefaults (s : State) : State :=
  if s.flag Reg.SP_STAT_LOCKED then s
  else { s with regs := splAddrs.foldl (fun r a => r.put a (s.splDefault a)) s.regs }

/-- The slices' first calibration values from W16 to W20; an invalid word fails both of its slices (R341, R343, R460). -/
def takeSliceTrims (s : State) : State :=
  (List.range 10).foldl (fun s i =>
    match s.bootVal (16 + i / 2) with
    | none => s.sliceCal (i / 5) (i % 5) 20000 0
    | some v =>
      let k := Config.sliceTrim (v / 2 ^ (32 * (i % 2)) % 2 ^ 32)
      s.setSu (i / 5) fun x => { x with cal := x.cal.set (i % 5) k }) s

/-- The temperature sensors whose trims are invalid (R460, R475). -/
def takeSensorTrims (s : State) : State :=
  let bad := (List.range 24).foldl (fun m i => if (s.bootVal (4 + i / 2)).isSome then m else withBit m i) 0
  { s with thermal := { s.thermal with trimBad := bad } }

/-- The states of the chip areas and of the enforcement fuses (R475, R476) (log entry 50). -/
def judgeChip (s : State) : State :=
  let (a, ma) := s.judgeArea 256
  let (b, mb) := s.judgeArea 257
  let (lo, hi) := s.fuseRaw (lockKey 258)
  let e := lockBlown hi
  let n (c : Bool) : Nat := if c then 1 else 0
  let s : State := (s.set Reg.ID_FUSESTAT_CHIPST a).set Reg.ID_FUSESTAT_CUSTST b
  let s : State := (s.set Reg.ID_FUSESTAT_ENFORCE (n e)).set Reg.ID_BOOTSTAT_ENFORCE (n e)
  s.set Reg.ID_FUSESTAT_LOCKMARG (n (ma || mb || lockBlown lo != e))

/-- The chip bank as boot reads it: every word, the locks, and what the part takes from them. -/
def readChipBank (s : State) : State :=
  let s : State := (List.range 256).foldl State.bootRead s
  let s := s.judgeChip
  let s := s.takeIdentity
  let s := s.set Reg.S1_GAINRATIO_RATIO ((s.bootVal 22).getD 0x6000)
  ((s.takeSafetyDefaults).takeSensorTrims).takeSliceTrims

/-- The cells of block `b` that boot marks failed: retired, or with an invalid or blank word (R44, R457, R459). -/
def bootFailedCells (s : State) (b : Nat) : List Nat :=
  (List.range 256).filter fun l =>
    let retired : Bool := match s.bootVal (stripKey b (l / 64)) with
      | none => true
      | some w => hasBit w (l % 64)
    let blank : Bool := match s.bootVal (cellKey b l) with
      | none => true
      | some w => !hasBit w 31
    retired || blank

/-- The strip and the cell words of block `b` as LOAD reads them (R459, R462, R475). -/
def readBlock (s : State) (b : Nat) : State :=
  let s : State := (List.range 8).foldl (fun s w => s.bootRead (stripKey b w)) s
  let s : State := (List.range 256).foldl (fun s l => s.bootRead (cellKey b l)) s
  let (st, marg) := s.judgeArea b
  let f := blkStFld b
  let s : State := (s.set f st (b / 8)).set { f with lo := f.lo + 2, w := 1 } (if marg then 1 else 0) (b / 8)
  if st = 2 then s.blockFail b
  else (s.bootFailedCells b).foldl (fun s l => s.cellFail (cellOf b l)) s

/-! ## The enable (R426) -/

/-- The word that OT_ADDR names, none for a strip word above W7. -/
def otpKey (s : State) : Option Nat :=
  let b := s.get Reg.OT_ADDR_BLOCK
  let w := s.get Reg.OT_ADDR_WORD
  match s.get Reg.OT_ADDR_AREA with
  | 0 => some (cellKey b w)
  | 1 => if w < 8 then some (stripKey b w) else none
  | _ => some w

/-- The area that OT_ADDR names for a lock (Table 17-7). -/
def otpArea (s : State) : Nat :=
  if s.get Reg.OT_ADDR_AREA < 2 then s.get Reg.OT_ADDR_BLOCK else if s.get Reg.OT_ADDR_WORD < 224 then 256 else 257

/-- A sensor condition of R426 fails. -/
def otpTempBad (s : State) : Bool :=
  s.thermal.guardOn || (List.range 24).any fun i =>
    s.sensorValid i && !decide (0 ≤ s.sensorT i ∧ s.sensorT i ≤ 85 * 128)

/-- Why the enable is not granted (ENCAUSE): bit 3 SP_OTPEN, 2 state, 1 temperature, 0 supply; `perm` is the area's bits. -/
def enCause (s : State) (perm : Bool) : Nat :=
  (if perm then 0 else 8) + (if s.running then 0 else 4) + (if s.otpTempBad then 2 else 0) + (if s.otp.supplyOk then 0 else 1)

/-- The SP_OTPEN bit of a word's area (log entry 22: of a block area's lock, BLK). -/
def otpPerm (s : State) (key : Nat) : Bool :=
  if 131072 ≤ key then
    (if key - 131072 < 256 then s.flag Reg.SP_OTPEN_BLK
      else if key - 131072 = 256 then s.flag Reg.SP_OTPEN_CHIP else s.flag Reg.SP_OTPEN_CUST)
  else if 4096 ≤ key then s.flag Reg.SP_OTPEN_CELL
  else if 256 ≤ key then s.flag Reg.SP_OTPEN_BLK
  else if 224 ≤ key then s.flag Reg.SP_OTPEN_CUST
  else s.flag Reg.SP_OTPEN_CHIP

/-- Block `b` cannot be given to the OTP controller: not powered, or in the cell set or a tracking window of a frame armed or
in readout (R466). -/
def otpBlockBusy (s : State) (b : Nat) : Bool :=
  !s.blockOn b || s.frames.any fun f => decide (f.phase < 3) &&
    ((List.range 256).any fun l => f.inSet (cellOf b l) || f.tracks (cellOf b l))

/-! ## Commands (R465 to R476) -/

/-- A command ends or is refused with a result. -/
def otpResult (s : State) (r : Nat) : State := (s.set Reg.OT_STAT_RESULT r).set Reg.OT_STAT_ENCAUSE 0

/-- A command refused by the enable, with ENCAUSE. -/
def otpNotEnabled (s : State) (cause : Nat) : State := (s.set Reg.OT_STAT_RESULT 2).set Reg.OT_STAT_ENCAUSE cause

/-- The raw words of a read and its class (R461, R465). -/
def otpReport (s : State) (key : Nat) : State :=
  let (lo, hi) := s.fuseRaw key
  let nd := dataBits key
  let d (x : Nat) : Nat := x % 2 ^ nd
  let s : State := (s.set Reg.OT_RDLO0_RAW (d lo)).set Reg.OT_RDLO1_RAW (d lo / 2 ^ 32)
  let s : State := (s.set Reg.OT_RDHI0_RAW (d hi)).set Reg.OT_RDHI1_RAW (d hi / 2 ^ 32)
  let s : State := (s.set Reg.OT_RDCHK_CHKLO (lo / 2 ^ nd)).set Reg.OT_RDCHK_CHKHI (hi / 2 ^ nd)
  s.set Reg.OT_STAT_CLASS (classify key lo hi).1

/-- READ (R463, R465): `ws` are words that this read finds to read otherwise. -/
def otpRead (s : State) (ws : List (Nat × Nat × Nat)) : State :=
  match s.otpKey with
  | none => s.otpResult 10
  | some k =>
    if 256 ≤ k ∧ !s.blockOn (areaOf k) then s.otpResult 9
    else
      let s := s.drift (ws.filter (·.1 == k))
      ((s.otpReport k).checkDrift k).otpResult 1

/-- A cell word, whose fuses are pulsed together (R467). -/
def isCell (key : Nat) : Bool := decide (4096 ≤ key ∧ key < 131072)

/-- Length of a pulse of a word's fuses in ns (R467, R468). -/
def pulseLen (key : Nat) : Nat := if isCell key then 50000 else 10000

/-- Length of the verify read of a word in ns: one access, and none stated for the lock and enforcement fuses (R468, Table 17-6) (log
entry 95). -/
def verifyLen (key : Nat) : Nat := if 131072 ≤ key then 0 else 3200

/-- Reads of a LOCK before its first pulse (R473, Table 17-6). -/
def lockReadTime (s : State) (op key : Nat) : Nat :=
  if op = 3 then 3200 * (lockReads s.fuseClass (key - 131072)).length else 0

/-- A pulsed command is accepted (R426, R468): BUSY, and PD_OTP on. The first pulse of a word that is pulsed fuse by fuse starts after
2.5 µs, and a LOCK's after its reads (log entries 49 and 95). -/
def otpBegin (s : State) (op key code : Nat) : State :=
  let lo := (s.fuseRaw key).1
  let n := if 131072 ≤ key then 3 else dataBits key + checkBits key + 1
  let todo := (bitsOf n code).filter fun i => !hasBit lo i
  let s : State := { s with otp := { s.otp with
    run := some ⟨op, key, code, todo, 0, 0, 0, s.up + s.lockReadTime op key +
      (if todo.isEmpty then verifyLen key else pulseLen key + (if isCell key then 0 else 2500))⟩
    programmed := if op = 2 then key :: s.otp.programmed else s.otp.programmed } }
  ((s.otpResult 0).set Reg.OT_STAT_BUSY 1).domSet 6 true

/-- PROGRAM with the key `kw` (R466) (log entry 49). -/
def otpProgram (s : State) (kw : Nat) : State :=
  if kw ≠ 0x7A51 then s.otpResult 11
  else match s.otpKey with
    | none => s.otpResult 10
    | some k =>
      let cause := s.enCause (s.otpPerm k)
      let d := s.get Reg.OT_WDATA0_DATA + (if dataBits k = 64 then 2 ^ 32 * s.get Reg.OT_WDATA1_DATA else 0)
      let code := codeword k d
      if cause ≠ 0 then s.otpNotEnabled cause
      else if s.areaState (areaOf k) ≠ 0 then s.otpResult 3
      else if 256 ≤ k ∧ s.otpBlockBusy (areaOf k) then s.otpResult 9
      else if (bitsOf 73 (s.fuseRaw k).2).any fun i => !hasBit code i then s.otpResult 4
      else s.otpBegin 2 k code

/-- LOCK and FORCELOCK of the area that OT_ADDR names (R466, R473, R474); the words that a LOCK reads are compared with their boot
results (R463). -/
def otpLock (s : State) (kw : Nat) (force : Bool) : State :=
  let a := s.otpArea
  let cause := s.enCause (s.otpPerm (lockKey a) && (!force || s.flag Reg.SP_OTPEN_FLOCK))
  if kw ≠ 0x7A51 then s.otpResult 11
  else if cause ≠ 0 then s.otpNotEnabled cause
  else if s.areaState a ≠ 0 then s.otpResult 3
  else if a < 256 ∧ s.otpBlockBusy a then s.otpResult 9
  else if force then s.otpBegin 4 (lockKey a) 7
  else
    let s : State := (lockReads s.fuseClass a).foldl checkDrift s
    if headerMatches s.fuseClass a then s.otpBegin 3 (lockKey a) 7 else s.otpResult 8

/-- ENFORCE (R476). -/
def otpEnforce (s : State) (kw : Nat) : State :=
  let cause := s.enCause (s.flag Reg.SP_OTPEN_CUST)
  if kw ≠ 0x7A51 then s.otpResult 11
  else if cause ≠ 0 then s.otpNotEnabled cause
  else s.otpBegin 5 (lockKey 258) 7

/-- A command reaches the controller in RUN or STANDBY, with no pulses yet: ignored while another runs (R470). -/
def otpGate (s : State) (f : State → State) : State :=
  if !s.running then s else if s.flag Reg.OT_STAT_BUSY then s.set Reg.OT_STAT_CMDIGN 1
  else f (s.set Reg.OT_STAT_PULSES 0)

/-- VDDIO and VPP as they stand with a command (R426). -/
def otpSupply (s : State) (good : Bool) : State := { s with otp := { s.otp with supplyOk := good } }

/-- No further pulse of the sequence starts: one under way completes, else the verify read follows at once (R427, R469). -/
def otpStop (s : State) (r : OtpRun) (res : Nat) : OtpRun :=
  if r.todo.isEmpty ∨ r.due ≤ s.up + pulseLen r.key then
    { r with abort := res, todo := if isCell r.key then r.todo else r.todo.take 1 }
  else { r with abort := res, todo := [], due := s.up + verifyLen r.key }

/-- The enable is withdrawn during a sequence (R427, R469): the pulse in progress completes and no further one starts (log entry 58). -/
def otpAbort (s : State) (res : Nat) : State :=
  match s.otp.run with
  | none => s
  | some r =>
    if r.abort ≠ 0 then s
    else { s with otp := { s.otp with run := some (s.otpStop r res) } }

/-- The enable of a sequence looked at again after a sample or a change of supply (R426, R469) (log entry 58). -/
def otpCheck (s : State) : State :=
  if s.otpTempBad then s.otpAbort 6 else if !s.otp.supplyOk then s.otpAbort 7 else s

/-- OT_CMD written with operation and key (Table 17-7). -/
def otpCommand (s : State) (op kw : Nat) (ws : List (Nat × Nat × Nat)) : State :=
  s.otpGate fun s => match op with
    | 1 => s.otpRead ws
    | 2 => s.otpProgram kw
    | 3 => s.otpLock kw false
    | 4 => s.otpLock kw true
    | 5 => s.otpEnforce kw
    | _ => s.otpResult 10

/-- The bits of `old` at positions `at'` replaced by those of `new`. -/
def mixBits (old new : Nat) (at' : List Nat) : Nat :=
  at'.foldl (fun m i => if hasBit new i then withBit m i else withoutBit m i) old

/-- A pulse of the sequence completes; the pulsed fuses now read as in `lo` and `hi`. The next pulse starts 12.5 µs after it did, or the
verify read follows (R467, R468) (log entry 49). -/
def otpPulse (s : State) (r : OtpRun) (lo hi : Nat) : State :=
  let cell := isCell r.key
  let hit := if cell then r.todo else r.todo.take 1
  let (l0, h0) := s.fuseRaw r.key
  let s := s.setFuse r.key (mixBits l0 lo hit) (mixBits h0 hi hit)
  let left := if cell then [] else r.todo.drop 1
  let s : State := { s with otp := { s.otp with run := some { r with
    todo := left, pulses := r.pulses + 1, due := r.due + (if left.isEmpty then verifyLen r.key else 12500) } } }
  s.set Reg.OT_STAT_PULSES (min 255 (r.pulses + 1))

/-- The command ends (R469): PD_OTP goes off. -/
def otpEnd (s : State) (res : Nat) : State :=
  let s : State := { s with otp := { s.otp with run := none } }
  ((s.otpResult res).set Reg.OT_STAT_BUSY 0).domSet 6 false

/-- The verify read of a sequence (R467 to R469). -/
def otpVerify (s : State) (r : OtpRun) : State :=
  let s := s.otpReport r.key
  let (lo, hi) := s.fuseRaw r.key
  let again := (bitsOf 73 r.code).filter fun i => !hasBit lo i
  let extra := (bitsOf 73 lo ++ bitsOf 73 hi).any fun i => !hasBit r.code i
  let cell := isCell r.key
  let pass := if cell then lo == r.code && hi == r.code else again.isEmpty && !extra
  if r.abort ≠ 0 then s.otpEnd r.abort
  else if pass then s.otpEnd 1
  else if (!cell && extra) || decide (8 ≤ r.rounds) then s.otpEnd 5
  else { s with otp := { s.otp with run := some { r with
    todo := again, rounds := r.rounds + 1, due := r.due + (if again.isEmpty then verifyLen r.key else pulseLen r.key) } } }

end State

/-- BLOCK_OTP_READ_DONE (R459, R462, R475): block `b` has its trim shadows, or its controller could not complete the read. -/
def execBlockOtpReadDone (b : Nat) (good : Bool) (ws : List (Nat × Nat × Nat)) (s : State) : Outcome State Fault Refusal :=
  if 256 ≤ b ∨ s.dev ≠ .load ∨ s.boot.trims.contains b then ok s
  else
    let s : State := { s with boot := { s.boot with trims := b :: s.boot.trims } }
    let f := State.blkStFld b
    ok (if good then (s.drift ws).readBlock b
      else (s.set { f with lo := f.lo + 3, w := 1 } 1 (b / 8)).blockFail b)

/-- OTP_READ (R463, R465): OT_CMD READ; `ws` are words that this read finds to read otherwise (log entry 21). -/
def execOtpRead (ws : List (Nat × Nat × Nat)) (s : State) : Outcome State Fault Refusal := ok (s.mainWrite (s.otpCommand 1 0 ws))

/-- OTP_PROGRAM (R466): OT_CMD PROGRAM with a key; `supply` is whether VDDIO and VPP lie in their windows. -/
def execOtpProgram (key : Nat) (supply : Bool) (s : State) : Outcome State Fault Refusal :=
  let s := s.otpSupply supply
  ok (s.mainWrite (s.otpCommand 2 key []))

/-- OTP_LOCK (R473): OT_CMD LOCK with a key. -/
def execOtpLock (key : Nat) (supply : Bool) (s : State) : Outcome State Fault Refusal :=
  let s := s.otpSupply supply
  ok (s.mainWrite (s.otpCommand 3 key []))

/-- FORCELOCK (R474): OT_CMD FORCELOCK with a key. -/
def execForcelock (key : Nat) (supply : Bool) (s : State) : Outcome State Fault Refusal :=
  let s := s.otpSupply supply
  ok (s.mainWrite (s.otpCommand 4 key []))

/-- ENFORCE (R476): OT_CMD ENFORCE with a key. -/
def execEnforce (key : Nat) (supply : Bool) (s : State) : Outcome State Fault Refusal :=
  let s := s.otpSupply supply
  ok (s.mainWrite (s.otpCommand 5 key []))

/-- OTP_PULSE_DONE (R467 to R469): the pulse under way completes, and the fuses it was on read as `lo` and `hi`; with the
supply out of its window no further pulse starts. -/
def execOtpPulseDone (lo hi : Nat) (supply : Bool) (s : State) : Outcome State Fault Refusal :=
  match s.otp.run with
  | none => ok s
  | some r =>
    if r.todo.isEmpty || decide (s.up < r.due) then ok s
    else
      let s := (s.otpPulse r lo hi).otpSupply supply
      ok (if supply then s else match s.otp.run with
        | none => s
        | some _ => s.otpAbort 7)

/-- OTP_VERIFY_DONE (R467 to R469): the verify read completes; `ws` are words that it finds to read otherwise. -/
def execOtpVerifyDone (ws : List (Nat × Nat × Nat)) (s : State) : Outcome State Fault Refusal :=
  match s.otp.run with
  | none => ok s
  | some r => ok (if r.todo.isEmpty && decide (r.due ≤ s.up) then (s.drift (ws.filter (·.1 == r.key))).otpVerify r else s)

end Sys2Proof.Machine
end

