-- ==== Sys2Proof/Machine/Run.lean ====
section
/-! DEFINITION. The transitions between device states and the switched domains: PORn and VDDAON, TRAIN, RUN, STANDBY,
HALT_CONFIG, SAFE and SHUTDOWN, the lock of the safety settings (01_architecture.md R25 to R39; 14_thermal_and_power.md R399
to R402; 15_safety_partition.md R404 to R422). -/
namespace Sys2Proof.Machine

namespace State

/-! ## Domains (R399, R400, Table 14-6) -/

/-- Main logic with its configuration: TRAIN, RUN or STANDBY. -/
def mainUp (s : State) : Bool := s.dev == .train || s.running

/-- Whether the conditions of Table 14-6 hold for domain `i` of PM_OTHER.ON, in the order of `domSet`, and it has not lost
power-good (R399, R401, R426). -/
def domainOn (s : State) (i : Nat) : Bool :=
  let awake := s.dev == .train || s.dev == .run || (s.dev == .standby && s.reading.isSome)
  let want : Bool := match i with
    | 0 => (awake || (s.running && !s.trk.subs.isEmpty)) && (List.range 64).any fun w => s.inForce.flag Reg.TK_W_CFG_EN w
    | 1 => s.running && ((s.su 0).on || (s.su 1).on)
    | 2 => (s.dev == .load || s.mainUp) && (List.range 16).any fun n => s.flag Reg.FE_FC_CFG_EN n
    | 3 => (s.dev == .train || s.dev == .run || (s.dev == .standby && !s.s2.isEmpty)) && hasBit s.cis.admis 2
    | 4 => s.mainUp && s.cpInForce.flag Reg.CP_PV_EN && s.pllPv
    | 5 => s.boot.rigRole != 0 && (s.dev == .load || s.mainUp)
    | 6 => s.otp.run.isSome
    | 7 => (s.dev == .load || s.mainUp) && !s.channels.isEmpty
    | 8 => s.dev == .load || s.running
    | 9 => s.dev == .safeBoot || s.dev == .load
    | 10 => awake && (s.inForce.flag Reg.EX_LECFG_EN || s.inForce.flag Reg.S1_STCFG_CELLEN || s.inForce.flag Reg.S1_STCFG_BHEN ||
        s.inForce.flag Reg.S1_STCFG_WBEN || s.inForce.flag Reg.S1_STCFG_FRMEN)
    | 11 => awake && hasBit s.cis.admis 4
    | _ => false
  want && !hasBit s.domLost i

/-- PM_OTHER.ON brought up to date (log entry 52). -/
def refreshDomains (s : State) : State :=
  let s := s.previewPort (s.domainOn 4)
  s.set Reg.PM_OTHER_ON ((List.range 12).foldl (fun m i => if s.domainOn i then m + 2 ^ i else m) 0)

/-- Every block and region switched on, with LOAD, so that the trim shadows can load (R440, R164) (log entry 53). -/
def powerAll (s : State) : State :=
  let s : State := (List.range 8).foldl (fun s i => s.set Reg.PM_BLK_ON 0xFFFFFFFF i) s
  let s := s.set Reg.PM_RGN_ON 0xFFFF
  (List.range 256).foldl (fun s b => if s.blockFailed b then s else s.set Reg.BLK_STAT_POWERED 1 b) s

/-! ## The lock of the safety settings (R404 to R407, R422, R508) -/

/-- A value of the SPL register `a` brought into the ranges of its fields (R406). -/
def splClamp (a : Nat) (v : Word) : Word :=
  let f (lo : Nat) : Word := if fieldOf v 0 16 < lo then withField v 0 16 lo else v
  if a < 0x0D0040 then v
  else match (a - 0x0D0040) % 0x20 with
    | 0 => f 125
    | 4 => f 250
    | 12 => if fieldOf v 0 31 = 0 then withField v 0 31 1 else v
    | _ => v

/-- The settings that a SAFETY section asks for over the fuse defaults, with the values clamped and the entries that address
no SPL field (R405, R406). A DELAY entry is ignored (log entry 59). -/
def safetyWanted (s : State) (bs : List Byte) : List (Nat × Word) × Nat × Nat :=
  let base := splAddrs.map fun a => (a, s.splDefault a)
  (List.range (bs.length / 8)).foldl
    (fun (st : List (Nat × Word) × Nat × Nat) i =>
      let (l, clamps, bad) := st
      let a := leAt bs (8 * i) 3
      if leAt bs (8 * i + 3) 1 = 1 then st
      else if leAt bs (8 * i + 3) 1 ≠ 0 ∨ !splAddrs.contains a then (l, clamps, bad + 1)
      else
        let v := BitVec.ofNat 32 (leAt bs (8 * i + 4) 4) &&& splMask a
        let c := splClamp a v
        (l.map (fun e => if e.1 = a then (a, c) else e), if c = v then clamps else clamps + 1, bad)) (base, 0, 0)

/-- The lock (R405, R407, R422): with the accepted slot's SAFETY section, or with the fuse defaults for none. Settings that
are locked already stay, and a difference is reported (log entries 51 and 59). -/
def lockSafety (s : State) (saf : Option (List Byte)) : State :=
  let (want, clamps, bad) := s.safetyWanted (saf.getD [])
  if s.flag Reg.SP_STAT_LOCKED then
    if want.all fun e => s.regs.word e.1 == e.2 then s else s.set Reg.SP_STAT_DIFF 1
  else
    let was := (List.range 4).map s.served
    let s : State := { s with regs := want.foldl (fun r e => r.put e.1 e.2) s.regs }
    let s : State := (s.bump Reg.SP_STAT_CLAMPCNT clamps).bump Reg.SP_STAT_BADENT bad
    let s : State := (s.set Reg.SP_STAT_SRC (if saf.isSome then 2 else 1)).set Reg.SP_STAT_LOCKED 1
    (List.range 4).foldl (fun s n =>
      let old := was.getD n false
      if s.served n && !old then s.beginHold n 1
      else if !s.served n && old then
        let s : State := { s with safety := { s.safety with port := s.safety.port.filter (·.chan != n) } }
        (s.setGuard n fun g => { g with hold := 0 }).set Reg.SP_PG_STAT_HOLDING 0 n
      else s) s

/-! ## Stops: SAFE, SHUTDOWN, HALT_CONFIG -/

/-- The last words of an ACTIVE group (R33, R176, R299): the ABORT packets that wait in it and then its final status word, both
without credits. Rows not yet sent are not sent (log entry 57). -/
def lastWords (s : State) (g : Nat) : State :=
  if !s.active g then s
  else
    let aborts := ((s.group g).spill ++ (s.group g).buf).filter (·.dt == 0x4E)
    let s : State := aborts.foldl (fun s p => s.putOnLanes g p) s
    let s : State := s.putOnLanes g (s.heartbeatPacket g true)
    s.setGroup g fun x => { x with hbCount := x.hbCount + 1, hbDiscard := false }

/-- The links at a stop: last words where PLL_MAIN runs, then every group that has not failed in electrical idle and off (R415,
Table 15-4) (log entry 57). -/
def linksStop (s : State) : State :=
  let s : State := if s.pllMain then (List.range 32).foldl lastWords (s.abortFrames) else s
  let s : State := (List.range 32).foldl (fun s g =>
    let l := s.lstate g
    let s : State := if l = lsFailed ∨ l = lsOff then s else (s.emit (.elecIdle g)).set Reg.LK_GSTAT_LSTATE lsOff g
    ((s.set Reg.LK_GSTAT_RTLOCK 0 g).set Reg.LK_GSTAT_RTPSYNC 0 g).setGroup g fun x =>
      { x with buf := [], spill := [], waitAt := none, withheldAt := none, patternOk := false }) s
  s.set Reg.PM_LG_ON 0

/-- The preview stops (R279, R337, R415): an open frame ends after its last complete line, its only Frame End, and the lanes go to
the stop state. -/
def previewStop (s : State) : State :=
  let s : State := s.s2.foldl (fun s x =>
    let c := x.img.fld Reg.CP_PV_PVC
    if pvOpen x && s.pllPv then s.emit (.csi (csiHeader c 0x01 (s.cis.pvNum.getD c 0))) else s) s
  ({ s with s2 := s.s2.map fun (x : S2Frame) => { x with pvOn := false } }).pvClock false

/-- Every gallery pin is high impedance (Table 16-2). -/
def pinsRelease (s : State) : State :=
  { s with gal := { s.gal with out := List.replicate 24 none, pulseEnd := List.replicate 24 none } }

/-- What moves in the main logic is dropped: frames, tracking, stage 2, event slots, the sense unit and the filter engine. -/
def mainStop (s : State) : State :=
  let s : State := { s with
    frames := [], reqs := [], s2 := [], execs := [], dropped := []
    expo := { Exposure.init with num := s.expo.num }
    trk := Track.init, flt := Filters.init
    rd := { s.rd with cells := [], blockOut := [], blacks := [], outside := [], onAt := [] }
    rig := { s.rig with outQ := [], inQ := [], inLock := false, outLock := false } }
  let s : State := (s.senseOff 0).senseOff 1
  let s : State := (List.range 8).foldl (fun s i => s.set Reg.PM_BLK_ON 0 i) s
  let s : State := (List.range 256).foldl (fun s b => (s.set Reg.BLK_STAT_POWERED 0 b).set Reg.BLK_STAT_READY 0 b) s
  (s.set Reg.PM_RGN_ON 0).set Reg.PM_OTHER_CS 0

/-- What stops with the entry to SAFE or SHUTDOWN (R33, R37, R176, R259, R415, R419, R427); `boot` where it is from SAFE_BOOT. -/
def stopWork (s : State) (boot : Bool) : State :=
  let s : State := (s.workDiscard).linksStop
  let s : State := ((s.previewStop).cisternEmpty).pinsRelease
  let s : State := if boot then s else s.darkAbort
  let s : State := (s.mainStop).otpAbort 7
  { s with safety := { s.safety with port := s.safety.port.filter (·.own) } }

/-- The watchdog is disarmed and every served channel holds (R413, R418). -/
def stopHold (s : State) : State := ((s.set Reg.SP_WDSTAT_ARMED 0).holdAll 3).refreshDomains

/-- The place of a cause of SAFE in the order of R414. -/
def causeRank : Cause → Nat
  | .vddcLoss => 0
  | .supplyLoss => 1
  | .refclkLoss => 2
  | .pllLoss => 3
  | .watchdog => 4
  | .sensorsFew => 5
  | _ => 6

/-- SAFE was entered in this cycle of the safety oscillator (R414). -/
def safeNow (s : State) : Bool := s.safety.safeAt.any fun t => 4 * t / 125 == 4 * s.up / 125

/-- Entry to SAFE or SHUTDOWN with a cause (R28, R29, R33, R37, R176, R259, R331, R413 to R419, R427). In SAFE already, a further cause
of SAFE leaves CAUSE as it is, but for one of the same cycle that goes before it (R414); SHUTDOWN is final. -/
def enterStop (s : State) (d : DevState) (c : Cause) : State :=
  if s.dev = .shutdown ∨ s.dev = .off then s
  else if s.dev = .safe ∧ d = .safe then
    if s.safeNow ∧ causeRank c < causeRank s.cause then { s with cause := c } else s
  else
    let s : State := { s with safety := { s.safety with safeAt := some s.up } }
    let t : State := ((s.enter d c).set Reg.CE_CTL_TEST 0).stopWork (s.dev == .safeBoot)
    (if c = .refclkLoss then { t with pllMain := false } else t).stopHold

/-- What goes with the entry to HALT_CONFIG (R405, R413, R418, R419, R444, R293): the fuse defaults are locked where nothing is, the
watchdog is disarmed, every enabled group trains and the pointing output holds. -/
def haltWork (s : State) : State :=
  let s : State := if s.flag Reg.SP_STAT_LOCKED then s else s.lockSafety none
  let s : State := { s with boot := { s.boot with slot := none, item := none, reverting := false } }
  let s : State := (s.pinsRelease).set Reg.SP_WDSTAT_ARMED 0
  let s := (bitsOf 32 (s.get Reg.LK_GRPEN_EN)).foldl startTraining s
  (s.holdAll 3).refreshDomains

/-- HALT_CONFIG with CAUSE BOOT_FAIL (R28, R444) (log entry 59). -/
def enterHaltConfig (s : State) : State := (s.enter .haltConfig .bootFail).haltWork

/-! ## TRAIN, RUN and STANDBY -/

/-- The block stream of a rig port starts: its two lanes keep to the marker slots that have passed (R286, R310). -/
def startRig (s : State) (port : Nat) : State :=
  let s := s.startLine port 2
  s.setLine port { s.lineOf port with sent := 2 * s.slotsPast }

/-- What goes with the entry to TRAIN (R243, R292, R436, R445): the boot settings are in force, admission is made, pins are taken
and every enabled group trains. -/
def trainWork (s : State) : State :=
  let s : State := { s with inForce := s.regs, cpInForce := s.regs, trainAt := s.now }
  let s := s.admitNow s.inForce
  let s := s.set Reg.LK_CTL_CTLACT (s.get Reg.LK_CTL_CTLGRP)
  let s := (bitsOf 32 (s.get Reg.LK_GRPEN_EN)).foldl startTraining s
  let s : State := if s.boot.rigRole = 0 then s else (s.startRig 32).startRig 33
  (s.evalPins).refreshDomains

/-- What goes with the entry to RUN from TRAIN (R132, R138, R164, R259, R316, R359, R379, R436): generations and packet counts at 0,
every block that has not failed ready, the sense unit and the filter channels started, and the slots of CONFIG armed. -/
def runWork (s : State) : State :=
  let free := if s.inForce.flag Reg.EX_MODE_FREERUN then some (s.now + 50000) else none
  let s : State := { s with
    expo := { Exposure.init with freeAt := free, armed := [⟨0, 0, 0, s.inForce⟩] }
    frames := [], reqs := [], s2 := [], trk := Track.init, dropped := []
    vcPackets := List.replicate 16 0, deal := List.replicate 16 0, lastHeader := 0, covered := [], joined := 0 }
  let s : State := (List.range 16).foldl (fun s v => s.set Reg.PK_VCSEQ_NEXT 0 v) s
  let s : State := (List.range 256).foldl (fun s b =>
    if s.blockFailed b || s.regionFailed (blockRegion b) then s
    else (s.set Reg.BLK_STAT_POWERED 1 b).set Reg.BLK_STAT_READY 1 b) s
  let s : State := (List.range 16).foldl (fun s n => s.filtReset n s.now) s
  let s := s.senseEnterRun
  let s := ((List.range 64).filter s.boot.armAtRun.contains).foldl slotArm s
  s.refreshDomains

/-- RUN from TRAIN (R28). -/
def enterRun (s : State) : State := (s.enter .run .trainDone).runWork

/-- RUN is entered from TRAIN once the RUN condition holds (R28, R292). -/
def tryRun (s : State) : State := if s.dev = .train ∧ s.runReady then s.enterRun else s

/-- TRAIN from LOAD (R28), and RUN at once where the RUN condition holds already (R292). -/
def enterTrain (s : State) : State := ((s.enter .train .loadDone).trainWork).tryRun

/-- Frame `f` waits for a trigger of RUN whose time lies ahead: it starts if the device is back in RUN by then (R90). -/
def startsLater (s : State) (f : Frame) : Bool :=
  f.phase == 0 && f.trig != 0 && s.frames.any fun g => g.num == f.burst && g.phase == 0 && decide (s.now < g.start)

/-- Frames that have not been transferred are dropped, but for those whose trigger lies ahead; those that had begun count in the
SKIPPED of the next (R90, R101, R401) (log entry 54). -/
def dropUnread (s : State) : State :=
  s.removeFrames (fun f => decide (f.phase < 2) && !s.startsLater f) fun f => f.skipped + (if f.phase = 1 then 1 else 0)

/-- The committed START_FRAME requests whose te still lies ahead; the others would execute in STANDBY and are discarded
without a count (R90). -/
def reqsAhead (s : State) : List FrameReq :=
  s.reqs.filter fun r => r.trig == 1 && decide (s.now < max r.ts (r.fixedAt + 1000))

/-- What goes with the entry to STANDBY (R90, R143, R259, R401): no frame that is not in readout goes on, a dark capture is aborted,
the cistern is written no more, and each block goes off with its last readout (log entry 54). -/
def standbyWork (s : State) : State :=
  let s := (s.darkAbort).dropUnread
  let burst := s.expo.burst.filter fun b => s.frames.any fun f => f.num == b.first && f.phase == 0
  let s : State := { s with
    frames := s.frames.map fun (f : Frame) => if f.phase < 2 then f else { f with raster := [], admis := f.admis % 2 }
    reqs := if burst.isSome then s.reqs else s.reqsAhead
    expo := { s.expo with burst := burst, expNext := [], expBusy := s.expo.expBusy.filter (·.2 != 0) } }
  (s.standbyBlocks.applyLevels).refreshDomains

/-- STANDBY from RUN (R28, R401); in any other state the command is ignored (log entry 54). -/
def sleep (s : State) : State :=
  if s.dev = .run then (s.enter .standby .hostStandby).standbyWork else s.set Reg.PM_STAT_CMDIGN 1

/-- Scheduled starts of the free-running sequence that have passed in STANDBY are passed over (R132) (log entry 55). -/
def skipFree (s : State) : State :=
  match s.expo.freeAt with
  | none => s
  | some t =>
    let per := 10 * max 1 (s.inForce.fld Reg.EX_FRPER_PERIOD)
    let k := ceilDiv (s.now + 50000 - t) per
    { s with expo := { s.expo with freeAt := some (t + k * per), freeN := s.expo.freeN + k } }

/-- What would have begun in STANDBY is discarded at WAKE, but for the frame of a START_FRAME that is held pending (R90). -/
def dropPassed (s : State) : State :=
  let kept (f : Frame) : Bool := s.frames.any fun g => g.num == f.burst && g.phase == 0 &&
    (decide (s.now < g.start) || (s.slotFrame g.slot g && s.sstate g.slot == ssPending))
  let s := s.removeFrames (fun f => f.phase == 0 && !kept f) (·.skipped)
  let burst := s.expo.burst.filter fun b => s.frames.any fun f => f.num == b.first && f.phase == 0
  { s with reqs := if burst.isSome then s.reqs else s.reqsAhead, expo := { s.expo with burst := burst } }

/-- The blocks of the frames that wait are switched on again at WAKE; those that are not ready give NOTREADY fill (R164, R402). -/
def wakeBlocks (s : State) : State :=
  let want := (s.frames.filter (·.phase == 0)).foldl (fun m f => Nat.lor m (poweredSet f.img f.theta)) 0
  let s := (List.range 256).foldl (fun s b =>
    if hasBit want b && !s.blockOn b && !s.blockFailed b && !s.regionFailed (blockRegion b) then s.switchOn b s.now else s) s
  let ready := s.readyMask
  { s with frames := s.frames.map fun (f : Frame) =>
      if f.phase = 0 then { f with powered := s.onMask, ready := Nat.land f.ready ready } else f }

/-- What goes with the entry to RUN from STANDBY (R90, R132, R159, R331, R402). -/
def wakeWork (s : State) : State :=
  let s := s.dropPassed.wakeBlocks
  let s : State := { s with expo := { s.expo with theta := [] } }
  ((s.set Reg.CE_CTL_TEST 0).skipFree).refreshDomains

/-- RUN from STANDBY (R28, R401); in any other state the command is ignored (log entry 55). -/
def wake (s : State) : State :=
  if s.dev = .standby then (s.enter .run .hostWake).wakeWork
  else s.set Reg.PM_STAT_CMDIGN 1

/-! ## Reset (R28, R39, R407, R417, R508) -/

/-- Always-on registers that PORn leaves alone: ID_FAULTSUM bits 9 to 7, SP_STAT but for DIFF, SP_SUPLAST, TRIPCNT of SP_WDSTAT,
the locked SPL registers, OALIVE, and what the thermal manager keeps of its sensors. -/
def keptRegs (s : State) : RegFile :=
  let at' (a : Nat) (m : Nat) : Nat × Word := (a, s.regs.word a &&& BitVec.ofNat 32 m)
  let spl := if s.flag Reg.SP_STAT_LOCKED then splAddrs.map fun a => (a, s.regs.word a) else []
  let failed := (List.range 24).map fun i => at' (Reg.TH_TS_FAILED.addr i 0) (2 ^ 32 - 1)
  let all := [at' 0x000014 0x380, at' 0x0D0000 0xEFFFFFFF, at' 0x0D0004 0xFFFFFFFF, at' 0x0D0008 0xFF0000] ++ spl ++
    ((List.range 4).map fun n => at' (0x0D0050 + 0x20 * n) 0xFF0000) ++
    ((List.range 24).filter s.sensorFailed).flatMap (fun i => (failed.drop i).take 1) ++
    [at' (Reg.TH_FAIL_FAILED.addr 0 0) 0xFFFFFFFF]
  all.foldl (fun r e => RegFile.put r e.1 e.2) []

/-- The floors of the thermal levels, kept with the guard (R385, R392). -/
def keptFloors (s t : State) : State :=
  if s.thermal.guardOn then
    let p := s.get Reg.TH_LEVEL_PFLOOR
    let d := s.get Reg.TH_LEVEL_DFLOOR
    (((t.set Reg.TH_LEVEL_PFLOOR p).set Reg.TH_LEVEL_DFLOOR d).set Reg.TH_LEVEL_PLVL p).set Reg.TH_LEVEL_DLVL d
  else t

/-- SAFE_BOOT with CAUSE POWER_ON (R28, R428): everything returns to its reset state but what the always-on partition keeps (log entry 9). -/
def powerOnReset (s : State) : State :=
  let t : State := { State.reset with
    pending := s.pending, out := s.out, free := s.free, up := s.up
    regs := s.keptRegs
    boot := { Boot.init with pornAt := s.up }
    safety := { Safety.init with portFree := s.safety.portFree }
    thermal := { Thermal.init with guardOn := s.thermal.guardOn, hot := s.thermal.hot }
    otp := { Otp.init with fuses := s.otp.fuses } }
  s.keptFloors t

/-- VDDAON is lost (Table 1-5, Table 15-2): the device is OFF and the partition resets; the fuses stay. -/
def vddaonLost (s : State) : State :=
  { State.reset with
    pending := s.pending, out := s.out, free := s.free, up := s.up
    dev := .off, vddaon := false
    boot := { Boot.init with porn := s.boot.porn }
    otp := { Otp.init with fuses := s.otp.fuses } }

end State

end Sys2Proof.Machine
end

