-- ==== Sys2Proof/Machine/Clock.lean ====
section
/-! DEFINITION. A nanosecond of the part's clocks (01_architecture.md R18; 03_timebase_and_events.md R78). -/
namespace Sys2Proof.Machine

namespace State

/-- What device time advances by in this cycle, and the rate trim left (R18, R78): 1, or 0 or 2 on one cycle in 2,000 while trim is
left to apply (log entry 40). -/
def tickBy (s : State) : Nat × Int :=
  let trim := s.rig.trim
  if trim = 0 ∨ s.up % 2000 ≠ 0 then (1, trim)
  else if 0 < trim then (2, trim - 1)
  else (0, trim + 1)

/-- A nanosecond passes: on the always-on clock while VDDAON is present, and in device time while PLL_MAIN is locked (R17, R18); a
new cycle begins (R9) (log entries 40 and 68). The marker
slots keep their distance in cycles, whatever the trim (R288). -/
def tick (s : State) : State :=
  let s1 : State := { s with up := if s.vddaon then s.up + 1 else s.up, hot := [] }
  if s.pllMain then { s1 with now := s.now + s.tickBy.1, markerAt := s.markerAt + s.tickBy.1 - 1, rig := { s.rig with trim := s.tickBy.2 } } else s1

end State

end Sys2Proof.Machine
end

