-- ==== Sys2Proof/Machine/RegWrite.lean ====
section
/-! DEFINITION. Writes and reads of registers with the effects their tables give them, for the I3C port, the return lanes and the
loader; the memories that TABLES and DEFECTS fill (R8 to R10, R436, R437, R451, R213, R217). -/
namespace Sys2Proof.Machine

namespace State

/-! ## The memories of the image (R437, R440, R213, R217) -/

/-- The shading and coefficient memories cleared (R440, R443). -/
def clearTables (s : State) : State :=
  { s with
    regs := s.regs.filter fun e => !decide (0x0B1000 ≤ e.1 ∧ e.1 < 0x0B2000)
    rd := { s.rd with grids := [] } }

/-- The defect memory cleared (R440, R443). -/
def clearDefects (s : State) : State :=
  ({ s with rd := { s.rd with defects := [] } }.set Reg.S1_DEFSTAT_LOADED 0).set Reg.S1_DEFSTAT_BADENT 0

/-- A lens-shading grid of TABLES (R217, Table 7-3, R437); one for the other variant is skipped. -/
def shadingRecord (s : State) (body : List Byte) : State :=
  let g := leAt body 0 1
  let planes := leAt body 1 1
  if planes ≠ (if s.mono then 1 else 4) ∨ body.length ≠ (8 + 2 * planes * 4225 + 3) / 4 * 4 then
    s.bump Reg.BT_CFGSTAT_TABSKIP
  else
    let nodes := (List.range (planes * 4225)).map fun i => leAt body (8 + 2 * i) 2
    { s with rd := { s.rd with grids := (g, nodes) :: s.rd.grids.filter (·.1 != g) } }

/-- The order of a defect entry: cell, then v, then u (R213). -/
def defectKey (w : Nat) : Nat :=
  let x := w % 16384
  let y := w / 16384 % 16384
  4096 * (256 * (y / 64) + x / 64) + 64 * (y % 64) + x % 64

/-- One entry of DEFECTS (R213): kept, or dropped and counted. `last` is the order of the entry kept before it. -/
def defectEntry (st : State × Option Nat) (w : Nat) : State × Option Nat :=
  let (s, last) := st
  let x := w % 16384
  let y := w / 16384 % 16384
  let late : Bool := match last with
    | some k => decide (defectKey w ≤ k)
    | none => false
  if 2 < w / 2 ^ 28 ∨ late then (s.bump Reg.S1_DEFSTAT_BADENT, last)
  else
    let r (x y : Nat) : Nat := blockRegion (16 * (y / 1024) + x / 1024)
    let held := (s.rd.defects.filter fun d => r d.1 d.2.1 == r x y).length
    if 262144 ≤ held then ((s.bump Reg.S1_DEFSTAT_BADENT).set Reg.S1_STAT_DEFOVF 1, last)
    else ({ s with rd := { s.rd with defects := s.rd.defects ++ [(x, y, w / 2 ^ 28)] } }, some (defectKey w))

/-- The DEFECTS section (R213, Table 16-5): at most COUNT entries of those present (log entry 14). -/
def loadDefects (s : State) (bs : List Byte) : State :=
  let n := min (leAt bs 0 4) (min 1048576 ((bs.length - 4) / 4))
  let ws := (List.range n).map fun i => leAt bs (4 + 4 * i) 4
  let s := (ws.foldl defectEntry (s, none)).1
  s.set Reg.S1_DEFSTAT_LOADED s.rd.defects.length

/-- Registers outside ID_ and SP_ that a failed slot leaves alone (R443): what the thermal manager, the domains, the fuses and the
I3C target report (log entry 60). -/
def keepsOnRevert (_ : State) (a : Nat) : Bool :=
  decide (0x0C0008 ≤ a ∧ a < 0x0C0200) || decide (0x0C1010 ≤ a ∧ a < 0x0C1038) || a == 0x0C1004 || a == 0x05002C ||
    a == 0x0E0028 || decide (0x0F0010 ≤ a ∧ a < 0x0F0200) || a == Reg.SA_STAT_SLFAIL.addr 0 0 || a == Reg.SA_STAT_SLFAIL.addr 1 0 ||
    (decide (0x100000 ≤ a ∧ a < 0x200000) && (a % 0x1000 == 4 || decide (0x30 ≤ a % 0x1000 ∧ a % 0x1000 < 0x50)))

/-- The trim shadows of every block are loaded, or their read has failed (R440, R459). -/
def trimsLoaded (s : State) : Bool := (List.range 256).all s.boot.trims.contains

/-! ## Stores with the effects of their registers -/

/-- Fields of TB_SCHED, TH_CFG, TH_CHK and SA_ZOFSn brought into their ranges (R91, R394, SA_ZOFS). -/
def clampFields (s : State) (a : Nat) : State :=
  if a = 0x01010C then
    (s.set Reg.TB_SCHED_VBMIN (max 20 (s.get Reg.TB_SCHED_VBMIN))).set Reg.TB_SCHED_LEAD (clampN 10 500 (s.get Reg.TB_SCHED_LEAD))
  else if a = 0x0C0000 then
    let s : State := (s.set Reg.TH_CFG_ONSET (clampN 100 140 (s.get Reg.TH_CFG_ONSET))).set Reg.TH_CFG_HYS
      (max 1 (s.get Reg.TH_CFG_HYS))
    let s : State := (s.set Reg.TH_CFG_DW (max 1 (s.get Reg.TH_CFG_DW))).set Reg.TH_CFG_PMAX
      (clampN 5 50 (s.get Reg.TH_CFG_PMAX))
    s.set Reg.TH_CFG_SLOPE (clampN 1 10 (s.get Reg.TH_CFG_SLOPE))
  else if a = 0x0C0004 then s.set Reg.TH_CHK_NBMAX (clampN 5 60 (s.get Reg.TH_CHK_NBMAX))
  else if 0x0A2040 ≤ a ∧ a < 0x0A2080 then
    let n := (a - 0x0A2040) / 4
    s.setS Reg.SA_ZOFS_OFS (clampI (-10485) 10485 (s.getS Reg.SA_ZOFS_OFS n)) n
  else s

/-- The comparator state of an entry whose CMPEN goes from 0 to 1 is INSIDE (R355). `i` is 0 to 15 for a regular entry, 16 + j for an
injected one. -/
def cmpenWritten (s : State) (u i : Nat) (was now : Bool) : State :=
  if now && !was then s.setSu u fun x => { x with outside := withoutBit x.outside i } else s

/-- The sense unit's registers with an effect: SA_CFG, the sequences' entries and SA_ZCMD (R355, R357, R359). `cfg` marks a CONFIG
write, held until RUN. -/
def senseStore (s : State) (a : Nat) (v : Word) (cfg : Bool) : State :=
  let u := (a - 0x0A0000) / 0x1000
  let o := a % 0x1000
  let s := s.senseRunAll
  if 2 ≤ u then (if a = 0x0A2000 then (if hasBit v.toNat 31 then s.zeroCmd v else s) else (s.regStore a v).clampFields a)
  else if o = 0 then
    let was := s.flag Reg.SA_CFG_EN u
    let t := s.regStore a (if u = 0 then v else v &&& 0xDFFFFFFF#32)
    if cfg then t else t.senseCfgWritten u was
  else if 0x40 ≤ o ∧ o < 0x80 then
    (s.regStore a v).cmpenWritten u ((o - 0x40) / 4) (hasBit (s.regs.word a).toNat 31) (hasBit v.toNat 31)
  else if 0x80 ≤ o ∧ o < 0x90 then
    (s.regStore a v).cmpenWritten u (16 + (o - 0x80) / 4) (hasBit (s.regs.word a).toNat 31) (hasBit v.toNat 31)
  else s.regStore a v

/-- The link registers with an effect: LK_GRPEN, LK_CTL, LK_PRBSTX, LK_PRBSRT, LK_RETIRE, LK_ESCFG (R296, R307 to R309, R313) (log entry 61). -/
def linkStore (s : State) (a : Nat) (v : Word) : State :=
  let x := v.toNat
  match a with
  | 0x080000 => s.eachBit (s.get Reg.LK_GRPEN_EN) x groupEnable groupDisable
  | 0x080010 =>
    let s := s.regStore a v
    let g := s.get Reg.LK_CTL_CTLGRP
    if s.get Reg.LK_CTL_CTLACT = g then s
    else
      let s : State := ({ s with ctl := { s.ctl with wptr := none } }).set Reg.LK_CTL_CTLACT g
      if s.lstate g = lsFailed then s.moveControl g else s
  | 0x080014 => s.eachBit (s.get Reg.LK_PRBSTX_EN) x prbsTxStart prbsTxStop
  | 0x080018 => s.eachBit (s.get Reg.LK_PRBSRT_EN) x prbsRtStart prbsRtStop
  | 0x08001C => (bitsOf 32 x).foldl (fun s g => s.groupFail g 4) s
  | 0x080410 =>
    let s := s.regStore a v
    if hasBit x 31 && !s.flag Reg.LK_RIGSTAT_ESBUSY then s.set Reg.LK_RIGSTAT_ESBUSY 1 else s
  | _ => s.regStore a v

/-- The registers of the CRC units (R331): CE_CTL, CE_DATA, CE_nVAL. -/
def crcStore (s : State) (a : Nat) (v : Word) : State :=
  if a = 0x090400 then
    let s := s.set Reg.CE_CTL_SEL (fieldOf v 1 2)
    s.set Reg.CE_CTL_TEST (if s.dev = .standby then fieldOf v 0 1 else 0)
  else if a = 0x090404 then
    let n := min 2 (s.get Reg.CE_CTL_SEL)
    if s.flag Reg.CE_CTL_TEST then
      s.set Reg.CE_VAL_VAL (crc32Run (s.get Reg.CE_VAL_VAL n) (leBytes 4 v.toNat)) n else s
  else
    let n := (a - 0x090410) / 4
    if s.flag Reg.CE_CTL_TEST && decide (n < 3) then s.set Reg.CE_VAL_VAL v.toNat n else s

/-- Command registers that a CONFIG write never reaches (R435), being all WO. -/
def commandStore (s : State) (a : Nat) (v : Word) : State :=
  let x := v.toNat
  match a with
  | 0x020008 => if hasBit x 0 && s.running then s.captureCommit else s
  | 0x070004 => if hasBit x 0 && s.running then s.stage2Commit else s
  | 0x020134 =>
    let s : State := if hasBit x 0 && s.running then s.darkStart else s
    if hasBit x 1 then s.darkAbort else s
  | 0x060010 =>
    let s : State := if hasBit x 0 && s.running then s.freezeRing s.now else s
    if hasBit x 1 && s.running then s.releaseRing else s
  | 0x060068 =>
    if hasBit x 0 && s.running then
      s.submitRecall (s.get Reg.CS_RCFRM_FRAME) (s.get Reg.CS_RCROWS_FIRST) (s.get Reg.CS_RCROWS_LAST) (fieldOf v 4 4)
    else s
  | 0x0C1000 =>
    let s : State := if hasBit x 0 then s.sleep else s
    if hasBit x 1 then s.wake else s
  | 0x0F000C => s.otpCommand (fieldOf v 0 4) (fieldOf v 16 16) []
  | _ => s

/-- A command register of `commandStore`. -/
def isCommand (a : Nat) : Bool :=
  a == 0x020008 || a == 0x070004 || a == 0x020134 || a == 0x060010 || a == 0x060068 || a == 0x0C1000 || a == 0x0F000C

/-- EV_nCFG (R81, R84, R436, R506): from CONFIG, ARM is kept for the first cycle of RUN. -/
def eventStore (s : State) (a : Nat) (v : Word) (cfg : Bool) : State :=
  let n := (a - 0x010400) / 0x20
  if cfg then
    let s := s.regStore a v
    let rest := s.boot.armAtRun.filter (· != n)
    { s with boot := { s.boot with armAtRun := if hasBit v.toNat 31 then n :: rest else rest } }
  else s.evCfgWritten n v

/-- A write of `v` at `a` with everything its register does (R8, R9, R436); `cfg` marks a CONFIG write. -/
def hookedStore (s : State) (a : Nat) (v : Word) (cfg : Bool) : State :=
  if isCommand a then s.commandStore a v
  else if 0x010000 ≤ a ∧ a < 0x010100 ∧ a % 0x40 = 0 then (s.tbCfgStore ((a - 0x010000) / 0x40) v).evalPins
  else if a = 0x01011C ∨ a = 0x06000C then (s.regStore a v).evalPins
  else if 0x010400 ≤ a ∧ a < 0x010C00 ∧ a % 0x20 = 0 then s.eventStore a v cfg
  else if 0x080000 ≤ a ∧ a < 0x090000 then s.linkStore a v
  else if a = 0x090400 ∨ a = 0x090404 ∨ (0x090410 ≤ a ∧ a < 0x090420) then s.crcStore a v
  else if 0x0A0000 ≤ a ∧ a < 0x0A3000 then s.senseStore a v cfg
  else if 0x0B0100 ≤ a ∧ a < 0x0B0300 ∧ (a % 0x20 = 0 ∨ a % 0x20 = 4) then
    (s.filtRun.regStore a v).filtCfgWritten ((a - 0x0B0100) / 0x20)
  else if 0x0B0000 ≤ a ∧ a < 0x0B2000 then
    let t := s.filtRun.regStore a v
    if s.running then t.lensCheck else t
  else if a = 0x000044 then
    let s := s.regStore a v
    { s with ctl := { s.ctl with ibiDone := Nat.land s.ctl.ibiDone (s.regs.word a).toNat } }
  else (s.regStore a v).clampFields a

/-- A write that reaches the part at an address of Table 19-2 (R8, R10); other addresses take none. -/
def regWrite (s : State) (a : Nat) (v : Word) : State :=
  if (findReg a).isNone || a % 4 != 0 then s else s.hookedStore a v false

/-- A register write of the live-parameter source: one to the EX_ space, but for the commit itself, is noted for the local loop
(R122). -/
def sourceWrite (s : State) (a : Nat) (v : Word) : State :=
  let s := s.regWrite a v
  if (findReg a).isSome ∧ 0x020000 ≤ a ∧ a < 0x030000 ∧ a ≠ 0x020008 then
    { s with expo := { s.expo with exWritten := true } } else s

/-- ID_DEVSTATE as it reads (R28, R34). -/
def devWord (s : State) : Word :=
  BitVec.ofNat 32 (causeCode s.cause * 65536 + devCode s.prev * 256 + devCode s.dev)

/-- A read of the word at `a`, with the captures its register defines (R451, R76, R353, R370); 0 where nothing is mapped (log entry 52). -/
def busRead (s : State) (a : Nat) : State × Word :=
  if (findReg a).isNone then (s, 0#32)
  else if a = 0x000010 then (s, s.devWord)
  else if 0x010020 ≤ a ∧ a < 0x010100 ∧ a % 0x40 = 0x20 then s.posRead ((a - 0x010000) / 0x40)
  else if a = 0x010100 then s.timeloRead
  else if 0x0A0200 ≤ a ∧ a < 0x0A2000 ∧ a % 0x1000 < 0x300 ∧ 0x200 ≤ a % 0x1000 ∧ a % 0x10 = 0 then
    s.senseRead ((a - 0x0A0000) / 0x1000) ((a % 0x1000 - 0x200) / 16)
  else if 0x0A0300 ≤ a ∧ a < 0x0A2000 ∧ 0x300 ≤ a % 0x1000 ∧ a % 0x1000 < 0x340 ∧ a % 0x10 = 0 then
    s.senseRead ((a - 0x0A0000) / 0x1000) (16 + (a % 0x1000 - 0x300) / 16)
  else if a = 0x0B0004 ∨ a = 0x0B001C then let s := s.lensRefresh; (s, s.regs.word a)
  else if 0x0B0100 ≤ a ∧ a < 0x0B0300 ∧ a % 0x20 = 0x10 then s.filtOutRead ((a - 0x0B0100) / 0x20)
  else if 0x0B0000 ≤ a ∧ a < 0x0B1000 then let s := s.filtRun; (s, s.regs.word a)
  else if a = 0x0C1038 then let s := s.refreshDomains; (s, s.regs.word a)
  else (s, s.regs.word a)

end State

end Sys2Proof.Machine
end

