-- ==== Sys2Proof/Machine/Loader.lean ====
section
/-! DEFINITION. The boot loader over a Grirex image: items, their checks, the write lists, TABLES, DEFECTS, RIG and the
end of a slot (16_boot_and_configuration.md R433 to R444). -/
namespace Sys2Proof.Machine

namespace Boot

/-- The code of an item in ID_BOOTSTAT.ITEMA and ITEMB. -/
def itemCode : BootItem → Nat
  | .header => 8
  | .table => 9
  | .part t => t

/-- Bytes to read for an item, its CRC included (Tables 16-3 to 16-5). -/
def itemSize (b : Boot) : BootItem → Nat
  | .header => 64
  | .table => 16 * leAt b.header 16 2 + 4
  | .part t => match b.sections.find? (·.typ == t) with
    | some e => e.length + 4
    | none => 0

/-- The entries of a section table (Table 16-4). -/
def tableEntries (bs : List Byte) : List Section :=
  (List.range ((bs.length - 4) / 16)).map fun i =>
    let o := 16 * i
    ⟨leAt bs o 1, leAt bs (o + 4) 4, leAt bs (o + 8) 4⟩

/-- A section's LENGTH meets Table 16-5. -/
def lengthOk (e : Section) : Bool :=
  match e.typ with
  | 1 => e.length % 8 == 0 && decide (e.length ≤ 4096)
  | 2 => e.length % 8 == 0 && decide (e.length ≤ 262144)
  | 3 => e.length % 8 == 0 && decide (e.length ≤ 262144)
  | 4 => e.length % 4 == 0
  | 5 => e.length % 4 == 0 && decide (4 ≤ e.length ∧ e.length ≤ 4 + 4 * 1048576)
  | 6 => e.length == 8
  | 7 => e.length == 128
  | _ => false

/-- R434 for the section table, with the multiple of 16 of Table 16-4 (log entry 16). -/
def tableValid (hdr : List Byte) (es : List Section) : Bool :=
  let imglen := leAt hdr 8 4
  let start := 64 + 16 * es.length + 4
  es.all (fun e => decide (1 ≤ e.typ ∧ e.typ ≤ 7) && lengthOk e && e.offset % 16 == 0 &&
      decide (start ≤ e.offset ∧ e.offset + e.length + 4 ≤ imglen)) &&
    es.any (·.typ == 2) &&
    (List.range es.length).all fun i => (List.range es.length).all fun j =>
      if i < j then
        match es[i]?, es[j]? with
        | some a, some b => a.typ != b.typ &&
            (decide (a.offset + a.length + 4 ≤ b.offset) || decide (b.offset + b.length + 4 ≤ a.offset))
        | _, _ => true
      else true

/-- R434 for the header: none where it is valid, else the result code FORMAT or VARIANT of ID_BOOTSTAT. -/
def headerFault (hdr : List Byte) (mono : Bool) : Option Nat :=
  if leAt hdr 0 4 ≠ 0x49585247 ∨ leAt hdr 4 2 ≠ 1 ∨ leAt hdr 6 2 ≠ 64 ∨ leAt hdr 8 4 > 33554432 ∨
      leAt hdr 16 2 = 0 ∨ leAt hdr 16 2 > 7 then some 4
  else if !hasBit (leAt hdr 18 1) (if mono then 1 else 0) then some 5
  else none

/-- The TYPE after `t` that the table holds, in ascending order (R440). -/
def nextSection (b : Boot) (t : Nat) : Option Nat :=
  (List.range 8).find? fun u => decide (t < u) && b.sections.any (·.typ == u)

end Boot

namespace State

/-- The start of a read of an item: nothing read yet, and its first burst commanded (R433). -/
def startItem (s : State) (i : BootItem) : State :=
  let s : State := { s with boot := { s.boot with item := some i, buf := [], burstAt := s.up, reads := [] } }
  match i with
  | .part 4 => s.clearTables
  | .part 5 => s.clearDefects
  | _ => s

/-- A slot's result, item and stability in ID_BOOTSTAT. -/
def bootResult (s : State) (slot res item stable : Nat) : State :=
  if slot = 0 then
    ((s.set Reg.ID_BOOTSTAT_RESA res).set Reg.ID_BOOTSTAT_ITEMA item).set Reg.ID_BOOTSTAT_STABLEA stable
  else ((s.set Reg.ID_BOOTSTAT_RESB res).set Reg.ID_BOOTSTAT_ITEMB item).set Reg.ID_BOOTSTAT_STABLEB stable

/-- The slot in hand fails (R443): its result is recorded, every register outside the always-on partition returns to its
reset value and the table memories are cleared; SLOT_REVERT_DONE ends the revert (log entry 60). -/
def slotFail (s : State) (res item stable : Nat) : State :=
  match s.boot.slot with
  | none => s
  | some k =>
    let s := s.bootResult k res item stable
    let s : State := { s with
      regs := s.regs.filter fun e => decide (e.1 < 0x10000 ∨ (0xD0000 ≤ e.1 ∧ e.1 < 0xE0000)) || s.keepsOnRevert e.1
      inForce := [], cpInForce := []
      tbs := List.replicate 4 TbCh.init, slots := List.replicate 64 Slot.init
      cis := Cis.init }
    let s : State := (s.clearTables).clearDefects
    let s : State := (s.set Reg.LK_TRCFG_TRCLASS (s.get Reg.ID_STRAP_TRCLASS)).set Reg.ID_CTRLSTAT_LIVESRC 0
    { s with boot := { Boot.init with
        porn := s.boot.porn, pornAt := s.boot.pornAt, strapped := true, shadowed := true, todo := s.boot.todo
        trims := s.boot.trims, reverting := true } }

/-- Slot `k` is begun, `rest` still to try, with no DEFECTS section seen (R477): with the NVM's domain lost it fails at once (R440,
R399). -/
def beginSlot (s : State) (k : Nat) (rest : List Nat) : State :=
  let s : State := { s with boot := { s.boot with todo := rest, slot := some k, reverting := false } }
  let s := s.set Reg.ID_FUSESTAT_DEFHASH 0
  if hasBit s.domLost 9 then s.slotFail 8 8 0 else s.startItem .header

/-- The next slot of the order is begun, or HALT_CONFIG is entered (R440, R444). -/
def nextSlot (s : State) : State :=
  match s.boot.todo with
  | [] => s.enterHaltConfig
  | k :: rest => s.beginSlot k rest

/-- The loader has read every section: with no SIGNATURE and no enforcement, no check is awaited (R439, R440) (log entry 16). -/
def sectionsRead (s : State) : State :=
  let s : State := { s with boot := { s.boot with item := none, allRead := true } }
  if s.flag Reg.ID_BOOTSTAT_ENFORCE || s.boot.sections.any (·.typ == 7) then s
  else { s with boot := { s.boot with sig := some false } }

/-- On to the section after TYPE `t`, or to the end of the sections. -/
def afterSection (s : State) (t : Nat) : State :=
  match s.boot.nextSection t with
  | some u => s.startItem (.part u)
  | none => s.sectionsRead

/-- Addresses that EXPOSURE_PLAN may write: TB_, EV_, EX_, RD_, TK_ and BLK_ (Table 16-5). -/
def planAddr (a : Nat) : Bool := decide (0x10000 ≤ a ∧ a < 0x50000) || decide (0x100000 ≤ a ∧ a < 0x200000)

/-- One WRITE entry (R435, R436): RW and W1C fields at once, RWC fields in the shadow set and in the settings in force. -/
def cfgWrite (s : State) (sec a : Nat) (v : Word) : State :=
  match findReg a with
  | none => s.bump Reg.BT_CFGSTAT_IGNCNT
  | some d =>
    let woOnly := d.wo != 0 && d.rw == 0 && d.w1c == 0 && d.rwc == 0
    if a % 4 ≠ 0 ∨ woOnly ∨ a = 0x080410 ∨ (sec = 3 ∧ !planAddr a) then s.bump Reg.BT_CFGSTAT_IGNCNT
    else
      let s := s.bump Reg.BT_CFGSTAT_APPLIED
      let s : State := if a = 0x0E0000 ∧ sec = 2 then
          let s : State := (s.set Reg.BT_CTRL_LIVESRC (bitOf v.toNat 31)).set Reg.BT_CTRL_SPDI3C (bitOf v.toNat 30)
          s.set Reg.ID_CTRLSTAT_LIVESRC (bitOf v.toNat 31)
        else s
      let s := s.hookedStore a v true
      if d.rwc = 0 then s
      else
        let m := BitVec.ofNat 32 d.rwc
        if 0x70000 ≤ a ∧ a < 0x80000 then
          { s with cpInForce := s.cpInForce.put a ((s.cpInForce.word a &&& ~~~m) ||| (v &&& m)) }
        else { s with inForce := s.inForce.put a ((s.inForce.word a &&& ~~~m) ||| (v &&& m)) }

/-- The entries of the write list in hand, up to a DELAY (R435); after the last, the next section. CONFIG applied starts
the cistern initialisation (R440) (log entry 17). -/
def runWriteList (s : State) : List (List Byte) → State
  | [] =>
    let t := s.boot.wlSection
    let s : State := { s with boot := { s.boot with wl := [], wlSection := 0 } }
    let s : State := if t = 2 then { s with boot := { s.boot with cisStart := true } } else s
    s.afterSection t
  | e :: rest =>
    let op := leAt e 3 1
    let v := leAt e 4 4
    if op = 1 then
      { s with boot := { s.boot with wl := rest, delayUntil := some (s.up + min v 10000 * 1000) } }
    else if op = 0 then runWriteList (s.cfgWrite s.boot.wlSection (leAt e 0 3) (BitVec.ofNat 32 v)) rest
    else runWriteList (s.bump Reg.BT_CFGSTAT_IGNCNT) rest

/-- The 8-byte entries of a write list (Table 16-6). -/
def entriesOf (bs : List Byte) : List (List Byte) := (List.range (bs.length / 8)).map fun i => (bs.drop (8 * i)).take 8

/-- The RIG section (R438, Table 16-8). -/
def rigSection (s : State) (bs : List Byte) : State :=
  let role := leAt bs 0 1
  let hop := leAt bs 1 1
  if role > 2 ∨ (role = 1 ∧ hop ≠ 0) ∨ (role = 2 ∧ hop = 0) then s.set Reg.BT_CFGSTAT_RIGERR 1
  else
    let s : State := (s.set Reg.TB_RIG_MASTER (if role = 1 then 1 else 0)).set Reg.TB_RIG_HOP (hop % 16)
    { s with boot := { s.boot with rigRole := role } }

/-- One record of TABLES (R437); `fuel` bounds the records, four bytes at least each (log entry 14). -/
def tablesRecords (s : State) (bs : List Byte) : Nat → State
  | 0 => s
  | fuel + 1 =>
    if bs.length < 4 then s
    else
      let t := leAt bs 0 1
      let n := leAt bs 1 3
      let body := (bs.drop 4).take n
      let s :=
        if body.length ≠ n then s.bump Reg.BT_CFGSTAT_TABSKIP
        else if t = 1 then s.shadingRecord body
        else if t = 2 ∧ 4 ≤ n ∧ n = 4 + 4 * leAt body 2 2 ∧ leAt body 0 2 + leAt body 2 2 ≤ 1024 then
          (List.range (leAt body 2 2)).foldl (fun s i =>
            s.set Reg.FE_COEF_H (leAt body (4 + 4 * i) 4) (leAt body 0 2 + i)) s
        else s.bump Reg.BT_CFGSTAT_TABSKIP
      tablesRecords s (bs.drop (4 + n)) fuel

/-- The content of a section whose CRC matched (R440) (log entry 14). -/
def sectionAccepted (s : State) (t : Nat) (bs : List Byte) : State :=
  let s : State := { s with boot := { s.boot with contents := s.boot.contents ++ [(t, bs)] } }
  match t with
  | 2 => ({ s with boot := { s.boot with item := none, wlSection := 2 } }).runWriteList (entriesOf bs)
  | 3 => ({ s with boot := { s.boot with item := none, wlSection := 3 } }).runWriteList (entriesOf bs)
  | 4 => (s.tablesRecords bs (bs.length / 4 + 1)).afterSection 4
  | 5 => ((s.loadDefects bs).defectHash bs).afterSection 5
  | 6 => (s.rigSection bs).afterSection 6
  | _ => s.afterSection t

/-- The third read of an item has failed (R441, R442). -/
def itemFailed (s : State) (i : BootItem) (reads : List (Option Nat)) (bs : List Byte) : State :=
  let stable := match reads with
    | [some a, some b, some c] => if a = b ∧ b = c then 1 else 0
    | _ => 0
  let res := if reads.all (·.isNone) then 3 else 2
  if i = .part 1 then
    ({ s with boot := { s.boot with safeBad := true, contents := s.boot.contents ++ [(1, bs)] } }).afterSection 1
  else s.slotFail res (Boot.itemCode i) stable

/-- One read of the item in hand has ended, with its data or by a timeout (R441). -/
def readEnded (s : State) (i : BootItem) (data : Option (List Byte)) : State :=
  let c := data.map fun d => crc32c (d.take (d.length - 4))
  let reads := s.boot.reads ++ [c]
  let good := match data, c with
    | some d, some c => decide (4 ≤ d.length) && c == leAt d (d.length - 4) 4
    | _, _ => false
  let s : State := match c with
    | some c => s.set Reg.CE_VAL_VAL (Nat.xor c 0xFFFFFFFF) 0
    | none => s
  let bs := (data.getD []).take ((data.getD []).length - 4)
  if good then
    match i with
    | .header =>
      match Boot.headerFault (data.getD []) s.mono with
      | some r => s.slotFail r 8 0
      | none => ({ s with boot := { s.boot with header := data.getD [] } }).startItem .table
    | .table =>
      let es := Boot.tableEntries (data.getD [])
      if Boot.tableValid s.boot.header es then
        let s : State := { s with boot := { s.boot with tableBytes := data.getD [], sections := es } }
        s.afterSection 0
      else s.slotFail 4 9 0
    | .part t => s.sectionAccepted t bs
  else if reads.length < 3 then
    let s := s.startItem i
    { s with boot := { s.boot with reads := reads } }
  else s.itemFailed i reads bs

/-- The digest of R439: header, section table with TCRC, then every other section's content in ascending TYPE. -/
def imageDigest (s : State) : List Byte :=
  sha256 (s.boot.header ++ s.boot.tableBytes ++
    ((s.boot.contents.filter (·.1 != 7)).map (·.2)).flatten)

/-- Whether the slot's signature is valid (R439) (log entries 13 and 16). -/
def signatureValid (s : State) : Bool :=
  match s.boot.contents.find? (·.1 == 7) with
  | none => false
  | some (_, b) =>
    sha256 (b.take 64) == s.keyHash &&
      ecdsaValid s.imageDigest (leAt b 0 32) (leAt b 32 32) (leAt b 64 32) (leAt b 96 32)

end State

end Sys2Proof.Machine
end

