-- ==== Sys2Proof/Machine/Boot.lean ====
section
/-! DEFINITION. Boot and power commands: PORn, straps, the fuse shadow, PLL lock, the loader's bursts, the signature, the
end of a slot, and the SPD bus (16_boot_and_configuration.md, 01_architecture.md R28 to R32). -/
namespace Sys2Proof.Machine

open Host (Outcome)

namespace State

/-- The slots of SLOT in their order (Table 16-1): 0 = A, 1 = B. -/
def slotOrder (s : State) : Nat × List Nat :=
  match s.get Reg.ID_STRAP_SLOT with
  | 0 => (0, [1])
  | 1 => (1, [0])
  | 2 => (0, [])
  | _ => (1, [])

/-- What goes with the entry to LOAD: the watchdog is armed with its timer at 0 (R413), the guard holds (R418), the blocks are on
for their trims (R440), and the slot that SLOT leaves out is reported so (log entry 53). -/
def loadWork (s : State) : State :=
  let s : State := s.set Reg.SP_WDSTAT_ARMED 1
  let s : State := (s.powerAll).holdAll 1
  let s : State := { s with safety := { s.safety with wdAt := s.up, hbAlive := none } }
  match s.get Reg.ID_STRAP_SLOT with
  | 2 => s.set Reg.ID_BOOTSTAT_RESB 7
  | 3 => s.set Reg.ID_BOOTSTAT_RESA 7
  | _ => s

/-! ## Pins (R430, R431) -/

/-- BOOTBUSY (R431): high while PORn is low. -/
def bootBusyPin (s : State) : Bool := !s.boot.porn || s.gal.bootBusy

/-- What the part drives on gallery pin `p` for its configured functions, none for high impedance (R430, Table 16-2). -/
def galPin (s : State) (p : Nat) : Option Bool := if s.boot.porn then s.gal.out.getD p none else none

/-- The flash byte at which an item begins, relative to the slot (Tables 16-3 to 16-5). -/
def itemStart (s : State) (i : BootItem) : Nat :=
  match i with
  | .header => 0
  | .table => 64
  | .part t => match s.boot.sections.find? (·.typ == t) with
    | some e => e.offset
    | none => 0

/-- The read that the loader has on the xSPI bus, for which NVM_CS_N is low: command and extension codes, flash byte, latency cycles
where the spec gives them, and length (R430, R432, R433). None where no read is under way. -/
def nvmRead (s : State) : Option (List Nat × Nat × Option Nat × Nat) :=
  match s.boot.slot, s.boot.item with
  | some k, some i =>
    if s.dev = .load ∧ s.boot.porn then
      let at' := k * 0x2000000 + s.itemStart i + s.boot.buf.length
      let n := min 4096 (s.boot.itemSize i - s.boot.buf.length)
      some (if s.get Reg.ID_STRAP_NVM < 2 then ([0xEE, 0x11], at', some 20, n) else ([0x13], at', none, n))
    else none
  | _, _ => none

/-- LOAD is entered once straps, fuse shadow and PLL lock are all complete (R28, R428), and the first slot of the order is
begun (R440). -/
def tryLoad (s : State) : State :=
  if s.dev = .safeBoot ∧ s.boot.strapped ∧ s.boot.shadowed ∧ s.pllMain then
    let s : State := (s.enter .load .bootStart).loadWork
    s.beginSlot s.slotOrder.1 s.slotOrder.2
  else s

end State

/-- PORN_RISE (R28, R428): SAFE_BOOT with CAUSE POWER_ON, from any state but OFF without VDDAON and SHUTDOWN (log entry 9). -/
def execPornRise (s : State) : Outcome State Fault Refusal :=
  ok (if s.boot.porn then s
    else
      let s : State := { s with boot := { s.boot with porn := true } }
      if s.dev = .shutdown ∨ !s.vddaon then s else s.powerOnReset)

/-- PORN_FALL (R28, R428): PORn is low; SAFE_BOOT follows on its rise. SHUTDOWN does not heed it (log entry 9). -/
def execPornFall (s : State) : Outcome State Fault Refusal :=
  ok { s with boot := { s.boot with porn := false } }

/-- VDDAON_LOSS (Table 1-5, Table 15-2): the partition resets and the device is OFF. -/
def execVddaonLoss (s : State) : Outcome State Fault Refusal := ok s.vddaonLost

/-- VDDAON_RISE (Table 1-5, R508): the always-on partition starts at its reset values; with PORn high SAFE_BOOT follows. -/
def execVddaonRise (s : State) : Outcome State Fault Refusal :=
  ok (if s.vddaon then s
    else
      let s : State := { s with vddaon := true }
      if s.boot.porn then s.powerOnReset else s)

/-- STRAP_SAMPLE (R429): GAL18 to GAL10 as bits 8 to 0, once, 1 ms after PORn rises. -/
def execStrapSample (levels : Nat) (s : State) : Outcome State Fault Refusal :=
  ok (if s.dev = .safeBoot ∧ !s.boot.strapped ∧ 1000000 ≤ s.up - s.boot.pornAt then
    let s : State := { s with regs := s.regs.put 0x000034 (BitVec.ofNat 32 (levels % 512)) }
    let s := s.set Reg.LK_TRCFG_TRCLASS (levels / 128 % 4)
    ({ s with boot := { s.boot with strapped := true } }).tryLoad
  else s)

/-- FUSE_BANK_SHADOW_DONE (R428, R460 to R462, R475): the chip bank, its lock fuses and the enforcement fuses have been read;
`ws` are words that now read otherwise than before (log entries 20 and 21). -/
def execFuseBankShadowDone (ws : List (Nat × Nat × Nat)) (s : State) : Outcome State Fault Refusal :=
  ok (if s.dev = .safeBoot ∧ !s.boot.shadowed then
    let s := (s.drift ws).readChipBank
    ({ s with boot := { s.boot with shadowed := true } }).tryLoad
  else s)

/-- PLL_MAIN_LOCK (R18, R288, R428): device time starts at 0 at the first lock after reset, before which it does not run, and
never goes back; the marker slots count from this lock. -/
def execPllMainLock (s : State) : Outcome State Fault Refusal :=
  ok (if s.dev = .safeBoot ∧ !s.pllMain then ({ s with pllMain := true, markerCount := 0, markerAt := s.now }).tryLoad else s)

/-- STARTUP_TIMEOUT (R32): 10 ms have passed; an arrival in the cycle in which they expire wins (R447). -/
def execStartupTimeout (s : State) : Outcome State Fault Refusal :=
  ok (if s.dev = .safeBoot ∧ 10000000 < s.up - s.boot.pornAt then
    if s.safety.refBad then (s.setFault 7).enterStop .safe .refclkLoss
    else (s.setFault 6).enterStop .safe .pllLoss
  else s)

/-- The burst under way has not completed within 100 µs of its command; one that completes in the cycle in which they expire has
(R433, R447). -/
def State.burstLate (s : State) : Bool := decide (s.boot.burstAt + 100000 < s.up)

/-- XSPI_BURST_DONE (R433, R440, R441): the bytes of a burst of at most 4 KiB pass to the loader; a full item is checked. After
100 µs the read has timed out. -/
def execXspiBurstDone (data : List Byte) (s : State) : Outcome State Fault Refusal :=
  match s.boot.item with
  | none => ok s
  | some i =>
    if s.dev ≠ .load ∨ s.boot.delayUntil.isSome ∨ !s.domainOn 9 then ok s
    else if s.burstLate then ok (s.readEnded i none)
    else
      let size := s.boot.itemSize i
      let buf := s.boot.buf ++ data.take (min 4096 (size - s.boot.buf.length))
      if buf.length < size then ok { s with boot := { s.boot with buf := buf, burstAt := s.up } }
      else ok (s.readEnded i (some buf))

/-- XSPI_BURST_TIMEOUT (R433, R441): that read of the item has timed out. -/
def execXspiBurstTimeout (s : State) : Outcome State Fault Refusal :=
  match s.boot.item with
  | none => ok s
  | some i => ok (if s.dev = .load ∧ s.burstLate then s.readEnded i none else s)

/-- WRITE_LIST_DELAY_END (R435): the pause ends and the list goes on. -/
def execWriteListDelayEnd (s : State) : Outcome State Fault Refusal :=
  match s.boot.delayUntil with
  | none => ok s
  | some t =>
    ok (if s.dev = .load ∧ t ≤ s.up then
      ({ s with boot := { s.boot with delayUntil := none } }).runWriteList s.boot.wl else s)

/-- SIGNATURE_CHECK_DONE (R439, R442): the result is held for SIGOK; under enforcement an invalid one fails the slot. -/
def execSignatureCheckDone (s : State) : Outcome State Fault Refusal :=
  ok (if s.dev = .load ∧ s.boot.allRead ∧ s.boot.sig.isNone then
    let good := s.signatureValid
    if !good && s.flag Reg.ID_BOOTSTAT_ENFORCE then s.slotFail 6 7 0
    else { s with boot := { s.boot with sig := some good } }
  else s)

/-- SLOT_REVERT_DONE (R443): the loader reads the next slot from its header, or HALT_CONFIG is entered. -/
def execSlotRevertDone (s : State) : Outcome State Fault Refusal :=
  ok (if s.dev = .load ∧ s.boot.reverting then s.nextSlot else s)

/-- SLOT_ACCEPT (R440): every part complete; SAFETY or the fuse defaults are locked (R405) and LOAD is left for TRAIN. -/
def execSlotAccept (s : State) : Outcome State Fault Refusal :=
  match s.boot.slot with
  | none => ok s
  | some k =>
    ok (if s.dev = .load ∧ s.boot.allRead ∧ s.boot.sig.isSome ∧ s.trimsLoaded ∧ s.boot.cisDone then
      let s := s.bootResult k 1 0 0
      let s : State := (s.set Reg.ID_BOOTSTAT_USED (k + 1)).set Reg.ID_BOOTSTAT_SIGOK (if s.boot.sig = some true then 1 else 0)
      let s : State := (s.set Reg.ID_BOOTSTAT_SAFEBAD (if s.boot.safeBad then 1 else 0)).set Reg.ID_IMGSEQ_SEQNUM
        (leAt s.boot.header 12 4)
      let saf := if s.boot.safeBad then none else (s.boot.contents.find? (·.1 == 1)).map (·.2)
      let s := s.lockSafety saf
      let s : State := if s.flag Reg.BT_CTRL_SPDI3C then
          (s.emit .spdSetaasa).set Reg.BT_SPD_I3CACT (s.get Reg.BT_SPD_PRESENT)
        else s
      s.enterTrain
    else s)

/-- A failed SPD transfer of hub `n` (R453): counted; in LOAD the third in a row, in RUN and STANDBY the ninth, three reads of a
transfer and two retries each, loses the channel with CAUSE 0x2 (log entry 93). -/
def State.spdFailed (s : State) (n : Nat) : State :=
  let s := s.bump Reg.BT_SPD_ERRCNT
  let f := s.ctl.spdFails.getD n 0 + 1
  let s : State := { s with ctl := { s.ctl with spdFails := s.ctl.spdFails.set n f } }
  if (if s.dev = .load then 3 else 9) ≤ f then
    ({ s with ctl := { s.ctl with spdFails := s.ctl.spdFails.set n 0 } }).channelLost n 2
  else s

/-- SPD_TRANSFER_DONE (R452, R453): a transfer with hub `n` ends, acknowledged or not. An answer in LOAD marks it present. -/
def execSpdTransferDone (n : Nat) (ack : Bool) (s : State) : Outcome State Fault Refusal :=
  ok (if n < 4 ∧ (s.dev = .load ∨ s.running) then
    if ack then
      let s : State := { s with ctl := { s.ctl with spdFails := s.ctl.spdFails.set n 0 } }
      if s.dev = .load then s.set Reg.BT_SPD_PRESENT (withBit (s.get Reg.BT_SPD_PRESENT) n) else s
    else s.spdFailed n
  else s)

/-- SPD_TRANSFER_TIMEOUT (R453): a transfer stalled for more than 10 ms fails. -/
def execSpdTransferTimeout (n : Nat) (s : State) : Outcome State Fault Refusal :=
  ok (if n < 4 ∧ (s.dev = .load ∨ s.running) then s.spdFailed n else s)

end Sys2Proof.Machine
end

