-- ==== Sys2Proof/Machine/Control.lean ====
section
/-! DEFINITION. The control ports: I3C private transfers and CCCs, in-band interrupts, WADDR and WDATA of the return lanes,
and a plain register write (16_boot_and_configuration.md R448 to R451; 01_architecture.md R22 to R27; R424). -/
namespace Sys2Proof.Machine

open Host (Outcome)

/-- ID_ and SP_ lie in the always-on partition (R26). -/
def alwaysOn (a : Nat) : Bool := decide (a < 0x10000) || decide (0xD0000 ≤ a ∧ a < 0xE0000)

/-- A register with an RWC field, or a commit register: what the live-parameter source governs (R23). -/
def liveParam (a : Nat) : Bool :=
  a == 0x020008 || a == 0x070004 || (match findReg a with
    | some d => d.rwc != 0
    | none => false)

namespace State

/-- One word of an I3C transaction at `a`, under R23, R27 and its register's access codes (log entry 24). -/
def i3cWord (s : State) (a : Nat) (v : Word) : State :=
  if s.stopped && !alwaysOn a then s.set Reg.ID_CTRLSTAT_UNAVAIL 1
  else if s.flag Reg.ID_CTRLSTAT_LIVESRC then
    if liveParam a then s.bump Reg.ID_CTRLSTAT_REJCNT else s.regWrite a v
  else s.sourceWrite a v

/-- The words of a transaction in order, each at the address of the last plus 4 (R449) (log entry 24). -/
def i3cWords (s : State) (a : Nat) : List Word → State
  | [] => s
  | v :: rest => i3cWords (s.i3cWord a v) (a + 4) rest

/-- Four bytes at a time, least significant first. -/
def wordsOf (bs : List Byte) : List Word :=
  (List.range (bs.length / 4)).map fun i => BitVec.ofNat 32 (leAt bs (4 * i) 4)

/-- `n` words read from `a` on, each with the captures of its register (R451); in SAFE, SHUTDOWN and HALT_CONFIG other
spaces read 0 and set UNAVAIL (R26). -/
def i3cRead (s : State) (a : Nat) : Nat → State × List Byte
  | 0 => (s, [])
  | n + 1 =>
    let (s, v) := if s.stopped && !alwaysOn a then (s.set Reg.ID_CTRLSTAT_UNAVAIL 1, 0#32) else s.busRead a
    let (s, bs) := i3cRead s (a + 4) n
    (s, leBytes 4 v.toNat ++ bs)

/-- The lowest source that is set, enabled and not yet signalled (R424). -/
def ibiNext (s : State) : Option Nat :=
  (List.range 6).find? fun i =>
    hasBit (s.regs.word 0x000044).toNat i && hasBit (s.get Reg.ID_IBIEN_EN) i && !hasBit s.ctl.ibiDone i

/-- The part is on its I3C bus: the partition runs in every state but OFF (R403). -/
def busUp (s : State) : Bool := s.dev != .off

/-- A dynamic address taken, or given up with none (R448). -/
def setDyn (s : State) (a : Option Nat) : State :=
  match a with
  | some a => (s.set Reg.BT_I3CSTAT_DAVALID 1).set Reg.BT_I3CSTAT_DYNADDR a
  | none => (s.set Reg.BT_I3CSTAT_DAVALID 0).set Reg.BT_I3CSTAT_DYNADDR 0

/-- The bytes of an answer to a CCC. -/
def cccAnswer (s : State) (bs : List Byte) : State := if s.busUp then s.emit (.i3c bs) else s

end State

/-- A discard of R37 has fallen into the write of `n` bytes that ends now: nine clocks of 12.5 MHz a byte, its address byte included
(R448, R449) (log entry 94). -/
def State.cutShort (s : State) (n : Nat) : Bool := s.ctl.discardAt.any fun t => decide (s.up < t + 720 * (n + 1))

/-- The address at which the target answers private transfers: the dynamic one once it has it, the static one until then (R448, Table
16-1). -/
def State.i3cAddr (s : State) : Nat :=
  if s.flag Reg.BT_I3CSTAT_DAVALID then s.get Reg.BT_I3CSTAT_DYNADDR else 0x30 + s.get Reg.ID_STRAP_I3CA

/-- I3C_PRIVATE_WRITE (R25, R27, R37, R449, R450): three address bytes and data words. A transaction with a parity error, a
misaligned address, a broken word or more than 256 words, and one that a discard of R37 falls into, is discarded whole; before RUN it
is discarded and counted. -/
def execI3cPrivateWrite (bytes : List Byte) (parity : Bool) (s : State) : Outcome State Fault Refusal :=
  if !s.busUp then ok s
  else
    let a := leAt bytes 0 3
    let data := bytes.drop 3
    if !parity || decide (bytes.length < 3) || a % 4 != 0 || data.length % 4 != 0 || decide (1024 < data.length) then
      ok (s.bump Reg.BT_I3CSTAT_DISCNT)
    else if s.cutShort bytes.length then ok ((s.bump Reg.BT_I3CSTAT_DISCNT).flagDiscard)
    else if data.isEmpty then ok { s with ctl := { s.ctl with readPtr := a } }
    else if s.dev = .safeBoot ∨ s.dev = .load ∨ s.dev = .train then ok (s.bump Reg.ID_CTRLSTAT_EARLYCNT)
    else ok (s.i3cWords a (State.wordsOf data))

/-- I3C_PRIVATE_READ (R26, R451): `n` words, at most 256, from the read pointer, which advances past them. -/
def execI3cPrivateRead (n : Nat) (s : State) : Outcome State Fault Refusal :=
  if !s.busUp then ok s
  else
    let n := min n 256
    let p := s.ctl.readPtr
    let (s, bs) := s.i3cRead p n
    ok (({ s with ctl := { s.ctl with readPtr := (p + 4 * n) % 2 ^ 24 } }).emit (.i3c bs))

/-- I3C_BUS_TIMEOUT (R449, R451): a write under way is discarded; in a read SDA is released. -/
def execI3cBusTimeout (reading : Bool) (s : State) : Outcome State Fault Refusal :=
  ok (if !s.busUp then s
    else if reading then s.bump Reg.BT_I3CSTAT_TOCNT
    else (s.bump Reg.BT_I3CSTAT_TOCNT).bump Reg.BT_I3CSTAT_DISCNT)

/-- REGISTER_WRITE (R8, R10, R25): a write of `v` at `a` over I3C, under the access codes of its fields; before RUN it is discarded and
counted. -/
def execRegisterWrite (a : Nat) (v : Word) (s : State) : Outcome State Fault Refusal :=
  ok (if s.dev = .off then s
    else if s.dev = .safeBoot ∨ s.dev = .load ∨ s.dev = .train then s.bump Reg.ID_CTRLSTAT_EARLYCNT
    else s.i3cWord a v)

/-- A WDATA on group `g` is a live-parameter write or commit from the source that CONFIG did not select (R23). -/
def State.wdataRejected (s : State) (g seq : Nat) : Bool :=
  s.rtTakes g && (s.group g).rtSeq != some (seq % 256) && s.get Reg.LK_CTL_CTLACT == g &&
    !s.flag Reg.ID_CTRLSTAT_LIVESRC &&
    (match s.ctl.wptr with
     | some a => liveParam a
     | none => false)

/-- What an accepted WDATA does (R296): `v` is written at the write pointer, which then advances by 4; none where it is
discarded: without a pointer, on another group, with I3C as the live source, or where the register is not all RWC and no
commit. -/
def State.wdataAct (g : Nat) (v : Word) (s : State) : Option State :=
  match s.ctl.wptr with
  | none => none
  | some a =>
    let pure := match findReg a with
      | some d => d.rwc != 0 && d.rw == 0 && d.w1c == 0 && d.wo == 0
      | none => false
    if s.get Reg.LK_CTL_CTLACT ≠ g ∨ !(a == 0x020008 || a == 0x070004 || pure) ∨ !s.flag Reg.ID_CTRLSTAT_LIVESRC then none
    else
      let s := s.sourceWrite a v
      some { s with ctl := { s.ctl with wptr := s.ctl.wptr.map fun p => (p + 4) % 2 ^ 24 } }

/-- WDATA (R296), with the count of R23. -/
def execWdata (g seq : Nat) (v : Word) (s : State) : Outcome State Fault Refusal :=
  let rej := s.wdataRejected g seq
  let t := s.rtMsg g seq (State.wdataAct g v)
  ok (if rej then t.bump Reg.ID_CTRLSTAT_REJCNT else t)

/-- IBI_REQUEST (R424): at a bus-free condition the lowest source that is due is requested; it is signalled once the
controller acknowledges. -/
def execIbiRequest (ack : Bool) (s : State) : Outcome State Fault Refusal :=
  match s.ibiNext with
  | none => ok s
  | some i =>
    if !s.busUp || !s.ctl.events then ok s
    else
      let s := s.emit (.ibi i)
      ok (if ack then { s with ctl := { s.ctl with ibiDone := withBit s.ctl.ibiDone i } } else s)

/-- ENEC (R448). -/
def execEnec (s : State) : Outcome State Fault Refusal :=
  ok (if s.busUp then { s with ctl := { s.ctl with events := true } } else s)

/-- DISEC (R448). -/
def execDisec (s : State) : Outcome State Fault Refusal :=
  ok (if s.busUp then { s with ctl := { s.ctl with events := false } } else s)

/-- RSTDAA (R448). -/
def execRstdaa (s : State) : Outcome State Fault Refusal := ok (if s.busUp then s.setDyn none else s)

/-- ENTDAA (R448): the part has won the arbitration and takes address `a`. -/
def execEntdaa (a : Nat) (s : State) : Outcome State Fault Refusal :=
  ok (if s.busUp && !s.flag Reg.BT_I3CSTAT_DAVALID then s.setDyn (some a) else s)

/-- SETDASA at the static address (R448, Table 16-1). -/
def execSetdasa (a : Nat) (s : State) : Outcome State Fault Refusal :=
  ok (if s.busUp && !s.flag Reg.BT_I3CSTAT_DAVALID then s.setDyn (some a) else s)

/-- SETNEWDA (R448). -/
def execSetnewda (a : Nat) (s : State) : Outcome State Fault Refusal :=
  ok (if s.busUp && s.flag Reg.BT_I3CSTAT_DAVALID then s.setDyn (some a) else s)

/-- An answer of `n` bytes whose value spec/ does not state: free bytes (log entry 2). -/
def State.freeAnswer (s : State) (n : Nat) : State :=
  if s.busUp then
    let bs := (List.range n).map fun i => Config.freeByte (s.free + i)
    ({ s with free := s.free + n }).emit (.i3c bs)
  else s

/-- GETPID (R448): the 6-byte provisioned ID, whose value spec/ does not state. -/
def execGetpid (s : State) : Outcome State Fault Refusal := ok (s.freeAnswer 6)

/-- GETBCR (R448): the bus characteristics register, whose value spec/ does not state. -/
def execGetbcr (s : State) : Outcome State Fault Refusal := ok (s.freeAnswer 1)

/-- GETDCR (R448): the device characteristics register, whose value spec/ does not state. -/
def execGetdcr (s : State) : Outcome State Fault Refusal := ok (s.freeAnswer 1)

/-- GETSTATUS (R448): the 2-byte target status, whose value spec/ does not state. -/
def execGetstatus (s : State) : Outcome State Fault Refusal := ok (s.freeAnswer 2)

/-- GETMWL (R448): 1,027 bytes, most significant byte first as the I3C specification sends it (log entry 25). -/
def execGetmwl (s : State) : Outcome State Fault Refusal := ok (s.cccAnswer [0x04, 0x03])

/-- GETMRL (R448): 1,024 bytes (log entry 25). -/
def execGetmrl (s : State) : Outcome State Fault Refusal := ok (s.cccAnswer [0x04, 0x00])

/-- UNSUPPORTED_CCC (R448): a direct one is NACKed and counted, a broadcast one ignored. -/
def execUnsupportedCcc (direct : Bool) (s : State) : Outcome State Fault Refusal :=
  ok (if s.busUp && direct then (s.emit .i3cNack).bump Reg.BT_I3CSTAT_CCCNAK else s)

end Sys2Proof.Machine
end

