-- ==== Sys2Proof/Machine/Power.lean ====
section
/-! DEFINITION. The thermal sample, STANDBY, and the loss of power-good of a switched domain (14_thermal_and_power.md R380,
R385, R393, R399 to R401). -/
namespace Sys2Proof.Machine

open Host (Outcome)

namespace State

/-- Every resolver channel in TRACK enters COAST (R69, R72, R359, R379). -/
def resolversCoast (s : State) : State :=
  (List.range 4).foldl (fun s n => if s.get Reg.TB_CFG_SRC n = 3 then s.toCoast n else s) s

/-- PD_SNS is lost: both units are FAILED until the next boot (Table 12-2). -/
def senseDomainLost (s : State) : State :=
  let s : State := (s.senseOff 0).senseOff 1
  let s : State := { s with sense := s.sense.map fun (u : SenseUnit) => { u with failed := true, flight := [] } }
  ((((s.senseShow 0).senseShow 1).filtRun.filtUnfed 0).filtUnfed 1).resolversCoast

/-- PD_FLT is lost: the engine is failed until the next boot and no output is VALID (R379). -/
def filterDomainLost (s : State) : State :=
  let s : State := { s with flt := {
    failed := true
    ch := s.flt.ch.map fun (c : FiltCh) => { c with inQ := [], outQ := [], out := c.out.map fun (o : FiltOut) => { o with valid := false } } } }
  let s : State := (List.range 16).foldl (fun s n => s.set Reg.FE_FC_MAG_AVALID 0 n) s
  s.resolversCoast

/-- PD_TRK is lost: tracking stops (Table 14-6); its reads leave the cells and the arbiters. -/
def trackDomainLost (s : State) : State :=
  { s with
    trk := { s.trk with subs := [], strobes := [] }
    rd := { s.rd with
      cells := s.rd.cells.map fun (c : CellRt) =>
        { c with trackWait := [], trackNow := none, queue := c.queue.filter fun e => !e.track }
      blockOut := s.rd.blockOut.filter fun e => !e.track } }

/-- PD_S2 is lost: no processed output (Table 14-6). What has begun ends with ABORT on its VC, and the frames count in NOPROC (log entry
63). -/
def stage2DomainLost (s : State) : State :=
  let s := s.previewStop
  let s := s.s2.foldl (fun s x =>
    let s : State := if x.linked && decide (0 < x.nextRow) then
        s.sendAbort 4 (x.img.fld Reg.CP_CFG_VC) x.stored.frame.num x.stored.frame.gen x.pgen else s
    s.bump Reg.CP_CNT_NOPROC) s
  ({ s with s2 := [] }).releaseHeaders

/-- All four channels are lost with a cause (Table 1-6, Table 14-6). -/
def allChannelsLost (s : State) (cause : Nat) : State := (List.range 4).foldl (fun s n => s.channelLost n cause) s

/-- The effect of Table 14-6 for the loss of domain `i` of PM_OTHER.ON (log entry 63). -/
def otherLost (s : State) (i : Nat) : State :=
  match i with
  | 0 => s.trackDomainLost
  | 1 => s.senseDomainLost
  | 2 => s.filterDomainLost
  | 3 => s.stage2DomainLost
  | 4 => ({ s.previewStop with pllPv := false }).setFault 6
  | 5 => s.rigFree
  | 6 => s.otpAbort 7
  | 7 => s.allChannelsLost 9
  | 8 => s.allChannelsLost 6
  | 9 => if s.dev = .load then
      match s.boot.item with
      | some k => s.slotFail 8 (Boot.itemCode k) 0
      | none => s.slotFail 8 s.boot.wlSection 0
    else s
  | 11 => { s.dropGroup with cis := { s.dropGroup.cis with readmit := some s.now } }
  | _ => s

/-- Domain `d` of R399 is on: 0 to 255 PD_BLK, 256 to 271 PD_RGN, 272 to 303 PD_LG, 304 to 307 PD_CS, 308 to 319 the domains of
Table 14-6 in its order. -/
def pdOn (s : State) (d : Nat) : Bool :=
  if d < 256 then s.blockOn d
  else if d < 272 then hasBit (s.get Reg.PM_RGN_ON) (d - 256)
  else if d < 304 then hasBit (s.get Reg.PM_LG_ON) (d - 272)
  else if d < 308 then hasBit (s.get Reg.PM_OTHER_CS) (d - 304)
  else s.domainOn (d - 308)

/-- What the loss of domain `d` does (R12, R306, R258, Table 14-6) (log entry 62). -/
def pdLost (s : State) (d : Nat) : State :=
  if d < 256 then s.blockFail d
  else if d < 272 then s.regionFail (d - 256)
  else if d < 304 then s.groupFail (d - 272) 2
  else if d < 308 then s.channelLost (d - 304) 7
  else { s.otherLost (d - 308) with domLost := withBit s.domLost (d - 308) }

end State

/-- DOMAIN_POWER_GOOD_LOSS (R399): a domain that is on loses power-good: it is switched off, PM_STAT.PGLOSS is set and it has
the effect its table or rule states (log entry 62). -/
def execDomainPowerGoodLoss (d : Nat) (s : State) : Outcome State Fault Refusal :=
  ok (if d < 320 ∧ s.pdOn d then ((s.set Reg.PM_STAT_PGLOSS 1).pdLost d).refreshDomains else s)

/-- SENSOR_SAMPLE (R380, R385, R393, R426): the 24 sensors are sampled, in every state after SAFE_BOOT while PORn is high; a converter that gives
no result has none. -/
def execSensorSample (xs : List (Option Int)) (s : State) : Outcome State Fault Refusal :=
  if s.dev = .off ∨ s.dev = .safeBoot ∨ !s.boot.porn then ok s
  else
    let (t, stop) := s.thermalSample xs
    match stop with
    | some (d, c) => ok ((t.enterStop d c).otpCheck)
    | none => ok t.otpCheck

/-- SLEEP (R25, R27, R401): PM_CMD.SLEEP. -/
def execSleep (s : State) : Outcome State Fault Refusal := ok (s.mainWrite s.sleep)

/-- WAKE (R25, R27, R401): PM_CMD.WAKE. -/
def execWake (s : State) : Outcome State Fault Refusal := ok (s.mainWrite s.wake)

end Sys2Proof.Machine
end

