-- ==== Sys2Proof/Machine/Partition.lean ====
section
/-! DEFINITION. The monitors of the safety partition: REFCLK, PLL lock, supplies, oscillator, watchdog, and ALERT_N
(15_safety_partition.md R408 to R414, R423; 01_architecture.md R19). -/
namespace Sys2Proof.Machine

open Host (Outcome)

namespace State

/-- A state after SAFE_BOOT, in which a fault takes the device to SAFE (Table 1-5). -/
def afterBoot (s : State) : Bool := s.dev != .off && s.dev != .safeBoot

/-- A cause of SAFE with the bit of ID_FAULTSUM it sets, if any (R414). -/
def trip (s : State) (bit : Option Nat) (c : Cause) : State :=
  let s : State := match bit with
    | some b => s.setFault b
    | none => s
  s.enterStop .safe c

/-- ALERT_N is low (R423): a stop, a selected fault bit, a timed-out channel with GUARDHOLD, or OSCERR. -/
def alertLow (s : State) : Bool :=
  s.stopped || s.flag Reg.SP_STAT_OSCERR ||
    (List.range 11).any (fun i => hasBit (s.regs.word 0x000014).toNat i && hasBit (s.get Reg.SP_ALERT_FSMASK) i) ||
    (s.flag Reg.SP_ALERT_GUARDHOLD && s.running && (List.range 4).any fun n => s.served n && (s.guardCh n).hold == 2)

end State

/-- REFCLK_WINDOW (R408): a window of 24 oscillator cycles ends with `count`; two bad ones in a row are a REFCLK loss. A good one
after a bad one finds a loss of PLL_MAIN that waited for it (R19) (log entry 56). -/
def execRefclkWindow (count : Nat) (s : State) : Outcome State Fault Refusal :=
  if s.dev = .off then ok s
  else
    let bad := decide (count < 60) || decide (90 < count)
    let n := if bad then min 2 (s.safety.badWin + 1) else 0
    let waits := s.safety.pllWait
    let s : State := { s with safety := { s.safety with badWin := n, refBad := bad, pllWait := waits && bad && n != 2 } }
    ok (if n = 2 ∧ s.afterBoot then s.trip (some 7) .refclkLoss
      else if !bad && waits && s.afterBoot then s.trip (some 6) .pllLoss
      else s)

/-- PLL_LOCK_LOSS (R19, R408, Table 1-6): `which` is 0 for PLL_MAIN, 1 to 4 for PLL_CS0 to PLL_CS3, 5 for PLL_PV. PLL_MAIN with a
good REFCLK is a PLL loss; with a bad one the REFCLK monitor decides (log entry 56). -/
def execPllLockLoss (which : Nat) (s : State) : Outcome State Fault Refusal :=
  if s.dev = .off then ok s
  else if which = 0 then
    if !s.pllMain then ok s
    else
      let s : State := { s with pllMain := false, safety := { s.safety with pllWait := s.safety.refBad } }
      ok (if s.afterBoot ∧ !s.safety.refBad then s.trip (some 6) .pllLoss else s.setFault 6)
  else if which ≤ 4 then
    if !(s.pllCs.getD (which - 1) false) then ok s
    else
      let s : State := ({ s with pllCs := s.pllCs.set (which - 1) false }).setFault 6
      ok (if s.dev == .load || s.mainUp then s.channelLost (which - 1) 8 else s)
  else if which = 5 then
    ok (if s.pllPv then ({ s.previewStop with pllPv := false }).setFault 6 else s)
  else ok s

/-- SUPPLY_TRIP (R410, R411, Table 15-2): a rail of SP_SUPLAST.RAIL's coding, or 6 for VDDAON rising, has tripped its monitor above or
below its window. VDDAON's works from the moment it rises, the others are armed from the end of SAFE_BOOT. -/
def execSupplyTrip (rail : Nat) (high : Bool) (s : State) : Outcome State Fault Refusal :=
  if rail = 6 then ok (if !s.vddaon then s else if high then s.set Reg.SP_STAT_VAONHI 1 else s.vddaonLost)
  else if !s.afterBoot || decide (6 < rail) then ok s
  else
    let s : State := ((s.set Reg.SP_SUPLAST_VALID 1).set Reg.SP_SUPLAST_HIGH (if high then 1 else 0)).set Reg.SP_SUPLAST_RAIL rail
    let s := s.setFault 9
    ok (if rail = 3 then (if s.dev == .load || s.mainUp then s.allChannelsLost 9 else s)
      else s.enterStop .safe (if rail = 1 then .vddcLoss else .supplyLoss))

/-- OSC_CHECK (R409): the safety oscillator measured against CLK_CORE, in kHz, while PLL_MAIN is locked. -/
def execOscCheck (khz : Nat) (s : State) : Outcome State Fault Refusal :=
  ok (if s.dev = .off ∨ !s.pllMain ∨ (30000 ≤ khz ∧ khz ≤ 34000) ∨ s.flag Reg.SP_STAT_OSCERR then s
    else (s.set Reg.SP_STAT_OSCERR 1).raiseIbi 5)

/-- SAFETY_HEARTBEAT (R330, R412, R413, Table 15-3): the four bytes of a heartbeat word, whose CRC CE3 has computed. -/
def execSafetyHeartbeat (word : List Byte) (s : State) : Outcome State Fault Refusal :=
  if s.dev = .off then ok s
  else
    let s := s.ce3 (word.take 2)
    let alive := leAt word 0 1
    let good := word.length == 4 && leAt word 2 2 == crc16 (word.take 2) && leAt word 1 1 == State.devCode s.dev &&
      s.safety.hbAlive != some alive
    ok (if good then { s with safety := { s.safety with hbAlive := some alive, wdAt := s.up } }
      else s.bump Reg.SP_WDSTAT_BADHB)

/-- WATCHDOG_TRIP (R413): 160,000 oscillator cycles without a valid heartbeat; one that arrives at their end wins. -/
def execWatchdogTrip (s : State) : Outcome State Fault Refusal :=
  ok (if s.flag Reg.SP_WDSTAT_ARMED ∧ s.safety.wdAt + 5000000 < s.up then
    (s.bump Reg.SP_WDSTAT_TRIPCNT).trip (some 8) .watchdog else s)

end Sys2Proof.Machine
end

