-- ==== Sys2Proof/Machine/Training.lean ====
section
/-! DEFINITION. The link commands that move the device or reach the cistern: MARKER_OK, the training timeout, RCGO
(10_link_lanes.md R291, R292, R297; 01_architecture.md R30). -/
namespace Sys2Proof.Machine

open Host (Outcome)

/-- The timeout of a training class in ns (R292). -/
def trainClass (c : Nat) : Nat := [50000000, 200000000, 1000000000, 5000000000].getD c 5000000000

/-- A group that completes training after RUN has begun joins as a spare (R30, R307). -/
def State.joinSpare (s : State) (g : Nat) : State := if s.running then { s with joined := withBit s.joined g } else s

/-- MARKER_OK (R291, R292, R333): a group in MARKER becomes ACTIVE with its initial credit limit, and its heartbeats begin; in
TRAIN the RUN condition is looked at, and after RUN the group joins as a spare (R30, R307). -/
def execMarkerOk (g seq limit : Nat) (s : State) : Outcome State Fault Refusal :=
  ok (s.rtMsg g seq fun s =>
    if s.lstate g = lsMarker then
      let s : State := ((s.set Reg.LK_GSTAT_LSTATE lsActive g).set Reg.LK_GUSED_VALUE 0 g).set Reg.LK_GLIM_VALUE limit g
      let s := s.setGroup g fun x => { x with hbCount := 0, hbAt := s.now }
      some (((s.joinSpare g).refreshWait g).tryRun)
    else some s)

/-- TRAINING_TIMEOUT (R30, R292): the time of the class has passed in TRAIN without the RUN condition; groups that are not
ACTIVE train again. -/
def execTrainingTimeout (s : State) : Outcome State Fault Refusal :=
  if s.dev ≠ .train ∨ s.now - s.trainAt < trainClass (s.get Reg.LK_TRCFG_TRCLASS) then ok s
  else if s.runReady then ok s.enterRun
  else
    let s : State := { s.set Reg.LK_SUM_TRAINTO 1 with trainAt := s.now }
    ok ((List.range 32).foldl (fun s g =>
      let l := s.lstate g
      if l = lsClock ∨ l = lsPattern ∨ l = lsMarker then s.backToClock g else s) s)

/-- RCGO (R297, R255, R256): a recall of the frame of the last RCFRM, rows `first` to `last`, on VC `vc`; without one since
the last discard, or off the control group, it is discarded. -/
def execRcgo (g seq first last vc : Nat) (s : State) : Outcome State Fault Refusal :=
  ok (s.rtMsg g seq fun s =>
    match s.ctl.rcfrm with
    | some f => if s.get Reg.LK_CTL_CTLACT = g then some (s.submitRecall f first last (vc % 16)) else none
    | none => none)

end Sys2Proof.Machine
end

