-- ==== Sys2Proof/Machine/Dispatch.lean ====
section
/-! DEFINITION. One arm for each command: what it does to everything but the queue. -/
namespace Sys2Proof.Machine

open Host (Outcome)

/-- The effect of a command on the part. -/
def exec (i : Instr) (s : State) : Host.Outcome State Fault Refusal :=
  match i with
  | .pornRise => Sys2Proof.Machine.execPornRise s
  | .pornFall => Sys2Proof.Machine.execPornFall s
  | .vddaonLoss => Sys2Proof.Machine.execVddaonLoss s
  | .strapSample levels => Sys2Proof.Machine.execStrapSample levels s
  | .fuseBankShadowDone ws => Sys2Proof.Machine.execFuseBankShadowDone ws s
  | .pllMainLock => Sys2Proof.Machine.execPllMainLock s
  | .startupTimeout => Sys2Proof.Machine.execStartupTimeout s
  | .xspiBurstDone data => Sys2Proof.Machine.execXspiBurstDone data s
  | .xspiBurstTimeout => Sys2Proof.Machine.execXspiBurstTimeout s
  | .writeListDelayEnd => Sys2Proof.Machine.execWriteListDelayEnd s
  | .signatureCheckDone => Sys2Proof.Machine.execSignatureCheckDone s
  | .blockOtpReadDone b good ws => Sys2Proof.Machine.execBlockOtpReadDone b good ws s
  | .cisternInitDone chans => Sys2Proof.Machine.execCisternInitDone chans s
  | .slotRevertDone => Sys2Proof.Machine.execSlotRevertDone s
  | .slotAccept => Sys2Proof.Machine.execSlotAccept s
  | .spdTransferDone n ack => Sys2Proof.Machine.execSpdTransferDone n ack s
  | .spdTransferTimeout n => Sys2Proof.Machine.execSpdTransferTimeout n s
  | .spdTempPoll temps => Sys2Proof.Machine.execSpdTempPoll temps s
  | .rtBlockLock g => Sys2Proof.Machine.execRtBlockLock g s
  | .rtLockLoss g => Sys2Proof.Machine.execRtLockLoss g s
  | .idle g => Sys2Proof.Machine.execIdle g s
  | .credit g seq limit => Sys2Proof.Machine.execCredit g seq limit s
  | .patternOk g seq => Sys2Proof.Machine.execPatternOk g seq s
  | .markerOk g seq limit => Sys2Proof.Machine.execMarkerOk g seq limit s
  | .phase g seq lane tap => Sys2Proof.Machine.execPhase g seq lane tap s
  | .waddr g seq addr => Sys2Proof.Machine.execWaddr g seq addr s
  | .wdata g seq v => Sys2Proof.Machine.execWdata g seq v s
  | .rcfrm g seq frame => Sys2Proof.Machine.execRcfrm g seq frame s
  | .rcgo g seq first last vc => Sys2Proof.Machine.execRcgo g seq first last vc s
  | .rtReservedType g seq => Sys2Proof.Machine.execRtReservedType g seq s
  | .trainingStepTimeout g => Sys2Proof.Machine.execTrainingStepTimeout g s
  | .trainingTimeout => Sys2Proof.Machine.execTrainingTimeout s
  | .alignmentMarker => Sys2Proof.Machine.execAlignmentMarker s
  | .linkHeartbeat g => Sys2Proof.Machine.execLinkHeartbeat g s
  | .returnLaneTimeout g => Sys2Proof.Machine.execReturnLaneTimeout g s
  | .linkGroupClockFault g => Sys2Proof.Machine.execLinkGroupClockFault g s
  | .creditWithhold g => Sys2Proof.Machine.execCreditWithhold g s
  | .creditStall g => Sys2Proof.Machine.execCreditStall g s
  | .packetSend g => Sys2Proof.Machine.execPacketSend g s
  | .groupEnable g => Sys2Proof.Machine.execGroupEnable g s
  | .groupDisable g => Sys2Proof.Machine.execGroupDisable g s
  | .groupRetire g => Sys2Proof.Machine.execGroupRetire g s
  | .prbsTxStart g => Sys2Proof.Machine.execPrbsTxStart g s
  | .prbsTxStop g => Sys2Proof.Machine.execPrbsTxStop g s
  | .prbsRtStart g => Sys2Proof.Machine.execPrbsRtStart g s
  | .prbsRtStop g => Sys2Proof.Machine.execPrbsRtStop g s
  | .rtPrbsSync g => Sys2Proof.Machine.execRtPrbsSync g s
  | .rtPrbsSyncLoss g => Sys2Proof.Machine.execRtPrbsSyncLoss g s
  | .rigTimeSend => Sys2Proof.Machine.execRigTimeSend s
  | .rigProbeSend => Sys2Proof.Machine.execRigProbeSend s
  | .rigTimeReceive alive hop t => Sys2Proof.Machine.execRigTimeReceive alive hop t s
  | .rigProbeReceive alive hop t => Sys2Proof.Machine.execRigProbeReceive alive hop t s
  | .rigProbeReplyReceive alive hop t turn => Sys2Proof.Machine.execRigProbeReplyReceive alive hop t turn s
  | .rigFramebcReceive alive hop te => Sys2Proof.Machine.execRigFramebcReceive alive hop te s
  | .rigFixReceive alive hop fix => Sys2Proof.Machine.execRigFixReceive alive hop fix s
  | .rigInTimeout => Sys2Proof.Machine.execRigInTimeout s
  | .eyeScanStart v => Sys2Proof.Machine.execEyeScanStart v s
  | .eyeScanDone n => Sys2Proof.Machine.execEyeScanDone n s
  | .tbCfgWrite n v => Sys2Proof.Machine.execTbCfgWrite n v s
  | .encoderEdge n a b => Sys2Proof.Machine.execEncoderEdge n a b s
  | .indexPulse n => Sys2Proof.Machine.execIndexPulse n s
  | .indexTimeout n => Sys2Proof.Machine.execIndexTimeout n s
  | .syncPulse n => Sys2Proof.Machine.execSyncPulse n s
  | .syncMiss n => Sys2Proof.Machine.execSyncMiss n s
  | .tbUpdate => Sys2Proof.Machine.execTbUpdate s
  | .coastTimeout n => Sys2Proof.Machine.execCoastTimeout n s
  | .resolverOutputTimeout n => Sys2Proof.Machine.execResolverOutputTimeout n s
  | .posRead n => Sys2Proof.Machine.execPosRead n s
  | .timeloRead => Sys2Proof.Machine.execTimeloRead s
  | .slotArm n v => Sys2Proof.Machine.execSlotArm n v s
  | .slotDisarm n v => Sys2Proof.Machine.execSlotDisarm n v s
  | .actNone n => Sys2Proof.Machine.execActNone n s
  | .startFrame n => Sys2Proof.Machine.execStartFrame n s
  | .startExp n => Sys2Proof.Machine.execStartExp n s
  | .startTrack n => Sys2Proof.Machine.execStartTrack n s
  | .senseReg n => Sys2Proof.Machine.execSenseReg n s
  | .senseInj n => Sys2Proof.Machine.execSenseInj n s
  | .galSet n => Sys2Proof.Machine.execGalSet n s
  | .galPulse n => Sys2Proof.Machine.execGalPulse n s
  | .galPulseEnd p => Sys2Proof.Machine.execGalPulseEnd p s
  | .filterReset n => Sys2Proof.Machine.execFilterReset n s
  | .latch n => Sys2Proof.Machine.execLatch n s
  | .pendingTriggerExecute n => Sys2Proof.Machine.execPendingTriggerExecute n s
  | .triggerEdge level => Sys2Proof.Machine.execTriggerEdge level s
  | .triggerQualify => Sys2Proof.Machine.execTriggerQualify s
  | .armingPoint => Sys2Proof.Machine.execArmingPoint s
  | .classExposureStart k => Sys2Proof.Machine.execClassExposureStart k s
  | .lateFrameStart => Sys2Proof.Machine.execLateFrameStart s
  | .flush tapB => Sys2Proof.Machine.execFlush tapB s
  | .steerDone k => Sys2Proof.Machine.execSteerDone k s
  | .rowSlotStart => Sys2Proof.Machine.execRowSlotStart s
  | .rowConvertStart c => Sys2Proof.Machine.execRowConvertStart c s
  | .rowConversionDone c hcg lcg => Sys2Proof.Machine.execRowConversionDone c hcg lcg s
  | .blockArbiterEntry b => Sys2Proof.Machine.execBlockArbiterEntry b s
  | .s1EntryOut r => Sys2Proof.Machine.execS1EntryOut r s
  | .readoutEnd => Sys2Proof.Machine.execReadoutEnd s
  | .frameClose v => Sys2Proof.Machine.execFrameClose v s
  | .statsComplete => Sys2Proof.Machine.execStatsComplete s
  | .blockArbiterTimeout b => Sys2Proof.Machine.execBlockArbiterTimeout b s
  | .regionArbiterTimeout r => Sys2Proof.Machine.execRegionArbiterTimeout r s
  | .lineMemoryError kind x y => Sys2Proof.Machine.execLineMemoryError kind x y s
  | .domainPowerGoodLoss d => Sys2Proof.Machine.execDomainPowerGoodLoss d s
  | .blockReady b ws => Sys2Proof.Machine.execBlockReady b ws s
  | .subexposureEnd => Sys2Proof.Machine.execSubexposureEnd s
  | .trackReadPending c => Sys2Proof.Machine.execTrackReadPending c s
  | .trackReadDone c codes => Sys2Proof.Machine.execTrackReadDone c codes s
  | .trackResult => Sys2Proof.Machine.execTrackResult s
  | .pointingUpdate n => Sys2Proof.Machine.execPointingUpdate n s
  | .pointingMessageSend => Sys2Proof.Machine.execPointingMessageSend s
  | .guardTimeout n => Sys2Proof.Machine.execGuardTimeout n s
  | .guardHoldPeriod n => Sys2Proof.Machine.execGuardHoldPeriod n s
  | .captureCommit => Sys2Proof.Machine.execCaptureCommit s
  | .stage2Commit => Sys2Proof.Machine.execStage2Commit s
  | .darkStart => Sys2Proof.Machine.execDarkStart s
  | .darkAbort => Sys2Proof.Machine.execDarkAbort s
  | .ringFreeze => Sys2Proof.Machine.execRingFreeze s
  | .ringRelease => Sys2Proof.Machine.execRingRelease s
  | .ringTriggerEdge up => Sys2Proof.Machine.execRingTriggerEdge up s
  | .ringTriggerQualify => Sys2Proof.Machine.execRingTriggerQualify s
  | .rasterFrameStored => Sys2Proof.Machine.execRasterFrameStored s
  | .rasterOutputStart => Sys2Proof.Machine.execRasterOutputStart s
  | .accGroupDone => Sys2Proof.Machine.execAccGroupDone s
  | .stage2Entry => Sys2Proof.Machine.execStage2Entry s
  | .stage2RowOut err => Sys2Proof.Machine.execStage2RowOut err s
  | .stage2ReadEnd => Sys2Proof.Machine.execStage2ReadEnd s
  | .recallSubmit vc => Sys2Proof.Machine.execRecallSubmit vc s
  | .recallStart => Sys2Proof.Machine.execRecallStart s
  | .recallEnd => Sys2Proof.Machine.execRecallEnd s
  | .caParityError n => Sys2Proof.Machine.execCaParityError n s
  | .memoryEccError kind x y => Sys2Proof.Machine.execMemoryEccError kind x y s
  | .readmissionDone => Sys2Proof.Machine.execReadmissionDone s
  | .ceTestSet v => Sys2Proof.Machine.execCeTestSet v s
  | .ceDataWrite v => Sys2Proof.Machine.execCeDataWrite v s
  | .ceValWrite n v => Sys2Proof.Machine.execCeValWrite n v s
  | .sequenceStart u inj => Sys2Proof.Machine.execSequenceStart u inj s
  | .senseConversionDone u code => Sys2Proof.Machine.execSenseConversionDone u code s
  | .sliceHandover u => Sys2Proof.Machine.execSliceHandover u s
  | .sliceCalibrationDone u sl ofs gain => Sys2Proof.Machine.execSliceCalibrationDone u sl ofs gain s
  | .senseEnable u v => Sys2Proof.Machine.execSenseEnable u v s
  | .senseDisable u v => Sys2Proof.Machine.execSenseDisable u v s
  | .zeroCalStart v => Sys2Proof.Machine.execZeroCalStart v s
  | .zeroCalDone u => Sys2Proof.Machine.execZeroCalDone u s
  | .senseResultRead u k => Sys2Proof.Machine.execSenseResultRead u k s
  | .filterInput n => Sys2Proof.Machine.execFilterInput n s
  | .filterConfigWrite n dec v => Sys2Proof.Machine.execFilterConfigWrite n dec v s
  | .filterOutputRead n => Sys2Proof.Machine.execFilterOutputRead n s
  | .sensorSample xs => Sys2Proof.Machine.execSensorSample xs s
  | .sleep => Sys2Proof.Machine.execSleep s
  | .wake => Sys2Proof.Machine.execWake s
  | .refclkWindow count => Sys2Proof.Machine.execRefclkWindow count s
  | .pllLockLoss which => Sys2Proof.Machine.execPllLockLoss which s
  | .supplyTrip rail high => Sys2Proof.Machine.execSupplyTrip rail high s
  | .oscCheck khz => Sys2Proof.Machine.execOscCheck khz s
  | .safetyHeartbeat word => Sys2Proof.Machine.execSafetyHeartbeat word s
  | .watchdogTrip => Sys2Proof.Machine.execWatchdogTrip s
  | .ibiRequest ack => Sys2Proof.Machine.execIbiRequest ack s
  | .i3cPrivateWrite bytes parity => Sys2Proof.Machine.execI3cPrivateWrite bytes parity s
  | .i3cBusTimeout reading => Sys2Proof.Machine.execI3cBusTimeout reading s
  | .enec => Sys2Proof.Machine.execEnec s
  | .disec => Sys2Proof.Machine.execDisec s
  | .rstdaa => Sys2Proof.Machine.execRstdaa s
  | .entdaa a => Sys2Proof.Machine.execEntdaa a s
  | .setdasa a => Sys2Proof.Machine.execSetdasa a s
  | .setnewda a => Sys2Proof.Machine.execSetnewda a s
  | .getpid => Sys2Proof.Machine.execGetpid s
  | .getbcr => Sys2Proof.Machine.execGetbcr s
  | .getdcr => Sys2Proof.Machine.execGetdcr s
  | .getstatus => Sys2Proof.Machine.execGetstatus s
  | .getmwl => Sys2Proof.Machine.execGetmwl s
  | .getmrl => Sys2Proof.Machine.execGetmrl s
  | .unsupportedCcc direct => Sys2Proof.Machine.execUnsupportedCcc direct s
  | .otpRead ws => Sys2Proof.Machine.execOtpRead ws s
  | .otpProgram key supply => Sys2Proof.Machine.execOtpProgram key supply s
  | .otpLock key supply => Sys2Proof.Machine.execOtpLock key supply s
  | .forcelock key supply => Sys2Proof.Machine.execForcelock key supply s
  | .enforce key supply => Sys2Proof.Machine.execEnforce key supply s
  | .otpPulseDone lo hi supply => Sys2Proof.Machine.execOtpPulseDone lo hi supply s
  | .otpVerifyDone ws => Sys2Proof.Machine.execOtpVerifyDone ws s
  | .registerWrite a v => Sys2Proof.Machine.execRegisterWrite a v s
  | .vddaonRise => Sys2Proof.Machine.execVddaonRise s
  | .rigRxLock port => Sys2Proof.Machine.execRigRxLock port s
  | .rigMessageSend port => Sys2Proof.Machine.execRigMessageSend port s
  | .rigCrcError => Sys2Proof.Machine.execRigCrcError s
  | .rtPrbsBitError g => Sys2Proof.Machine.execRtPrbsBitError g s
  | .i3cPrivateRead n => Sys2Proof.Machine.execI3cPrivateRead n s

end Sys2Proof.Machine
end

