-- ==== Sys2Proof/Safety.lean ====
section
/-! DEFINITION. The terms in which claims about runs are made: the transitions of Table 1-5, what holds in OFF, the
well-formed state, the register bits that a command leaves alone, and what a command that is no transition leaves alone. -/
namespace Sys2Proof.Machine

/-- A pair of states, before and after, that Table 1-5 allows; staying is allowed, and VDDAON's loss leads to OFF from anywhere (R28). -/
def DevState.mayBecome : DevState → DevState → Bool
  | _, .off => true
  | .off, b => b == .safeBoot
  | .safeBoot, b => b == .safeBoot || b == .load || b == .haltConfig || b == .safe
  | .load, b => b == .load || b == .train || b == .haltConfig || b == .safe || b == .shutdown || b == .safeBoot
  | .train, b => b == .train || b == .run || b == .safe || b == .shutdown || b == .safeBoot
  | .run, b => b == .run || b == .standby || b == .safe || b == .shutdown || b == .safeBoot
  | .standby, b => b == .standby || b == .run || b == .safe || b == .shutdown || b == .safeBoot
  | .safe, b => b == .safe || b == .shutdown || b == .safeBoot
  | .haltConfig, b => b == .haltConfig || b == .safe || b == .shutdown || b == .safeBoot
  | .shutdown, b => b == .shutdown

/-- OFF is where the part is without VDDAON (Table 1-5). -/
def State.supplied (s : State) : Prop := s.vddaon = false → s.dev = .off

/-- A register image in its canonical form: addresses strictly rising. -/
def RegFile.wf (r : RegFile) : Prop := r.Pairwise fun a b => a.1 < b.1

/-- The state is well formed: the register image is canonical, and the banks of link groups, timebase channels, event slots,
sense units and guarded pointing channels have their numbers of members. -/
def State.wf (s : State) : Prop :=
  s.regs.wf ∧ s.groups.length = 32 ∧ s.tbs.length = 4 ∧ s.slots.length = 64 ∧ s.sense.length = 2 ∧
    s.safety.guard.length = 4

/-- A field of an instance of its register, in the terms of a frame. -/
abbrev FldAt := Fld × Nat × Nat

/-- Bit `n` of the word at address `a` belongs to the field. -/
def FldAt.covers (x : FldAt) (a n : Nat) : Bool :=
  x.1.addr x.2.1 x.2.2 == a && decide (x.1.lo ≤ n) && decide (n < x.1.lo + x.1.w)

/-- An alignment marker of a link group or a rig port (R288). -/
def Out.isMarker : Out → Bool
  | .marker _ _ _ => true
  | _ => false

/-- All of the register at address `a`, as a field. -/
def wholeWord (a : Nat) : FldAt := (⟨a, 0, 0, 0, 32, false⟩, 0, 0)

/-- No bit of a register outside the fields `fs` differs between `s` and `t`. -/
def State.regsKeptBut (s t : State) (fs : List FldAt) : Prop :=
  ∀ a n, fs.all (fun x => !x.covers a n) = true → (t.regs.word a).getLsbD n = (s.regs.word a).getLsbD n

/-- What every command leaves as it is: the queue and the clock of the always-on partition stay, what was sent stays sent,
and a well-formed state stays well formed. -/
structure Persist (r s : State) : Prop where
  pending : s.pending = r.pending
  up : s.up = r.up
  out : r.out <:+ s.out
  wf : r.wf → s.wf

/-- What a command that is no transition of Table 1-5 leaves as it is besides: the device state with its PREV and CAUSE,
VDDAON and the lock of PLL_MAIN; device time does not go back. -/
structure Keeps (r s : State) : Prop extends Persist r s where
  dev : s.dev = r.dev
  prev : s.prev = r.prev
  cause : s.cause = r.cause
  vddaon : s.vddaon = r.vddaon
  now : r.now ≤ s.now
  pllMain : s.pllMain = r.pllMain

/-- Return lane `g` takes the message with sequence number `seq`: block lock, message mode, not a repeat, and the group is past
CLOCK (R294, R295, R309). -/
def State.rtOpen (s : State) (g seq : Nat) : Prop :=
  g < 32 ∧ s.groups.length = 32 ∧ s.get Reg.LK_GSTAT_RTLOCK g = 1 ∧ hasBit (s.get Reg.LK_PRBSRT_EN) g = false ∧
    seq < 256 ∧ (s.group g).rtSeq ≠ some seq ∧ s.lstate g ≠ lsClock

/-- What an accepted message leaves besides its own effect: its SEQ and the instant, and the gap to the last SEQ counted in
LK_GSTATg.GAPCNT (R295, R303). -/
def State.rtAccepted (s t : State) (g seq : Nat) : Prop :=
  (t.group g).rtSeq = some seq ∧ (t.group g).lastRt = s.now ∧
    t.get Reg.LK_GSTAT_GAPCNT g = min 255 (s.get Reg.LK_GSTAT_GAPCNT g +
      match (s.group g).rtSeq with
      | none => 0
      | some q => (seq + 255 - q) % 256)

/-- The groups other than `g` are as they were. -/
def State.otherGroups (s t : State) (g : Nat) : Prop := ∀ h, h ≠ g → t.group h = s.group h

/-- Group `g` has failed for `cause` (R306, Table 1-6): switched off and silent, its buffer emptied, the failure flagged, and no other
group's state touched. -/
def State.groupFailed (s t : State) (g cause : Nat) : Prop :=
  t.lstate g = lsFailed ∧ t.get Reg.LK_GSTAT_CAUSE g = cause ∧ t.get Reg.LK_GSTAT_RTLOCK g = 0 ∧ (t.group g).buf = [] ∧
    hasBit (t.get Reg.PM_LG_ON) g = false ∧ t.get Reg.LK_SUM_LGFAIL = 1 ∧ t.get Reg.ID_FAULTSUM_LGFAIL = 1 ∧
    t.out = .elecIdle g :: s.out ∧ (∀ h, h ≠ g → h < 32 → t.lstate h = s.lstate h) ∧ Keeps s t

/-- No message of `typ` from origin `hop` has been taken before, so that the next one is no repeat (R334). -/
def State.rigFresh (s : State) (typ hop : Nat) : Prop :=
  s.rig.alive.find? (fun e => e.1 == typ && e.2.1 == hop) = none

/-- The next alive value of this device for rig messages of `typ` (R311). -/
def State.rigOwn (s : State) (typ : Nat) : Nat := ((s.rig.ownAlive.find? (·.1 == typ)).map (·.2)).getD 0

/-- One step of A and B counting up, A leading B: old and new levels, A in bit 1 (R64, log entry 7). -/
def quadUp : List (Nat × Nat) := [(0, 2), (2, 3), (3, 1), (1, 0)]

/-- Slot `n` is due with action `a` (R84), on time where it is strict (R104), and no re-arm is recorded (R506). -/
def State.slotReady (s : State) (n a : Nat) : Prop :=
  n < 64 ∧ s.slots.length = 64 ∧ s.slotDue n a = true ∧ s.slotStrictLate n = false ∧ (s.slot n).rearm = false

/-- Slot `n` has had an execution with lateness `late` (R87): DONE and LATE, DROPPED where the action was dropped, and then the
next step of a repeat slot, or rest; no other slot's working copy is touched. -/
def State.slotRan (s t : State) (n late : Nat) (dropped : Bool) : Prop :=
  t.get Reg.EV_STAT_DONE n = min 255 (s.get Reg.EV_STAT_DONE n + 1) ∧ t.get Reg.EV_LATE_LATE n = min late (2 ^ 32 - 1) ∧
    t.get Reg.EV_STAT_DROPPED n =
      (if dropped then min 255 (s.get Reg.EV_STAT_DROPPED n + 1) else s.get Reg.EV_STAT_DROPPED n) ∧
    (if (s.slot n).repeats = true ∧ (s.slot n).stop = false ∧ ((s.slot n).repcnt = 0 ∨ (s.slot n).k + 1 < (s.slot n).repcnt) then
      t.sstate n = ssArmed ∧ (t.slot n).k = (s.slot n).k + 1 ∧
        (t.slot n).p = wrapGrains (s.modulus (s.slot n).ch) ((s.slot n).p + (s.slot n).step)
    else t.sstate n = ssIdle ∧ t.get Reg.EV_CFG_ARM n = 0) ∧ ∀ m, m ≠ n → t.slot m = s.slot m

/-- The registers of pin ownership (R445). -/
def pinFlds : List FldAt := (List.range 6).map (fun i => wholeWord (0x0E0010 + 4 * i)) ++ [wholeWord 0x0E0004, wholeWord 0x0E0008]

/-- The registers that an execution of slot `n` writes, pin ownership included. -/
def slotFlds (n : Nat) : List FldAt :=
  [wholeWord (0x010414 + 0x20 * n), wholeWord (0x01041C + 0x20 * n), (Reg.EV_CFG_ARM, n, 0)] ++ pinFlds

/-- The registers of the detectors of every filter channel (R378). -/
def detectFlds : List FldAt := (List.range 16).flatMap fun c =>
  [wholeWord (Reg.FE_FC_PK_VALUE.addr c 0), wholeWord (Reg.FE_FC_ENV_VALUE.addr c 0), wholeWord (Reg.FE_FC_RMS_VALUE.addr c 0)]

/-- The commands that are I3C writes of a register of the main logic at an address it has (R25, R27); those of an OTP command that
pulses, and the commits, are named where they are used. -/
def writesMain : Instr → Bool
  | .tbCfgWrite n _ => decide (n < 4)
  | .slotArm n _ | .slotDisarm n _ => decide (n < 64)
  | .filterConfigWrite n _ _ => decide (n < 16)
  | .groupEnable g | .groupDisable g | .groupRetire g | .prbsTxStart g | .prbsTxStop g | .prbsRtStart g | .prbsRtStop g =>
    decide (g < 32)
  | .senseEnable u _ | .senseDisable u _ => decide (u < 2)
  | .eyeScanStart _ | .otpRead _ | .sleep | .wake | .ringFreeze | .ringRelease | .recallSubmit _ | .zeroCalStart _ | .darkStart
  | .darkAbort | .ceTestSet _ | .ceDataWrite _ | .ceValWrite _ _ => true
  | _ => false

/-- The commands that can move the device: those that Table 1-5, R28 to R32, R401 and Table 1-6 name, and the register
writes that carry PM_CMD. -/
def movesDevice : Instr → Bool
  | .pornRise | .vddaonLoss | .vddaonRise | .strapSample _ | .fuseBankShadowDone _ | .pllMainLock | .startupTimeout
  | .xspiBurstDone _ | .xspiBurstTimeout | .writeListDelayEnd | .slotRevertDone | .slotAccept | .markerOk _ _ _
  | .wdata _ _ _ | .trainingTimeout | .sensorSample _ | .sleep | .wake | .refclkWindow _ | .pllLockLoss _
  | .supplyTrip _ _ | .watchdogTrip | .i3cPrivateWrite _ _ | .registerWrite _ _ => true
  | _ => false

end Sys2Proof.Machine
end

