-- ==== Sys2Proof/Certificates/Slice0/Obligations.lean ====
section
/-! DEFINITION. The statements for the provers: what the whole machine keeps, and, family by family, what each command does
and leaves alone. -/
open Sys2Proof Sys2Proof.Machine

/-! ## The machine as a whole -/

/-- A step with the command `c` at the front of the queue is `exec c` on the part with the queue's rest. -/
def Obligations.StepRunsFront : Prop :=
  ∀ (c : Instr) (rest : List Instr) (s : State), s.pending = c :: rest →
    step s = exec c { s with pending := rest }

/-- A step on an empty queue is the next tick of the clocks: the always-on clock counts a nanosecond while VDDAON is there, device
time does while PLL_MAIN is locked, the marker slots keep their distance in cycles, and a new cycle begins for the W1C bits; no
command is taken, nothing is sent, and the device state does not move (R9, R18, R288; the model's own reading of a step without a
command, log entries 40 and 68). -/
def Obligations.IdleStepIsATick : Prop :=
  ∀ s : State, s.pending = [] → ∃ t, step s = .next t ∧ t.up = (if s.vddaon then s.up + 1 else s.up) ∧
    (s.pllMain = false → t = { s with up := t.up, hot := [] }) ∧
    (s.pllMain = true → s.now ≤ t.now ∧ t.now ≤ s.now + 2 ∧ (s.rig.trim = 0 → t.now = s.now + 1) ∧
      t = { s with up := t.up, now := t.now, hot := [], markerAt := s.markerAt + (t.now - s.now) - 1
                   rig := { s.rig with trim := t.rig.trim } })

/-- The part right after reset: SAFE_BOOT after power-on, the queue empty, every register of Table 19-2 at its Reset column,
and the conditions that every step keeps. The model's own reading: log entries 4 and 9. -/
def Obligations.ResetState : Prop :=
  State.reset.wf ∧ State.reset.supplied ∧ State.reset.pending = [] ∧ State.reset.dev = .safeBoot ∧ State.reset.now = 0 ∧
    State.reset.cause = .powerOn ∧ ∀ a, State.reset.regs.word a = resetWord a

/-- The conditions of a well-formed state are an invariant of every step, from any state that meets them, and so is that the part
without VDDAON is OFF (Table 1-5). -/
def Obligations.StepsKeepInvariants : Prop :=
  (∀ s t : State, s.wf → step s = .next t → t.wf) ∧
  (∀ s t : State, s.supplied → step s = .next t → t.supplied)

/-- The device moves only by the transitions of Table 1-5, whatever the command; an accepted slot with the RUN condition met goes
through TRAIN, which PREV shows, to RUN (R28, R292). -/
def Obligations.OnlyTableTransitions : Prop :=
  ∀ (c : Instr) (s t : State), s.supplied → exec c s = .next t → s.dev.mayBecome t.dev = true ∨
    (c = .slotAccept ∧ s.dev = .load ∧ t.prev = .train ∧ t.dev = .run)

/-- A command that `movesDevice` does not name leaves the device state, PREV and CAUSE, the supply and the lock of PLL_MAIN
as they are; device time does not go back, what was sent stays sent, and the queue is not touched. -/
def Obligations.OnlyMovesMove : Prop :=
  ∀ (c : Instr) (s t : State), movesDevice c = false → exec c s = .next t → Keeps s t

/-- No command withdraws what was sent, touches the queue or runs the always-on clock, and each answers a next state. -/
def Obligations.EveryCommandPersists : Prop :=
  ∀ (c : Instr) (s : State), ∃ t, exec c s = .next t ∧ Persist s t

/-! ## Boot and power (16_boot_and_configuration.md, 01_architecture.md) -/

/-- PORN_RISE takes the part to SAFE_BOOT with CAUSE POWER_ON and PLL_MAIN not locked, every register outside the always-on
partition and the thermal manager at its reset word, device time at 0, ID_FAULTSUM cleared but for bits 9 to 7, the fuses as they were; PORN_FALL is
noted; VDDAON_LOSS makes the device OFF with every register reset and the fuses as they were; VDDAON_RISE brings SAFE_BOOT
where PORn is high (R28, R39, R508, Table 1-5;
the model's own reading: log entry 9). -/
def Obligations.SupplyAndPorn : Prop :=
  (∀ s : State, s.boot.porn = false → s.dev ≠ .shutdown → s.vddaon = true →
    ∃ t, exec .pornRise s = .next t ∧ t.dev = .safeBoot ∧ t.cause = .powerOn ∧ t.boot.porn = true ∧ t.boot.pornAt = s.up ∧
      t.pllMain = false ∧ t.now = 0 ∧ t.frames = [] ∧ t.otp.fuses = s.otp.fuses ∧ t.out = s.out ∧
      t.regs.word 0x000014 = s.regs.word 0x000014 &&& 0x380#32 ∧
      ∀ a, a ≠ 0x000014 → (a < 0x0C0000 ∨ 0x0D1000 ≤ a) → t.regs.word a = resetWord a) ∧
  (∀ s : State, exec .pornFall s = .next { s with boot := { s.boot with porn := false } }) ∧
  (∀ s : State, ∃ t, exec .vddaonLoss s = .next t ∧ t.dev = .off ∧ t.vddaon = false ∧ (∀ a, t.regs.word a = resetWord a) ∧
    t.otp.fuses = s.otp.fuses ∧ t.boot.porn = s.boot.porn ∧ t.out = s.out ∧ t.pending = s.pending) ∧
  (∀ s : State, s.vddaon = false → s.boot.porn = true →
    ∃ t, exec .vddaonRise s = .next t ∧ t.vddaon = true ∧ t.dev = .safeBoot ∧ t.cause = .powerOn ∧
      t.otp.fuses = s.otp.fuses) ∧
  (∀ s : State, s.vddaon = false → s.boot.porn = false → exec .vddaonRise s = .next { s with vddaon := true })

/-- The straps, the fuse shadow and the PLL lock in SAFE_BOOT: each is noted, and the last of the three takes the part to LOAD with
CAUSE BOOT_START, the watchdog's time at 0, and the lock leaves device time as it is; after ten milliseconds from PORn without LOAD the part is in SAFE, with REFCLK_LOSS where
REFCLK is bad and PLL_LOSS elsewhere (R18, R28, R32, R428, R429, R413). -/
def Obligations.SafeBootEnds : Prop :=
  (∀ (levels : Nat) (s : State), s.dev = .safeBoot → s.boot.strapped = false → 1000000 ≤ s.up - s.boot.pornAt →
    (s.boot.shadowed = false ∨ s.pllMain = false) →
    ∃ t, exec (.strapSample levels) s = .next t ∧ t.regs.word 0x000034 = BitVec.ofNat 32 (levels % 512) ∧
      t.get Reg.LK_TRCFG_TRCLASS = levels / 128 % 4 ∧
      t = { s with regs := t.regs, boot := { s.boot with strapped := true } } ∧
      s.regsKeptBut t [wholeWord 0x000034, (Reg.LK_TRCFG_TRCLASS, 0, 0)]) ∧
  (∀ (levels : Nat) (s : State), s.dev = .safeBoot → s.boot.strapped = false → 1000000 ≤ s.up - s.boot.pornAt →
    s.boot.shadowed = true → s.pllMain = true →
    ∃ t, exec (.strapSample levels) s = .next t ∧ t.dev = .load ∧ t.prev = .safeBoot ∧ t.cause = .bootStart ∧ Persist s t) ∧
  (∀ (ws : List (Nat × Nat × Nat)) (s : State), s.dev = .safeBoot → s.boot.shadowed = false →
    (s.boot.strapped = false ∨ s.pllMain = false) →
    ∃ t, exec (.fuseBankShadowDone ws) s = .next t ∧ t.boot.shadowed = true ∧ Keeps s t) ∧
  (∀ (ws : List (Nat × Nat × Nat)) (s : State), s.dev = .safeBoot → s.boot.shadowed = false → s.boot.strapped = true →
    s.pllMain = true →
    ∃ t, exec (.fuseBankShadowDone ws) s = .next t ∧ t.dev = .load ∧ t.prev = .safeBoot ∧ t.cause = .bootStart) ∧
  (∀ s : State, s.dev = .safeBoot → s.pllMain = false → (s.boot.strapped = false ∨ s.boot.shadowed = false) →
    exec .pllMainLock s = .next { s with pllMain := true, markerCount := 0, markerAt := s.now }) ∧
  (∀ s : State, s.dev = .safeBoot → s.pllMain = false → s.boot.strapped = true → s.boot.shadowed = true →
    ∃ t, exec .pllMainLock s = .next t ∧ t.dev = .load ∧ t.prev = .safeBoot ∧ t.cause = .bootStart ∧ t.pllMain = true ∧
      t.now = s.now) ∧
  (∀ s : State, s.dev = .safeBoot → 10000000 < s.up - s.boot.pornAt →
    ∃ t, exec .startupTimeout s = .next t ∧ t.dev = .safe ∧ t.prev = .safeBoot ∧ Persist s t ∧
      t.cause = (if s.safety.refBad then Cause.refclkLoss else Cause.pllLoss))

/-- The loader's reads in LOAD. A burst of at most 4 KiB that leaves the item short is appended; a burst that completes the
header with a matching CRC and valid fields has the section table read next; a read that ends with a wrong CRC or a timeout, and
is not the third, is begun again, a burst timing out 100 µs after its command; the end of a DELAY goes on with the list, here to the next DELAY (R433 to R435, R440, R441;
the model's own reading: log entry 16). -/
def Obligations.LoaderReads : Prop :=
  (∀ (data : List Byte) (i : BootItem) (s : State), s.dev = .load → s.boot.item = some i → s.boot.delayUntil = none →
    hasBit s.domLost 9 = false → s.up ≤ s.boot.burstAt + 100000 → data.length ≤ 4096 →
    s.boot.buf.length + data.length < s.boot.itemSize i →
    exec (.xspiBurstDone data) s = .next { s with boot := { s.boot with buf := s.boot.buf ++ data, burstAt := s.up } }) ∧
  (∀ (data : List Byte) (s : State), s.dev = .load → s.boot.item = some .header → s.boot.delayUntil = none →
    hasBit s.domLost 9 = false → s.up ≤ s.boot.burstAt + 100000 → s.boot.buf = [] → data.length = 64 →
    crc32c (data.take 60) = leAt data 60 4 →
    Boot.headerFault data s.mono = none →
    ∃ t, exec (.xspiBurstDone data) s = .next t ∧ t.boot.header = data ∧ t.boot.item = some .table ∧ t.boot.buf = [] ∧
      t.boot.reads = [] ∧ Keeps s t) ∧
  (∀ (data : List Byte) (s : State), s.dev = .load → s.boot.item = some .header → s.boot.delayUntil = none →
    hasBit s.domLost 9 = false → s.up ≤ s.boot.burstAt + 100000 → s.boot.buf = [] → data.length = 64 →
    crc32c (data.take 60) ≠ leAt data 60 4 → s.boot.reads.length < 2 →
    ∃ t, exec (.xspiBurstDone data) s = .next t ∧ t.boot.header = s.boot.header ∧ t.boot.item = some .header ∧ t.boot.buf = [] ∧
      t.boot.reads = s.boot.reads ++ [some (crc32c (data.take 60))] ∧ Keeps s t) ∧
  (∀ (i : BootItem) (s : State), s.dev = .load → s.boot.item = some i → i ≠ .part 4 → i ≠ .part 5 →
    s.boot.burstAt + 100000 < s.up → s.boot.reads.length < 2 →
    exec .xspiBurstTimeout s =
      .next { s with boot := { s.boot with item := some i, buf := [], burstAt := s.up, reads := s.boot.reads ++ [none] } }) ∧
  (∀ (n : Nat) (e : List Byte) (rest : List (List Byte)) (s : State), s.dev = .load → s.boot.delayUntil = some n → n ≤ s.up →
    s.boot.wl = e :: rest → leAt e 3 1 = 1 →
    exec .writeListDelayEnd s =
      .next { s with boot := { s.boot with wl := rest, delayUntil := some (s.up + min (leAt e 4 4) 10000 * 1000) } })

/-- The outcomes of a slot: the signature's result is held, or fails the slot under enforcement with its result code and item; the
end of a revert begins the next slot, with no DEFECTS section seen, or enters HALT_CONFIG with CAUSE BOOT_FAIL where none is left; an accepted slot enters TRAIN
with CAUSE LOAD_DONE, and goes on to RUN at once where the RUN condition holds already (R439, R440, R442 to R444, R477, R28, R292;
the model's own reading: log entry 60). -/
def Obligations.SlotOutcomes : Prop :=
  (∀ s : State, s.dev = .load → s.boot.allRead = true → s.boot.sig = none →
    (s.signatureValid = true ∨ s.get Reg.ID_BOOTSTAT_ENFORCE = 0) →
    exec .signatureCheckDone s = .next { s with boot := { s.boot with sig := some s.signatureValid } }) ∧
  (∀ s : State, s.dev = .load → s.boot.allRead = true → s.boot.sig = none → s.boot.slot = some 0 →
    s.signatureValid = false → s.get Reg.ID_BOOTSTAT_ENFORCE = 1 →
    ∃ t, exec .signatureCheckDone s = .next t ∧ t.boot.reverting = true ∧ t.get Reg.ID_BOOTSTAT_RESA = 6 ∧
      t.get Reg.ID_BOOTSTAT_ITEMA = 7 ∧ t.get Reg.ID_BOOTSTAT_RESB = s.get Reg.ID_BOOTSTAT_RESB ∧ Keeps s t) ∧
  (∀ (k : Nat) (rest : List Nat) (s : State), s.dev = .load → s.boot.reverting = true → s.boot.todo = k :: rest →
    hasBit s.domLost 9 = false →
    ∃ t, exec .slotRevertDone s = .next t ∧ t.get Reg.ID_FUSESTAT_DEFHASH = 0 ∧
      t = { s with regs := t.regs, boot := { s.boot with
        todo := rest, slot := some k, reverting := false, item := some .header, buf := [], burstAt := s.up, reads := [] } } ∧
      s.regsKeptBut t [(Reg.ID_FUSESTAT_DEFHASH, 0, 0)]) ∧
  (∀ s : State, s.dev = .load → s.boot.reverting = true → s.boot.todo = [] →
    ∃ t, exec .slotRevertDone s = .next t ∧ t.dev = .haltConfig ∧ t.prev = .load ∧ t.cause = .bootFail ∧ Persist s t) ∧
  (∀ (k : Nat) (s : State), s.dev = .load → s.boot.slot = some k → s.boot.allRead = true → s.boot.sig ≠ none →
    s.trimsLoaded = true → s.boot.cisDone = true →
    ∃ t, exec .slotAccept s = .next t ∧ Persist s t ∧
      ((t.dev = .train ∧ t.prev = .load ∧ t.cause = .loadDone ∧ t.runReady = false) ∨
        (t.dev = .run ∧ t.prev = .train ∧ t.cause = .trainDone)))

/-- The trims of a block and the channels of the cistern in LOAD: a block's controller that could not complete its read leaves
the block failed with FAILRD set, one that could has its block noted; the trained channels have TRAINED set with the size and
temperature given, at the lowest rated speed of the working modules and MAXSPD. The SPD bus: an acknowledged transfer ends the run
of failures of its hub, and in LOAD marks the hub present; a transfer that is not acknowledged, or times out, is counted in ERRCNT and
in the run, the channel being kept before the third in LOAD and the ninth in RUN and STANDBY, and lost with CAUSE 2 by it; a temperature is shown for a working channel and leaves it be at or below TCRIT
(R440, R459, R462, R234, R235, R236, R452, R453;
the model's own reading: log entry 93). -/
def Obligations.LoadPartsAndSpdBus : Prop :=
  (∀ (b : Nat) (good : Bool) (ws : List (Nat × Nat × Nat)) (s : State), b < 256 → s.dev = .load → b ∉ s.boot.trims →
    ∃ t, exec (.blockOtpReadDone b good ws) s = .next t ∧ b ∈ t.boot.trims ∧ Keeps s t ∧
      (good = false → t.blockFailed b = true ∧ t.get ⟨0x0F0100, 4, 0, 4 * (b % 8) + 3, 1, false⟩ (b / 8) = 1)) ∧
  (∀ (sp z0 z1 z2 z3 t0 t1 t2 t3 : Nat) (s : State), s.dev = .load → s.boot.cisStart = true → s.boot.cisDone = false → sp ≤ 2 →
    z0 < 256 → z1 < 256 → z2 < 256 → z3 < 256 → t0 < 256 → t1 < 256 → t2 < 256 → t3 < 256 →
    (∀ n, n < 4 → s.get Reg.CS_CH_STAT_LOST n = 0) →
    ∃ t, exec (.cisternInitDone [(0, sp, z0, t0), (0, sp, z1, t1), (0, sp, z2, t2), (0, sp, z3, t3)]) s = .next t ∧
      (∀ n, n < 4 → t.get Reg.CS_CH_STAT_TRAINED n = 1 ∧ t.get Reg.CS_CH_STAT_LOST n = 0 ∧
        t.get Reg.CS_CH_STAT_SPEED n = min sp (s.get Reg.CS_CFG_MAXSPD) ∧
        t.get Reg.CS_CH_STAT_SIZE n = [z0, z1, z2, z3].getD n 0 ∧ t.get Reg.CS_CH_STAT_TEMP n = [t0, t1, t2, t3].getD n 0) ∧
      t.get Reg.PM_OTHER_CS = 15 ∧
      t = { s with regs := t.regs, boot := { s.boot with cisDone := true }
                   cis := { s.cis with rated := [sp, sp, sp, sp] } } ∧
      s.regsKeptBut t [wholeWord 0x060040, wholeWord 0x060044, wholeWord 0x060048, wholeWord 0x06004C, (Reg.PM_OTHER_CS, 0, 0)]) ∧
  (∀ (n : Nat) (s : State), n < 4 → s.dev = .load →
    ∃ t, exec (.spdTransferDone n true) s = .next t ∧ hasBit (t.get Reg.BT_SPD_PRESENT) n = true ∧
      t = { s with regs := t.regs, ctl := { s.ctl with spdFails := s.ctl.spdFails.set n 0 } } ∧
      s.regsKeptBut t [(Reg.BT_SPD_PRESENT, 0, 0)]) ∧
  (∀ (n : Nat) (s : State), n < 4 → s.running = true →
    exec (.spdTransferDone n true) s = .next { s with ctl := { s.ctl with spdFails := s.ctl.spdFails.set n 0 } }) ∧
  (∀ (n : Nat) (s : State), n < 4 →
    (s.dev = .load ∧ s.ctl.spdFails.getD n 0 < 2) ∨ (s.running = true ∧ s.ctl.spdFails.getD n 0 < 8) →
    exec (.spdTransferDone n false) s = exec (.spdTransferTimeout n) s ∧
    ∃ t, exec (.spdTransferTimeout n) s = .next t ∧
      t.get Reg.BT_SPD_ERRCNT = min 255 (s.get Reg.BT_SPD_ERRCNT + 1) ∧
      t = { s with
        regs := t.regs, ctl := { s.ctl with spdFails := s.ctl.spdFails.set n (s.ctl.spdFails.getD n 0 + 1) } } ∧
      s.regsKeptBut t [(Reg.BT_SPD_ERRCNT, 0, 0)]) ∧
  (∀ (temp : Nat) (s : State), s.dev = .load → s.chanUp 0 = true → temp < 256 → temp ≤ s.get Reg.CS_CFG_TCRIT →
    ∃ t, exec (.spdTempPoll [some temp, none, none, none]) s = .next t ∧ t.get Reg.CS_CH_STAT_TEMP 0 = temp ∧ t = { s with regs := t.regs } ∧
      s.regsKeptBut t [(Reg.CS_CH_STAT_TEMP, 0, 0)]) ∧
  (∀ (n : Nat) (s : State), n < 4 → s.get Reg.CS_CH_STAT_LOST n = 0 →
    (s.dev = .load ∧ s.ctl.spdFails.getD n 0 = 2) ∨ (s.running = true ∧ s.ctl.spdFails.getD n 0 = 8) →
    ∃ t, exec (.spdTransferTimeout n) s = .next t ∧ t.get Reg.CS_CH_STAT_LOST n = 1 ∧ t.get Reg.CS_CH_STAT_CAUSE n = 2 ∧
      Keeps s t)

/-! ## Link groups and return lanes (10_link_lanes.md) -/

/-- Return-lane blocks: lock is noted and counts as a block, and lets a group whose CLOCK has lasted 10 µs go on to
PATTERN, where its lanes send PRBS9, lane k 31·k bits into the sequence; the
loss of lock clears RTLOCK; IDLE counts as a valid block and does nothing else (R290, R291, R294, R303). -/
def Obligations.ReturnLaneBlocks : Prop :=
  (∀ (g : Nat) (s : State), g < 32 → s.groups.length = 32 → s.lstate g ≠ lsOff → s.lstate g ≠ lsFailed →
    s.lstate g ≠ lsClock →
    ∃ t, exec (.rtBlockLock g) s = .next t ∧ t.get Reg.LK_GSTAT_RTLOCK g = 1 ∧ (t.group g).lastRt = s.now ∧
      t.lstate g = s.lstate g ∧ t = { s with regs := t.regs, groups := t.groups } ∧ s.otherGroups t g ∧
      s.regsKeptBut t [(Reg.LK_GSTAT_RTLOCK, g, 0)]) ∧
  (∀ (g : Nat) (s : State), g < 32 → s.groups.length = 32 → s.lstate g = lsClock → 10000 ≤ s.now - (s.group g).stepAt →
    ∃ t, exec (.rtBlockLock g) s = .next t ∧ t.get Reg.LK_GSTAT_RTLOCK g = 1 ∧ t.lstate g = lsPattern ∧
      (t.group g).lastRt = s.now ∧ (t.group g).stepAt = s.now ∧
      t.out = .prbs g 9 ((List.range 16).map fun k => prbsAt 9 4 (s.prbsFrom 9) (31 * k)) :: s.out ∧
      t = { s with regs := t.regs, groups := t.groups, out := t.out, free := s.free + 1 } ∧
      s.otherGroups t g ∧ s.regsKeptBut t [(Reg.LK_GSTAT_RTLOCK, g, 0), (Reg.LK_GSTAT_LSTATE, g, 0)]) ∧
  (∀ (g : Nat) (s : State), g < 32 →
    ∃ t, exec (.rtLockLoss g) s = .next t ∧ t.get Reg.LK_GSTAT_RTLOCK g = 0 ∧ t = { s with regs := t.regs } ∧
      s.regsKeptBut t [(Reg.LK_GSTAT_RTLOCK, g, 0)]) ∧
  (∀ (g : Nat) (s : State), g < 32 → s.lstate g ≠ lsClock →
    exec (.idle g) s = .next (s.setGroup g fun x => { x with lastRt := s.now }))

/-- Accepted messages: CREDIT sets the limit unless the grant is 2^23 or more; PATTERN_OK lets the markers start; PHASE sets the
delay tap of a lane; WADDR sets the write pointer and RCFRM the recall's frame, on the control group. Each takes its SEQ and counts
the gap; a message of a reserved type is counted in RTDISC and its SEQ is not taken (R291, R295 to R298). -/
def Obligations.ReturnLaneMessages : Prop :=
  (∀ (g seq limit : Nat) (s : State), s.rtOpen g seq → limit < 2 ^ 24 →
    (limit + 2 ^ 24 - s.get Reg.LK_GUSED_VALUE g) % 2 ^ 24 < 2 ^ 23 →
    ∃ t, exec (.credit g seq limit) s = .next t ∧ s.rtAccepted t g seq ∧ t.get Reg.LK_GLIM_VALUE g = limit ∧
      t = { s with regs := t.regs, groups := t.groups } ∧ s.otherGroups t g ∧ (t.group g).buf = (s.group g).buf ∧
      s.regsKeptBut t [(Reg.LK_GLIM_VALUE, g, 0), (Reg.LK_GSTAT_GAPCNT, g, 0)]) ∧
  (∀ (g seq : Nat) (s : State), s.rtOpen g seq → s.lstate g = lsPattern →
    ∃ t, exec (.patternOk g seq) s = .next t ∧ s.rtAccepted t g seq ∧ (t.group g).patternOk = true ∧
      t = { s with regs := t.regs, groups := t.groups } ∧ s.otherGroups t g ∧
      s.regsKeptBut t [(Reg.LK_GSTAT_GAPCNT, g, 0)]) ∧
  (∀ (g seq lane tap : Nat) (s : State), s.rtOpen g seq → s.lstate g = lsPattern → lane < 16 → tap < 64 →
    ∃ t, exec (.phase g seq lane tap) s = .next t ∧ s.rtAccepted t g seq ∧
      fieldOf (t.regs.word (0x081000 + 0x10 * g + 4 * (lane / 4))) (8 * (lane % 4)) 6 = tap ∧
      t = { s with regs := t.regs, groups := t.groups } ∧ s.otherGroups t g ∧
      s.regsKeptBut t [(⟨0x081000, 0x10, 0x4, 8 * (lane % 4), 6, false⟩, g, lane / 4), (Reg.LK_GSTAT_GAPCNT, g, 0)]) ∧
  (∀ (g seq addr : Nat) (s : State), s.rtOpen g seq → s.get Reg.LK_CTL_CTLACT = g → addr < 2 ^ 24 →
    ∃ t, exec (.waddr g seq addr) s = .next t ∧ s.rtAccepted t g seq ∧
      t = { s with regs := t.regs, groups := t.groups, ctl := { s.ctl with wptr := some addr } } ∧ s.otherGroups t g ∧
      s.regsKeptBut t [(Reg.LK_GSTAT_GAPCNT, g, 0)]) ∧
  (∀ (g seq frame : Nat) (s : State), s.rtOpen g seq → s.get Reg.LK_CTL_CTLACT = g →
    ∃ t, exec (.rcfrm g seq frame) s = .next t ∧ s.rtAccepted t g seq ∧
      t = { s with regs := t.regs, groups := t.groups, ctl := { s.ctl with rcfrm := some frame } } ∧ s.otherGroups t g ∧
      s.regsKeptBut t [(Reg.LK_GSTAT_GAPCNT, g, 0)]) ∧
  (∀ (g seq : Nat) (s : State), s.rtOpen g seq →
    ∃ t, exec (.rtReservedType g seq) s = .next t ∧ t.get Reg.LK_SUM_RTDISC = min 255 (s.get Reg.LK_SUM_RTDISC + 1) ∧
      (t.group g).rtSeq = (s.group g).rtSeq ∧ t = { s with regs := t.regs, groups := t.groups } ∧ s.otherGroups t g ∧
      s.regsKeptBut t [(Reg.LK_SUM_RTDISC, 0, 0)])

/-- The messages that reach further: MARKER_OK makes a group ACTIVE with USED at 0 and its first limit, moves the part to RUN
only from TRAIN, and after RUN makes the group a spare; RCGO on the control group submits the recall of RCFRM's frame; a WDATA of a register that the return lanes may
write is written at the pointer, which advances by 4, and one of the EX_ space is noted for the local loop (R30, R122, R291, R292, R296, R297,
R255, R307). -/
def Obligations.ReturnLaneActions : Prop :=
  (∀ (g seq limit : Nat) (s : State), s.rtOpen g seq → s.lstate g = lsMarker → limit < 2 ^ 24 → s.dev ≠ .train →
    ∃ t, exec (.markerOk g seq limit) s = .next t ∧ s.rtAccepted t g seq ∧ t.lstate g = lsActive ∧
      t.get Reg.LK_GUSED_VALUE g = 0 ∧ t.get Reg.LK_GLIM_VALUE g = limit ∧ (t.group g).hbCount = 0 ∧ (t.group g).hbAt = s.now ∧
      t.joined = (if s.running = true then withBit s.joined g else s.joined) ∧
      t = { s with regs := t.regs, groups := t.groups, joined := t.joined } ∧ s.otherGroups t g ∧
      s.regsKeptBut t [(Reg.LK_GSTAT_LSTATE, g, 0), (Reg.LK_GUSED_VALUE, g, 0), (Reg.LK_GLIM_VALUE, g, 0),
        (Reg.LK_GSTAT_GAPCNT, g, 0)]) ∧
  (∀ (g seq first last vc f : Nat) (x : Stored) (s : State), s.rtOpen g seq → s.get Reg.LK_CTL_CTLACT = g →
    s.ctl.rcfrm = some f → s.get Reg.CS_RCSTAT_QUEUED < 4 → s.frozenFrame f = some x → first ≤ last →
    (State.storedSpan x).1 ≤ last → last ≤ (State.storedSpan x).2 → vc < 16 →
    ∃ t, exec (.rcgo g seq first last vc) s = .next t ∧ s.rtAccepted t g seq ∧
      t.get Reg.CS_RCSTAT_QUEUED = s.get Reg.CS_RCSTAT_QUEUED + 1 ∧
      t.get Reg.CS_RCSTAT_ID = (s.get Reg.CS_RCSTAT_ID + 1) % 256 ∧
      t.cis.recallQ = s.cis.recallQ ++ [⟨(s.get Reg.CS_RCSTAT_ID + 1) % 256, f, first, last, vc⟩] ∧
      t = { s with regs := t.regs, groups := t.groups, cis := { s.cis with recallQ := t.cis.recallQ } } ∧ s.otherGroups t g ∧
      s.regsKeptBut t [(Reg.CS_RCSTAT_QUEUED, 0, 0), (Reg.CS_RCSTAT_ID, 0, 0), (Reg.LK_GSTAT_GAPCNT, g, 0)]) ∧
  (∀ (g seq : Nat) (v : Word) (s : State), s.rtOpen g seq → s.get Reg.LK_CTL_CTLACT = g → s.ctl.wptr = some 0x020020 →
    s.get Reg.ID_CTRLSTAT_LIVESRC = 1 →
    ∃ t, exec (.wdata g seq v) s = .next t ∧ s.rtAccepted t g seq ∧
      t.regs.word 0x020020 = (s.regStore 0x020020 v).regs.word 0x020020 ∧ t.ctl.wptr = some 0x020024 ∧
      t.expo.exWritten = true ∧ t.get Reg.ID_CTRLSTAT_REJCNT = s.get Reg.ID_CTRLSTAT_REJCNT ∧ s.otherGroups t g ∧
      s.regsKeptBut t [wholeWord 0x020020, (Reg.LK_GSTAT_GAPCNT, g, 0)])

/-- A repeat of the last accepted SEQ is counted in RTDUP and does nothing else but count as a valid block, whatever the message
(R295, R303). -/
def Obligations.RepeatedMessages : Prop :=
  ∀ (g seq : Nat) (c : Instr) (s : State),
    ((∃ l, c = .credit g seq l) ∨ c = .patternOk g seq ∨ (∃ l, c = .markerOk g seq l) ∨ (∃ l p, c = .phase g seq l p) ∨
      (∃ a, c = .waddr g seq a) ∨ (∃ v, c = .wdata g seq v) ∨ (∃ f, c = .rcfrm g seq f) ∨
      (∃ a b v, c = .rcgo g seq a b v) ∨ c = .rtReservedType g seq) →
    g < 32 → s.groups.length = 32 → s.get Reg.LK_GSTAT_RTLOCK g = 1 → hasBit (s.get Reg.LK_PRBSRT_EN) g = false → seq < 256 →
    (s.group g).rtSeq = some seq → s.lstate g ≠ lsClock →
    ∃ t, exec c s = .next t ∧ t.get Reg.LK_SUM_RTDUP = min 255 (s.get Reg.LK_SUM_RTDUP + 1) ∧
      t = { s.setGroup g (fun x => { x with lastRt := s.now }) with regs := t.regs } ∧
      s.regsKeptBut t [(Reg.LK_SUM_RTDUP, 0, 0)]

/-- Training and its clocks: a step that has lasted PHTO starts again from CLOCK and is counted; after the class's time in TRAIN
without the RUN condition every group under training goes back to CLOCK and TRAINTO is set, and with it the part is in RUN; at
a marker slot, 16,384 blocks after the last, the count advances, the groups that have PATTERN_OK enter MARKER with sixteen lanes,
and each lane of every group in MARKER or ACTIVE, and of the rig ports that send, sends one; that of an ACTIVE group carries the
count and its lane's parity since the last marker. Before the slot nothing is sent (R30, R284, R286, R288, R291, R292;
the model's own reading: log entry 69 for the order of the blocks). -/
def Obligations.LinkTraining : Prop :=
  (∀ (g : Nat) (s : State), g < 32 → s.groups.length = 32 → s.get Reg.LK_TRCFG_PHTO ≠ 0 →
    (s.lstate g = lsClock ∨ s.lstate g = lsPattern ∨ s.lstate g = lsMarker) →
    s.get Reg.LK_TRCFG_PHTO * 1000 ≤ s.now - (s.group g).stepAt →
    ∃ t, exec (.trainingStepTimeout g) s = .next t ∧ t.lstate g = lsClock ∧ (t.group g).stepAt = s.now ∧
      (t.group g).patternOk = false ∧ t.get Reg.LK_GSTAT_RETRY g = min 255 (s.get Reg.LK_GSTAT_RETRY g + 1) ∧
      t = { s with regs := t.regs, groups := t.groups } ∧ s.otherGroups t g ∧
      s.regsKeptBut t [(Reg.LK_GSTAT_LSTATE, g, 0), (Reg.LK_GSTAT_RETRY, g, 0)]) ∧
  (∀ s : State, s.dev = .train → trainClass (s.get Reg.LK_TRCFG_TRCLASS) ≤ s.now - s.trainAt → s.runReady = false →
    ∃ t, exec .trainingTimeout s = .next t ∧ t.get Reg.LK_SUM_TRAINTO = 1 ∧ t.trainAt = s.now ∧ Keeps s t ∧
      ∀ g, g < 32 → t.lstate g =
        if s.lstate g = lsClock ∨ s.lstate g = lsPattern ∨ s.lstate g = lsMarker then lsClock else s.lstate g) ∧
  (∀ s : State, s.dev = .train → trainClass (s.get Reg.LK_TRCFG_TRCLASS) ≤ s.now - s.trainAt → s.runReady = true →
    ∃ t, exec .trainingTimeout s = .next t ∧ t.dev = .run ∧ t.prev = .train ∧ t.cause = .trainDone) ∧
  (∀ s : State, s.groups.length = 32 → s.pllMain = true → s.markerAt + 865128 ≤ s.now →
    ∃ t, exec .alignmentMarker s = .next t ∧ t.markerCount = (s.markerCount + 1) % 2 ^ 24 ∧
      t.markerAt = s.markerAt + 865128 ∧ Keeps s t ∧
      (∀ g, g < 32 → t.lstate g = if s.lstate g = lsPattern ∧ (s.group g).patternOk = true then lsMarker else s.lstate g) ∧
      (∀ g, g < 32 → s.lstate g = lsPattern → (s.group g).patternOk = true → (t.lineOf g).lanes.length = 16) ∧
      (t.out.filter Out.isMarker).length = (s.out.filter Out.isMarker).length +
        (((List.range 32).filter fun g => t.lstate g == lsMarker || t.lstate g == lsActive).map fun g =>
          (t.lineOf g).lanes.length).sum +
        (if s.rigSends then (t.lineOf 32).lanes.length + (t.lineOf 33).lanes.length else 0) ∧
      (∀ g i, g < 32 → s.lstate g = lsActive → i < (s.lineOf g).lanes.length →
        .marker g i (State.markerBytes g i t.markerCount
          (BitVec.ofNat 8 (((s.fillIdle g 16384).lineOf g).lanes.getD i ⟨0, 0⟩).bip)) ∈ t.out)) ∧
  (∀ s : State, s.now < s.markerAt + 865128 → exec .alignmentMarker s = .next s)

/-- Heartbeats, credits and the sending of packets: a due heartbeat of an ACTIVE group that holds nothing back joins its buffer; a
head packet that has waited longer than CRTT has credits withheld, and after CRTO the stall is flagged; a head packet with the
credits it needs, and its turn at the cistern where it comes from the spill ring, leaves in coded blocks, its USED raised by what it
needs. Each payload bit is sent XORed with the 39th and the 58th bit that its lane's scrambler put out before, and what was sent goes
into the lane's parity (R247, R284, R286, R288, R298 to R302, R333;
the model's own reading: log entries 12, 23, 69 and 70). -/
def Obligations.LinkTraffic : Prop :=
  (∀ (g : Nat) (s : State), g < 32 → s.groups.length = 32 → s.lstate g = lsActive → s.running = true →
    (s.group g).hbAt ≤ s.now → (s.group g).withheldAt = none → (s.group g).spill = [] →
    ∃ t, exec (.linkHeartbeat g) s = .next t ∧ (t.group g).buf = (s.group g).buf ++ [s.heartbeatPacket g false] ∧
      (t.group g).hbCount = (s.group g).hbCount + 1 ∧ (t.group g).hbAt = (s.group g).hbAt + 1000000 ∧
      (t.group g).hbDiscard = false ∧ t = { s with groups := t.groups } ∧ s.otherGroups t g) ∧
  (∀ (g t0 : Nat) (s : State), g < 32 → s.groups.length = 32 → s.lstate g = lsActive → (s.group g).waitAt = some t0 →
    (s.group g).withheldAt = none → s.crtt < s.now - t0 → s.spillOn = false →
    ∃ t, exec (.creditWithhold g) s = .next t ∧ (t.group g).withheldAt = some s.now ∧ t.get Reg.LK_GSTAT_WITHHELD g = 1 ∧
      (t.group g).buf = (s.group g).buf ∧ t = { s with regs := t.regs, groups := t.groups } ∧ s.otherGroups t g ∧
      s.regsKeptBut t [(Reg.LK_GSTAT_WITHHELD, g, 0)]) ∧
  (∀ (g t0 : Nat) (s : State), g < 32 → (s.group g).withheldAt = some t0 → s.crto ≤ s.now - t0 →
    ∃ t, exec (.creditStall g) s = .next t ∧ t.get Reg.LK_GSTAT_CRSTALL g = 1 ∧ t.get Reg.LK_SUM_CRSTALL = 1 ∧
      t = { s with regs := t.regs, hot := t.hot } ∧ s.regsKeptBut t [(Reg.LK_GSTAT_CRSTALL, g, 0), (Reg.LK_SUM_CRSTALL, 0, 0)]) ∧
  (∀ (g : Nat) (p : Packet) (s : State), g < 32 → s.groups.length = 32 → s.lstate g = lsActive → s.headPacket g = some p →
    s.canStart g p = true → (s.fromRing g p = false ∨ s.servesDrain g = true) →
    ∃ t, exec (.packetSend g) s = .next t ∧
      t.out = ((s.emit (.packet g p.bytes)).sendBlocks g (packetBlocks p.bytes)).out ∧
      t.lineOf g = ((s.emit (.packet g p.bytes)).sendBlocks g (packetBlocks p.bytes)).lineOf g ∧
      t.get Reg.LK_GUSED_VALUE g =
        (if p.bypass then s.get Reg.LK_GUSED_VALUE g else (s.get Reg.LK_GUSED_VALUE g + p.need) % 2 ^ 24) ∧
      (t.group g).withheldAt = none ∧ t.get Reg.LK_GSTAT_WITHHELD g = 0 ∧
      (if p.bypass then (t.group g).spill = (s.group g).spill ∧ (t.group g).buf = (s.group g).buf.erase p
        else p :: ((t.group g).spill ++ (t.group g).buf) = (s.group g).spill ++ (s.group g).buf) ∧
      (s.fromRing g p = false → t.cis = s.cis) ∧
      t = { s with regs := t.regs, groups := t.groups, out := t.out, cis := { s.cis with served := t.cis.served } } ∧
      s.otherGroups t g ∧
      s.regsKeptBut t [(Reg.LK_GUSED_VALUE, g, 0), (Reg.LK_GSTAT_WITHHELD, g, 0), (Reg.LK_GSTAT_SPILLING, g, 0)]) ∧
  (∀ (l : Lane) (d : Nat), l.scr < 2 ^ 58 →
    (∀ i, i < 64 → (l.scramble d).1.testBit i = Bool.xor (d.testBit i) (Bool.xor
      (if 39 ≤ i then (l.scramble d).1.testBit (i - 39) else l.scr.testBit (i + 19))
      (if 58 ≤ i then (l.scramble d).1.testBit (i - 58) else l.scr.testBit i))) ∧
    (l.scramble d).1 < 2 ^ 64 ∧ (l.scramble d).2.scr = (l.scramble d).1 / 2 ^ 6 ∧
    (l.scramble d).2.bip = Nat.xor l.bip (foldBytes (l.scramble d).1))

/-- Failure and switching of groups: a group that is ACTIVE fails at the return-lane timeout with CAUSE 1 and at a clock fault with
CAUSE 3, and a retired or disabled one with CAUSE 4; a group under training goes back to CLOCK; an OFF group that is enabled in
RUN begins training (R303, R306, R307, Table 1-6;
the model's own reading: log entries 15 and 72). -/
def Obligations.LinkFailure : Prop :=
  (∀ (g : Nat) (s : State), g < 32 → s.groups.length = 32 → hasBit (s.get Reg.LK_PRBSRT_EN) g = false →
    s.get Reg.LK_CRCFG_RTTO * 1000 < s.now - (s.group g).lastRt → s.lstate g = lsActive → s.spillOn = false →
    ∃ t, exec (.returnLaneTimeout g) s = .next t ∧ s.groupFailed t g 1) ∧
  (∀ (g : Nat) (s : State), g < 32 → s.groups.length = 32 → hasBit (s.get Reg.LK_PRBSRT_EN) g = false →
    s.get Reg.LK_CRCFG_RTTO * 1000 < s.now - (s.group g).lastRt →
    (s.lstate g = lsClock ∨ s.lstate g = lsPattern ∨ s.lstate g = lsMarker) →
    ∃ t, exec (.returnLaneTimeout g) s = .next t ∧ t.lstate g = lsClock ∧ t.get Reg.LK_GSTAT_RTLOCK g = 0 ∧
      (t.group g).stepAt = s.now ∧ t = { s with regs := t.regs, groups := t.groups } ∧ s.otherGroups t g ∧
      s.regsKeptBut t [(Reg.LK_GSTAT_LSTATE, g, 0), (Reg.LK_GSTAT_RTLOCK, g, 0)]) ∧
  (∀ (g : Nat) (s : State), g < 32 → s.groups.length = 32 → s.lstate g ≠ lsOff → s.lstate g ≠ lsFailed → s.spillOn = false →
    ∃ t, exec (.linkGroupClockFault g) s = .next t ∧ s.groupFailed t g 3) ∧
  (∀ (g : Nat) (s : State), g < 32 → s.groups.length = 32 → s.running = true → s.lstate g ≠ lsFailed → s.spillOn = false →
    ∃ t, exec (.groupRetire g) s = .next t ∧ s.groupFailed t g 4) ∧
  (∀ (g : Nat) (s : State), g < 32 → s.groups.length = 32 → s.running = true → s.lstate g ≠ lsOff → s.lstate g ≠ lsFailed →
    s.spillOn = false →
    ∃ t, exec (.groupDisable g) s = .next t ∧ s.groupFailed t g 4 ∧ hasBit (t.get Reg.LK_GRPEN_EN) g = false) ∧
  (∀ (g : Nat) (s : State), g < 32 → s.groups.length = 32 → s.lstate g = lsOff → s.running = true →
    ∃ t, exec (.groupEnable g) s = .next t ∧ hasBit (t.get Reg.LK_GRPEN_EN) g = true ∧ t.lstate g = lsClock ∧
      hasBit (t.get Reg.PM_LG_ON) g = true ∧ (t.group g).stepAt = s.now ∧ (t.group g).lastRt = s.now ∧
      t = { s with regs := t.regs, groups := t.groups } ∧ s.otherGroups t g ∧
      s.regsKeptBut t [(Reg.LK_GRPEN_EN, 0, 0), (Reg.LK_GSTAT_LSTATE, g, 0), (Reg.LK_GSTAT_RTLOCK, g, 0), (Reg.PM_LG_ON, 0, 0)])

/-- The PRBS tests of a group that is neither the control group nor in a mask: the transmit test takes an ACTIVE group to PRBS,
where its lanes send PRBS31, lane k 31·k bits into the sequence, and back to MARKER with USED at 0; the receive test counts errors in sync, from 0 (R308, R309).
The eye scan of the rig receivers: a GO starts a scan with the fields written, unless one runs; its end shows the mismatches
and ESDONE (R313;
the model's own reading: log entry 15). -/
def Obligations.LineTests : Prop :=
  (∀ (g : Nat) (s : State), g < 32 → s.running = true → s.prbsRefused g = false → s.lstate g = lsActive →
    ∃ t, exec (.prbsTxStart g) s = .next t ∧ hasBit (t.get Reg.LK_PRBSTX_EN) g = true ∧ t.lstate g = lsPrbs ∧
      t.out = .prbs g 31 ((List.range 16).map fun k => prbsAt 31 3 (s.prbsFrom 31) (31 * k)) :: s.out ∧
      t = { s with regs := t.regs, out := t.out, free := s.free + 1 } ∧
      s.regsKeptBut t [(Reg.LK_PRBSTX_EN, 0, 0), (Reg.LK_GSTAT_LSTATE, g, 0)]) ∧
  (∀ (g : Nat) (s : State), g < 32 → s.running = true → s.groups.length = 32 → s.lstate g = lsPrbs →
    ∃ t, exec (.prbsTxStop g) s = .next t ∧ hasBit (t.get Reg.LK_PRBSTX_EN) g = false ∧ t.lstate g = lsMarker ∧
      t.get Reg.LK_GUSED_VALUE g = 0 ∧ (t.group g).stepAt = s.now ∧
      t = { s with regs := t.regs, groups := t.groups, free := s.free + 16 } ∧ s.otherGroups t g ∧
      s.regsKeptBut t [(Reg.LK_PRBSTX_EN, 0, 0), (Reg.LK_GSTAT_LSTATE, g, 0), (Reg.LK_GUSED_VALUE, g, 0)]) ∧
  (∀ (g : Nat) (s : State), g < 32 → s.running = true → s.prbsRefused g = false →
    ∃ t, exec (.prbsRtStart g) s = .next t ∧ hasBit (t.get Reg.LK_PRBSRT_EN) g = true ∧ t.get Reg.LK_RTERR_ERRS g = 0 ∧
      t.get Reg.LK_GSTAT_RTPSYNC g = 0 ∧ t = { s with regs := t.regs } ∧
      s.regsKeptBut t [(Reg.LK_PRBSRT_EN, 0, 0), (Reg.LK_RTERR_ERRS, g, 0), (Reg.LK_GSTAT_RTPSYNC, g, 0)]) ∧
  (∀ (g : Nat) (s : State), g < 32 → s.running = true → s.groups.length = 32 →
    ∃ t, exec (.prbsRtStop g) s = .next t ∧ hasBit (t.get Reg.LK_PRBSRT_EN) g = false ∧ t.get Reg.LK_GSTAT_RTPSYNC g = 0 ∧
      (t.group g).lastRt = s.now ∧ t = { s with regs := t.regs, groups := t.groups } ∧ s.otherGroups t g ∧
      s.regsKeptBut t [(Reg.LK_PRBSRT_EN, 0, 0), (Reg.LK_GSTAT_RTPSYNC, g, 0)]) ∧
  (∀ (g : Nat) (s : State), g < 32 → hasBit (s.get Reg.LK_PRBSRT_EN) g = true →
    (∃ t, exec (.rtPrbsSync g) s = .next t ∧ t.get Reg.LK_GSTAT_RTPSYNC g = 1 ∧ t = { s with regs := t.regs } ∧
      s.regsKeptBut t [(Reg.LK_GSTAT_RTPSYNC, g, 0)]) ∧
    (∃ t, exec (.rtPrbsSyncLoss g) s = .next t ∧ t.get Reg.LK_GSTAT_RTPSYNC g = 0 ∧ t = { s with regs := t.regs } ∧
      s.regsKeptBut t [(Reg.LK_GSTAT_RTPSYNC, g, 0)])) ∧
  (∀ (g : Nat) (s : State), g < 32 → hasBit (s.get Reg.LK_PRBSRT_EN) g = true → s.get Reg.LK_GSTAT_RTPSYNC g = 1 →
    ∃ t, exec (.rtPrbsBitError g) s = .next t ∧ t.get Reg.LK_RTERR_ERRS g = min (2 ^ 32 - 1) (s.get Reg.LK_RTERR_ERRS g + 1) ∧
      t = { s with regs := t.regs } ∧ s.regsKeptBut t [(Reg.LK_RTERR_ERRS, g, 0)]) ∧
  (∀ (v : Word) (s : State), s.running = true → ∃ t, exec (.eyeScanStart v) s = .next t ∧ t.get Reg.LK_RIGSTAT_ESBUSY = 1 ∧
    t.get Reg.LK_ESCFG_LANE = v.toNat % 4 ∧ t.get Reg.LK_ESCFG_PHOFS = v.toNat / 2 ^ 8 % 64 ∧
    t.get Reg.LK_ESCFG_VOFS = v.toNat / 2 ^ 16 % 128 ∧ t.get Reg.LK_ESCFG_DWELL = v.toNat / 2 ^ 24 % 16 ∧
    t.get Reg.LK_ESCFG_GO = 0 ∧ t = { s with regs := t.regs } ∧
    s.regsKeptBut t [wholeWord 0x080410, (Reg.LK_RIGSTAT_ESBUSY, 0, 0)]) ∧
  (∀ (n : Nat) (s : State), s.get Reg.LK_RIGSTAT_ESBUSY = 1 → n < 2 ^ 32 →
    ∃ t, exec (.eyeScanDone n) s = .next t ∧ t.get Reg.LK_RIGSTAT_ESBUSY = 0 ∧ t.get Reg.LK_RIGSTAT_ESDONE = 1 ∧
      t.get Reg.LK_ESRES_ERRS = n ∧ t = { s with regs := t.regs, hot := t.hot } ∧
      s.regsKeptBut t [(Reg.LK_RIGSTAT_ESBUSY, 0, 0), (Reg.LK_RIGSTAT_ESDONE, 0, 0), (Reg.LK_ESRES_ERRS, 0, 0)])

/-! ## The rig (03_timebase_and_events.md R77 to R80, 10_link_lanes.md R310 to R312) -/

/-- The rig ports: a locked receiver is noted, its state is at least LOCKED and the next message of each type is its reference; a free transmitter sends the first of the
messages of the best priority that wait, in coded blocks; a CRC error is counted; 64 µs that have passed without a TIME message make
RSTATE FREE and are counted (R80, R286, R310, R311, R312, R330, R334;
the model's own reading: log entries 69 and 72). -/
def Obligations.RigPorts : Prop :=
  (∀ s : State, s.rigUp = true →
    ∃ t, exec (.rigRxLock 0) s = .next t ∧ t.get Reg.LK_RIGSTAT_INSTATE = max 1 (s.get Reg.LK_RIGSTAT_INSTATE) ∧
      t = { s with regs := t.regs, rig := { s.rig with inLock := true, alive := s.rig.alive.filter fun e => e.1 == 2 } } ∧
      s.regsKeptBut t [(Reg.LK_RIGSTAT_INSTATE, 0, 0)]) ∧
  (∀ s : State, s.rigUp = true →
    ∃ t, exec (.rigRxLock 1) s = .next t ∧ t.get Reg.LK_RIGSTAT_OUTSTATE = max 1 (s.get Reg.LK_RIGSTAT_OUTSTATE) ∧
      t = { s with regs := t.regs, rig := { s.rig with outLock := true, alive := s.rig.alive.filter fun e => e.1 != 2 } } ∧
      s.regsKeptBut t [(Reg.LK_RIGSTAT_OUTSTATE, 0, 0)]) ∧
  (∀ s : State, s.rigUp = true → s.rig.outQ ≠ [] →
    ∃ t, exec (.rigMessageSend 1) s = .next t ∧ ∃ m ∈ s.rig.outQ,
      (∀ x ∈ s.rig.outQ, State.rigPriority m ≤ State.rigPriority x) ∧
      t.out = ((s.emit (.rig 1 (s.rigBytes m))).sendBlocks 33 (packetBlocks (s.rigBytes m))).out ∧
      t = { s with regs := t.regs, out := t.out, rig := { s.rig with outQ := s.rig.outQ.erase m, lines := t.rig.lines } } ∧
      s.regsKeptBut t [(Reg.CE_VAL_VAL, 1, 0)]) ∧
  (∀ s : State, s.rigUp = true → s.rig.inQ ≠ [] →
    ∃ t, exec (.rigMessageSend 0) s = .next t ∧ ∃ m ∈ s.rig.inQ,
      (∀ x ∈ s.rig.inQ, State.rigPriority m ≤ State.rigPriority x) ∧
      t.out = ((s.emit (.rig 0 (s.rigBytes m))).sendBlocks 32 (packetBlocks (s.rigBytes m))).out ∧
      t = { s with regs := t.regs, out := t.out, rig := { s.rig with inQ := s.rig.inQ.erase m, lines := t.rig.lines } } ∧
      s.regsKeptBut t [(Reg.CE_VAL_VAL, 1, 0)]) ∧
  (∀ s : State, s.rigUp = true →
    ∃ t, exec .rigCrcError s = .next t ∧ t.get Reg.LK_RIGSTAT_CRCERR = min 255 (s.get Reg.LK_RIGSTAT_CRCERR + 1) ∧
      t = { s with regs := t.regs } ∧ s.regsKeptBut t [(Reg.LK_RIGSTAT_CRCERR, 0, 0)]) ∧
  (∀ (t0 : Nat) (s : State), s.boot.rigRole ≠ 0 → s.get Reg.TB_RIG_MASTER = 0 → s.rig.lastTime = some t0 →
    64000 < s.now - t0 → s.get Reg.TB_RIG_RSTATE ≠ 0 →
    ∃ t, exec .rigInTimeout s = .next t ∧ t.get Reg.TB_RIG_RSTATE = 0 ∧
      t.get Reg.TB_RIG_LOSSCNT = min (2 ^ Reg.TB_RIG_LOSSCNT.w - 1) (s.get Reg.TB_RIG_LOSSCNT + 1) ∧
      t = { s with regs := t.regs, rig := { s.rig with trim := 0, lockRun := 0, stepped := false } } ∧
      s.regsKeptBut t [(Reg.TB_RIG_RSTATE, 0, 0), (Reg.TB_RIG_LOSSCNT, 0, 0)])

/-- Rig messages that this device queues: the master a TIME every 8 µs on RIG_OUT, any other device a PROBE on RIG_IN, and the
answer to a PROBE, which carries its time and its arrival; a PROBE_REPLY gives half the round trip less the turnaround; a FRAMEBC
and a FIX go on downstream with their origin (R77, R96, R202, R311, R312). -/
def Obligations.RigMessages : Prop :=
  (∀ s : State, s.rigUp = true → s.get Reg.TB_RIG_MASTER = 1 →
    ∃ t, exec .rigTimeSend s = .next t ∧ t.rig.outQ = s.rig.outQ ++ [⟨1, s.rigOwn 1, s.get Reg.TB_RIG_HOP, 0, 0, []⟩] ∧
      t.rigOwn 1 = (s.rigOwn 1 + 1) % 256 ∧
      t = { s with rig := { s.rig with outQ := t.rig.outQ, ownAlive := t.rig.ownAlive } }) ∧
  (∀ s : State, s.rigUp = true → s.get Reg.TB_RIG_MASTER = 0 →
    ∃ t, exec .rigProbeSend s = .next t ∧ t.rig.inQ = s.rig.inQ ++ [⟨2, s.rigOwn 2, s.get Reg.TB_RIG_HOP, 0, 0, []⟩] ∧
      t.rigOwn 2 = (s.rigOwn 2 + 1) % 256 ∧
      t = { s with rig := { s.rig with inQ := t.rig.inQ, ownAlive := t.rig.ownAlive } }) ∧
  (∀ (alive hop t0 : Nat) (s : State), s.rigUp = true → s.rigFresh 2 hop →
    ∃ t, exec (.rigProbeReceive alive hop t0) s = .next t ∧
      t.rig.outQ = s.rig.outQ ++ [⟨3, s.rigOwn 3, s.get Reg.TB_RIG_HOP, t0, s.now, []⟩] ∧
      t = { s with regs := t.regs, rig := t.rig } ∧ s.regsKeptBut t [(Reg.LK_RIGSTAT_OUTSTATE, 0, 0), (Reg.CE_VAL_VAL, 1, 0)]) ∧
  (∀ (alive hop t0 turn : Nat) (s : State), s.rigUp = true → s.rigFresh 3 hop →
    ∃ t, exec (.rigProbeReplyReceive alive hop t0 turn) s = .next t ∧ t.rig.delay = (s.now - t0 - turn) / 2 ∧
      t = { s with regs := t.regs, rig := { s.rig with delay := t.rig.delay, alive := t.rig.alive } } ∧
      s.regsKeptBut t [(Reg.CE_VAL_VAL, 1, 0), (Reg.LK_RIGSTAT_INSTATE, 0, 0)]) ∧
  (∀ (alive hop te : Nat) (s : State), s.rigUp = true → s.rigFresh 4 hop → s.get Reg.TB_TRIG_RIGSYNC = 0 →
    ∃ t, exec (.rigFramebcReceive alive hop te) s = .next t ∧ t.rig.outQ = s.rig.outQ ++ [⟨4, alive, hop, te, 0, []⟩] ∧
      t = { s with regs := t.regs, rig := { s.rig with outQ := t.rig.outQ, alive := t.rig.alive } } ∧
      s.regsKeptBut t [(Reg.CE_VAL_VAL, 1, 0), (Reg.LK_RIGSTAT_INSTATE, 0, 0)]) ∧
  (∀ (alive hop : Nat) (fix : List Byte) (s : State), s.rigUp = true → s.rigFresh 5 hop → fix.length = 32 →
    hasBit (leAt fix 1 1) 0 = true → (s.rig.outQ.filter (·.typ == 5)).length < 64 →
    ∃ t, exec (.rigFixReceive alive hop fix) s = .next t ∧ t.rig.outQ = s.rig.outQ ++ [⟨5, alive, hop, 0, 0, fix⟩] ∧
      (∃ f ∈ t.trk.fixes, f.hop = some hop ∧ f.win = leAt fix 0 1 % 64 ∧ f.conf = leAt fix 3 1 ∧ f.seen = []) ∧
      t = { s with regs := t.regs, rig := { s.rig with outQ := t.rig.outQ, alive := t.rig.alive },
                   trk := { s.trk with fixes := t.trk.fixes } } ∧
      s.regsKeptBut t [(Reg.CE_VAL_VAL, 1, 0), (Reg.LK_RIGSTAT_INSTATE, 0, 0)])

/-- A TIME message on a device that is not the master: its offset is the time sent plus the link's delay less device time. Within
2 ns of a LOCKED device it leaves device time and its rate as they are; where alignment starts more than 1 µs behind, device time
steps forward once, by the offset, and RSTATE is ALIGNING; and the device sends a TIME of its own. A message whose alive value
repeats the last of its type and origin is counted in REPCNT and has no effect (R77 to R79, R312, R334). -/
def Obligations.RigTimeAndRepeats : Prop :=
  (∀ (alive hop t0 : Nat) (s : State), s.rigUp = true → s.get Reg.TB_RIG_MASTER = 0 → s.rigFresh 1 hop →
    s.get Reg.TB_RIG_RSTATE = 2 → s.now ≤ t0 + s.rig.delay + 2 → t0 + s.rig.delay ≤ s.now + 2 →
    ∃ t, exec (.rigTimeReceive alive hop t0) s = .next t ∧ t.now = s.now ∧ t.rig.trim = 0 ∧ t.rig.lastTime = some s.now ∧
      t.get Reg.TB_RIG_RSTATE = 2 ∧ t.getS Reg.TB_RIG_OFFSET = (t0 : Int) + s.rig.delay - s.now ∧
      t.rig.outQ = s.rig.outQ ++ [⟨1, s.rigOwn 1, s.get Reg.TB_RIG_HOP, 0, 0, []⟩] ∧
      t = { s with regs := t.regs, rig := t.rig } ∧
      s.regsKeptBut t [(Reg.CE_VAL_VAL, 1, 0), (Reg.LK_RIGSTAT_INSTATE, 0, 0), (Reg.TB_RIG_OFFSET, 0, 0)]) ∧
  (∀ (alive hop t0 : Nat) (s : State), s.rigUp = true → s.get Reg.TB_RIG_MASTER = 0 → s.rigFresh 1 hop →
    s.get Reg.TB_RIG_RSTATE = 0 → s.now + 1000 < t0 + s.rig.delay →
    ∃ t, exec (.rigTimeReceive alive hop t0) s = .next t ∧ t.now = t0 + s.rig.delay ∧ t.rig.stepped = true ∧
      t.get Reg.TB_RIG_RSTATE = 1 ∧ t.rig.lastTime = some t.now ∧
      t = { s with now := t.now, markerAt := s.markerAt + (t.now - s.now), regs := t.regs, rig := t.rig, slots := t.slots } ∧
      s.regsKeptBut t [(Reg.CE_VAL_VAL, 1, 0), (Reg.LK_RIGSTAT_INSTATE, 0, 0), (Reg.TB_RIG_OFFSET, 0, 0), (Reg.TB_RIG_RSTATE, 0, 0)]) ∧
  (∀ (typ hop alive : Nat) (c : Instr) (s : State),
    ((typ = 1 ∧ ∃ x, c = .rigTimeReceive alive hop x) ∨ (typ = 2 ∧ ∃ x, c = .rigProbeReceive alive hop x) ∨
      (typ = 3 ∧ ∃ x y, c = .rigProbeReplyReceive alive hop x y) ∨ (typ = 4 ∧ ∃ x, c = .rigFramebcReceive alive hop x) ∨
      (typ = 5 ∧ ∃ x, c = .rigFixReceive alive hop x)) →
    s.rigUp = true → s.get Reg.TB_RIG_MASTER = 0 → alive < 256 →
    s.rig.alive.find? (fun e => e.1 == typ && e.2.1 == hop) = some (typ, hop, alive) →
    ∃ t, exec c s = .next t ∧
      t.get Reg.PK_ALV_REPCNT = min (2 ^ Reg.PK_ALV_REPCNT.w - 1) (s.get Reg.PK_ALV_REPCNT + 1) ∧
      t = { s with regs := t.regs } ∧ s.regsKeptBut t [(Reg.CE_VAL_VAL, 1, 0), (Reg.PK_ALV_REPCNT, 0, 0)])

/-! ## Timebase channels (03_timebase_and_events.md R60 to R76, R505) -/

/-- A write of TB_nCFG takes the channel to the state its SRC selects, with ABS cleared, its position held and its rate 0; a legal step of A and B counts one, up where A
leads B, and an illegal one is flagged; the first index pulse after LOCKING zeroes the position and sets ABS, and a later one
is checked against it at the edge's instant before the glitch filter; IDXTO revolutions without one are flagged (R60, R64, R65,
R67, R94;
the model's own reading: log entries 7, 19 and 73). -/
def Obligations.EncoderChannels : Prop :=
  (∀ (n : Nat) (v : Word) (s : State), n < 4 → s.running = true → s.tbs.length = 4 →
    ∃ t, exec (.tbCfgWrite n v) s = .next t ∧ t.get Reg.TB_CFG_SRC n = fieldOf v Reg.TB_CFG_SRC.lo Reg.TB_CFG_SRC.w ∧
      t.get Reg.TB_STAT_ABS n = 0 ∧
      t.cstate n = (if t.get Reg.TB_CFG_SRC n = 4 then csTrack
        else if t.get Reg.TB_CFG_SRC n = 1 ∨ t.get Reg.TB_CFG_SRC n = 2 ∨ t.get Reg.TB_CFG_SRC n = 3 then csLocking
        else csOff) ∧
      (t.tb n).x = s.posNow n ∧ (t.tb n).v = 0 ∧ (∀ m, m ≠ n → t.tb m = s.tb m) ∧ Keeps s t) ∧
  (∀ (n : Nat) (a b : Bool) (s : State), n < 4 → s.tbs.length = 4 → s.get Reg.TB_CFG_SRC n = 1 → s.cstate n ≠ csOff →
    s.get Reg.TB_CFG_INV n = 0 → ((s.tb n).ab, (if a then 2 else 0) + (if b then 1 else 0)) ∈ quadUp →
    exec (.encoderEdge n a b) s = .next (s.setTb n fun c => { c with
      ab := (if a then 2 else 0) + (if b then 1 else 0), raw := c.raw + 1, travel := c.travel + 1 })) ∧
  (∀ (n : Nat) (a b : Bool) (s : State), n < 4 → s.tbs.length = 4 → s.get Reg.TB_CFG_SRC n = 1 → s.cstate n ≠ csOff →
    s.get Reg.TB_CFG_INV n = 0 → ((if a then 2 else 0) + (if b then 1 else 0), (s.tb n).ab) ∈ quadUp →
    exec (.encoderEdge n a b) s = .next (s.setTb n fun c => { c with
      ab := (if a then 2 else 0) + (if b then 1 else 0), raw := c.raw - 1, travel := c.travel + 1 })) ∧
  (∀ (n : Nat) (a b : Bool) (s : State), n < 4 → s.tbs.length = 4 → s.get Reg.TB_CFG_SRC n = 1 → s.cstate n ≠ csOff →
    (s.tb n).ab + ((if a then 2 else 0) + (if b then 1 else 0)) = 3 →
    ∃ t, exec (.encoderEdge n a b) s = .next t ∧ t.get Reg.TB_STAT_QERR n = 1 ∧
      t.get Reg.TB_STAT_ERRCNT n = min (2 ^ Reg.TB_STAT_ERRCNT.w - 1) (s.get Reg.TB_STAT_ERRCNT n + 1) ∧
      (t.tb n).raw = (s.tb n).raw ∧ (t.tb n).bad = true ∧ t = { s with regs := t.regs, hot := t.hot, tbs := t.tbs } ∧
      (∀ m, m ≠ n → t.tb m = s.tb m) ∧ s.regsKeptBut t [(Reg.TB_STAT_QERR, n, 0), (Reg.TB_STAT_ERRCNT, n, 0)]) ∧
  (∀ (n : Nat) (s : State), n < 4 → s.tbs.length = 4 → s.get Reg.TB_CFG_IDXEN n = 1 → s.get Reg.TB_CFG_SRC n = 1 →
    s.modulus n ≠ 0 → (s.tb n).idxDone = false →
    ∃ t, exec (.indexPulse n) s = .next t ∧ (t.tb n).x = 0 ∧ (t.tb n).raw = 0 ∧ (t.tb n).idxDone = true ∧
      (t.tb n).travel = 0 ∧ t.get Reg.TB_STAT_ABS n = 1 ∧ t = { s with regs := t.regs, tbs := t.tbs, slots := t.slots } ∧
      (∀ m, m ≠ n → t.tb m = s.tb m) ∧ s.regsKeptBut t [(Reg.TB_STAT_ABS, n, 0)]) ∧
  (∀ (n : Nat) (s : State), n < 4 → s.tbs.length = 4 → s.get Reg.TB_CFG_IDXEN n = 1 → s.get Reg.TB_CFG_SRC n = 1 →
    s.modulus n ≠ 0 → (s.tb n).idxDone = true →
    ∃ t, exec (.indexPulse n) s = .next t ∧ (t.tb n).travel = 0 ∧ (t.tb n).x = (s.tb n).x ∧
      t.get Reg.TB_STAT_IDXERR n =
        (if 65536 < (wrapDiff (s.modulus n) (State.countOf (s.posAt n (s.now - 15)) * 65536)).natAbs then 1
          else s.get Reg.TB_STAT_IDXERR n) ∧
      t = { s with regs := t.regs, hot := t.hot, tbs := t.tbs } ∧ s.regsKeptBut t [(Reg.TB_STAT_IDXERR, n, 0)]) ∧
  (∀ (n : Nat) (s : State), n < 4 → s.get Reg.TB_CFG_IDXEN n = 1 → s.get Reg.TB_TO_IDXTO n ≠ 0 →
    s.get Reg.TB_TO_IDXTO n * s.modulus n < (s.tb n).travel →
    ∃ t, exec (.indexTimeout n) s = .next t ∧ t.get Reg.TB_STAT_IDXLOST n = 1 ∧ t = { s with regs := t.regs, hot := t.hot } ∧
      s.regsKeptBut t [(Reg.TB_STAT_IDXLOST, n, 0)])

/-- A sync pulse counts one, down with INV, and is a measurement of the next update; one before PMIN is flagged, counts nothing and is
a rejected measurement; one past PMAX follows a miss. A missing one, a resolver output that stays out and the end of COASTMAX, where
no accepted one waits, take the channel from TRACK to COAST and on to LOST, where the rate is 0 and the position stays where the extrapolation had brought it
(R68 to R72, Table 3-3; the model's own reading: log entry 72). -/
def Obligations.SyncAndCoast : Prop :=
  (∀ (n : Nat) (s : State), n < 4 → s.get Reg.TB_CFG_SRC n = 2 → s.cstate n ≠ csOff →
    (s.coastOver n s.now && !(s.tb n).meas.any (!·.bad)) = false →
    ((s.tb n).fresh = true ∨ (max (s.get Reg.TB_PMIN_PMIN n) 10000 ≤ s.now - (s.tb n).lastSync ∧
      s.now - (s.tb n).lastSync ≤ min (s.get Reg.TB_PMAX_PMAX n) 1000000000)) →
    exec (.syncPulse n) s = .next (s.setTb n fun c => { c with
      pulses := (if s.get Reg.TB_CFG_INV n = 0 then (s.tb n).pulses + 1 else (s.tb n).pulses - 1)
      lastSync := s.now, fresh := false
      meas := c.meas ++ [⟨if s.get Reg.TB_CFG_INV n = 0 then (s.tb n).pulses + 1 else (s.tb n).pulses - 1, s.now, false⟩] })) ∧
  (∀ (n : Nat) (s : State), n < 4 → s.tbs.length = 4 → s.get Reg.TB_CFG_SRC n = 2 →
    s.coastOver n s.now = true → (s.tb n).meas = [] → (s.tb n).fresh = true →
    ∃ t, exec (.syncPulse n) s = .next t ∧ t.cstate n = csLost ∧ (t.tb n).v = 0 ∧ (t.tb n).meas.length = 1 ∧
      (t.tb n).lastSync = s.now ∧ (∀ m, m ≠ n → t.tb m = s.tb m) ∧ t = { s with regs := t.regs, tbs := t.tbs } ∧
      s.regsKeptBut t [(Reg.TB_STAT_CSTATE, n, 0)]) ∧
  (∀ (n : Nat) (s : State), n < 4 → s.tbs.length = 4 → s.get Reg.TB_CFG_SRC n = 2 → s.cstate n ≠ csOff →
    (s.coastOver n s.now && !(s.tb n).meas.any (!·.bad)) = false →
    (s.tb n).fresh = false → s.now - (s.tb n).lastSync < max (s.get Reg.TB_PMIN_PMIN n) 10000 →
    s.now - (s.tb n).lastSync ≤ min (s.get Reg.TB_PMAX_PMAX n) 1000000000 →
    ∃ t, exec (.syncPulse n) s = .next t ∧ t.get Reg.TB_STAT_PERIODERR n = 1 ∧
      t.get Reg.TB_STAT_ERRCNT n = min (2 ^ Reg.TB_STAT_ERRCNT.w - 1) (s.get Reg.TB_STAT_ERRCNT n + 1) ∧
      t.tb n = { s.tb n with meas := (s.tb n).meas ++ [⟨0, s.now, true⟩] } ∧ (∀ m, m ≠ n → t.tb m = s.tb m) ∧
      t = { s with regs := t.regs, hot := t.hot, tbs := t.tbs } ∧
      s.regsKeptBut t [(Reg.TB_STAT_PERIODERR, n, 0), (Reg.TB_STAT_ERRCNT, n, 0)]) ∧
  (∀ (n : Nat) (s : State), n < 4 → s.tbs.length = 4 → s.get Reg.TB_CFG_SRC n = 2 → s.cstate n = csTrack →
    (s.tb n).fresh = false → min (s.get Reg.TB_PMAX_PMAX n) 1000000000 < s.now - (s.tb n).lastSync →
    (∃ t, exec (.syncMiss n) s = .next t ∧ t.get Reg.TB_STAT_SYNCMISS n = 1 ∧ t.cstate n = csCoast ∧ (t.tb n).fresh = true ∧
      (t.tb n).coastAt = s.now ∧ (∀ m, m ≠ n → t.tb m = s.tb m) ∧ t = { s with regs := t.regs, hot := t.hot, tbs := t.tbs } ∧
      s.regsKeptBut t [(Reg.TB_STAT_SYNCMISS, n, 0), (Reg.TB_STAT_CSTATE, n, 0)]) ∧
    (∃ t, exec (.syncPulse n) s = .next t ∧ t.get Reg.TB_STAT_SYNCMISS n = 1 ∧ t.cstate n = csCoast ∧ (t.tb n).fresh = false ∧
      (t.tb n).lastSync = s.now ∧ (t.tb n).meas.length = (s.tb n).meas.length + 1 ∧ (∀ m, m ≠ n → t.tb m = s.tb m) ∧
      t = { s with regs := t.regs, hot := t.hot, tbs := t.tbs } ∧
      s.regsKeptBut t [(Reg.TB_STAT_SYNCMISS, n, 0), (Reg.TB_STAT_CSTATE, n, 0)])) ∧
  (∀ (n l d : Nat) (s : State), n < 4 → s.tbs.length = 4 → s.get Reg.TB_CFG_SRC n = 3 → s.cstate n = csTrack →
    (s.tb n).lastOut = some l → (s.tb n).interval = some d → 2 * d < s.now - l → s.filtNext = none →
    ∃ t, exec (.resolverOutputTimeout n) s = .next t ∧ t.cstate n = csCoast ∧ (t.tb n).coastAt = s.now ∧
      t = { s with regs := t.regs, tbs := t.tbs } ∧ s.regsKeptBut t [(Reg.TB_STAT_CSTATE, n, 0)]) ∧
  (∀ (n : Nat) (s : State), n < 4 → s.tbs.length = 4 → s.cstate n = csCoast →
    s.get Reg.TB_TO_COASTMAX n * 1000 < s.now - (s.tb n).coastAt → s.filtNext = none → (s.tb n).meas.any (!·.bad) = false →
    ∃ t, exec (.coastTimeout n) s = .next t ∧ t.cstate n = csLost ∧ (t.tb n).v = 0 ∧ (t.tb n).tx = s.now ∧
      (t.tb n).x = (s.tb n).x + (s.tb n).v * ((s.now : Rat) - (s.tb n).tx) / 1000 ∧
      t = { s with regs := t.regs, tbs := t.tbs } ∧ s.regsKeptBut t [(Reg.TB_STAT_CSTATE, n, 0)]) ∧
  (∀ (n : Nat) (s : State), n < 4 → s.filtNext = none → (s.tb n).meas.any (!·.bad) = true → exec (.coastTimeout n) s = .next s)

/-- A read of a channel's position shows one update's count, fraction and rate, and a read of TB_TIMELO device time with its upper
half captured; the update of the channels takes place once in every µs, in its first nanoseconds, in RUN and STANDBY: it extrapolates
a channel whose measurement is still to come, takes an encoder's through the estimator, and commits the armed slots whose position
lies within LEAD, here one on device time (R18, R65, R66, R74, R76, R78, R82, R83, R505;
the model's own reading: log entries 6, 18 and 73). -/
def Obligations.PositionsAndUpdates : Prop :=
  (∀ (n : Nat) (s : State), n < 4 → s.dev ≠ .off → s.stopped = false →
    ∃ t, exec (.posRead n) s = .next t ∧
      t.out = .i3c (leBytes 4 (BitVec.ofInt 32 (State.countOf (s.posAt n (s.posInstant n)))).toNat) :: s.out ∧
      t.get Reg.TB_POSF_FRAC n = State.fracOf (s.posAt n (s.posInstant n)) ∧
      t.getS Reg.TB_POSF_RES n = sext 16 (scode 16 (s.tb n).res) ∧
      t.getS Reg.TB_RATE_RATE n = clampI (-2147483648) 2147483647 (s.rateOf n * 65536).floor ∧
      t = { s with regs := t.regs, out := t.out } ∧
      s.regsKeptBut t [(Reg.TB_POSF_FRAC, n, 0), (Reg.TB_POSF_RES, n, 0), (Reg.TB_RATE_RATE, n, 0), (Reg.TB_POS_COUNT, n, 0)]) ∧
  (∀ s : State, s.dev ≠ .off → s.stopped = false →
    ∃ t, exec .timeloRead s = .next t ∧ t.out = .i3c (leBytes 4 (s.now % 2 ^ 32)) :: s.out ∧
      t.get Reg.TB_TIMEHI_THI = s.now / 2 ^ 32 % 2 ^ 32 ∧ t = { s with regs := t.regs, out := t.out } ∧
      s.regsKeptBut t [(Reg.TB_TIMEHI_THI, 0, 0), (Reg.TB_TIMELO_TLO, 0, 0)]) ∧
  (∀ s : State, s.running = true → s.now % 1000 ≤ 1 → s.lastUpdate.all (fun t => t / 1000 != s.now / 1000) = true →
    ∃ t, exec .tbUpdate s = .next t ∧ t.lastUpdate = some s.now ∧ Keeps s t ∧
      (∀ n, n < 4 → s.cstate n = csOff → t.cstate n = csOff) ∧ ∀ m, m < 64 → s.sstate m ≠ ssArmed → t.sstate m = s.sstate m) ∧
  (∀ s : State, s.running = true → s.now % 1000 ≤ 1 → s.lastUpdate.all (fun t => t / 1000 != s.now / 1000) = true →
    s.filtNext = none → s.tbs.length = 4 → (∀ n, n < 4 → (s.tb n).lost = false) →
    (∀ n, n < 4 → s.cstate n = csOff ∨
      (s.get Reg.TB_CFG_SRC n = 2 ∧ (s.tb n).meas = [] ∧ (s.tb n).inits ≠ 0 ∧ s.cstate n ≠ csLost)) →
    (∀ m, m < 64 → s.sstate m ≠ ssArmed) →
    ∃ t, exec .tbUpdate s = .next t ∧ t = { s with lastUpdate := some s.now, tbs := t.tbs } ∧
      ∀ n, n < 4 → t.tb n = if s.cstate n = csOff then s.tb n
        else { s.tb n with x := (s.tb n).x + (s.tb n).v * ((s.now : Rat) - (s.tb n).tx) / 1000, tx := s.now }) ∧
  (∀ (n : Nat) (dt xp d : Rat) (s : State), n < 4 → s.running = true → s.now % 1000 ≤ 1 → s.lastUpdate.all (fun t => t / 1000 != s.now / 1000) = true →
    s.filtNext = none → s.tbs.length = 4 → (∀ m, m < 4 → m ≠ n → s.cstate m = csOff) → (∀ m, m < 4 → (s.tb m).lost = false) →
    s.get Reg.TB_CFG_SRC n = 1 → s.cstate n = csTrack → (s.tb n).inits = 2 → (s.tb n).bad = false →
    ((s.tb n).raw - (s.tb n).rawPrev).natAbs * 256 ≤ s.get Reg.TB_LIM_VMAX n →
    dt = ((s.now : Rat) - (s.tb n).tz) / 1000 → dt ≠ 0 →
    xp = (s.tb n).x + (s.tb n).v * ((s.now : Rat) - (s.tb n).tx) / 1000 →
    d = wrapDiffQ (s.modulus n) ((s.tb n).raw - xp) → d * 256 ≤ s.get Reg.TB_LIM_RESMAX n → -d * 256 ≤ s.get Reg.TB_LIM_RESMAX n →
    (∀ m, m < 64 → s.sstate m ≠ ssArmed) →
    ∃ t, exec .tbUpdate s = .next t ∧ (t.tb n).x = xp + (s.get Reg.TB_GAIN_ALPHA n : Rat) / 65536 * d ∧
      (t.tb n).v = (s.tb n).v + (s.get Reg.TB_GAIN_BETA n : Rat) / 65536 / dt * d ∧ (t.tb n).tx = s.now ∧ (t.tb n).tz = s.now ∧
      (t.tb n).res = clampI (-32768) 32767 (d * 256).floor ∧ (t.tb n).rawPrev = (s.tb n).raw ∧
      (∀ m, m ≠ n → t.tb m = s.tb m) ∧ t = { s with lastUpdate := some s.now, tbs := t.tbs }) ∧
  (∀ (m : Nat) (s : State), s.running = true → s.now % 1000 ≤ 1 → s.lastUpdate.all (fun t => t / 1000 != s.now / 1000) = true →
    s.filtNext = none → s.tbs.length = 4 → (∀ n, n < 4 → (s.tb n).lost = false) → s.slots.length = 64 → m < 64 → (∀ n, n < 4 → s.get Reg.TB_CFG_SRC n = 4) → (∀ n, n < 4 → s.cstate n = csTrack) →
    (∀ k, k < 64 → k ≠ m → s.sstate k ≠ ssArmed) → s.sstate m = ssArmed → (s.slot m).dir = 0 → (s.slot m).action = 0 →
    (s.slot m).prev = none → s.slotDiff (s.slot m) s.now < 0 →
    1000 ≤ (s.slotDiff (s.slot m) s.now).natAbs * 1000 / 65536 + (s.slot m).delay →
    (s.slotDiff (s.slot m) s.now).natAbs * 1000 / 65536 + (s.slot m).delay ≤ 1000 * s.get Reg.TB_SCHED_LEAD →
    ∃ t, exec .tbUpdate s = .next t ∧ t.sstate m = ssCommitted ∧
      (t.slot m).te = s.now + (s.slotDiff (s.slot m) s.now).natAbs * 1000 / 65536 + (s.slot m).delay ∧
      (t.slot m).ts = (t.slot m).te ∧ (t.slot m).commitAt = s.now ∧
      t = { s with regs := t.regs, lastUpdate := some s.now, slots := t.slots } ∧
      (∀ k, k ≠ m → t.slot k = s.slot k) ∧
      s.regsKeptBut t [(Reg.EV_STAT_SSTATE, m, 0), (Reg.EV_TIME_TE, m, 0)])

/-! ## Event slots, gallery pins and triggers (03_timebase_and_events.md R81 to R104, R506) -/

/-- Arming: ARM = 1 latches the working copy and P from the registers with DONE at 0, or refuses a reserved action; on a slot that is
committed or pending it is recorded and the execution stands; ARM = 0 disarms a slot that is not committed, and of one that is
cancels a recorded re-arm (R81, R84, R506, Table 3-4;
the model's own reading: log entry 18). -/
def Obligations.SlotArming : Prop :=
  (∀ (n : Nat) (v : Word) (s : State), n < 64 → s.slots.length = 64 → s.running = true →
    (s.sstate n = ssIdle ∨ s.sstate n = ssArmed) → fieldOf v 8 4 ≤ 9 →
    ∃ t, exec (.slotArm n v) s = .next t ∧ t.sstate n = ssArmed ∧ t.get Reg.EV_STAT_DONE n = 0 ∧ t.get Reg.EV_CFG_ARM n = 1 ∧
      (t.slot n).cfg = (v ||| 0x80000000#32) &&& 0xFFFF8FFF#32 ∧
      (t.slot n).p = s.getS Reg.EV_POS_POS n * 65536 + s.get Reg.EV_FRAC_POSF n ∧
      (t.slot n).step = s.getS Reg.EV_STEP_STEP n * 65536 + s.get Reg.EV_FRAC_STEPF n ∧
      (t.slot n).delay = s.get Reg.EV_DELAY_DELAY n ∧ (t.slot n).k = 0 ∧ (t.slot n).rearm = false ∧
      (∀ m, m ≠ n → t.slot m = s.slot m) ∧ t = { s with regs := t.regs, slots := t.slots, gal := t.gal, hot := t.hot } ∧
      s.regsKeptBut t (wholeWord (0x010400 + 0x20 * n) :: slotFlds n)) ∧
  (∀ (n : Nat) (v : Word) (s : State), n < 64 → s.running = true → (s.sstate n = ssIdle ∨ s.sstate n = ssArmed) →
    9 < fieldOf v 8 4 →
    ∃ t, exec (.slotArm n v) s = .next t ∧ t.get Reg.EV_SUM_BADCNT = min 255 (s.get Reg.EV_SUM_BADCNT + 1) ∧
      t.sstate n = ssIdle ∧ t.get Reg.EV_CFG_ARM n = 0 ∧ t = { s with regs := t.regs, gal := t.gal, hot := t.hot } ∧
      s.regsKeptBut t (wholeWord (0x010400 + 0x20 * n) :: (Reg.EV_SUM_BADCNT, 0, 0) :: slotFlds n)) ∧
  (∀ (n : Nat) (v : Word) (s : State), n < 64 → s.running = true → (s.sstate n = ssCommitted ∨ s.sstate n = ssPending) →
    ∃ t, exec (.slotArm n v) s = .next t ∧ t.sstate n = s.sstate n ∧
      t = { s.setSlot n (fun x => { x with rearm := true, stop := false }) with regs := t.regs } ∧
      s.regsKeptBut t [wholeWord (0x010400 + 0x20 * n)]) ∧
  (∀ (n : Nat) (v : Word) (s : State), n < 64 → s.running = true → (s.sstate n = ssIdle ∨ s.sstate n = ssArmed) →
    ∃ t, exec (.slotDisarm n v) s = .next t ∧ t.sstate n = ssIdle ∧ t.get Reg.EV_CFG_ARM n = 0 ∧
      t = { s with regs := t.regs, gal := t.gal, hot := t.hot } ∧
      s.regsKeptBut t (wholeWord (0x010400 + 0x20 * n) :: (Reg.EV_STAT_SSTATE, n, 0) :: pinFlds)) ∧
  (∀ (n : Nat) (v : Word) (s : State), n < 64 → s.running = true → (s.sstate n = ssCommitted ∨ s.sstate n = ssPending) →
    ∃ t, exec (.slotDisarm n v) s = .next t ∧ t.sstate n = s.sstate n ∧
      t = { s.setSlot n (fun x => { x with rearm := false, stop := true }) with regs := t.regs } ∧
      s.regsKeptBut t [wholeWord (0x010400 + 0x20 * n)])

/-- The actions on the pins, and NONE: a GAL_SET drives its pin to the level of ARG; a GAL_PULSE does so for WIDTH × 10 ns and the pulse's
end drives the opposite level; a pin that nothing uses any more is high impedance. Each counts an execution (R86, R87, R446,
Table 3-4; what a pulse under way uses is the model's reading, log entry 41). -/
def Obligations.SlotPinActions : Prop :=
  (∀ (n : Nat) (s : State), s.slotReady n 0 →
    ∃ t, exec (.actNone n) s = .next t ∧ s.slotRan t n (s.slotLate n) false ∧
      t = { s with regs := t.regs, slots := t.slots, gal := t.gal, hot := t.hot } ∧ s.regsKeptBut t (slotFlds n)) ∧
  (∀ (n : Nat) (s : State), s.slotReady n 6 → s.collides n (0x200 + (s.slot n).pin) = false → s.pinBusy (s.slot n).pin = false →
    s.pendingOn n State.slotResource (0x200 + (s.slot n).pin) = false →
    s.pinOwner (s.slot n).pin = 5 → s.gal.out.length = 24 →
    ∃ t, exec (.galSet n) s = .next t ∧ s.slotRan t n (s.slotLate n) false ∧
      (t.pinOwner (s.slot n).pin = 5 → t.gal.out.getD (s.slot n).pin none = some (s.slot n).level) ∧
      (t.pinOwner (s.slot n).pin < 4 → t.gal.out.getD (s.slot n).pin none = none) ∧
      t = { s with regs := t.regs, slots := t.slots, gal := t.gal, hot := t.hot, execs := t.execs } ∧ s.regsKeptBut t (slotFlds n)) ∧
  (∀ (n : Nat) (s : State), s.slotReady n 7 → s.collides n (0x200 + (s.slot n).pin) = false → s.pinBusy (s.slot n).pin = false →
    s.pendingOn n State.slotResource (0x200 + (s.slot n).pin) = false →
    s.pinOwner (s.slot n).pin = 5 → s.pinUsers (s.slot n).pin = [5] → s.gal.out.length = 24 → s.gal.pulseEnd.length = 24 →
    ∃ t, exec (.galPulse n) s = .next t ∧ s.slotRan t n (s.slotLate n) false ∧
      t.gal.out.getD (s.slot n).pin none = some (s.slot n).level ∧
      t.gal.pulseEnd.getD (s.slot n).pin none = some (s.now + 10 * max 1 (s.get Reg.TB_PULSE_WIDTH)) ∧
      t = { s with regs := t.regs, slots := t.slots, gal := t.gal, hot := t.hot, execs := t.execs } ∧ s.regsKeptBut t (slotFlds n)) ∧
  (∀ (p te : Nat) (l : Bool) (s : State), s.gal.out.length = 24 → s.gal.pulseEnd.length = 24 →
    s.gal.pulseEnd.getD p none = some te → te ≤ s.now → s.pinOwner p = 5 → s.gal.out.getD p none = some l →
    ∃ t, exec (.galPulseEnd p) s = .next t ∧ t.gal.pulseEnd.getD p none = none ∧
      (t.pinOwner p = 5 → t.gal.out.getD p none = some !l) ∧ (t.pinOwner p < 4 → t.gal.out.getD p none = none) ∧
      t = { s with regs := t.regs, gal := t.gal, hot := t.hot } ∧ s.regsKeptBut t pinFlds)

/-- LATCH takes device time and every channel's position, fraction, ABS and CSTATE from one instant, te; FILTER_RESET resets the channel it
names, or all, at te; the sense triggers are accepted by an idle unit and start their sequence after RDLY or IDLY (R86, R93,
R347, R349, R372, Table 3-4). -/
def Obligations.SlotLatchFilterSense : Prop :=
  (∀ (n : Nat) (s : State), s.slotReady n 9 →
    ∃ t, exec (.latch n) s = .next t ∧ s.slotRan t n (s.slotLate n) false ∧
      t.get Reg.TB_LATTLO_T = (s.slot n).te % 2 ^ 32 ∧ t.get Reg.TB_LATTHI_T = (s.slot n).te / 2 ^ 32 % 2 ^ 32 ∧ Keeps s t ∧
      ∀ c, c < 4 → t.get Reg.TB_LATCH_POS_COUNT c = scode 32 (State.countOf (s.posAt c (s.slot n).te)) ∧
        t.get Reg.TB_LATCH_FRAC_FRAC c = State.fracOf (s.posAt c (s.slot n).te) % 65536 ∧
        t.get Reg.TB_LATCH_FRAC_ABS c = s.get Reg.TB_STAT_ABS c ∧ t.get Reg.TB_LATCH_FRAC_CSTATE c = s.cstate c) ∧
  (∀ (n : Nat) (s : State), s.slotReady n 8 → s.flt.ch.length = 16 →
    s.collides n (if hasBit (s.slot n).arg 7 = true then 0x3FF else 0x300 + (s.slot n).arg % 16) = false →
    s.pendingOn n State.slotResource (if hasBit (s.slot n).arg 7 = true then 0x3FF else 0x300 + (s.slot n).arg % 16) = false →
    s.filtNext = none →
    ∃ t, exec (.filterReset n) s = .next t ∧ s.slotRan t n (s.slotLate n) false ∧
      (∀ c, c < 16 → t.filt c = if hasBit (s.slot n).arg 7 = true ∨ c = (s.slot n).arg % 16 then
          { FiltCh.reset (s.slot n).te (s.filtSettle c) with
            inQ := (s.filt c).inQ, nextRound := (s.filt c).nextRound, outQ := (s.filt c).outQ, upd := (s.filt c).upd
            out := (s.filt c).out, since := (s.filt c).since }
        else s.filt c) ∧
      (∀ c, c < 16 → hasBit (s.slot n).arg 7 = true ∨ c = (s.slot n).arg % 16 → t.get Reg.FE_FC_PK_VALUE c = 0 ∧
        t.get Reg.FE_FC_ENV_VALUE c = 0 ∧ t.get Reg.FE_FC_RMS_VALUE c = 0) ∧
      t = { s with regs := t.regs, slots := t.slots, gal := t.gal, hot := t.hot, flt := t.flt, execs := t.execs } ∧
      s.regsKeptBut t (detectFlds ++ slotFlds n)) ∧
  (∀ (n : Nat) (s : State), s.slotReady n 4 → s.sense.length = 2 → s.collides n (0x400 + (s.slot n).arg % 2) = false →
    s.senseSlave ((s.slot n).arg % 2) = false → (s.su ((s.slot n).arg % 2)).on = true →
    (s.su ((s.slot n).arg % 2)).failed = false → (s.su ((s.slot n).arg % 2)).cont = false →
    (s.su ((s.slot n).arg % 2)).zero = none → (s.su ((s.slot n).arg % 2)).reg = none →
    (s.su ((s.slot n).arg % 2)).inj = none → (s.su ((s.slot n).arg % 2)).pend = none →
    ∃ t, exec (.senseReg n) s = .next t ∧ s.slotRan t n (s.slotLate n) false ∧
      (t.su ((s.slot n).arg % 2)).reg.map (·.startAt) = some (s.now + 10 * s.get Reg.SA_TRIG_RDLY ((s.slot n).arg % 2)) ∧
      t.get Reg.SA_STAT_USTATE ((s.slot n).arg % 2) = 2 ∧
      t = { s with regs := t.regs, slots := t.slots, gal := t.gal, hot := t.hot, sense := t.sense, execs := t.execs } ∧
      s.regsKeptBut t (wholeWord (Reg.SA_STAT_USTATE.addr ((s.slot n).arg % 2) 0) :: slotFlds n)) ∧
  (∀ (n : Nat) (s : State), s.slotReady n 5 → s.sense.length = 2 → s.collides n (0x400 + (s.slot n).arg % 2) = false →
    s.senseSlave ((s.slot n).arg % 2) = false → (s.su ((s.slot n).arg % 2)).on = true →
    (s.su ((s.slot n).arg % 2)).failed = false → (s.su ((s.slot n).arg % 2)).zero = none →
    (s.su ((s.slot n).arg % 2)).reg = none → (s.su ((s.slot n).arg % 2)).inj = none →
    (s.su ((s.slot n).arg % 2)).pend = none →
    ∃ t, exec (.senseInj n) s = .next t ∧ s.slotRan t n (s.slotLate n) false ∧
      (t.su ((s.slot n).arg % 2)).inj.map (·.startAt) = some (s.now + 10 * s.get Reg.SA_TRIG_IDLY ((s.slot n).arg % 2)) ∧
      t.get Reg.SA_STAT_USTATE ((s.slot n).arg % 2) = 3 ∧
      t = { s with regs := t.regs, slots := t.slots, gal := t.gal, hot := t.hot, sense := t.sense, execs := t.execs } ∧
      s.regsKeptBut t (wholeWord (Reg.SA_STAT_USTATE.addr ((s.slot n).arg % 2) 0) :: slotFlds n))

/-- The capture actions: START_FRAME counts its execution with the lateness of its frame; START_EXP starts its class at te in the next
frame, armed or still to be armed; START_TRACK starts the sub-exposure of its plan entry in the cells of the enabled windows, whose tap B it has had flushed, and takes the charge of the tap A exposures
that run there; it waits for that flush, and a START_FRAME for its frame to begin; in STANDBY none of the three is executed, dropped or
skipped, and the frame that a START_FRAME had asked for is not started (R47, R84, R86, R87, R90, R113, R180 to R183;
the model's own reading: log entries 27, 75 and 88). -/
def Obligations.SlotCaptureActions : Prop :=
  (∀ (n : Nat) (s : State), s.slotReady n 1 → s.dev = .run → s.collides n 0x600 = false → s.slotWaits n = false →
    ∃ t, exec (.startFrame n) s = .next t ∧
      s.slotRan t n (match s.frames.find? (fun f => s.slotFrame n f && f.phase != 0) with
        | some f => f.start - f.ts
        | none => s.slotLate n) false ∧
      t = { s with regs := t.regs, slots := t.slots, gal := t.gal, hot := t.hot, execs := t.execs } ∧ s.regsKeptBut t (slotFlds n)) ∧
  (∀ (n : Nat) (s : State), s.slotReady n 1 → s.dev = .run → s.collides n 0x600 = false → s.slotWaits n = true →
    ∃ t, exec (.startFrame n) s = .next t ∧ t.sstate n = ssPending ∧ (∀ m, m ≠ n → t.sstate m = s.sstate m) ∧
      t = { s with regs := t.regs, execs := t.execs } ∧ s.regsKeptBut t [(Reg.EV_STAT_SSTATE, n, 0)]) ∧
  (∀ (n : Nat) (s : State), s.slotReady n 1 → s.dev = .standby →
    ∃ t, exec (.startFrame n) s = .next t ∧ s.slotRan t n (s.slotLate n) false ∧
      t.reqs = s.reqs.filter (fun r => !(r.trig == 1 && r.slot == n)) ∧ (s.frames = [] → t.frames = []) ∧
      (∀ f, s.frames = [f] → s.slotFrame n f = true → f.phase = 0 → t.frames = [] ∧ t.expo.num = s.expo.num - 1 ∧
        t.expo.skips = s.expo.skips + f.skipped) ∧
      t = { s with regs := t.regs, slots := t.slots, gal := t.gal, hot := t.hot, reqs := t.reqs, frames := t.frames
                   lastArmed := t.lastArmed, trk := t.trk, expo := t.expo } ∧
      s.regsKeptBut t (slotFlds n)) ∧
  (∀ (n : Nat) (s : State), s.slotReady n 2 → s.dev = .run → s.collides n (0x100 + (s.slot n).arg % 8) = false →
    s.expo.expBusy.any (·.1 == (s.slot n).arg % 8) = false →
    s.pendingOn n State.slotResource (0x100 + (s.slot n).arg % 8) = false → s.exposing = none →
    ∃ t, exec (.startExp n) s = .next t ∧ s.slotRan t n (s.slotLate n) false ∧
      t.expo.expNext = s.expo.expNext ++ [⟨(s.slot n).arg % 8, (s.slot n).te⟩] ∧
      t = { s with regs := t.regs, slots := t.slots, gal := t.gal, hot := t.hot, expo := t.expo, execs := t.execs } ∧
      s.regsKeptBut t (slotFlds n)) ∧
  (∀ (n : Nat) (f : Frame) (c : FClass) (s : State), s.slotReady n 2 → s.dev = .run →
    s.collides n (0x100 + (s.slot n).arg % 8) = false → s.expo.expBusy.any (·.1 == (s.slot n).arg % 8) = false →
    s.pendingOn n State.slotResource (0x100 + (s.slot n).arg % 8) = false → s.frames = [f] → f.phase < 2 → f.cls[(s.slot n).arg % 8]? = some c → c.use = true →
    f.img.flag Reg.EX_MODE_ALIGN = false → max (s.slot n).te f.start + 200 ≤ f.ta →
    ∃ t g, exec (.startExp n) s = .next t ∧ s.slotRan t n (s.slotLate n) false ∧ t.frames = [g] ∧
      g.cls = f.cls.set ((s.slot n).arg % 8)
        (State.startedAt f c (max (s.slot n).te f.start)) ∧
      g.t = f.t ∧ g.num = f.num ∧ t.expo.expBusy.any (· == ((s.slot n).arg % 8, f.num)) = true ∧
      t = { s with regs := t.regs, slots := t.slots, gal := t.gal, hot := t.hot, expo := t.expo, frames := t.frames, execs := t.execs } ∧
      s.regsKeptBut t (slotFlds n)) ∧
  (∀ (n : Nat) (k : ArmMark) (s : State), s.slotReady n 3 → s.dev = .run → hasBit s.domLost 0 = false → s.thinPct = 0 →
    s.collides n (0x500 + (s.slot n).arg) = false → s.pendingOn n State.slotResource (0x500 + (s.slot n).arg) = false →
    s.trackMark = k → k.img.flag Reg.TK_PLAN_CFG_EN (s.slot n).arg = true →
    (s.planCells (s.slot n).arg).isEmpty = false → s.trackBusy (s.planCells (s.slot n).arg) s.now = (false, false) →
    s.sharedLower n (s.planCells (s.slot n).arg) = false → s.subFlushed n (s.planCells (s.slot n).arg) = true →
    ∃ t x, exec (.startTrack n) s = .next t ∧ s.slotRan t n (s.slotLate n) false ∧
      t.trk.subs = s.trk.subs ++ [x] ∧ x.plan = (s.slot n).arg ∧ x.te = s.now ∧
      x.dur = 10 * max 20 (k.img.fld Reg.TK_PLAN_CFG_DUR (s.slot n).arg) ∧ x.late = s.slotLate n ∧
      x.wins = (State.planWins k.img (s.slot n).arg).1 ∧ x.span = State.winsCells k.img x.wins ∧ x.ended = false ∧ x.frame = k.num ∧
      t.get Reg.TK_CNT_NOWIN = min 255 (s.get Reg.TK_CNT_NOWIN + (State.planWins k.img (s.slot n).arg).2) ∧ Keeps s t ∧
      t.frames = (s.steerSubs (x.span.filter fun c => !s.unitFailed c) x.dur).frames ∧
      t.expo = s.expo ∧ t.sense = s.sense ∧ t.groups = s.groups) ∧
  (∀ (n : Nat) (s : State), s.slotReady n 3 → s.dev = .run → hasBit s.domLost 0 = false → s.flushAwaited n = true →
    exec (.startTrack n) s = .next s) ∧
  (∀ (n : Nat) (s : State), s.frames = [] → (List.range 64).find? (fun m =>
      (s.slot m).action == 3 && ((s.sstate m == ssCommitted && decide ((s.slot m).te ≤ s.now + 340)) || s.sstate m == ssPending)) = some n →
    s.dev = .run → (s.planCells (s.slot n).arg).isEmpty = false → s.trk.flush = [] →
    (s.trackBusy (s.planCells (s.slot n).arg) (s.now + 340)).1 = false →
    exec (.flush true) s = .next { s with trk := { s.trk with flush := [(n, s.now, s.planCells (s.slot n).arg)] } }) ∧
  (∀ (n a : Nat) (c : Instr) (s : State), (a = 2 ∧ c = .startExp n) ∨ (a = 3 ∧ c = .startTrack n) → s.slotReady n a →
    s.dev = .standby →
    ∃ t, exec c s = .next t ∧ s.slotRan t n (s.slotLate n) false ∧
      t = { s with regs := t.regs, slots := t.slots, gal := t.gal, hot := t.hot } ∧ s.regsKeptBut t (slotFlds n))

/-- A slot that is due late in strict mode, or that device time has passed over, whatever it acts on, has its action dropped and counted, and nothing else happens. A held
trigger executes once its target is free, and in STANDBY a held class or sub-exposure is then discarded without a count of what was
dropped (R87, R90, R103, R104;
the model's own reading: log entries 10 and 27). -/
def Obligations.StrictAndHeldTriggers : Prop :=
  (∀ (n : Nat) (c : Instr) (a : Nat) (s : State),
    (c, a) ∈ [(Instr.actNone n, 0), (Instr.startExp n, 2), (Instr.senseReg n, 4), (Instr.senseInj n, 5),
      (Instr.galSet n, 6), (Instr.galPulse n, 7), (Instr.filterReset n, 8), (Instr.latch n, 9)] →
    n < 64 → s.slots.length = 64 → s.slotDue n a = true → s.slotStrictLate n = true → (s.slot n).rearm = false → s.dev = .run →
    ∃ t, exec c s = .next t ∧ s.slotRan t n (s.slotLate n) true ∧
      t = { s with regs := t.regs, slots := t.slots, gal := t.gal, hot := t.hot } ∧ s.regsKeptBut t (slotFlds n)) ∧
  (∀ (n : Nat) (s : State), n < 64 → s.slots.length = 64 → s.running = true → s.sstate n = ssPending → (s.slot n).rearm = false →
    (s.slot n).action = 6 → s.collides n (0x200 + (s.slot n).pin) = false → s.pinBusy (s.slot n).pin = false →
    ∃ t, exec (.pendingTriggerExecute n) s = .next t ∧ s.slotRan t n (s.now - (s.slot n).ts) false ∧
      (s.pinOwner (s.slot n).pin = 5 → s.gal.out.length = 24 → t.pinOwner (s.slot n).pin = 5 →
        t.gal.out.getD (s.slot n).pin none = some (s.slot n).level) ∧
      t = { s with regs := t.regs, slots := t.slots, gal := t.gal, hot := t.hot, execs := t.execs } ∧ s.regsKeptBut t (slotFlds n)) ∧
  (∀ (n : Nat) (s : State), n < 64 → s.slots.length = 64 → s.dev = .run → s.sstate n = ssPending → (s.slot n).rearm = false →
    (s.slot n).action = 2 → s.collides n (0x100 + (s.slot n).arg % 8) = false →
    s.expo.expBusy.any (·.1 == (s.slot n).arg % 8) = false → s.exposing = none →
    ∃ t, exec (.pendingTriggerExecute n) s = .next t ∧ s.slotRan t n (s.now - (s.slot n).ts) false ∧
      t.expo.expNext = s.expo.expNext ++ [⟨(s.slot n).arg % 8, s.now⟩] ∧
      t = { s with regs := t.regs, slots := t.slots, gal := t.gal, hot := t.hot, expo := t.expo, execs := t.execs } ∧
      s.regsKeptBut t (slotFlds n)) ∧
  (∀ (n : Nat) (s : State), n < 64 → s.slots.length = 64 → s.running = true → s.sstate n = ssPending → (s.slot n).rearm = false →
    (s.slot n).action = 8 → hasBit (s.slot n).arg 7 = false → s.collides n (0x300 + (s.slot n).arg % 16) = false →
    s.flt.ch.length = 16 →
    ∃ t, exec (.pendingTriggerExecute n) s = .next t ∧ s.slotRan t n (s.now - (s.slot n).ts) false ∧
      (t.filt ((s.slot n).arg % 16)).resetAt = s.now ∧
      t = { s with regs := t.regs, slots := t.slots, gal := t.gal, hot := t.hot, flt := t.flt, execs := t.execs } ∧
      s.regsKeptBut t (detectFlds ++ slotFlds n)) ∧
  (∀ (n : Nat) (s : State), n < 64 → s.slots.length = 64 → s.dev = .standby → s.sstate n = ssPending → (s.slot n).rearm = false →
    (((s.slot n).action = 2 ∧ s.collides n (0x100 + (s.slot n).arg % 8) = false ∧
        s.expo.expBusy.any (·.1 == (s.slot n).arg % 8) = false) ∨
      ((s.slot n).action = 3 ∧ s.collides n (0x500 + (s.slot n).arg) = false ∧
        (s.trackBusy (s.planCells (s.slot n).arg) s.now).1 = false)) →
    ∃ t, exec (.pendingTriggerExecute n) s = .next t ∧ s.slotRan t n (s.now - (s.slot n).ts) false ∧
      t = { s with regs := t.regs, slots := t.slots, gal := t.gal, hot := t.hot } ∧ s.regsKeptBut t (slotFlds n))

/-- The trigger pin: an edge of the selected kind on an enabled pin begins to qualify, and a change back ends that; a level held for MINW
× 10 ns schedules a frame 100 ns later, with the rates of the edge; in STANDBY none, and while FREERUN is 1 it is counted (R90, R95, R102, R104, R110;
the model's own reading: log entry 27). -/
def Obligations.FrameTriggers : Prop :=
  (∀ s : State, s.trig.level = false → s.flag Reg.TB_TRIG_EN = true → s.pinOwner (s.get Reg.TB_TRIG_PIN) = 2 →
    s.get Reg.TB_TRIG_EDGE ≠ 1 → exec (.triggerEdge true) s = .next { s with trig := ⟨true, s.now, true, s.tbRates⟩ }) ∧
  (∀ s : State, s.trig.level = true → s.flag Reg.TB_TRIG_EN = true → s.pinOwner (s.get Reg.TB_TRIG_PIN) = 2 →
    exec (.triggerEdge false) s = .next { s with trig :=
      ⟨false, s.now, s.get Reg.TB_TRIG_EDGE == 1 || s.get Reg.TB_TRIG_EDGE == 2, s.tbRates⟩ }) ∧
  (∀ s : State, s.trig.waiting = true → s.trig.edgeAt + 10 * s.get Reg.TB_TRIG_MINW ≤ s.now → s.dev = .run →
    s.frameTargetBusy = false → s.reqs = [] →
    (s.settingsAt (min (s.trig.edgeAt + 10 * s.get Reg.TB_TRIG_MINW)
      (s.trig.edgeAt + 10 * s.get Reg.TB_TRIG_MINW + 100 - 50000))).flag Reg.EX_MODE_FREERUN = false →
    ∃ r, exec .triggerQualify s = .next { s with trig := { s.trig with waiting := false }, reqs := [r] } ∧ r.trig = 2 ∧
      r.ts = s.trig.edgeAt + 10 * s.get Reg.TB_TRIG_MINW + 100 ∧
      r.fixedAt = s.trig.edgeAt + 10 * s.get Reg.TB_TRIG_MINW ∧ r.armAt = min r.fixedAt (r.ts - 50000) ∧
      r.strict = s.flag Reg.TB_TRIG_STRICT ∧ r.rates = s.trig.rates ∧ r.nominal = none) ∧
  (∀ s : State, s.trig.waiting = true → s.trig.edgeAt + 10 * s.get Reg.TB_TRIG_MINW ≤ s.now → s.dev = .standby →
    exec .triggerQualify s = .next { s with trig := { s.trig with waiting := false } }) ∧
  (∀ s : State, s.trig.waiting = true → s.trig.edgeAt + 10 * s.get Reg.TB_TRIG_MINW ≤ s.now → s.dev = .run →
    s.frameTargetBusy = true → s.flag Reg.TB_TRIG_STRICT = true →
    (s.settingsAt (min (s.trig.edgeAt + 10 * s.get Reg.TB_TRIG_MINW)
      (s.trig.edgeAt + 10 * s.get Reg.TB_TRIG_MINW + 100 - 50000))).flag Reg.EX_MODE_FREERUN = false →
    ∃ t, exec .triggerQualify s = .next t ∧ t.get Reg.TB_DROPTOT_DROPTOT = min 65535 (s.get Reg.TB_DROPTOT_DROPTOT + 1) ∧
      t.expo.skips = s.expo.skips + 1 ∧ t.reqs = s.reqs ∧
      t = { s with regs := t.regs, trig := { s.trig with waiting := false }, expo := t.expo } ∧
      s.regsKeptBut t [(Reg.TB_DROPTOT_DROPTOT, 0, 0)])

/-! ## Frames: arming, exposure and transfer (04_exposure.md, 03_timebase_and_events.md R92 to R102, 02_pixel_array.md R46, R47) -/

/-- A capture commit copies the shadow set under its stamp and the next generation and changes no setting in force; at an arming point
a pin-triggered frame that has no skip threshold takes the next number, starts no earlier than scheduled, and carries its lateness and
the count of frames skipped before it (R97, R99, R101, R102, R135, R138). -/
def Obligations.CommitsAndArming : Prop :=
  (∀ s : State, s.running = true →
    ∃ t c, exec .captureCommit s = .next t ∧ t.commits = s.commits ++ [c] ∧ c.stamp = s.now ∧ c.img = s.regs ∧
      c.gen = (s.get Reg.EX_GEN_LASTCMT + 1) % 65536 ∧ c.reset = s.expo.exWritten ∧ t.get Reg.EX_GEN_LASTCMT = c.gen ∧
      t.get Reg.EX_GEN_INFORCE = s.get Reg.EX_GEN_INFORCE ∧ t.get Reg.EX_STAT_PENDING = 1 ∧ t.inForce = s.inForce ∧
      t.frames = s.frames ∧ t.expo.exWritten = false ∧ Keeps s t) ∧
  (∀ (r : FrameReq) (s : State), s.dev = .run → s.frames = [] → s.expo.burst = none → s.reqs = [r] → r.fixedAt ≤ s.now →
    r.trig = 2 → r.strict = false → r.rep = false → r.nominal = none → s.get Reg.TB_SKIP_SKIPTH = 0 →
    s.get Reg.TH_LEVEL_PLVL = 0 → s.expo.expNext = [] →
    ∃ t f, exec .armingPoint s = .next t ∧ t.frames = [f] ∧ f.num = s.expo.num % 0xFFFFFFFF + 1 ∧ f.phase = 0 ∧ f.trig = 2 ∧
      f.ts = r.ts ∧ r.ts ≤ f.start ∧ f.late = f.start - r.ts ∧ f.skipped = min 255 s.expo.skips ∧ t.expo.num = f.num ∧
      t.expo.skips = 0 ∧ t.lastArmed = f.num ∧ t.reqs = [] ∧ Keeps s t)

/-- The starts of a frame: the first class that starts begins the frame, with its start, lateness and latched positions, and where the
earlier frames have held it back it moves as a whole; a class that starts later is released, its duration cut to what is left where
that comes late, and in cell-rolling mode once for each row; a frame that the previous readout still
holds back does not start, and once the end of that readout is known it is put where its transfer comes VBMIN after that end and
500 µs after that transfer at the earliest, afresh if it had begun; one of a strict trigger is dropped instead (R92, R97, R98, R104,
R106, R111, R153; the model's own reading: log entries 85 and 89). -/
def Obligations.FrameStarts : Prop :=
  (∀ (k : Nat) (f : Frame) (c : FClass) (s : State), s.dev = .run → s.frames = [f] → f.phase = 1 → f.cls[k]? = some c →
    c.use = true → shutter f.img ≠ 3 → f.released.contains k = false → c.start = s.now → s.onTime f = true →
    s.readyToExpose f k = true →
    exec (.classExposureStart k) s = .next { s with frames := [{ f with released := f.released ++ [k] }] }) ∧
  (∀ (k : Nat) (f : Frame) (c : FClass) (s : State), s.dev = .run → s.frames = [f] → f.phase = 1 → f.cls[k]? = some c →
    c.use = true → shutter f.img = 0 → f.img.flag Reg.EX_MODE_ALIGN = false → f.released.contains k = false → c.start < s.now →
    f.start ≤ s.now → s.now + 200 ≤ f.ta → s.onTime f = true → s.readyToExpose f k = true →
    exec (.classExposureStart k) s = .next { s with frames :=
      [{ f with cls := f.cls.set k { c with start := s.now, dur := f.ta - s.now }, released := f.released ++ [k] }] }) ∧
  (∀ (k : Nat) (f : Frame) (c : FClass) (s : State), s.running = true → s.frames = [f] → f.phase = 2 → f.cls[k]? = some c →
    c.use = true → shutter f.img = 3 → State.rowsReleased f k < State.releases f → State.releaseAt f k c ≤ s.now →
    s.readyToExpose f k = true →
    exec (.classExposureStart k) s = .next { s with frames := [{ f with released := f.released ++ [k] }] }) ∧
  (∀ (k r : Nat) (f : Frame) (c : FClass) (s : State), s.dev = .run → s.frames = [f] → f.phase = 0 → f.cls[k]? = some c →
    c.use = true → c.start = f.start → State.readyToExpose s f k = true → s.requiredStart f = some r → r ≤ s.now → f.start ≤ s.now →
    f.trig ≠ 1 → f.late = f.start - f.ts → (f.strict = false ∨ s.now ≤ f.ts + 2) →
    ∃ t g, exec (.classExposureStart k) s = .next t ∧ t.frames = [g] ∧ g.num = f.num ∧ g.phase = 1 ∧ g.start = s.now ∧
      g.late = s.now - f.ts ∧ g.t = f.t + (s.now - f.start) ∧ g.released = f.released ++ [k] ∧ g.latchStart = s.latchAll s.now ∧
      g.startDiff = (if f.slot < 64 then wrapDiff (s.modulus f.slotCh) (s.posAt f.slotCh s.now - f.slotP) else 0) ∧
      g.cls = f.cls.map (fun c => if c.use = true then { c with start := c.start + (s.now - f.start) } else c) ∧
      t = { s with regs := t.regs, frames := t.frames, expo := t.expo } ∧ s.regsKeptBut t [(Reg.TB_SKIPTOT_LATETOT, 0, 0)]) ∧
  (∀ (k r : Nat) (f : Frame) (c : FClass) (s : State), f.slot < 64 → s.slots.length = 64 → (s.slot f.slot).rearm = false →
    s.dev = .run → s.frames = [f] → f.phase = 0 → f.cls[k]? = some c → c.use = true → c.start = f.start → f.start = s.now →
    State.readyToExpose s f k = true → s.requiredStart f = some r → r ≤ s.now → (f.strict = false ∨ s.now ≤ f.ts + 2) →
    s.slotFrame f.slot f = true → s.sstate f.slot = ssPending → (s.slot f.slot).action = 1 →
    ∃ t g, exec (.classExposureStart k) s = .next t ∧ s.slotRan t f.slot (s.now - f.ts) false ∧ t.frames = [g] ∧ g.num = f.num ∧
      g.phase = 1 ∧ g.start = s.now ∧ g.released = f.released ++ [k] ∧
      t = { s with regs := t.regs, slots := t.slots, gal := t.gal, hot := t.hot, frames := t.frames, expo := t.expo } ∧
      s.regsKeptBut t (slotFlds f.slot)) ∧
  (∀ (k : Nat) (f g : Frame) (s : State), s.dev = .run → s.frames = [g, f] → g.num < f.num → g.phase = 2 → shutter g.img ≠ 3 →
    f.phase = 0 → (g.t + g.tEnd < s.now ∨ s.now + (f.t - f.start) < g.t + g.tEnd + 1000 * s.get Reg.TB_SCHED_VBMIN) →
    exec (.classExposureStart k) s = .next s) ∧
  (∀ (r : Nat) (f : Frame) (s : State), s.dev = .run → s.frames = [f] → f.phase = 0 → s.requiredStart f = some r → f.strict = false →
    (f.start < s.now ∨ f.start < r) → f.late = 0 →
    ∃ t g, exec .lateFrameStart s = .next t ∧ t.frames = [g] ∧ g.start = (if f.start < s.now then max r s.now else r) ∧
      g.t = f.t + (g.start - f.start) ∧ g.late = g.start - f.ts ∧
      g.cls = f.cls.map (fun c => if c.use = true then { c with start := c.start + (g.start - f.start) } else c) ∧
      t.get Reg.TB_SKIPTOT_LATETOT = min 65535 (s.get Reg.TB_SKIPTOT_LATETOT + 1) ∧
      t = { s with regs := t.regs, frames := t.frames, expo := t.expo } ∧ s.regsKeptBut t [(Reg.TB_SKIPTOT_LATETOT, 0, 0)]) ∧
  (∀ (r : Nat) (f : Frame) (s : State), s.dev = .run → s.frames = [f] → f.phase = 1 → s.requiredStart f = some r → f.strict = false →
    f.trig ≠ 1 → f.start < r →
    ∃ t g, exec .lateFrameStart s = .next t ∧ t.frames = [g] ∧ g.phase = 0 ∧ g.flush = [] ∧ g.released = [] ∧ g.steers = [] ∧
      g.start = max r s.now ∧ g.t = f.t + (g.start - f.start) ∧ g.late = g.start - f.ts ∧
      t = { s with regs := t.regs, frames := t.frames, expo := t.expo } ∧ s.regsKeptBut t [(Reg.TB_SKIPTOT_LATETOT, 0, 0)]) ∧
  (∀ (r : Nat) (f : Frame) (s : State), s.dev = .run → s.frames = [f] → f.phase = 0 → s.requiredStart f = some r → f.strict = true →
    f.ts ≤ f.start → f.start < s.now → f.ts + 2 < s.now → f.trig = 2 →
    ∃ t, exec .lateFrameStart s = .next t ∧ t.frames = [] ∧
      t.get Reg.TB_DROPTOT_DROPTOT = min 65535 (s.get Reg.TB_DROPTOT_DROPTOT + 1) ∧ t.expo.num = s.expo.num - 1 ∧
      t.expo.skips = s.expo.skips + f.skipped + 1 ∧
      t = { s with regs := t.regs, frames := [], lastArmed := t.lastArmed, expo := t.expo, trk := t.trk } ∧
      s.regsKeptBut t [(Reg.TB_DROPTOT_DROPTOT, 0, 0)]) ∧
  (∀ (f g : Frame) (s : State), s.dev = .run → s.frames = [g, f] → g.num < f.num → g.phase = 3 → f.phase = 0 → f.start < s.now →
    f.strict = false → s.rd.done.2 ≠ 0 → s.trk.subs = [] →
    ∃ t h, exec .lateFrameStart s = .next t ∧ t.frames = [g, h] ∧ h.num = f.num ∧
      h.start = max (max s.rd.done.1 (max (s.rd.done.2 + 1000 * s.get Reg.TB_SCHED_VBMIN) (s.rd.done.1 + 500000) -
        (f.t - f.start))) s.now ∧
      h.t = f.t + (h.start - f.start) ∧ h.late = h.start - f.ts)

/-- FLUSH and STEER: a picture tap of the next frame is flushed, once, from 340 ns before its first use, and not while that tap of the
frame before it holds charge that is still to be read; that of tap A in tracked cells comes before their exposure starts; a STEER takes
place at its instant onto a tap only whose FLUSH has ended, and with the frame on time, one that comes late
lengthens its exposure, and the last one is the transfer, with the positions latched (R46, R47,
R92, R106, R185; the model's own reading: log entry 88). -/
def Obligations.FlushAndSteer : Prop :=
  (∀ (f : Frame) (s : State), s.dev = .run → s.frames = [f] → f.phase < 2 → f.cls.any (·.use) = true →
    f.flush.any (·.1 == 0) = false → State.flushFor f 0 ≤ s.now + 340 →
    exec (.flush false) s = .next { s with frames := [{ f with flush := f.flush ++ [(0, s.now)] }] }) ∧
  (∀ (f : Frame) (s : State), s.dev = .run → s.frames = [f] → f.phase < 2 → f.cls.any (·.use) = true → twoTaps f.img = true →
    s.trk.subs = [] → f.flush.any (·.1 == 1) = false → State.flushFor f 1 ≤ s.now + 340 →
    exec (.flush true) s = .next { s with frames := [{ f with flush := f.flush ++ [(1, s.now)] }] }) ∧
  (∀ (f : Frame) (s : State), s.dev = .run → s.frames = [f] → f.phase < 2 → f.cls.any (·.use) = true →
    (trackedCells f.img).isEmpty = false → (shutter f.img = 0 ∨ shutter f.img = 1) → f.flush.any (·.1 == 0) = true →
    f.flush.any (·.1 == 2) = false → State.flushFor f 2 ≤ s.now + 340 →
    exec (.flush false) s = .next { s with frames := [{ f with flush := f.flush ++ [(2, s.now)] }] }) ∧
  (∀ (f g : Frame) (s : State), s.dev = .run → s.frames = [g, f] → g.num < f.num → g.phase = 2 → shutter g.img ≠ 3 → f.phase < 2 →
    f.cls.any (·.use) = true → f.flush.any (·.1 == 0) = false → State.flushFor f 0 ≤ s.now + 340 →
    s.rowsRead g (State.flushCells f 0) (State.flushRows g 0) = true →
    exec (.flush false) s = .next { s with frames := [g, { f with flush := f.flush ++ [(0, s.now)] }] }) ∧
  (∀ (b : Bool) (f g : Frame) (s : State), s.frames = [g, f] → g.num < f.num → g.phase = 2 → shutter g.img ≠ 3 → f.phase < 2 →
    (∀ k ∈ State.flushKinds f, (k == 1) = b → s.rowsRead g (State.flushCells f k) (State.flushRows g k) = false) →
    (b = true → s.flushSub = none) →
    exec (.flush b) s = .next s) ∧
  (∀ (k : Nat) (f : Frame) (c : FClass) (s : State), s.dev = .run → s.frames = [f] → f.phase = 1 → f.cls[k]? = some c → c.use = true →
    f.released.contains k = true → f.steersDone k < f.steerCount → f.steerAt c (f.steersDone k) ≤ s.now →
    f.flushed (f.steersDone k % 2) s.now = true → s.onTime f = true →
    Frame.steered { f with steers := (k, f.steersDone k + 1) :: f.steers.filter (·.1 != k)
                           cls := f.cls.set k (steeredLate f c (f.steersDone k) s.now) } = false →
    exec (.steerDone k) s = .next { s with frames :=
      [{ f with steers := (k, f.steersDone k + 1) :: f.steers.filter (·.1 != k)
                cls := f.cls.set k (steeredLate f c (f.steersDone k) s.now) }] }) ∧
  (∀ (k : Nat) (f : Frame) (c : FClass) (s : State), s.dev = .run → s.frames = [f] → f.phase = 1 → f.cls[k]? = some c → c.use = true →
    f.released.contains k = true → f.steersDone k < f.steerCount → f.steerAt c (f.steersDone k) ≤ s.now →
    f.flushed (f.steersDone k % 2) s.now = true → s.onTime f = true →
    Frame.steered { f with steers := (k, f.steersDone k + 1) :: f.steers.filter (·.1 != k)
                           cls := f.cls.set k (steeredLate f c (f.steersDone k) s.now) } = true →
    s.cis.out = none → s.s2 = [] →
    ∃ t g, exec (.steerDone k) s = .next t ∧ t.frame f.num = some g ∧ g.phase = 2 ∧ g.t = s.now ∧
      g.latchT = s.latchAll s.now ∧ t.cis.lastT = some s.now ∧ g.hdrDue = [] ∧
      (s.expo.num = f.num → t.expo.lastT = some s.now) ∧
      Keeps s t) ∧
  (∀ (k : Nat) (f : Frame) (s : State), s.frames = [f] → f.phase = 1 →
    (f.flushed (f.steersDone k % 2) s.now = false ∨ s.onTime f = false) →
    exec (.steerDone k) s = .next s)

/-! ## Readout (05_cell_readout.md, 01_architecture.md R12 to R15, 07_stage1.md R228, R229) -/

/-- Rows and cells: a row slot opens at its instant, in cell-rolling mode no earlier than its
row's last class has been released; a cell of the set whose slot is open, whose converter and queue are free and
which owes no fill starts its next row; a picture row's conversion puts one entry of each gain into the cell queue, and lets a tracking
read that waits take the converter; a row that such a read has interrupted does not end before it
(R145, R146, R149, R152, R166). -/
def Obligations.RowsAndCells : Prop :=
  (∀ (f : Frame) (r : RowId) (s : State), s.frames = [f] → f.phase = 2 → f.rowIds[f.slotsOpen]? = some r →
    f.t + slotStart f.img f.strip f.gains f.div f.tRd f.slotsOpen ≤ s.now →
    (shutter f.img ≠ 3 ∨ r.ref = true ∨ ∀ k, k < 8 → ∀ c, f.cls[k]? = some c → c.use = true → f.slotsOpen < State.rowsReleased f k) →
    ∃ t g, exec .rowSlotStart s = .next t ∧ t.frame f.num = some g ∧ g.slotsOpen = f.slotsOpen + 1 ∧ g.phase = 2 ∧ Keeps s t) ∧
  (∀ (f : Frame) (s : State), s.frames = [f] → f.phase = 2 →
    s.now < f.t + slotStart f.img f.strip f.gains f.div f.tRd f.slotsOpen → exec .rowSlotStart s = .next s) ∧
  (∀ (f : Frame) (k : Nat) (c : FClass) (r : RowId) (s : State), s.frames = [f] → f.phase = 2 → f.rowIds[f.slotsOpen]? = some r →
    r.ref = false → shutter f.img = 3 → k < 8 → f.cls[k]? = some c → c.use = true → State.rowsReleased f k ≤ f.slotsOpen →
    exec .rowSlotStart s = .next s) ∧
  (∀ (c : Nat) (f : Frame) (r : RowId) (s : State), s.frames = [f] → f.phase = 2 → c < 65536 → f.inSet c = true →
    s.fillCause f c = 0 → (s.cellRt c).frame = f.num → (s.cellRt c).next < f.slotsOpen →
    f.rowIds[(s.cellRt c).next]? = some r → (s.cellRt c).conv = none → (s.cellRt c).trackNow = none →
    (s.cellRt c).trackWait = [] →
    s.queueBytes c (rawBits f.img) + (f.readGains c).length * (8 * rawBits f.img) ≤ 512 →
    exec (.rowConvertStart c) s = .next (s.setCell c fun x => { x with conv := some (x.next, s.now) })) ∧
  (∀ (c i t0 : Nat) (hcg lcg : List Nat) (f : Frame) (r : RowId) (s : State), s.frames = [f] → f.phase = 2 →
    (s.cellRt c).conv = some (i, t0) → (s.cellRt c).frame = f.num → (s.cellRt c).trackNow = none → f.rowIds[i]? = some r →
    r.ref = false → t0 + rConv f.img (f.readGains c).length f.div ≤ s.now →
    ∃ t, exec (.rowConversionDone c hcg lcg) s = .next t ∧ (t.cellRt c).conv = none ∧ (t.cellRt c).next = f.rowAfter c i ∧
      (t.cellRt c).trackNow = (s.cellRt c).trackWait.head?.map (fun j => (j, s.now)) ∧
      (t.cellRt c).queue = (s.cellRt c).queue ++ (f.readGains c).map (fun l =>
        (⟨c, f.num, false, (f.placeOf c i r.tapB l).1, (f.placeOf c i r.tapB l).2, l, (List.range (rowSites f.img)).map fun j =>
          deliveredCode (rawBits f.img) ((if l = true then lcg else hcg).getD j 0)⟩ : Entry)) ∧
      (∀ d, d ≠ c → t.cellRt d = s.cellRt d) ∧ t = { s with rd := t.rd, frames := t.frames }) ∧
  (∀ (c i t0 j t1 : Nat) (hcg lcg : List Nat) (f : Frame) (s : State), s.frames = [f] → f.phase = 2 →
    (s.cellRt c).conv = some (i, t0) → (s.cellRt c).trackNow = some (j, t1) →
    exec (.rowConversionDone c hcg lcg) s = .next s)

/-- The arbiters: a block serves its cells in rotation, and moves a tracking entry of a cell to the tracking engine before any picture
entry, and a picture entry to its region; a block without entries does nothing. A region's arbiter takes the entries of its blocks in
rotation, but for one whose other half is still to be read from the cistern, and the row it takes stands in stage 1's record of its frame; an entry whose frame is gone has no other effect
(R154, R168, R169, R205, R247). -/
def Obligations.Arbiters : Prop :=
  (∀ (b l : Nat) (e : Entry) (s : State), b < 256 → s.dev ≠ .standby → (∀ x ∈ s.rd.cells, x.cell < 65536) →
    nextAfter ((List.range 256).filter fun k => s.rd.cells.any fun x => x.cell == cellOf b k && x.queue.any (·.track))
      ((s.rd.trackRr.find? (·.1 == b)).map (·.2)) = some l →
    (s.cellRt (cellOf b l)).queue.find? (·.track) = some e →
    ∃ t, exec (.blockArbiterEntry b) s = .next t ∧ (t.cellRt (cellOf b l)).queue = (s.cellRt (cellOf b l)).queue.erase e ∧
      (t.rd.trackRr.find? (·.1 == b)).map (·.2) = some l ∧ t.rd.blockOut = s.rd.blockOut ∧
      (∀ d, d ≠ cellOf b l → t.cellRt d = s.cellRt d) ∧
      t.trk.subs = s.trk.subs.map (fun y => if y.id = e.frame then { y with data := (cellOf b l, e.codes) :: y.data } else y) ∧
      t = { s with rd := t.rd, trk := { s.trk with subs := t.trk.subs } }) ∧
  (∀ (b l : Nat) (e : Entry) (s : State), b < 256 → s.dev = .standby → (∀ x ∈ s.rd.cells, x.cell < 65536) →
    nextAfter ((List.range 256).filter fun k => s.rd.cells.any fun x => x.cell == cellOf b k && x.queue.any (·.track))
      ((s.rd.trackRr.find? (·.1 == b)).map (·.2)) = some l →
    (s.cellRt (cellOf b l)).queue.find? (·.track) = some e →
    ∃ t, exec (.blockArbiterEntry b) s = .next t ∧
      t.trk.subs = s.trk.subs.map (fun y => if y.id = e.frame then { y with data := (cellOf b l, e.codes) :: y.data } else y) ∧
      Keeps s t) ∧
  (∀ (b l : Nat) (e : Entry) (rest : List Entry) (s : State), b < 256 → (∀ x ∈ s.rd.cells, x.cell < 65536) →
    (∀ x ∈ s.rd.cells, cellBlock x.cell = b → x.queue.any (·.track) = false) →
    nextAfter ((List.range 256).filter fun k => s.rd.cells.any fun x => x.cell == cellOf b k && !x.queue.isEmpty)
      ((s.rd.picRr.find? (·.1 == b)).map (·.2)) = some l →
    (s.cellRt (cellOf b l)).queue = e :: rest →
    ∃ t, exec (.blockArbiterEntry b) s = .next t ∧ (t.cellRt (cellOf b l)).queue = rest ∧
      (t.rd.picRr.find? (·.1 == b)).map (·.2) = some l ∧ t.rd.blockOut = s.rd.blockOut ++ [e] ∧
      (∀ d, d ≠ cellOf b l → t.cellRt d = s.cellRt d) ∧ t = { s with rd := t.rd }) ∧
  (∀ (b : Nat) (s : State), (∀ x ∈ s.rd.cells, cellBlock x.cell = b → x.queue = []) →
    exec (.blockArbiterEntry b) s = .next s) ∧
  (∀ (r l : Nat) (e : Entry) (s : State), s.dev ≠ .standby →
    (∀ x ∈ s.rd.blockOut, blockRegion (cellBlock x.cell) = r → s.readsBack x = false ∨ s.serves 0 = true) →
    nextAfter ((List.range 16).filter fun k => s.rd.blockOut.any fun e =>
        blockRegion (cellBlock e.cell) == r && 4 * (cellBlock e.cell / 16 % 4) + cellBlock e.cell % 4 == k)
      ((s.rd.rgnRr.find? (·.1 == r)).map (·.2)) = some l →
    s.rd.blockOut.find? (fun e => blockRegion (cellBlock e.cell) == r && 4 * (cellBlock e.cell / 16 % 4) + cellBlock e.cell % 4 == l) =
      some e →
    ∃ t, exec (.s1EntryOut r) s = .next t ∧ (t.rd.rgnRr.find? (·.1 == r)).map (·.2) = some l ∧ Keeps s t ∧
      (s.frame e.frame = none → s.readsBack e = false → t = { s with rd := t.rd } ∧ t.rd.blockOut = s.rd.blockOut.erase e) ∧
      (∀ f, s.frame e.frame = some f → e.row < f.rowIds.length → ∃ g x, t.frame e.frame = some g ∧ x ∈ g.s1 ∧ x.cell = e.cell ∧
        x.row = e.row ∧ x.tapB = e.tapB ∧ x.lcg = e.lcg)) ∧
  (∀ (r : Nat) (s : State), (∀ e ∈ s.rd.blockOut, blockRegion (cellBlock e.cell) = r → s.readsBack e = true ∧ s.serves 0 = false) →
    exec (.s1EntryOut r) s = .next s)

/-- The end of a readout, of a frame's statistics and of its raw stream: the readout ends when t_end has passed and every working cell
has converted every row, and a hold past HOLDWARN is flagged; the statistics are complete once, and the strip of what stage 1 kept
goes; a VC closes when its last data packet has left, and not before (R51, R153, R228, R229, R320). -/
def Obligations.FrameEnds : Prop :=
  (∀ (f : Frame) (s : State), s.frames = [f] → f.phase = 2 → f.t + f.tEnd ≤ s.now → f.slotsOpen = f.rowIds.length →
    (∀ c, c < 65536 → f.inSet c = true → s.fillCause f c = 0 →
      (s.cellRt c).frame = f.num ∧ (s.cellRt c).next = f.rowIds.length ∧ (s.cellRt c).conv = none) →
    ∃ t, exec .readoutEnd s = .next t ∧ t.reading = none ∧ (∀ g ∈ t.frames, g.num = f.num ∧ g.phase = 3) ∧
      t.get Reg.EX_PIXSTAT_HOLDLONG = (if f.img.fld Reg.EX_PIXCFG_HOLDWARN ≠ 0 ∧
          f.img.fld Reg.EX_PIXCFG_HOLDWARN * 1000000 < max f.holdA f.holdB then 1 else s.get Reg.EX_PIXSTAT_HOLDLONG) ∧
      Keeps s t) ∧
  (∀ (f : Frame) (s : State), s.frames = [f] → f.phase = 3 → f.statsDone = false → s.rd.blockOut = [] → s.rd.cells = [] →
    ∃ t, exec .statsComplete s = .next t ∧ (∀ g ∈ t.frames, g.num = f.num ∧ g.statsDone = true ∧ g.s1 = []) ∧
      t.get Reg.S1_CNT_DYNCNT = min 65535 f.dynCnt ∧ t.rd.badNodes = [] ∧ t.rd.badDefects = [] ∧ Keeps s t) ∧
  (∀ (v : Nat) (f : Frame) (c : VcCount) (s : State), s.running = true → s.dropped = [] → s.frames = [f] → f.phase = 3 →
    f.counts = [c] → c.vc = v → c.closed = false → s.vcDone f v = true → s.queued v f.num = false →
    ∃ t, exec (.frameClose v) s = .next t ∧ (∀ g ∈ t.frames, g.num = f.num ∧ g.counts.all (·.closed) = true) ∧ Keeps s t) ∧
  (∀ (v : Nat) (f : Frame) (c : VcCount) (s : State), s.running = true → s.dropped = [] → s.frames = [f] → f.phase = 3 →
    f.counts = [c] → c.vc = v → c.closed = false → s.queued v f.num = true → exec (.frameClose v) s = .next s)

/-- Failures in the readout: a queue or a block that has not been served for the time of its arbiter fails its block or region, which stays so, and one
that has waited less does not; a memory error is counted,
marks its node or entry, or fails its region; the loss of a domain's power-good sets PGLOSS and has the effect of its table
(R12, R150, R228, R306, R379, R391, R399, Table 14-6;
the model's own reading: log entry 39). -/
def Obligations.ReadoutFailures : Prop :=
  (∀ (b : Nat) (s : State), b < 256 → s.running = true → s.blockFailed b = false →
    s.rd.cells.any (fun x => cellBlock x.cell == b && !x.queue.isEmpty && decide (x.since + s.arbiterTime (blockRegion b) ≤ s.now)) = true →
    ∃ t, exec (.blockArbiterTimeout b) s = .next t ∧ t.blockFailed b = true ∧ t.get Reg.ID_FAULTSUM_BLKFAIL = 1 ∧ Keeps s t) ∧
  (∀ (r : Nat) (s : State), r < 16 → s.running = true → s.regionFailed r = false →
    s.rd.blockOut.any (fun e => blockRegion (cellBlock e.cell) == r && s.rd.blockSince.any fun w =>
      w.1 == cellBlock e.cell && s.rd.blockSince.find? (·.1 == w.1) == some w && decide (w.2 + s.arbiterTime r ≤ s.now)) = true →
    ∃ t, exec (.regionArbiterTimeout r) s = .next t ∧ t.regionFailed r = true ∧ t.get Reg.ID_FAULTSUM_RGNFAIL = 1 ∧
      hasBit (t.get Reg.PM_RGN_ON) r = false ∧ Keeps s t) ∧
  (∀ (b r : Nat) (s : State), (∀ x ∈ s.rd.cells, s.now < x.since + s.arbiterTime (blockRegion (cellBlock x.cell))) →
    0 < s.arbiterTime r → (∀ w ∈ s.rd.blockSince, s.now < w.2 + s.arbiterTime (blockRegion w.1)) →
    exec (.blockArbiterTimeout b) s = .next s ∧ exec (.regionArbiterTimeout r) s = .next s) ∧
  (∀ (x y : Nat) (s : State),
    (∃ t, exec (.lineMemoryError 0 x y) s = .next t ∧
      t.get Reg.S1_CNT_MEMCOR = min (2 ^ Reg.S1_CNT_MEMCOR.w - 1) (s.get Reg.S1_CNT_MEMCOR + 1) ∧ t = { s with regs := t.regs } ∧
      s.regsKeptBut t [(Reg.S1_CNT_MEMCOR, 0, 0)]) ∧
    (∃ t, exec (.lineMemoryError 2 x y) s = .next t ∧ t.rd.badNodes = (x, y) :: s.rd.badNodes ∧ t.get Reg.S1_STAT_MEMUNC = 1 ∧
      t = { s with regs := t.regs, hot := t.hot, rd := { s.rd with badNodes := t.rd.badNodes } } ∧
      s.regsKeptBut t [(Reg.S1_STAT_MEMUNC, 0, 0)]) ∧
    (∃ t, exec (.lineMemoryError 3 x y) s = .next t ∧ t.rd.badDefects = x :: s.rd.badDefects ∧ t.get Reg.S1_STAT_MEMUNC = 1 ∧
      t = { s with regs := t.regs, hot := t.hot, rd := { s.rd with badDefects := t.rd.badDefects } } ∧
      s.regsKeptBut t [(Reg.S1_STAT_MEMUNC, 0, 0)])) ∧
  (∀ (x y : Nat) (s : State), x < 16 → ∃ t, exec (.lineMemoryError 1 x y) s = .next t ∧ t.regionFailed x = true ∧ Keeps s t) ∧
  (∀ (b : Nat) (ws : List (Nat × Nat × Nat)) (s : State), b < 256 → s.running = true → s.blockOn b = true →
    s.flag Reg.BLK_STAT_READY b = false →
    ∃ t, exec (.blockReady b ws) s = .next t ∧ t.get Reg.BLK_STAT_READY b = 1 ∧ Keeps s t) ∧
  (∀ (d : Nat) (s : State), d < 320 → s.pdOn d = true →
    ∃ t, exec (.domainPowerGoodLoss d) s = .next t ∧ t.get Reg.PM_STAT_PGLOSS = 1 ∧
      (d < 256 → t.blockFailed d = true) ∧ (256 ≤ d → d < 272 → t.regionFailed (d - 256) = true) ∧
      (272 ≤ d → d < 304 → s.lstate (d - 272) ≠ lsFailed → t.lstate (d - 272) = lsFailed ∧ t.get Reg.LK_GSTAT_CAUSE (d - 272) = 2) ∧
      (d = 308 → t.trk.subs = []) ∧ (d = 309 → ∀ u ∈ t.sense, u.failed = true) ∧ (d = 310 → t.flt.failed = true) ∧
      (d = 313 → t.get Reg.TB_RIG_RSTATE = 0) ∧ (308 ≤ d → t.domainOn (d - 308) = false))

/-! ## The cistern: ring, recalls, raster output and accumulation, errors (08_cistern.md R234 to R259, 11 R319) -/

/-- The ring: a freeze is heeded in RUNNING only, keeps the newest PRE frames and begins the count of POST; a release of a frozen ring
takes effect at once, or waits for the recalls; an edge of the chosen sense on the trigger pin begins to qualify and freezes at the
instant of the edge (R250, R251, R252;
the model's own reading: log entry 46). -/
def Obligations.RingCommands : Prop :=
  (∀ s : State, s.running = true → s.get Reg.CS_RINGSTAT_RSTATE = 0 → hasBit s.cis.admis 6 = true →
    ∃ t, exec .ringFreeze s = .next t ∧ t.get Reg.CS_RINGSTAT_RSTATE = 1 ∧ t.cis.trigAt = some s.now ∧
      t.cis.postLeft = max 1 (s.live Reg.CS_RING_POST) ∧
      t.cis.ring = s.cis.ring.drop (s.cis.ring.length - min s.cis.ring.length s.cis.pre) ∧
      t.get Reg.CS_RINGSTAT_PREACT = t.cis.ring.length % 2 ^ Reg.CS_RINGSTAT_PREACT.w ∧
      t = { s with regs := t.regs, cis := t.cis } ∧
      s.regsKeptBut t [(Reg.CS_RINGSTAT_RSTATE, 0, 0), (Reg.CS_RINGSTAT_PREACT, 0, 0)]) ∧
  (∀ s : State, s.running = true → s.get Reg.CS_RINGSTAT_RSTATE ≠ 0 → exec .ringFreeze s = .next s) ∧
  (∀ s : State, s.running = true → s.get Reg.CS_RINGSTAT_RSTATE = 2 → s.cis.rcl = none → s.cis.recallQ = [] →
    ∃ t, exec .ringRelease s = .next t ∧ t.get Reg.CS_RINGSTAT_RSTATE = 0 ∧ t.cis.release = false ∧ t.cis.trigAt = none ∧
      t.cis.ring = s.cis.ring ∧ t = { s with regs := t.regs, cis := t.cis } ∧
      s.regsKeptBut t [(Reg.CS_RINGSTAT_RSTATE, 0, 0), (Reg.CS_RINGSTAT_PREACT, 0, 0)]) ∧
  (∀ s : State, s.running = true → s.get Reg.CS_RINGSTAT_RSTATE = 2 → (s.cis.rcl ≠ none ∨ s.cis.recallQ ≠ []) →
    exec .ringRelease s = .next { s with cis := { s.cis with release := true } }) ∧
  (∀ s : State, s.cis.trig.level = false → s.running = true → s.flag Reg.CS_RINGTRIG_EN = true →
    s.pinOwner (s.get Reg.CS_RINGTRIG_PIN) = 3 → s.get Reg.CS_RINGTRIG_EDGE ≠ 1 →
    exec (.ringTriggerEdge true) s = .next { s with cis := { s.cis with trig := ⟨true, s.now, true, []⟩ } }) ∧
  (∀ s : State, s.cis.trig.level = true → s.running = true → s.flag Reg.CS_RINGTRIG_EN = true →
    s.pinOwner (s.get Reg.CS_RINGTRIG_PIN) = 3 →
    exec (.ringTriggerEdge false) s = .next { s with cis := { s.cis with trig :=
      ⟨false, s.now, s.get Reg.CS_RINGTRIG_EDGE == 2 || s.get Reg.CS_RINGTRIG_EDGE == 1, []⟩ } }) ∧
  (∀ s : State, s.cis.trig.waiting = true → s.cis.trig.edgeAt + 10 * s.get Reg.CS_RINGTRIG_MINW ≤ s.now → s.running = true →
    s.get Reg.CS_RINGSTAT_RSTATE = 0 → hasBit s.cis.admis 6 = true →
    ∃ t, exec .ringTriggerQualify s = .next t ∧ t.get Reg.CS_RINGSTAT_RSTATE = 1 ∧ t.cis.trigAt = some s.cis.trig.edgeAt ∧
      t.cis.trig.waiting = false ∧ t = { s with regs := t.regs, cis := t.cis } ∧
      s.regsKeptBut t [(Reg.CS_RINGSTAT_RSTATE, 0, 0), (Reg.CS_RINGSTAT_PREACT, 0, 0)])

/-- Recalls: a request of rows of a frozen frame is queued with the next ID, the fifth is refused with RESULT 4, one of a frame that the
ring does not hold frozen with 3 and one of rows outside it with 5; the oldest reaches service when the cistern has nothing else to
serve, and its end reports the ID and makes room, with RESULT 1 where its last packet is kept and 2 where it is dropped; a release that
waited then takes effect (R38, R247, R252, R255, R256;
the model's own reading: log entries 31 and 70). -/
def Obligations.Recalls : Prop :=
  (∀ (vc : Nat) (x : Stored) (s : State), s.running = true → s.get Reg.CS_RCSTAT_QUEUED < 4 →
    s.frozenFrame (s.get Reg.CS_RCFRM_FRAME) = some x → s.get Reg.CS_RCROWS_FIRST ≤ s.get Reg.CS_RCROWS_LAST →
    (State.storedSpan x).1 ≤ s.get Reg.CS_RCROWS_LAST → s.get Reg.CS_RCROWS_LAST ≤ (State.storedSpan x).2 →
    ∃ t, exec (.recallSubmit vc) s = .next t ∧ t.get Reg.CS_RCSTAT_QUEUED = s.get Reg.CS_RCSTAT_QUEUED + 1 ∧
      t.get Reg.CS_RCSTAT_ID = (s.get Reg.CS_RCSTAT_ID + 1) % 256 ∧
      t.cis.recallQ = s.cis.recallQ ++ [⟨(s.get Reg.CS_RCSTAT_ID + 1) % 256, s.get Reg.CS_RCFRM_FRAME,
        s.get Reg.CS_RCROWS_FIRST, s.get Reg.CS_RCROWS_LAST, vc % 16⟩] ∧
      t = { s with regs := t.regs, cis := { s.cis with recallQ := t.cis.recallQ } } ∧
      s.regsKeptBut t [(Reg.CS_RCSTAT_QUEUED, 0, 0), (Reg.CS_RCSTAT_ID, 0, 0)]) ∧
  (∀ (vc why : Nat) (s : State), s.running = true →
    ((4 ≤ s.get Reg.CS_RCSTAT_QUEUED ∧ why = 4) ∨
      (s.get Reg.CS_RCSTAT_QUEUED < 4 ∧ s.frozenFrame (s.get Reg.CS_RCFRM_FRAME) = none ∧ why = 3) ∨
      (s.get Reg.CS_RCSTAT_QUEUED < 4 ∧ why = 5 ∧ ∃ x, s.frozenFrame (s.get Reg.CS_RCFRM_FRAME) = some x ∧
        (s.get Reg.CS_RCROWS_LAST < s.get Reg.CS_RCROWS_FIRST ∨ s.get Reg.CS_RCROWS_LAST < (State.storedSpan x).1 ∨
          (State.storedSpan x).2 < s.get Reg.CS_RCROWS_LAST))) →
    ∃ t, exec (.recallSubmit vc) s = .next t ∧ t.get Reg.CS_RCSTAT_RESULT = why ∧ t.get Reg.CS_RCSTAT_RID = 0 ∧
      t = { s with regs := t.regs } ∧ s.regsKeptBut t [(Reg.CS_RCSTAT_RESULT, 0, 0), (Reg.CS_RCSTAT_RID, 0, 0)]) ∧
  (∀ (r : Recall) (rest : List Recall) (x : Stored) (s : State), s.running = true → s.cis.rcl = none → s.cis.recallQ = r :: rest →
    s.frozenFrame r.frame = some x → s.servesRecall = true →
    ∃ t, exec .recallStart s = .next t ∧ t.cis.recallQ = rest ∧ t.cis.ring = s.cis.ring ∧ Keeps s t ∧
      ((∃ ps, t.cis.rcl = some (r, ps) ∧ ps.length = 1 ∧
          ps = (State.recallPackets x r).drop ((State.recallPackets x r).length - 1)) ∨
        (t.cis.rcl = none ∧ t.get Reg.CS_RCSTAT_RESULT = 2 ∧ t.get Reg.CS_RCSTAT_RID = r.id % 256)) ∧
      ((State.recallPackets x r).length = 1 → s.dropped = [] →
        t = { s with cis := { s.cis with recallQ := rest, rcl := some (r, State.recallPackets x r) } })) ∧
  (∀ (r : Recall) (rest : List Recall) (s : State), s.cis.rcl = none → s.cis.recallQ = r :: rest → s.servesRecall = false →
    exec .recallStart s = .next s) ∧
  (∀ (r : Recall) (p : List Byte) (s : State), s.cis.rcl = some (r, [p]) → s.dropped = [] →
    (s.build r.vc 0x50 r.frame p false false false).2 = true → (s.build r.vc 0x50 r.frame p false false false).1.dropped = [] →
    s.cis.release = false →
    ∃ t, exec .recallEnd s = .next t ∧ t.cis.rcl = none ∧ t.get Reg.CS_RCSTAT_RESULT = 1 ∧ t.get Reg.CS_RCSTAT_RID = r.id % 256 ∧
      t.get Reg.CS_RCSTAT_QUEUED = s.get Reg.CS_RCSTAT_QUEUED - 1 ∧ t.cis.ring = s.cis.ring ∧
      t.get Reg.CS_RINGSTAT_RSTATE = s.get Reg.CS_RINGSTAT_RSTATE ∧ Keeps s t) ∧
  (∀ (r : Recall) (p : List Byte) (s : State), s.cis.rcl = some (r, [p]) → s.dropped = [] →
    (s.build r.vc 0x50 r.frame p false false false).2 = false → s.cis.release = false →
    ∃ t, exec .recallEnd s = .next t ∧ t.cis.rcl = none ∧ t.get Reg.CS_RCSTAT_RESULT = 2 ∧ t.get Reg.CS_RCSTAT_RID = r.id % 256 ∧
      t.cis.ring = s.cis.ring ∧ Keeps s t) ∧
  (∀ (r : Recall) (p : List Byte) (s : State), s.cis.rcl = some (r, [p]) → s.dropped = [] → s.cis.release = true →
    s.cis.recallQ = [] → s.get Reg.CS_RINGSTAT_RSTATE = 2 →
    ∃ t, exec .recallEnd s = .next t ∧ t.cis.rcl = none ∧ t.get Reg.CS_RINGSTAT_RSTATE = 0 ∧ t.cis.release = false)

/-- Raster frames: one whose rows are all there joins the ring and falls due for stage 2 and for output, as the admission allows; its
output, or a complete accumulation group's, starts on OVC once the cistern serves its reader, and not before (R247,
R250, R253, R319;
the model's own reading: log entries 42 and 70). -/
def Obligations.RasterOutputs : Prop :=
  (∀ (f : Frame) (s : State), s.dev = .run → s.frames = [f] → f.phase = 3 → f.raster ≠ [] →
    s.vcDone f (f.img.fld Reg.CS_CFG_RVC) = true → s.channels ≠ [] → s.get Reg.CS_RINGSTAT_RSTATE = 0 →
    ∃ t x, exec .rasterFrameStored s = .next t ∧ x.frame.num = f.num ∧ x.rows = f.raster ∧ x.hdr = f.rasterHdr ∧ x.mem = [] ∧
      (∀ g ∈ t.frames, g.num = f.num ∧ g.raster = []) ∧
      t.cis.ring = (if hasBit f.admis 6 = true then
        (s.cis.ring ++ [x]).drop (s.cis.ring.length + 1 - min (s.cis.ring.length + 1) s.cis.pre) else s.cis.ring) ∧
      t.cis.s2Due = (if hasBit f.admis 2 = true then s.cis.s2Due ++ [x] else s.cis.s2Due) ∧
      t.cis.rasterDue = (if hasBit f.admis 3 = true ∧ hasBit f.supp 0 = false then some x else s.cis.rasterDue) ∧ Keeps s t) ∧
  (∀ (x : Stored) (s : State), s.running = true → s.cis.out = none → s.cis.accDue = [] → s.cis.rasterDue = some x →
    s.serves 3 = true →
    ∃ t o, exec .rasterOutputStart s = .next t ∧ t.cis.out = some o ∧ o.kind = 2 ∧ o.vc = x.frame.img.fld Reg.CS_CFG_OVC ∧
      o.stored = x ∧ o.firstNum = x.frame.num ∧ o.nacc = 1 ∧ t.cis.rasterDue = none ∧ Keeps s t) ∧
  (∀ (a : AccGroup) (x : Stored) (s : State), s.running = true → s.cis.out = none → s.cis.accDue = [] → s.cis.acc = some a →
    a.count = a.size → State.accStored a = some x → hasBit x.frame.supp 0 = false →
    State.serves { s with cis := { s.cis with accDue := [a], acc := none } } 4 = true →
    ∃ t o, exec .accGroupDone s = .next t ∧ t.cis.acc = none ∧ t.cis.accDue = [] ∧ t.cis.out = some o ∧ o.kind = 3 ∧
      o.stored = x ∧ o.firstNum = a.firstNum ∧ o.nacc = a.count ∧ Keeps s t) ∧
  (∀ s : State, s.serves 3 = false → s.serves 4 = false → exec .rasterOutputStart s = .next s) ∧
  (∀ (a : AccGroup) (s : State), s.cis.acc = some a → a.count = a.size →
    State.serves { s with cis := { s.cis with accDue := s.cis.accDue ++ [a], acc := none } } 3 = false →
    State.serves { s with cis := { s.cis with accDue := s.cis.accDue ++ [a], acc := none } } 4 = false →
    exec .accGroupDone s = .next { s with cis := { s.cis with accDue := s.cis.accDue ++ [a], acc := none } }) ∧
  (∀ (v : Nat) (o : OpenOut) (s : State), s.running = true → s.dropped = [] → s.frames = [] → s.cis.out = some o → o.vc = v →
    s.queued v o.stored.frame.num = false →
    ∃ t, exec (.frameClose v) s = .next t ∧ t.cis.out = none ∧ t.cis.ring = s.cis.ring ∧ Keeps s t)

/-- Errors of the cistern: the ninth parity error of a channel within 1 ms loses it, an earlier one is retried; an ECC error is counted,
and an uncorrectable one marks its line or drops its packet; a re-admission's result holds from its completion (R237, R244, R257,
R258;
the model's own reading: log entry 43). -/
def Obligations.CisternErrors : Prop :=
  (∀ (n : Nat) (s : State), s.chanUp n = true →
    (((n, s.now) :: s.cis.parity.filter fun e => decide (s.now < e.2 + 1000000)).filter (·.1 == n)).length ≤ 8 →
    exec (.caParityError n) s = .next { s with cis := { s.cis with
      parity := (n, s.now) :: s.cis.parity.filter fun e => decide (s.now < e.2 + 1000000) } }) ∧
  (∀ (n : Nat) (s : State), n < 4 → s.chanUp n = true →
    8 < (((n, s.now) :: s.cis.parity.filter fun e => decide (s.now < e.2 + 1000000)).filter (·.1 == n)).length →
    ∃ t, exec (.caParityError n) s = .next t ∧ t.get Reg.CS_CH_STAT_LOST n = 1 ∧ t.get Reg.CS_CH_STAT_CAUSE n = 5 ∧
      t.get Reg.CS_CH_STAT_TRAINED n = 0 ∧ t.get Reg.CS_STAT_CHLOST = 1 ∧ t.get Reg.ID_FAULTSUM_CSFAIL = 1 ∧
      ((s.dev = .train ∨ s.running = true) → t.cis.ring = [] ∧ t.cis.recallQ = [] ∧ t.cis.readmit = some s.now) ∧ Keeps s t) ∧
  (∀ (x y : Nat) (s : State),
    (∃ t, exec (.memoryEccError 0 x y) s = .next t ∧
      t.get Reg.CS_ECC_CORR = min (2 ^ Reg.CS_ECC_CORR.w - 1) (s.get Reg.CS_ECC_CORR + 1) ∧ t = { s with regs := t.regs } ∧
      s.regsKeptBut t [(Reg.CS_ECC_CORR, 0, 0)]) ∧
    (∃ t, exec (.memoryEccError 1 x y) s = .next t ∧
      t.get Reg.CS_ECC_UNCORR = min (2 ^ Reg.CS_ECC_UNCORR.w - 1) (s.get Reg.CS_ECC_UNCORR + 1) ∧ t.get Reg.CS_STAT_MEMERR = 1 ∧
      t.cis.ring = s.cis.ring.map (fun z => if z.frame.num = x then { z with mem := z.mem ++ [y] } else z) ∧
      t = { s with regs := t.regs, hot := t.hot, cis := t.cis } ∧ s.regsKeptBut t [(Reg.CS_ECC_UNCORR, 0, 0), (Reg.CS_STAT_MEMERR, 0, 0)])) ∧
  (∀ (g : Nat) (p : Packet) (rest : List Packet) (s : State), g < 32 → s.groups.length = 32 → (s.group g).spill = p :: rest →
    ∃ t, exec (.memoryEccError 3 g 0) s = .next t ∧ (t.group g).spill = rest ∧ t.dropped = s.dropped ++ [p] ∧
      t.get Reg.CS_STAT_MEMERR = 1 ∧ s.otherGroups t g ∧ Keeps s t) ∧
  (∀ (t0 : Nat) (s : State), s.cis.readmit = some t0 →
    ∃ t, exec .readmissionDone s = .next t ∧ t.cis.readmit = none ∧
      t.cis.admis = (State.admission { s with cis := { s.cis with readmit := none } } s.inForce).bits ∧
      t.get Reg.CS_ADMIT_ADMITTED = t.cis.admis % 2 ^ Reg.CS_ADMIT_ADMITTED.w ∧ t.frames = s.frames ∧ Keeps s t)

/-! ## Stage 2, dark reference and the CRC units (09_stage2.md, 04 R141 to R143, 11 R330, R331) -/

/-- Stage 2: a commit takes the shadow set under its stamp and the next generation; the oldest frame that has been read out enters with the
settings in force, or is counted as not processed; its rows leave one by one, as the cistern serves its read and not before, one lost to a memory error, or with the cistern's content, as fill of cause 7;
its paced read ends 1/R − 10 µs after its entry (R247, R258, R260, R261, R272, R274, R275, R281;
the model's own reading: log entries 45, 70 and 83). -/
def Obligations.StageTwo : Prop :=
  (∀ s : State, s.running = true →
    ∃ t c, exec .stage2Commit s = .next t ∧ t.cpCommits = s.cpCommits ++ [c] ∧ c.stamp = s.now ∧
      c.gen = (s.get Reg.CP_GEN_LASTCMT + 1) % 65536 ∧ t.get Reg.CP_GEN_LASTCMT = c.gen ∧ t.get Reg.CP_STAT_PENDING = 1 ∧
      t.cpInForce = s.cpInForce ∧ t = { s with regs := t.regs, hot := t.hot, cpCommits := t.cpCommits } ∧
      s.regsKeptBut t [(Reg.CP_GEN_LASTCMT, 0, 0), (Reg.CP_STAT_PENDING, 0, 0), (Reg.CP_STAT_PVRATE, 0, 0)]) ∧
  (∀ (f : Frame) (x : Stored) (s : State), s.dev = .run → s.frames = [f] → f.phase = 3 → f.s2Asked = false → f.raster = [] →
    s.cis.s2Due = [x] → x.frame.num = f.num → s.cpCommits = [] → procWin s.cpInForce f.img = true → hasBit s.domLost 3 = false →
    ∃ t y, exec .stage2Entry s = .next t ∧ t.s2 = s.s2 ++ [y] ∧ y.stored = x ∧ y.img = s.cpInForce ∧ y.entered = s.now ∧
      y.pgen = s.get Reg.CP_GEN_INFORCE ∧ y.nextRow = 0 ∧ y.readAt = none ∧ t.cis.s2Due = [] ∧
      t.get Reg.CP_CNT_NOPROC = s.get Reg.CP_CNT_NOPROC ∧ (∀ g ∈ t.frames, g.num = f.num ∧ g.s2Asked = true) ∧ Keeps s t) ∧
  (∀ (f : Frame) (s : State), s.dev = .run → s.frames = [f] → f.phase = 3 → f.s2Asked = false → f.raster = [] → s.cis.s2Due = [] →
    ∃ t, exec .stage2Entry s = .next t ∧
      t.get Reg.CP_CNT_NOPROC = min (2 ^ Reg.CP_CNT_NOPROC.w - 1) (s.get Reg.CP_CNT_NOPROC + 1) ∧ t.s2 = s.s2 ∧
      (∀ g ∈ t.frames, g.num = f.num ∧ g.s2Asked = true) ∧
      t = { s with regs := t.regs, hot := t.hot, frames := t.frames } ∧
      s.regsKeptBut t [(Reg.CP_CNT_NOPROC, 0, 0), (Reg.CP_STAT_NOWIN, 0, 0), (Reg.CP_STAT_NOTADM, 0, 0)]) ∧
  (∀ (err : Nat) (x : S2Frame) (s : State), s.running = true → s.s2 = [x] → x.readAt = none → x.nextRow < x.ho →
    s.serves 2 = true →
    ∃ t y, exec (.stage2RowOut err) s = .next t ∧ t.s2 = [y] ∧ y.nextRow = x.nextRow + 1 ∧ y.stored = x.stored ∧
      y.rowsData = (if err = 1 ∨ err = 2 ∨ x.stored.rows = [] then x.rowsData else x.rowsData + 1) ∧
      y.fills = (if err = 1 ∨ err = 2 ∨ x.stored.rows = [] then x.fills ++ [⟨7, 3, false, 0, 0, x.nextRow, x.nextRow⟩] else x.fills) ∧
      (err = 2 → t.get Reg.CP_STAT_MEMUNC = 1) ∧ Keeps s t) ∧
  (∀ (err : Nat) (s : State), s.serves 2 = false → exec (.stage2RowOut err) s = .next s) ∧
  (∀ (x : S2Frame) (s : State), s.s2 = [x] → x.readAt = none → x.linked = true →
    x.rate.1 ≤ (s.now + 10000 - x.entered) * x.rate.2 →
    exec .stage2ReadEnd s = .next { s with s2 := [{ x with readAt := some s.now }] }) ∧
  (∀ (v : Nat) (x : S2Frame) (s : State), s.running = true → s.dropped = [] → s.frames = [] → s.cis.out = none → s.s2 = [x] →
    x.linked = true → x.img.fld Reg.CP_CFG_VC = v → State.stage2Done x = true → s.queued v x.stored.frame.num = false →
    ∃ t, exec (.frameClose v) s = .next t ∧ t.s2 = [] ∧ Keeps s t)

/-- A dark-reference capture starts with its number of frames unless one runs or both taps hold a picture, and an abort ends it without a
result; both are writes to EX_ that the local loop heeds where I3C is the live source; TEST can be set in STANDBY only, and in TEST the
CRC units take the bytes and values that are written (R122, R141, R143, R331). -/
def Obligations.DarkAndCrcTest : Prop :=
  (∀ s : State, s.running = true → s.expo.dark = none → (shutter s.inForce = 0 ∨ shutter s.inForce = 3) →
    ∃ t d, exec .darkStart s = .next t ∧ t.expo.dark = some d ∧ d.nfr = max 1 (s.get Reg.EX_DARKCFG_NFR) ∧ d.done = 0 ∧
      d.frames = [] ∧ t.get Reg.EX_DARKSTAT_DSTATE = 1 ∧ t.get Reg.EX_DARKSTAT_RESULT = 0 ∧ t.get Reg.EX_DARKSTAT_DONE = 0 ∧
      t.expo.exWritten = (s.expo.exWritten || !s.flag Reg.ID_CTRLSTAT_LIVESRC) ∧
      t = { s with regs := t.regs, expo := { s.expo with dark := t.expo.dark, exWritten := t.expo.exWritten } } ∧
      s.regsKeptBut t [(Reg.EX_DARKSTAT_DSTATE, 0, 0), (Reg.EX_DARKSTAT_RESULT, 0, 0), (Reg.EX_DARKSTAT_DONE, 0, 0),
        (Reg.EX_DARKSTAT_WORST, 0, 0)]) ∧
  (∀ s : State, s.running = true → s.expo.dark = none → shutter s.inForce ≠ 0 → shutter s.inForce ≠ 3 →
    ∃ t, exec .darkStart s = .next t ∧ t.get Reg.EX_DARKSTAT_RESULT = 4 ∧ t.get Reg.EX_DARKSTAT_DSTATE = 2 ∧
      t.expo.exWritten = (s.expo.exWritten || !s.flag Reg.ID_CTRLSTAT_LIVESRC) ∧
      t = { s with regs := t.regs, expo := { s.expo with exWritten := t.expo.exWritten } }) ∧
  (∀ (d : DarkCap) (s : State), s.running = true → s.expo.dark = some d →
    exec .darkStart s = .next { s with expo := { s.expo with
      exWritten := s.expo.exWritten || !s.flag Reg.ID_CTRLSTAT_LIVESRC } }) ∧
  (∀ (d : DarkCap) (s : State), s.running = true → s.expo.dark = some d →
    ∃ t, exec .darkAbort s = .next t ∧ t.expo.dark = none ∧ t.expo.darkTable = s.expo.darkTable ∧
      t.get Reg.EX_DARKSTAT_RESULT = 3 ∧ t.get Reg.EX_DARKSTAT_DSTATE = 2 ∧
      t = { s with
        regs := t.regs, expo := { s.expo with dark := none, exWritten := s.expo.exWritten || !s.flag Reg.ID_CTRLSTAT_LIVESRC } } ∧
      s.regsKeptBut t [(Reg.EX_DARKSTAT_RESULT, 0, 0), (Reg.EX_DARKSTAT_DSTATE, 0, 0)]) ∧
  (∀ (v : Word) (s : State), s.running = true →
    ∃ t, exec (.ceTestSet v) s = .next t ∧ t.get Reg.CE_CTL_TEST = (if s.dev = .standby then fieldOf v 0 1 else 0) ∧
      t.get Reg.CE_CTL_SEL = fieldOf v 1 2 ∧ t = { s with regs := t.regs } ∧
      s.regsKeptBut t [(Reg.CE_CTL_TEST, 0, 0), (Reg.CE_CTL_SEL, 0, 0)]) ∧
  (∀ (v : Word) (s : State), s.running = true → s.flag Reg.CE_CTL_TEST = true →
    ∃ t, exec (.ceDataWrite v) s = .next t ∧
      t.get Reg.CE_VAL_VAL (min 2 (s.get Reg.CE_CTL_SEL)) =
        crc32Run (s.get Reg.CE_VAL_VAL (min 2 (s.get Reg.CE_CTL_SEL))) (leBytes 4 v.toNat) ∧
      t = { s with regs := t.regs } ∧ s.regsKeptBut t [(Reg.CE_VAL_VAL, min 2 (s.get Reg.CE_CTL_SEL), 0)]) ∧
  (∀ (n : Nat) (v : Word) (s : State), n < 3 → s.running = true → s.flag Reg.CE_CTL_TEST = true →
    ∃ t, exec (.ceValWrite n v) s = .next t ∧ t.get Reg.CE_VAL_VAL n = v.toNat ∧ t = { s with regs := t.regs } ∧
      s.regsKeptBut t [(Reg.CE_VAL_VAL, n, 0)]) ∧
  (∀ (n : Nat) (v : Word) (s : State), s.running = true → s.flag Reg.CE_CTL_TEST = false →
    exec (.ceDataWrite v) s = .next s ∧ exec (.ceValWrite n v) s = .next s)

/-! ## Sense units and the filter engine (12_sense_unit.md, 13_filter_engine.md) -/

/-- Sequences and results: a regular or injected sequence that has waited takes its entries' settings and begins 20 ns later; a
conversion's code, corrected and saturated, is its entry's result with VALID, its update count and its time; a read of a result
returns it with its time captured, in the cycle that writes one the result before (R339, R345, R347, R349, R352, R353;
the model's own reading: log entry 36). -/
def Obligations.SenseResults : Prop :=
  (∀ (u : Nat) (r : SeqRun) (s : State), u < 2 → s.sense.length = 2 → s.running = true → (s.su u).zero = none →
    (s.su u).inj = none → (s.su u).pend = none → (s.su u).reg = some r → r.started = false → r.startAt ≤ s.now →
    ∃ t, exec (.sequenceStart u false) s = .next t ∧
      (∃ q, (t.su u).reg = some q ∧ q.started = true ∧ q.startAt = r.startAt ∧
        q.cfgs = (List.range (s.get Reg.SA_CFG_RLEN u + 1)).map fun k => s.regs.word (Reg.SA_RSEQ_AVG.addr u k)) ∧
      (t.su u).next6 = max (s.su u).next6 (6 * r.startAt + 120) ∧ t = { s with sense := t.sense } ∧
      ∀ v, v ≠ u → t.su v = s.su v) ∧
  (∀ (u : Nat) (r : SeqRun) (s : State), u < 2 → s.sense.length = 2 → s.running = true → (s.su u).zero = none →
    (s.su u).reg = none → (s.su u).pend = none → (s.su u).flight = [] → (s.su u).inj = some r → r.started = false →
    r.startAt ≤ s.now →
    ∃ t q, exec (.sequenceStart u true) s = .next t ∧ (t.su u).inj = some q ∧ q.started = true ∧
      q.cfgs = (List.range (s.get Reg.SA_CFG_ILEN u + 1)).map (fun k => s.regs.word (Reg.SA_ISEQ_AVG.addr u k)) ∧
      (t.su u).next6 = 6 * r.startAt + 120 ∧ t = { s with sense := t.sense } ∧ ∀ v, v ≠ u → t.su v = s.su v) ∧
  (∀ (u : Nat) (code : Int) (k : SConv) (s : State), u < 2 → s.sense.length = 2 → s.running = true → (s.su u).failed = false →
    (s.su u).zero = none → (s.su u).inj = none → (s.su u).pend = none → (s.su u).reg = none → (s.su u).flight = [k] →
    k.at6 + 3000 ≤ 6 * s.now → k.dead = false → k.zero = false → k.inj = false → k.last = true → k.unit = u → k.entry < 16 →
    k.zofs = 0 → State.entryInput k.cfg ≠ 26 → (s.su u).cal.getD k.slice (0, 0) = (0, 0) → (s.su u).regAcc = SAcc.zero →
    (s.su u).times.length = 20 → hasBit k.cfg.toNat 31 = false → hasBit k.cfg.toNat 30 = false →
    ∃ t, exec (.senseConversionDone u code) s = .next t ∧
      t.get Reg.SA_RES_VALUE u k.entry = scode 16 (clampI (-32768) 32767 code) ∧ t.get Reg.SA_RES_VALID u k.entry = 1 ∧
      t.get Reg.SA_RES_UPD u k.entry = (s.get Reg.SA_RES_UPD u k.entry + 1) % 256 ∧
      t.get Reg.SA_RES_CLIP u k.entry = (if code < -32768 ∨ 32767 < code then 1 else 0) ∧
      (t.su u).times.getD k.entry 0 = k.at6 / 6 ∧ (t.su u).flight = [] ∧ Keeps s t) ∧
  (∀ (u k t0 : Nat) (w : Word) (s : State), u < 2 → k < 16 → s.dev ≠ .off → s.stopped = false →
    (s.su u).was = some (k, s.now, w, t0) →
    ∃ t, exec (.senseResultRead u k) s = .next t ∧ t.out = .i3c (leBytes 4 w.toNat) :: s.out ∧
      t.get Reg.SA_RESTL_T u k = t0 % 2 ^ 32 ∧ t.get Reg.SA_RESTH_T u k = t0 / 2 ^ 32 % 2 ^ 32 ∧
      t = { s with regs := t.regs, out := t.out } ∧ s.regsKeptBut t [(Reg.SA_RESTL_T, u, k), (Reg.SA_RESTH_T, u, k)]) ∧
  (∀ (u k : Nat) (s : State), u < 2 → k < 16 → s.dev ≠ .off → s.stopped = false →
    ((s.su u).was.all fun w => w.1 != k || w.2.1 != s.now) = true →
    ∃ t, exec (.senseResultRead u k) s = .next t ∧
      t.out = .i3c (leBytes 4 (s.regs.word (Reg.SA_RES_VALUE.addr u k)).toNat) :: s.out ∧
      t.get Reg.SA_RESTL_T u k = (s.su u).times.getD k 0 % 2 ^ 32 ∧
      t.get Reg.SA_RESTH_T u k = (s.su u).times.getD k 0 / 2 ^ 32 % 2 ^ 32 ∧ t = { s with regs := t.regs, out := t.out } ∧
      s.regsKeptBut t [(Reg.SA_RESTL_T, u, k), (Reg.SA_RESTH_T, u, k)])

/-- Units, slices and calibrations: EN = 1 takes CONT and PAIR up and EN = 0 ends every sequence; at a hand-over, with the first conversion of a millisecond, the spare takes the
place of the slice longest in service; SA1 as a slave takes no enable; a calibration within the limits is kept and one beyond them fails the slice; a zero calibration
runs on an idle unit only and its mean becomes the channel's offset unless it is out of range (R341, R342, R343, R344, R357, R358,
R360;
the model's own reading: log entries 36 and 90). -/
def Obligations.SenseUnits : Prop :=
  (∀ (u : Nat) (v : Word) (s : State), u < 2 → s.sense.length = 2 → s.running = true → s.flag Reg.SA_CFG_EN u = false →
    (s.su u).on = false → (s.su u).failed = false → s.senseSlave u = false →
    ∃ t, exec (.senseEnable u v) s = .next t ∧ t.get Reg.SA_CFG_EN u = 1 ∧ (t.su u).on = true ∧
      t.get Reg.SA_CFG_CONT u = fieldOf v 30 1 ∧ (t.su u).cont = (fieldOf v 30 1 == 1) ∧
      (t.su u).pair = (u == 0 && fieldOf v 29 1 == 1) ∧ (t.su u).inj = none ∧ (t.su u).zero = none ∧
      t.get Reg.SA_CFG_RLEN u = fieldOf v 16 Reg.SA_CFG_RLEN.w ∧ t = { s with regs := t.regs, hot := t.hot, sense := t.sense }) ∧
  (∀ (v : Word) (s : State), s.sense.length = 2 → s.running = true → s.senseSlave 1 = true →
    ∃ t, exec (.senseEnable 1 v) s = .next t ∧ t.get Reg.SA_CFG_EN 1 = 1 ∧ (t.su 1).on = (s.su 1).on ∧
      (t.su 1).reg = (s.su 1).reg ∧ t = { s with regs := t.regs, hot := t.hot, sense := t.sense }) ∧
  (∀ (u : Nat) (v : Word) (s : State), u < 2 → s.sense.length = 2 → s.running = true → s.flag Reg.SA_CFG_EN u = true →
    ∃ t, exec (.senseDisable u v) s = .next t ∧ t.get Reg.SA_CFG_EN u = 0 ∧ (t.su u).on = false ∧ (t.su u).reg = none ∧
      (t.su u).inj = none ∧ (t.su u).pend = none ∧ (t.su u).zero = none ∧ t = { s with regs := t.regs, hot := t.hot, sense := t.sense }) ∧
  (∀ (u o : Nat) (rest : List Nat) (r : SeqRun) (s : State), u < 2 → s.sense.length = 2 → s.running = true → (s.su u).on = true →
    (s.su u).failed = false → (s.su u).pair = false → s.senseSlave u = false → (s.su u).inj = none → (s.su u).pend = none →
    (s.su u).zero = none → (s.su u).reg = some r → r.started = true → r.spent = false → (s.su u).next6 ≤ 6 * s.now →
    6 * s.now < (s.su u).next6 + s.unitSpacing u → s.hasSpare u = true → (s.su u).handMs < (s.su u).next6 / 6000000 →
    (s.su u).age = o :: rest → o < 5 →
    ∃ t c, exec (.sliceHandover u) s = .next t ∧
      (t.su u).rot = (s.su u).rot.map (fun r => if r = o then s.get Reg.SA_CAL_SPARE u else r) ∧
      (t.su u).age = rest ++ [s.get Reg.SA_CAL_SPARE u] ∧ t.get Reg.SA_CAL_SPARE u = o ∧
      t.get Reg.SA_CAL_ROTCNT u = (s.get Reg.SA_CAL_ROTCNT u + 1) % 256 ∧
      (t.su u).flight = (s.su u).flight ++ [c] ∧ c.at6 = (s.su u).next6 ∧
      c.slice = (t.su u).rot.getD ((s.su u).pos % max 1 (t.su u).rot.length) 0 ∧
      t = { s with regs := t.regs, hot := t.hot, sense := t.sense } ∧
      s.regsKeptBut t [(Reg.SA_CAL_SPARE, u, 0), (Reg.SA_CAL_ROTCNT, u, 0), (Reg.SA_STAT_CFGERR, u, 0)]) ∧
  (∀ (u : Nat) (s : State), u < 2 → (s.su u).reg = none → (s.su u).inj = none → (s.su u).pend = none → (s.su u).zero = none →
    s.senseSlave u = false → exec (.sliceHandover u) s = .next s) ∧
  (∀ (u sl : Nat) (ofs gain : Int) (s : State), u < 2 → sl < 5 → s.sense.length = 2 → s.running = true → (s.su u).on = false →
    s.senseSlave u = false → hasBit (s.get Reg.SA_STAT_SLFAIL u) sl = false → ofs.natAbs ≤ 16384 → gain.natAbs ≤ 10000 →
    exec (.sliceCalibrationDone u sl ofs gain) s = .next (s.setSu u fun x => { x with cal := x.cal.set sl (ofs, gain) })) ∧
  (∀ (u sl : Nat) (ofs gain : Int) (s : State), u < 2 → sl < 5 → s.sense.length = 2 → s.running = true → (s.su u).on = false →
    s.senseSlave u = false → hasBit (s.get Reg.SA_STAT_SLFAIL u) sl = false → (16384 < ofs.natAbs ∨ 10000 < gain.natAbs) →
    ∃ t, exec (.sliceCalibrationDone u sl ofs gain) s = .next t ∧ hasBit (t.get Reg.SA_STAT_SLFAIL u) sl = true ∧
      t.get Reg.SA_STAT_SLICEFAIL u = 1 ∧ sl ∉ (t.su u).age ∧
      t = { s with regs := t.regs, hot := t.hot, sense := t.sense, flt := t.flt }) ∧
  (∀ (v : Word) (u : Nat) (s : State), hasBit v.toNat 31 = true → fieldOf v 8 1 = u → s.sense.length = 2 → s.running = true →
    (s.su u).on = true → (s.su u).failed = false → (s.su u).cont = false → (s.su u).reg = none → (s.su u).inj = none →
    (s.su u).pend = none → (s.su u).zero = none → s.senseSlave u = false →
    ∃ t, exec (.zeroCalStart v) s = .next t ∧ t.get Reg.SA_ZSTAT_BUSY = 1 ∧ t.get Reg.SA_ZSTAT_CHAN = fieldOf v 0 4 ∧
      (t.su u).zero = some ⟨fieldOf v 0 4, fieldOf v 4 1 == 1, 0, SAcc.zero⟩ ∧ t.get Reg.SA_STAT_USTATE u = 6 ∧
      t = { s with regs := t.regs, hot := t.hot, sense := t.sense }) ∧
  (∀ (v : Word) (s : State), hasBit v.toNat 31 = true → s.running = true → s.sense.length = 2 →
    (s.su (fieldOf v 8 1)).on = false → s.senseSlave (fieldOf v 8 1) = false →
    ∃ t, exec (.zeroCalStart v) s = .next t ∧ t.get Reg.SA_ZSTAT_RESULT = 3 ∧ t = { s with regs := t.regs } ∧
      s.regsKeptBut t [(Reg.SA_ZSTAT_RESULT, 0, 0)]) ∧
  (∀ (u : Nat) (z : ZeroRun) (s : State), u < 2 → s.sense.length = 2 → (s.su u).zero = some z → 1024 ≤ z.acc.n → z.chan < 16 →
    (roundDiv (z.acc.sum * 16) (1024 * 100000000)).natAbs ≤ 10485 →
    ∃ t, exec (.zeroCalDone u) s = .next t ∧ (t.su u).zero = none ∧ t.get Reg.SA_ZSTAT_RESULT = 1 ∧
      t.get Reg.SA_ZSTAT_BUSY = (if (s.su (1 - u)).zero.isSome = true then 1 else 0) ∧
      t.get Reg.SA_ZOFS_EN z.chan = 1 ∧ t.get Reg.SA_ZOFS_SE z.chan = (if z.se = true then 1 else 0) ∧
      t.get Reg.SA_ZOFS_OFS z.chan = scode Reg.SA_ZOFS_OFS.w (roundDiv (z.acc.sum * 16) (1024 * 100000000)) ∧
      t = { s with regs := t.regs, hot := t.hot, sense := t.sense }) ∧
  (∀ (u : Nat) (z : ZeroRun) (s : State), u < 2 → s.sense.length = 2 → (s.su u).zero = some z → 1024 ≤ z.acc.n →
    10485 < (roundDiv (z.acc.sum * 16) (1024 * 100000000)).natAbs →
    ∃ t, exec (.zeroCalDone u) s = .next t ∧ (t.su u).zero = none ∧ t.get Reg.SA_ZSTAT_RESULT = 2 ∧
      t = { s with regs := t.regs, hot := t.hot, sense := t.sense } ∧
      (s.senseStep 0 = none → s.senseStep 1 = none →
        s.regsKeptBut t [wholeWord 0x0A2004, wholeWord (Reg.SA_STAT_USTATE.addr u 0)]))

/-- The filter engine: in its cycle of the round an input of a channel in group-mean mode is added, and the one that completes a group
of R gives the mean, which is available after the time of the engine and then, at a read, is the channel's output with the next update
count; an input latched before the last reset is dropped and counted; a write of the settings
resets the channel and its detectors; a read of the output captures its status (R361, R362, R366, R370, R371, R372, R373, R378;
the model's own reading: log entry 29). -/
def Obligations.FilterChannels : Prop :=
  (∀ (n t0 at' : Nat) (v : Int) (rest : List (Int × Nat × Nat)) (s : State), n < 16 → s.flt.ch.length = 16 → s.running = true →
    s.flt.failed = false → s.filtNext = none → (s.filt n).inQ = (v, t0, at') :: rest →
    32 * max (at' / 32 + 1) (s.filt n).nextRound + 2 * n ≤ s.now → s.flag Reg.FE_FC_CFG_EN n = true → (s.filt n).resetAt ≤ t0 →
    s.flag Reg.FE_FC_CFG_SCS n = true → s.get Reg.FE_FC_CFG_RANKT n = 0 → s.flag Reg.FE_FC_CFG_DSRC n = false →
    (s.filt n).count + 1 < s.filtRatio n →
    ∃ t, exec (.filterInput n) s = .next t ∧ (t.filt n).inQ = rest ∧ (t.filt n).nextRound = s.filtRound n + 1 ∧
      (t.filt n).count = (s.filt n).count + 1 ∧ (t.filt n).sum = (s.filt n).sum + v ∧ (t.filt n).out = (s.filt n).out ∧
      (t.filt n).upd = (s.filt n).upd ∧ t = { s with flt := t.flt } ∧ ∀ m, m ≠ n → t.filt m = s.filt m) ∧
  (∀ (n t0 at' : Nat) (v : Int) (rest : List (Int × Nat × Nat)) (s : State), n < 16 → s.flt.ch.length = 16 → s.running = true →
    s.flt.failed = false → s.filtNext = none → (s.filt n).inQ = (v, t0, at') :: rest →
    32 * max (at' / 32 + 1) (s.filt n).nextRound + 2 * n ≤ s.now → s.flag Reg.FE_FC_CFG_EN n = true → (s.filt n).resetAt ≤ t0 →
    s.flag Reg.FE_FC_CFG_SCS n = true → s.get Reg.FE_FC_CFG_RANKT n = 0 → s.flag Reg.FE_FC_CFG_DSRC n = false →
    s.filtRatio n ≤ (s.filt n).count + 1 →
    ∃ t d, exec (.filterInput n) s = .next t ∧ (t.filt n).inQ = rest ∧ (t.filt n).count = 0 ∧ (t.filt n).sum = 0 ∧
      (t.filt n).outQ = (s.filt n).outQ ++ [d] ∧ d.ready = 32 * s.filtRound n + 2 * n + 40 ∧ d.tNew = t0 ∧
      d.out.y = sat32 (roundDiv (((s.filt n).sum + v) * 65536) (s.filtRatio n)) ∧
      d.out.settling = decide (0 < (s.filt n).left) ∧ d.out.valid = !d.out.settling ∧ (t.filt n).left = (s.filt n).left - 1 ∧
      (t.filt n).upd = (s.filt n).upd ∧ (t.filt n).out = (s.filt n).out ∧ t = { s with flt := t.flt } ∧
      ∀ m, m ≠ n → t.filt m = s.filt m) ∧
  (∀ (n t0 at' : Nat) (v : Int) (rest : List (Int × Nat × Nat)) (s : State), (s.filt n).inQ = (v, t0, at') :: rest →
    s.now < 32 * max (at' / 32 + 1) (s.filt n).nextRound + 2 * n → exec (.filterInput n) s = .next s) ∧
  (∀ (n t0 at' : Nat) (v : Int) (rest : List (Int × Nat × Nat)) (s : State), n < 16 → s.flt.ch.length = 16 → s.running = true →
    s.flt.failed = false → s.filtNext = none → (s.filt n).inQ = (v, t0, at') :: rest →
    32 * max (at' / 32 + 1) (s.filt n).nextRound + 2 * n ≤ s.now → s.flag Reg.FE_FC_CFG_EN n = true → t0 < (s.filt n).resetAt →
    ∃ t, exec (.filterInput n) s = .next t ∧ (t.filt n).inQ = rest ∧ t.get Reg.FE_STAT_STALEIN = 1 ∧
      t.get Reg.FE_CNT_STALECNT = min (2 ^ Reg.FE_CNT_STALECNT.w - 1) (s.get Reg.FE_CNT_STALECNT + 1) ∧
      t = { s with regs := t.regs, hot := t.hot, flt := t.flt } ∧
      s.regsKeptBut t [(Reg.FE_STAT_STALEIN, 0, 0), (Reg.FE_CNT_STALECNT, 0, 0)]) ∧
  (∀ (n : Nat) (dec : Bool) (v : Word) (s : State), n < 16 → s.flt.ch.length = 16 → s.running = true → s.filtNext = none →
    ∃ t, exec (.filterConfigWrite n dec v) s = .next t ∧ (t.filt n).resetAt = s.now ∧ (t.filt n).left = t.filtSettle n ∧
      (t.filt n).count = 0 ∧ (t.filt n).inQ = (s.filt n).inQ ∧ (t.filt n).outQ = (s.filt n).outQ ∧ (t.filt n).out = (s.filt n).out ∧
      t.get Reg.FE_FC_PK_VALUE n = 0 ∧ t.get Reg.FE_FC_ENV_VALUE n = 0 ∧ t.get Reg.FE_FC_RMS_VALUE n = 0 ∧
      t.regs.word ((if dec = true then 0x0B0104 else 0x0B0100) + 0x20 * n) =
        (s.regStore ((if dec = true then 0x0B0104 else 0x0B0100) + 0x20 * n) v).regs.word
          ((if dec = true then 0x0B0104 else 0x0B0100) + 0x20 * n) ∧
      t = { s with regs := t.regs, hot := t.hot, flt := t.flt } ∧
      s.regsKeptBut t [wholeWord ((if dec = true then 0x0B0104 else 0x0B0100) + 0x20 * n), (Reg.FE_STAT_CFGERR, 0, 0),
        (Reg.FE_STAT_COEFRNG, 0, 0), wholeWord (Reg.FE_FC_PK_VALUE.addr n 0), wholeWord (Reg.FE_FC_ENV_VALUE.addr n 0),
        wholeWord (Reg.FE_FC_RMS_VALUE.addr n 0)]) ∧
  (∀ (n : Nat) (s : State), n < 16 → s.dev ≠ .off → s.stopped = false → s.filtNext = none →
    ∃ t, exec (.filterOutputRead n) s = .next t ∧
      t.out = .i3c (leBytes 4 (s.regs.word (Reg.FE_FC_OUT_VALUE.addr n 0)).toNat) :: s.out ∧
      t.get Reg.FE_FC_STAT_UPD n = (s.filt n).upd % 256 ∧ t = { s with regs := t.regs, out := t.out } ∧
      s.regsKeptBut t [wholeWord (Reg.FE_FC_STAT_UPD.addr n 0), (Reg.FE_FC_TCOR_T, n, 0)]) ∧
  (∀ (n : Nat) (d : FiltDue) (s : State), n < 16 → s.flt.ch.length = 16 → s.running = true → s.flt.failed = false →
    (s.filt n).outQ = [d] → d.ready ≤ s.now → (∀ m, m < 16 → m ≠ n → (s.filt m).outQ = []) →
    -2147483648 ≤ d.out.y → d.out.y ≤ 2147483647 →
    ∃ t, exec (.filterOutputRead n) s = .next t ∧ t.out = .i3c (leBytes 4 (scode 32 d.out.y)) :: s.out ∧
      (t.filt n).outQ = [] ∧ (t.filt n).upd = ((s.filt n).upd + 1) % 256 ∧ (t.filt n).out.map (·.y) = some d.out.y ∧
      (t.filt n).out.map (·.valid) = some (d.out.valid && !s.filtSrcFailed n) ∧
      t.get Reg.FE_FC_STAT_UPD n = ((s.filt n).upd + 1) % 256 ∧ Keeps s t)

/-! ## Tracking, pointing and the guard (06_tracking_and_pointing.md, 15_safety_partition.md R416 to R421) -/

/-- Sub-exposures and their reads: the end of one is noted and its strobe goes low; a read becomes pending in its cell and takes the
converter next; its 64 codes join the cell queue and the cell is done with the sub-exposure. Results: the samples of a window are
taken once and kept for the next pair; an ON or OFF sub-exposure without its other half gives no result and is counted; in
STANDBY they give none (R182, R183, R188, R189, R190, R203;
the model's own reading: log entry 47). -/
def Obligations.TrackingSubExposures : Prop :=
  (∀ (x : SubExp) (s : State), s.trk.subs = [x] → x.ended = false → x.te + x.dur ≤ s.now →
    x.img.flag Reg.TK_PLAN_CFG_STRBEN x.plan = false →
    exec .subexposureEnd s = .next { s with trk := { s.trk with
      subs := [{ x with ended := true }], past := s.trk.past ++ [(x.te, x.te + x.dur, x.span)] } }) ∧
  (∀ (x : SubExp) (p : Nat) (s : State), s.trk.subs = [x] → x.ended = false → x.te + x.dur ≤ s.now → p < 24 →
    x.img.flag Reg.TK_PLAN_CFG_STRBEN x.plan = true → x.img.fld Reg.TK_PLAN_CFG_STRBPIN x.plan = p →
    s.trk.strobes = [(p, x.te + x.dur)] → s.pinOwner p = 4 → s.gal.out.length = 24 →
    ∃ t, exec .subexposureEnd s = .next t ∧ t.trk.subs = [{ x with ended := true }] ∧ t.trk.strobes = [] ∧
      t.gal.out.getD p none = some false ∧ t = { s with trk := t.trk, gal := t.gal }) ∧
  (∀ (c : Nat) (x : SubExp) (s : State), s.trk.subs = [x] → x.ended = true → x.cells.contains c = true →
    (s.cellRt c).trackWait = [] → (s.cellRt c).trackNow = none →
    (∀ f, s.reading = some f → shutter f.img = 3 → (s.cellRt c).conv = none) →
    x.te + x.dur + ceilDiv (70 * (x.span.filter fun d => cellBlock d == cellBlock c && decide (cellLocal d < cellLocal c)).length *
      s.blockDiv4 (cellBlock c)) 4 ≤ s.now →
    exec (.trackReadPending c) s = .next (s.setCell c fun y => { y with trackNow := some (x.id, s.now) })) ∧
  (∀ (c id t0 : Nat) (codes : List Nat) (x : SubExp) (s : State), s.trk.subs = [x] → x.id = id →
    (s.cellRt c).trackNow = some (id, t0) → (s.cellRt c).trackWait = [] → (s.cellRt c).queue = [] → (s.cellRt c).conv = none →
    t0 + 6400 * s.blockDiv4 (cellBlock c) ≤ s.now →
    ∃ t, exec (.trackReadDone c codes) s = .next t ∧ (t.cellRt c).trackNow = none ∧
      (t.cellRt c).queue = [⟨c, id, true, 0, true, x.img.flag Reg.TK_PLAN_CFG_GAIN x.plan,
        (List.range 64).map fun i => min 16383 (codes.getD i 0)⟩] ∧
      t.trk.subs = [{ x with cells := x.cells.erase c }] ∧ (∀ d, d ≠ c → t.cellRt d = s.cellRt d) ∧
      t = { s with rd := t.rd, trk := t.trk }) ∧
  (∀ (x : SubExp) (w : Nat) (s : State), s.trk.subs = [x] → s.resultDue = some (x, w) → s.dev ≠ .standby →
    ∃ t h, exec .trackResult s = .next t ∧ h ∈ t.trk.wins ∧ h.win = w ∧ h.samples = s.subValues x w ∧
      h.mid = x.te + x.dur / 2 ∧ t.trk.subs.length ≤ 1 ∧ (∀ y ∈ t.trk.subs, y = { x with done := w :: x.done }) ∧ Keeps s t) ∧
  (∀ (x : SubExp) (w p : Nat) (s : State), s.trk.subs = [x] → s.resultDue = some (x, w) → s.dev ≠ .standby → s.dropped = [] →
    x.img.fld Reg.TK_PLAN_CFG_PHASE x.plan = p → (p = 1 ∨ p = 2) → s.trk.wins = [] →
    ∃ t, exec .trackResult s = .next t ∧ t.get Reg.TK_CNT_NOPAIR = min 255 (s.get Reg.TK_CNT_NOPAIR + 1) ∧
      t.trk.fixes = s.trk.fixes ∧ t = { s with regs := t.regs, trk := t.trk } ∧ s.regsKeptBut t [(Reg.TK_CNT_NOPAIR, 0, 0)]) ∧
  (∀ (x : SubExp) (w : Nat) (s : State), s.trk.subs = [x] → s.resultDue = some (x, w) → s.dev = .standby → s.dropped = [] →
    ∃ t, exec .trackResult s = .next t ∧ t.trk.wins = s.trk.wins ∧ t.trk.fixes = s.trk.fixes ∧ w ∈ t.trk.broken ∧
      (∀ y ∈ t.trk.subs, y = { x with done := w :: x.done }) ∧ t = { s with trk := t.trk })

/-- Pointing: an update without a new fix repeats the errors and is counted in STALECNT; one with a fix applies the channel's
matrix to its centroid; each message takes the next ALIVE; the port sends the oldest message with the next outgoing ALIVE and is
then busy for 8.5 µs (R194 to R198, R421;
the model's own reading: log entries 23 and 47). -/
def Obligations.PointingUpdates : Prop :=
  (∀ (n : Nat) (s : State), n < 4 → s.trk.points.length = 4 → s.running = true → s.filtNext = none →
    s.inForce.flag Reg.TK_PC_CFG_EN n = true → s.now % 1000 ≤ 1 →
    s.now / 1000 % max 125 (s.inForce.fld Reg.TK_PC_CFG_PER n) =
      s.inForce.fld Reg.TK_PC_PHS_PHS n % max 125 (s.inForce.fld Reg.TK_PC_CFG_PER n) →
    (s.trk.points.getD n ⟨0, 0, none, none, none⟩).lastUpd.all (fun t => t / 1000 != s.now / 1000) = true → s.sourceFixes s.inForce n = [] →
    ∃ t, exec (.pointingUpdate n) s = .next t ∧
      t.get Reg.TK_PC_STAT_STALECNT n = min (2 ^ Reg.TK_PC_STAT_STALECNT.w - 1) (s.get Reg.TK_PC_STAT_STALECNT n + 1) ∧
      t.get Reg.TK_PC_STAT_ALIVE n = (s.get Reg.TK_PC_STAT_ALIVE n + 1) % 256 ∧ t.get Reg.TK_PC_STAT_ZSTALE n = 0 ∧
      (t.trk.points.getD n ⟨0, 0, none, none, none⟩).pan = (s.trk.points.getD n ⟨0, 0, none, none, none⟩).pan ∧
      (t.trk.points.getD n ⟨0, 0, none, none, none⟩).lastUpd = some s.now ∧ Keeps s t) ∧
  (∀ (n : Nat) (f : Fix) (s : State), n < 4 → s.trk.points.length = 4 → s.running = true → s.filtNext = none →
    s.inForce.flag Reg.TK_PC_CFG_EN n = true → s.now % 1000 ≤ 1 →
    s.now / 1000 % max 125 (s.inForce.fld Reg.TK_PC_CFG_PER n) =
      s.inForce.fld Reg.TK_PC_PHS_PHS n % max 125 (s.inForce.fld Reg.TK_PC_CFG_PER n) →
    (s.trk.points.getD n ⟨0, 0, none, none, none⟩).lastUpd.all (fun t => t / 1000 != s.now / 1000) = true → s.sourceFixes s.inForce n = [f] →
    s.inForce.flag Reg.TK_PC_CFG_ZEN n = false →
    ∃ t, exec (.pointingUpdate n) s = .next t ∧ t.get Reg.TK_PC_STAT_ALIVE n = (s.get Reg.TK_PC_STAT_ALIVE n + 1) % 256 ∧
      (t.trk.points.getD n ⟨0, 0, none, none, none⟩).pan = pointError 1 (s.inForce.sfld Reg.TK_PC_A11_A n)
        (s.inForce.sfld Reg.TK_PC_A12_A n) (s.inForce.sfld Reg.TK_PC_A13_A n) f.cx f.cy ∧
      (t.trk.points.getD n ⟨0, 0, none, none, none⟩).tilt = pointError 1 (s.inForce.sfld Reg.TK_PC_A21_A n)
        (s.inForce.sfld Reg.TK_PC_A22_A n) (s.inForce.sfld Reg.TK_PC_A23_A n) f.cx f.cy ∧
      (t.trk.points.getD n ⟨0, 0, none, none, none⟩).tmid = some f.tmid ∧
      t.get Reg.TK_PC_STAT_STALECNT n = s.get Reg.TK_PC_STAT_STALECNT n ∧ Keeps s t) ∧
  (∀ (m : PortMsg) (rest : List PortMsg) (s : State), s.safety.port = m :: rest → m.hold = true → m.chan < 4 →
    s.safety.portFree ≤ s.up → s.dev ≠ .off → s.dev ≠ .safeBoot →
    ∃ t, exec .pointingMessageSend s = .next t ∧ t.safety.port = rest ∧ t.safety.portFree = s.up + 8500 ∧
      t.get Reg.SP_PG_STAT_OALIVE m.chan = (s.get Reg.SP_PG_STAT_OALIVE m.chan + 1) % 256 ∧
      t.out = .pointing (pointingBytes ((s.get Reg.SP_PG_STAT_OALIVE m.chan + 1) % 256) m.chan
        (if s.stopped = true then 129 else 1) m.pan m.tilt m.conf 255) :: s.out ∧
      t = { s with regs := t.regs, out := t.out, safety := { s.safety with port := t.safety.port, portFree := t.safety.portFree } } ∧
      s.regsKeptBut t [(Reg.SP_PG_STAT_OALIVE, m.chan, 0)]) ∧
  (∀ (m : PortMsg) (rest : List PortMsg) (t0 : Nat) (s : State), s.safety.port = m :: rest → m.hold = false → m.tmid = some t0 →
    m.chan < 4 → s.safety.portFree ≤ s.up → s.dev ≠ .off → s.dev ≠ .safeBoot →
    ∃ t, exec .pointingMessageSend s = .next t ∧ t.safety.port = rest ∧ t.safety.portFree = s.up + 8500 ∧
      t.out = .pointing (pointingBytes ((s.get Reg.SP_PG_STAT_OALIVE m.chan + 1) % 256) m.chan m.flags m.pan m.tilt m.conf
        (min 255 ((s.now + 2 ^ 32 - t0 % 2 ^ 32) % 2 ^ 32 / 4000))) :: s.out ∧ Keeps s t)

/-- The guard: TOUT µs without a message of a served channel begins a hold on the guard's own account, counted, with a HOLD message at
once and the GUARD interrupt source; while it holds, another HOLD message follows every GPER µs (R418, R424;
the model's own reading: log entry 48). -/
def Obligations.GuardHolds : Prop :=
  (∀ (n : Nat) (s : State), n < 4 → s.safety.guard.length = 4 → s.running = true → s.served n = true → (s.guardCh n).hold = 0 →
    (s.guardCh n).lastMsg + 1000 * max 250 (s.get Reg.SP_PG_TOUT_TOUT n) < s.up →
    ∃ t, exec (.guardTimeout n) s = .next t ∧ t.get Reg.SP_PG_STAT_TOUTCNT n = min 255 (s.get Reg.SP_PG_STAT_TOUTCNT n + 1) ∧
      t.get Reg.SP_PG_STAT_HOLDING n = 1 ∧ (t.guardCh n).hold = 2 ∧ (t.guardCh n).nextHold = s.up + s.gper n ∧
      (⟨s.up, n, true, true, 0, 0, 0, 0, none⟩ : PortMsg) ∈ t.safety.port ∧ t.get Reg.ID_IBISRC_GUARD = 1 ∧
      t = { s with regs := t.regs, hot := t.hot, safety := t.safety, ctl := t.ctl } ∧
      s.regsKeptBut t [(Reg.SP_PG_STAT_TOUTCNT, n, 0), (Reg.SP_PG_STAT_HOLDING, n, 0), (Reg.ID_IBISRC_GUARD, 0, 0)]) ∧
  (∀ (n : Nat) (s : State), n < 4 → s.safety.guard.length = 4 → s.dev ≠ .off → s.dev ≠ .safeBoot → s.served n = true →
    (s.guardCh n).hold ≠ 0 → (s.guardCh n).nextHold ≤ s.up →
    ∃ t, exec (.guardHoldPeriod n) s = .next t ∧ (t.guardCh n).nextHold = s.up + s.gper n ∧
      (t.guardCh n).hold = (s.guardCh n).hold ∧ (⟨s.up, n, true, true, 0, 0, 0, 0, none⟩ : PortMsg) ∈ t.safety.port ∧
      t = { s with safety := t.safety })

/-! ## Power, temperature and the safety partition (14_thermal_and_power.md, 15_safety_partition.md) -/

/-- STANDBY and RUN: PM_CMD.SLEEP takes RUN to STANDBY with a dark capture dropped, the frames in readout kept with nothing more to
write in the cistern, and of the others only those whose trigger lies ahead; with no trigger ahead nothing that has not been
transferred is left. PM_CMD.WAKE takes STANDBY to RUN with TEST cleared, no angle kept of the frames before, every block of a frame
that waits asked for, and the frames in readout as they were. In the other one of the two states the command only sets CMDIGN (R28,
R34, R90, R143, R159, R259, R331, R401, R402; the model's own reading: log entries 54 and 55). -/
def Obligations.StandbyAndWake : Prop :=
  (∀ s : State, s.dev = .run →
    ∃ t, exec .sleep s = .next t ∧ t.dev = .standby ∧ t.prev = .run ∧ t.cause = .hostStandby ∧ t.expo.dark = none ∧
      (∀ f ∈ t.frames, f.phase = 0 ∨ (2 ≤ f.phase ∧ f.raster = [])) ∧
      (∀ q ∈ t.reqs, q ∈ s.reqs) ∧ Persist s t) ∧
  (∀ s : State, s.dev = .run → (∀ f ∈ s.frames, f.phase = 0 → f.trig = 0 ∨ f.start ≤ s.now) →
    ∃ t, exec .sleep s = .next t ∧ t.dev = .standby ∧ (∀ f ∈ t.frames, 2 ≤ f.phase) ∧ t.expo.burst = none ∧
      t.reqs = s.reqs.filter (fun q => q.trig == 1 && decide (s.now < max q.ts (q.fixedAt + 1000))) ∧
      t.frames.map (·.num) = (s.frames.filter (fun f => decide (2 ≤ f.phase))).map (·.num) ∧ Persist s t) ∧
  (∀ (f : Frame) (s : State), s.dev = .run → s.frames = [f] → f.phase = 0 → f.trig = 1 → f.burst = f.num → s.now < f.start →
    s.expo.dark = none → s.expo.burst = none →
    ∃ t, exec .sleep s = .next t ∧ t.dev = .standby ∧ t.frames = [f] ∧ Persist s t) ∧
  (∀ s : State, s.dev = .standby →
    ∃ t, exec .sleep s = .next t ∧ t.get Reg.PM_STAT_CMDIGN = 1 ∧ t = { s with regs := t.regs, hot := t.hot } ∧
      s.regsKeptBut t [(Reg.PM_STAT_CMDIGN, 0, 0)]) ∧
  (∀ s : State, s.dev = .standby →
    ∃ t, exec .wake s = .next t ∧ t.dev = .run ∧ t.prev = .standby ∧ t.cause = .hostWake ∧ t.get Reg.CE_CTL_TEST = 0 ∧
      t.expo.theta = [] ∧ (∀ q ∈ t.reqs, q ∈ s.reqs) ∧ Persist s t) ∧
  (∀ s : State, s.dev = .standby → (∀ f ∈ s.frames, f.phase ≠ 0) →
    ∃ t, exec .wake s = .next t ∧ t.dev = .run ∧ t.frames = s.frames ∧ Persist s t) ∧
  (∀ (f : Frame) (b : Nat) (s : State), s.dev = .standby → s.frames = [f] → f.phase = 0 → f.burst = f.num → s.now < f.start →
    b < 256 → hasBit (poweredSet f.img f.theta) b = true → s.blockFailed b = false → s.regionFailed (blockRegion b) = false →
    ∃ t, exec .wake s = .next t ∧ t.dev = .run ∧ t.blockOn b = true ∧ t.frames.map (·.num) = [f.num] ∧ Persist s t) ∧
  (∀ s : State, s.dev = .run →
    ∃ t, exec .wake s = .next t ∧ t.get Reg.PM_STAT_CMDIGN = 1 ∧ t = { s with regs := t.regs, hot := t.hot } ∧
      s.regsKeptBut t [(Reg.PM_STAT_CMDIGN, 0, 0)])

/-- A sample of the 24 sensors, taken with PORn high in every state after SAFE_BOOT. Where every sensor works and gives a value within
its limits, none above 155 °C, and no neighbour check is at its last count, each value is accepted, VALIDCNT is 24, no region is at
/4 for want of a sensor, HOT names the hottest sensor, the lowest index of equal ones, TGOV its value with the guard, and the
device goes on. In general the stop that the steps call for is entered with its cause, SHUTDOWN for four samples in a row at 155 °C or
more and SAFE for fewer than 12 valid sensors; with PORn low, in OFF and in SAFE_BOOT nothing is sampled (R380, R381, R382, R383,
R384, R385, R391, R393; the model's own reading: log entry 32). -/
def Obligations.SensorSamples : Prop :=
  (∀ (v : Nat → Int) (s : State), s.dev ≠ .off → s.dev ≠ .safeBoot → s.boot.porn = true →
    (∀ i, i < 24 → s.sensorFailed i = false ∧ hasBit s.thermal.trimBad i = false ∧ s.thermal.nb.getD i 0 < 63 ∧
      -50 * 128 ≤ v i ∧ v i < 155 * 128 ∧ (hasBit s.thermal.accepted i = true → (v i - s.sensorT i).natAbs ≤ 5 * 128)) →
    ∃ t, exec (.sensorSample ((List.range 24).map fun i => some (v i))) s = .next t ∧
      (∀ i, i < 24 → t.getS Reg.TH_TS_T i = v i ∧ t.get Reg.TH_TS_VALID i = 1 ∧ t.get Reg.TH_TS_REJ i = 0) ∧
      t.get Reg.TH_STAT_VALIDCNT = 24 ∧ t.get Reg.TH_RGNDIV_NOSENS = 0 ∧ t.thermal.sd = 0 ∧
      (t.get Reg.TH_STAT_HOT < 24 ∧ (∀ i, i < 24 → v i ≤ v (t.get Reg.TH_STAT_HOT)) ∧
        (∀ i, i < t.get Reg.TH_STAT_HOT → v i < v (t.get Reg.TH_STAT_HOT)) ∧
        t.getS Reg.TH_STAT_TGOV = v (t.get Reg.TH_STAT_HOT) + (if s.thermal.guardOn = true then 8 * 128 else 0)) ∧ Keeps s t) ∧
  (∀ (xs : List (Option Int)) (s : State), s.dev ≠ .off → s.dev ≠ .safeBoot → s.boot.porn = true → (s.thermalSample xs).2 = none →
    ∃ t, exec (.sensorSample xs) s = .next t ∧ t.thermal = (s.thermalSample xs).1.thermal ∧ t.thermal.sd < 4 ∧
      12 ≤ t.get Reg.TH_STAT_VALIDCNT ∧ Keeps s t) ∧
  (∀ (xs : List (Option Int)) (s : State), (s.dev = .load ∨ s.dev = .train ∨ s.running = true ∨ s.dev = .haltConfig ∨ s.dev = .safe) →
    s.boot.porn = true → 4 ≤ (s.thermalSample xs).1.thermal.sd →
    ∃ t, exec (.sensorSample xs) s = .next t ∧ t.dev = .shutdown ∧ t.prev = s.dev ∧ t.cause = .thermal ∧ Persist s t) ∧
  (∀ (xs : List (Option Int)) (s : State), (s.dev = .load ∨ s.dev = .train ∨ s.running = true ∨ s.dev = .haltConfig) →
    s.boot.porn = true → (s.thermalSample xs).1.thermal.sd < 4 → (s.thermalSample xs).1.get Reg.TH_STAT_VALIDCNT < 12 →
    ∃ t, exec (.sensorSample xs) s = .next t ∧ t.dev = .safe ∧ t.prev = s.dev ∧ t.cause = .sensorsFew ∧ Persist s t) ∧
  (∀ (xs : List (Option Int)) (s : State), (s.dev = .off ∨ s.dev = .safeBoot ∨ s.boot.porn = false) →
    exec (.sensorSample xs) s = .next s)

/-- The monitors that take the device to SAFE from any state after SAFE_BOOT: two bad REFCLK windows in a row, the loss of PLL_MAIN with
a good REFCLK, or the good window after a bad one in which it was lost, a rail other than VDDIO_CS and VDDAON out of its window, and
more than 5 ms without a heartbeat; one bad window, and a good one that no loss of PLL_MAIN waits for, only move the count, and a
loss of PLL_MAIN with a bad REFCLK waits for the next window. Of two causes of one cycle of the safety oscillator the one that goes
before in R414's order gives CAUSE; a later one leaves it (R19, R28, R408, R410, R411, R413, R414; the model's own reading: log entry
56). -/
def Obligations.SafeEntries : Prop :=
  (∀ (n : Nat) (s : State), s.dev ≠ .off → 60 ≤ n → n ≤ 90 → (s.safety.pllWait = false ∨ s.dev = .safeBoot) →
    exec (.refclkWindow n) s = .next { s with safety := { s.safety with badWin := 0, refBad := false, pllWait := false } }) ∧
  (∀ (n : Nat) (s : State), s.dev ≠ .off → (n < 60 ∨ 90 < n) → s.safety.badWin = 0 →
    exec (.refclkWindow n) s = .next { s with safety := { s.safety with badWin := 1, refBad := true } }) ∧
  (∀ s : State, s.dev ≠ .off → s.pllMain = true → s.safety.refBad = true →
    ∃ t, exec (.pllLockLoss 0) s = .next t ∧ t.pllMain = false ∧ t.safety.pllWait = true ∧ t.dev = s.dev ∧
      t.get Reg.ID_FAULTSUM_PLL = 1 ∧ t = { s with regs := t.regs, hot := t.hot, ctl := t.ctl, pllMain := false, safety := t.safety } ∧
      s.regsKeptBut t [(Reg.ID_FAULTSUM_PLL, 0, 0), (Reg.ID_IBISRC_FAULT, 0, 0)]) ∧
  (∀ (c : Instr) (why : Cause) (s : State),
    (s.dev = .load ∨ s.dev = .train ∨ s.running = true ∨ s.dev = .haltConfig) →
    (∃ n, c = .refclkWindow n ∧ (n < 60 ∨ 90 < n) ∧ 1 ≤ s.safety.badWin ∧ why = .refclkLoss) ∨
      (∃ n, c = .refclkWindow n ∧ 60 ≤ n ∧ n ≤ 90 ∧ s.safety.pllWait = true ∧ s.pllMain = false ∧ why = .pllLoss) ∨
      (c = .pllLockLoss 0 ∧ s.pllMain = true ∧ s.safety.refBad = false ∧ why = .pllLoss) ∨
      (∃ h, c = .supplyTrip 1 h ∧ why = .vddcLoss) ∨
      (∃ r h, c = .supplyTrip r h ∧ (r = 0 ∨ r = 2 ∨ r = 4 ∨ r = 5) ∧ why = .supplyLoss) ∨
      (c = .watchdogTrip ∧ s.flag Reg.SP_WDSTAT_ARMED = true ∧ s.safety.wdAt + 5000000 < s.up ∧ why = .watchdog) →
    ∃ t, exec c s = .next t ∧ t.dev = .safe ∧ t.prev = s.dev ∧ t.cause = why ∧ t.get Reg.SP_WDSTAT_ARMED = 0 ∧
      (∀ g, g < 32 → t.lstate g = lsOff ∨ t.lstate g = lsFailed) ∧ t.frames = [] ∧
      (why = .refclkLoss ∨ why = .pllLoss → t.pllMain = false) ∧ Persist s t) ∧
  (∀ (c : Instr) (s : State), s.dev = .shutdown →
    (∃ n, c = .refclkWindow n) ∨ c = .pllLockLoss 0 ∨ (∃ r h, c = .supplyTrip r h ∧ r < 6) ∨ c = .watchdogTrip →
    ∃ t, exec c s = .next t ∧ t.dev = .shutdown ∧ t.cause = s.cause) ∧
  (∀ (h : Bool) (a : Nat) (s : State), s.dev = .safe → s.safety.safeAt = some a → s.cause = .watchdog →
    ∃ t, exec (.supplyTrip 1 h) s = .next t ∧ t.dev = .safe ∧
      t.cause = (if 4 * a / 125 = 4 * s.up / 125 then .vddcLoss else .watchdog) ∧ Persist s t) ∧
  (∀ s : State, (s.flag Reg.SP_WDSTAT_ARMED = false ∨ s.up ≤ s.safety.wdAt + 5000000) → exec .watchdogTrip s = .next s)

/-- The other monitors: VDDAON above its window is flagged and below it the device is OFF; the loss of VDDIO_CS or of a PLL of the
cistern loses channels with its cause, and of PLL_PV stops the preview; an oscillator out of its range is flagged once; a heartbeat is
taken if its CRC, state and ALIVE are right and else counted, CE3 having computed its CRC (R19, R258, R409, R411, R412, R423, R330, Table 15-2;
the model's own reading: log entry 56). -/
def Obligations.OtherMonitors : Prop :=
  (∀ s : State, s.vddaon = true →
    ∃ t, exec (.supplyTrip 6 true) s = .next t ∧ t.get Reg.SP_STAT_VAONHI = 1 ∧ t = { s with regs := t.regs } ∧
      s.regsKeptBut t [(Reg.SP_STAT_VAONHI, 0, 0)]) ∧
  (∀ s : State, s.vddaon = true → ∃ t, exec (.supplyTrip 6 false) s = .next t ∧ t.dev = .off ∧ t.vddaon = false ∧ Persist s t) ∧
  (∀ (n : Nat) (s : State), n < 4 → (s.dev = .load ∨ s.dev = .train ∨ s.running = true) → s.flag Reg.CS_CH_STAT_LOST n = false →
    s.pllCs.length = 4 → s.pllCs.getD n false = true →
    ∃ t, exec (.pllLockLoss (n + 1)) s = .next t ∧ t.pllCs.getD n true = false ∧ t.get Reg.CS_CH_STAT_LOST n = 1 ∧
      t.get Reg.CS_CH_STAT_CAUSE n = 8 ∧ t.dev = s.dev) ∧
  (∀ (h : Bool) (s : State), (s.dev = .load ∨ s.dev = .train ∨ s.running = true) →
    ∃ t, exec (.supplyTrip 3 h) s = .next t ∧ (∀ n, n < 4 → t.get Reg.CS_CH_STAT_LOST n = 1) ∧ t.dev = s.dev ∧
      t.get Reg.SP_SUPLAST_RAIL = 3 ∧ t.get Reg.SP_SUPLAST_HIGH = (if h = true then 1 else 0) ∧ t.get Reg.SP_SUPLAST_VALID = 1) ∧
  (∀ s : State, s.dev ≠ .off → s.pllPv = true →
    ∃ t, exec (.pllLockLoss 5) s = .next t ∧ t.pllPv = false ∧ t.get Reg.ID_FAULTSUM_PLL = 1 ∧
      t = { s with regs := t.regs, hot := t.hot, out := t.out, pllPv := false, ctl := t.ctl, s2 := t.s2, cis := t.cis } ∧
      s.regsKeptBut t [(Reg.ID_FAULTSUM_PLL, 0, 0), (Reg.ID_IBISRC_FAULT, 0, 0)]) ∧
  (∀ (k : Nat) (s : State), s.dev ≠ .off → s.pllMain = true → (k < 30000 ∨ 34000 < k) → s.flag Reg.SP_STAT_OSCERR = false →
    ∃ t, exec (.oscCheck k) s = .next t ∧ t.get Reg.SP_STAT_OSCERR = 1 ∧ t.get Reg.ID_IBISRC_OSC = 1 ∧
      t = { s with regs := t.regs, hot := t.hot, ctl := t.ctl } ∧ s.regsKeptBut t [(Reg.SP_STAT_OSCERR, 0, 0), (Reg.ID_IBISRC_OSC, 0, 0)]) ∧
  (∀ (k : Nat) (s : State), 30000 ≤ k → k ≤ 34000 → exec (.oscCheck k) s = .next s) ∧
  (∀ (a : Nat) (s : State), s.dev ≠ .off → a < 256 → s.safety.hbAlive ≠ some a →
    ∃ t, exec (.safetyHeartbeat (leBytes 1 a ++ leBytes 1 (State.devCode s.dev) ++
      leBytes 2 (crc16 (leBytes 1 a ++ leBytes 1 (State.devCode s.dev))))) s = .next t ∧
      t = { s with regs := t.regs, hot := t.hot, safety := { s.safety with hbAlive := some a, wdAt := s.up } } ∧
      t.get Reg.CE_VAL_VAL 3 = crc16 (leBytes 1 a ++ leBytes 1 (State.devCode s.dev)) ∧ s.regsKeptBut t [(Reg.CE_VAL_VAL, 3, 0)]) ∧
  (∀ (w : List Byte) (s : State), s.dev ≠ .off →
    (w.length ≠ 4 ∨ leAt w 2 2 ≠ crc16 (w.take 2) ∨ leAt w 1 1 ≠ State.devCode s.dev ∨ s.safety.hbAlive = some (leAt w 0 1)) →
    ∃ t, exec (.safetyHeartbeat w) s = .next t ∧ t.get Reg.SP_WDSTAT_BADHB = min 255 (s.get Reg.SP_WDSTAT_BADHB + 1) ∧
      t.get Reg.CE_VAL_VAL 3 = crc16 (w.take 2) ∧ t = { s with regs := t.regs, hot := t.hot } ∧
      s.regsKeptBut t [(Reg.SP_WDSTAT_BADHB, 0, 0), (Reg.CE_VAL_VAL, 3, 0)])

/-! ## The control port (16_boot_and_configuration.md R448 to R451, 01_architecture.md R22 to R27, R404, R424) -/

/-- A write over I3C: a private write of one word is a register write; before RUN a write is discarded and counted; in SAFE, SHUTDOWN and
HALT_CONFIG one to the ID_ or SP_ space takes effect as its access codes state and one to any other space only sets UNAVAIL; the same
holds of each command that is such a write; one of a live parameter while CONFIG selects the return lanes
is rejected and counted; a plain register takes its RW and RWC bits and clears its W1C bits, but for those that hardware sets in the same cycle; and no write
reaches a locked safety setting (R8, R9, R23, R25, R26, R27, R122, R404, R449;
the model's own reading: log entry 24 for the writes before RUN, log entry 68 for the cycle). -/
def Obligations.RegisterWrites : Prop :=
  (∀ (a : Nat) (v : Word) (s : State), a < 2 ^ 24 → a % 4 = 0 → s.dev ≠ .off → s.cutShort 7 = false →
    exec (.i3cPrivateWrite (leBytes 3 a ++ leBytes 4 v.toNat) true) s = exec (.registerWrite a v) s) ∧
  (∀ (a : Nat) (v : Word) (s : State), (s.dev = .safeBoot ∨ s.dev = .load ∨ s.dev = .train) →
    ∃ t, exec (.registerWrite a v) s = .next t ∧
      t.get Reg.ID_CTRLSTAT_EARLYCNT = min 255 (s.get Reg.ID_CTRLSTAT_EARLYCNT + 1) ∧ t = { s with regs := t.regs } ∧
      s.regsKeptBut t [(Reg.ID_CTRLSTAT_EARLYCNT, 0, 0)]) ∧
  (∀ (a : Nat) (v : Word) (s : State), s.stopped = true → 0x10000 ≤ a → (a < 0xD0000 ∨ 0xE0000 ≤ a) →
    ∃ t, exec (.registerWrite a v) s = .next t ∧ t.get Reg.ID_CTRLSTAT_UNAVAIL = 1 ∧ t = { s with regs := t.regs, hot := t.hot } ∧
      s.regsKeptBut t [(Reg.ID_CTRLSTAT_UNAVAIL, 0, 0)]) ∧
  (∀ (c : Instr) (s : State), (writesMain c = true ∨ (s.get Reg.ID_CTRLSTAT_LIVESRC = 0 ∧ (c = .captureCommit ∨ c = .stage2Commit))) →
    (s.dev = .safeBoot ∨ s.dev = .load ∨ s.dev = .train) →
    ∃ t, exec c s = .next t ∧ t.get Reg.ID_CTRLSTAT_EARLYCNT = min 255 (s.get Reg.ID_CTRLSTAT_EARLYCNT + 1) ∧
      t = { s with regs := t.regs } ∧ s.regsKeptBut t [(Reg.ID_CTRLSTAT_EARLYCNT, 0, 0)]) ∧
  (∀ (c : Instr) (s : State), (writesMain c = true ∨ (s.get Reg.ID_CTRLSTAT_LIVESRC = 0 ∧ (c = .captureCommit ∨ c = .stage2Commit))) →
    s.stopped = true →
    ∃ t, exec c s = .next t ∧ t.get Reg.ID_CTRLSTAT_UNAVAIL = 1 ∧ t = { s with regs := t.regs, hot := t.hot } ∧
      s.regsKeptBut t [(Reg.ID_CTRLSTAT_UNAVAIL, 0, 0)]) ∧
  (∀ (a : Nat) (v : Word) (s : State), s.running = true → s.get Reg.ID_CTRLSTAT_LIVESRC = 1 → liveParam a = true →
    ∃ t, exec (.registerWrite a v) s = .next t ∧ t.get Reg.ID_CTRLSTAT_REJCNT = min 255 (s.get Reg.ID_CTRLSTAT_REJCNT + 1) ∧
      t = { s with regs := t.regs } ∧ s.regsKeptBut t [(Reg.ID_CTRLSTAT_REJCNT, 0, 0)]) ∧
  (∀ (a : Nat) (v : Word) (d : RegDef) (s : State), s.running = true → s.get Reg.ID_CTRLSTAT_LIVESRC = 0 → findReg a = some d →
    a % 4 = 0 → 0x020000 ≤ a → a < 0x050000 → State.isCommand a = false →
    ∃ t, exec (.registerWrite a v) s = .next t ∧
      t.regs.word a = ((s.regs.word a &&& ~~~BitVec.ofNat 32 (d.rw + d.rwc)) ||| (v &&& BitVec.ofNat 32 (d.rw + d.rwc))) &&&
        ~~~(v &&& BitVec.ofNat 32 d.w1c &&& ~~~BitVec.ofNat 32 (State.hotMask s.hot a)) ∧
      (a < 0x030000 → t.expo.exWritten = true) ∧
      t = { s with regs := t.regs, expo := t.expo } ∧ s.regsKeptBut t [wholeWord a]) ∧
  (∀ (a : Nat) (v : Word) (d : RegDef) (s : State), s.stopped = true → findReg a = some d → a % 4 = 0 →
    (a < 0x10000 ∨ (0xD0000 ≤ a ∧ a < 0xE0000)) →
    ∃ t, exec (.registerWrite a v) s = .next t ∧
      t.regs.word a = ((s.regs.word a &&& ~~~BitVec.ofNat 32 (d.rw + d.rwc)) ||| (v &&& BitVec.ofNat 32 (d.rw + d.rwc))) &&&
        ~~~(v &&& BitVec.ofNat 32 d.w1c &&& ~~~BitVec.ofNat 32 (State.hotMask s.hot a)) ∧
      t = { s with regs := t.regs, ctl := { s.ctl with ibiDone := t.ctl.ibiDone } } ∧ s.regsKeptBut t [wholeWord a]) ∧
  (∀ (a : Nat) (v : Word) (s : State), a ∈ splAddrs →
    ∃ t, exec (.registerWrite a v) s = .next t ∧ t.regs.word a &&& State.splMask a = s.regs.word a &&& State.splMask a)

/-- The rest of a transfer: a broken or misaligned write is discarded whole and counted; an address alone sets the read pointer; a read
answers four bytes a word, least significant first, and moves the pointer on; a read of the ID_ and SP_ spaces answers their
values in every state, and one of any other space answers 0 in SAFE, SHUTDOWN and HALT_CONFIG, with UNAVAIL set, and so do the reads that are commands of their own; a bus timeout is counted, with the write it
discards; so is a write that a discard of work in flight falls into, which ID_FAULTSUM and the next heartbeats then report (R26, R37,
R449, R451; the model's own reading: log entry 94). -/
def Obligations.TransfersAndReads : Prop :=
  (∀ (bs : List Byte) (p : Bool) (s : State), s.dev ≠ .off →
    (p = false ∨ bs.length < 3 ∨ leAt bs 0 3 % 4 ≠ 0 ∨ (bs.length - 3) % 4 ≠ 0 ∨ 1024 < bs.length - 3) →
    ∃ t, exec (.i3cPrivateWrite bs p) s = .next t ∧ t.get Reg.BT_I3CSTAT_DISCNT = min 255 (s.get Reg.BT_I3CSTAT_DISCNT + 1) ∧
      t = { s with regs := t.regs } ∧ s.regsKeptBut t [(Reg.BT_I3CSTAT_DISCNT, 0, 0)]) ∧
  (∀ (a : Nat) (s : State), s.dev ≠ .off → s.cutShort 3 = false → a < 2 ^ 24 → a % 4 = 0 →
    exec (.i3cPrivateWrite (leBytes 3 a) true) s = .next { s with ctl := { s.ctl with readPtr := a } }) ∧
  (∀ (n : Nat) (s : State), s.dev ≠ .off →
    ∃ t bs, exec (.i3cPrivateRead n) s = .next t ∧ t.out = .i3c bs :: s.out ∧ bs.length = 4 * min n 256 ∧
      t.ctl.readPtr = (s.ctl.readPtr + 4 * min n 256) % 2 ^ 24 ∧ Keeps s t) ∧
  (∀ (a : Nat) (d : RegDef) (s : State), s.dev ≠ .off → s.ctl.readPtr = a → findReg a = some d →
    (a < 0x10000 ∨ (0xD0000 ≤ a ∧ a < 0xE0000)) →
    exec (.i3cPrivateRead 1) s = .next { s with
      out := .i3c (leBytes 4 (if a = 0x10 then s.devWord else s.regs.word a).toNat) :: s.out
      ctl := { s.ctl with readPtr := a + 4 } }) ∧
  (∀ (a : Nat) (s : State), s.stopped = true → s.ctl.readPtr = a → 0x10000 ≤ a → (a < 0xD0000 ∨ 0xE0000 ≤ a) →
    ∃ t, exec (.i3cPrivateRead 1) s = .next t ∧ t.get Reg.ID_CTRLSTAT_UNAVAIL = 1 ∧
      t = { s with
        regs := t.regs, hot := t.hot, out := .i3c (leBytes 4 0) :: s.out, ctl := { s.ctl with readPtr := (a + 4) % 2 ^ 24 } } ∧
      s.regsKeptBut t [(Reg.ID_CTRLSTAT_UNAVAIL, 0, 0)]) ∧
  (∀ (c : Instr) (s : State), ((∃ n, n < 4 ∧ c = .posRead n) ∨ c = .timeloRead ∨ (∃ u k, u < 2 ∧ k < 20 ∧ c = .senseResultRead u k) ∨
      (∃ n, n < 16 ∧ c = .filterOutputRead n)) → s.stopped = true →
    ∃ t, exec c s = .next t ∧ t.get Reg.ID_CTRLSTAT_UNAVAIL = 1 ∧
      t = { s with regs := t.regs, hot := t.hot, out := .i3c (leBytes 4 0) :: s.out } ∧
      s.regsKeptBut t [(Reg.ID_CTRLSTAT_UNAVAIL, 0, 0)]) ∧
  (∀ (r : Bool) (s : State), s.dev ≠ .off →
    ∃ t, exec (.i3cBusTimeout r) s = .next t ∧ t.get Reg.BT_I3CSTAT_TOCNT = min 255 (s.get Reg.BT_I3CSTAT_TOCNT + 1) ∧
      t.get Reg.BT_I3CSTAT_DISCNT = (if r = true then s.get Reg.BT_I3CSTAT_DISCNT else min 255 (s.get Reg.BT_I3CSTAT_DISCNT + 1)) ∧
      t = { s with regs := t.regs } ∧ s.regsKeptBut t [(Reg.BT_I3CSTAT_TOCNT, 0, 0), (Reg.BT_I3CSTAT_DISCNT, 0, 0)]) ∧
  (∀ (bs : List Byte) (p : Bool) (s : State), s.dev ≠ .off → s.cutShort bs.length = true →
    (p = true ∧ 3 ≤ bs.length ∧ leAt bs 0 3 % 4 = 0 ∧ (bs.length - 3) % 4 = 0 ∧ bs.length - 3 ≤ 1024) →
    ∃ t, exec (.i3cPrivateWrite bs p) s = .next t ∧ t.get Reg.BT_I3CSTAT_DISCNT = min 255 (s.get Reg.BT_I3CSTAT_DISCNT + 1) ∧
      t.get Reg.ID_FAULTSUM_DISCARD = 1 ∧ (t.groups.all fun g => g.hbDiscard) = true ∧
      t = { s with regs := t.regs, hot := t.hot, ctl := t.ctl, groups := t.groups } ∧ t.ctl.readPtr = s.ctl.readPtr ∧
      s.regsKeptBut t [(Reg.BT_I3CSTAT_DISCNT, 0, 0), (Reg.ID_FAULTSUM_DISCARD, 0, 0), (Reg.ID_IBISRC_FAULT, 0, 0)])

/-- The CCCs and in-band interrupts: ENEC and DISEC switch the target's events; an address is taken, changed and given up; GETMWL and
GETMRL answer 1,027 and 1,024; the identity and status CCCs answer their number of bytes, whose values are free (log entry 2); an
unsupported direct CCC is NACKed and counted; the lowest source that is set, enabled and unsignalled is requested, and is
signalled once acknowledged (R424, R448;
the model's own reading: log entries 2 and 25). -/
def Obligations.CommonCommands : Prop :=
  (∀ s : State, s.dev ≠ .off → exec .enec s = .next { s with ctl := { s.ctl with events := true } }) ∧
  (∀ s : State, s.dev ≠ .off → exec .disec s = .next { s with ctl := { s.ctl with events := false } }) ∧
  (∀ (a : Nat) (c : Instr) (s : State), s.dev ≠ .off → a < 128 →
    (c = .entdaa a ∧ s.flag Reg.BT_I3CSTAT_DAVALID = false) ∨ (c = .setdasa a ∧ s.flag Reg.BT_I3CSTAT_DAVALID = false) ∨
      (c = .setnewda a ∧ s.flag Reg.BT_I3CSTAT_DAVALID = true) →
    ∃ t, exec c s = .next t ∧ t.get Reg.BT_I3CSTAT_DAVALID = 1 ∧ t.get Reg.BT_I3CSTAT_DYNADDR = a ∧ t = { s with regs := t.regs } ∧
      s.regsKeptBut t [(Reg.BT_I3CSTAT_DAVALID, 0, 0), (Reg.BT_I3CSTAT_DYNADDR, 0, 0)]) ∧
  (∀ s : State, s.dev ≠ .off →
    ∃ t, exec .rstdaa s = .next t ∧ t.get Reg.BT_I3CSTAT_DAVALID = 0 ∧ t.get Reg.BT_I3CSTAT_DYNADDR = 0 ∧
      t = { s with regs := t.regs } ∧ s.regsKeptBut t [(Reg.BT_I3CSTAT_DAVALID, 0, 0), (Reg.BT_I3CSTAT_DYNADDR, 0, 0)]) ∧
  (∀ (c : Instr) (n : Nat) (s : State), s.dev ≠ .off →
    (c, n) ∈ [(Instr.getpid, 6), (Instr.getbcr, 1), (Instr.getdcr, 1), (Instr.getstatus, 2)] →
    ∃ bs, bs.length = n ∧ exec c s = .next { s with out := .i3c bs :: s.out, free := s.free + n }) ∧
  (∀ s : State, s.dev ≠ .off → exec .getmwl s = .next { s with out := .i3c [0x04#8, 0x03#8] :: s.out } ∧
    exec .getmrl s = .next { s with out := .i3c [0x04#8, 0x00#8] :: s.out }) ∧
  (∀ s : State, s.dev ≠ .off →
    ∃ t, exec (.unsupportedCcc true) s = .next t ∧ t.out = .i3cNack :: s.out ∧
      t.get Reg.BT_I3CSTAT_CCCNAK = min 255 (s.get Reg.BT_I3CSTAT_CCCNAK + 1) ∧ t = { s with regs := t.regs, out := t.out } ∧
      s.regsKeptBut t [(Reg.BT_I3CSTAT_CCCNAK, 0, 0)]) ∧
  (∀ s : State, exec (.unsupportedCcc false) s = .next s) ∧
  (∀ (i : Nat) (ack : Bool) (s : State), s.dev ≠ .off → s.ctl.events = true → s.ibiNext = some i →
    exec (.ibiRequest ack) s = .next { s with
      out := .ibi i :: s.out
      ctl := { s.ctl with ibiDone := if ack = true then withBit s.ctl.ibiDone i else s.ctl.ibiDone } } ∧
    hasBit (s.regs.word 0x000044).toNat i = true ∧ hasBit s.ctl.ibiDone i = false)

/-! ## One-time programmable words (17_otp_and_factory_calibration.md R461 to R476, 15_safety_partition.md R426) -/

/-- Commands of the OTP controller: a read reports both raw words, their class and RESULT 1; a wrong key gives RESULT 11 and no pulse; with
the enable withheld, RESULT 2 and its causes; an accepted PROGRAM, LOCK, FORCELOCK or ENFORCE is busy with its code; one that
finds the controller busy is ignored and noted (R426, R463, R465, R466, R468, R470, R473, R474, R476;
the model's own reading: log entries 20, 21 and 22). -/
def Obligations.OtpCommands : Prop :=
  (∀ (k : Nat) (s : State), s.running = true → s.flag Reg.OT_STAT_BUSY = false → s.otpKey = some k →
    (k < 256 ∨ s.blockOn (State.areaOf k) = true) →
    ∃ t, exec (.otpRead []) s = .next t ∧ t.get Reg.OT_STAT_RESULT = 1 ∧ t.get Reg.OT_STAT_ENCAUSE = 0 ∧
      t.get Reg.OT_STAT_PULSES = 0 ∧ t.get Reg.OT_RDLO0_RAW = (s.fuseRaw k).1 % 2 ^ dataBits k % 2 ^ 32 ∧
      t.get Reg.OT_RDHI0_RAW = (s.fuseRaw k).2 % 2 ^ dataBits k % 2 ^ 32 ∧
      t.get Reg.OT_STAT_CLASS = (classify k (s.fuseRaw k).1 (s.fuseRaw k).2).1 % 8 ∧ t.otp.run = s.otp.run ∧ Keeps s t) ∧
  (∀ (key : Nat) (g : Bool) (c : Instr) (s : State), s.running = true → s.flag Reg.OT_STAT_BUSY = false → key ≠ 0x7A51 →
    c ∈ [Instr.otpProgram key g, Instr.otpLock key g, Instr.forcelock key g, Instr.enforce key g] →
    ∃ t, exec c s = .next t ∧ t.get Reg.OT_STAT_RESULT = 11 ∧ t.get Reg.OT_STAT_ENCAUSE = 0 ∧
      t = { s with regs := t.regs, otp := { s.otp with supplyOk := g } } ∧
      t.get Reg.OT_STAT_PULSES = 0 ∧
      s.regsKeptBut t [(Reg.OT_STAT_RESULT, 0, 0), (Reg.OT_STAT_ENCAUSE, 0, 0), (Reg.OT_STAT_PULSES, 0, 0)]) ∧
  (∀ (g : Bool) (k : Nat) (s : State), s.running = true → s.flag Reg.OT_STAT_BUSY = false → s.otpKey = some k →
    State.enCause { s with otp := { s.otp with supplyOk := g } } (s.otpPerm k) ≠ 0 →
    ∃ t, exec (.otpProgram 0x7A51 g) s = .next t ∧ t.get Reg.OT_STAT_RESULT = 2 ∧
      t.get Reg.OT_STAT_ENCAUSE = State.enCause { s with otp := { s.otp with supplyOk := g } } (s.otpPerm k) ∧
      t = { s with regs := t.regs, otp := { s.otp with supplyOk := g } }) ∧
  (∀ (k : Nat) (s : State), s.running = true → s.flag Reg.OT_STAT_BUSY = false → s.otpKey = some k → k < 256 →
    State.enCause { s with otp := { s.otp with supplyOk := true } } (s.otpPerm k) = 0 → s.areaState (State.areaOf k) = 0 →
    (bitsOf 73 (s.fuseRaw k).2).all (hasBit (codeword k (s.get Reg.OT_WDATA0_DATA + 2 ^ 32 * s.get Reg.OT_WDATA1_DATA))) = true →
    ∃ t r, exec (.otpProgram 0x7A51 true) s = .next t ∧ t.otp.run = some r ∧ r.op = 2 ∧ r.key = k ∧
      r.code = codeword k (s.get Reg.OT_WDATA0_DATA + 2 ^ 32 * s.get Reg.OT_WDATA1_DATA) ∧ r.rounds = 0 ∧ r.pulses = 0 ∧ t.get Reg.OT_STAT_BUSY = 1 ∧
      t.get Reg.OT_STAT_RESULT = 0 ∧ t.otp.fuses = s.otp.fuses ∧ Keeps s t) ∧
  (∀ (c : Instr) (op : Nat) (s : State), s.running = true → s.flag Reg.OT_STAT_BUSY = false → 256 ≤ s.otpArea →
    (c = .otpLock 0x7A51 true ∧ op = 3 ∧ State.headerMatches s.fuseClass s.otpArea = true) ∨
      (c = .forcelock 0x7A51 true ∧ op = 4 ∧ s.flag Reg.SP_OTPEN_FLOCK = true) →
    State.enCause { s with otp := { s.otp with supplyOk := true } } (s.otpPerm (lockKey s.otpArea)) = 0 →
    s.areaState s.otpArea = 0 →
    ∃ t r, exec c s = .next t ∧ t.otp.run = some r ∧ r.op = op ∧ r.key = lockKey s.otpArea ∧ r.code = 7 ∧
      t.get Reg.OT_STAT_BUSY = 1 ∧ t.get Reg.OT_STAT_RESULT = 0 ∧ t.otp.fuses = s.otp.fuses ∧ Keeps s t) ∧
  (∀ s : State, s.running = true → s.flag Reg.OT_STAT_BUSY = false →
    State.enCause { s with otp := { s.otp with supplyOk := true } } (s.flag Reg.SP_OTPEN_CUST) = 0 →
    ∃ t r, exec (.enforce 0x7A51 true) s = .next t ∧ t.otp.run = some r ∧ r.op = 5 ∧ r.key = lockKey 258 ∧ r.code = 7 ∧
      t.get Reg.OT_STAT_BUSY = 1 ∧ t.get Reg.OT_STAT_RESULT = 0 ∧ Keeps s t) ∧
  (∀ (c : Instr) (s : State), s.running = true → s.flag Reg.OT_STAT_BUSY = true →
    (c = .otpRead [] ∨ ∃ k, c = .otpProgram k s.otp.supplyOk ∨ c = .otpLock k s.otp.supplyOk ∨ c = .forcelock k s.otp.supplyOk ∨
      c = .enforce k s.otp.supplyOk) →
    ∃ t, exec c s = .next t ∧ t.get Reg.OT_STAT_CMDIGN = 1 ∧ t = { s with regs := t.regs, hot := t.hot } ∧
      s.regsKeptBut t [(Reg.OT_STAT_CMDIGN, 0, 0)])

/-- The sequence of a command: a pulse burns the next fuse of a chip word and is counted; the verify read ends the command with RESULT 1
where every fuse of the code reads 1 and no other does, starts another round for those that do not, and ends it with RESULT 5
where a fuse outside the code reads 1 or eight rounds have not been enough; a pulse or a verify read that is not over changes
nothing; and where the enable is withdrawn, a pulse that has not started is left out (R427, R467, R468, R469;
the model's own reading: log entries 21, 58 and 95). -/
def Obligations.OtpSequence : Prop :=
  (∀ (lo hi i : Nat) (rest : List Nat) (r : OtpRun) (s : State), s.otp.run = some r → r.todo = i :: rest → r.due ≤ s.up → r.key < 4096 →
    ∃ t, exec (.otpPulseDone lo hi true) s = .next t ∧
      t.otp.run = some { r with
        todo := rest, pulses := r.pulses + 1, due := r.due + (if rest.isEmpty = true then 3200 else 12500) } ∧
      t.get Reg.OT_STAT_PULSES = min 255 (r.pulses + 1) ∧ hasBit (t.fuseRaw r.key).1 i = hasBit lo i ∧
      hasBit (t.fuseRaw r.key).2 i = hasBit hi i ∧ t.otp.supplyOk = true ∧ t = { s with regs := t.regs, otp := t.otp } ∧
      s.regsKeptBut t [(Reg.OT_STAT_PULSES, 0, 0)]) ∧
  (∀ (r : OtpRun) (s : State), s.otp.run = some r → r.todo = [] → r.due ≤ s.up → r.abort = 0 → r.key < 4096 →
    (bitsOf 73 r.code).all (hasBit (s.fuseRaw r.key).1) = true →
    (bitsOf 73 (s.fuseRaw r.key).1 ++ bitsOf 73 (s.fuseRaw r.key).2).all (hasBit r.code) = true →
    ∃ t, exec (.otpVerifyDone []) s = .next t ∧ t.otp.run = none ∧ t.get Reg.OT_STAT_RESULT = 1 ∧ t.get Reg.OT_STAT_BUSY = 0 ∧
      t.otp.fuses = s.otp.fuses ∧ Keeps s t) ∧
  (∀ (r : OtpRun) (s : State), s.otp.run = some r → r.todo = [] → r.due ≤ s.up → r.abort = 0 → r.key < 4096 → r.rounds < 8 →
    (bitsOf 73 r.code).all (hasBit (s.fuseRaw r.key).1) = false →
    (bitsOf 73 (s.fuseRaw r.key).1 ++ bitsOf 73 (s.fuseRaw r.key).2).all (hasBit r.code) = true →
    ∃ t, exec (.otpVerifyDone []) s = .next t ∧ t.otp.run = some { r with
        todo := (bitsOf 73 r.code).filter fun i => !hasBit (s.fuseRaw r.key).1 i, rounds := r.rounds + 1, due := r.due + 10000 } ∧
      t.get Reg.OT_STAT_BUSY = s.get Reg.OT_STAT_BUSY ∧ Keeps s t) ∧
  (∀ (r : OtpRun) (s : State), s.otp.run = some r → r.todo = [] → r.due ≤ s.up → r.abort = 0 → r.key < 4096 →
    ((bitsOf 73 (s.fuseRaw r.key).1 ++ bitsOf 73 (s.fuseRaw r.key).2).all (hasBit r.code) = false ∨
      (8 ≤ r.rounds ∧ (bitsOf 73 r.code).all (hasBit (s.fuseRaw r.key).1) = false)) →
    ∃ t, exec (.otpVerifyDone []) s = .next t ∧ t.otp.run = none ∧ t.get Reg.OT_STAT_RESULT = 5 ∧ t.get Reg.OT_STAT_BUSY = 0 ∧
      Keeps s t) ∧
  (∀ (lo hi : Nat) (g : Bool) (r : OtpRun) (s : State), s.otp.run = some r → s.up < r.due →
    exec (.otpPulseDone lo hi g) s = .next s ∧ exec (.otpVerifyDone []) s = .next s) ∧
  (∀ (res : Nat) (r : OtpRun) (s : State), s.otp.run = some r → r.abort = 0 → r.key < 4096 → r.todo ≠ [] → s.up + 10000 < r.due →
    s.otpAbort res = { s with otp := { s.otp with run := some { r with abort := res, todo := [], due := s.up + 3200 } } })
end

