-- ==== Sys2Proof/Laws/Keeps.lean ====
section
/-! SUPPORT. Composing `Persist` and `Keeps`: the lemmas that the per-operation ones are put together from. -/
namespace Sys2Proof.Machine

open Host (Outcome)

theorem Persist.refl (s : State) : Persist s s := ⟨rfl, rfl, List.suffix_refl _, id⟩

theorem Persist.trans {r s t : State} (h : Persist r s) (k : Persist s t) : Persist r t :=
  ⟨k.pending.trans h.pending, k.up.trans h.up, h.out.trans k.out, fun w => k.wf (h.wf w)⟩

theorem Keeps.refl (s : State) : Keeps s s := ⟨Persist.refl s, rfl, rfl, rfl, rfl, Nat.le_refl _, rfl⟩

theorem Keeps.trans {r s t : State} (h : Keeps r s) (k : Keeps s t) : Keeps r t :=
  ⟨h.toPersist.trans k.toPersist, k.dev.trans h.dev, k.prev.trans h.prev, k.cause.trans h.cause, k.vddaon.trans h.vddaon,
    Nat.le_trans h.now k.now, k.pllMain.trans h.pllMain⟩

/-! ## The register image -/

theorem RegFile.put_lt {r : RegFile} {a b : Nat} {v : Word} (hb : b < a) (h : ∀ e ∈ r, b < e.1) :
    ∀ e ∈ r.put a v, b < e.1 := by
  induction r with
  | nil => simpa [RegFile.put] using hb
  | cons x r ih =>
    simp only [List.mem_cons, forall_eq_or_imp] at h
    unfold RegFile.put
    split
    · simp only [List.mem_cons, forall_eq_or_imp]; exact ⟨hb, h.2⟩
    · split
      · simp only [List.mem_cons, forall_eq_or_imp]; exact ⟨hb, h.1, h.2⟩
      · simp only [List.mem_cons, forall_eq_or_imp]; exact ⟨h.1, ih h.2⟩

theorem RegFile.put_wf {r : RegFile} {a : Nat} {v : Word} (h : r.wf) : (r.put a v).wf := by
  induction r with
  | nil => simp [RegFile.put, RegFile.wf]
  | cons x r ih =>
    unfold RegFile.wf at h ih ⊢
    rw [List.pairwise_cons] at h
    unfold RegFile.put
    split
    · subst_vars
      exact List.pairwise_cons.2 ⟨h.1, h.2⟩
    · split
      · rename_i _ hlt
        refine List.pairwise_cons.2 ⟨?_, List.pairwise_cons.2 h⟩
        simp only [List.mem_cons, forall_eq_or_imp]
        exact ⟨hlt, fun e he => Nat.lt_trans hlt (h.1 e he)⟩
      · exact List.pairwise_cons.2 ⟨RegFile.put_lt (by omega) h.1, ih h.2⟩

theorem RegFile.setFld_wf {r : RegFile} {f : Fld} {x i j : Nat} (h : r.wf) : (r.setFld f x i j).wf := RegFile.put_wf h

theorem RegFile.filter_wf {r : RegFile} {p : Nat × Word → Bool} (h : r.wf) : RegFile.wf (r.filter p) :=
  List.Pairwise.sublist List.filter_sublist h

theorem RegFile.foldl_wf {α : Type} {f : RegFile → α → RegFile} {l : List α} {r : RegFile} (h : r.wf)
    (hf : ∀ r x, RegFile.wf r → RegFile.wf (f r x)) : RegFile.wf (l.foldl f r) := by
  induction l generalizing r with
  | nil => exact h
  | cons x l ih => exact ih (hf r x h)

theorem listModify_length {α : Type} (l : List α) (i : Nat) (f : α → α) : (listModify l i f).length = l.length := by
  induction l generalizing i with
  | nil => rfl
  | cons x l ih => cases i <;> simp [listModify, ih]

/-! ## Updates -/

/-- A state built from `s` whose queue, clock and output are those of `s`. -/
theorem Persist.upd {r s : State}
    {free' : Nat} {now' : Nat} {dev' : DevState} {prev' : DevState} {cause' : Cause} {regs' : RegFile} {hot' : List (Nat × Nat)} {inForce' :
    RegFile} {cpInForce' : RegFile} {pllMain' : Bool} {pllCs' : List Bool} {pllPv' : Bool} {domLost' : Nat} {trainAt'
    : Nat} {vddaon' : Bool} {groups' : List Group} {rig' : Rig} {boot' : Boot} {ctl' : Control} {safety' : Safety}
    {cis' : Cis} {thermal' : Thermal} {deal' : List Nat} {vcPackets' : List Nat} {ceVc' : Option Nat} {repl' : List
    (Nat × Nat)} {joined' : Nat} {markerCount' : Nat} {markerAt' : Nat} {lastHeader' : Nat} {commits' : List Commit} {cpCommits' : List Commit}
    {dropped' : List Packet} {covered' : List Packet} {tbs' : List TbCh} {slots' : List Slot} {reqs' : List FrameReq} {gal' : Gallery} {trig'
    : TrigPin} {execs' : List (Nat × Nat)} {lastUpdate' : Option Nat} {lastArmed' : Nat} {frames' : List Frame}
    {expo' : Exposure} {rd' : Readout} {trk' : Track} {flt' : Filters} {s2' : List S2Frame} {sense' : List SenseUnit}
    {otp' : Otp}
    (h : Persist r s) (rg : s.regs.wf → regs'.wf) (gr : s.groups.length = 32 → groups'.length = 32)
    (tb : s.tbs.length = 4 → tbs'.length = 4)
    (sl : s.slots.length = 64 → slots'.length = 64) (se : s.sense.length = 2 → sense'.length = 2)
    (gu : s.safety.guard.length = 4 → safety'.guard.length = 4) :
    Persist r
    ⟨s.pending, s.out, free', s.up, now', dev', prev', cause', regs', hot', inForce', cpInForce', pllMain', pllCs', pllPv',
    domLost', trainAt', vddaon', groups', rig', boot', ctl', safety', cis', thermal', deal', vcPackets', ceVc',
    repl', joined', markerCount', markerAt', lastHeader', commits', cpCommits', dropped', covered', tbs', slots', reqs', gal', trig', execs',
    lastUpdate', lastArmed', frames', expo', rd', trk', flt', s2', sense', otp'⟩ :=
  ⟨h.pending, h.up, h.out, fun w =>
    have w := h.wf w
    ⟨rg w.1, gr w.2.1, tb w.2.2.1, sl w.2.2.2.1, se w.2.2.2.2.1, gu w.2.2.2.2.2⟩⟩

/-- A state built from `s` whose kept fields are those of `s`. -/
theorem Keeps.upd {r s : State}
    {free' : Nat} {regs' : RegFile} {hot' : List (Nat × Nat)} {inForce' : RegFile} {cpInForce' : RegFile} {pllCs' : List Bool} {pllPv' : Bool}
    {domLost' : Nat} {trainAt' : Nat} {groups' : List Group} {rig' : Rig} {boot' : Boot} {ctl' : Control} {safety' :
    Safety} {cis' : Cis} {thermal' : Thermal} {deal' : List Nat} {vcPackets' : List Nat} {ceVc' : Option Nat} {repl'
    : List (Nat × Nat)} {joined' : Nat} {markerCount' : Nat} {markerAt' : Nat} {lastHeader' : Nat} {commits' : List Commit} {cpCommits' : List Commit}
    {dropped' : List Packet} {covered' : List Packet} {tbs' : List TbCh} {slots' : List Slot} {reqs' : List FrameReq} {gal' : Gallery} {trig'
    : TrigPin} {execs' : List (Nat × Nat)} {lastUpdate' : Option Nat} {lastArmed' : Nat} {frames' : List Frame}
    {expo' : Exposure} {rd' : Readout} {trk' : Track} {flt' : Filters} {s2' : List S2Frame} {sense' : List SenseUnit}
    {otp' : Otp}
    (h : Keeps r s) (rg : s.regs.wf → regs'.wf) (gr : s.groups.length = 32 → groups'.length = 32)
    (tb : s.tbs.length = 4 → tbs'.length = 4)
    (sl : s.slots.length = 64 → slots'.length = 64) (se : s.sense.length = 2 → sense'.length = 2)
    (gu : s.safety.guard.length = 4 → safety'.guard.length = 4) :
    Keeps r
    ⟨s.pending, s.out, free', s.up, s.now, s.dev, s.prev, s.cause, regs', hot', inForce', cpInForce', s.pllMain, pllCs',
    pllPv', domLost', trainAt', s.vddaon, groups', rig', boot', ctl', safety', cis', thermal', deal', vcPackets',
    ceVc', repl', joined', markerCount', markerAt', lastHeader', commits', cpCommits', dropped', covered', tbs', slots', reqs', gal', trig',
    execs', lastUpdate', lastArmed', frames', expo', rd', trk', flt', s2', sense', otp'⟩ :=
  ⟨h.toPersist.upd rg gr tb sl se gu, h.dev, h.prev, h.cause, h.vddaon, h.now, h.pllMain⟩

/-! ## Control structures -/

theorem Keeps.ite {r a b : State} {c : Prop} [Decidable c] (ha : Keeps r a) (hb : Keeps r b) :
    Keeps r (if c then a else b) := by split <;> assumption

/-- The state of a pair keeps. -/
def FstKeeps {α : Type} (r : State) (p : State × α) : Prop := Keeps r p.1

/-- The state of a pair that has it second keeps. -/
def SndKeeps {α : Type} (r : State) (p : α × State) : Prop := Keeps r p.2

theorem FstKeeps.mk {α : Type} {r a : State} {x : α} (h : Keeps r a) : FstKeeps r (a, x) := h

theorem SndKeeps.mk {α : Type} {r a : State} {x : α} (h : Keeps r a) : SndKeeps r (x, a) := h

theorem FstKeeps.ite {α : Type} {r : State} {a b : State × α} {c : Prop} [Decidable c] (ha : FstKeeps r a)
    (hb : FstKeeps r b) : FstKeeps r (if c then a else b) := by split <;> assumption

theorem FstKeeps.fst {α : Type} {r : State} {p : State × α} (h : FstKeeps r p) : Keeps r p.1 := h

theorem SndKeeps.snd {α : Type} {r : State} {p : α × State} (h : SndKeeps r p) : Keeps r p.2 := h

theorem Keeps.of_fst {α : Type} {r t : State} {p : State × α} {x : α} (e : p = (t, x)) (h : FstKeeps r p) : Keeps r t := by
  subst e; exact h

theorem Keeps.of_snd {α : Type} {r t : State} {p : α × State} {x : α} (e : p = (x, t)) (h : SndKeeps r p) : Keeps r t := by
  subst e; exact h

theorem Keeps.foldl {α : Type} {r s : State} {f : State → α → State} {l : List α} (h : Keeps r s)
    (hf : ∀ s x, Keeps r s → Keeps r (f s x)) : Keeps r (l.foldl f s) := by
  induction l generalizing s with
  | nil => exact h
  | cons x l ih => exact ih (hf s x h)

theorem FstKeeps.foldl {α β : Type} {r : State} {p : State × β} {f : State × β → α → State × β} {l : List α}
    (h : FstKeeps r p) (hf : ∀ s y x, Keeps r s → FstKeeps r (f (s, y) x)) : FstKeeps r (l.foldl f p) := by
  induction l generalizing p with
  | nil => exact h
  | cons x l ih => exact ih (hf p.1 p.2 x h)

/-- Every state an `Option` can hold keeps. -/
structure OptKeeps (r : State) (o : Option State) : Prop where
  some : ∀ t, o = Option.some t → Keeps r t

theorem OptKeeps.mkSome {r s : State} (h : Keeps r s) : OptKeeps r (Option.some s) := ⟨fun _ e => Option.some.inj e ▸ h⟩

theorem OptKeeps.mkNone {r : State} : OptKeeps r none := ⟨fun _ e => nomatch e⟩

theorem OptKeeps.map {α : Type} {r : State} {o : Option α} {f : α → State} (h : ∀ a, Keeps r (f a)) :
    OptKeeps r (o.map f) := by
  cases o with
  | none => exact OptKeeps.mkNone
  | some a => exact OptKeeps.mkSome (h a)

theorem OptKeeps.bind {α : Type} {r : State} {o : Option α} {f : α → Option State} (h : ∀ a, OptKeeps r (f a)) :
    OptKeeps r (o.bind f) := by
  cases o with
  | none => exact OptKeeps.mkNone
  | some a => exact h a

theorem OptKeeps.ite {r : State} {a b : Option State} {c : Prop} [Decidable c] (ha : OptKeeps r a) (hb : OptKeeps r b) :
    OptKeeps r (if c then a else b) := by split <;> assumption

theorem OptKeeps.of_eq {r t : State} {o : Option State} (e : o = Option.some t) (h : OptKeeps r o) : Keeps r t :=
  h.some t e

/-- A command's next state keeps. -/
structure OutKeeps (r : State) (o : Outcome State Fault Refusal) : Prop where
  next : ∀ t, o = .next t → Keeps r t

theorem OutKeeps.ok {r s : State} (h : Keeps r s) : OutKeeps r (ok s) :=
  ⟨fun _ e => Outcome.next.inj e ▸ h⟩

theorem OutKeeps.ite {r : State} {a b : Outcome State Fault Refusal} {c : Prop} [Decidable c] (ha : OutKeeps r a)
    (hb : OutKeeps r b) : OutKeeps r (if c then a else b) := by split <;> assumption

/-- A command's next state persists. -/
structure OutPersist (r : State) (o : Outcome State Fault Refusal) : Prop where
  next : ∀ t, o = .next t → Persist r t

theorem OutPersist.ok {r s : State} (h : Persist r s) : OutPersist r (ok s) :=
  ⟨fun _ e => Outcome.next.inj e ▸ h⟩

theorem OutPersist.ite {r : State} {a b : Outcome State Fault Refusal} {c : Prop} [Decidable c] (ha : OutPersist r a)
    (hb : OutPersist r b) : OutPersist r (if c then a else b) := by split <;> assumption

theorem OutKeeps.persist {r : State} {o : Outcome State Fault Refusal} (h : OutKeeps r o) : OutPersist r o :=
  ⟨fun t e => (h.next t e).toPersist⟩

theorem Persist.ite {r a b : State} {c : Prop} [Decidable c] (ha : Persist r a) (hb : Persist r b) :
    Persist r (if c then a else b) := by split <;> assumption

theorem Persist.via {r s t : State} (h : Persist r s) (k : Keeps s t) : Persist r t := h.trans k.toPersist

theorem Persist.of_fst {α : Type} {r s t : State} {p : State × α} {x : α} (e : p = (t, x)) (h : Persist r s)
    (k : FstKeeps s p) : Persist r t := by subst e; exact h.via k

theorem Persist.foldl {α : Type} {r s : State} {f : State → α → State} {l : List α} (h : Persist r s)
    (hf : ∀ s x, Persist r s → Persist r (f s x)) : Persist r (l.foldl f s) := by
  induction l generalizing s with
  | nil => exact h
  | cons x l ih => exact ih (hf s x h)

end Sys2Proof.Machine
end

