-- ==== Sys2Proof/Laws/OpsKeeps.lean ====
section
/-! SUPPORT. What the operations of Machine/Ops.lean keep. -/
namespace Sys2Proof.Machine

theorem State.raiseBits_keeps {r : State} {s : State} {a : Nat} {m : Nat} (h : Keeps r s) :
    Keeps r (State.raiseBits s a m) := by
  unfold State.raiseBits
  repeat' (first
    | with_reducible assumption
    | with_reducible exact rfl
    | with_reducible exact id
    | with_reducible exact RegFile.put_wf
    | with_reducible exact RegFile.setFld_wf
    | with_reducible exact RegFile.filter_wf
    | with_reducible exact fun w => RegFile.foldl_wf w (fun _ _ w => RegFile.put_wf w)
    | with_reducible exact (listModify_length _ _ _).trans
    | with_reducible exact fun _ => List.length_replicate
    | with_reducible exact List.length_map _ |>.trans
    | (intro x; refine (fun (hx : Keeps r x) => ?_) ?_; clear_value x; rotate_left; subst x)
    | (intro x; refine (fun (hx : FstKeeps r x) => ?_) ?_; clear_value x; rotate_left; subst x)
    | (intro x; refine (fun (hf0 : ∀ s, Keeps r s → Keeps r (x s)) => ?_) ?_; clear_value x; rotate_left; subst x; intro _ _)
    | (intro x; refine (fun (hf1 : ∀ s c, Keeps r s → Keeps r (x s c)) => ?_) ?_; clear_value x; rotate_left; subst x; intro _ _ _)
    | (intro x; refine (fun (hf2 : ∀ c, Keeps r (x c)) => ?_) ?_; clear_value x; rotate_left; subst x; intro _)
    | (intro x; have hs : (x : Safety) = x := rfl; clear hs; subst x)
    | (intro x; clear_value x)
    | (intro x)
    | lift_lets
    | with_reducible apply Keeps.ite
    | (with_reducible refine Keeps.foldl ?_ (fun _ _ _ => ?_))
    | with_reducible apply hf0
    | with_reducible apply hf2
    | with_reducible apply hf1
    | with_reducible apply Keeps.upd)

theorem State.set_keeps {r : State} {s : State} {f : Fld} {x : Nat} {i : Nat} {j : Nat} (h : Keeps r s) :
    Keeps r (State.set s f x i j) := by
  unfold State.set
  repeat' (first
    | with_reducible assumption
    | with_reducible exact rfl
    | with_reducible exact id
    | with_reducible exact RegFile.put_wf
    | with_reducible exact RegFile.setFld_wf
    | with_reducible exact RegFile.filter_wf
    | with_reducible exact fun w => RegFile.foldl_wf w (fun _ _ w => RegFile.put_wf w)
    | with_reducible exact (listModify_length _ _ _).trans
    | with_reducible exact fun _ => List.length_replicate
    | with_reducible exact List.length_map _ |>.trans
    | (intro x; refine (fun (hx : Keeps r x) => ?_) ?_; clear_value x; rotate_left; subst x)
    | (intro x; refine (fun (hx : FstKeeps r x) => ?_) ?_; clear_value x; rotate_left; subst x)
    | (intro x; refine (fun (hf0 : ∀ s, Keeps r s → Keeps r (x s)) => ?_) ?_; clear_value x; rotate_left; subst x; intro _ _)
    | (intro x; refine (fun (hf1 : ∀ s c, Keeps r s → Keeps r (x s c)) => ?_) ?_; clear_value x; rotate_left; subst x; intro _ _ _)
    | (intro x; refine (fun (hf2 : ∀ c, Keeps r (x c)) => ?_) ?_; clear_value x; rotate_left; subst x; intro _)
    | (intro x; have hs : (x : Safety) = x := rfl; clear hs; subst x)
    | (intro x; clear_value x)
    | (intro x)
    | lift_lets
    | with_reducible apply Keeps.ite
    | (with_reducible refine Keeps.foldl ?_ (fun _ _ _ => ?_))
    | with_reducible apply hf0
    | with_reducible apply hf2
    | with_reducible apply hf1
    | with_reducible apply Keeps.upd)

theorem State.setS_keeps {r : State} {s : State} {f : Fld} {x : Int} {i : Nat} {j : Nat} (h : Keeps r s) :
    Keeps r (State.setS s f x i j) := by
  unfold State.setS
  repeat' (first
    | with_reducible assumption
    | with_reducible exact rfl
    | with_reducible exact id
    | with_reducible exact RegFile.put_wf
    | with_reducible exact RegFile.setFld_wf
    | with_reducible exact RegFile.filter_wf
    | with_reducible exact fun w => RegFile.foldl_wf w (fun _ _ w => RegFile.put_wf w)
    | with_reducible exact (listModify_length _ _ _).trans
    | with_reducible exact fun _ => List.length_replicate
    | with_reducible exact List.length_map _ |>.trans
    | (intro x; refine (fun (hx : Keeps r x) => ?_) ?_; clear_value x; rotate_left; subst x)
    | (intro x; refine (fun (hx : FstKeeps r x) => ?_) ?_; clear_value x; rotate_left; subst x)
    | (intro x; refine (fun (hf0 : ∀ s, Keeps r s → Keeps r (x s)) => ?_) ?_; clear_value x; rotate_left; subst x; intro _ _)
    | (intro x; refine (fun (hf1 : ∀ s c, Keeps r s → Keeps r (x s c)) => ?_) ?_; clear_value x; rotate_left; subst x; intro _ _ _)
    | (intro x; refine (fun (hf2 : ∀ c, Keeps r (x c)) => ?_) ?_; clear_value x; rotate_left; subst x; intro _)
    | (intro x; have hs : (x : Safety) = x := rfl; clear hs; subst x)
    | (intro x; clear_value x)
    | (intro x)
    | lift_lets
    | with_reducible apply State.set_keeps
    | with_reducible apply Keeps.ite
    | (with_reducible refine Keeps.foldl ?_ (fun _ _ _ => ?_))
    | with_reducible apply hf0
    | with_reducible apply hf2
    | with_reducible apply hf1
    | with_reducible apply Keeps.upd)

theorem State.bump_keeps {r : State} {s : State} {f : Fld} {n : Nat} {i : Nat} {j : Nat} (h : Keeps r s) :
    Keeps r (State.bump s f n i j) := by
  unfold State.bump
  repeat' (first
    | with_reducible assumption
    | with_reducible exact rfl
    | with_reducible exact id
    | with_reducible exact RegFile.put_wf
    | with_reducible exact RegFile.setFld_wf
    | with_reducible exact RegFile.filter_wf
    | with_reducible exact fun w => RegFile.foldl_wf w (fun _ _ w => RegFile.put_wf w)
    | with_reducible exact (listModify_length _ _ _).trans
    | with_reducible exact fun _ => List.length_replicate
    | with_reducible exact List.length_map _ |>.trans
    | (intro x; refine (fun (hx : Keeps r x) => ?_) ?_; clear_value x; rotate_left; subst x)
    | (intro x; refine (fun (hx : FstKeeps r x) => ?_) ?_; clear_value x; rotate_left; subst x)
    | (intro x; refine (fun (hf0 : ∀ s, Keeps r s → Keeps r (x s)) => ?_) ?_; clear_value x; rotate_left; subst x; intro _ _)
    | (intro x; refine (fun (hf1 : ∀ s c, Keeps r s → Keeps r (x s c)) => ?_) ?_; clear_value x; rotate_left; subst x; intro _ _ _)
    | (intro x; refine (fun (hf2 : ∀ c, Keeps r (x c)) => ?_) ?_; clear_value x; rotate_left; subst x; intro _)
    | (intro x; have hs : (x : Safety) = x := rfl; clear hs; subst x)
    | (intro x; clear_value x)
    | (intro x)
    | lift_lets
    | with_reducible apply State.set_keeps
    | with_reducible apply Keeps.ite
    | (with_reducible refine Keeps.foldl ?_ (fun _ _ _ => ?_))
    | with_reducible apply hf0
    | with_reducible apply hf2
    | with_reducible apply hf1
    | with_reducible apply Keeps.upd)

theorem State.emit_keeps {r s : State} {o : Out} (h : Keeps r s) : Keeps r (s.emit o) :=
  ⟨⟨h.pending, h.up, h.out.trans (List.suffix_cons o s.out), h.wf⟩, h.dev, h.prev, h.cause, h.vddaon, h.now, h.pllMain⟩

theorem State.setGroup_keeps {r : State} {s : State} {g : Nat} {f : Group → Group} (h : Keeps r s) :
    Keeps r (State.setGroup s g f) := by
  unfold State.setGroup
  repeat' (first
    | with_reducible assumption
    | with_reducible exact rfl
    | with_reducible exact id
    | with_reducible exact RegFile.put_wf
    | with_reducible exact RegFile.setFld_wf
    | with_reducible exact RegFile.filter_wf
    | with_reducible exact fun w => RegFile.foldl_wf w (fun _ _ w => RegFile.put_wf w)
    | with_reducible exact (listModify_length _ _ _).trans
    | with_reducible exact fun _ => List.length_replicate
    | with_reducible exact List.length_map _ |>.trans
    | (intro x; refine (fun (hx : Keeps r x) => ?_) ?_; clear_value x; rotate_left; subst x)
    | (intro x; refine (fun (hx : FstKeeps r x) => ?_) ?_; clear_value x; rotate_left; subst x)
    | (intro x; refine (fun (hf0 : ∀ s, Keeps r s → Keeps r (x s)) => ?_) ?_; clear_value x; rotate_left; subst x; intro _ _)
    | (intro x; refine (fun (hf1 : ∀ s c, Keeps r s → Keeps r (x s c)) => ?_) ?_; clear_value x; rotate_left; subst x; intro _ _ _)
    | (intro x; refine (fun (hf2 : ∀ c, Keeps r (x c)) => ?_) ?_; clear_value x; rotate_left; subst x; intro _)
    | (intro x; have hs : (x : Safety) = x := rfl; clear hs; subst x)
    | (intro x; clear_value x)
    | (intro x)
    | lift_lets
    | with_reducible apply Keeps.ite
    | (with_reducible refine Keeps.foldl ?_ (fun _ _ _ => ?_))
    | with_reducible apply hf0
    | with_reducible apply hf2
    | with_reducible apply hf1
    | with_reducible apply Keeps.upd)

theorem State.takeFree_keeps {r : State} {s : State} (h : Keeps r s) :
    SndKeeps r (State.takeFree s) := by
  unfold State.takeFree
  repeat' (first
    | with_reducible assumption
    | with_reducible exact rfl
    | with_reducible exact id
    | with_reducible exact RegFile.put_wf
    | with_reducible exact RegFile.setFld_wf
    | with_reducible exact RegFile.filter_wf
    | with_reducible exact fun w => RegFile.foldl_wf w (fun _ _ w => RegFile.put_wf w)
    | with_reducible exact (listModify_length _ _ _).trans
    | with_reducible exact fun _ => List.length_replicate
    | with_reducible exact List.length_map _ |>.trans
    | (intro x; refine (fun (hx : Keeps r x) => ?_) ?_; clear_value x; rotate_left; subst x)
    | (intro x; refine (fun (hx : FstKeeps r x) => ?_) ?_; clear_value x; rotate_left; subst x)
    | (intro x; refine (fun (hf0 : ∀ s, Keeps r s → Keeps r (x s)) => ?_) ?_; clear_value x; rotate_left; subst x; intro _ _)
    | (intro x; refine (fun (hf1 : ∀ s c, Keeps r s → Keeps r (x s c)) => ?_) ?_; clear_value x; rotate_left; subst x; intro _ _ _)
    | (intro x; refine (fun (hf2 : ∀ c, Keeps r (x c)) => ?_) ?_; clear_value x; rotate_left; subst x; intro _)
    | (intro x; have hs : (x : Safety) = x := rfl; clear hs; subst x)
    | (intro x; clear_value x)
    | (intro x)
    | lift_lets
    | with_reducible apply Keeps.ite
    | (with_reducible refine Keeps.foldl ?_ (fun _ _ _ => ?_))
    | with_reducible apply FstKeeps.ite
    | (with_reducible refine FstKeeps.foldl ?_ (fun _ _ _ _ => ?_))
    | with_reducible apply hf0
    | with_reducible apply hf2
    | with_reducible apply hf1
    | with_reducible apply FstKeeps.mk
    | with_reducible apply SndKeeps.mk
    | with_reducible apply Keeps.upd)

theorem State.regStore_keeps {r : State} {s : State} {a : Nat} {v : Word} (h : Keeps r s) :
    Keeps r (State.regStore s a v) := by
  unfold State.regStore
  repeat' (first
    | with_reducible assumption
    | with_reducible exact rfl
    | with_reducible exact id
    | with_reducible exact RegFile.put_wf
    | with_reducible exact RegFile.setFld_wf
    | with_reducible exact RegFile.filter_wf
    | with_reducible exact fun w => RegFile.foldl_wf w (fun _ _ w => RegFile.put_wf w)
    | with_reducible exact (listModify_length _ _ _).trans
    | with_reducible exact fun _ => List.length_replicate
    | with_reducible exact List.length_map _ |>.trans
    | (intro x; refine (fun (hx : Keeps r x) => ?_) ?_; clear_value x; rotate_left; subst x)
    | (intro x; refine (fun (hx : FstKeeps r x) => ?_) ?_; clear_value x; rotate_left; subst x)
    | (intro x; refine (fun (hf0 : ∀ s, Keeps r s → Keeps r (x s)) => ?_) ?_; clear_value x; rotate_left; subst x; intro _ _)
    | (intro x; refine (fun (hf1 : ∀ s c, Keeps r s → Keeps r (x s c)) => ?_) ?_; clear_value x; rotate_left; subst x; intro _ _ _)
    | (intro x; refine (fun (hf2 : ∀ c, Keeps r (x c)) => ?_) ?_; clear_value x; rotate_left; subst x; intro _)
    | (intro x; have hs : (x : Safety) = x := rfl; clear hs; subst x)
    | (intro x; clear_value x)
    | (intro x)
    | lift_lets
    | (refine Keeps.of_fst ‹_ = (_, _)› ?_)
    | with_reducible apply Keeps.ite
    | (with_reducible refine Keeps.foldl ?_ (fun _ _ _ => ?_))
    | with_reducible apply FstKeeps.ite
    | (with_reducible refine FstKeeps.foldl ?_ (fun _ _ _ _ => ?_))
    | with_reducible apply hf0
    | with_reducible apply hf2
    | with_reducible apply hf1
    | split
    | with_reducible apply FstKeeps.mk
    | with_reducible apply Keeps.upd)

theorem State.domSet_keeps {r : State} {s : State} {i : Nat} {on : Bool} (h : Keeps r s) :
    Keeps r (State.domSet s i on) := by
  unfold State.domSet
  repeat' (first
    | with_reducible assumption
    | with_reducible exact rfl
    | with_reducible exact id
    | with_reducible exact RegFile.put_wf
    | with_reducible exact RegFile.setFld_wf
    | with_reducible exact RegFile.filter_wf
    | with_reducible exact fun w => RegFile.foldl_wf w (fun _ _ w => RegFile.put_wf w)
    | with_reducible exact (listModify_length _ _ _).trans
    | with_reducible exact fun _ => List.length_replicate
    | with_reducible exact List.length_map _ |>.trans
    | (intro x; refine (fun (hx : Keeps r x) => ?_) ?_; clear_value x; rotate_left; subst x)
    | (intro x; refine (fun (hx : FstKeeps r x) => ?_) ?_; clear_value x; rotate_left; subst x)
    | (intro x; refine (fun (hf0 : ∀ s, Keeps r s → Keeps r (x s)) => ?_) ?_; clear_value x; rotate_left; subst x; intro _ _)
    | (intro x; refine (fun (hf1 : ∀ s c, Keeps r s → Keeps r (x s c)) => ?_) ?_; clear_value x; rotate_left; subst x; intro _ _ _)
    | (intro x; refine (fun (hf2 : ∀ c, Keeps r (x c)) => ?_) ?_; clear_value x; rotate_left; subst x; intro _)
    | (intro x; have hs : (x : Safety) = x := rfl; clear hs; subst x)
    | (intro x; clear_value x)
    | (intro x)
    | lift_lets
    | with_reducible apply State.set_keeps
    | with_reducible apply Keeps.ite
    | (with_reducible refine Keeps.foldl ?_ (fun _ _ _ => ?_))
    | with_reducible apply hf0
    | with_reducible apply hf2
    | with_reducible apply hf1
    | with_reducible apply Keeps.upd)

theorem State.mainWrite_keeps {r s t : State} (h : Keeps r s) (ht : Keeps r t) : Keeps r (s.mainWrite t) :=
  Keeps.ite ht (Keeps.ite (State.bump_keeps h) (Keeps.ite (State.set_keeps h) h))

theorem State.mainWrite_persists {r s t : State} (h : Persist r s) (ht : Persist r t) : Persist r (s.mainWrite t) :=
  Persist.ite ht (Persist.ite (h.via (State.bump_keeps (Keeps.refl _)))
    (Persist.ite (h.via (State.set_keeps (Keeps.refl _))) h))

theorem State.mainRead_keeps {r s : State} {p : State × Word} (h : Keeps r s) (hp : FstKeeps r p) :
    Keeps r (s.mainRead p) :=
  Keeps.ite h (Keeps.ite (State.emit_keeps (State.set_keeps h)) (State.emit_keeps hp))

theorem State.raiseIbi_keeps {r : State} {s : State} {bit : Nat} (h : Keeps r s) :
    Keeps r (State.raiseIbi s bit) := by
  unfold State.raiseIbi
  repeat' (first
    | with_reducible assumption
    | with_reducible exact rfl
    | with_reducible exact id
    | with_reducible exact RegFile.put_wf
    | with_reducible exact RegFile.setFld_wf
    | with_reducible exact RegFile.filter_wf
    | with_reducible exact fun w => RegFile.foldl_wf w (fun _ _ w => RegFile.put_wf w)
    | with_reducible exact (listModify_length _ _ _).trans
    | with_reducible exact fun _ => List.length_replicate
    | with_reducible exact List.length_map _ |>.trans
    | (intro x; refine (fun (hx : Keeps r x) => ?_) ?_; clear_value x; rotate_left; subst x)
    | (intro x; refine (fun (hx : FstKeeps r x) => ?_) ?_; clear_value x; rotate_left; subst x)
    | (intro x; refine (fun (hf0 : ∀ s, Keeps r s → Keeps r (x s)) => ?_) ?_; clear_value x; rotate_left; subst x; intro _ _)
    | (intro x; refine (fun (hf1 : ∀ s c, Keeps r s → Keeps r (x s c)) => ?_) ?_; clear_value x; rotate_left; subst x; intro _ _ _)
    | (intro x; refine (fun (hf2 : ∀ c, Keeps r (x c)) => ?_) ?_; clear_value x; rotate_left; subst x; intro _)
    | (intro x; have hs : (x : Safety) = x := rfl; clear hs; subst x)
    | (intro x; clear_value x)
    | (intro x)
    | lift_lets
    | with_reducible apply State.raiseBits_keeps
    | with_reducible apply Keeps.ite
    | (with_reducible refine Keeps.foldl ?_ (fun _ _ _ => ?_))
    | with_reducible apply hf0
    | with_reducible apply hf2
    | with_reducible apply hf1
    | with_reducible apply Keeps.upd)

theorem State.raiseIbi_persists {r : State} {s : State} {bit : Nat} (h : Persist r s) : Persist r (State.raiseIbi s bit) :=
  h.via (State.raiseIbi_keeps (Keeps.refl _))

theorem State.setFault_keeps {r : State} {s : State} {b : Nat} (h : Keeps r s) :
    Keeps r (State.setFault s b) := by
  unfold State.setFault
  repeat' (first
    | with_reducible assumption
    | with_reducible exact rfl
    | with_reducible exact id
    | with_reducible exact RegFile.put_wf
    | with_reducible exact RegFile.setFld_wf
    | with_reducible exact RegFile.filter_wf
    | with_reducible exact fun w => RegFile.foldl_wf w (fun _ _ w => RegFile.put_wf w)
    | with_reducible exact (listModify_length _ _ _).trans
    | with_reducible exact fun _ => List.length_replicate
    | with_reducible exact List.length_map _ |>.trans
    | (intro x; refine (fun (hx : Keeps r x) => ?_) ?_; clear_value x; rotate_left; subst x)
    | (intro x; refine (fun (hx : FstKeeps r x) => ?_) ?_; clear_value x; rotate_left; subst x)
    | (intro x; refine (fun (hf0 : ∀ s, Keeps r s → Keeps r (x s)) => ?_) ?_; clear_value x; rotate_left; subst x; intro _ _)
    | (intro x; refine (fun (hf1 : ∀ s c, Keeps r s → Keeps r (x s c)) => ?_) ?_; clear_value x; rotate_left; subst x; intro _ _ _)
    | (intro x; refine (fun (hf2 : ∀ c, Keeps r (x c)) => ?_) ?_; clear_value x; rotate_left; subst x; intro _)
    | (intro x; have hs : (x : Safety) = x := rfl; clear hs; subst x)
    | (intro x; clear_value x)
    | (intro x)
    | lift_lets
    | with_reducible apply State.raiseIbi_keeps
    | with_reducible apply State.raiseBits_keeps
    | with_reducible apply Keeps.ite
    | (with_reducible refine Keeps.foldl ?_ (fun _ _ _ => ?_))
    | with_reducible apply hf0
    | with_reducible apply hf2
    | with_reducible apply hf1
    | with_reducible apply Keeps.upd)

theorem State.enter_persist {r : State} {s : State} {d : DevState} {c : Cause} (h : Persist r s) :
    Persist r (State.enter s d c) := by
  unfold State.enter
  repeat' (first
    | with_reducible assumption
    | with_reducible exact rfl
    | with_reducible exact id
    | with_reducible exact RegFile.put_wf
    | with_reducible exact RegFile.setFld_wf
    | with_reducible exact RegFile.filter_wf
    | with_reducible exact fun w => RegFile.foldl_wf w (fun _ _ w => RegFile.put_wf w)
    | with_reducible exact (listModify_length _ _ _).trans
    | with_reducible exact fun _ => List.length_replicate
    | with_reducible exact List.length_map _ |>.trans
    | (intro x; refine (fun (hx : Persist r x) => ?_) ?_; clear_value x; rotate_left; subst x)
    | (intro x; have hs : (x : Safety) = x := rfl; clear hs; subst x)
    | (intro x; clear_value x)
    | (intro x)
    | lift_lets
    | with_reducible apply State.raiseIbi_persists
    | with_reducible apply Persist.ite
    | (with_reducible refine Persist.foldl ?_ (fun _ _ _ => ?_))
    | with_reducible apply Persist.upd)

end Sys2Proof.Machine
end

