-- ==== Sys2Proof/Laws/LineKeeps.lean ====
section
/-! SUPPORT. What the operations of Machine/Line.lean keep. -/
namespace Sys2Proof.Machine

theorem State.setLine_keeps {r : State} {s : State} {port : Nat} {l : Line} (h : Keeps r s) :
    Keeps r (State.setLine s port l) := by
  unfold State.setLine
  repeat' (first
    | with_reducible assumption
    | with_reducible exact rfl
    | with_reducible exact id
    | with_reducible exact RegFile.put_wf
    | with_reducible exact RegFile.setFld_wf
    | with_reducible exact RegFile.filter_wf
    | with_reducible exact fun w => RegFile.foldl_wf w (fun _ _ w => RegFile.put_wf w)
    | with_reducible exact (listModify_length _ _ _).trans
    | with_reducible exact fun _ => List.length_replicate
    | with_reducible exact List.length_map _ |>.trans
    | (intro x; refine (fun (hx : Keeps r x) => ?_) ?_; clear_value x; rotate_left; subst x)
    | (intro x; refine (fun (hx : FstKeeps r x) => ?_) ?_; clear_value x; rotate_left; subst x)
    | (intro x; refine (fun (hf0 : ∀ s, Keeps r s → Keeps r (x s)) => ?_) ?_; clear_value x; rotate_left; subst x; intro _ _)
    | (intro x; refine (fun (hf1 : ∀ s c, Keeps r s → Keeps r (x s c)) => ?_) ?_; clear_value x; rotate_left; subst x; intro _ _ _)
    | (intro x; refine (fun (hf2 : ∀ c, Keeps r (x c)) => ?_) ?_; clear_value x; rotate_left; subst x; intro _)
    | (intro x; have hs : (x : Safety) = x := rfl; clear hs; subst x)
    | (intro x; clear_value x)
    | (intro x)
    | lift_lets
    | with_reducible apply State.setGroup_keeps
    | with_reducible apply Keeps.ite
    | (with_reducible refine Keeps.foldl ?_ (fun _ _ _ => ?_))
    | with_reducible apply hf0
    | with_reducible apply hf2
    | with_reducible apply hf1
    | with_reducible apply Keeps.upd)

theorem State.fillIdle_keeps {r : State} {s : State} {port : Nat} {slots : Nat} (h : Keeps r s) :
    Keeps r (State.fillIdle s port slots) := by
  unfold State.fillIdle
  repeat' (first
    | with_reducible assumption
    | with_reducible exact rfl
    | with_reducible exact id
    | with_reducible exact RegFile.put_wf
    | with_reducible exact RegFile.setFld_wf
    | with_reducible exact RegFile.filter_wf
    | with_reducible exact fun w => RegFile.foldl_wf w (fun _ _ w => RegFile.put_wf w)
    | with_reducible exact (listModify_length _ _ _).trans
    | with_reducible exact fun _ => List.length_replicate
    | with_reducible exact List.length_map _ |>.trans
    | (intro x; refine (fun (hx : Keeps r x) => ?_) ?_; clear_value x; rotate_left; subst x)
    | (intro x; refine (fun (hx : FstKeeps r x) => ?_) ?_; clear_value x; rotate_left; subst x)
    | (intro x; refine (fun (hf0 : ∀ s, Keeps r s → Keeps r (x s)) => ?_) ?_; clear_value x; rotate_left; subst x; intro _ _)
    | (intro x; refine (fun (hf1 : ∀ s c, Keeps r s → Keeps r (x s c)) => ?_) ?_; clear_value x; rotate_left; subst x; intro _ _ _)
    | (intro x; refine (fun (hf2 : ∀ c, Keeps r (x c)) => ?_) ?_; clear_value x; rotate_left; subst x; intro _)
    | (intro x; have hs : (x : Safety) = x := rfl; clear hs; subst x)
    | (intro x; clear_value x)
    | (intro x)
    | lift_lets
    | with_reducible apply State.emit_keeps
    | with_reducible apply State.setLine_keeps
    | with_reducible apply Keeps.ite
    | (with_reducible refine Keeps.foldl ?_ (fun _ _ _ => ?_))
    | with_reducible apply hf0
    | with_reducible apply hf2
    | with_reducible apply hf1
    | with_reducible apply Keeps.upd)

theorem State.sendBlocks_keeps {r : State} {s : State} {port : Nat} {blocks : List (Bool × Nat)} (h : Keeps r s) :
    Keeps r (State.sendBlocks s port blocks) := by
  unfold State.sendBlocks
  repeat' (first
    | with_reducible assumption
    | with_reducible exact rfl
    | with_reducible exact id
    | with_reducible exact RegFile.put_wf
    | with_reducible exact RegFile.setFld_wf
    | with_reducible exact RegFile.filter_wf
    | with_reducible exact fun w => RegFile.foldl_wf w (fun _ _ w => RegFile.put_wf w)
    | with_reducible exact (listModify_length _ _ _).trans
    | with_reducible exact fun _ => List.length_replicate
    | with_reducible exact List.length_map _ |>.trans
    | (intro x; refine (fun (hx : Keeps r x) => ?_) ?_; clear_value x; rotate_left; subst x)
    | (intro x; refine (fun (hx : FstKeeps r x) => ?_) ?_; clear_value x; rotate_left; subst x)
    | (intro x; refine (fun (hf0 : ∀ s, Keeps r s → Keeps r (x s)) => ?_) ?_; clear_value x; rotate_left; subst x; intro _ _)
    | (intro x; refine (fun (hf1 : ∀ s c, Keeps r s → Keeps r (x s c)) => ?_) ?_; clear_value x; rotate_left; subst x; intro _ _ _)
    | (intro x; refine (fun (hf2 : ∀ c, Keeps r (x c)) => ?_) ?_; clear_value x; rotate_left; subst x; intro _)
    | (intro x; have hs : (x : Safety) = x := rfl; clear hs; subst x)
    | (intro x; clear_value x)
    | (intro x)
    | lift_lets
    | with_reducible apply State.fillIdle_keeps
    | with_reducible apply State.emit_keeps
    | with_reducible apply State.setLine_keeps
    | (refine Keeps.of_fst ‹_ = (_, _)› ?_)
    | with_reducible apply Keeps.ite
    | (with_reducible refine Keeps.foldl ?_ (fun _ _ _ => ?_))
    | with_reducible apply FstKeeps.ite
    | (with_reducible refine FstKeeps.foldl ?_ (fun _ _ _ _ => ?_))
    | with_reducible apply hf0
    | with_reducible apply hf2
    | with_reducible apply hf1
    | split
    | with_reducible apply FstKeeps.mk
    | with_reducible apply Keeps.upd)

theorem State.startLine_keeps {r : State} {s : State} {port : Nat} {lanes : Nat} (h : Keeps r s) :
    Keeps r (State.startLine s port lanes) := by
  unfold State.startLine
  repeat' (first
    | with_reducible assumption
    | with_reducible exact rfl
    | with_reducible exact id
    | with_reducible exact RegFile.put_wf
    | with_reducible exact RegFile.setFld_wf
    | with_reducible exact RegFile.filter_wf
    | with_reducible exact fun w => RegFile.foldl_wf w (fun _ _ w => RegFile.put_wf w)
    | with_reducible exact (listModify_length _ _ _).trans
    | with_reducible exact fun _ => List.length_replicate
    | with_reducible exact List.length_map _ |>.trans
    | (intro x; refine (fun (hx : Keeps r x) => ?_) ?_; clear_value x; rotate_left; subst x)
    | (intro x; refine (fun (hx : FstKeeps r x) => ?_) ?_; clear_value x; rotate_left; subst x)
    | (intro x; refine (fun (hf0 : ∀ s, Keeps r s → Keeps r (x s)) => ?_) ?_; clear_value x; rotate_left; subst x; intro _ _)
    | (intro x; refine (fun (hf1 : ∀ s c, Keeps r s → Keeps r (x s c)) => ?_) ?_; clear_value x; rotate_left; subst x; intro _ _ _)
    | (intro x; refine (fun (hf2 : ∀ c, Keeps r (x c)) => ?_) ?_; clear_value x; rotate_left; subst x; intro _)
    | (intro x; have hs : (x : Safety) = x := rfl; clear hs; subst x)
    | (intro x; clear_value x)
    | (intro x)
    | lift_lets
    | with_reducible apply State.setLine_keeps
    | with_reducible apply Keeps.ite
    | (with_reducible refine Keeps.foldl ?_ (fun _ _ _ => ?_))
    | with_reducible apply hf0
    | with_reducible apply hf2
    | with_reducible apply hf1
    | with_reducible apply Keeps.upd)

theorem State.lineAfterMarker_keeps {r : State} {s : State} {port : Nat} (h : Keeps r s) :
    Keeps r (State.lineAfterMarker s port) := by
  unfold State.lineAfterMarker
  repeat' (first
    | with_reducible assumption
    | with_reducible exact rfl
    | with_reducible exact id
    | with_reducible exact RegFile.put_wf
    | with_reducible exact RegFile.setFld_wf
    | with_reducible exact RegFile.filter_wf
    | with_reducible exact fun w => RegFile.foldl_wf w (fun _ _ w => RegFile.put_wf w)
    | with_reducible exact (listModify_length _ _ _).trans
    | with_reducible exact fun _ => List.length_replicate
    | with_reducible exact List.length_map _ |>.trans
    | (intro x; refine (fun (hx : Keeps r x) => ?_) ?_; clear_value x; rotate_left; subst x)
    | (intro x; refine (fun (hx : FstKeeps r x) => ?_) ?_; clear_value x; rotate_left; subst x)
    | (intro x; refine (fun (hf0 : ∀ s, Keeps r s → Keeps r (x s)) => ?_) ?_; clear_value x; rotate_left; subst x; intro _ _)
    | (intro x; refine (fun (hf1 : ∀ s c, Keeps r s → Keeps r (x s c)) => ?_) ?_; clear_value x; rotate_left; subst x; intro _ _ _)
    | (intro x; refine (fun (hf2 : ∀ c, Keeps r (x c)) => ?_) ?_; clear_value x; rotate_left; subst x; intro _)
    | (intro x; have hs : (x : Safety) = x := rfl; clear hs; subst x)
    | (intro x; clear_value x)
    | (intro x)
    | lift_lets
    | with_reducible apply State.setLine_keeps
    | with_reducible apply State.emit_keeps
    | (refine Keeps.of_fst ‹_ = (_, _)› ?_)
    | with_reducible apply Keeps.ite
    | (with_reducible refine Keeps.foldl ?_ (fun _ _ _ => ?_))
    | with_reducible apply FstKeeps.ite
    | (with_reducible refine FstKeeps.foldl ?_ (fun _ _ _ _ => ?_))
    | with_reducible apply hf0
    | with_reducible apply hf2
    | with_reducible apply hf1
    | split
    | with_reducible apply FstKeeps.mk
    | with_reducible apply Keeps.upd)

end Sys2Proof.Machine
end

