-- ==== Sys2Proof/Laws/PacketsKeeps.lean ====
section
/-! SUPPORT. What the operations of Machine/Packets.lean keep. -/
namespace Sys2Proof.Machine

theorem State.refreshWait_keeps {r : State} {s : State} {g : Nat} (h : Keeps r s) :
    Keeps r (State.refreshWait s g) := by
  unfold State.refreshWait
  repeat' (first
    | with_reducible assumption
    | with_reducible exact rfl
    | with_reducible exact id
    | with_reducible exact RegFile.put_wf
    | with_reducible exact RegFile.setFld_wf
    | with_reducible exact RegFile.filter_wf
    | with_reducible exact fun w => RegFile.foldl_wf w (fun _ _ w => RegFile.put_wf w)
    | with_reducible exact (listModify_length _ _ _).trans
    | with_reducible exact fun _ => List.length_replicate
    | with_reducible exact List.length_map _ |>.trans
    | (intro x; refine (fun (hx : Keeps r x) => ?_) ?_; clear_value x; rotate_left; subst x)
    | (intro x; refine (fun (hx : FstKeeps r x) => ?_) ?_; clear_value x; rotate_left; subst x)
    | (intro x; refine (fun (hf0 : ∀ s, Keeps r s → Keeps r (x s)) => ?_) ?_; clear_value x; rotate_left; subst x; intro _ _)
    | (intro x; refine (fun (hf1 : ∀ s c, Keeps r s → Keeps r (x s c)) => ?_) ?_; clear_value x; rotate_left; subst x; intro _ _ _)
    | (intro x; refine (fun (hf2 : ∀ c, Keeps r (x c)) => ?_) ?_; clear_value x; rotate_left; subst x; intro _)
    | (intro x; have hs : (x : Safety) = x := rfl; clear hs; subst x)
    | (intro x; clear_value x)
    | (intro x)
    | lift_lets
    | with_reducible apply State.setGroup_keeps
    | (refine Keeps.of_fst ‹_ = (_, _)› ?_)
    | with_reducible apply Keeps.ite
    | (with_reducible refine Keeps.foldl ?_ (fun _ _ _ => ?_))
    | with_reducible apply FstKeeps.ite
    | (with_reducible refine FstKeeps.foldl ?_ (fun _ _ _ _ => ?_))
    | with_reducible apply hf0
    | with_reducible apply hf2
    | with_reducible apply hf1
    | split
    | with_reducible apply FstKeeps.mk
    | with_reducible apply Keeps.upd)

theorem State.tookShare_keeps {r : State} {s : State} {r' : Nat} {ns : Rat} (h : Keeps r s) :
    Keeps r (State.tookShare s r' ns) := by
  unfold State.tookShare
  repeat' (first
    | with_reducible assumption
    | with_reducible exact rfl
    | with_reducible exact id
    | with_reducible exact RegFile.put_wf
    | with_reducible exact RegFile.setFld_wf
    | with_reducible exact RegFile.filter_wf
    | with_reducible exact fun w => RegFile.foldl_wf w (fun _ _ w => RegFile.put_wf w)
    | with_reducible exact (listModify_length _ _ _).trans
    | with_reducible exact fun _ => List.length_replicate
    | with_reducible exact List.length_map _ |>.trans
    | (intro x; refine (fun (hx : Keeps r x) => ?_) ?_; clear_value x; rotate_left; subst x)
    | (intro x; refine (fun (hx : FstKeeps r x) => ?_) ?_; clear_value x; rotate_left; subst x)
    | (intro x; refine (fun (hf0 : ∀ s, Keeps r s → Keeps r (x s)) => ?_) ?_; clear_value x; rotate_left; subst x; intro _ _)
    | (intro x; refine (fun (hf1 : ∀ s c, Keeps r s → Keeps r (x s c)) => ?_) ?_; clear_value x; rotate_left; subst x; intro _ _ _)
    | (intro x; refine (fun (hf2 : ∀ c, Keeps r (x c)) => ?_) ?_; clear_value x; rotate_left; subst x; intro _)
    | (intro x; have hs : (x : Safety) = x := rfl; clear hs; subst x)
    | (intro x; clear_value x)
    | (intro x)
    | lift_lets
    | with_reducible apply Keeps.ite
    | (with_reducible refine Keeps.foldl ?_ (fun _ _ _ => ?_))
    | with_reducible apply hf0
    | with_reducible apply hf2
    | with_reducible apply hf1
    | with_reducible apply Keeps.upd)

theorem State.ce2_keeps {r : State} {s : State} {v : Nat} {bs : List Byte} (h : Keeps r s) :
    Keeps r (State.ce2 s v bs) := by
  unfold State.ce2
  repeat' (first
    | with_reducible assumption
    | with_reducible exact rfl
    | with_reducible exact id
    | with_reducible exact RegFile.put_wf
    | with_reducible exact RegFile.setFld_wf
    | with_reducible exact RegFile.filter_wf
    | with_reducible exact fun w => RegFile.foldl_wf w (fun _ _ w => RegFile.put_wf w)
    | with_reducible exact (listModify_length _ _ _).trans
    | with_reducible exact fun _ => List.length_replicate
    | with_reducible exact List.length_map _ |>.trans
    | (intro x; refine (fun (hx : Keeps r x) => ?_) ?_; clear_value x; rotate_left; subst x)
    | (intro x; refine (fun (hx : FstKeeps r x) => ?_) ?_; clear_value x; rotate_left; subst x)
    | (intro x; refine (fun (hf0 : ∀ s, Keeps r s → Keeps r (x s)) => ?_) ?_; clear_value x; rotate_left; subst x; intro _ _)
    | (intro x; refine (fun (hf1 : ∀ s c, Keeps r s → Keeps r (x s c)) => ?_) ?_; clear_value x; rotate_left; subst x; intro _ _ _)
    | (intro x; refine (fun (hf2 : ∀ c, Keeps r (x c)) => ?_) ?_; clear_value x; rotate_left; subst x; intro _)
    | (intro x; have hs : (x : Safety) = x := rfl; clear hs; subst x)
    | (intro x; clear_value x)
    | (intro x)
    | lift_lets
    | with_reducible apply State.set_keeps
    | (refine Keeps.of_fst ‹_ = (_, _)› ?_)
    | with_reducible apply Keeps.ite
    | (with_reducible refine Keeps.foldl ?_ (fun _ _ _ => ?_))
    | with_reducible apply FstKeeps.ite
    | (with_reducible refine FstKeeps.foldl ?_ (fun _ _ _ _ => ?_))
    | with_reducible apply hf0
    | with_reducible apply hf2
    | with_reducible apply hf1
    | split
    | with_reducible apply FstKeeps.mk
    | with_reducible apply Keeps.upd)

theorem State.ceLoad_keeps {r : State} {s : State} {v : Nat} {x : Nat} (h : Keeps r s) :
    Keeps r (State.ceLoad s v x) := by
  unfold State.ceLoad
  repeat' (first
    | with_reducible assumption
    | with_reducible exact rfl
    | with_reducible exact id
    | with_reducible exact RegFile.put_wf
    | with_reducible exact RegFile.setFld_wf
    | with_reducible exact RegFile.filter_wf
    | with_reducible exact fun w => RegFile.foldl_wf w (fun _ _ w => RegFile.put_wf w)
    | with_reducible exact (listModify_length _ _ _).trans
    | with_reducible exact fun _ => List.length_replicate
    | with_reducible exact List.length_map _ |>.trans
    | (intro x; refine (fun (hx : Keeps r x) => ?_) ?_; clear_value x; rotate_left; subst x)
    | (intro x; refine (fun (hx : FstKeeps r x) => ?_) ?_; clear_value x; rotate_left; subst x)
    | (intro x; refine (fun (hf0 : ∀ s, Keeps r s → Keeps r (x s)) => ?_) ?_; clear_value x; rotate_left; subst x; intro _ _)
    | (intro x; refine (fun (hf1 : ∀ s c, Keeps r s → Keeps r (x s c)) => ?_) ?_; clear_value x; rotate_left; subst x; intro _ _ _)
    | (intro x; refine (fun (hf2 : ∀ c, Keeps r (x c)) => ?_) ?_; clear_value x; rotate_left; subst x; intro _)
    | (intro x; have hs : (x : Safety) = x := rfl; clear hs; subst x)
    | (intro x; clear_value x)
    | (intro x)
    | lift_lets
    | with_reducible apply State.set_keeps
    | with_reducible apply Keeps.ite
    | (with_reducible refine Keeps.foldl ?_ (fun _ _ _ => ?_))
    | with_reducible apply hf0
    | with_reducible apply hf2
    | with_reducible apply hf1
    | with_reducible apply Keeps.upd)

theorem State.ceReset_keeps {r : State} {s : State} {v : Nat} (h : Keeps r s) :
    Keeps r (State.ceReset s v) := by
  unfold State.ceReset
  repeat' (first
    | with_reducible assumption
    | with_reducible exact rfl
    | with_reducible exact id
    | with_reducible exact RegFile.put_wf
    | with_reducible exact RegFile.setFld_wf
    | with_reducible exact RegFile.filter_wf
    | with_reducible exact fun w => RegFile.foldl_wf w (fun _ _ w => RegFile.put_wf w)
    | with_reducible exact (listModify_length _ _ _).trans
    | with_reducible exact fun _ => List.length_replicate
    | with_reducible exact List.length_map _ |>.trans
    | (intro x; refine (fun (hx : Keeps r x) => ?_) ?_; clear_value x; rotate_left; subst x)
    | (intro x; refine (fun (hx : FstKeeps r x) => ?_) ?_; clear_value x; rotate_left; subst x)
    | (intro x; refine (fun (hf0 : ∀ s, Keeps r s → Keeps r (x s)) => ?_) ?_; clear_value x; rotate_left; subst x; intro _ _)
    | (intro x; refine (fun (hf1 : ∀ s c, Keeps r s → Keeps r (x s c)) => ?_) ?_; clear_value x; rotate_left; subst x; intro _ _ _)
    | (intro x; refine (fun (hf2 : ∀ c, Keeps r (x c)) => ?_) ?_; clear_value x; rotate_left; subst x; intro _)
    | (intro x; have hs : (x : Safety) = x := rfl; clear hs; subst x)
    | (intro x; clear_value x)
    | (intro x)
    | lift_lets
    | with_reducible apply State.ceLoad_keeps
    | with_reducible apply Keeps.ite
    | (with_reducible refine Keeps.foldl ?_ (fun _ _ _ => ?_))
    | with_reducible apply hf0
    | with_reducible apply hf2
    | with_reducible apply hf1
    | with_reducible apply Keeps.upd)

theorem State.drop_keeps {r : State} {s : State} {p : Packet} (h : Keeps r s) :
    Keeps r (State.drop s p) := by
  unfold State.drop
  repeat' (first
    | with_reducible assumption
    | with_reducible exact rfl
    | with_reducible exact id
    | with_reducible exact RegFile.put_wf
    | with_reducible exact RegFile.setFld_wf
    | with_reducible exact RegFile.filter_wf
    | with_reducible exact fun w => RegFile.foldl_wf w (fun _ _ w => RegFile.put_wf w)
    | with_reducible exact (listModify_length _ _ _).trans
    | with_reducible exact fun _ => List.length_replicate
    | with_reducible exact List.length_map _ |>.trans
    | (intro x; refine (fun (hx : Keeps r x) => ?_) ?_; clear_value x; rotate_left; subst x)
    | (intro x; refine (fun (hx : FstKeeps r x) => ?_) ?_; clear_value x; rotate_left; subst x)
    | (intro x; refine (fun (hf0 : ∀ s, Keeps r s → Keeps r (x s)) => ?_) ?_; clear_value x; rotate_left; subst x; intro _ _)
    | (intro x; refine (fun (hf1 : ∀ s c, Keeps r s → Keeps r (x s c)) => ?_) ?_; clear_value x; rotate_left; subst x; intro _ _ _)
    | (intro x; refine (fun (hf2 : ∀ c, Keeps r (x c)) => ?_) ?_; clear_value x; rotate_left; subst x; intro _)
    | (intro x; have hs : (x : Safety) = x := rfl; clear hs; subst x)
    | (intro x; clear_value x)
    | (intro x)
    | lift_lets
    | with_reducible apply State.ceLoad_keeps
    | with_reducible apply Keeps.ite
    | (with_reducible refine Keeps.foldl ?_ (fun _ _ _ => ?_))
    | with_reducible apply hf0
    | with_reducible apply hf2
    | with_reducible apply hf1
    | with_reducible apply Keeps.upd)

theorem State.ringPut_keeps {r : State} {s : State} {g : Nat} {p : Packet} (h : Keeps r s) :
    FstKeeps r (State.ringPut s g p) := by
  unfold State.ringPut
  repeat' (first
    | with_reducible assumption
    | with_reducible exact rfl
    | with_reducible exact id
    | with_reducible exact RegFile.put_wf
    | with_reducible exact RegFile.setFld_wf
    | with_reducible exact RegFile.filter_wf
    | with_reducible exact fun w => RegFile.foldl_wf w (fun _ _ w => RegFile.put_wf w)
    | with_reducible exact (listModify_length _ _ _).trans
    | with_reducible exact fun _ => List.length_replicate
    | with_reducible exact List.length_map _ |>.trans
    | (intro x; refine (fun (hx : Keeps r x) => ?_) ?_; clear_value x; rotate_left; subst x)
    | (intro x; refine (fun (hx : FstKeeps r x) => ?_) ?_; clear_value x; rotate_left; subst x)
    | (intro x; refine (fun (hf0 : ∀ s, Keeps r s → Keeps r (x s)) => ?_) ?_; clear_value x; rotate_left; subst x; intro _ _)
    | (intro x; refine (fun (hf1 : ∀ s c, Keeps r s → Keeps r (x s c)) => ?_) ?_; clear_value x; rotate_left; subst x; intro _ _ _)
    | (intro x; refine (fun (hf2 : ∀ c, Keeps r (x c)) => ?_) ?_; clear_value x; rotate_left; subst x; intro _)
    | (intro x; have hs : (x : Safety) = x := rfl; clear hs; subst x)
    | (intro x; clear_value x)
    | (intro x)
    | lift_lets
    | with_reducible apply State.setGroup_keeps
    | with_reducible apply State.set_keeps
    | with_reducible apply Keeps.ite
    | (with_reducible refine Keeps.foldl ?_ (fun _ _ _ => ?_))
    | with_reducible apply FstKeeps.ite
    | (with_reducible refine FstKeeps.foldl ?_ (fun _ _ _ _ => ?_))
    | with_reducible apply hf0
    | with_reducible apply hf2
    | with_reducible apply hf1
    | with_reducible apply FstKeeps.mk
    | with_reducible apply Keeps.upd)

theorem State.bufToRing_keeps {r : State} {s : State} {g : Nat} (h : Keeps r s) :
    Keeps r (State.bufToRing s g) := by
  unfold State.bufToRing
  repeat' (first
    | with_reducible assumption
    | with_reducible exact rfl
    | with_reducible exact id
    | with_reducible exact RegFile.put_wf
    | with_reducible exact RegFile.setFld_wf
    | with_reducible exact RegFile.filter_wf
    | with_reducible exact fun w => RegFile.foldl_wf w (fun _ _ w => RegFile.put_wf w)
    | with_reducible exact (listModify_length _ _ _).trans
    | with_reducible exact fun _ => List.length_replicate
    | with_reducible exact List.length_map _ |>.trans
    | (intro x; refine (fun (hx : Keeps r x) => ?_) ?_; clear_value x; rotate_left; subst x)
    | (intro x; refine (fun (hx : FstKeeps r x) => ?_) ?_; clear_value x; rotate_left; subst x)
    | (intro x; refine (fun (hf0 : ∀ s, Keeps r s → Keeps r (x s)) => ?_) ?_; clear_value x; rotate_left; subst x; intro _ _)
    | (intro x; refine (fun (hf1 : ∀ s c, Keeps r s → Keeps r (x s c)) => ?_) ?_; clear_value x; rotate_left; subst x; intro _ _ _)
    | (intro x; refine (fun (hf2 : ∀ c, Keeps r (x c)) => ?_) ?_; clear_value x; rotate_left; subst x; intro _)
    | (intro x; have hs : (x : Safety) = x := rfl; clear hs; subst x)
    | (intro x; clear_value x)
    | (intro x)
    | lift_lets
    | with_reducible apply State.setGroup_keeps
    | with_reducible apply State.ringPut_keeps
    | with_reducible apply State.drop_keeps
    | (refine Keeps.of_fst ‹_ = (_, _)› ?_)
    | with_reducible apply Keeps.ite
    | (with_reducible refine Keeps.foldl ?_ (fun _ _ _ => ?_))
    | with_reducible apply FstKeeps.ite
    | (with_reducible refine FstKeeps.foldl ?_ (fun _ _ _ _ => ?_))
    | with_reducible apply hf0
    | with_reducible apply hf2
    | with_reducible apply hf1
    | split
    | with_reducible apply FstKeeps.mk
    | with_reducible apply FstKeeps.fst
    | with_reducible apply Keeps.upd)

theorem State.bufPut_keeps {r : State} {s : State} {g : Nat} {p : Packet} {ahead : Bool} (h : Keeps r s) :
    Keeps r (State.bufPut s g p ahead) := by
  unfold State.bufPut
  repeat' (first
    | with_reducible assumption
    | with_reducible exact rfl
    | with_reducible exact id
    | with_reducible exact RegFile.put_wf
    | with_reducible exact RegFile.setFld_wf
    | with_reducible exact RegFile.filter_wf
    | with_reducible exact fun w => RegFile.foldl_wf w (fun _ _ w => RegFile.put_wf w)
    | with_reducible exact (listModify_length _ _ _).trans
    | with_reducible exact fun _ => List.length_replicate
    | with_reducible exact List.length_map _ |>.trans
    | (intro x; refine (fun (hx : Keeps r x) => ?_) ?_; clear_value x; rotate_left; subst x)
    | (intro x; refine (fun (hx : FstKeeps r x) => ?_) ?_; clear_value x; rotate_left; subst x)
    | (intro x; refine (fun (hf0 : ∀ s, Keeps r s → Keeps r (x s)) => ?_) ?_; clear_value x; rotate_left; subst x; intro _ _)
    | (intro x; refine (fun (hf1 : ∀ s c, Keeps r s → Keeps r (x s c)) => ?_) ?_; clear_value x; rotate_left; subst x; intro _ _ _)
    | (intro x; refine (fun (hf2 : ∀ c, Keeps r (x c)) => ?_) ?_; clear_value x; rotate_left; subst x; intro _)
    | (intro x; have hs : (x : Safety) = x := rfl; clear hs; subst x)
    | (intro x; clear_value x)
    | (intro x)
    | lift_lets
    | with_reducible apply State.setGroup_keeps
    | with_reducible apply Keeps.ite
    | (with_reducible refine Keeps.foldl ?_ (fun _ _ _ => ?_))
    | with_reducible apply hf0
    | with_reducible apply hf2
    | with_reducible apply hf1
    | with_reducible apply Keeps.upd)

theorem State.enqueue_keeps {r : State} {s : State} {g : Nat} {p : Packet} {ahead : Bool} (h : Keeps r s) :
    FstKeeps r (State.enqueue s g p ahead) := by
  unfold State.enqueue
  repeat' (first
    | with_reducible assumption
    | with_reducible exact rfl
    | with_reducible exact id
    | with_reducible exact RegFile.put_wf
    | with_reducible exact RegFile.setFld_wf
    | with_reducible exact RegFile.filter_wf
    | with_reducible exact fun w => RegFile.foldl_wf w (fun _ _ w => RegFile.put_wf w)
    | with_reducible exact (listModify_length _ _ _).trans
    | with_reducible exact fun _ => List.length_replicate
    | with_reducible exact List.length_map _ |>.trans
    | (intro x; refine (fun (hx : Keeps r x) => ?_) ?_; clear_value x; rotate_left; subst x)
    | (intro x; refine (fun (hx : FstKeeps r x) => ?_) ?_; clear_value x; rotate_left; subst x)
    | (intro x; refine (fun (hf0 : ∀ s, Keeps r s → Keeps r (x s)) => ?_) ?_; clear_value x; rotate_left; subst x; intro _ _)
    | (intro x; refine (fun (hf1 : ∀ s c, Keeps r s → Keeps r (x s c)) => ?_) ?_; clear_value x; rotate_left; subst x; intro _ _ _)
    | (intro x; refine (fun (hf2 : ∀ c, Keeps r (x c)) => ?_) ?_; clear_value x; rotate_left; subst x; intro _)
    | (intro x; have hs : (x : Safety) = x := rfl; clear hs; subst x)
    | (intro x; clear_value x)
    | (intro x)
    | lift_lets
    | with_reducible apply State.refreshWait_keeps
    | with_reducible apply State.bufPut_keeps
    | with_reducible apply State.ringPut_keeps
    | with_reducible apply State.bufToRing_keeps
    | with_reducible apply State.set_keeps
    | (refine Keeps.of_fst ‹_ = (_, _)› ?_)
    | with_reducible apply Keeps.ite
    | (with_reducible refine Keeps.foldl ?_ (fun _ _ _ => ?_))
    | with_reducible apply FstKeeps.ite
    | (with_reducible refine FstKeeps.foldl ?_ (fun _ _ _ _ => ?_))
    | with_reducible apply hf0
    | with_reducible apply hf2
    | with_reducible apply hf1
    | split
    | with_reducible apply FstKeeps.mk
    | with_reducible apply FstKeeps.fst
    | with_reducible apply Keeps.upd)

theorem State.withholdBuffer_keeps {r : State} {s : State} {g : Nat} (h : Keeps r s) :
    Keeps r (State.withholdBuffer s g) := by
  unfold State.withholdBuffer
  repeat' (first
    | with_reducible assumption
    | with_reducible exact rfl
    | with_reducible exact id
    | with_reducible exact RegFile.put_wf
    | with_reducible exact RegFile.setFld_wf
    | with_reducible exact RegFile.filter_wf
    | with_reducible exact fun w => RegFile.foldl_wf w (fun _ _ w => RegFile.put_wf w)
    | with_reducible exact (listModify_length _ _ _).trans
    | with_reducible exact fun _ => List.length_replicate
    | with_reducible exact List.length_map _ |>.trans
    | (intro x; refine (fun (hx : Keeps r x) => ?_) ?_; clear_value x; rotate_left; subst x)
    | (intro x; refine (fun (hx : FstKeeps r x) => ?_) ?_; clear_value x; rotate_left; subst x)
    | (intro x; refine (fun (hf0 : ∀ s, Keeps r s → Keeps r (x s)) => ?_) ?_; clear_value x; rotate_left; subst x; intro _ _)
    | (intro x; refine (fun (hf1 : ∀ s c, Keeps r s → Keeps r (x s c)) => ?_) ?_; clear_value x; rotate_left; subst x; intro _ _ _)
    | (intro x; refine (fun (hf2 : ∀ c, Keeps r (x c)) => ?_) ?_; clear_value x; rotate_left; subst x; intro _)
    | (intro x; have hs : (x : Safety) = x := rfl; clear hs; subst x)
    | (intro x; clear_value x)
    | (intro x)
    | lift_lets
    | with_reducible apply State.bufToRing_keeps
    | with_reducible apply State.set_keeps
    | with_reducible apply State.drop_keeps
    | with_reducible apply State.setGroup_keeps
    | (refine Keeps.of_fst ‹_ = (_, _)› ?_)
    | with_reducible apply Keeps.ite
    | (with_reducible refine Keeps.foldl ?_ (fun _ _ _ => ?_))
    | with_reducible apply FstKeeps.ite
    | (with_reducible refine FstKeeps.foldl ?_ (fun _ _ _ _ => ?_))
    | with_reducible apply hf0
    | with_reducible apply hf2
    | with_reducible apply hf1
    | split
    | with_reducible apply FstKeeps.mk
    | with_reducible apply Keeps.upd)

theorem State.noMap_keeps {r : State} {s : State} (h : Keeps r s) :
    Keeps r (State.noMap s) := by
  unfold State.noMap
  repeat' (first
    | with_reducible assumption
    | with_reducible exact rfl
    | with_reducible exact id
    | with_reducible exact RegFile.put_wf
    | with_reducible exact RegFile.setFld_wf
    | with_reducible exact RegFile.filter_wf
    | with_reducible exact fun w => RegFile.foldl_wf w (fun _ _ w => RegFile.put_wf w)
    | with_reducible exact (listModify_length _ _ _).trans
    | with_reducible exact fun _ => List.length_replicate
    | with_reducible exact List.length_map _ |>.trans
    | (intro x; refine (fun (hx : Keeps r x) => ?_) ?_; clear_value x; rotate_left; subst x)
    | (intro x; refine (fun (hx : FstKeeps r x) => ?_) ?_; clear_value x; rotate_left; subst x)
    | (intro x; refine (fun (hf0 : ∀ s, Keeps r s → Keeps r (x s)) => ?_) ?_; clear_value x; rotate_left; subst x; intro _ _)
    | (intro x; refine (fun (hf1 : ∀ s c, Keeps r s → Keeps r (x s c)) => ?_) ?_; clear_value x; rotate_left; subst x; intro _ _ _)
    | (intro x; refine (fun (hf2 : ∀ c, Keeps r (x c)) => ?_) ?_; clear_value x; rotate_left; subst x; intro _)
    | (intro x; have hs : (x : Safety) = x := rfl; clear hs; subst x)
    | (intro x; clear_value x)
    | (intro x)
    | lift_lets
    | with_reducible apply State.set_keeps
    | with_reducible apply State.bump_keeps
    | with_reducible apply Keeps.ite
    | (with_reducible refine Keeps.foldl ?_ (fun _ _ _ => ?_))
    | with_reducible apply hf0
    | with_reducible apply hf2
    | with_reducible apply hf1
    | with_reducible apply Keeps.upd)

theorem State.purgeRecalls_keeps {r : State} {s : State} {id : Nat} (h : Keeps r s) :
    Keeps r (State.purgeRecalls s id) := by
  unfold State.purgeRecalls
  repeat' (first
    | with_reducible assumption
    | with_reducible exact rfl
    | with_reducible exact id
    | with_reducible exact RegFile.put_wf
    | with_reducible exact RegFile.setFld_wf
    | with_reducible exact RegFile.filter_wf
    | with_reducible exact fun w => RegFile.foldl_wf w (fun _ _ w => RegFile.put_wf w)
    | with_reducible exact (listModify_length _ _ _).trans
    | with_reducible exact fun _ => List.length_replicate
    | with_reducible exact List.length_map _ |>.trans
    | (intro x; refine (fun (hx : Keeps r x) => ?_) ?_; clear_value x; rotate_left; subst x)
    | (intro x; refine (fun (hx : FstKeeps r x) => ?_) ?_; clear_value x; rotate_left; subst x)
    | (intro x; refine (fun (hf0 : ∀ s, Keeps r s → Keeps r (x s)) => ?_) ?_; clear_value x; rotate_left; subst x; intro _ _)
    | (intro x; refine (fun (hf1 : ∀ s c, Keeps r s → Keeps r (x s c)) => ?_) ?_; clear_value x; rotate_left; subst x; intro _ _ _)
    | (intro x; refine (fun (hf2 : ∀ c, Keeps r (x c)) => ?_) ?_; clear_value x; rotate_left; subst x; intro _)
    | (intro x; have hs : (x : Safety) = x := rfl; clear hs; subst x)
    | (intro x; clear_value x)
    | (intro x)
    | lift_lets
    | with_reducible apply Keeps.ite
    | (with_reducible refine Keeps.foldl ?_ (fun _ _ _ => ?_))
    | with_reducible apply hf0
    | with_reducible apply hf2
    | with_reducible apply hf1
    | with_reducible apply Keeps.upd)

theorem State.build_keeps {r : State} {s : State} {v : Nat} {dt : Nat} {frameLo : Nat} {payload : List Byte} {fixed : Bool} {data : Bool} {crc : Bool} (h : Keeps r s) :
    FstKeeps r (State.build s v dt frameLo payload fixed data crc) := by
  unfold State.build
  repeat' (first
    | with_reducible assumption
    | with_reducible exact rfl
    | with_reducible exact id
    | with_reducible exact RegFile.put_wf
    | with_reducible exact RegFile.setFld_wf
    | with_reducible exact RegFile.filter_wf
    | with_reducible exact fun w => RegFile.foldl_wf w (fun _ _ w => RegFile.put_wf w)
    | with_reducible exact (listModify_length _ _ _).trans
    | with_reducible exact fun _ => List.length_replicate
    | with_reducible exact List.length_map _ |>.trans
    | (intro x; refine (fun (hx : Keeps r x) => ?_) ?_; clear_value x; rotate_left; subst x)
    | (intro x; refine (fun (hx : FstKeeps r x) => ?_) ?_; clear_value x; rotate_left; subst x)
    | (intro x; refine (fun (hf0 : ∀ s, Keeps r s → Keeps r (x s)) => ?_) ?_; clear_value x; rotate_left; subst x; intro _ _)
    | (intro x; refine (fun (hf1 : ∀ s c, Keeps r s → Keeps r (x s c)) => ?_) ?_; clear_value x; rotate_left; subst x; intro _ _ _)
    | (intro x; refine (fun (hf2 : ∀ c, Keeps r (x c)) => ?_) ?_; clear_value x; rotate_left; subst x; intro _)
    | (intro x; have hs : (x : Safety) = x := rfl; clear hs; subst x)
    | (intro x; clear_value x)
    | (intro x)
    | lift_lets
    | with_reducible apply State.noMap_keeps
    | with_reducible apply State.set_keeps
    | with_reducible apply State.enqueue_keeps
    | with_reducible apply State.drop_keeps
    | with_reducible apply State.ce2_keeps
    | (refine Keeps.of_fst ‹_ = (_, _)› ?_)
    | with_reducible apply Keeps.ite
    | (with_reducible refine Keeps.foldl ?_ (fun _ _ _ => ?_))
    | with_reducible apply FstKeeps.ite
    | (with_reducible refine FstKeeps.foldl ?_ (fun _ _ _ _ => ?_))
    | with_reducible apply hf0
    | with_reducible apply hf2
    | with_reducible apply hf1
    | split
    | with_reducible apply FstKeeps.mk
    | with_reducible apply FstKeeps.fst
    | with_reducible apply Keeps.upd)

theorem State.sendPlain_keeps {r : State} {s : State} {v : Nat} {dt : Nat} {frameLo : Nat} {payload : List Byte} (h : Keeps r s) :
    Keeps r (State.sendPlain s v dt frameLo payload) := by
  unfold State.sendPlain
  repeat' (first
    | with_reducible assumption
    | with_reducible exact rfl
    | with_reducible exact id
    | with_reducible exact RegFile.put_wf
    | with_reducible exact RegFile.setFld_wf
    | with_reducible exact RegFile.filter_wf
    | with_reducible exact fun w => RegFile.foldl_wf w (fun _ _ w => RegFile.put_wf w)
    | with_reducible exact (listModify_length _ _ _).trans
    | with_reducible exact fun _ => List.length_replicate
    | with_reducible exact List.length_map _ |>.trans
    | (intro x; refine (fun (hx : Keeps r x) => ?_) ?_; clear_value x; rotate_left; subst x)
    | (intro x; refine (fun (hx : FstKeeps r x) => ?_) ?_; clear_value x; rotate_left; subst x)
    | (intro x; refine (fun (hf0 : ∀ s, Keeps r s → Keeps r (x s)) => ?_) ?_; clear_value x; rotate_left; subst x; intro _ _)
    | (intro x; refine (fun (hf1 : ∀ s c, Keeps r s → Keeps r (x s c)) => ?_) ?_; clear_value x; rotate_left; subst x; intro _ _ _)
    | (intro x; refine (fun (hf2 : ∀ c, Keeps r (x c)) => ?_) ?_; clear_value x; rotate_left; subst x; intro _)
    | (intro x; have hs : (x : Safety) = x := rfl; clear hs; subst x)
    | (intro x; clear_value x)
    | (intro x)
    | lift_lets
    | with_reducible apply State.build_keeps
    | (refine Keeps.of_fst ‹_ = (_, _)› ?_)
    | with_reducible apply Keeps.ite
    | (with_reducible refine Keeps.foldl ?_ (fun _ _ _ => ?_))
    | with_reducible apply FstKeeps.ite
    | (with_reducible refine FstKeeps.foldl ?_ (fun _ _ _ _ => ?_))
    | with_reducible apply hf0
    | with_reducible apply hf2
    | with_reducible apply hf1
    | with_reducible apply FstKeeps.mk
    | with_reducible apply FstKeeps.fst
    | with_reducible apply Keeps.upd)

theorem State.moveSpilled_keeps {r : State} {s : State} {v : Nat} {mask : List Nat} (h : Keeps r s) :
    Keeps r (State.moveSpilled s v mask) := by
  unfold State.moveSpilled
  repeat' (first
    | with_reducible assumption
    | with_reducible exact rfl
    | with_reducible exact id
    | with_reducible exact RegFile.put_wf
    | with_reducible exact RegFile.setFld_wf
    | with_reducible exact RegFile.filter_wf
    | with_reducible exact fun w => RegFile.foldl_wf w (fun _ _ w => RegFile.put_wf w)
    | with_reducible exact (listModify_length _ _ _).trans
    | with_reducible exact fun _ => List.length_replicate
    | with_reducible exact List.length_map _ |>.trans
    | (intro x; refine (fun (hx : Keeps r x) => ?_) ?_; clear_value x; rotate_left; subst x)
    | (intro x; refine (fun (hx : FstKeeps r x) => ?_) ?_; clear_value x; rotate_left; subst x)
    | (intro x; refine (fun (hf0 : ∀ s, Keeps r s → Keeps r (x s)) => ?_) ?_; clear_value x; rotate_left; subst x; intro _ _)
    | (intro x; refine (fun (hf1 : ∀ s c, Keeps r s → Keeps r (x s c)) => ?_) ?_; clear_value x; rotate_left; subst x; intro _ _ _)
    | (intro x; refine (fun (hf2 : ∀ c, Keeps r (x c)) => ?_) ?_; clear_value x; rotate_left; subst x; intro _)
    | (intro x; have hs : (x : Safety) = x := rfl; clear hs; subst x)
    | (intro x; clear_value x)
    | (intro x)
    | lift_lets
    | with_reducible apply State.setGroup_keeps
    | with_reducible apply State.set_keeps
    | with_reducible apply State.drop_keeps
    | with_reducible apply State.refreshWait_keeps
    | (refine Keeps.of_fst ‹_ = (_, _)› ?_)
    | with_reducible apply Keeps.ite
    | (with_reducible refine Keeps.foldl ?_ (fun _ _ _ => ?_))
    | with_reducible apply FstKeeps.ite
    | (with_reducible refine FstKeeps.foldl ?_ (fun _ _ _ _ => ?_))
    | with_reducible apply hf0
    | with_reducible apply hf2
    | with_reducible apply hf1
    | split
    | with_reducible apply FstKeeps.mk
    | with_reducible apply Keeps.upd)

theorem State.fixMask_keeps {r : State} {s : State} {v : Nat} (h : Keeps r s) :
    Keeps r (State.fixMask s v) := by
  unfold State.fixMask
  repeat' (first
    | with_reducible assumption
    | with_reducible exact rfl
    | with_reducible exact id
    | with_reducible exact RegFile.put_wf
    | with_reducible exact RegFile.setFld_wf
    | with_reducible exact RegFile.filter_wf
    | with_reducible exact fun w => RegFile.foldl_wf w (fun _ _ w => RegFile.put_wf w)
    | with_reducible exact (listModify_length _ _ _).trans
    | with_reducible exact fun _ => List.length_replicate
    | with_reducible exact List.length_map _ |>.trans
    | (intro x; refine (fun (hx : Keeps r x) => ?_) ?_; clear_value x; rotate_left; subst x)
    | (intro x; refine (fun (hx : FstKeeps r x) => ?_) ?_; clear_value x; rotate_left; subst x)
    | (intro x; refine (fun (hf0 : ∀ s, Keeps r s → Keeps r (x s)) => ?_) ?_; clear_value x; rotate_left; subst x; intro _ _)
    | (intro x; refine (fun (hf1 : ∀ s c, Keeps r s → Keeps r (x s c)) => ?_) ?_; clear_value x; rotate_left; subst x; intro _ _ _)
    | (intro x; refine (fun (hf2 : ∀ c, Keeps r (x c)) => ?_) ?_; clear_value x; rotate_left; subst x; intro _)
    | (intro x; have hs : (x : Safety) = x := rfl; clear hs; subst x)
    | (intro x; clear_value x)
    | (intro x)
    | lift_lets
    | with_reducible apply State.set_keeps
    | with_reducible apply State.moveSpilled_keeps
    | (refine Keeps.of_fst ‹_ = (_, _)› ?_)
    | with_reducible apply Keeps.ite
    | (with_reducible refine Keeps.foldl ?_ (fun _ _ _ => ?_))
    | with_reducible apply FstKeeps.ite
    | (with_reducible refine FstKeeps.foldl ?_ (fun _ _ _ _ => ?_))
    | with_reducible apply hf0
    | with_reducible apply hf2
    | with_reducible apply hf1
    | split
    | with_reducible apply FstKeeps.mk
    | with_reducible apply FstKeeps.fst
    | with_reducible apply Keeps.upd)

theorem State.releaseRing_keeps {r : State} {s : State} (h : Keeps r s) :
    Keeps r (State.releaseRing s) := by
  unfold State.releaseRing
  repeat' (first
    | with_reducible assumption
    | with_reducible exact rfl
    | with_reducible exact id
    | with_reducible exact RegFile.put_wf
    | with_reducible exact RegFile.setFld_wf
    | with_reducible exact RegFile.filter_wf
    | with_reducible exact fun w => RegFile.foldl_wf w (fun _ _ w => RegFile.put_wf w)
    | with_reducible exact (listModify_length _ _ _).trans
    | with_reducible exact fun _ => List.length_replicate
    | with_reducible exact List.length_map _ |>.trans
    | (intro x; refine (fun (hx : Keeps r x) => ?_) ?_; clear_value x; rotate_left; subst x)
    | (intro x; refine (fun (hx : FstKeeps r x) => ?_) ?_; clear_value x; rotate_left; subst x)
    | (intro x; refine (fun (hf0 : ∀ s, Keeps r s → Keeps r (x s)) => ?_) ?_; clear_value x; rotate_left; subst x; intro _ _)
    | (intro x; refine (fun (hf1 : ∀ s c, Keeps r s → Keeps r (x s c)) => ?_) ?_; clear_value x; rotate_left; subst x; intro _ _ _)
    | (intro x; refine (fun (hf2 : ∀ c, Keeps r (x c)) => ?_) ?_; clear_value x; rotate_left; subst x; intro _)
    | (intro x; have hs : (x : Safety) = x := rfl; clear hs; subst x)
    | (intro x; clear_value x)
    | (intro x)
    | lift_lets
    | with_reducible apply State.set_keeps
    | with_reducible apply Keeps.ite
    | (with_reducible refine Keeps.foldl ?_ (fun _ _ _ => ?_))
    | with_reducible apply hf0
    | with_reducible apply hf2
    | with_reducible apply hf1
    | with_reducible apply Keeps.upd)

theorem State.discardRecalls_keeps {r : State} {s : State} (h : Keeps r s) :
    Keeps r (State.discardRecalls s) := by
  unfold State.discardRecalls
  repeat' (first
    | with_reducible assumption
    | with_reducible exact rfl
    | with_reducible exact id
    | with_reducible exact RegFile.put_wf
    | with_reducible exact RegFile.setFld_wf
    | with_reducible exact RegFile.filter_wf
    | with_reducible exact fun w => RegFile.foldl_wf w (fun _ _ w => RegFile.put_wf w)
    | with_reducible exact (listModify_length _ _ _).trans
    | with_reducible exact fun _ => List.length_replicate
    | with_reducible exact List.length_map _ |>.trans
    | (intro x; refine (fun (hx : Keeps r x) => ?_) ?_; clear_value x; rotate_left; subst x)
    | (intro x; refine (fun (hx : FstKeeps r x) => ?_) ?_; clear_value x; rotate_left; subst x)
    | (intro x; refine (fun (hf0 : ∀ s, Keeps r s → Keeps r (x s)) => ?_) ?_; clear_value x; rotate_left; subst x; intro _ _)
    | (intro x; refine (fun (hf1 : ∀ s c, Keeps r s → Keeps r (x s c)) => ?_) ?_; clear_value x; rotate_left; subst x; intro _ _ _)
    | (intro x; refine (fun (hf2 : ∀ c, Keeps r (x c)) => ?_) ?_; clear_value x; rotate_left; subst x; intro _)
    | (intro x; have hs : (x : Safety) = x := rfl; clear hs; subst x)
    | (intro x; clear_value x)
    | (intro x)
    | lift_lets
    | with_reducible apply State.purgeRecalls_keeps
    | with_reducible apply State.set_keeps
    | with_reducible apply State.releaseRing_keeps
    | (refine Keeps.of_fst ‹_ = (_, _)› ?_)
    | with_reducible apply Keeps.ite
    | (with_reducible refine Keeps.foldl ?_ (fun _ _ _ => ?_))
    | with_reducible apply FstKeeps.ite
    | (with_reducible refine FstKeeps.foldl ?_ (fun _ _ _ _ => ?_))
    | with_reducible apply hf0
    | with_reducible apply hf2
    | with_reducible apply hf1
    | split
    | with_reducible apply FstKeeps.mk
    | with_reducible apply Keeps.upd)

theorem State.flagDiscard_keeps {r : State} {s : State} (h : Keeps r s) :
    Keeps r (State.flagDiscard s) := by
  unfold State.flagDiscard
  repeat' (first
    | with_reducible assumption
    | with_reducible exact rfl
    | with_reducible exact id
    | with_reducible exact RegFile.put_wf
    | with_reducible exact RegFile.setFld_wf
    | with_reducible exact RegFile.filter_wf
    | with_reducible exact fun w => RegFile.foldl_wf w (fun _ _ w => RegFile.put_wf w)
    | with_reducible exact (listModify_length _ _ _).trans
    | with_reducible exact fun _ => List.length_replicate
    | with_reducible exact List.length_map _ |>.trans
    | (intro x; refine (fun (hx : Keeps r x) => ?_) ?_; clear_value x; rotate_left; subst x)
    | (intro x; refine (fun (hx : FstKeeps r x) => ?_) ?_; clear_value x; rotate_left; subst x)
    | (intro x; refine (fun (hf0 : ∀ s, Keeps r s → Keeps r (x s)) => ?_) ?_; clear_value x; rotate_left; subst x; intro _ _)
    | (intro x; refine (fun (hf1 : ∀ s c, Keeps r s → Keeps r (x s c)) => ?_) ?_; clear_value x; rotate_left; subst x; intro _ _ _)
    | (intro x; refine (fun (hf2 : ∀ c, Keeps r (x c)) => ?_) ?_; clear_value x; rotate_left; subst x; intro _)
    | (intro x; have hs : (x : Safety) = x := rfl; clear hs; subst x)
    | (intro x; clear_value x)
    | (intro x)
    | lift_lets
    | with_reducible apply State.setFault_keeps
    | with_reducible apply Keeps.ite
    | (with_reducible refine Keeps.foldl ?_ (fun _ _ _ => ?_))
    | with_reducible apply hf0
    | with_reducible apply hf2
    | with_reducible apply hf1
    | with_reducible apply Keeps.upd)

theorem State.workDiscard_keeps {r : State} {s : State} (h : Keeps r s) :
    Keeps r (State.workDiscard s) := by
  unfold State.workDiscard
  repeat' (first
    | with_reducible assumption
    | with_reducible exact rfl
    | with_reducible exact id
    | with_reducible exact RegFile.put_wf
    | with_reducible exact RegFile.setFld_wf
    | with_reducible exact RegFile.filter_wf
    | with_reducible exact fun w => RegFile.foldl_wf w (fun _ _ w => RegFile.put_wf w)
    | with_reducible exact (listModify_length _ _ _).trans
    | with_reducible exact fun _ => List.length_replicate
    | with_reducible exact List.length_map _ |>.trans
    | (intro x; refine (fun (hx : Keeps r x) => ?_) ?_; clear_value x; rotate_left; subst x)
    | (intro x; refine (fun (hx : FstKeeps r x) => ?_) ?_; clear_value x; rotate_left; subst x)
    | (intro x; refine (fun (hf0 : ∀ s, Keeps r s → Keeps r (x s)) => ?_) ?_; clear_value x; rotate_left; subst x; intro _ _)
    | (intro x; refine (fun (hf1 : ∀ s c, Keeps r s → Keeps r (x s c)) => ?_) ?_; clear_value x; rotate_left; subst x; intro _ _ _)
    | (intro x; refine (fun (hf2 : ∀ c, Keeps r (x c)) => ?_) ?_; clear_value x; rotate_left; subst x; intro _)
    | (intro x; have hs : (x : Safety) = x := rfl; clear hs; subst x)
    | (intro x; clear_value x)
    | (intro x)
    | lift_lets
    | with_reducible apply State.discardRecalls_keeps
    | with_reducible apply State.set_keeps
    | with_reducible apply State.flagDiscard_keeps
    | with_reducible apply Keeps.ite
    | (with_reducible refine Keeps.foldl ?_ (fun _ _ _ => ?_))
    | with_reducible apply hf0
    | with_reducible apply hf2
    | with_reducible apply hf1
    | with_reducible apply Keeps.upd)

theorem State.moveControl_keeps {r : State} {s : State} {g : Nat} (h : Keeps r s) :
    Keeps r (State.moveControl s g) := by
  unfold State.moveControl
  repeat' (first
    | with_reducible assumption
    | with_reducible exact rfl
    | with_reducible exact id
    | with_reducible exact RegFile.put_wf
    | with_reducible exact RegFile.setFld_wf
    | with_reducible exact RegFile.filter_wf
    | with_reducible exact fun w => RegFile.foldl_wf w (fun _ _ w => RegFile.put_wf w)
    | with_reducible exact (listModify_length _ _ _).trans
    | with_reducible exact fun _ => List.length_replicate
    | with_reducible exact List.length_map _ |>.trans
    | (intro x; refine (fun (hx : Keeps r x) => ?_) ?_; clear_value x; rotate_left; subst x)
    | (intro x; refine (fun (hx : FstKeeps r x) => ?_) ?_; clear_value x; rotate_left; subst x)
    | (intro x; refine (fun (hf0 : ∀ s, Keeps r s → Keeps r (x s)) => ?_) ?_; clear_value x; rotate_left; subst x; intro _ _)
    | (intro x; refine (fun (hf1 : ∀ s c, Keeps r s → Keeps r (x s c)) => ?_) ?_; clear_value x; rotate_left; subst x; intro _ _ _)
    | (intro x; refine (fun (hf2 : ∀ c, Keeps r (x c)) => ?_) ?_; clear_value x; rotate_left; subst x; intro _)
    | (intro x; have hs : (x : Safety) = x := rfl; clear hs; subst x)
    | (intro x; clear_value x)
    | (intro x)
    | lift_lets
    | with_reducible apply State.set_keeps
    | (refine Keeps.of_fst ‹_ = (_, _)› ?_)
    | with_reducible apply Keeps.ite
    | (with_reducible refine Keeps.foldl ?_ (fun _ _ _ => ?_))
    | with_reducible apply FstKeeps.ite
    | (with_reducible refine FstKeeps.foldl ?_ (fun _ _ _ _ => ?_))
    | with_reducible apply hf0
    | with_reducible apply hf2
    | with_reducible apply hf1
    | split
    | with_reducible apply FstKeeps.mk
    | with_reducible apply Keeps.upd)

theorem State.groupFail_keeps {r : State} {s : State} {g : Nat} {cause : Nat} (h : Keeps r s) :
    Keeps r (State.groupFail s g cause) := by
  unfold State.groupFail
  repeat' (first
    | with_reducible assumption
    | with_reducible exact rfl
    | with_reducible exact id
    | with_reducible exact RegFile.put_wf
    | with_reducible exact RegFile.setFld_wf
    | with_reducible exact RegFile.filter_wf
    | with_reducible exact fun w => RegFile.foldl_wf w (fun _ _ w => RegFile.put_wf w)
    | with_reducible exact (listModify_length _ _ _).trans
    | with_reducible exact fun _ => List.length_replicate
    | with_reducible exact List.length_map _ |>.trans
    | (intro x; refine (fun (hx : Keeps r x) => ?_) ?_; clear_value x; rotate_left; subst x)
    | (intro x; refine (fun (hx : FstKeeps r x) => ?_) ?_; clear_value x; rotate_left; subst x)
    | (intro x; refine (fun (hf0 : ∀ s, Keeps r s → Keeps r (x s)) => ?_) ?_; clear_value x; rotate_left; subst x; intro _ _)
    | (intro x; refine (fun (hf1 : ∀ s c, Keeps r s → Keeps r (x s c)) => ?_) ?_; clear_value x; rotate_left; subst x; intro _ _ _)
    | (intro x; refine (fun (hf2 : ∀ c, Keeps r (x c)) => ?_) ?_; clear_value x; rotate_left; subst x; intro _)
    | (intro x; have hs : (x : Safety) = x := rfl; clear hs; subst x)
    | (intro x; clear_value x)
    | (intro x)
    | lift_lets
    | with_reducible apply State.set_keeps
    | with_reducible apply State.setFault_keeps
    | with_reducible apply State.setGroup_keeps
    | with_reducible apply State.bufToRing_keeps
    | with_reducible apply State.drop_keeps
    | with_reducible apply State.emit_keeps
    | with_reducible apply State.moveControl_keeps
    | with_reducible apply State.workDiscard_keeps
    | with_reducible apply Keeps.ite
    | (with_reducible refine Keeps.foldl ?_ (fun _ _ _ => ?_))
    | with_reducible apply hf0
    | with_reducible apply hf2
    | with_reducible apply hf1
    | with_reducible apply Keeps.upd)

end Sys2Proof.Machine
end

