-- ==== Sys2Proof/Laws/LinksKeeps.lean ====
section
/-! SUPPORT. What the operations of Machine/Links.lean keep. -/
namespace Sys2Proof.Machine

theorem State.startTraining_keeps {r : State} {s : State} {g : Nat} (h : Keeps r s) :
    Keeps r (State.startTraining s g) := by
  unfold State.startTraining
  repeat' (first
    | with_reducible assumption
    | with_reducible exact rfl
    | with_reducible exact id
    | with_reducible exact RegFile.put_wf
    | with_reducible exact RegFile.setFld_wf
    | with_reducible exact RegFile.filter_wf
    | with_reducible exact fun w => RegFile.foldl_wf w (fun _ _ w => RegFile.put_wf w)
    | with_reducible exact (listModify_length _ _ _).trans
    | with_reducible exact fun _ => List.length_replicate
    | with_reducible exact List.length_map _ |>.trans
    | (intro x; refine (fun (hx : Keeps r x) => ?_) ?_; clear_value x; rotate_left; subst x)
    | (intro x; refine (fun (hx : FstKeeps r x) => ?_) ?_; clear_value x; rotate_left; subst x)
    | (intro x; refine (fun (hf0 : ∀ s, Keeps r s → Keeps r (x s)) => ?_) ?_; clear_value x; rotate_left; subst x; intro _ _)
    | (intro x; refine (fun (hf1 : ∀ s c, Keeps r s → Keeps r (x s c)) => ?_) ?_; clear_value x; rotate_left; subst x; intro _ _ _)
    | (intro x; refine (fun (hf2 : ∀ c, Keeps r (x c)) => ?_) ?_; clear_value x; rotate_left; subst x; intro _)
    | (intro x; have hs : (x : Safety) = x := rfl; clear hs; subst x)
    | (intro x; clear_value x)
    | (intro x)
    | lift_lets
    | with_reducible apply State.set_keeps
    | with_reducible apply State.setGroup_keeps
    | with_reducible apply Keeps.ite
    | (with_reducible refine Keeps.foldl ?_ (fun _ _ _ => ?_))
    | with_reducible apply hf0
    | with_reducible apply hf2
    | with_reducible apply hf1
    | with_reducible apply Keeps.upd)

theorem State.backToClock_keeps {r : State} {s : State} {g : Nat} (h : Keeps r s) :
    Keeps r (State.backToClock s g) := by
  unfold State.backToClock
  repeat' (first
    | with_reducible assumption
    | with_reducible exact rfl
    | with_reducible exact id
    | with_reducible exact RegFile.put_wf
    | with_reducible exact RegFile.setFld_wf
    | with_reducible exact RegFile.filter_wf
    | with_reducible exact fun w => RegFile.foldl_wf w (fun _ _ w => RegFile.put_wf w)
    | with_reducible exact (listModify_length _ _ _).trans
    | with_reducible exact fun _ => List.length_replicate
    | with_reducible exact List.length_map _ |>.trans
    | (intro x; refine (fun (hx : Keeps r x) => ?_) ?_; clear_value x; rotate_left; subst x)
    | (intro x; refine (fun (hx : FstKeeps r x) => ?_) ?_; clear_value x; rotate_left; subst x)
    | (intro x; refine (fun (hf0 : ∀ s, Keeps r s → Keeps r (x s)) => ?_) ?_; clear_value x; rotate_left; subst x; intro _ _)
    | (intro x; refine (fun (hf1 : ∀ s c, Keeps r s → Keeps r (x s c)) => ?_) ?_; clear_value x; rotate_left; subst x; intro _ _ _)
    | (intro x; refine (fun (hf2 : ∀ c, Keeps r (x c)) => ?_) ?_; clear_value x; rotate_left; subst x; intro _)
    | (intro x; have hs : (x : Safety) = x := rfl; clear hs; subst x)
    | (intro x; clear_value x)
    | (intro x)
    | lift_lets
    | with_reducible apply State.setGroup_keeps
    | with_reducible apply State.set_keeps
    | with_reducible apply Keeps.ite
    | (with_reducible refine Keeps.foldl ?_ (fun _ _ _ => ?_))
    | with_reducible apply hf0
    | with_reducible apply hf2
    | with_reducible apply hf1
    | with_reducible apply Keeps.upd)

theorem State.startPrbs_keeps {r : State} {s : State} {g : Nat} {w : Nat} {tap : Nat} (h : Keeps r s) :
    Keeps r (State.startPrbs s g w tap) := by
  unfold State.startPrbs
  repeat' (first
    | with_reducible assumption
    | with_reducible exact rfl
    | with_reducible exact id
    | with_reducible exact RegFile.put_wf
    | with_reducible exact RegFile.setFld_wf
    | with_reducible exact RegFile.filter_wf
    | with_reducible exact fun w => RegFile.foldl_wf w (fun _ _ w => RegFile.put_wf w)
    | with_reducible exact (listModify_length _ _ _).trans
    | with_reducible exact fun _ => List.length_replicate
    | with_reducible exact List.length_map _ |>.trans
    | (intro x; refine (fun (hx : Keeps r x) => ?_) ?_; clear_value x; rotate_left; subst x)
    | (intro x; refine (fun (hx : FstKeeps r x) => ?_) ?_; clear_value x; rotate_left; subst x)
    | (intro x; refine (fun (hf0 : ∀ s, Keeps r s → Keeps r (x s)) => ?_) ?_; clear_value x; rotate_left; subst x; intro _ _)
    | (intro x; refine (fun (hf1 : ∀ s c, Keeps r s → Keeps r (x s c)) => ?_) ?_; clear_value x; rotate_left; subst x; intro _ _ _)
    | (intro x; refine (fun (hf2 : ∀ c, Keeps r (x c)) => ?_) ?_; clear_value x; rotate_left; subst x; intro _)
    | (intro x; have hs : (x : Safety) = x := rfl; clear hs; subst x)
    | (intro x; clear_value x)
    | (intro x)
    | lift_lets
    | with_reducible apply State.emit_keeps
    | with_reducible apply Keeps.ite
    | (with_reducible refine Keeps.foldl ?_ (fun _ _ _ => ?_))
    | with_reducible apply hf0
    | with_reducible apply hf2
    | with_reducible apply hf1
    | with_reducible apply Keeps.upd)

theorem State.clockStep_keeps {r : State} {s : State} {g : Nat} (h : Keeps r s) :
    Keeps r (State.clockStep s g) := by
  unfold State.clockStep
  repeat' (first
    | with_reducible assumption
    | with_reducible exact rfl
    | with_reducible exact id
    | with_reducible exact RegFile.put_wf
    | with_reducible exact RegFile.setFld_wf
    | with_reducible exact RegFile.filter_wf
    | with_reducible exact fun w => RegFile.foldl_wf w (fun _ _ w => RegFile.put_wf w)
    | with_reducible exact (listModify_length _ _ _).trans
    | with_reducible exact fun _ => List.length_replicate
    | with_reducible exact List.length_map _ |>.trans
    | (intro x; refine (fun (hx : Keeps r x) => ?_) ?_; clear_value x; rotate_left; subst x)
    | (intro x; refine (fun (hx : FstKeeps r x) => ?_) ?_; clear_value x; rotate_left; subst x)
    | (intro x; refine (fun (hf0 : ∀ s, Keeps r s → Keeps r (x s)) => ?_) ?_; clear_value x; rotate_left; subst x; intro _ _)
    | (intro x; refine (fun (hf1 : ∀ s c, Keeps r s → Keeps r (x s c)) => ?_) ?_; clear_value x; rotate_left; subst x; intro _ _ _)
    | (intro x; refine (fun (hf2 : ∀ c, Keeps r (x c)) => ?_) ?_; clear_value x; rotate_left; subst x; intro _)
    | (intro x; have hs : (x : Safety) = x := rfl; clear hs; subst x)
    | (intro x; clear_value x)
    | (intro x)
    | lift_lets
    | with_reducible apply State.startPrbs_keeps
    | with_reducible apply State.setGroup_keeps
    | with_reducible apply State.set_keeps
    | with_reducible apply Keeps.ite
    | (with_reducible refine Keeps.foldl ?_ (fun _ _ _ => ?_))
    | with_reducible apply hf0
    | with_reducible apply hf2
    | with_reducible apply hf1
    | with_reducible apply Keeps.upd)

theorem State.rtValid_keeps {r : State} {s : State} {g : Nat} (h : Keeps r s) :
    Keeps r (State.rtValid s g) := by
  unfold State.rtValid
  repeat' (first
    | with_reducible assumption
    | with_reducible exact rfl
    | with_reducible exact id
    | with_reducible exact RegFile.put_wf
    | with_reducible exact RegFile.setFld_wf
    | with_reducible exact RegFile.filter_wf
    | with_reducible exact fun w => RegFile.foldl_wf w (fun _ _ w => RegFile.put_wf w)
    | with_reducible exact (listModify_length _ _ _).trans
    | with_reducible exact fun _ => List.length_replicate
    | with_reducible exact List.length_map _ |>.trans
    | (intro x; refine (fun (hx : Keeps r x) => ?_) ?_; clear_value x; rotate_left; subst x)
    | (intro x; refine (fun (hx : FstKeeps r x) => ?_) ?_; clear_value x; rotate_left; subst x)
    | (intro x; refine (fun (hf0 : ∀ s, Keeps r s → Keeps r (x s)) => ?_) ?_; clear_value x; rotate_left; subst x; intro _ _)
    | (intro x; refine (fun (hf1 : ∀ s c, Keeps r s → Keeps r (x s c)) => ?_) ?_; clear_value x; rotate_left; subst x; intro _ _ _)
    | (intro x; refine (fun (hf2 : ∀ c, Keeps r (x c)) => ?_) ?_; clear_value x; rotate_left; subst x; intro _)
    | (intro x; have hs : (x : Safety) = x := rfl; clear hs; subst x)
    | (intro x; clear_value x)
    | (intro x)
    | lift_lets
    | with_reducible apply State.clockStep_keeps
    | with_reducible apply State.setGroup_keeps
    | with_reducible apply Keeps.ite
    | (with_reducible refine Keeps.foldl ?_ (fun _ _ _ => ?_))
    | with_reducible apply hf0
    | with_reducible apply hf2
    | with_reducible apply hf1
    | with_reducible apply Keeps.upd)

theorem State.rtMsg_keeps {r s : State} {g seq : Nat} {act : State → Option State} (h : Keeps r s)
    (ha : ∀ t, Keeps r t → OptKeeps r (act t)) : Keeps r (State.rtMsg s g seq act) := by
  have h' : Keeps r (s.rtValid g) := State.rtValid_keeps h
  unfold State.rtMsg
  dsimp only
  split
  · exact h'
  · split
    · exact State.bump_keeps h'
    · split
      · exact State.bump_keeps h'
      · rename_i e
        exact State.setGroup_keeps (State.bump_keeps ((ha _ h').some _ e))

theorem State.rtMsg_persist {r s : State} {g seq : Nat} {act : State → Option State} (h : Persist r s)
    (ha : ∀ t u, Persist r t → act t = some u → Persist r u) : Persist r (State.rtMsg s g seq act) := by
  have h' : Persist r (s.rtValid g) := h.via (State.rtValid_keeps (Keeps.refl _))
  unfold State.rtMsg
  dsimp only
  split
  · exact h'
  · split
    · exact h'.via (State.bump_keeps (Keeps.refl _))
    · split
      · exact h'.via (State.bump_keeps (Keeps.refl _))
      · rename_i e
        exact ((ha _ _ h' e).via (State.bump_keeps (Keeps.refl _))).via (State.setGroup_keeps (Keeps.refl _))

theorem State.prbsTxStart_keeps {r : State} {s : State} {g : Nat} (h : Keeps r s) :
    Keeps r (State.prbsTxStart s g) := by
  unfold State.prbsTxStart
  repeat' (first
    | with_reducible assumption
    | with_reducible exact rfl
    | with_reducible exact id
    | with_reducible exact RegFile.put_wf
    | with_reducible exact RegFile.setFld_wf
    | with_reducible exact RegFile.filter_wf
    | with_reducible exact fun w => RegFile.foldl_wf w (fun _ _ w => RegFile.put_wf w)
    | with_reducible exact (listModify_length _ _ _).trans
    | with_reducible exact fun _ => List.length_replicate
    | with_reducible exact List.length_map _ |>.trans
    | (intro x; refine (fun (hx : Keeps r x) => ?_) ?_; clear_value x; rotate_left; subst x)
    | (intro x; refine (fun (hx : FstKeeps r x) => ?_) ?_; clear_value x; rotate_left; subst x)
    | (intro x; refine (fun (hf0 : ∀ s, Keeps r s → Keeps r (x s)) => ?_) ?_; clear_value x; rotate_left; subst x; intro _ _)
    | (intro x; refine (fun (hf1 : ∀ s c, Keeps r s → Keeps r (x s c)) => ?_) ?_; clear_value x; rotate_left; subst x; intro _ _ _)
    | (intro x; refine (fun (hf2 : ∀ c, Keeps r (x c)) => ?_) ?_; clear_value x; rotate_left; subst x; intro _)
    | (intro x; have hs : (x : Safety) = x := rfl; clear hs; subst x)
    | (intro x; clear_value x)
    | (intro x)
    | lift_lets
    | with_reducible apply State.set_keeps
    | with_reducible apply State.startPrbs_keeps
    | with_reducible apply Keeps.ite
    | (with_reducible refine Keeps.foldl ?_ (fun _ _ _ => ?_))
    | with_reducible apply hf0
    | with_reducible apply hf2
    | with_reducible apply hf1
    | with_reducible apply Keeps.upd)

theorem State.prbsTxStop_keeps {r : State} {s : State} {g : Nat} (h : Keeps r s) :
    Keeps r (State.prbsTxStop s g) := by
  unfold State.prbsTxStop
  repeat' (first
    | with_reducible assumption
    | with_reducible exact rfl
    | with_reducible exact id
    | with_reducible exact RegFile.put_wf
    | with_reducible exact RegFile.setFld_wf
    | with_reducible exact RegFile.filter_wf
    | with_reducible exact fun w => RegFile.foldl_wf w (fun _ _ w => RegFile.put_wf w)
    | with_reducible exact (listModify_length _ _ _).trans
    | with_reducible exact fun _ => List.length_replicate
    | with_reducible exact List.length_map _ |>.trans
    | (intro x; refine (fun (hx : Keeps r x) => ?_) ?_; clear_value x; rotate_left; subst x)
    | (intro x; refine (fun (hx : FstKeeps r x) => ?_) ?_; clear_value x; rotate_left; subst x)
    | (intro x; refine (fun (hf0 : ∀ s, Keeps r s → Keeps r (x s)) => ?_) ?_; clear_value x; rotate_left; subst x; intro _ _)
    | (intro x; refine (fun (hf1 : ∀ s c, Keeps r s → Keeps r (x s c)) => ?_) ?_; clear_value x; rotate_left; subst x; intro _ _ _)
    | (intro x; refine (fun (hf2 : ∀ c, Keeps r (x c)) => ?_) ?_; clear_value x; rotate_left; subst x; intro _)
    | (intro x; have hs : (x : Safety) = x := rfl; clear hs; subst x)
    | (intro x; clear_value x)
    | (intro x)
    | lift_lets
    | with_reducible apply State.set_keeps
    | with_reducible apply State.setGroup_keeps
    | with_reducible apply State.startLine_keeps
    | with_reducible apply Keeps.ite
    | (with_reducible refine Keeps.foldl ?_ (fun _ _ _ => ?_))
    | with_reducible apply hf0
    | with_reducible apply hf2
    | with_reducible apply hf1
    | with_reducible apply Keeps.upd)

theorem State.prbsRtStart_keeps {r : State} {s : State} {g : Nat} (h : Keeps r s) :
    Keeps r (State.prbsRtStart s g) := by
  unfold State.prbsRtStart
  repeat' (first
    | with_reducible assumption
    | with_reducible exact rfl
    | with_reducible exact id
    | with_reducible exact RegFile.put_wf
    | with_reducible exact RegFile.setFld_wf
    | with_reducible exact RegFile.filter_wf
    | with_reducible exact fun w => RegFile.foldl_wf w (fun _ _ w => RegFile.put_wf w)
    | with_reducible exact (listModify_length _ _ _).trans
    | with_reducible exact fun _ => List.length_replicate
    | with_reducible exact List.length_map _ |>.trans
    | (intro x; refine (fun (hx : Keeps r x) => ?_) ?_; clear_value x; rotate_left; subst x)
    | (intro x; refine (fun (hx : FstKeeps r x) => ?_) ?_; clear_value x; rotate_left; subst x)
    | (intro x; refine (fun (hf0 : ∀ s, Keeps r s → Keeps r (x s)) => ?_) ?_; clear_value x; rotate_left; subst x; intro _ _)
    | (intro x; refine (fun (hf1 : ∀ s c, Keeps r s → Keeps r (x s c)) => ?_) ?_; clear_value x; rotate_left; subst x; intro _ _ _)
    | (intro x; refine (fun (hf2 : ∀ c, Keeps r (x c)) => ?_) ?_; clear_value x; rotate_left; subst x; intro _)
    | (intro x; have hs : (x : Safety) = x := rfl; clear hs; subst x)
    | (intro x; clear_value x)
    | (intro x)
    | lift_lets
    | with_reducible apply State.set_keeps
    | with_reducible apply Keeps.ite
    | (with_reducible refine Keeps.foldl ?_ (fun _ _ _ => ?_))
    | with_reducible apply hf0
    | with_reducible apply hf2
    | with_reducible apply hf1
    | with_reducible apply Keeps.upd)

theorem State.prbsRtStop_keeps {r : State} {s : State} {g : Nat} (h : Keeps r s) :
    Keeps r (State.prbsRtStop s g) := by
  unfold State.prbsRtStop
  repeat' (first
    | with_reducible assumption
    | with_reducible exact rfl
    | with_reducible exact id
    | with_reducible exact RegFile.put_wf
    | with_reducible exact RegFile.setFld_wf
    | with_reducible exact RegFile.filter_wf
    | with_reducible exact fun w => RegFile.foldl_wf w (fun _ _ w => RegFile.put_wf w)
    | with_reducible exact (listModify_length _ _ _).trans
    | with_reducible exact fun _ => List.length_replicate
    | with_reducible exact List.length_map _ |>.trans
    | (intro x; refine (fun (hx : Keeps r x) => ?_) ?_; clear_value x; rotate_left; subst x)
    | (intro x; refine (fun (hx : FstKeeps r x) => ?_) ?_; clear_value x; rotate_left; subst x)
    | (intro x; refine (fun (hf0 : ∀ s, Keeps r s → Keeps r (x s)) => ?_) ?_; clear_value x; rotate_left; subst x; intro _ _)
    | (intro x; refine (fun (hf1 : ∀ s c, Keeps r s → Keeps r (x s c)) => ?_) ?_; clear_value x; rotate_left; subst x; intro _ _ _)
    | (intro x; refine (fun (hf2 : ∀ c, Keeps r (x c)) => ?_) ?_; clear_value x; rotate_left; subst x; intro _)
    | (intro x; have hs : (x : Safety) = x := rfl; clear hs; subst x)
    | (intro x; clear_value x)
    | (intro x)
    | lift_lets
    | with_reducible apply State.setGroup_keeps
    | with_reducible apply State.set_keeps
    | with_reducible apply Keeps.ite
    | (with_reducible refine Keeps.foldl ?_ (fun _ _ _ => ?_))
    | with_reducible apply hf0
    | with_reducible apply hf2
    | with_reducible apply hf1
    | with_reducible apply Keeps.upd)

theorem State.groupEnable_keeps {r : State} {s : State} {g : Nat} (h : Keeps r s) :
    Keeps r (State.groupEnable s g) := by
  unfold State.groupEnable
  repeat' (first
    | with_reducible assumption
    | with_reducible exact rfl
    | with_reducible exact id
    | with_reducible exact RegFile.put_wf
    | with_reducible exact RegFile.setFld_wf
    | with_reducible exact RegFile.filter_wf
    | with_reducible exact fun w => RegFile.foldl_wf w (fun _ _ w => RegFile.put_wf w)
    | with_reducible exact (listModify_length _ _ _).trans
    | with_reducible exact fun _ => List.length_replicate
    | with_reducible exact List.length_map _ |>.trans
    | (intro x; refine (fun (hx : Keeps r x) => ?_) ?_; clear_value x; rotate_left; subst x)
    | (intro x; refine (fun (hx : FstKeeps r x) => ?_) ?_; clear_value x; rotate_left; subst x)
    | (intro x; refine (fun (hf0 : ∀ s, Keeps r s → Keeps r (x s)) => ?_) ?_; clear_value x; rotate_left; subst x; intro _ _)
    | (intro x; refine (fun (hf1 : ∀ s c, Keeps r s → Keeps r (x s c)) => ?_) ?_; clear_value x; rotate_left; subst x; intro _ _ _)
    | (intro x; refine (fun (hf2 : ∀ c, Keeps r (x c)) => ?_) ?_; clear_value x; rotate_left; subst x; intro _)
    | (intro x; have hs : (x : Safety) = x := rfl; clear hs; subst x)
    | (intro x; clear_value x)
    | (intro x)
    | lift_lets
    | with_reducible apply State.set_keeps
    | with_reducible apply State.startTraining_keeps
    | with_reducible apply Keeps.ite
    | (with_reducible refine Keeps.foldl ?_ (fun _ _ _ => ?_))
    | with_reducible apply hf0
    | with_reducible apply hf2
    | with_reducible apply hf1
    | with_reducible apply Keeps.upd)

theorem State.groupDisable_keeps {r : State} {s : State} {g : Nat} (h : Keeps r s) :
    Keeps r (State.groupDisable s g) := by
  unfold State.groupDisable
  repeat' (first
    | with_reducible assumption
    | with_reducible exact rfl
    | with_reducible exact id
    | with_reducible exact RegFile.put_wf
    | with_reducible exact RegFile.setFld_wf
    | with_reducible exact RegFile.filter_wf
    | with_reducible exact fun w => RegFile.foldl_wf w (fun _ _ w => RegFile.put_wf w)
    | with_reducible exact (listModify_length _ _ _).trans
    | with_reducible exact fun _ => List.length_replicate
    | with_reducible exact List.length_map _ |>.trans
    | (intro x; refine (fun (hx : Keeps r x) => ?_) ?_; clear_value x; rotate_left; subst x)
    | (intro x; refine (fun (hx : FstKeeps r x) => ?_) ?_; clear_value x; rotate_left; subst x)
    | (intro x; refine (fun (hf0 : ∀ s, Keeps r s → Keeps r (x s)) => ?_) ?_; clear_value x; rotate_left; subst x; intro _ _)
    | (intro x; refine (fun (hf1 : ∀ s c, Keeps r s → Keeps r (x s c)) => ?_) ?_; clear_value x; rotate_left; subst x; intro _ _ _)
    | (intro x; refine (fun (hf2 : ∀ c, Keeps r (x c)) => ?_) ?_; clear_value x; rotate_left; subst x; intro _)
    | (intro x; have hs : (x : Safety) = x := rfl; clear hs; subst x)
    | (intro x; clear_value x)
    | (intro x)
    | lift_lets
    | with_reducible apply State.set_keeps
    | with_reducible apply State.groupFail_keeps
    | with_reducible apply Keeps.ite
    | (with_reducible refine Keeps.foldl ?_ (fun _ _ _ => ?_))
    | with_reducible apply hf0
    | with_reducible apply hf2
    | with_reducible apply hf1
    | with_reducible apply Keeps.upd)

theorem State.eachBit_keeps {r s : State} {old new : Nat} {on off : State → Nat → State} (h : Keeps r s)
    (hon : ∀ s g, Keeps r s → Keeps r (on s g)) (hoff : ∀ s g, Keeps r s → Keeps r (off s g)) :
    Keeps r (State.eachBit s old new on off) :=
  Keeps.foldl h fun s g hs => Keeps.ite (hon s g hs) (Keeps.ite (hoff s g hs) hs)

theorem State.takeHead_keeps {r : State} {s : State} {g : Nat} {p : Packet} (h : Keeps r s) :
    Keeps r (State.takeHead s g p) := by
  unfold State.takeHead
  repeat' (first
    | with_reducible assumption
    | with_reducible exact rfl
    | with_reducible exact id
    | with_reducible exact RegFile.put_wf
    | with_reducible exact RegFile.setFld_wf
    | with_reducible exact RegFile.filter_wf
    | with_reducible exact fun w => RegFile.foldl_wf w (fun _ _ w => RegFile.put_wf w)
    | with_reducible exact (listModify_length _ _ _).trans
    | with_reducible exact fun _ => List.length_replicate
    | with_reducible exact List.length_map _ |>.trans
    | (intro x; refine (fun (hx : Keeps r x) => ?_) ?_; clear_value x; rotate_left; subst x)
    | (intro x; refine (fun (hx : FstKeeps r x) => ?_) ?_; clear_value x; rotate_left; subst x)
    | (intro x; refine (fun (hf0 : ∀ s, Keeps r s → Keeps r (x s)) => ?_) ?_; clear_value x; rotate_left; subst x; intro _ _)
    | (intro x; refine (fun (hf1 : ∀ s c, Keeps r s → Keeps r (x s c)) => ?_) ?_; clear_value x; rotate_left; subst x; intro _ _ _)
    | (intro x; refine (fun (hf2 : ∀ c, Keeps r (x c)) => ?_) ?_; clear_value x; rotate_left; subst x; intro _)
    | (intro x; have hs : (x : Safety) = x := rfl; clear hs; subst x)
    | (intro x; clear_value x)
    | (intro x)
    | lift_lets
    | with_reducible apply State.setGroup_keeps
    | (refine Keeps.of_fst ‹_ = (_, _)› ?_)
    | with_reducible apply Keeps.ite
    | (with_reducible refine Keeps.foldl ?_ (fun _ _ _ => ?_))
    | with_reducible apply FstKeeps.ite
    | (with_reducible refine FstKeeps.foldl ?_ (fun _ _ _ _ => ?_))
    | with_reducible apply hf0
    | with_reducible apply hf2
    | with_reducible apply hf1
    | split
    | with_reducible apply FstKeeps.mk
    | with_reducible apply Keeps.upd)

theorem State.putOnLanes_keeps {r : State} {s : State} {g : Nat} {p : Packet} (h : Keeps r s) :
    Keeps r (State.putOnLanes s g p) := by
  unfold State.putOnLanes
  repeat' (first
    | with_reducible assumption
    | with_reducible exact rfl
    | with_reducible exact id
    | with_reducible exact RegFile.put_wf
    | with_reducible exact RegFile.setFld_wf
    | with_reducible exact RegFile.filter_wf
    | with_reducible exact fun w => RegFile.foldl_wf w (fun _ _ w => RegFile.put_wf w)
    | with_reducible exact (listModify_length _ _ _).trans
    | with_reducible exact fun _ => List.length_replicate
    | with_reducible exact List.length_map _ |>.trans
    | (intro x; refine (fun (hx : Keeps r x) => ?_) ?_; clear_value x; rotate_left; subst x)
    | (intro x; refine (fun (hx : FstKeeps r x) => ?_) ?_; clear_value x; rotate_left; subst x)
    | (intro x; refine (fun (hf0 : ∀ s, Keeps r s → Keeps r (x s)) => ?_) ?_; clear_value x; rotate_left; subst x; intro _ _)
    | (intro x; refine (fun (hf1 : ∀ s c, Keeps r s → Keeps r (x s c)) => ?_) ?_; clear_value x; rotate_left; subst x; intro _ _ _)
    | (intro x; refine (fun (hf2 : ∀ c, Keeps r (x c)) => ?_) ?_; clear_value x; rotate_left; subst x; intro _)
    | (intro x; have hs : (x : Safety) = x := rfl; clear hs; subst x)
    | (intro x; clear_value x)
    | (intro x)
    | lift_lets
    | with_reducible apply State.set_keeps
    | with_reducible apply State.sendBlocks_keeps
    | with_reducible apply State.emit_keeps
    | with_reducible apply Keeps.ite
    | (with_reducible refine Keeps.foldl ?_ (fun _ _ _ => ?_))
    | with_reducible apply hf0
    | with_reducible apply hf2
    | with_reducible apply hf1
    | with_reducible apply Keeps.upd)

theorem State.sendHead_keeps {r : State} {s : State} {g : Nat} {p : Packet} (h : Keeps r s) :
    Keeps r (State.sendHead s g p) := by
  unfold State.sendHead
  repeat' (first
    | with_reducible assumption
    | with_reducible exact rfl
    | with_reducible exact id
    | with_reducible exact RegFile.put_wf
    | with_reducible exact RegFile.setFld_wf
    | with_reducible exact RegFile.filter_wf
    | with_reducible exact fun w => RegFile.foldl_wf w (fun _ _ w => RegFile.put_wf w)
    | with_reducible exact (listModify_length _ _ _).trans
    | with_reducible exact fun _ => List.length_replicate
    | with_reducible exact List.length_map _ |>.trans
    | (intro x; refine (fun (hx : Keeps r x) => ?_) ?_; clear_value x; rotate_left; subst x)
    | (intro x; refine (fun (hx : FstKeeps r x) => ?_) ?_; clear_value x; rotate_left; subst x)
    | (intro x; refine (fun (hf0 : ∀ s, Keeps r s → Keeps r (x s)) => ?_) ?_; clear_value x; rotate_left; subst x; intro _ _)
    | (intro x; refine (fun (hf1 : ∀ s c, Keeps r s → Keeps r (x s c)) => ?_) ?_; clear_value x; rotate_left; subst x; intro _ _ _)
    | (intro x; refine (fun (hf2 : ∀ c, Keeps r (x c)) => ?_) ?_; clear_value x; rotate_left; subst x; intro _)
    | (intro x; have hs : (x : Safety) = x := rfl; clear hs; subst x)
    | (intro x; clear_value x)
    | (intro x)
    | lift_lets
    | with_reducible apply State.takeHead_keeps
    | with_reducible apply State.set_keeps
    | with_reducible apply State.refreshWait_keeps
    | with_reducible apply State.putOnLanes_keeps
    | with_reducible apply Keeps.ite
    | (with_reducible refine Keeps.foldl ?_ (fun _ _ _ => ?_))
    | with_reducible apply hf0
    | with_reducible apply hf2
    | with_reducible apply hf1
    | with_reducible apply Keeps.upd)

theorem State.countDrain_keeps {r : State} {s : State} {g : Nat} {p : Packet} (h : Keeps r s) :
    Keeps r (State.countDrain s g p) := by
  unfold State.countDrain
  repeat' (first
    | with_reducible assumption
    | with_reducible exact rfl
    | with_reducible exact id
    | with_reducible exact RegFile.put_wf
    | with_reducible exact RegFile.setFld_wf
    | with_reducible exact RegFile.filter_wf
    | with_reducible exact fun w => RegFile.foldl_wf w (fun _ _ w => RegFile.put_wf w)
    | with_reducible exact (listModify_length _ _ _).trans
    | with_reducible exact fun _ => List.length_replicate
    | with_reducible exact List.length_map _ |>.trans
    | (intro x; refine (fun (hx : Keeps r x) => ?_) ?_; clear_value x; rotate_left; subst x)
    | (intro x; refine (fun (hx : FstKeeps r x) => ?_) ?_; clear_value x; rotate_left; subst x)
    | (intro x; refine (fun (hf0 : ∀ s, Keeps r s → Keeps r (x s)) => ?_) ?_; clear_value x; rotate_left; subst x; intro _ _)
    | (intro x; refine (fun (hf1 : ∀ s c, Keeps r s → Keeps r (x s c)) => ?_) ?_; clear_value x; rotate_left; subst x; intro _ _ _)
    | (intro x; refine (fun (hf2 : ∀ c, Keeps r (x c)) => ?_) ?_; clear_value x; rotate_left; subst x; intro _)
    | (intro x; have hs : (x : Safety) = x := rfl; clear hs; subst x)
    | (intro x; clear_value x)
    | (intro x)
    | lift_lets
    | with_reducible apply State.tookShare_keeps
    | with_reducible apply Keeps.ite
    | (with_reducible refine Keeps.foldl ?_ (fun _ _ _ => ?_))
    | with_reducible apply hf0
    | with_reducible apply hf2
    | with_reducible apply hf1
    | with_reducible apply Keeps.upd)

theorem State.sendMarkers_keeps {r : State} {s : State} {port : Nat} {grp : Nat} (h : Keeps r s) :
    Keeps r (State.sendMarkers s port grp) := by
  unfold State.sendMarkers
  repeat' (first
    | with_reducible assumption
    | with_reducible exact rfl
    | with_reducible exact id
    | with_reducible exact RegFile.put_wf
    | with_reducible exact RegFile.setFld_wf
    | with_reducible exact RegFile.filter_wf
    | with_reducible exact fun w => RegFile.foldl_wf w (fun _ _ w => RegFile.put_wf w)
    | with_reducible exact (listModify_length _ _ _).trans
    | with_reducible exact fun _ => List.length_replicate
    | with_reducible exact List.length_map _ |>.trans
    | (intro x; refine (fun (hx : Keeps r x) => ?_) ?_; clear_value x; rotate_left; subst x)
    | (intro x; refine (fun (hx : FstKeeps r x) => ?_) ?_; clear_value x; rotate_left; subst x)
    | (intro x; refine (fun (hf0 : ∀ s, Keeps r s → Keeps r (x s)) => ?_) ?_; clear_value x; rotate_left; subst x; intro _ _)
    | (intro x; refine (fun (hf1 : ∀ s c, Keeps r s → Keeps r (x s c)) => ?_) ?_; clear_value x; rotate_left; subst x; intro _ _ _)
    | (intro x; refine (fun (hf2 : ∀ c, Keeps r (x c)) => ?_) ?_; clear_value x; rotate_left; subst x; intro _)
    | (intro x; have hs : (x : Safety) = x := rfl; clear hs; subst x)
    | (intro x; clear_value x)
    | (intro x)
    | lift_lets
    | with_reducible apply State.fillIdle_keeps
    | with_reducible apply State.emit_keeps
    | with_reducible apply State.lineAfterMarker_keeps
    | with_reducible apply Keeps.ite
    | (with_reducible refine Keeps.foldl ?_ (fun _ _ _ => ?_))
    | with_reducible apply hf0
    | with_reducible apply hf2
    | with_reducible apply hf1
    | with_reducible apply Keeps.upd)

theorem State.eyeScanStart_keeps {r : State} {s : State} {v : Word} (h : Keeps r s) :
    Keeps r (State.eyeScanStart s v) := by
  unfold State.eyeScanStart
  repeat' (first
    | with_reducible assumption
    | with_reducible exact rfl
    | with_reducible exact id
    | with_reducible exact RegFile.put_wf
    | with_reducible exact RegFile.setFld_wf
    | with_reducible exact RegFile.filter_wf
    | with_reducible exact fun w => RegFile.foldl_wf w (fun _ _ w => RegFile.put_wf w)
    | with_reducible exact (listModify_length _ _ _).trans
    | with_reducible exact fun _ => List.length_replicate
    | with_reducible exact List.length_map _ |>.trans
    | (intro x; refine (fun (hx : Keeps r x) => ?_) ?_; clear_value x; rotate_left; subst x)
    | (intro x; refine (fun (hx : FstKeeps r x) => ?_) ?_; clear_value x; rotate_left; subst x)
    | (intro x; refine (fun (hf0 : ∀ s, Keeps r s → Keeps r (x s)) => ?_) ?_; clear_value x; rotate_left; subst x; intro _ _)
    | (intro x; refine (fun (hf1 : ∀ s c, Keeps r s → Keeps r (x s c)) => ?_) ?_; clear_value x; rotate_left; subst x; intro _ _ _)
    | (intro x; refine (fun (hf2 : ∀ c, Keeps r (x c)) => ?_) ?_; clear_value x; rotate_left; subst x; intro _)
    | (intro x; have hs : (x : Safety) = x := rfl; clear hs; subst x)
    | (intro x; clear_value x)
    | (intro x)
    | lift_lets
    | with_reducible apply State.set_keeps
    | with_reducible apply Keeps.ite
    | (with_reducible refine Keeps.foldl ?_ (fun _ _ _ => ?_))
    | with_reducible apply hf0
    | with_reducible apply hf2
    | with_reducible apply hf1
    | with_reducible apply Keeps.upd)

theorem execRtBlockLock_keeps {r : State} {g : Nat} {s : State} (h : Keeps r s) :
    OutKeeps r (execRtBlockLock g s) := by
  unfold execRtBlockLock
  repeat' (first
    | with_reducible assumption
    | with_reducible exact rfl
    | with_reducible exact id
    | with_reducible exact RegFile.put_wf
    | with_reducible exact RegFile.setFld_wf
    | with_reducible exact RegFile.filter_wf
    | with_reducible exact fun w => RegFile.foldl_wf w (fun _ _ w => RegFile.put_wf w)
    | with_reducible exact (listModify_length _ _ _).trans
    | with_reducible exact fun _ => List.length_replicate
    | with_reducible exact List.length_map _ |>.trans
    | (intro x; refine (fun (hx : Keeps r x) => ?_) ?_; clear_value x; rotate_left; subst x)
    | (intro x; refine (fun (hx : FstKeeps r x) => ?_) ?_; clear_value x; rotate_left; subst x)
    | (intro x; refine (fun (hf0 : ∀ s, Keeps r s → Keeps r (x s)) => ?_) ?_; clear_value x; rotate_left; subst x; intro _ _)
    | (intro x; refine (fun (hf1 : ∀ s c, Keeps r s → Keeps r (x s c)) => ?_) ?_; clear_value x; rotate_left; subst x; intro _ _ _)
    | (intro x; refine (fun (hf2 : ∀ c, Keeps r (x c)) => ?_) ?_; clear_value x; rotate_left; subst x; intro _)
    | (intro x; have hs : (x : Safety) = x := rfl; clear hs; subst x)
    | (intro x; clear_value x)
    | (intro x)
    | lift_lets
    | with_reducible apply State.rtValid_keeps
    | with_reducible apply State.set_keeps
    | with_reducible apply OutKeeps.ok
    | with_reducible apply OutKeeps.ite
    | with_reducible apply Keeps.ite
    | (with_reducible refine Keeps.foldl ?_ (fun _ _ _ => ?_))
    | with_reducible apply hf0
    | with_reducible apply hf2
    | with_reducible apply hf1
    | with_reducible apply Keeps.upd)

theorem execRtLockLoss_keeps {r : State} {g : Nat} {s : State} (h : Keeps r s) :
    OutKeeps r (execRtLockLoss g s) := by
  unfold execRtLockLoss
  repeat' (first
    | with_reducible assumption
    | with_reducible exact rfl
    | with_reducible exact id
    | with_reducible exact RegFile.put_wf
    | with_reducible exact RegFile.setFld_wf
    | with_reducible exact RegFile.filter_wf
    | with_reducible exact fun w => RegFile.foldl_wf w (fun _ _ w => RegFile.put_wf w)
    | with_reducible exact (listModify_length _ _ _).trans
    | with_reducible exact fun _ => List.length_replicate
    | with_reducible exact List.length_map _ |>.trans
    | (intro x; refine (fun (hx : Keeps r x) => ?_) ?_; clear_value x; rotate_left; subst x)
    | (intro x; refine (fun (hx : FstKeeps r x) => ?_) ?_; clear_value x; rotate_left; subst x)
    | (intro x; refine (fun (hf0 : ∀ s, Keeps r s → Keeps r (x s)) => ?_) ?_; clear_value x; rotate_left; subst x; intro _ _)
    | (intro x; refine (fun (hf1 : ∀ s c, Keeps r s → Keeps r (x s c)) => ?_) ?_; clear_value x; rotate_left; subst x; intro _ _ _)
    | (intro x; refine (fun (hf2 : ∀ c, Keeps r (x c)) => ?_) ?_; clear_value x; rotate_left; subst x; intro _)
    | (intro x; have hs : (x : Safety) = x := rfl; clear hs; subst x)
    | (intro x; clear_value x)
    | (intro x)
    | lift_lets
    | with_reducible apply State.set_keeps
    | with_reducible apply OutKeeps.ok
    | with_reducible apply OutKeeps.ite
    | with_reducible apply Keeps.ite
    | (with_reducible refine Keeps.foldl ?_ (fun _ _ _ => ?_))
    | with_reducible apply hf0
    | with_reducible apply hf2
    | with_reducible apply hf1
    | with_reducible apply Keeps.upd)

theorem execIdle_keeps {r : State} {g : Nat} {s : State} (h : Keeps r s) :
    OutKeeps r (execIdle g s) := by
  unfold execIdle
  repeat' (first
    | with_reducible assumption
    | with_reducible exact rfl
    | with_reducible exact id
    | with_reducible exact RegFile.put_wf
    | with_reducible exact RegFile.setFld_wf
    | with_reducible exact RegFile.filter_wf
    | with_reducible exact fun w => RegFile.foldl_wf w (fun _ _ w => RegFile.put_wf w)
    | with_reducible exact (listModify_length _ _ _).trans
    | with_reducible exact fun _ => List.length_replicate
    | with_reducible exact List.length_map _ |>.trans
    | (intro x; refine (fun (hx : Keeps r x) => ?_) ?_; clear_value x; rotate_left; subst x)
    | (intro x; refine (fun (hx : FstKeeps r x) => ?_) ?_; clear_value x; rotate_left; subst x)
    | (intro x; refine (fun (hf0 : ∀ s, Keeps r s → Keeps r (x s)) => ?_) ?_; clear_value x; rotate_left; subst x; intro _ _)
    | (intro x; refine (fun (hf1 : ∀ s c, Keeps r s → Keeps r (x s c)) => ?_) ?_; clear_value x; rotate_left; subst x; intro _ _ _)
    | (intro x; refine (fun (hf2 : ∀ c, Keeps r (x c)) => ?_) ?_; clear_value x; rotate_left; subst x; intro _)
    | (intro x; have hs : (x : Safety) = x := rfl; clear hs; subst x)
    | (intro x; clear_value x)
    | (intro x)
    | lift_lets
    | with_reducible apply State.rtValid_keeps
    | with_reducible apply OutKeeps.ok
    | with_reducible apply OutKeeps.ite
    | with_reducible apply Keeps.ite
    | (with_reducible refine Keeps.foldl ?_ (fun _ _ _ => ?_))
    | with_reducible apply hf0
    | with_reducible apply hf2
    | with_reducible apply hf1
    | with_reducible apply Keeps.upd)

theorem execCredit_keeps {r : State} {g : Nat} {seq : Nat} {limit : Nat} {s : State} (h : Keeps r s) :
    OutKeeps r (execCredit g seq limit s) := by
  unfold execCredit
  repeat' (first
    | with_reducible assumption
    | with_reducible exact rfl
    | with_reducible exact id
    | with_reducible exact RegFile.put_wf
    | with_reducible exact RegFile.setFld_wf
    | with_reducible exact RegFile.filter_wf
    | with_reducible exact fun w => RegFile.foldl_wf w (fun _ _ w => RegFile.put_wf w)
    | with_reducible exact (listModify_length _ _ _).trans
    | with_reducible exact fun _ => List.length_replicate
    | with_reducible exact List.length_map _ |>.trans
    | (intro x; refine (fun (hx : Keeps r x) => ?_) ?_; clear_value x; rotate_left; subst x)
    | (intro x; refine (fun (hx : FstKeeps r x) => ?_) ?_; clear_value x; rotate_left; subst x)
    | (intro x; refine (fun (hf0 : ∀ s, Keeps r s → Keeps r (x s)) => ?_) ?_; clear_value x; rotate_left; subst x; intro _ _)
    | (intro x; refine (fun (hf1 : ∀ s c, Keeps r s → Keeps r (x s c)) => ?_) ?_; clear_value x; rotate_left; subst x; intro _ _ _)
    | (intro x; refine (fun (hf2 : ∀ c, Keeps r (x c)) => ?_) ?_; clear_value x; rotate_left; subst x; intro _)
    | (intro x; have hs : (x : Safety) = x := rfl; clear hs; subst x)
    | (intro x; clear_value x)
    | (intro x)
    | lift_lets
    | (with_reducible refine State.rtMsg_keeps ?_ (fun _ _ => ?_))
    | with_reducible apply State.refreshWait_keeps
    | with_reducible apply State.set_keeps
    | with_reducible apply OptKeeps.mkSome
    | with_reducible exact OptKeeps.mkNone
    | (with_reducible refine OptKeeps.map (fun _ => ?_))
    | (with_reducible refine OptKeeps.bind (fun _ => ?_))
    | with_reducible apply OptKeeps.ite
    | with_reducible apply OutKeeps.ok
    | with_reducible apply OutKeeps.ite
    | with_reducible apply Keeps.ite
    | (with_reducible refine Keeps.foldl ?_ (fun _ _ _ => ?_))
    | with_reducible apply hf0
    | with_reducible apply hf2
    | with_reducible apply hf1
    | with_reducible apply Keeps.upd)

theorem execPatternOk_keeps {r : State} {g : Nat} {seq : Nat} {s : State} (h : Keeps r s) :
    OutKeeps r (execPatternOk g seq s) := by
  unfold execPatternOk
  repeat' (first
    | with_reducible assumption
    | with_reducible exact rfl
    | with_reducible exact id
    | with_reducible exact RegFile.put_wf
    | with_reducible exact RegFile.setFld_wf
    | with_reducible exact RegFile.filter_wf
    | with_reducible exact fun w => RegFile.foldl_wf w (fun _ _ w => RegFile.put_wf w)
    | with_reducible exact (listModify_length _ _ _).trans
    | with_reducible exact fun _ => List.length_replicate
    | with_reducible exact List.length_map _ |>.trans
    | (intro x; refine (fun (hx : Keeps r x) => ?_) ?_; clear_value x; rotate_left; subst x)
    | (intro x; refine (fun (hx : FstKeeps r x) => ?_) ?_; clear_value x; rotate_left; subst x)
    | (intro x; refine (fun (hf0 : ∀ s, Keeps r s → Keeps r (x s)) => ?_) ?_; clear_value x; rotate_left; subst x; intro _ _)
    | (intro x; refine (fun (hf1 : ∀ s c, Keeps r s → Keeps r (x s c)) => ?_) ?_; clear_value x; rotate_left; subst x; intro _ _ _)
    | (intro x; refine (fun (hf2 : ∀ c, Keeps r (x c)) => ?_) ?_; clear_value x; rotate_left; subst x; intro _)
    | (intro x; have hs : (x : Safety) = x := rfl; clear hs; subst x)
    | (intro x; clear_value x)
    | (intro x)
    | lift_lets
    | (with_reducible refine State.rtMsg_keeps ?_ (fun _ _ => ?_))
    | with_reducible apply State.setGroup_keeps
    | with_reducible apply OptKeeps.mkSome
    | with_reducible exact OptKeeps.mkNone
    | (with_reducible refine OptKeeps.map (fun _ => ?_))
    | (with_reducible refine OptKeeps.bind (fun _ => ?_))
    | with_reducible apply OptKeeps.ite
    | with_reducible apply OutKeeps.ok
    | with_reducible apply OutKeeps.ite
    | with_reducible apply Keeps.ite
    | (with_reducible refine Keeps.foldl ?_ (fun _ _ _ => ?_))
    | with_reducible apply hf0
    | with_reducible apply hf2
    | with_reducible apply hf1
    | with_reducible apply Keeps.upd)

theorem execPhase_keeps {r : State} {g : Nat} {seq : Nat} {lane : Nat} {tap : Nat} {s : State} (h : Keeps r s) :
    OutKeeps r (execPhase g seq lane tap s) := by
  unfold execPhase
  repeat' (first
    | with_reducible assumption
    | with_reducible exact rfl
    | with_reducible exact id
    | with_reducible exact RegFile.put_wf
    | with_reducible exact RegFile.setFld_wf
    | with_reducible exact RegFile.filter_wf
    | with_reducible exact fun w => RegFile.foldl_wf w (fun _ _ w => RegFile.put_wf w)
    | with_reducible exact (listModify_length _ _ _).trans
    | with_reducible exact fun _ => List.length_replicate
    | with_reducible exact List.length_map _ |>.trans
    | (intro x; refine (fun (hx : Keeps r x) => ?_) ?_; clear_value x; rotate_left; subst x)
    | (intro x; refine (fun (hx : FstKeeps r x) => ?_) ?_; clear_value x; rotate_left; subst x)
    | (intro x; refine (fun (hf0 : ∀ s, Keeps r s → Keeps r (x s)) => ?_) ?_; clear_value x; rotate_left; subst x; intro _ _)
    | (intro x; refine (fun (hf1 : ∀ s c, Keeps r s → Keeps r (x s c)) => ?_) ?_; clear_value x; rotate_left; subst x; intro _ _ _)
    | (intro x; refine (fun (hf2 : ∀ c, Keeps r (x c)) => ?_) ?_; clear_value x; rotate_left; subst x; intro _)
    | (intro x; have hs : (x : Safety) = x := rfl; clear hs; subst x)
    | (intro x; clear_value x)
    | (intro x)
    | lift_lets
    | (with_reducible refine State.rtMsg_keeps ?_ (fun _ _ => ?_))
    | with_reducible apply State.set_keeps
    | with_reducible apply OptKeeps.mkSome
    | with_reducible exact OptKeeps.mkNone
    | (with_reducible refine OptKeeps.map (fun _ => ?_))
    | (with_reducible refine OptKeeps.bind (fun _ => ?_))
    | with_reducible apply OptKeeps.ite
    | with_reducible apply OutKeeps.ok
    | with_reducible apply OutKeeps.ite
    | with_reducible apply Keeps.ite
    | (with_reducible refine Keeps.foldl ?_ (fun _ _ _ => ?_))
    | with_reducible apply hf0
    | with_reducible apply hf2
    | with_reducible apply hf1
    | with_reducible apply Keeps.upd)

theorem execWaddr_keeps {r : State} {g : Nat} {seq : Nat} {addr : Nat} {s : State} (h : Keeps r s) :
    OutKeeps r (execWaddr g seq addr s) := by
  unfold execWaddr
  repeat' (first
    | with_reducible assumption
    | with_reducible exact rfl
    | with_reducible exact id
    | with_reducible exact RegFile.put_wf
    | with_reducible exact RegFile.setFld_wf
    | with_reducible exact RegFile.filter_wf
    | with_reducible exact fun w => RegFile.foldl_wf w (fun _ _ w => RegFile.put_wf w)
    | with_reducible exact (listModify_length _ _ _).trans
    | with_reducible exact fun _ => List.length_replicate
    | with_reducible exact List.length_map _ |>.trans
    | (intro x; refine (fun (hx : Keeps r x) => ?_) ?_; clear_value x; rotate_left; subst x)
    | (intro x; refine (fun (hx : FstKeeps r x) => ?_) ?_; clear_value x; rotate_left; subst x)
    | (intro x; refine (fun (hf0 : ∀ s, Keeps r s → Keeps r (x s)) => ?_) ?_; clear_value x; rotate_left; subst x; intro _ _)
    | (intro x; refine (fun (hf1 : ∀ s c, Keeps r s → Keeps r (x s c)) => ?_) ?_; clear_value x; rotate_left; subst x; intro _ _ _)
    | (intro x; refine (fun (hf2 : ∀ c, Keeps r (x c)) => ?_) ?_; clear_value x; rotate_left; subst x; intro _)
    | (intro x; have hs : (x : Safety) = x := rfl; clear hs; subst x)
    | (intro x; clear_value x)
    | (intro x)
    | lift_lets
    | (with_reducible refine State.rtMsg_keeps ?_ (fun _ _ => ?_))
    | with_reducible apply OptKeeps.mkSome
    | with_reducible exact OptKeeps.mkNone
    | (with_reducible refine OptKeeps.map (fun _ => ?_))
    | (with_reducible refine OptKeeps.bind (fun _ => ?_))
    | with_reducible apply OptKeeps.ite
    | with_reducible apply OutKeeps.ok
    | with_reducible apply OutKeeps.ite
    | with_reducible apply Keeps.ite
    | (with_reducible refine Keeps.foldl ?_ (fun _ _ _ => ?_))
    | with_reducible apply hf0
    | with_reducible apply hf2
    | with_reducible apply hf1
    | with_reducible apply Keeps.upd)

theorem execRcfrm_keeps {r : State} {g : Nat} {seq : Nat} {frame : Nat} {s : State} (h : Keeps r s) :
    OutKeeps r (execRcfrm g seq frame s) := by
  unfold execRcfrm
  repeat' (first
    | with_reducible assumption
    | with_reducible exact rfl
    | with_reducible exact id
    | with_reducible exact RegFile.put_wf
    | with_reducible exact RegFile.setFld_wf
    | with_reducible exact RegFile.filter_wf
    | with_reducible exact fun w => RegFile.foldl_wf w (fun _ _ w => RegFile.put_wf w)
    | with_reducible exact (listModify_length _ _ _).trans
    | with_reducible exact fun _ => List.length_replicate
    | with_reducible exact List.length_map _ |>.trans
    | (intro x; refine (fun (hx : Keeps r x) => ?_) ?_; clear_value x; rotate_left; subst x)
    | (intro x; refine (fun (hx : FstKeeps r x) => ?_) ?_; clear_value x; rotate_left; subst x)
    | (intro x; refine (fun (hf0 : ∀ s, Keeps r s → Keeps r (x s)) => ?_) ?_; clear_value x; rotate_left; subst x; intro _ _)
    | (intro x; refine (fun (hf1 : ∀ s c, Keeps r s → Keeps r (x s c)) => ?_) ?_; clear_value x; rotate_left; subst x; intro _ _ _)
    | (intro x; refine (fun (hf2 : ∀ c, Keeps r (x c)) => ?_) ?_; clear_value x; rotate_left; subst x; intro _)
    | (intro x; have hs : (x : Safety) = x := rfl; clear hs; subst x)
    | (intro x; clear_value x)
    | (intro x)
    | lift_lets
    | (with_reducible refine State.rtMsg_keeps ?_ (fun _ _ => ?_))
    | with_reducible apply OptKeeps.mkSome
    | with_reducible exact OptKeeps.mkNone
    | (with_reducible refine OptKeeps.map (fun _ => ?_))
    | (with_reducible refine OptKeeps.bind (fun _ => ?_))
    | with_reducible apply OptKeeps.ite
    | with_reducible apply OutKeeps.ok
    | with_reducible apply OutKeeps.ite
    | with_reducible apply Keeps.ite
    | (with_reducible refine Keeps.foldl ?_ (fun _ _ _ => ?_))
    | with_reducible apply hf0
    | with_reducible apply hf2
    | with_reducible apply hf1
    | with_reducible apply Keeps.upd)

theorem execRtReservedType_keeps {r : State} {g : Nat} {seq : Nat} {s : State} (h : Keeps r s) :
    OutKeeps r (execRtReservedType g seq s) := by
  unfold execRtReservedType
  repeat' (first
    | with_reducible assumption
    | with_reducible exact rfl
    | with_reducible exact id
    | with_reducible exact RegFile.put_wf
    | with_reducible exact RegFile.setFld_wf
    | with_reducible exact RegFile.filter_wf
    | with_reducible exact fun w => RegFile.foldl_wf w (fun _ _ w => RegFile.put_wf w)
    | with_reducible exact (listModify_length _ _ _).trans
    | with_reducible exact fun _ => List.length_replicate
    | with_reducible exact List.length_map _ |>.trans
    | (intro x; refine (fun (hx : Keeps r x) => ?_) ?_; clear_value x; rotate_left; subst x)
    | (intro x; refine (fun (hx : FstKeeps r x) => ?_) ?_; clear_value x; rotate_left; subst x)
    | (intro x; refine (fun (hf0 : ∀ s, Keeps r s → Keeps r (x s)) => ?_) ?_; clear_value x; rotate_left; subst x; intro _ _)
    | (intro x; refine (fun (hf1 : ∀ s c, Keeps r s → Keeps r (x s c)) => ?_) ?_; clear_value x; rotate_left; subst x; intro _ _ _)
    | (intro x; refine (fun (hf2 : ∀ c, Keeps r (x c)) => ?_) ?_; clear_value x; rotate_left; subst x; intro _)
    | (intro x; have hs : (x : Safety) = x := rfl; clear hs; subst x)
    | (intro x; clear_value x)
    | (intro x)
    | lift_lets
    | (with_reducible refine State.rtMsg_keeps ?_ (fun _ _ => ?_))
    | with_reducible apply OptKeeps.mkSome
    | with_reducible exact OptKeeps.mkNone
    | (with_reducible refine OptKeeps.map (fun _ => ?_))
    | (with_reducible refine OptKeeps.bind (fun _ => ?_))
    | with_reducible apply OptKeeps.ite
    | with_reducible apply OutKeeps.ok
    | with_reducible apply OutKeeps.ite
    | with_reducible apply Keeps.ite
    | (with_reducible refine Keeps.foldl ?_ (fun _ _ _ => ?_))
    | with_reducible apply hf0
    | with_reducible apply hf2
    | with_reducible apply hf1
    | with_reducible apply Keeps.upd)

theorem execTrainingStepTimeout_keeps {r : State} {g : Nat} {s : State} (h : Keeps r s) :
    OutKeeps r (execTrainingStepTimeout g s) := by
  unfold execTrainingStepTimeout
  repeat' (first
    | with_reducible assumption
    | with_reducible exact rfl
    | with_reducible exact id
    | with_reducible exact RegFile.put_wf
    | with_reducible exact RegFile.setFld_wf
    | with_reducible exact RegFile.filter_wf
    | with_reducible exact fun w => RegFile.foldl_wf w (fun _ _ w => RegFile.put_wf w)
    | with_reducible exact (listModify_length _ _ _).trans
    | with_reducible exact fun _ => List.length_replicate
    | with_reducible exact List.length_map _ |>.trans
    | (intro x; refine (fun (hx : Keeps r x) => ?_) ?_; clear_value x; rotate_left; subst x)
    | (intro x; refine (fun (hx : FstKeeps r x) => ?_) ?_; clear_value x; rotate_left; subst x)
    | (intro x; refine (fun (hf0 : ∀ s, Keeps r s → Keeps r (x s)) => ?_) ?_; clear_value x; rotate_left; subst x; intro _ _)
    | (intro x; refine (fun (hf1 : ∀ s c, Keeps r s → Keeps r (x s c)) => ?_) ?_; clear_value x; rotate_left; subst x; intro _ _ _)
    | (intro x; refine (fun (hf2 : ∀ c, Keeps r (x c)) => ?_) ?_; clear_value x; rotate_left; subst x; intro _)
    | (intro x; have hs : (x : Safety) = x := rfl; clear hs; subst x)
    | (intro x; clear_value x)
    | (intro x)
    | lift_lets
    | with_reducible apply State.bump_keeps
    | with_reducible apply State.backToClock_keeps
    | with_reducible apply OutKeeps.ok
    | with_reducible apply OutKeeps.ite
    | with_reducible apply Keeps.ite
    | (with_reducible refine Keeps.foldl ?_ (fun _ _ _ => ?_))
    | with_reducible apply hf0
    | with_reducible apply hf2
    | with_reducible apply hf1
    | with_reducible apply Keeps.upd)

theorem State.enterMarker_keeps {r : State} {s : State} {g : Nat} (h : Keeps r s) :
    Keeps r (State.enterMarker s g) := by
  unfold State.enterMarker
  repeat' (first
    | with_reducible assumption
    | with_reducible exact rfl
    | with_reducible exact id
    | with_reducible exact RegFile.put_wf
    | with_reducible exact RegFile.setFld_wf
    | with_reducible exact RegFile.filter_wf
    | with_reducible exact fun w => RegFile.foldl_wf w (fun _ _ w => RegFile.put_wf w)
    | with_reducible exact (listModify_length _ _ _).trans
    | with_reducible exact fun _ => List.length_replicate
    | with_reducible exact List.length_map _ |>.trans
    | (intro x; refine (fun (hx : Keeps r x) => ?_) ?_; clear_value x; rotate_left; subst x)
    | (intro x; refine (fun (hx : FstKeeps r x) => ?_) ?_; clear_value x; rotate_left; subst x)
    | (intro x; refine (fun (hf0 : ∀ s, Keeps r s → Keeps r (x s)) => ?_) ?_; clear_value x; rotate_left; subst x; intro _ _)
    | (intro x; refine (fun (hf1 : ∀ s c, Keeps r s → Keeps r (x s c)) => ?_) ?_; clear_value x; rotate_left; subst x; intro _ _ _)
    | (intro x; refine (fun (hf2 : ∀ c, Keeps r (x c)) => ?_) ?_; clear_value x; rotate_left; subst x; intro _)
    | (intro x; have hs : (x : Safety) = x := rfl; clear hs; subst x)
    | (intro x; clear_value x)
    | (intro x)
    | lift_lets
    | with_reducible apply State.setGroup_keeps
    | with_reducible apply State.set_keeps
    | with_reducible apply State.startLine_keeps
    | with_reducible apply Keeps.ite
    | (with_reducible refine Keeps.foldl ?_ (fun _ _ _ => ?_))
    | with_reducible apply hf0
    | with_reducible apply hf2
    | with_reducible apply hf1
    | with_reducible apply Keeps.upd)

theorem execAlignmentMarker_keeps {r : State} {s : State} (h : Keeps r s) :
    OutKeeps r (execAlignmentMarker s) := by
  unfold execAlignmentMarker
  repeat' (first
    | with_reducible assumption
    | with_reducible exact rfl
    | with_reducible exact id
    | with_reducible exact RegFile.put_wf
    | with_reducible exact RegFile.setFld_wf
    | with_reducible exact RegFile.filter_wf
    | with_reducible exact fun w => RegFile.foldl_wf w (fun _ _ w => RegFile.put_wf w)
    | with_reducible exact (listModify_length _ _ _).trans
    | with_reducible exact fun _ => List.length_replicate
    | with_reducible exact List.length_map _ |>.trans
    | (intro x; refine (fun (hx : Keeps r x) => ?_) ?_; clear_value x; rotate_left; subst x)
    | (intro x; refine (fun (hx : FstKeeps r x) => ?_) ?_; clear_value x; rotate_left; subst x)
    | (intro x; refine (fun (hf0 : ∀ s, Keeps r s → Keeps r (x s)) => ?_) ?_; clear_value x; rotate_left; subst x; intro _ _)
    | (intro x; refine (fun (hf1 : ∀ s c, Keeps r s → Keeps r (x s c)) => ?_) ?_; clear_value x; rotate_left; subst x; intro _ _ _)
    | (intro x; refine (fun (hf2 : ∀ c, Keeps r (x c)) => ?_) ?_; clear_value x; rotate_left; subst x; intro _)
    | (intro x; have hs : (x : Safety) = x := rfl; clear hs; subst x)
    | (intro x; clear_value x)
    | (intro x)
    | lift_lets
    | with_reducible apply State.enterMarker_keeps
    | with_reducible apply State.sendMarkers_keeps
    | with_reducible apply OutKeeps.ok
    | with_reducible apply OutKeeps.ite
    | with_reducible apply Keeps.ite
    | (with_reducible refine Keeps.foldl ?_ (fun _ _ _ => ?_))
    | with_reducible apply hf0
    | with_reducible apply hf2
    | with_reducible apply hf1
    | with_reducible apply Keeps.upd)

theorem execLinkHeartbeat_keeps {r : State} {g : Nat} {s : State} (h : Keeps r s) :
    OutKeeps r (execLinkHeartbeat g s) := by
  unfold execLinkHeartbeat
  repeat' (first
    | with_reducible assumption
    | with_reducible exact rfl
    | with_reducible exact id
    | with_reducible exact RegFile.put_wf
    | with_reducible exact RegFile.setFld_wf
    | with_reducible exact RegFile.filter_wf
    | with_reducible exact fun w => RegFile.foldl_wf w (fun _ _ w => RegFile.put_wf w)
    | with_reducible exact (listModify_length _ _ _).trans
    | with_reducible exact fun _ => List.length_replicate
    | with_reducible exact List.length_map _ |>.trans
    | (intro x; refine (fun (hx : Keeps r x) => ?_) ?_; clear_value x; rotate_left; subst x)
    | (intro x; refine (fun (hx : FstKeeps r x) => ?_) ?_; clear_value x; rotate_left; subst x)
    | (intro x; refine (fun (hf0 : ∀ s, Keeps r s → Keeps r (x s)) => ?_) ?_; clear_value x; rotate_left; subst x; intro _ _)
    | (intro x; refine (fun (hf1 : ∀ s c, Keeps r s → Keeps r (x s c)) => ?_) ?_; clear_value x; rotate_left; subst x; intro _ _ _)
    | (intro x; refine (fun (hf2 : ∀ c, Keeps r (x c)) => ?_) ?_; clear_value x; rotate_left; subst x; intro _)
    | (intro x; have hs : (x : Safety) = x := rfl; clear hs; subst x)
    | (intro x; clear_value x)
    | (intro x)
    | lift_lets
    | with_reducible apply State.enqueue_keeps
    | with_reducible apply State.setGroup_keeps
    | (refine Keeps.of_fst ‹_ = (_, _)› ?_)
    | with_reducible apply OutKeeps.ok
    | with_reducible apply OutKeeps.ite
    | with_reducible apply Keeps.ite
    | (with_reducible refine Keeps.foldl ?_ (fun _ _ _ => ?_))
    | with_reducible apply FstKeeps.ite
    | (with_reducible refine FstKeeps.foldl ?_ (fun _ _ _ _ => ?_))
    | with_reducible apply hf0
    | with_reducible apply hf2
    | with_reducible apply hf1
    | with_reducible apply FstKeeps.mk
    | with_reducible apply FstKeeps.fst
    | with_reducible apply Keeps.upd)

theorem execReturnLaneTimeout_keeps {r : State} {g : Nat} {s : State} (h : Keeps r s) :
    OutKeeps r (execReturnLaneTimeout g s) := by
  unfold execReturnLaneTimeout
  repeat' (first
    | with_reducible assumption
    | with_reducible exact rfl
    | with_reducible exact id
    | with_reducible exact RegFile.put_wf
    | with_reducible exact RegFile.setFld_wf
    | with_reducible exact RegFile.filter_wf
    | with_reducible exact fun w => RegFile.foldl_wf w (fun _ _ w => RegFile.put_wf w)
    | with_reducible exact (listModify_length _ _ _).trans
    | with_reducible exact fun _ => List.length_replicate
    | with_reducible exact List.length_map _ |>.trans
    | (intro x; refine (fun (hx : Keeps r x) => ?_) ?_; clear_value x; rotate_left; subst x)
    | (intro x; refine (fun (hx : FstKeeps r x) => ?_) ?_; clear_value x; rotate_left; subst x)
    | (intro x; refine (fun (hf0 : ∀ s, Keeps r s → Keeps r (x s)) => ?_) ?_; clear_value x; rotate_left; subst x; intro _ _)
    | (intro x; refine (fun (hf1 : ∀ s c, Keeps r s → Keeps r (x s c)) => ?_) ?_; clear_value x; rotate_left; subst x; intro _ _ _)
    | (intro x; refine (fun (hf2 : ∀ c, Keeps r (x c)) => ?_) ?_; clear_value x; rotate_left; subst x; intro _)
    | (intro x; have hs : (x : Safety) = x := rfl; clear hs; subst x)
    | (intro x; clear_value x)
    | (intro x)
    | lift_lets
    | with_reducible apply State.groupFail_keeps
    | with_reducible apply State.set_keeps
    | with_reducible apply State.backToClock_keeps
    | with_reducible apply OutKeeps.ok
    | with_reducible apply OutKeeps.ite
    | with_reducible apply Keeps.ite
    | (with_reducible refine Keeps.foldl ?_ (fun _ _ _ => ?_))
    | with_reducible apply hf0
    | with_reducible apply hf2
    | with_reducible apply hf1
    | with_reducible apply Keeps.upd)

theorem execLinkGroupClockFault_keeps {r : State} {g : Nat} {s : State} (h : Keeps r s) :
    OutKeeps r (execLinkGroupClockFault g s) := by
  unfold execLinkGroupClockFault
  repeat' (first
    | with_reducible assumption
    | with_reducible exact rfl
    | with_reducible exact id
    | with_reducible exact RegFile.put_wf
    | with_reducible exact RegFile.setFld_wf
    | with_reducible exact RegFile.filter_wf
    | with_reducible exact fun w => RegFile.foldl_wf w (fun _ _ w => RegFile.put_wf w)
    | with_reducible exact (listModify_length _ _ _).trans
    | with_reducible exact fun _ => List.length_replicate
    | with_reducible exact List.length_map _ |>.trans
    | (intro x; refine (fun (hx : Keeps r x) => ?_) ?_; clear_value x; rotate_left; subst x)
    | (intro x; refine (fun (hx : FstKeeps r x) => ?_) ?_; clear_value x; rotate_left; subst x)
    | (intro x; refine (fun (hf0 : ∀ s, Keeps r s → Keeps r (x s)) => ?_) ?_; clear_value x; rotate_left; subst x; intro _ _)
    | (intro x; refine (fun (hf1 : ∀ s c, Keeps r s → Keeps r (x s c)) => ?_) ?_; clear_value x; rotate_left; subst x; intro _ _ _)
    | (intro x; refine (fun (hf2 : ∀ c, Keeps r (x c)) => ?_) ?_; clear_value x; rotate_left; subst x; intro _)
    | (intro x; have hs : (x : Safety) = x := rfl; clear hs; subst x)
    | (intro x; clear_value x)
    | (intro x)
    | lift_lets
    | with_reducible apply State.groupFail_keeps
    | with_reducible apply OutKeeps.ok
    | with_reducible apply OutKeeps.ite
    | with_reducible apply Keeps.ite
    | (with_reducible refine Keeps.foldl ?_ (fun _ _ _ => ?_))
    | with_reducible apply hf0
    | with_reducible apply hf2
    | with_reducible apply hf1
    | with_reducible apply Keeps.upd)

theorem execCreditWithhold_keeps {r : State} {g : Nat} {s : State} (h : Keeps r s) :
    OutKeeps r (execCreditWithhold g s) := by
  unfold execCreditWithhold
  repeat' (first
    | with_reducible assumption
    | with_reducible exact rfl
    | with_reducible exact id
    | with_reducible exact RegFile.put_wf
    | with_reducible exact RegFile.setFld_wf
    | with_reducible exact RegFile.filter_wf
    | with_reducible exact fun w => RegFile.foldl_wf w (fun _ _ w => RegFile.put_wf w)
    | with_reducible exact (listModify_length _ _ _).trans
    | with_reducible exact fun _ => List.length_replicate
    | with_reducible exact List.length_map _ |>.trans
    | (intro x; refine (fun (hx : Keeps r x) => ?_) ?_; clear_value x; rotate_left; subst x)
    | (intro x; refine (fun (hx : FstKeeps r x) => ?_) ?_; clear_value x; rotate_left; subst x)
    | (intro x; refine (fun (hf0 : ∀ s, Keeps r s → Keeps r (x s)) => ?_) ?_; clear_value x; rotate_left; subst x; intro _ _)
    | (intro x; refine (fun (hf1 : ∀ s c, Keeps r s → Keeps r (x s c)) => ?_) ?_; clear_value x; rotate_left; subst x; intro _ _ _)
    | (intro x; refine (fun (hf2 : ∀ c, Keeps r (x c)) => ?_) ?_; clear_value x; rotate_left; subst x; intro _)
    | (intro x; have hs : (x : Safety) = x := rfl; clear hs; subst x)
    | (intro x; clear_value x)
    | (intro x)
    | lift_lets
    | with_reducible apply State.set_keeps
    | with_reducible apply State.setGroup_keeps
    | with_reducible apply State.withholdBuffer_keeps
    | (refine Keeps.of_fst ‹_ = (_, _)› ?_)
    | with_reducible apply OutKeeps.ok
    | with_reducible apply OutKeeps.ite
    | with_reducible apply Keeps.ite
    | (with_reducible refine Keeps.foldl ?_ (fun _ _ _ => ?_))
    | with_reducible apply FstKeeps.ite
    | (with_reducible refine FstKeeps.foldl ?_ (fun _ _ _ _ => ?_))
    | with_reducible apply hf0
    | with_reducible apply hf2
    | with_reducible apply hf1
    | split
    | with_reducible apply FstKeeps.mk
    | with_reducible apply Keeps.upd)

theorem execCreditStall_keeps {r : State} {g : Nat} {s : State} (h : Keeps r s) :
    OutKeeps r (execCreditStall g s) := by
  unfold execCreditStall
  repeat' (first
    | with_reducible assumption
    | with_reducible exact rfl
    | with_reducible exact id
    | with_reducible exact RegFile.put_wf
    | with_reducible exact RegFile.setFld_wf
    | with_reducible exact RegFile.filter_wf
    | with_reducible exact fun w => RegFile.foldl_wf w (fun _ _ w => RegFile.put_wf w)
    | with_reducible exact (listModify_length _ _ _).trans
    | with_reducible exact fun _ => List.length_replicate
    | with_reducible exact List.length_map _ |>.trans
    | (intro x; refine (fun (hx : Keeps r x) => ?_) ?_; clear_value x; rotate_left; subst x)
    | (intro x; refine (fun (hx : FstKeeps r x) => ?_) ?_; clear_value x; rotate_left; subst x)
    | (intro x; refine (fun (hf0 : ∀ s, Keeps r s → Keeps r (x s)) => ?_) ?_; clear_value x; rotate_left; subst x; intro _ _)
    | (intro x; refine (fun (hf1 : ∀ s c, Keeps r s → Keeps r (x s c)) => ?_) ?_; clear_value x; rotate_left; subst x; intro _ _ _)
    | (intro x; refine (fun (hf2 : ∀ c, Keeps r (x c)) => ?_) ?_; clear_value x; rotate_left; subst x; intro _)
    | (intro x; have hs : (x : Safety) = x := rfl; clear hs; subst x)
    | (intro x; clear_value x)
    | (intro x)
    | lift_lets
    | with_reducible apply State.set_keeps
    | (refine Keeps.of_fst ‹_ = (_, _)› ?_)
    | with_reducible apply OutKeeps.ok
    | with_reducible apply OutKeeps.ite
    | with_reducible apply Keeps.ite
    | (with_reducible refine Keeps.foldl ?_ (fun _ _ _ => ?_))
    | with_reducible apply FstKeeps.ite
    | (with_reducible refine FstKeeps.foldl ?_ (fun _ _ _ _ => ?_))
    | with_reducible apply hf0
    | with_reducible apply hf2
    | with_reducible apply hf1
    | split
    | with_reducible apply FstKeeps.mk
    | with_reducible apply Keeps.upd)

theorem execPacketSend_keeps {r : State} {g : Nat} {s : State} (h : Keeps r s) :
    OutKeeps r (execPacketSend g s) := by
  unfold execPacketSend
  repeat' (first
    | with_reducible assumption
    | with_reducible exact rfl
    | with_reducible exact id
    | with_reducible exact RegFile.put_wf
    | with_reducible exact RegFile.setFld_wf
    | with_reducible exact RegFile.filter_wf
    | with_reducible exact fun w => RegFile.foldl_wf w (fun _ _ w => RegFile.put_wf w)
    | with_reducible exact (listModify_length _ _ _).trans
    | with_reducible exact fun _ => List.length_replicate
    | with_reducible exact List.length_map _ |>.trans
    | (intro x; refine (fun (hx : Keeps r x) => ?_) ?_; clear_value x; rotate_left; subst x)
    | (intro x; refine (fun (hx : FstKeeps r x) => ?_) ?_; clear_value x; rotate_left; subst x)
    | (intro x; refine (fun (hf0 : ∀ s, Keeps r s → Keeps r (x s)) => ?_) ?_; clear_value x; rotate_left; subst x; intro _ _)
    | (intro x; refine (fun (hf1 : ∀ s c, Keeps r s → Keeps r (x s c)) => ?_) ?_; clear_value x; rotate_left; subst x; intro _ _ _)
    | (intro x; refine (fun (hf2 : ∀ c, Keeps r (x c)) => ?_) ?_; clear_value x; rotate_left; subst x; intro _)
    | (intro x; have hs : (x : Safety) = x := rfl; clear hs; subst x)
    | (intro x; clear_value x)
    | (intro x)
    | lift_lets
    | with_reducible apply State.sendHead_keeps
    | with_reducible apply State.countDrain_keeps
    | (refine Keeps.of_fst ‹_ = (_, _)› ?_)
    | with_reducible apply OutKeeps.ok
    | with_reducible apply OutKeeps.ite
    | with_reducible apply Keeps.ite
    | (with_reducible refine Keeps.foldl ?_ (fun _ _ _ => ?_))
    | with_reducible apply FstKeeps.ite
    | (with_reducible refine FstKeeps.foldl ?_ (fun _ _ _ _ => ?_))
    | with_reducible apply hf0
    | with_reducible apply hf2
    | with_reducible apply hf1
    | split
    | with_reducible apply FstKeeps.mk
    | with_reducible apply Keeps.upd)

theorem execGroupEnable_keeps {r : State} {g : Nat} {s : State} (h : Keeps r s) :
    OutKeeps r (execGroupEnable g s) := by
  unfold execGroupEnable
  repeat' (first
    | with_reducible assumption
    | with_reducible exact rfl
    | with_reducible exact id
    | with_reducible exact RegFile.put_wf
    | with_reducible exact RegFile.setFld_wf
    | with_reducible exact RegFile.filter_wf
    | with_reducible exact fun w => RegFile.foldl_wf w (fun _ _ w => RegFile.put_wf w)
    | with_reducible exact (listModify_length _ _ _).trans
    | with_reducible exact fun _ => List.length_replicate
    | with_reducible exact List.length_map _ |>.trans
    | (intro x; refine (fun (hx : Keeps r x) => ?_) ?_; clear_value x; rotate_left; subst x)
    | (intro x; refine (fun (hx : FstKeeps r x) => ?_) ?_; clear_value x; rotate_left; subst x)
    | (intro x; refine (fun (hf0 : ∀ s, Keeps r s → Keeps r (x s)) => ?_) ?_; clear_value x; rotate_left; subst x; intro _ _)
    | (intro x; refine (fun (hf1 : ∀ s c, Keeps r s → Keeps r (x s c)) => ?_) ?_; clear_value x; rotate_left; subst x; intro _ _ _)
    | (intro x; refine (fun (hf2 : ∀ c, Keeps r (x c)) => ?_) ?_; clear_value x; rotate_left; subst x; intro _)
    | (intro x; have hs : (x : Safety) = x := rfl; clear hs; subst x)
    | (intro x; clear_value x)
    | (intro x)
    | lift_lets
    | with_reducible apply State.mainWrite_keeps
    | with_reducible apply State.groupEnable_keeps
    | with_reducible apply OutKeeps.ok
    | with_reducible apply OutKeeps.ite
    | with_reducible apply Keeps.ite
    | (with_reducible refine Keeps.foldl ?_ (fun _ _ _ => ?_))
    | with_reducible apply hf0
    | with_reducible apply hf2
    | with_reducible apply hf1
    | with_reducible apply Keeps.upd)

theorem execGroupDisable_keeps {r : State} {g : Nat} {s : State} (h : Keeps r s) :
    OutKeeps r (execGroupDisable g s) := by
  unfold execGroupDisable
  repeat' (first
    | with_reducible assumption
    | with_reducible exact rfl
    | with_reducible exact id
    | with_reducible exact RegFile.put_wf
    | with_reducible exact RegFile.setFld_wf
    | with_reducible exact RegFile.filter_wf
    | with_reducible exact fun w => RegFile.foldl_wf w (fun _ _ w => RegFile.put_wf w)
    | with_reducible exact (listModify_length _ _ _).trans
    | with_reducible exact fun _ => List.length_replicate
    | with_reducible exact List.length_map _ |>.trans
    | (intro x; refine (fun (hx : Keeps r x) => ?_) ?_; clear_value x; rotate_left; subst x)
    | (intro x; refine (fun (hx : FstKeeps r x) => ?_) ?_; clear_value x; rotate_left; subst x)
    | (intro x; refine (fun (hf0 : ∀ s, Keeps r s → Keeps r (x s)) => ?_) ?_; clear_value x; rotate_left; subst x; intro _ _)
    | (intro x; refine (fun (hf1 : ∀ s c, Keeps r s → Keeps r (x s c)) => ?_) ?_; clear_value x; rotate_left; subst x; intro _ _ _)
    | (intro x; refine (fun (hf2 : ∀ c, Keeps r (x c)) => ?_) ?_; clear_value x; rotate_left; subst x; intro _)
    | (intro x; have hs : (x : Safety) = x := rfl; clear hs; subst x)
    | (intro x; clear_value x)
    | (intro x)
    | lift_lets
    | with_reducible apply State.mainWrite_keeps
    | with_reducible apply State.groupDisable_keeps
    | with_reducible apply OutKeeps.ok
    | with_reducible apply OutKeeps.ite
    | with_reducible apply Keeps.ite
    | (with_reducible refine Keeps.foldl ?_ (fun _ _ _ => ?_))
    | with_reducible apply hf0
    | with_reducible apply hf2
    | with_reducible apply hf1
    | with_reducible apply Keeps.upd)

theorem execGroupRetire_keeps {r : State} {g : Nat} {s : State} (h : Keeps r s) :
    OutKeeps r (execGroupRetire g s) := by
  unfold execGroupRetire
  repeat' (first
    | with_reducible assumption
    | with_reducible exact rfl
    | with_reducible exact id
    | with_reducible exact RegFile.put_wf
    | with_reducible exact RegFile.setFld_wf
    | with_reducible exact RegFile.filter_wf
    | with_reducible exact fun w => RegFile.foldl_wf w (fun _ _ w => RegFile.put_wf w)
    | with_reducible exact (listModify_length _ _ _).trans
    | with_reducible exact fun _ => List.length_replicate
    | with_reducible exact List.length_map _ |>.trans
    | (intro x; refine (fun (hx : Keeps r x) => ?_) ?_; clear_value x; rotate_left; subst x)
    | (intro x; refine (fun (hx : FstKeeps r x) => ?_) ?_; clear_value x; rotate_left; subst x)
    | (intro x; refine (fun (hf0 : ∀ s, Keeps r s → Keeps r (x s)) => ?_) ?_; clear_value x; rotate_left; subst x; intro _ _)
    | (intro x; refine (fun (hf1 : ∀ s c, Keeps r s → Keeps r (x s c)) => ?_) ?_; clear_value x; rotate_left; subst x; intro _ _ _)
    | (intro x; refine (fun (hf2 : ∀ c, Keeps r (x c)) => ?_) ?_; clear_value x; rotate_left; subst x; intro _)
    | (intro x; have hs : (x : Safety) = x := rfl; clear hs; subst x)
    | (intro x; clear_value x)
    | (intro x)
    | lift_lets
    | with_reducible apply State.mainWrite_keeps
    | with_reducible apply State.groupFail_keeps
    | with_reducible apply OutKeeps.ok
    | with_reducible apply OutKeeps.ite
    | with_reducible apply Keeps.ite
    | (with_reducible refine Keeps.foldl ?_ (fun _ _ _ => ?_))
    | with_reducible apply hf0
    | with_reducible apply hf2
    | with_reducible apply hf1
    | with_reducible apply Keeps.upd)

theorem execPrbsTxStart_keeps {r : State} {g : Nat} {s : State} (h : Keeps r s) :
    OutKeeps r (execPrbsTxStart g s) := by
  unfold execPrbsTxStart
  repeat' (first
    | with_reducible assumption
    | with_reducible exact rfl
    | with_reducible exact id
    | with_reducible exact RegFile.put_wf
    | with_reducible exact RegFile.setFld_wf
    | with_reducible exact RegFile.filter_wf
    | with_reducible exact fun w => RegFile.foldl_wf w (fun _ _ w => RegFile.put_wf w)
    | with_reducible exact (listModify_length _ _ _).trans
    | with_reducible exact fun _ => List.length_replicate
    | with_reducible exact List.length_map _ |>.trans
    | (intro x; refine (fun (hx : Keeps r x) => ?_) ?_; clear_value x; rotate_left; subst x)
    | (intro x; refine (fun (hx : FstKeeps r x) => ?_) ?_; clear_value x; rotate_left; subst x)
    | (intro x; refine (fun (hf0 : ∀ s, Keeps r s → Keeps r (x s)) => ?_) ?_; clear_value x; rotate_left; subst x; intro _ _)
    | (intro x; refine (fun (hf1 : ∀ s c, Keeps r s → Keeps r (x s c)) => ?_) ?_; clear_value x; rotate_left; subst x; intro _ _ _)
    | (intro x; refine (fun (hf2 : ∀ c, Keeps r (x c)) => ?_) ?_; clear_value x; rotate_left; subst x; intro _)
    | (intro x; have hs : (x : Safety) = x := rfl; clear hs; subst x)
    | (intro x; clear_value x)
    | (intro x)
    | lift_lets
    | with_reducible apply State.mainWrite_keeps
    | with_reducible apply State.prbsTxStart_keeps
    | with_reducible apply OutKeeps.ok
    | with_reducible apply OutKeeps.ite
    | with_reducible apply Keeps.ite
    | (with_reducible refine Keeps.foldl ?_ (fun _ _ _ => ?_))
    | with_reducible apply hf0
    | with_reducible apply hf2
    | with_reducible apply hf1
    | with_reducible apply Keeps.upd)

theorem execPrbsTxStop_keeps {r : State} {g : Nat} {s : State} (h : Keeps r s) :
    OutKeeps r (execPrbsTxStop g s) := by
  unfold execPrbsTxStop
  repeat' (first
    | with_reducible assumption
    | with_reducible exact rfl
    | with_reducible exact id
    | with_reducible exact RegFile.put_wf
    | with_reducible exact RegFile.setFld_wf
    | with_reducible exact RegFile.filter_wf
    | with_reducible exact fun w => RegFile.foldl_wf w (fun _ _ w => RegFile.put_wf w)
    | with_reducible exact (listModify_length _ _ _).trans
    | with_reducible exact fun _ => List.length_replicate
    | with_reducible exact List.length_map _ |>.trans
    | (intro x; refine (fun (hx : Keeps r x) => ?_) ?_; clear_value x; rotate_left; subst x)
    | (intro x; refine (fun (hx : FstKeeps r x) => ?_) ?_; clear_value x; rotate_left; subst x)
    | (intro x; refine (fun (hf0 : ∀ s, Keeps r s → Keeps r (x s)) => ?_) ?_; clear_value x; rotate_left; subst x; intro _ _)
    | (intro x; refine (fun (hf1 : ∀ s c, Keeps r s → Keeps r (x s c)) => ?_) ?_; clear_value x; rotate_left; subst x; intro _ _ _)
    | (intro x; refine (fun (hf2 : ∀ c, Keeps r (x c)) => ?_) ?_; clear_value x; rotate_left; subst x; intro _)
    | (intro x; have hs : (x : Safety) = x := rfl; clear hs; subst x)
    | (intro x; clear_value x)
    | (intro x)
    | lift_lets
    | with_reducible apply State.mainWrite_keeps
    | with_reducible apply State.prbsTxStop_keeps
    | with_reducible apply OutKeeps.ok
    | with_reducible apply OutKeeps.ite
    | with_reducible apply Keeps.ite
    | (with_reducible refine Keeps.foldl ?_ (fun _ _ _ => ?_))
    | with_reducible apply hf0
    | with_reducible apply hf2
    | with_reducible apply hf1
    | with_reducible apply Keeps.upd)

theorem execPrbsRtStart_keeps {r : State} {g : Nat} {s : State} (h : Keeps r s) :
    OutKeeps r (execPrbsRtStart g s) := by
  unfold execPrbsRtStart
  repeat' (first
    | with_reducible assumption
    | with_reducible exact rfl
    | with_reducible exact id
    | with_reducible exact RegFile.put_wf
    | with_reducible exact RegFile.setFld_wf
    | with_reducible exact RegFile.filter_wf
    | with_reducible exact fun w => RegFile.foldl_wf w (fun _ _ w => RegFile.put_wf w)
    | with_reducible exact (listModify_length _ _ _).trans
    | with_reducible exact fun _ => List.length_replicate
    | with_reducible exact List.length_map _ |>.trans
    | (intro x; refine (fun (hx : Keeps r x) => ?_) ?_; clear_value x; rotate_left; subst x)
    | (intro x; refine (fun (hx : FstKeeps r x) => ?_) ?_; clear_value x; rotate_left; subst x)
    | (intro x; refine (fun (hf0 : ∀ s, Keeps r s → Keeps r (x s)) => ?_) ?_; clear_value x; rotate_left; subst x; intro _ _)
    | (intro x; refine (fun (hf1 : ∀ s c, Keeps r s → Keeps r (x s c)) => ?_) ?_; clear_value x; rotate_left; subst x; intro _ _ _)
    | (intro x; refine (fun (hf2 : ∀ c, Keeps r (x c)) => ?_) ?_; clear_value x; rotate_left; subst x; intro _)
    | (intro x; have hs : (x : Safety) = x := rfl; clear hs; subst x)
    | (intro x; clear_value x)
    | (intro x)
    | lift_lets
    | with_reducible apply State.mainWrite_keeps
    | with_reducible apply State.prbsRtStart_keeps
    | with_reducible apply OutKeeps.ok
    | with_reducible apply OutKeeps.ite
    | with_reducible apply Keeps.ite
    | (with_reducible refine Keeps.foldl ?_ (fun _ _ _ => ?_))
    | with_reducible apply hf0
    | with_reducible apply hf2
    | with_reducible apply hf1
    | with_reducible apply Keeps.upd)

theorem execPrbsRtStop_keeps {r : State} {g : Nat} {s : State} (h : Keeps r s) :
    OutKeeps r (execPrbsRtStop g s) := by
  unfold execPrbsRtStop
  repeat' (first
    | with_reducible assumption
    | with_reducible exact rfl
    | with_reducible exact id
    | with_reducible exact RegFile.put_wf
    | with_reducible exact RegFile.setFld_wf
    | with_reducible exact RegFile.filter_wf
    | with_reducible exact fun w => RegFile.foldl_wf w (fun _ _ w => RegFile.put_wf w)
    | with_reducible exact (listModify_length _ _ _).trans
    | with_reducible exact fun _ => List.length_replicate
    | with_reducible exact List.length_map _ |>.trans
    | (intro x; refine (fun (hx : Keeps r x) => ?_) ?_; clear_value x; rotate_left; subst x)
    | (intro x; refine (fun (hx : FstKeeps r x) => ?_) ?_; clear_value x; rotate_left; subst x)
    | (intro x; refine (fun (hf0 : ∀ s, Keeps r s → Keeps r (x s)) => ?_) ?_; clear_value x; rotate_left; subst x; intro _ _)
    | (intro x; refine (fun (hf1 : ∀ s c, Keeps r s → Keeps r (x s c)) => ?_) ?_; clear_value x; rotate_left; subst x; intro _ _ _)
    | (intro x; refine (fun (hf2 : ∀ c, Keeps r (x c)) => ?_) ?_; clear_value x; rotate_left; subst x; intro _)
    | (intro x; have hs : (x : Safety) = x := rfl; clear hs; subst x)
    | (intro x; clear_value x)
    | (intro x)
    | lift_lets
    | with_reducible apply State.mainWrite_keeps
    | with_reducible apply State.prbsRtStop_keeps
    | with_reducible apply OutKeeps.ok
    | with_reducible apply OutKeeps.ite
    | with_reducible apply Keeps.ite
    | (with_reducible refine Keeps.foldl ?_ (fun _ _ _ => ?_))
    | with_reducible apply hf0
    | with_reducible apply hf2
    | with_reducible apply hf1
    | with_reducible apply Keeps.upd)

theorem execRtPrbsSync_keeps {r : State} {g : Nat} {s : State} (h : Keeps r s) :
    OutKeeps r (execRtPrbsSync g s) := by
  unfold execRtPrbsSync
  repeat' (first
    | with_reducible assumption
    | with_reducible exact rfl
    | with_reducible exact id
    | with_reducible exact RegFile.put_wf
    | with_reducible exact RegFile.setFld_wf
    | with_reducible exact RegFile.filter_wf
    | with_reducible exact fun w => RegFile.foldl_wf w (fun _ _ w => RegFile.put_wf w)
    | with_reducible exact (listModify_length _ _ _).trans
    | with_reducible exact fun _ => List.length_replicate
    | with_reducible exact List.length_map _ |>.trans
    | (intro x; refine (fun (hx : Keeps r x) => ?_) ?_; clear_value x; rotate_left; subst x)
    | (intro x; refine (fun (hx : FstKeeps r x) => ?_) ?_; clear_value x; rotate_left; subst x)
    | (intro x; refine (fun (hf0 : ∀ s, Keeps r s → Keeps r (x s)) => ?_) ?_; clear_value x; rotate_left; subst x; intro _ _)
    | (intro x; refine (fun (hf1 : ∀ s c, Keeps r s → Keeps r (x s c)) => ?_) ?_; clear_value x; rotate_left; subst x; intro _ _ _)
    | (intro x; refine (fun (hf2 : ∀ c, Keeps r (x c)) => ?_) ?_; clear_value x; rotate_left; subst x; intro _)
    | (intro x; have hs : (x : Safety) = x := rfl; clear hs; subst x)
    | (intro x; clear_value x)
    | (intro x)
    | lift_lets
    | with_reducible apply State.set_keeps
    | with_reducible apply OutKeeps.ok
    | with_reducible apply OutKeeps.ite
    | with_reducible apply Keeps.ite
    | (with_reducible refine Keeps.foldl ?_ (fun _ _ _ => ?_))
    | with_reducible apply hf0
    | with_reducible apply hf2
    | with_reducible apply hf1
    | with_reducible apply Keeps.upd)

theorem execRtPrbsSyncLoss_keeps {r : State} {g : Nat} {s : State} (h : Keeps r s) :
    OutKeeps r (execRtPrbsSyncLoss g s) := by
  unfold execRtPrbsSyncLoss
  repeat' (first
    | with_reducible assumption
    | with_reducible exact rfl
    | with_reducible exact id
    | with_reducible exact RegFile.put_wf
    | with_reducible exact RegFile.setFld_wf
    | with_reducible exact RegFile.filter_wf
    | with_reducible exact fun w => RegFile.foldl_wf w (fun _ _ w => RegFile.put_wf w)
    | with_reducible exact (listModify_length _ _ _).trans
    | with_reducible exact fun _ => List.length_replicate
    | with_reducible exact List.length_map _ |>.trans
    | (intro x; refine (fun (hx : Keeps r x) => ?_) ?_; clear_value x; rotate_left; subst x)
    | (intro x; refine (fun (hx : FstKeeps r x) => ?_) ?_; clear_value x; rotate_left; subst x)
    | (intro x; refine (fun (hf0 : ∀ s, Keeps r s → Keeps r (x s)) => ?_) ?_; clear_value x; rotate_left; subst x; intro _ _)
    | (intro x; refine (fun (hf1 : ∀ s c, Keeps r s → Keeps r (x s c)) => ?_) ?_; clear_value x; rotate_left; subst x; intro _ _ _)
    | (intro x; refine (fun (hf2 : ∀ c, Keeps r (x c)) => ?_) ?_; clear_value x; rotate_left; subst x; intro _)
    | (intro x; have hs : (x : Safety) = x := rfl; clear hs; subst x)
    | (intro x; clear_value x)
    | (intro x)
    | lift_lets
    | with_reducible apply State.set_keeps
    | with_reducible apply OutKeeps.ok
    | with_reducible apply OutKeeps.ite
    | with_reducible apply Keeps.ite
    | (with_reducible refine Keeps.foldl ?_ (fun _ _ _ => ?_))
    | with_reducible apply hf0
    | with_reducible apply hf2
    | with_reducible apply hf1
    | with_reducible apply Keeps.upd)

theorem execRtPrbsBitError_keeps {r : State} {g : Nat} {s : State} (h : Keeps r s) :
    OutKeeps r (execRtPrbsBitError g s) := by
  unfold execRtPrbsBitError
  repeat' (first
    | with_reducible assumption
    | with_reducible exact rfl
    | with_reducible exact id
    | with_reducible exact RegFile.put_wf
    | with_reducible exact RegFile.setFld_wf
    | with_reducible exact RegFile.filter_wf
    | with_reducible exact fun w => RegFile.foldl_wf w (fun _ _ w => RegFile.put_wf w)
    | with_reducible exact (listModify_length _ _ _).trans
    | with_reducible exact fun _ => List.length_replicate
    | with_reducible exact List.length_map _ |>.trans
    | (intro x; refine (fun (hx : Keeps r x) => ?_) ?_; clear_value x; rotate_left; subst x)
    | (intro x; refine (fun (hx : FstKeeps r x) => ?_) ?_; clear_value x; rotate_left; subst x)
    | (intro x; refine (fun (hf0 : ∀ s, Keeps r s → Keeps r (x s)) => ?_) ?_; clear_value x; rotate_left; subst x; intro _ _)
    | (intro x; refine (fun (hf1 : ∀ s c, Keeps r s → Keeps r (x s c)) => ?_) ?_; clear_value x; rotate_left; subst x; intro _ _ _)
    | (intro x; refine (fun (hf2 : ∀ c, Keeps r (x c)) => ?_) ?_; clear_value x; rotate_left; subst x; intro _)
    | (intro x; have hs : (x : Safety) = x := rfl; clear hs; subst x)
    | (intro x; clear_value x)
    | (intro x)
    | lift_lets
    | with_reducible apply State.bump_keeps
    | with_reducible apply OutKeeps.ok
    | with_reducible apply OutKeeps.ite
    | with_reducible apply Keeps.ite
    | (with_reducible refine Keeps.foldl ?_ (fun _ _ _ => ?_))
    | with_reducible apply hf0
    | with_reducible apply hf2
    | with_reducible apply hf1
    | with_reducible apply Keeps.upd)

theorem execEyeScanStart_keeps {r : State} {v : Word} {s : State} (h : Keeps r s) :
    OutKeeps r (execEyeScanStart v s) := by
  unfold execEyeScanStart
  repeat' (first
    | with_reducible assumption
    | with_reducible exact rfl
    | with_reducible exact id
    | with_reducible exact RegFile.put_wf
    | with_reducible exact RegFile.setFld_wf
    | with_reducible exact RegFile.filter_wf
    | with_reducible exact fun w => RegFile.foldl_wf w (fun _ _ w => RegFile.put_wf w)
    | with_reducible exact (listModify_length _ _ _).trans
    | with_reducible exact fun _ => List.length_replicate
    | with_reducible exact List.length_map _ |>.trans
    | (intro x; refine (fun (hx : Keeps r x) => ?_) ?_; clear_value x; rotate_left; subst x)
    | (intro x; refine (fun (hx : FstKeeps r x) => ?_) ?_; clear_value x; rotate_left; subst x)
    | (intro x; refine (fun (hf0 : ∀ s, Keeps r s → Keeps r (x s)) => ?_) ?_; clear_value x; rotate_left; subst x; intro _ _)
    | (intro x; refine (fun (hf1 : ∀ s c, Keeps r s → Keeps r (x s c)) => ?_) ?_; clear_value x; rotate_left; subst x; intro _ _ _)
    | (intro x; refine (fun (hf2 : ∀ c, Keeps r (x c)) => ?_) ?_; clear_value x; rotate_left; subst x; intro _)
    | (intro x; have hs : (x : Safety) = x := rfl; clear hs; subst x)
    | (intro x; clear_value x)
    | (intro x)
    | lift_lets
    | with_reducible apply State.mainWrite_keeps
    | with_reducible apply State.eyeScanStart_keeps
    | with_reducible apply OutKeeps.ok
    | with_reducible apply OutKeeps.ite
    | with_reducible apply Keeps.ite
    | (with_reducible refine Keeps.foldl ?_ (fun _ _ _ => ?_))
    | with_reducible apply hf0
    | with_reducible apply hf2
    | with_reducible apply hf1
    | with_reducible apply Keeps.upd)

theorem execEyeScanDone_keeps {r : State} {n : Nat} {s : State} (h : Keeps r s) :
    OutKeeps r (execEyeScanDone n s) := by
  unfold execEyeScanDone
  repeat' (first
    | with_reducible assumption
    | with_reducible exact rfl
    | with_reducible exact id
    | with_reducible exact RegFile.put_wf
    | with_reducible exact RegFile.setFld_wf
    | with_reducible exact RegFile.filter_wf
    | with_reducible exact fun w => RegFile.foldl_wf w (fun _ _ w => RegFile.put_wf w)
    | with_reducible exact (listModify_length _ _ _).trans
    | with_reducible exact fun _ => List.length_replicate
    | with_reducible exact List.length_map _ |>.trans
    | (intro x; refine (fun (hx : Keeps r x) => ?_) ?_; clear_value x; rotate_left; subst x)
    | (intro x; refine (fun (hx : FstKeeps r x) => ?_) ?_; clear_value x; rotate_left; subst x)
    | (intro x; refine (fun (hf0 : ∀ s, Keeps r s → Keeps r (x s)) => ?_) ?_; clear_value x; rotate_left; subst x; intro _ _)
    | (intro x; refine (fun (hf1 : ∀ s c, Keeps r s → Keeps r (x s c)) => ?_) ?_; clear_value x; rotate_left; subst x; intro _ _ _)
    | (intro x; refine (fun (hf2 : ∀ c, Keeps r (x c)) => ?_) ?_; clear_value x; rotate_left; subst x; intro _)
    | (intro x; have hs : (x : Safety) = x := rfl; clear hs; subst x)
    | (intro x; clear_value x)
    | (intro x)
    | lift_lets
    | with_reducible apply State.set_keeps
    | with_reducible apply OutKeeps.ok
    | with_reducible apply OutKeeps.ite
    | with_reducible apply Keeps.ite
    | (with_reducible refine Keeps.foldl ?_ (fun _ _ _ => ?_))
    | with_reducible apply hf0
    | with_reducible apply hf2
    | with_reducible apply hf1
    | with_reducible apply Keeps.upd)

end Sys2Proof.Machine
end

