-- ==== Sys2Proof/Laws/TimebaseKeeps.lean ====
section
/-! SUPPORT. What the operations of Machine/Timebase.lean keep. -/
namespace Sys2Proof.Machine

theorem State.setTb_keeps {r : State} {s : State} {n : Nat} {f : TbCh → TbCh} (h : Keeps r s) :
    Keeps r (State.setTb s n f) := by
  unfold State.setTb
  repeat' (first
    | with_reducible assumption
    | with_reducible exact rfl
    | with_reducible exact id
    | with_reducible exact RegFile.put_wf
    | with_reducible exact RegFile.setFld_wf
    | with_reducible exact RegFile.filter_wf
    | with_reducible exact fun w => RegFile.foldl_wf w (fun _ _ w => RegFile.put_wf w)
    | with_reducible exact (listModify_length _ _ _).trans
    | with_reducible exact fun _ => List.length_replicate
    | with_reducible exact List.length_map _ |>.trans
    | (intro x; refine (fun (hx : Keeps r x) => ?_) ?_; clear_value x; rotate_left; subst x)
    | (intro x; refine (fun (hx : FstKeeps r x) => ?_) ?_; clear_value x; rotate_left; subst x)
    | (intro x; refine (fun (hf0 : ∀ s, Keeps r s → Keeps r (x s)) => ?_) ?_; clear_value x; rotate_left; subst x; intro _ _)
    | (intro x; refine (fun (hf1 : ∀ s c, Keeps r s → Keeps r (x s c)) => ?_) ?_; clear_value x; rotate_left; subst x; intro _ _ _)
    | (intro x; refine (fun (hf2 : ∀ c, Keeps r (x c)) => ?_) ?_; clear_value x; rotate_left; subst x; intro _)
    | (intro x; have hs : (x : Safety) = x := rfl; clear hs; subst x)
    | (intro x; clear_value x)
    | (intro x)
    | lift_lets
    | with_reducible apply Keeps.ite
    | (with_reducible refine Keeps.foldl ?_ (fun _ _ _ => ?_))
    | with_reducible apply hf0
    | with_reducible apply hf2
    | with_reducible apply hf1
    | with_reducible apply Keeps.upd)

theorem State.forgetCrossings_keeps {r : State} {s : State} {n : Nat} (h : Keeps r s) :
    Keeps r (State.forgetCrossings s n) := by
  unfold State.forgetCrossings
  repeat' (first
    | with_reducible assumption
    | with_reducible exact rfl
    | with_reducible exact id
    | with_reducible exact RegFile.put_wf
    | with_reducible exact RegFile.setFld_wf
    | with_reducible exact RegFile.filter_wf
    | with_reducible exact fun w => RegFile.foldl_wf w (fun _ _ w => RegFile.put_wf w)
    | with_reducible exact (listModify_length _ _ _).trans
    | with_reducible exact fun _ => List.length_replicate
    | with_reducible exact List.length_map _ |>.trans
    | (intro x; refine (fun (hx : Keeps r x) => ?_) ?_; clear_value x; rotate_left; subst x)
    | (intro x; refine (fun (hx : FstKeeps r x) => ?_) ?_; clear_value x; rotate_left; subst x)
    | (intro x; refine (fun (hf0 : ∀ s, Keeps r s → Keeps r (x s)) => ?_) ?_; clear_value x; rotate_left; subst x; intro _ _)
    | (intro x; refine (fun (hf1 : ∀ s c, Keeps r s → Keeps r (x s c)) => ?_) ?_; clear_value x; rotate_left; subst x; intro _ _ _)
    | (intro x; refine (fun (hf2 : ∀ c, Keeps r (x c)) => ?_) ?_; clear_value x; rotate_left; subst x; intro _)
    | (intro x; have hs : (x : Safety) = x := rfl; clear hs; subst x)
    | (intro x; clear_value x)
    | (intro x)
    | lift_lets
    | with_reducible apply Keeps.ite
    | (with_reducible refine Keeps.foldl ?_ (fun _ _ _ => ?_))
    | with_reducible apply hf0
    | with_reducible apply hf2
    | with_reducible apply hf1
    | with_reducible apply Keeps.upd)

theorem State.forgetCrossingsAll_keeps {r : State} {s : State} (h : Keeps r s) :
    Keeps r (State.forgetCrossingsAll s) := by
  unfold State.forgetCrossingsAll
  repeat' (first
    | with_reducible assumption
    | with_reducible exact rfl
    | with_reducible exact id
    | with_reducible exact RegFile.put_wf
    | with_reducible exact RegFile.setFld_wf
    | with_reducible exact RegFile.filter_wf
    | with_reducible exact fun w => RegFile.foldl_wf w (fun _ _ w => RegFile.put_wf w)
    | with_reducible exact (listModify_length _ _ _).trans
    | with_reducible exact fun _ => List.length_replicate
    | with_reducible exact List.length_map _ |>.trans
    | (intro x; refine (fun (hx : Keeps r x) => ?_) ?_; clear_value x; rotate_left; subst x)
    | (intro x; refine (fun (hx : FstKeeps r x) => ?_) ?_; clear_value x; rotate_left; subst x)
    | (intro x; refine (fun (hf0 : ∀ s, Keeps r s → Keeps r (x s)) => ?_) ?_; clear_value x; rotate_left; subst x; intro _ _)
    | (intro x; refine (fun (hf1 : ∀ s c, Keeps r s → Keeps r (x s c)) => ?_) ?_; clear_value x; rotate_left; subst x; intro _ _ _)
    | (intro x; refine (fun (hf2 : ∀ c, Keeps r (x c)) => ?_) ?_; clear_value x; rotate_left; subst x; intro _)
    | (intro x; have hs : (x : Safety) = x := rfl; clear hs; subst x)
    | (intro x; clear_value x)
    | (intro x)
    | lift_lets
    | with_reducible apply Keeps.ite
    | (with_reducible refine Keeps.foldl ?_ (fun _ _ _ => ?_))
    | with_reducible apply hf0
    | with_reducible apply hf2
    | with_reducible apply hf1
    | with_reducible apply Keeps.upd)

theorem State.holdPos_keeps {r : State} {s : State} {n : Nat} (h : Keeps r s) :
    Keeps r (State.holdPos s n) := by
  unfold State.holdPos
  repeat' (first
    | with_reducible assumption
    | with_reducible exact rfl
    | with_reducible exact id
    | with_reducible exact RegFile.put_wf
    | with_reducible exact RegFile.setFld_wf
    | with_reducible exact RegFile.filter_wf
    | with_reducible exact fun w => RegFile.foldl_wf w (fun _ _ w => RegFile.put_wf w)
    | with_reducible exact (listModify_length _ _ _).trans
    | with_reducible exact fun _ => List.length_replicate
    | with_reducible exact List.length_map _ |>.trans
    | (intro x; refine (fun (hx : Keeps r x) => ?_) ?_; clear_value x; rotate_left; subst x)
    | (intro x; refine (fun (hx : FstKeeps r x) => ?_) ?_; clear_value x; rotate_left; subst x)
    | (intro x; refine (fun (hf0 : ∀ s, Keeps r s → Keeps r (x s)) => ?_) ?_; clear_value x; rotate_left; subst x; intro _ _)
    | (intro x; refine (fun (hf1 : ∀ s c, Keeps r s → Keeps r (x s c)) => ?_) ?_; clear_value x; rotate_left; subst x; intro _ _ _)
    | (intro x; refine (fun (hf2 : ∀ c, Keeps r (x c)) => ?_) ?_; clear_value x; rotate_left; subst x; intro _)
    | (intro x; have hs : (x : Safety) = x := rfl; clear hs; subst x)
    | (intro x; clear_value x)
    | (intro x)
    | lift_lets
    | with_reducible apply State.setTb_keeps
    | with_reducible apply Keeps.ite
    | (with_reducible refine Keeps.foldl ?_ (fun _ _ _ => ?_))
    | with_reducible apply hf0
    | with_reducible apply hf2
    | with_reducible apply hf1
    | with_reducible apply Keeps.upd)

theorem State.toLocking_keeps {r : State} {s : State} {n : Nat} (h : Keeps r s) :
    Keeps r (State.toLocking s n) := by
  unfold State.toLocking
  repeat' (first
    | with_reducible assumption
    | with_reducible exact rfl
    | with_reducible exact id
    | with_reducible exact RegFile.put_wf
    | with_reducible exact RegFile.setFld_wf
    | with_reducible exact RegFile.filter_wf
    | with_reducible exact fun w => RegFile.foldl_wf w (fun _ _ w => RegFile.put_wf w)
    | with_reducible exact (listModify_length _ _ _).trans
    | with_reducible exact fun _ => List.length_replicate
    | with_reducible exact List.length_map _ |>.trans
    | (intro x; refine (fun (hx : Keeps r x) => ?_) ?_; clear_value x; rotate_left; subst x)
    | (intro x; refine (fun (hx : FstKeeps r x) => ?_) ?_; clear_value x; rotate_left; subst x)
    | (intro x; refine (fun (hf0 : ∀ s, Keeps r s → Keeps r (x s)) => ?_) ?_; clear_value x; rotate_left; subst x; intro _ _)
    | (intro x; refine (fun (hf1 : ∀ s c, Keeps r s → Keeps r (x s c)) => ?_) ?_; clear_value x; rotate_left; subst x; intro _ _ _)
    | (intro x; refine (fun (hf2 : ∀ c, Keeps r (x c)) => ?_) ?_; clear_value x; rotate_left; subst x; intro _)
    | (intro x; have hs : (x : Safety) = x := rfl; clear hs; subst x)
    | (intro x; clear_value x)
    | (intro x)
    | lift_lets
    | with_reducible apply State.setTb_keeps
    | with_reducible apply State.forgetCrossings_keeps
    | with_reducible apply State.set_keeps
    | with_reducible apply Keeps.ite
    | (with_reducible refine Keeps.foldl ?_ (fun _ _ _ => ?_))
    | with_reducible apply hf0
    | with_reducible apply hf2
    | with_reducible apply hf1
    | with_reducible apply Keeps.upd)

theorem State.toCoast_keeps {r : State} {s : State} {n : Nat} (h : Keeps r s) :
    Keeps r (State.toCoast s n) := by
  unfold State.toCoast
  repeat' (first
    | with_reducible assumption
    | with_reducible exact rfl
    | with_reducible exact id
    | with_reducible exact RegFile.put_wf
    | with_reducible exact RegFile.setFld_wf
    | with_reducible exact RegFile.filter_wf
    | with_reducible exact fun w => RegFile.foldl_wf w (fun _ _ w => RegFile.put_wf w)
    | with_reducible exact (listModify_length _ _ _).trans
    | with_reducible exact fun _ => List.length_replicate
    | with_reducible exact List.length_map _ |>.trans
    | (intro x; refine (fun (hx : Keeps r x) => ?_) ?_; clear_value x; rotate_left; subst x)
    | (intro x; refine (fun (hx : FstKeeps r x) => ?_) ?_; clear_value x; rotate_left; subst x)
    | (intro x; refine (fun (hf0 : ∀ s, Keeps r s → Keeps r (x s)) => ?_) ?_; clear_value x; rotate_left; subst x; intro _ _)
    | (intro x; refine (fun (hf1 : ∀ s c, Keeps r s → Keeps r (x s c)) => ?_) ?_; clear_value x; rotate_left; subst x; intro _ _ _)
    | (intro x; refine (fun (hf2 : ∀ c, Keeps r (x c)) => ?_) ?_; clear_value x; rotate_left; subst x; intro _)
    | (intro x; have hs : (x : Safety) = x := rfl; clear hs; subst x)
    | (intro x; clear_value x)
    | (intro x)
    | lift_lets
    | with_reducible apply State.setTb_keeps
    | with_reducible apply State.set_keeps
    | with_reducible apply Keeps.ite
    | (with_reducible refine Keeps.foldl ?_ (fun _ _ _ => ?_))
    | with_reducible apply hf0
    | with_reducible apply hf2
    | with_reducible apply hf1
    | with_reducible apply Keeps.upd)

theorem State.rejectMeas_keeps {r : State} {s : State} {n : Nat} (h : Keeps r s) :
    Keeps r (State.rejectMeas s n) := by
  unfold State.rejectMeas
  repeat' (first
    | with_reducible assumption
    | with_reducible exact rfl
    | with_reducible exact id
    | with_reducible exact RegFile.put_wf
    | with_reducible exact RegFile.setFld_wf
    | with_reducible exact RegFile.filter_wf
    | with_reducible exact fun w => RegFile.foldl_wf w (fun _ _ w => RegFile.put_wf w)
    | with_reducible exact (listModify_length _ _ _).trans
    | with_reducible exact fun _ => List.length_replicate
    | with_reducible exact List.length_map _ |>.trans
    | (intro x; refine (fun (hx : Keeps r x) => ?_) ?_; clear_value x; rotate_left; subst x)
    | (intro x; refine (fun (hx : FstKeeps r x) => ?_) ?_; clear_value x; rotate_left; subst x)
    | (intro x; refine (fun (hf0 : ∀ s, Keeps r s → Keeps r (x s)) => ?_) ?_; clear_value x; rotate_left; subst x; intro _ _)
    | (intro x; refine (fun (hf1 : ∀ s c, Keeps r s → Keeps r (x s c)) => ?_) ?_; clear_value x; rotate_left; subst x; intro _ _ _)
    | (intro x; refine (fun (hf2 : ∀ c, Keeps r (x c)) => ?_) ?_; clear_value x; rotate_left; subst x; intro _)
    | (intro x; have hs : (x : Safety) = x := rfl; clear hs; subst x)
    | (intro x; clear_value x)
    | (intro x)
    | lift_lets
    | with_reducible apply State.setTb_keeps
    | with_reducible apply State.toCoast_keeps
    | with_reducible apply Keeps.ite
    | (with_reducible refine Keeps.foldl ?_ (fun _ _ _ => ?_))
    | with_reducible apply hf0
    | with_reducible apply hf2
    | with_reducible apply hf1
    | with_reducible apply Keeps.upd)

theorem State.acceptCount_keeps {r : State} {s : State} {n : Nat} (h : Keeps r s) :
    Keeps r (State.acceptCount s n) := by
  unfold State.acceptCount
  repeat' (first
    | with_reducible assumption
    | with_reducible exact rfl
    | with_reducible exact id
    | with_reducible exact RegFile.put_wf
    | with_reducible exact RegFile.setFld_wf
    | with_reducible exact RegFile.filter_wf
    | with_reducible exact fun w => RegFile.foldl_wf w (fun _ _ w => RegFile.put_wf w)
    | with_reducible exact (listModify_length _ _ _).trans
    | with_reducible exact fun _ => List.length_replicate
    | with_reducible exact List.length_map _ |>.trans
    | (intro x; refine (fun (hx : Keeps r x) => ?_) ?_; clear_value x; rotate_left; subst x)
    | (intro x; refine (fun (hx : FstKeeps r x) => ?_) ?_; clear_value x; rotate_left; subst x)
    | (intro x; refine (fun (hf0 : ∀ s, Keeps r s → Keeps r (x s)) => ?_) ?_; clear_value x; rotate_left; subst x; intro _ _)
    | (intro x; refine (fun (hf1 : ∀ s c, Keeps r s → Keeps r (x s c)) => ?_) ?_; clear_value x; rotate_left; subst x; intro _ _ _)
    | (intro x; refine (fun (hf2 : ∀ c, Keeps r (x c)) => ?_) ?_; clear_value x; rotate_left; subst x; intro _)
    | (intro x; have hs : (x : Safety) = x := rfl; clear hs; subst x)
    | (intro x; clear_value x)
    | (intro x)
    | lift_lets
    | with_reducible apply State.setTb_keeps
    | with_reducible apply State.set_keeps
    | with_reducible apply State.toLocking_keeps
    | with_reducible apply Keeps.ite
    | (with_reducible refine Keeps.foldl ?_ (fun _ _ _ => ?_))
    | with_reducible apply hf0
    | with_reducible apply hf2
    | with_reducible apply hf1
    | with_reducible apply Keeps.upd)

theorem State.measure_keeps {r : State} {s : State} {n : Nat} {z : Rat} {tz : Nat} {keep : TbCh → TbCh} (h : Keeps r s) :
    Keeps r (State.measure s n z tz keep) := by
  unfold State.measure
  repeat' (first
    | with_reducible assumption
    | with_reducible exact rfl
    | with_reducible exact id
    | with_reducible exact RegFile.put_wf
    | with_reducible exact RegFile.setFld_wf
    | with_reducible exact RegFile.filter_wf
    | with_reducible exact fun w => RegFile.foldl_wf w (fun _ _ w => RegFile.put_wf w)
    | with_reducible exact (listModify_length _ _ _).trans
    | with_reducible exact fun _ => List.length_replicate
    | with_reducible exact List.length_map _ |>.trans
    | (intro x; refine (fun (hx : Keeps r x) => ?_) ?_; clear_value x; rotate_left; subst x)
    | (intro x; refine (fun (hx : FstKeeps r x) => ?_) ?_; clear_value x; rotate_left; subst x)
    | (intro x; refine (fun (hf0 : ∀ s, Keeps r s → Keeps r (x s)) => ?_) ?_; clear_value x; rotate_left; subst x; intro _ _)
    | (intro x; refine (fun (hf1 : ∀ s c, Keeps r s → Keeps r (x s c)) => ?_) ?_; clear_value x; rotate_left; subst x; intro _ _ _)
    | (intro x; refine (fun (hf2 : ∀ c, Keeps r (x c)) => ?_) ?_; clear_value x; rotate_left; subst x; intro _)
    | (intro x; have hs : (x : Safety) = x := rfl; clear hs; subst x)
    | (intro x; clear_value x)
    | (intro x)
    | lift_lets
    | with_reducible apply State.acceptCount_keeps
    | with_reducible apply State.setTb_keeps
    | with_reducible apply State.rejectMeas_keeps
    | with_reducible apply State.bump_keeps
    | with_reducible apply State.set_keeps
    | with_reducible apply Keeps.ite
    | (with_reducible refine Keeps.foldl ?_ (fun _ _ _ => ?_))
    | with_reducible apply hf0
    | with_reducible apply hf2
    | with_reducible apply hf1
    | with_reducible apply Keeps.upd)

theorem State.takeInput_keeps {r : State} {s : State} {n : Nat} {m : Meas} (h : Keeps r s) :
    Keeps r (State.takeInput s n m) := by
  unfold State.takeInput
  repeat' (first
    | with_reducible assumption
    | with_reducible exact rfl
    | with_reducible exact id
    | with_reducible exact RegFile.put_wf
    | with_reducible exact RegFile.setFld_wf
    | with_reducible exact RegFile.filter_wf
    | with_reducible exact fun w => RegFile.foldl_wf w (fun _ _ w => RegFile.put_wf w)
    | with_reducible exact (listModify_length _ _ _).trans
    | with_reducible exact fun _ => List.length_replicate
    | with_reducible exact List.length_map _ |>.trans
    | (intro x; refine (fun (hx : Keeps r x) => ?_) ?_; clear_value x; rotate_left; subst x)
    | (intro x; refine (fun (hx : FstKeeps r x) => ?_) ?_; clear_value x; rotate_left; subst x)
    | (intro x; refine (fun (hf0 : ∀ s, Keeps r s → Keeps r (x s)) => ?_) ?_; clear_value x; rotate_left; subst x; intro _ _)
    | (intro x; refine (fun (hf1 : ∀ s c, Keeps r s → Keeps r (x s c)) => ?_) ?_; clear_value x; rotate_left; subst x; intro _ _ _)
    | (intro x; refine (fun (hf2 : ∀ c, Keeps r (x c)) => ?_) ?_; clear_value x; rotate_left; subst x; intro _)
    | (intro x; have hs : (x : Safety) = x := rfl; clear hs; subst x)
    | (intro x; clear_value x)
    | (intro x)
    | lift_lets
    | with_reducible apply State.rejectMeas_keeps
    | with_reducible apply State.measure_keeps
    | (refine Keeps.of_fst ‹_ = (_, _)› ?_)
    | with_reducible apply Keeps.ite
    | (with_reducible refine Keeps.foldl ?_ (fun _ _ _ => ?_))
    | with_reducible apply FstKeeps.ite
    | (with_reducible refine FstKeeps.foldl ?_ (fun _ _ _ _ => ?_))
    | with_reducible apply hf0
    | with_reducible apply hf2
    | with_reducible apply hf1
    | split
    | with_reducible apply FstKeeps.mk
    | with_reducible apply Keeps.upd)

theorem State.rejectFast_keeps {r : State} {s : State} {n : Nat} (h : Keeps r s) :
    Keeps r (State.rejectFast s n) := by
  unfold State.rejectFast
  repeat' (first
    | with_reducible assumption
    | with_reducible exact rfl
    | with_reducible exact id
    | with_reducible exact RegFile.put_wf
    | with_reducible exact RegFile.setFld_wf
    | with_reducible exact RegFile.filter_wf
    | with_reducible exact fun w => RegFile.foldl_wf w (fun _ _ w => RegFile.put_wf w)
    | with_reducible exact (listModify_length _ _ _).trans
    | with_reducible exact fun _ => List.length_replicate
    | with_reducible exact List.length_map _ |>.trans
    | (intro x; refine (fun (hx : Keeps r x) => ?_) ?_; clear_value x; rotate_left; subst x)
    | (intro x; refine (fun (hx : FstKeeps r x) => ?_) ?_; clear_value x; rotate_left; subst x)
    | (intro x; refine (fun (hf0 : ∀ s, Keeps r s → Keeps r (x s)) => ?_) ?_; clear_value x; rotate_left; subst x; intro _ _)
    | (intro x; refine (fun (hf1 : ∀ s c, Keeps r s → Keeps r (x s c)) => ?_) ?_; clear_value x; rotate_left; subst x; intro _ _ _)
    | (intro x; refine (fun (hf2 : ∀ c, Keeps r (x c)) => ?_) ?_; clear_value x; rotate_left; subst x; intro _)
    | (intro x; have hs : (x : Safety) = x := rfl; clear hs; subst x)
    | (intro x; clear_value x)
    | (intro x)
    | lift_lets
    | with_reducible apply State.rejectMeas_keeps
    | with_reducible apply State.bump_keeps
    | with_reducible apply State.set_keeps
    | with_reducible apply Keeps.ite
    | (with_reducible refine Keeps.foldl ?_ (fun _ _ _ => ?_))
    | with_reducible apply hf0
    | with_reducible apply hf2
    | with_reducible apply hf1
    | with_reducible apply Keeps.upd)

theorem State.encoderUpdate_keeps {r : State} {s : State} {n : Nat} (h : Keeps r s) :
    Keeps r (State.encoderUpdate s n) := by
  unfold State.encoderUpdate
  repeat' (first
    | with_reducible assumption
    | with_reducible exact rfl
    | with_reducible exact id
    | with_reducible exact RegFile.put_wf
    | with_reducible exact RegFile.setFld_wf
    | with_reducible exact RegFile.filter_wf
    | with_reducible exact fun w => RegFile.foldl_wf w (fun _ _ w => RegFile.put_wf w)
    | with_reducible exact (listModify_length _ _ _).trans
    | with_reducible exact fun _ => List.length_replicate
    | with_reducible exact List.length_map _ |>.trans
    | (intro x; refine (fun (hx : Keeps r x) => ?_) ?_; clear_value x; rotate_left; subst x)
    | (intro x; refine (fun (hx : FstKeeps r x) => ?_) ?_; clear_value x; rotate_left; subst x)
    | (intro x; refine (fun (hf0 : ∀ s, Keeps r s → Keeps r (x s)) => ?_) ?_; clear_value x; rotate_left; subst x; intro _ _)
    | (intro x; refine (fun (hf1 : ∀ s c, Keeps r s → Keeps r (x s c)) => ?_) ?_; clear_value x; rotate_left; subst x; intro _ _ _)
    | (intro x; refine (fun (hf2 : ∀ c, Keeps r (x c)) => ?_) ?_; clear_value x; rotate_left; subst x; intro _)
    | (intro x; have hs : (x : Safety) = x := rfl; clear hs; subst x)
    | (intro x; clear_value x)
    | (intro x)
    | lift_lets
    | with_reducible apply State.setTb_keeps
    | with_reducible apply State.rejectMeas_keeps
    | with_reducible apply State.rejectFast_keeps
    | with_reducible apply State.measure_keeps
    | with_reducible apply Keeps.ite
    | (with_reducible refine Keeps.foldl ?_ (fun _ _ _ => ?_))
    | with_reducible apply hf0
    | with_reducible apply hf2
    | with_reducible apply hf1
    | with_reducible apply Keeps.upd)

theorem State.inputUpdate_keeps {r : State} {s : State} {n : Nat} (h : Keeps r s) :
    Keeps r (State.inputUpdate s n) := by
  unfold State.inputUpdate
  repeat' (first
    | with_reducible assumption
    | with_reducible exact rfl
    | with_reducible exact id
    | with_reducible exact RegFile.put_wf
    | with_reducible exact RegFile.setFld_wf
    | with_reducible exact RegFile.filter_wf
    | with_reducible exact fun w => RegFile.foldl_wf w (fun _ _ w => RegFile.put_wf w)
    | with_reducible exact (listModify_length _ _ _).trans
    | with_reducible exact fun _ => List.length_replicate
    | with_reducible exact List.length_map _ |>.trans
    | (intro x; refine (fun (hx : Keeps r x) => ?_) ?_; clear_value x; rotate_left; subst x)
    | (intro x; refine (fun (hx : FstKeeps r x) => ?_) ?_; clear_value x; rotate_left; subst x)
    | (intro x; refine (fun (hf0 : ∀ s, Keeps r s → Keeps r (x s)) => ?_) ?_; clear_value x; rotate_left; subst x; intro _ _)
    | (intro x; refine (fun (hf1 : ∀ s c, Keeps r s → Keeps r (x s c)) => ?_) ?_; clear_value x; rotate_left; subst x; intro _ _ _)
    | (intro x; refine (fun (hf2 : ∀ c, Keeps r (x c)) => ?_) ?_; clear_value x; rotate_left; subst x; intro _)
    | (intro x; have hs : (x : Safety) = x := rfl; clear hs; subst x)
    | (intro x; clear_value x)
    | (intro x)
    | lift_lets
    | with_reducible apply State.setTb_keeps
    | with_reducible apply State.rejectFast_keeps
    | with_reducible apply State.takeInput_keeps
    | with_reducible apply Keeps.ite
    | (with_reducible refine Keeps.foldl ?_ (fun _ _ _ => ?_))
    | with_reducible apply hf0
    | with_reducible apply hf2
    | with_reducible apply hf1
    | with_reducible apply Keeps.upd)

theorem State.updateChannel_keeps {r : State} {s : State} {n : Nat} (h : Keeps r s) :
    Keeps r (State.updateChannel s n) := by
  unfold State.updateChannel
  repeat' (first
    | with_reducible assumption
    | with_reducible exact rfl
    | with_reducible exact id
    | with_reducible exact RegFile.put_wf
    | with_reducible exact RegFile.setFld_wf
    | with_reducible exact RegFile.filter_wf
    | with_reducible exact fun w => RegFile.foldl_wf w (fun _ _ w => RegFile.put_wf w)
    | with_reducible exact (listModify_length _ _ _).trans
    | with_reducible exact fun _ => List.length_replicate
    | with_reducible exact List.length_map _ |>.trans
    | (intro x; refine (fun (hx : Keeps r x) => ?_) ?_; clear_value x; rotate_left; subst x)
    | (intro x; refine (fun (hx : FstKeeps r x) => ?_) ?_; clear_value x; rotate_left; subst x)
    | (intro x; refine (fun (hf0 : ∀ s, Keeps r s → Keeps r (x s)) => ?_) ?_; clear_value x; rotate_left; subst x; intro _ _)
    | (intro x; refine (fun (hf1 : ∀ s c, Keeps r s → Keeps r (x s c)) => ?_) ?_; clear_value x; rotate_left; subst x; intro _ _ _)
    | (intro x; refine (fun (hf2 : ∀ c, Keeps r (x c)) => ?_) ?_; clear_value x; rotate_left; subst x; intro _)
    | (intro x; have hs : (x : Safety) = x := rfl; clear hs; subst x)
    | (intro x; clear_value x)
    | (intro x)
    | lift_lets
    | with_reducible apply State.encoderUpdate_keeps
    | with_reducible apply State.inputUpdate_keeps
    | with_reducible apply State.setTb_keeps
    | with_reducible apply Keeps.ite
    | (with_reducible refine Keeps.foldl ?_ (fun _ _ _ => ?_))
    | with_reducible apply hf0
    | with_reducible apply hf2
    | with_reducible apply hf1
    | with_reducible apply Keeps.upd)

theorem State.tbCfgWritten_keeps {r : State} {s : State} {n : Nat} (h : Keeps r s) :
    Keeps r (State.tbCfgWritten s n) := by
  unfold State.tbCfgWritten
  repeat' (first
    | with_reducible assumption
    | with_reducible exact rfl
    | with_reducible exact id
    | with_reducible exact RegFile.put_wf
    | with_reducible exact RegFile.setFld_wf
    | with_reducible exact RegFile.filter_wf
    | with_reducible exact fun w => RegFile.foldl_wf w (fun _ _ w => RegFile.put_wf w)
    | with_reducible exact (listModify_length _ _ _).trans
    | with_reducible exact fun _ => List.length_replicate
    | with_reducible exact List.length_map _ |>.trans
    | (intro x; refine (fun (hx : Keeps r x) => ?_) ?_; clear_value x; rotate_left; subst x)
    | (intro x; refine (fun (hx : FstKeeps r x) => ?_) ?_; clear_value x; rotate_left; subst x)
    | (intro x; refine (fun (hf0 : ∀ s, Keeps r s → Keeps r (x s)) => ?_) ?_; clear_value x; rotate_left; subst x; intro _ _)
    | (intro x; refine (fun (hf1 : ∀ s c, Keeps r s → Keeps r (x s c)) => ?_) ?_; clear_value x; rotate_left; subst x; intro _ _ _)
    | (intro x; refine (fun (hf2 : ∀ c, Keeps r (x c)) => ?_) ?_; clear_value x; rotate_left; subst x; intro _)
    | (intro x; have hs : (x : Safety) = x := rfl; clear hs; subst x)
    | (intro x; clear_value x)
    | (intro x)
    | lift_lets
    | with_reducible apply State.set_keeps
    | with_reducible apply State.setTb_keeps
    | with_reducible apply State.toLocking_keeps
    | with_reducible apply Keeps.ite
    | (with_reducible refine Keeps.foldl ?_ (fun _ _ _ => ?_))
    | with_reducible apply hf0
    | with_reducible apply hf2
    | with_reducible apply hf1
    | with_reducible apply Keeps.upd)

theorem State.tbCfgStore_keeps {r : State} {s : State} {n : Nat} {v : Word} (h : Keeps r s) :
    Keeps r (State.tbCfgStore s n v) := by
  unfold State.tbCfgStore
  repeat' (first
    | with_reducible assumption
    | with_reducible exact rfl
    | with_reducible exact id
    | with_reducible exact RegFile.put_wf
    | with_reducible exact RegFile.setFld_wf
    | with_reducible exact RegFile.filter_wf
    | with_reducible exact fun w => RegFile.foldl_wf w (fun _ _ w => RegFile.put_wf w)
    | with_reducible exact (listModify_length _ _ _).trans
    | with_reducible exact fun _ => List.length_replicate
    | with_reducible exact List.length_map _ |>.trans
    | (intro x; refine (fun (hx : Keeps r x) => ?_) ?_; clear_value x; rotate_left; subst x)
    | (intro x; refine (fun (hx : FstKeeps r x) => ?_) ?_; clear_value x; rotate_left; subst x)
    | (intro x; refine (fun (hf0 : ∀ s, Keeps r s → Keeps r (x s)) => ?_) ?_; clear_value x; rotate_left; subst x; intro _ _)
    | (intro x; refine (fun (hf1 : ∀ s c, Keeps r s → Keeps r (x s c)) => ?_) ?_; clear_value x; rotate_left; subst x; intro _ _ _)
    | (intro x; refine (fun (hf2 : ∀ c, Keeps r (x c)) => ?_) ?_; clear_value x; rotate_left; subst x; intro _)
    | (intro x; have hs : (x : Safety) = x := rfl; clear hs; subst x)
    | (intro x; clear_value x)
    | (intro x)
    | lift_lets
    | with_reducible apply State.tbCfgWritten_keeps
    | with_reducible apply State.regStore_keeps
    | with_reducible apply State.holdPos_keeps
    | with_reducible apply Keeps.ite
    | (with_reducible refine Keeps.foldl ?_ (fun _ _ _ => ?_))
    | with_reducible apply hf0
    | with_reducible apply hf2
    | with_reducible apply hf1
    | with_reducible apply Keeps.upd)

theorem State.posRead_keeps {r : State} {s : State} {n : Nat} (h : Keeps r s) :
    FstKeeps r (State.posRead s n) := by
  unfold State.posRead
  repeat' (first
    | with_reducible assumption
    | with_reducible exact rfl
    | with_reducible exact id
    | with_reducible exact RegFile.put_wf
    | with_reducible exact RegFile.setFld_wf
    | with_reducible exact RegFile.filter_wf
    | with_reducible exact fun w => RegFile.foldl_wf w (fun _ _ w => RegFile.put_wf w)
    | with_reducible exact (listModify_length _ _ _).trans
    | with_reducible exact fun _ => List.length_replicate
    | with_reducible exact List.length_map _ |>.trans
    | (intro x; refine (fun (hx : Keeps r x) => ?_) ?_; clear_value x; rotate_left; subst x)
    | (intro x; refine (fun (hx : FstKeeps r x) => ?_) ?_; clear_value x; rotate_left; subst x)
    | (intro x; refine (fun (hf0 : ∀ s, Keeps r s → Keeps r (x s)) => ?_) ?_; clear_value x; rotate_left; subst x; intro _ _)
    | (intro x; refine (fun (hf1 : ∀ s c, Keeps r s → Keeps r (x s c)) => ?_) ?_; clear_value x; rotate_left; subst x; intro _ _ _)
    | (intro x; refine (fun (hf2 : ∀ c, Keeps r (x c)) => ?_) ?_; clear_value x; rotate_left; subst x; intro _)
    | (intro x; have hs : (x : Safety) = x := rfl; clear hs; subst x)
    | (intro x; clear_value x)
    | (intro x)
    | lift_lets
    | with_reducible apply State.setS_keeps
    | with_reducible apply State.set_keeps
    | with_reducible apply Keeps.ite
    | (with_reducible refine Keeps.foldl ?_ (fun _ _ _ => ?_))
    | with_reducible apply FstKeeps.ite
    | (with_reducible refine FstKeeps.foldl ?_ (fun _ _ _ _ => ?_))
    | with_reducible apply hf0
    | with_reducible apply hf2
    | with_reducible apply hf1
    | with_reducible apply FstKeeps.mk
    | with_reducible apply Keeps.upd)

theorem State.timeloRead_keeps {r : State} {s : State} (h : Keeps r s) :
    FstKeeps r (State.timeloRead s) := by
  unfold State.timeloRead
  repeat' (first
    | with_reducible assumption
    | with_reducible exact rfl
    | with_reducible exact id
    | with_reducible exact RegFile.put_wf
    | with_reducible exact RegFile.setFld_wf
    | with_reducible exact RegFile.filter_wf
    | with_reducible exact fun w => RegFile.foldl_wf w (fun _ _ w => RegFile.put_wf w)
    | with_reducible exact (listModify_length _ _ _).trans
    | with_reducible exact fun _ => List.length_replicate
    | with_reducible exact List.length_map _ |>.trans
    | (intro x; refine (fun (hx : Keeps r x) => ?_) ?_; clear_value x; rotate_left; subst x)
    | (intro x; refine (fun (hx : FstKeeps r x) => ?_) ?_; clear_value x; rotate_left; subst x)
    | (intro x; refine (fun (hf0 : ∀ s, Keeps r s → Keeps r (x s)) => ?_) ?_; clear_value x; rotate_left; subst x; intro _ _)
    | (intro x; refine (fun (hf1 : ∀ s c, Keeps r s → Keeps r (x s c)) => ?_) ?_; clear_value x; rotate_left; subst x; intro _ _ _)
    | (intro x; refine (fun (hf2 : ∀ c, Keeps r (x c)) => ?_) ?_; clear_value x; rotate_left; subst x; intro _)
    | (intro x; have hs : (x : Safety) = x := rfl; clear hs; subst x)
    | (intro x; clear_value x)
    | (intro x)
    | lift_lets
    | with_reducible apply State.set_keeps
    | with_reducible apply Keeps.ite
    | (with_reducible refine Keeps.foldl ?_ (fun _ _ _ => ?_))
    | with_reducible apply FstKeeps.ite
    | (with_reducible refine FstKeeps.foldl ?_ (fun _ _ _ _ => ?_))
    | with_reducible apply hf0
    | with_reducible apply hf2
    | with_reducible apply hf1
    | with_reducible apply FstKeeps.mk
    | with_reducible apply Keeps.upd)

theorem State.toLost_keeps {r : State} {s : State} {n : Nat} (h : Keeps r s) :
    Keeps r (State.toLost s n) := by
  unfold State.toLost
  repeat' (first
    | with_reducible assumption
    | with_reducible exact rfl
    | with_reducible exact id
    | with_reducible exact RegFile.put_wf
    | with_reducible exact RegFile.setFld_wf
    | with_reducible exact RegFile.filter_wf
    | with_reducible exact fun w => RegFile.foldl_wf w (fun _ _ w => RegFile.put_wf w)
    | with_reducible exact (listModify_length _ _ _).trans
    | with_reducible exact fun _ => List.length_replicate
    | with_reducible exact List.length_map _ |>.trans
    | (intro x; refine (fun (hx : Keeps r x) => ?_) ?_; clear_value x; rotate_left; subst x)
    | (intro x; refine (fun (hx : FstKeeps r x) => ?_) ?_; clear_value x; rotate_left; subst x)
    | (intro x; refine (fun (hf0 : ∀ s, Keeps r s → Keeps r (x s)) => ?_) ?_; clear_value x; rotate_left; subst x; intro _ _)
    | (intro x; refine (fun (hf1 : ∀ s c, Keeps r s → Keeps r (x s c)) => ?_) ?_; clear_value x; rotate_left; subst x; intro _ _ _)
    | (intro x; refine (fun (hf2 : ∀ c, Keeps r (x c)) => ?_) ?_; clear_value x; rotate_left; subst x; intro _)
    | (intro x; have hs : (x : Safety) = x := rfl; clear hs; subst x)
    | (intro x; clear_value x)
    | (intro x)
    | lift_lets
    | with_reducible apply State.set_keeps
    | with_reducible apply State.setTb_keeps
    | with_reducible apply State.holdPos_keeps
    | with_reducible apply Keeps.ite
    | (with_reducible refine Keeps.foldl ?_ (fun _ _ _ => ?_))
    | with_reducible apply hf0
    | with_reducible apply hf2
    | with_reducible apply hf1
    | with_reducible apply Keeps.upd)

theorem State.beforeInput_keeps {r : State} {s : State} {n : Nat} {t : Nat} (h : Keeps r s) :
    Keeps r (State.beforeInput s n t) := by
  unfold State.beforeInput
  repeat' (first
    | with_reducible assumption
    | with_reducible exact rfl
    | with_reducible exact id
    | with_reducible exact RegFile.put_wf
    | with_reducible exact RegFile.setFld_wf
    | with_reducible exact RegFile.filter_wf
    | with_reducible exact fun w => RegFile.foldl_wf w (fun _ _ w => RegFile.put_wf w)
    | with_reducible exact (listModify_length _ _ _).trans
    | with_reducible exact fun _ => List.length_replicate
    | with_reducible exact List.length_map _ |>.trans
    | (intro x; refine (fun (hx : Keeps r x) => ?_) ?_; clear_value x; rotate_left; subst x)
    | (intro x; refine (fun (hx : FstKeeps r x) => ?_) ?_; clear_value x; rotate_left; subst x)
    | (intro x; refine (fun (hf0 : ∀ s, Keeps r s → Keeps r (x s)) => ?_) ?_; clear_value x; rotate_left; subst x; intro _ _)
    | (intro x; refine (fun (hf1 : ∀ s c, Keeps r s → Keeps r (x s c)) => ?_) ?_; clear_value x; rotate_left; subst x; intro _ _ _)
    | (intro x; refine (fun (hf2 : ∀ c, Keeps r (x c)) => ?_) ?_; clear_value x; rotate_left; subst x; intro _)
    | (intro x; have hs : (x : Safety) = x := rfl; clear hs; subst x)
    | (intro x; clear_value x)
    | (intro x)
    | lift_lets
    | with_reducible apply State.toLost_keeps
    | with_reducible apply Keeps.ite
    | (with_reducible refine Keeps.foldl ?_ (fun _ _ _ => ?_))
    | with_reducible apply hf0
    | with_reducible apply hf2
    | with_reducible apply hf1
    | with_reducible apply Keeps.upd)

theorem State.resolverOutput_keeps {r : State} {s : State} {ch : Nat} {a : Nat} {tz : Nat} {valid : Bool} {t : Nat} (h : Keeps r s) :
    Keeps r (State.resolverOutput s ch a tz valid t) := by
  unfold State.resolverOutput
  repeat' (first
    | with_reducible assumption
    | with_reducible exact rfl
    | with_reducible exact id
    | with_reducible exact RegFile.put_wf
    | with_reducible exact RegFile.setFld_wf
    | with_reducible exact RegFile.filter_wf
    | with_reducible exact fun w => RegFile.foldl_wf w (fun _ _ w => RegFile.put_wf w)
    | with_reducible exact (listModify_length _ _ _).trans
    | with_reducible exact fun _ => List.length_replicate
    | with_reducible exact List.length_map _ |>.trans
    | (intro x; refine (fun (hx : Keeps r x) => ?_) ?_; clear_value x; rotate_left; subst x)
    | (intro x; refine (fun (hx : FstKeeps r x) => ?_) ?_; clear_value x; rotate_left; subst x)
    | (intro x; refine (fun (hf0 : ∀ s, Keeps r s → Keeps r (x s)) => ?_) ?_; clear_value x; rotate_left; subst x; intro _ _)
    | (intro x; refine (fun (hf1 : ∀ s c, Keeps r s → Keeps r (x s c)) => ?_) ?_; clear_value x; rotate_left; subst x; intro _ _ _)
    | (intro x; refine (fun (hf2 : ∀ c, Keeps r (x c)) => ?_) ?_; clear_value x; rotate_left; subst x; intro _)
    | (intro x; have hs : (x : Safety) = x := rfl; clear hs; subst x)
    | (intro x; clear_value x)
    | (intro x)
    | lift_lets
    | with_reducible apply State.setTb_keeps
    | with_reducible apply State.beforeInput_keeps
    | with_reducible apply State.bump_keeps
    | with_reducible apply State.set_keeps
    | with_reducible apply Keeps.ite
    | (with_reducible refine Keeps.foldl ?_ (fun _ _ _ => ?_))
    | with_reducible apply hf0
    | with_reducible apply hf2
    | with_reducible apply hf1
    | with_reducible apply Keeps.upd)

theorem State.rigAlive_keeps {r : State} {s : State} {typ : Nat} {hop : Nat} {alive : Nat} (h : Keeps r s) :
    OptKeeps r (State.rigAlive s typ hop alive) := by
  unfold State.rigAlive
  repeat' (first
    | with_reducible assumption
    | with_reducible exact rfl
    | with_reducible exact id
    | with_reducible exact RegFile.put_wf
    | with_reducible exact RegFile.setFld_wf
    | with_reducible exact RegFile.filter_wf
    | with_reducible exact fun w => RegFile.foldl_wf w (fun _ _ w => RegFile.put_wf w)
    | with_reducible exact (listModify_length _ _ _).trans
    | with_reducible exact fun _ => List.length_replicate
    | with_reducible exact List.length_map _ |>.trans
    | (intro x; refine (fun (hx : Keeps r x) => ?_) ?_; clear_value x; rotate_left; subst x)
    | (intro x; refine (fun (hx : FstKeeps r x) => ?_) ?_; clear_value x; rotate_left; subst x)
    | (intro x; refine (fun (hf0 : ∀ s, Keeps r s → Keeps r (x s)) => ?_) ?_; clear_value x; rotate_left; subst x; intro _ _)
    | (intro x; refine (fun (hf1 : ∀ s c, Keeps r s → Keeps r (x s c)) => ?_) ?_; clear_value x; rotate_left; subst x; intro _ _ _)
    | (intro x; refine (fun (hf2 : ∀ c, Keeps r (x c)) => ?_) ?_; clear_value x; rotate_left; subst x; intro _)
    | (intro x; have hs : (x : Safety) = x := rfl; clear hs; subst x)
    | (intro x; clear_value x)
    | (intro x)
    | lift_lets
    | with_reducible apply State.bump_keeps
    | (refine Keeps.of_fst ‹_ = (_, _)› ?_)
    | with_reducible apply OptKeeps.mkSome
    | with_reducible exact OptKeeps.mkNone
    | (with_reducible refine OptKeeps.map (fun _ => ?_))
    | (with_reducible refine OptKeeps.bind (fun _ => ?_))
    | with_reducible apply OptKeeps.ite
    | with_reducible apply Keeps.ite
    | (with_reducible refine Keeps.foldl ?_ (fun _ _ _ => ?_))
    | with_reducible apply FstKeeps.ite
    | (with_reducible refine FstKeeps.foldl ?_ (fun _ _ _ _ => ?_))
    | with_reducible apply hf0
    | with_reducible apply hf2
    | with_reducible apply hf1
    | split
    | with_reducible apply FstKeeps.mk
    | with_reducible apply Keeps.upd)

theorem State.rigAliveClear_keeps {r : State} {s : State} {port : Nat} (h : Keeps r s) :
    Keeps r (State.rigAliveClear s port) := by
  unfold State.rigAliveClear
  repeat' (first
    | with_reducible assumption
    | with_reducible exact rfl
    | with_reducible exact id
    | with_reducible exact RegFile.put_wf
    | with_reducible exact RegFile.setFld_wf
    | with_reducible exact RegFile.filter_wf
    | with_reducible exact fun w => RegFile.foldl_wf w (fun _ _ w => RegFile.put_wf w)
    | with_reducible exact (listModify_length _ _ _).trans
    | with_reducible exact fun _ => List.length_replicate
    | with_reducible exact List.length_map _ |>.trans
    | (intro x; refine (fun (hx : Keeps r x) => ?_) ?_; clear_value x; rotate_left; subst x)
    | (intro x; refine (fun (hx : FstKeeps r x) => ?_) ?_; clear_value x; rotate_left; subst x)
    | (intro x; refine (fun (hf0 : ∀ s, Keeps r s → Keeps r (x s)) => ?_) ?_; clear_value x; rotate_left; subst x; intro _ _)
    | (intro x; refine (fun (hf1 : ∀ s c, Keeps r s → Keeps r (x s c)) => ?_) ?_; clear_value x; rotate_left; subst x; intro _ _ _)
    | (intro x; refine (fun (hf2 : ∀ c, Keeps r (x c)) => ?_) ?_; clear_value x; rotate_left; subst x; intro _)
    | (intro x; have hs : (x : Safety) = x := rfl; clear hs; subst x)
    | (intro x; clear_value x)
    | (intro x)
    | lift_lets
    | with_reducible apply Keeps.ite
    | (with_reducible refine Keeps.foldl ?_ (fun _ _ _ => ?_))
    | with_reducible apply hf0
    | with_reducible apply hf2
    | with_reducible apply hf1
    | with_reducible apply Keeps.upd)

theorem State.rigFree_keeps {r : State} {s : State} (h : Keeps r s) :
    Keeps r (State.rigFree s) := by
  unfold State.rigFree
  repeat' (first
    | with_reducible assumption
    | with_reducible exact rfl
    | with_reducible exact id
    | with_reducible exact RegFile.put_wf
    | with_reducible exact RegFile.setFld_wf
    | with_reducible exact RegFile.filter_wf
    | with_reducible exact fun w => RegFile.foldl_wf w (fun _ _ w => RegFile.put_wf w)
    | with_reducible exact (listModify_length _ _ _).trans
    | with_reducible exact fun _ => List.length_replicate
    | with_reducible exact List.length_map _ |>.trans
    | (intro x; refine (fun (hx : Keeps r x) => ?_) ?_; clear_value x; rotate_left; subst x)
    | (intro x; refine (fun (hx : FstKeeps r x) => ?_) ?_; clear_value x; rotate_left; subst x)
    | (intro x; refine (fun (hf0 : ∀ s, Keeps r s → Keeps r (x s)) => ?_) ?_; clear_value x; rotate_left; subst x; intro _ _)
    | (intro x; refine (fun (hf1 : ∀ s c, Keeps r s → Keeps r (x s c)) => ?_) ?_; clear_value x; rotate_left; subst x; intro _ _ _)
    | (intro x; refine (fun (hf2 : ∀ c, Keeps r (x c)) => ?_) ?_; clear_value x; rotate_left; subst x; intro _)
    | (intro x; have hs : (x : Safety) = x := rfl; clear hs; subst x)
    | (intro x; clear_value x)
    | (intro x)
    | lift_lets
    | with_reducible apply State.bump_keeps
    | with_reducible apply State.set_keeps
    | with_reducible apply Keeps.ite
    | (with_reducible refine Keeps.foldl ?_ (fun _ _ _ => ?_))
    | with_reducible apply hf0
    | with_reducible apply hf2
    | with_reducible apply hf1
    | with_reducible apply Keeps.upd)

theorem State.nextAlive_keeps {r : State} {s : State} {typ : Nat} (h : Keeps r s) :
    FstKeeps r (State.nextAlive s typ) := by
  unfold State.nextAlive
  repeat' (first
    | with_reducible assumption
    | with_reducible exact rfl
    | with_reducible exact id
    | with_reducible exact RegFile.put_wf
    | with_reducible exact RegFile.setFld_wf
    | with_reducible exact RegFile.filter_wf
    | with_reducible exact fun w => RegFile.foldl_wf w (fun _ _ w => RegFile.put_wf w)
    | with_reducible exact (listModify_length _ _ _).trans
    | with_reducible exact fun _ => List.length_replicate
    | with_reducible exact List.length_map _ |>.trans
    | (intro x; refine (fun (hx : Keeps r x) => ?_) ?_; clear_value x; rotate_left; subst x)
    | (intro x; refine (fun (hx : FstKeeps r x) => ?_) ?_; clear_value x; rotate_left; subst x)
    | (intro x; refine (fun (hf0 : ∀ s, Keeps r s → Keeps r (x s)) => ?_) ?_; clear_value x; rotate_left; subst x; intro _ _)
    | (intro x; refine (fun (hf1 : ∀ s c, Keeps r s → Keeps r (x s c)) => ?_) ?_; clear_value x; rotate_left; subst x; intro _ _ _)
    | (intro x; refine (fun (hf2 : ∀ c, Keeps r (x c)) => ?_) ?_; clear_value x; rotate_left; subst x; intro _)
    | (intro x; have hs : (x : Safety) = x := rfl; clear hs; subst x)
    | (intro x; clear_value x)
    | (intro x)
    | lift_lets
    | with_reducible apply Keeps.ite
    | (with_reducible refine Keeps.foldl ?_ (fun _ _ _ => ?_))
    | with_reducible apply FstKeeps.ite
    | (with_reducible refine FstKeeps.foldl ?_ (fun _ _ _ _ => ?_))
    | with_reducible apply hf0
    | with_reducible apply hf2
    | with_reducible apply hf1
    | with_reducible apply FstKeeps.mk
    | with_reducible apply Keeps.upd)

theorem State.rigQueueOut_keeps {r : State} {s : State} {m : RigMsg} (h : Keeps r s) :
    Keeps r (State.rigQueueOut s m) := by
  unfold State.rigQueueOut
  repeat' (first
    | with_reducible assumption
    | with_reducible exact rfl
    | with_reducible exact id
    | with_reducible exact RegFile.put_wf
    | with_reducible exact RegFile.setFld_wf
    | with_reducible exact RegFile.filter_wf
    | with_reducible exact fun w => RegFile.foldl_wf w (fun _ _ w => RegFile.put_wf w)
    | with_reducible exact (listModify_length _ _ _).trans
    | with_reducible exact fun _ => List.length_replicate
    | with_reducible exact List.length_map _ |>.trans
    | (intro x; refine (fun (hx : Keeps r x) => ?_) ?_; clear_value x; rotate_left; subst x)
    | (intro x; refine (fun (hx : FstKeeps r x) => ?_) ?_; clear_value x; rotate_left; subst x)
    | (intro x; refine (fun (hf0 : ∀ s, Keeps r s → Keeps r (x s)) => ?_) ?_; clear_value x; rotate_left; subst x; intro _ _)
    | (intro x; refine (fun (hf1 : ∀ s c, Keeps r s → Keeps r (x s c)) => ?_) ?_; clear_value x; rotate_left; subst x; intro _ _ _)
    | (intro x; refine (fun (hf2 : ∀ c, Keeps r (x c)) => ?_) ?_; clear_value x; rotate_left; subst x; intro _)
    | (intro x; have hs : (x : Safety) = x := rfl; clear hs; subst x)
    | (intro x; clear_value x)
    | (intro x)
    | lift_lets
    | with_reducible apply State.bump_keeps
    | with_reducible apply Keeps.ite
    | (with_reducible refine Keeps.foldl ?_ (fun _ _ _ => ?_))
    | with_reducible apply hf0
    | with_reducible apply hf2
    | with_reducible apply hf1
    | with_reducible apply Keeps.upd)

theorem State.rigHeard_keeps {r : State} {s : State} {port : Nat} (h : Keeps r s) :
    Keeps r (State.rigHeard s port) := by
  unfold State.rigHeard
  repeat' (first
    | with_reducible assumption
    | with_reducible exact rfl
    | with_reducible exact id
    | with_reducible exact RegFile.put_wf
    | with_reducible exact RegFile.setFld_wf
    | with_reducible exact RegFile.filter_wf
    | with_reducible exact fun w => RegFile.foldl_wf w (fun _ _ w => RegFile.put_wf w)
    | with_reducible exact (listModify_length _ _ _).trans
    | with_reducible exact fun _ => List.length_replicate
    | with_reducible exact List.length_map _ |>.trans
    | (intro x; refine (fun (hx : Keeps r x) => ?_) ?_; clear_value x; rotate_left; subst x)
    | (intro x; refine (fun (hx : FstKeeps r x) => ?_) ?_; clear_value x; rotate_left; subst x)
    | (intro x; refine (fun (hf0 : ∀ s, Keeps r s → Keeps r (x s)) => ?_) ?_; clear_value x; rotate_left; subst x; intro _ _)
    | (intro x; refine (fun (hf1 : ∀ s c, Keeps r s → Keeps r (x s c)) => ?_) ?_; clear_value x; rotate_left; subst x; intro _ _ _)
    | (intro x; refine (fun (hf2 : ∀ c, Keeps r (x c)) => ?_) ?_; clear_value x; rotate_left; subst x; intro _)
    | (intro x; have hs : (x : Safety) = x := rfl; clear hs; subst x)
    | (intro x; clear_value x)
    | (intro x)
    | lift_lets
    | with_reducible apply State.set_keeps
    | with_reducible apply Keeps.ite
    | (with_reducible refine Keeps.foldl ?_ (fun _ _ _ => ?_))
    | with_reducible apply hf0
    | with_reducible apply hf2
    | with_reducible apply hf1
    | with_reducible apply Keeps.upd)

theorem State.stepNow_keeps {r s : State} {n : Nat} (h : Keeps r s) : Keeps r (s.stepNow n) :=
  ⟨⟨h.pending, h.up, h.out, h.wf⟩, h.dev, h.prev, h.cause, h.vddaon, Nat.le_trans h.now (Nat.le_add_right _ _), h.pllMain⟩

theorem State.rigAlign_keeps {r : State} {s : State} {e : Int} (h : Keeps r s) :
    Keeps r (State.rigAlign s e) := by
  unfold State.rigAlign
  repeat' (first
    | with_reducible assumption
    | with_reducible exact rfl
    | with_reducible exact id
    | with_reducible exact RegFile.put_wf
    | with_reducible exact RegFile.setFld_wf
    | with_reducible exact RegFile.filter_wf
    | with_reducible exact fun w => RegFile.foldl_wf w (fun _ _ w => RegFile.put_wf w)
    | with_reducible exact (listModify_length _ _ _).trans
    | with_reducible exact fun _ => List.length_replicate
    | with_reducible exact List.length_map _ |>.trans
    | (intro x; refine (fun (hx : Keeps r x) => ?_) ?_; clear_value x; rotate_left; subst x)
    | (intro x; refine (fun (hx : FstKeeps r x) => ?_) ?_; clear_value x; rotate_left; subst x)
    | (intro x; refine (fun (hf0 : ∀ s, Keeps r s → Keeps r (x s)) => ?_) ?_; clear_value x; rotate_left; subst x; intro _ _)
    | (intro x; refine (fun (hf1 : ∀ s c, Keeps r s → Keeps r (x s c)) => ?_) ?_; clear_value x; rotate_left; subst x; intro _ _ _)
    | (intro x; refine (fun (hf2 : ∀ c, Keeps r (x c)) => ?_) ?_; clear_value x; rotate_left; subst x; intro _)
    | (intro x; have hs : (x : Safety) = x := rfl; clear hs; subst x)
    | (intro x; clear_value x)
    | (intro x)
    | lift_lets
    | with_reducible apply State.setS_keeps
    | with_reducible apply State.set_keeps
    | with_reducible apply State.forgetCrossingsAll_keeps
    | with_reducible apply State.stepNow_keeps
    | with_reducible apply Keeps.ite
    | (with_reducible refine Keeps.foldl ?_ (fun _ _ _ => ?_))
    | with_reducible apply hf0
    | with_reducible apply hf2
    | with_reducible apply hf1
    | with_reducible apply Keeps.upd)

theorem State.ce1_keeps {r : State} {s : State} {body : List Byte} (h : Keeps r s) :
    Keeps r (State.ce1 s body) := by
  unfold State.ce1
  repeat' (first
    | with_reducible assumption
    | with_reducible exact rfl
    | with_reducible exact id
    | with_reducible exact RegFile.put_wf
    | with_reducible exact RegFile.setFld_wf
    | with_reducible exact RegFile.filter_wf
    | with_reducible exact fun w => RegFile.foldl_wf w (fun _ _ w => RegFile.put_wf w)
    | with_reducible exact (listModify_length _ _ _).trans
    | with_reducible exact fun _ => List.length_replicate
    | with_reducible exact List.length_map _ |>.trans
    | (intro x; refine (fun (hx : Keeps r x) => ?_) ?_; clear_value x; rotate_left; subst x)
    | (intro x; refine (fun (hx : FstKeeps r x) => ?_) ?_; clear_value x; rotate_left; subst x)
    | (intro x; refine (fun (hf0 : ∀ s, Keeps r s → Keeps r (x s)) => ?_) ?_; clear_value x; rotate_left; subst x; intro _ _)
    | (intro x; refine (fun (hf1 : ∀ s c, Keeps r s → Keeps r (x s c)) => ?_) ?_; clear_value x; rotate_left; subst x; intro _ _ _)
    | (intro x; refine (fun (hf2 : ∀ c, Keeps r (x c)) => ?_) ?_; clear_value x; rotate_left; subst x; intro _)
    | (intro x; have hs : (x : Safety) = x := rfl; clear hs; subst x)
    | (intro x; clear_value x)
    | (intro x)
    | lift_lets
    | with_reducible apply State.set_keeps
    | with_reducible apply Keeps.ite
    | (with_reducible refine Keeps.foldl ?_ (fun _ _ _ => ?_))
    | with_reducible apply hf0
    | with_reducible apply hf2
    | with_reducible apply hf1
    | with_reducible apply Keeps.upd)

theorem State.ce3_keeps {r : State} {s : State} {body : List Byte} (h : Keeps r s) :
    Keeps r (State.ce3 s body) := by
  unfold State.ce3
  repeat' (first
    | with_reducible assumption
    | with_reducible exact rfl
    | with_reducible exact id
    | with_reducible exact RegFile.put_wf
    | with_reducible exact RegFile.setFld_wf
    | with_reducible exact RegFile.filter_wf
    | with_reducible exact fun w => RegFile.foldl_wf w (fun _ _ w => RegFile.put_wf w)
    | with_reducible exact (listModify_length _ _ _).trans
    | with_reducible exact fun _ => List.length_replicate
    | with_reducible exact List.length_map _ |>.trans
    | (intro x; refine (fun (hx : Keeps r x) => ?_) ?_; clear_value x; rotate_left; subst x)
    | (intro x; refine (fun (hx : FstKeeps r x) => ?_) ?_; clear_value x; rotate_left; subst x)
    | (intro x; refine (fun (hf0 : ∀ s, Keeps r s → Keeps r (x s)) => ?_) ?_; clear_value x; rotate_left; subst x; intro _ _)
    | (intro x; refine (fun (hf1 : ∀ s c, Keeps r s → Keeps r (x s c)) => ?_) ?_; clear_value x; rotate_left; subst x; intro _ _ _)
    | (intro x; refine (fun (hf2 : ∀ c, Keeps r (x c)) => ?_) ?_; clear_value x; rotate_left; subst x; intro _)
    | (intro x; have hs : (x : Safety) = x := rfl; clear hs; subst x)
    | (intro x; clear_value x)
    | (intro x)
    | lift_lets
    | with_reducible apply State.set_keeps
    | with_reducible apply Keeps.ite
    | (with_reducible refine Keeps.foldl ?_ (fun _ _ _ => ?_))
    | with_reducible apply hf0
    | with_reducible apply hf2
    | with_reducible apply hf1
    | with_reducible apply Keeps.upd)

theorem execEncoderEdge_keeps {r : State} {n : Nat} {a : Bool} {b : Bool} {s : State} (h : Keeps r s) :
    OutKeeps r (execEncoderEdge n a b s) := by
  unfold execEncoderEdge
  repeat' (first
    | with_reducible assumption
    | with_reducible exact rfl
    | with_reducible exact id
    | with_reducible exact RegFile.put_wf
    | with_reducible exact RegFile.setFld_wf
    | with_reducible exact RegFile.filter_wf
    | with_reducible exact fun w => RegFile.foldl_wf w (fun _ _ w => RegFile.put_wf w)
    | with_reducible exact (listModify_length _ _ _).trans
    | with_reducible exact fun _ => List.length_replicate
    | with_reducible exact List.length_map _ |>.trans
    | (intro x; refine (fun (hx : Keeps r x) => ?_) ?_; clear_value x; rotate_left; subst x)
    | (intro x; refine (fun (hx : FstKeeps r x) => ?_) ?_; clear_value x; rotate_left; subst x)
    | (intro x; refine (fun (hf0 : ∀ s, Keeps r s → Keeps r (x s)) => ?_) ?_; clear_value x; rotate_left; subst x; intro _ _)
    | (intro x; refine (fun (hf1 : ∀ s c, Keeps r s → Keeps r (x s c)) => ?_) ?_; clear_value x; rotate_left; subst x; intro _ _ _)
    | (intro x; refine (fun (hf2 : ∀ c, Keeps r (x c)) => ?_) ?_; clear_value x; rotate_left; subst x; intro _)
    | (intro x; have hs : (x : Safety) = x := rfl; clear hs; subst x)
    | (intro x; clear_value x)
    | (intro x)
    | lift_lets
    | with_reducible apply State.setTb_keeps
    | with_reducible apply State.bump_keeps
    | with_reducible apply State.set_keeps
    | (refine Keeps.of_fst ‹_ = (_, _)› ?_)
    | with_reducible apply OutKeeps.ok
    | with_reducible apply OutKeeps.ite
    | with_reducible apply Keeps.ite
    | (with_reducible refine Keeps.foldl ?_ (fun _ _ _ => ?_))
    | with_reducible apply FstKeeps.ite
    | (with_reducible refine FstKeeps.foldl ?_ (fun _ _ _ _ => ?_))
    | with_reducible apply hf0
    | with_reducible apply hf2
    | with_reducible apply hf1
    | split
    | with_reducible apply FstKeeps.mk
    | with_reducible apply Keeps.upd)

theorem execIndexPulse_keeps {r : State} {n : Nat} {s : State} (h : Keeps r s) :
    OutKeeps r (execIndexPulse n s) := by
  unfold execIndexPulse
  repeat' (first
    | with_reducible assumption
    | with_reducible exact rfl
    | with_reducible exact id
    | with_reducible exact RegFile.put_wf
    | with_reducible exact RegFile.setFld_wf
    | with_reducible exact RegFile.filter_wf
    | with_reducible exact fun w => RegFile.foldl_wf w (fun _ _ w => RegFile.put_wf w)
    | with_reducible exact (listModify_length _ _ _).trans
    | with_reducible exact fun _ => List.length_replicate
    | with_reducible exact List.length_map _ |>.trans
    | (intro x; refine (fun (hx : Keeps r x) => ?_) ?_; clear_value x; rotate_left; subst x)
    | (intro x; refine (fun (hx : FstKeeps r x) => ?_) ?_; clear_value x; rotate_left; subst x)
    | (intro x; refine (fun (hf0 : ∀ s, Keeps r s → Keeps r (x s)) => ?_) ?_; clear_value x; rotate_left; subst x; intro _ _)
    | (intro x; refine (fun (hf1 : ∀ s c, Keeps r s → Keeps r (x s c)) => ?_) ?_; clear_value x; rotate_left; subst x; intro _ _ _)
    | (intro x; refine (fun (hf2 : ∀ c, Keeps r (x c)) => ?_) ?_; clear_value x; rotate_left; subst x; intro _)
    | (intro x; have hs : (x : Safety) = x := rfl; clear hs; subst x)
    | (intro x; clear_value x)
    | (intro x)
    | lift_lets
    | with_reducible apply State.setTb_keeps
    | with_reducible apply State.forgetCrossings_keeps
    | with_reducible apply State.set_keeps
    | with_reducible apply OutKeeps.ok
    | with_reducible apply OutKeeps.ite
    | with_reducible apply Keeps.ite
    | (with_reducible refine Keeps.foldl ?_ (fun _ _ _ => ?_))
    | with_reducible apply hf0
    | with_reducible apply hf2
    | with_reducible apply hf1
    | with_reducible apply Keeps.upd)

theorem execIndexTimeout_keeps {r : State} {n : Nat} {s : State} (h : Keeps r s) :
    OutKeeps r (execIndexTimeout n s) := by
  unfold execIndexTimeout
  repeat' (first
    | with_reducible assumption
    | with_reducible exact rfl
    | with_reducible exact id
    | with_reducible exact RegFile.put_wf
    | with_reducible exact RegFile.setFld_wf
    | with_reducible exact RegFile.filter_wf
    | with_reducible exact fun w => RegFile.foldl_wf w (fun _ _ w => RegFile.put_wf w)
    | with_reducible exact (listModify_length _ _ _).trans
    | with_reducible exact fun _ => List.length_replicate
    | with_reducible exact List.length_map _ |>.trans
    | (intro x; refine (fun (hx : Keeps r x) => ?_) ?_; clear_value x; rotate_left; subst x)
    | (intro x; refine (fun (hx : FstKeeps r x) => ?_) ?_; clear_value x; rotate_left; subst x)
    | (intro x; refine (fun (hf0 : ∀ s, Keeps r s → Keeps r (x s)) => ?_) ?_; clear_value x; rotate_left; subst x; intro _ _)
    | (intro x; refine (fun (hf1 : ∀ s c, Keeps r s → Keeps r (x s c)) => ?_) ?_; clear_value x; rotate_left; subst x; intro _ _ _)
    | (intro x; refine (fun (hf2 : ∀ c, Keeps r (x c)) => ?_) ?_; clear_value x; rotate_left; subst x; intro _)
    | (intro x; have hs : (x : Safety) = x := rfl; clear hs; subst x)
    | (intro x; clear_value x)
    | (intro x)
    | lift_lets
    | with_reducible apply State.set_keeps
    | with_reducible apply OutKeeps.ok
    | with_reducible apply OutKeeps.ite
    | with_reducible apply Keeps.ite
    | (with_reducible refine Keeps.foldl ?_ (fun _ _ _ => ?_))
    | with_reducible apply hf0
    | with_reducible apply hf2
    | with_reducible apply hf1
    | with_reducible apply Keeps.upd)

theorem State.syncMiss_keeps {r : State} {s : State} {n : Nat} (h : Keeps r s) :
    Keeps r (State.syncMiss s n) := by
  unfold State.syncMiss
  repeat' (first
    | with_reducible assumption
    | with_reducible exact rfl
    | with_reducible exact id
    | with_reducible exact RegFile.put_wf
    | with_reducible exact RegFile.setFld_wf
    | with_reducible exact RegFile.filter_wf
    | with_reducible exact fun w => RegFile.foldl_wf w (fun _ _ w => RegFile.put_wf w)
    | with_reducible exact (listModify_length _ _ _).trans
    | with_reducible exact fun _ => List.length_replicate
    | with_reducible exact List.length_map _ |>.trans
    | (intro x; refine (fun (hx : Keeps r x) => ?_) ?_; clear_value x; rotate_left; subst x)
    | (intro x; refine (fun (hx : FstKeeps r x) => ?_) ?_; clear_value x; rotate_left; subst x)
    | (intro x; refine (fun (hf0 : ∀ s, Keeps r s → Keeps r (x s)) => ?_) ?_; clear_value x; rotate_left; subst x; intro _ _)
    | (intro x; refine (fun (hf1 : ∀ s c, Keeps r s → Keeps r (x s c)) => ?_) ?_; clear_value x; rotate_left; subst x; intro _ _ _)
    | (intro x; refine (fun (hf2 : ∀ c, Keeps r (x c)) => ?_) ?_; clear_value x; rotate_left; subst x; intro _)
    | (intro x; have hs : (x : Safety) = x := rfl; clear hs; subst x)
    | (intro x; clear_value x)
    | (intro x)
    | lift_lets
    | with_reducible apply State.toCoast_keeps
    | with_reducible apply State.setTb_keeps
    | with_reducible apply State.set_keeps
    | with_reducible apply Keeps.ite
    | (with_reducible refine Keeps.foldl ?_ (fun _ _ _ => ?_))
    | with_reducible apply hf0
    | with_reducible apply hf2
    | with_reducible apply hf1
    | with_reducible apply Keeps.upd)

theorem execSyncPulse_keeps {r : State} {n : Nat} {s : State} (h : Keeps r s) :
    OutKeeps r (execSyncPulse n s) := by
  unfold execSyncPulse
  repeat' (first
    | with_reducible assumption
    | with_reducible exact rfl
    | with_reducible exact id
    | with_reducible exact RegFile.put_wf
    | with_reducible exact RegFile.setFld_wf
    | with_reducible exact RegFile.filter_wf
    | with_reducible exact fun w => RegFile.foldl_wf w (fun _ _ w => RegFile.put_wf w)
    | with_reducible exact (listModify_length _ _ _).trans
    | with_reducible exact fun _ => List.length_replicate
    | with_reducible exact List.length_map _ |>.trans
    | (intro x; refine (fun (hx : Keeps r x) => ?_) ?_; clear_value x; rotate_left; subst x)
    | (intro x; refine (fun (hx : FstKeeps r x) => ?_) ?_; clear_value x; rotate_left; subst x)
    | (intro x; refine (fun (hf0 : ∀ s, Keeps r s → Keeps r (x s)) => ?_) ?_; clear_value x; rotate_left; subst x; intro _ _)
    | (intro x; refine (fun (hf1 : ∀ s c, Keeps r s → Keeps r (x s c)) => ?_) ?_; clear_value x; rotate_left; subst x; intro _ _ _)
    | (intro x; refine (fun (hf2 : ∀ c, Keeps r (x c)) => ?_) ?_; clear_value x; rotate_left; subst x; intro _)
    | (intro x; have hs : (x : Safety) = x := rfl; clear hs; subst x)
    | (intro x; clear_value x)
    | (intro x)
    | lift_lets
    | with_reducible apply State.syncMiss_keeps
    | with_reducible apply State.beforeInput_keeps
    | with_reducible apply State.setTb_keeps
    | with_reducible apply State.bump_keeps
    | with_reducible apply State.set_keeps
    | with_reducible apply OutKeeps.ok
    | with_reducible apply OutKeeps.ite
    | with_reducible apply Keeps.ite
    | (with_reducible refine Keeps.foldl ?_ (fun _ _ _ => ?_))
    | with_reducible apply hf0
    | with_reducible apply hf2
    | with_reducible apply hf1
    | with_reducible apply Keeps.upd)

theorem execSyncMiss_keeps {r : State} {n : Nat} {s : State} (h : Keeps r s) :
    OutKeeps r (execSyncMiss n s) := by
  unfold execSyncMiss
  repeat' (first
    | with_reducible assumption
    | with_reducible exact rfl
    | with_reducible exact id
    | with_reducible exact RegFile.put_wf
    | with_reducible exact RegFile.setFld_wf
    | with_reducible exact RegFile.filter_wf
    | with_reducible exact fun w => RegFile.foldl_wf w (fun _ _ w => RegFile.put_wf w)
    | with_reducible exact (listModify_length _ _ _).trans
    | with_reducible exact fun _ => List.length_replicate
    | with_reducible exact List.length_map _ |>.trans
    | (intro x; refine (fun (hx : Keeps r x) => ?_) ?_; clear_value x; rotate_left; subst x)
    | (intro x; refine (fun (hx : FstKeeps r x) => ?_) ?_; clear_value x; rotate_left; subst x)
    | (intro x; refine (fun (hf0 : ∀ s, Keeps r s → Keeps r (x s)) => ?_) ?_; clear_value x; rotate_left; subst x; intro _ _)
    | (intro x; refine (fun (hf1 : ∀ s c, Keeps r s → Keeps r (x s c)) => ?_) ?_; clear_value x; rotate_left; subst x; intro _ _ _)
    | (intro x; refine (fun (hf2 : ∀ c, Keeps r (x c)) => ?_) ?_; clear_value x; rotate_left; subst x; intro _)
    | (intro x; have hs : (x : Safety) = x := rfl; clear hs; subst x)
    | (intro x; clear_value x)
    | (intro x)
    | lift_lets
    | with_reducible apply State.syncMiss_keeps
    | with_reducible apply OutKeeps.ok
    | with_reducible apply OutKeeps.ite
    | with_reducible apply Keeps.ite
    | (with_reducible refine Keeps.foldl ?_ (fun _ _ _ => ?_))
    | with_reducible apply hf0
    | with_reducible apply hf2
    | with_reducible apply hf1
    | with_reducible apply Keeps.upd)

theorem execPosRead_keeps {r : State} {n : Nat} {s : State} (h : Keeps r s) :
    OutKeeps r (execPosRead n s) := by
  unfold execPosRead
  repeat' (first
    | with_reducible assumption
    | with_reducible exact rfl
    | with_reducible exact id
    | with_reducible exact RegFile.put_wf
    | with_reducible exact RegFile.setFld_wf
    | with_reducible exact RegFile.filter_wf
    | with_reducible exact fun w => RegFile.foldl_wf w (fun _ _ w => RegFile.put_wf w)
    | with_reducible exact (listModify_length _ _ _).trans
    | with_reducible exact fun _ => List.length_replicate
    | with_reducible exact List.length_map _ |>.trans
    | (intro x; refine (fun (hx : Keeps r x) => ?_) ?_; clear_value x; rotate_left; subst x)
    | (intro x; refine (fun (hx : FstKeeps r x) => ?_) ?_; clear_value x; rotate_left; subst x)
    | (intro x; refine (fun (hf0 : ∀ s, Keeps r s → Keeps r (x s)) => ?_) ?_; clear_value x; rotate_left; subst x; intro _ _)
    | (intro x; refine (fun (hf1 : ∀ s c, Keeps r s → Keeps r (x s c)) => ?_) ?_; clear_value x; rotate_left; subst x; intro _ _ _)
    | (intro x; refine (fun (hf2 : ∀ c, Keeps r (x c)) => ?_) ?_; clear_value x; rotate_left; subst x; intro _)
    | (intro x; have hs : (x : Safety) = x := rfl; clear hs; subst x)
    | (intro x; clear_value x)
    | (intro x)
    | lift_lets
    | with_reducible apply State.mainRead_keeps
    | with_reducible apply State.posRead_keeps
    | (refine Keeps.of_fst ‹_ = (_, _)› ?_)
    | with_reducible apply OutKeeps.ok
    | with_reducible apply OutKeeps.ite
    | with_reducible apply Keeps.ite
    | (with_reducible refine Keeps.foldl ?_ (fun _ _ _ => ?_))
    | with_reducible apply FstKeeps.ite
    | (with_reducible refine FstKeeps.foldl ?_ (fun _ _ _ _ => ?_))
    | with_reducible apply hf0
    | with_reducible apply hf2
    | with_reducible apply hf1
    | with_reducible apply FstKeeps.mk
    | with_reducible apply FstKeeps.fst
    | with_reducible apply Keeps.upd)

theorem execTimeloRead_keeps {r : State} {s : State} (h : Keeps r s) :
    OutKeeps r (execTimeloRead s) := by
  unfold execTimeloRead
  repeat' (first
    | with_reducible assumption
    | with_reducible exact rfl
    | with_reducible exact id
    | with_reducible exact RegFile.put_wf
    | with_reducible exact RegFile.setFld_wf
    | with_reducible exact RegFile.filter_wf
    | with_reducible exact fun w => RegFile.foldl_wf w (fun _ _ w => RegFile.put_wf w)
    | with_reducible exact (listModify_length _ _ _).trans
    | with_reducible exact fun _ => List.length_replicate
    | with_reducible exact List.length_map _ |>.trans
    | (intro x; refine (fun (hx : Keeps r x) => ?_) ?_; clear_value x; rotate_left; subst x)
    | (intro x; refine (fun (hx : FstKeeps r x) => ?_) ?_; clear_value x; rotate_left; subst x)
    | (intro x; refine (fun (hf0 : ∀ s, Keeps r s → Keeps r (x s)) => ?_) ?_; clear_value x; rotate_left; subst x; intro _ _)
    | (intro x; refine (fun (hf1 : ∀ s c, Keeps r s → Keeps r (x s c)) => ?_) ?_; clear_value x; rotate_left; subst x; intro _ _ _)
    | (intro x; refine (fun (hf2 : ∀ c, Keeps r (x c)) => ?_) ?_; clear_value x; rotate_left; subst x; intro _)
    | (intro x; have hs : (x : Safety) = x := rfl; clear hs; subst x)
    | (intro x; clear_value x)
    | (intro x)
    | lift_lets
    | with_reducible apply State.mainRead_keeps
    | with_reducible apply State.timeloRead_keeps
    | (refine Keeps.of_fst ‹_ = (_, _)› ?_)
    | with_reducible apply OutKeeps.ok
    | with_reducible apply OutKeeps.ite
    | with_reducible apply Keeps.ite
    | (with_reducible refine Keeps.foldl ?_ (fun _ _ _ => ?_))
    | with_reducible apply FstKeeps.ite
    | (with_reducible refine FstKeeps.foldl ?_ (fun _ _ _ _ => ?_))
    | with_reducible apply hf0
    | with_reducible apply hf2
    | with_reducible apply hf1
    | with_reducible apply FstKeeps.mk
    | with_reducible apply FstKeeps.fst
    | with_reducible apply Keeps.upd)

theorem execRigTimeSend_keeps {r : State} {s : State} (h : Keeps r s) :
    OutKeeps r (execRigTimeSend s) := by
  unfold execRigTimeSend
  repeat' (first
    | with_reducible assumption
    | with_reducible exact rfl
    | with_reducible exact id
    | with_reducible exact RegFile.put_wf
    | with_reducible exact RegFile.setFld_wf
    | with_reducible exact RegFile.filter_wf
    | with_reducible exact fun w => RegFile.foldl_wf w (fun _ _ w => RegFile.put_wf w)
    | with_reducible exact (listModify_length _ _ _).trans
    | with_reducible exact fun _ => List.length_replicate
    | with_reducible exact List.length_map _ |>.trans
    | (intro x; refine (fun (hx : Keeps r x) => ?_) ?_; clear_value x; rotate_left; subst x)
    | (intro x; refine (fun (hx : FstKeeps r x) => ?_) ?_; clear_value x; rotate_left; subst x)
    | (intro x; refine (fun (hf0 : ∀ s, Keeps r s → Keeps r (x s)) => ?_) ?_; clear_value x; rotate_left; subst x; intro _ _)
    | (intro x; refine (fun (hf1 : ∀ s c, Keeps r s → Keeps r (x s c)) => ?_) ?_; clear_value x; rotate_left; subst x; intro _ _ _)
    | (intro x; refine (fun (hf2 : ∀ c, Keeps r (x c)) => ?_) ?_; clear_value x; rotate_left; subst x; intro _)
    | (intro x; have hs : (x : Safety) = x := rfl; clear hs; subst x)
    | (intro x; clear_value x)
    | (intro x)
    | lift_lets
    | with_reducible apply State.nextAlive_keeps
    | with_reducible apply State.rigQueueOut_keeps
    | (refine Keeps.of_fst ‹_ = (_, _)› ?_)
    | with_reducible apply OutKeeps.ok
    | with_reducible apply OutKeeps.ite
    | with_reducible apply Keeps.ite
    | (with_reducible refine Keeps.foldl ?_ (fun _ _ _ => ?_))
    | with_reducible apply FstKeeps.ite
    | (with_reducible refine FstKeeps.foldl ?_ (fun _ _ _ _ => ?_))
    | with_reducible apply hf0
    | with_reducible apply hf2
    | with_reducible apply hf1
    | split
    | with_reducible apply FstKeeps.mk
    | with_reducible apply FstKeeps.fst
    | with_reducible apply Keeps.upd)

theorem execRigProbeSend_keeps {r : State} {s : State} (h : Keeps r s) :
    OutKeeps r (execRigProbeSend s) := by
  unfold execRigProbeSend
  repeat' (first
    | with_reducible assumption
    | with_reducible exact rfl
    | with_reducible exact id
    | with_reducible exact RegFile.put_wf
    | with_reducible exact RegFile.setFld_wf
    | with_reducible exact RegFile.filter_wf
    | with_reducible exact fun w => RegFile.foldl_wf w (fun _ _ w => RegFile.put_wf w)
    | with_reducible exact (listModify_length _ _ _).trans
    | with_reducible exact fun _ => List.length_replicate
    | with_reducible exact List.length_map _ |>.trans
    | (intro x; refine (fun (hx : Keeps r x) => ?_) ?_; clear_value x; rotate_left; subst x)
    | (intro x; refine (fun (hx : FstKeeps r x) => ?_) ?_; clear_value x; rotate_left; subst x)
    | (intro x; refine (fun (hf0 : ∀ s, Keeps r s → Keeps r (x s)) => ?_) ?_; clear_value x; rotate_left; subst x; intro _ _)
    | (intro x; refine (fun (hf1 : ∀ s c, Keeps r s → Keeps r (x s c)) => ?_) ?_; clear_value x; rotate_left; subst x; intro _ _ _)
    | (intro x; refine (fun (hf2 : ∀ c, Keeps r (x c)) => ?_) ?_; clear_value x; rotate_left; subst x; intro _)
    | (intro x; have hs : (x : Safety) = x := rfl; clear hs; subst x)
    | (intro x; clear_value x)
    | (intro x)
    | lift_lets
    | with_reducible apply State.nextAlive_keeps
    | (refine Keeps.of_fst ‹_ = (_, _)› ?_)
    | with_reducible apply OutKeeps.ok
    | with_reducible apply OutKeeps.ite
    | with_reducible apply Keeps.ite
    | (with_reducible refine Keeps.foldl ?_ (fun _ _ _ => ?_))
    | with_reducible apply FstKeeps.ite
    | (with_reducible refine FstKeeps.foldl ?_ (fun _ _ _ _ => ?_))
    | with_reducible apply hf0
    | with_reducible apply hf2
    | with_reducible apply hf1
    | split
    | with_reducible apply FstKeeps.mk
    | with_reducible apply FstKeeps.fst
    | with_reducible apply Keeps.upd)

theorem execRigTimeReceive_keeps {r : State} {alive : Nat} {hop : Nat} {t : Nat} {s : State} (h : Keeps r s) :
    OutKeeps r (execRigTimeReceive alive hop t s) := by
  unfold execRigTimeReceive
  repeat' (first
    | with_reducible assumption
    | with_reducible exact rfl
    | with_reducible exact id
    | with_reducible exact RegFile.put_wf
    | with_reducible exact RegFile.setFld_wf
    | with_reducible exact RegFile.filter_wf
    | with_reducible exact fun w => RegFile.foldl_wf w (fun _ _ w => RegFile.put_wf w)
    | with_reducible exact (listModify_length _ _ _).trans
    | with_reducible exact fun _ => List.length_replicate
    | with_reducible exact List.length_map _ |>.trans
    | (intro x; refine (fun (hx : Keeps r x) => ?_) ?_; clear_value x; rotate_left; subst x)
    | (intro x; refine (fun (hx : FstKeeps r x) => ?_) ?_; clear_value x; rotate_left; subst x)
    | (intro x; refine (fun (hf0 : ∀ s, Keeps r s → Keeps r (x s)) => ?_) ?_; clear_value x; rotate_left; subst x; intro _ _)
    | (intro x; refine (fun (hf1 : ∀ s c, Keeps r s → Keeps r (x s c)) => ?_) ?_; clear_value x; rotate_left; subst x; intro _ _ _)
    | (intro x; refine (fun (hf2 : ∀ c, Keeps r (x c)) => ?_) ?_; clear_value x; rotate_left; subst x; intro _)
    | (intro x; have hs : (x : Safety) = x := rfl; clear hs; subst x)
    | (intro x; clear_value x)
    | (intro x)
    | lift_lets
    | with_reducible apply State.ce1_keeps
    | with_reducible apply State.rigAlive_keeps
    | with_reducible apply State.bump_keeps
    | with_reducible apply State.rigAlign_keeps
    | with_reducible apply State.rigHeard_keeps
    | with_reducible apply State.nextAlive_keeps
    | with_reducible apply State.rigQueueOut_keeps
    | (refine Keeps.of_fst ‹_ = (_, _)› ?_)
    | (refine OptKeeps.of_eq ‹_ = some _› ?_)
    | with_reducible apply OutKeeps.ok
    | with_reducible apply OutKeeps.ite
    | with_reducible apply Keeps.ite
    | (with_reducible refine Keeps.foldl ?_ (fun _ _ _ => ?_))
    | with_reducible apply FstKeeps.ite
    | (with_reducible refine FstKeeps.foldl ?_ (fun _ _ _ _ => ?_))
    | with_reducible apply hf0
    | with_reducible apply hf2
    | with_reducible apply hf1
    | split
    | with_reducible apply FstKeeps.mk
    | with_reducible apply FstKeeps.fst
    | with_reducible apply Keeps.upd)

theorem execRigProbeReceive_keeps {r : State} {alive : Nat} {hop : Nat} {t : Nat} {s : State} (h : Keeps r s) :
    OutKeeps r (execRigProbeReceive alive hop t s) := by
  unfold execRigProbeReceive
  repeat' (first
    | with_reducible assumption
    | with_reducible exact rfl
    | with_reducible exact id
    | with_reducible exact RegFile.put_wf
    | with_reducible exact RegFile.setFld_wf
    | with_reducible exact RegFile.filter_wf
    | with_reducible exact fun w => RegFile.foldl_wf w (fun _ _ w => RegFile.put_wf w)
    | with_reducible exact (listModify_length _ _ _).trans
    | with_reducible exact fun _ => List.length_replicate
    | with_reducible exact List.length_map _ |>.trans
    | (intro x; refine (fun (hx : Keeps r x) => ?_) ?_; clear_value x; rotate_left; subst x)
    | (intro x; refine (fun (hx : FstKeeps r x) => ?_) ?_; clear_value x; rotate_left; subst x)
    | (intro x; refine (fun (hf0 : ∀ s, Keeps r s → Keeps r (x s)) => ?_) ?_; clear_value x; rotate_left; subst x; intro _ _)
    | (intro x; refine (fun (hf1 : ∀ s c, Keeps r s → Keeps r (x s c)) => ?_) ?_; clear_value x; rotate_left; subst x; intro _ _ _)
    | (intro x; refine (fun (hf2 : ∀ c, Keeps r (x c)) => ?_) ?_; clear_value x; rotate_left; subst x; intro _)
    | (intro x; have hs : (x : Safety) = x := rfl; clear hs; subst x)
    | (intro x; clear_value x)
    | (intro x)
    | lift_lets
    | with_reducible apply State.ce1_keeps
    | with_reducible apply State.rigAlive_keeps
    | with_reducible apply State.bump_keeps
    | with_reducible apply State.nextAlive_keeps
    | with_reducible apply State.rigHeard_keeps
    | with_reducible apply State.rigQueueOut_keeps
    | (refine Keeps.of_fst ‹_ = (_, _)› ?_)
    | (refine OptKeeps.of_eq ‹_ = some _› ?_)
    | with_reducible apply OutKeeps.ok
    | with_reducible apply OutKeeps.ite
    | with_reducible apply Keeps.ite
    | (with_reducible refine Keeps.foldl ?_ (fun _ _ _ => ?_))
    | with_reducible apply FstKeeps.ite
    | (with_reducible refine FstKeeps.foldl ?_ (fun _ _ _ _ => ?_))
    | with_reducible apply hf0
    | with_reducible apply hf2
    | with_reducible apply hf1
    | split
    | with_reducible apply FstKeeps.mk
    | with_reducible apply FstKeeps.fst
    | with_reducible apply Keeps.upd)

theorem execRigProbeReplyReceive_keeps {r : State} {alive : Nat} {hop : Nat} {t : Nat} {turn : Nat} {s : State} (h : Keeps r s) :
    OutKeeps r (execRigProbeReplyReceive alive hop t turn s) := by
  unfold execRigProbeReplyReceive
  repeat' (first
    | with_reducible assumption
    | with_reducible exact rfl
    | with_reducible exact id
    | with_reducible exact RegFile.put_wf
    | with_reducible exact RegFile.setFld_wf
    | with_reducible exact RegFile.filter_wf
    | with_reducible exact fun w => RegFile.foldl_wf w (fun _ _ w => RegFile.put_wf w)
    | with_reducible exact (listModify_length _ _ _).trans
    | with_reducible exact fun _ => List.length_replicate
    | with_reducible exact List.length_map _ |>.trans
    | (intro x; refine (fun (hx : Keeps r x) => ?_) ?_; clear_value x; rotate_left; subst x)
    | (intro x; refine (fun (hx : FstKeeps r x) => ?_) ?_; clear_value x; rotate_left; subst x)
    | (intro x; refine (fun (hf0 : ∀ s, Keeps r s → Keeps r (x s)) => ?_) ?_; clear_value x; rotate_left; subst x; intro _ _)
    | (intro x; refine (fun (hf1 : ∀ s c, Keeps r s → Keeps r (x s c)) => ?_) ?_; clear_value x; rotate_left; subst x; intro _ _ _)
    | (intro x; refine (fun (hf2 : ∀ c, Keeps r (x c)) => ?_) ?_; clear_value x; rotate_left; subst x; intro _)
    | (intro x; have hs : (x : Safety) = x := rfl; clear hs; subst x)
    | (intro x; clear_value x)
    | (intro x)
    | lift_lets
    | with_reducible apply State.ce1_keeps
    | with_reducible apply State.rigAlive_keeps
    | with_reducible apply State.bump_keeps
    | with_reducible apply State.rigHeard_keeps
    | (refine Keeps.of_fst ‹_ = (_, _)› ?_)
    | (refine OptKeeps.of_eq ‹_ = some _› ?_)
    | with_reducible apply OutKeeps.ok
    | with_reducible apply OutKeeps.ite
    | with_reducible apply Keeps.ite
    | (with_reducible refine Keeps.foldl ?_ (fun _ _ _ => ?_))
    | with_reducible apply FstKeeps.ite
    | (with_reducible refine FstKeeps.foldl ?_ (fun _ _ _ _ => ?_))
    | with_reducible apply hf0
    | with_reducible apply hf2
    | with_reducible apply hf1
    | split
    | with_reducible apply FstKeeps.mk
    | with_reducible apply Keeps.upd)

theorem execRigInTimeout_keeps {r : State} {s : State} (h : Keeps r s) :
    OutKeeps r (execRigInTimeout s) := by
  unfold execRigInTimeout
  repeat' (first
    | with_reducible assumption
    | with_reducible exact rfl
    | with_reducible exact id
    | with_reducible exact RegFile.put_wf
    | with_reducible exact RegFile.setFld_wf
    | with_reducible exact RegFile.filter_wf
    | with_reducible exact fun w => RegFile.foldl_wf w (fun _ _ w => RegFile.put_wf w)
    | with_reducible exact (listModify_length _ _ _).trans
    | with_reducible exact fun _ => List.length_replicate
    | with_reducible exact List.length_map _ |>.trans
    | (intro x; refine (fun (hx : Keeps r x) => ?_) ?_; clear_value x; rotate_left; subst x)
    | (intro x; refine (fun (hx : FstKeeps r x) => ?_) ?_; clear_value x; rotate_left; subst x)
    | (intro x; refine (fun (hf0 : ∀ s, Keeps r s → Keeps r (x s)) => ?_) ?_; clear_value x; rotate_left; subst x; intro _ _)
    | (intro x; refine (fun (hf1 : ∀ s c, Keeps r s → Keeps r (x s c)) => ?_) ?_; clear_value x; rotate_left; subst x; intro _ _ _)
    | (intro x; refine (fun (hf2 : ∀ c, Keeps r (x c)) => ?_) ?_; clear_value x; rotate_left; subst x; intro _)
    | (intro x; have hs : (x : Safety) = x := rfl; clear hs; subst x)
    | (intro x; clear_value x)
    | (intro x)
    | lift_lets
    | with_reducible apply State.rigFree_keeps
    | (refine Keeps.of_fst ‹_ = (_, _)› ?_)
    | with_reducible apply OutKeeps.ok
    | with_reducible apply OutKeeps.ite
    | with_reducible apply Keeps.ite
    | (with_reducible refine Keeps.foldl ?_ (fun _ _ _ => ?_))
    | with_reducible apply FstKeeps.ite
    | (with_reducible refine FstKeeps.foldl ?_ (fun _ _ _ _ => ?_))
    | with_reducible apply hf0
    | with_reducible apply hf2
    | with_reducible apply hf1
    | split
    | with_reducible apply FstKeeps.mk
    | with_reducible apply Keeps.upd)

theorem execRigRxLock_keeps {r : State} {port : Nat} {s : State} (h : Keeps r s) :
    OutKeeps r (execRigRxLock port s) := by
  unfold execRigRxLock
  repeat' (first
    | with_reducible assumption
    | with_reducible exact rfl
    | with_reducible exact id
    | with_reducible exact RegFile.put_wf
    | with_reducible exact RegFile.setFld_wf
    | with_reducible exact RegFile.filter_wf
    | with_reducible exact fun w => RegFile.foldl_wf w (fun _ _ w => RegFile.put_wf w)
    | with_reducible exact (listModify_length _ _ _).trans
    | with_reducible exact fun _ => List.length_replicate
    | with_reducible exact List.length_map _ |>.trans
    | (intro x; refine (fun (hx : Keeps r x) => ?_) ?_; clear_value x; rotate_left; subst x)
    | (intro x; refine (fun (hx : FstKeeps r x) => ?_) ?_; clear_value x; rotate_left; subst x)
    | (intro x; refine (fun (hf0 : ∀ s, Keeps r s → Keeps r (x s)) => ?_) ?_; clear_value x; rotate_left; subst x; intro _ _)
    | (intro x; refine (fun (hf1 : ∀ s c, Keeps r s → Keeps r (x s c)) => ?_) ?_; clear_value x; rotate_left; subst x; intro _ _ _)
    | (intro x; refine (fun (hf2 : ∀ c, Keeps r (x c)) => ?_) ?_; clear_value x; rotate_left; subst x; intro _)
    | (intro x; have hs : (x : Safety) = x := rfl; clear hs; subst x)
    | (intro x; clear_value x)
    | (intro x)
    | lift_lets
    | with_reducible apply State.rigAliveClear_keeps
    | with_reducible apply State.set_keeps
    | with_reducible apply OutKeeps.ok
    | with_reducible apply OutKeeps.ite
    | with_reducible apply Keeps.ite
    | (with_reducible refine Keeps.foldl ?_ (fun _ _ _ => ?_))
    | with_reducible apply hf0
    | with_reducible apply hf2
    | with_reducible apply hf1
    | with_reducible apply Keeps.upd)

theorem execRigMessageSend_keeps {r : State} {port : Nat} {s : State} (h : Keeps r s) :
    OutKeeps r (execRigMessageSend port s) := by
  unfold execRigMessageSend
  repeat' (first
    | with_reducible assumption
    | with_reducible exact rfl
    | with_reducible exact id
    | with_reducible exact RegFile.put_wf
    | with_reducible exact RegFile.setFld_wf
    | with_reducible exact RegFile.filter_wf
    | with_reducible exact fun w => RegFile.foldl_wf w (fun _ _ w => RegFile.put_wf w)
    | with_reducible exact (listModify_length _ _ _).trans
    | with_reducible exact fun _ => List.length_replicate
    | with_reducible exact List.length_map _ |>.trans
    | (intro x; refine (fun (hx : Keeps r x) => ?_) ?_; clear_value x; rotate_left; subst x)
    | (intro x; refine (fun (hx : FstKeeps r x) => ?_) ?_; clear_value x; rotate_left; subst x)
    | (intro x; refine (fun (hf0 : ∀ s, Keeps r s → Keeps r (x s)) => ?_) ?_; clear_value x; rotate_left; subst x; intro _ _)
    | (intro x; refine (fun (hf1 : ∀ s c, Keeps r s → Keeps r (x s c)) => ?_) ?_; clear_value x; rotate_left; subst x; intro _ _ _)
    | (intro x; refine (fun (hf2 : ∀ c, Keeps r (x c)) => ?_) ?_; clear_value x; rotate_left; subst x; intro _)
    | (intro x; have hs : (x : Safety) = x := rfl; clear hs; subst x)
    | (intro x; clear_value x)
    | (intro x)
    | lift_lets
    | with_reducible apply State.sendBlocks_keeps
    | with_reducible apply State.emit_keeps
    | with_reducible apply State.ce1_keeps
    | (refine Keeps.of_fst ‹_ = (_, _)› ?_)
    | with_reducible apply OutKeeps.ok
    | with_reducible apply OutKeeps.ite
    | with_reducible apply Keeps.ite
    | (with_reducible refine Keeps.foldl ?_ (fun _ _ _ => ?_))
    | with_reducible apply FstKeeps.ite
    | (with_reducible refine FstKeeps.foldl ?_ (fun _ _ _ _ => ?_))
    | with_reducible apply hf0
    | with_reducible apply hf2
    | with_reducible apply hf1
    | split
    | with_reducible apply FstKeeps.mk
    | with_reducible apply Keeps.upd)

theorem execRigCrcError_keeps {r : State} {s : State} (h : Keeps r s) :
    OutKeeps r (execRigCrcError s) := by
  unfold execRigCrcError
  repeat' (first
    | with_reducible assumption
    | with_reducible exact rfl
    | with_reducible exact id
    | with_reducible exact RegFile.put_wf
    | with_reducible exact RegFile.setFld_wf
    | with_reducible exact RegFile.filter_wf
    | with_reducible exact fun w => RegFile.foldl_wf w (fun _ _ w => RegFile.put_wf w)
    | with_reducible exact (listModify_length _ _ _).trans
    | with_reducible exact fun _ => List.length_replicate
    | with_reducible exact List.length_map _ |>.trans
    | (intro x; refine (fun (hx : Keeps r x) => ?_) ?_; clear_value x; rotate_left; subst x)
    | (intro x; refine (fun (hx : FstKeeps r x) => ?_) ?_; clear_value x; rotate_left; subst x)
    | (intro x; refine (fun (hf0 : ∀ s, Keeps r s → Keeps r (x s)) => ?_) ?_; clear_value x; rotate_left; subst x; intro _ _)
    | (intro x; refine (fun (hf1 : ∀ s c, Keeps r s → Keeps r (x s c)) => ?_) ?_; clear_value x; rotate_left; subst x; intro _ _ _)
    | (intro x; refine (fun (hf2 : ∀ c, Keeps r (x c)) => ?_) ?_; clear_value x; rotate_left; subst x; intro _)
    | (intro x; have hs : (x : Safety) = x := rfl; clear hs; subst x)
    | (intro x; clear_value x)
    | (intro x)
    | lift_lets
    | with_reducible apply State.bump_keeps
    | with_reducible apply OutKeeps.ok
    | with_reducible apply OutKeeps.ite
    | with_reducible apply Keeps.ite
    | (with_reducible refine Keeps.foldl ?_ (fun _ _ _ => ?_))
    | with_reducible apply hf0
    | with_reducible apply hf2
    | with_reducible apply hf1
    | with_reducible apply Keeps.upd)

end Sys2Proof.Machine
end

