-- ==== Sys2Proof/Laws/LayoutKeeps.lean ====
section
/-! SUPPORT. What the operations of Machine/Layout.lean keep. -/
namespace Sys2Proof.Machine

end Sys2Proof.Machine
end

