-- ==== Sys2Proof/Laws/CryptoKeeps.lean ====
section
/-! SUPPORT. What the operations of Machine/Crypto.lean keep. -/
namespace Sys2Proof.Machine

end Sys2Proof.Machine
end

