-- ==== Sys2Proof/Laws/RegWriteKeeps.lean ====
section
/-! SUPPORT. What the operations of Machine/RegWrite.lean keep. -/
namespace Sys2Proof.Machine

theorem State.evalPins_persists {r : State} {s : State} (h : Persist r s) : Persist r (State.evalPins s) :=
  h.via (State.evalPins_keeps (Keeps.refl _))

theorem State.tbCfgStore_persists {r : State} {s : State} {n : Nat} {v : Word} (h : Persist r s) : Persist r (State.tbCfgStore s n v) :=
  h.via (State.tbCfgStore_keeps (Keeps.refl _))

theorem State.regStore_persists {r : State} {s : State} {a : Nat} {v : Word} (h : Persist r s) : Persist r (State.regStore s a v) :=
  h.via (State.regStore_keeps (Keeps.refl _))

theorem State.filtCfgWritten_persists {r : State} {s : State} {n : Nat} (h : Persist r s) : Persist r (State.filtCfgWritten s n) :=
  h.via (State.filtCfgWritten_keeps (Keeps.refl _))

theorem State.filtRun_persists {r : State} {s : State} (h : Persist r s) : Persist r (State.filtRun s) :=
  h.via (State.filtRun_keeps (Keeps.refl _))

theorem State.lensCheck_persists {r : State} {s : State} (h : Persist r s) : Persist r (State.lensCheck s) :=
  h.via (State.lensCheck_keeps (Keeps.refl _))

theorem State.captureCommit_persists {r : State} {s : State} (h : Persist r s) : Persist r (State.captureCommit s) :=
  h.via (State.captureCommit_keeps (Keeps.refl _))

theorem State.stage2Commit_persists {r : State} {s : State} (h : Persist r s) : Persist r (State.stage2Commit s) :=
  h.via (State.stage2Commit_keeps (Keeps.refl _))

theorem State.darkStart_persists {r : State} {s : State} (h : Persist r s) : Persist r (State.darkStart s) :=
  h.via (State.darkStart_keeps (Keeps.refl _))

theorem State.darkAbort_persists {r : State} {s : State} (h : Persist r s) : Persist r (State.darkAbort s) :=
  h.via (State.darkAbort_keeps (Keeps.refl _))

theorem State.freezeRing_persists {r : State} {s : State} {t : Nat} (h : Persist r s) : Persist r (State.freezeRing s t) :=
  h.via (State.freezeRing_keeps (Keeps.refl _))

theorem State.releaseRing_persists {r : State} {s : State} (h : Persist r s) : Persist r (State.releaseRing s) :=
  h.via (State.releaseRing_keeps (Keeps.refl _))

theorem State.submitRecall_persists {r : State} {s : State} {frame : Nat} {first : Nat} {last : Nat} {vc : Nat} (h : Persist r s) : Persist r (State.submitRecall s frame first last vc) :=
  h.via (State.submitRecall_keeps (Keeps.refl _))

theorem State.otpCommand_persists {r : State} {s : State} {op : Nat} {kw : Nat} {ws : List (Nat × Nat × Nat)} (h : Persist r s) : Persist r (State.otpCommand s op kw ws) :=
  h.via (State.otpCommand_keeps (Keeps.refl _))

theorem State.clearTables_keeps {r : State} {s : State} (h : Keeps r s) :
    Keeps r (State.clearTables s) := by
  unfold State.clearTables
  repeat' (first
    | with_reducible assumption
    | with_reducible exact rfl
    | with_reducible exact id
    | with_reducible exact RegFile.put_wf
    | with_reducible exact RegFile.setFld_wf
    | with_reducible exact RegFile.filter_wf
    | with_reducible exact fun w => RegFile.foldl_wf w (fun _ _ w => RegFile.put_wf w)
    | with_reducible exact (listModify_length _ _ _).trans
    | with_reducible exact fun _ => List.length_replicate
    | with_reducible exact List.length_map _ |>.trans
    | (intro x; refine (fun (hx : Keeps r x) => ?_) ?_; clear_value x; rotate_left; subst x)
    | (intro x; refine (fun (hx : FstKeeps r x) => ?_) ?_; clear_value x; rotate_left; subst x)
    | (intro x; refine (fun (hf0 : ∀ s, Keeps r s → Keeps r (x s)) => ?_) ?_; clear_value x; rotate_left; subst x; intro _ _)
    | (intro x; refine (fun (hf1 : ∀ s c, Keeps r s → Keeps r (x s c)) => ?_) ?_; clear_value x; rotate_left; subst x; intro _ _ _)
    | (intro x; refine (fun (hf2 : ∀ c, Keeps r (x c)) => ?_) ?_; clear_value x; rotate_left; subst x; intro _)
    | (intro x; have hs : (x : Safety) = x := rfl; clear hs; subst x)
    | (intro x; clear_value x)
    | (intro x)
    | lift_lets
    | with_reducible apply Keeps.ite
    | (with_reducible refine Keeps.foldl ?_ (fun _ _ _ => ?_))
    | with_reducible apply hf0
    | with_reducible apply hf2
    | with_reducible apply hf1
    | with_reducible apply Keeps.upd)

theorem State.clearDefects_keeps {r : State} {s : State} (h : Keeps r s) :
    Keeps r (State.clearDefects s) := by
  unfold State.clearDefects
  repeat' (first
    | with_reducible assumption
    | with_reducible exact rfl
    | with_reducible exact id
    | with_reducible exact RegFile.put_wf
    | with_reducible exact RegFile.setFld_wf
    | with_reducible exact RegFile.filter_wf
    | with_reducible exact fun w => RegFile.foldl_wf w (fun _ _ w => RegFile.put_wf w)
    | with_reducible exact (listModify_length _ _ _).trans
    | with_reducible exact fun _ => List.length_replicate
    | with_reducible exact List.length_map _ |>.trans
    | (intro x; refine (fun (hx : Keeps r x) => ?_) ?_; clear_value x; rotate_left; subst x)
    | (intro x; refine (fun (hx : FstKeeps r x) => ?_) ?_; clear_value x; rotate_left; subst x)
    | (intro x; refine (fun (hf0 : ∀ s, Keeps r s → Keeps r (x s)) => ?_) ?_; clear_value x; rotate_left; subst x; intro _ _)
    | (intro x; refine (fun (hf1 : ∀ s c, Keeps r s → Keeps r (x s c)) => ?_) ?_; clear_value x; rotate_left; subst x; intro _ _ _)
    | (intro x; refine (fun (hf2 : ∀ c, Keeps r (x c)) => ?_) ?_; clear_value x; rotate_left; subst x; intro _)
    | (intro x; have hs : (x : Safety) = x := rfl; clear hs; subst x)
    | (intro x; clear_value x)
    | (intro x)
    | lift_lets
    | with_reducible apply State.set_keeps
    | with_reducible apply Keeps.ite
    | (with_reducible refine Keeps.foldl ?_ (fun _ _ _ => ?_))
    | with_reducible apply hf0
    | with_reducible apply hf2
    | with_reducible apply hf1
    | with_reducible apply Keeps.upd)

theorem State.shadingRecord_keeps {r : State} {s : State} {body : List Byte} (h : Keeps r s) :
    Keeps r (State.shadingRecord s body) := by
  unfold State.shadingRecord
  repeat' (first
    | with_reducible assumption
    | with_reducible exact rfl
    | with_reducible exact id
    | with_reducible exact RegFile.put_wf
    | with_reducible exact RegFile.setFld_wf
    | with_reducible exact RegFile.filter_wf
    | with_reducible exact fun w => RegFile.foldl_wf w (fun _ _ w => RegFile.put_wf w)
    | with_reducible exact (listModify_length _ _ _).trans
    | with_reducible exact fun _ => List.length_replicate
    | with_reducible exact List.length_map _ |>.trans
    | (intro x; refine (fun (hx : Keeps r x) => ?_) ?_; clear_value x; rotate_left; subst x)
    | (intro x; refine (fun (hx : FstKeeps r x) => ?_) ?_; clear_value x; rotate_left; subst x)
    | (intro x; refine (fun (hf0 : ∀ s, Keeps r s → Keeps r (x s)) => ?_) ?_; clear_value x; rotate_left; subst x; intro _ _)
    | (intro x; refine (fun (hf1 : ∀ s c, Keeps r s → Keeps r (x s c)) => ?_) ?_; clear_value x; rotate_left; subst x; intro _ _ _)
    | (intro x; refine (fun (hf2 : ∀ c, Keeps r (x c)) => ?_) ?_; clear_value x; rotate_left; subst x; intro _)
    | (intro x; have hs : (x : Safety) = x := rfl; clear hs; subst x)
    | (intro x; clear_value x)
    | (intro x)
    | lift_lets
    | with_reducible apply State.bump_keeps
    | with_reducible apply Keeps.ite
    | (with_reducible refine Keeps.foldl ?_ (fun _ _ _ => ?_))
    | with_reducible apply hf0
    | with_reducible apply hf2
    | with_reducible apply hf1
    | with_reducible apply Keeps.upd)

theorem State.defectEntry_keeps {r : State} {p : State × Option Nat} {w : Nat} (h : FstKeeps r p) :
    FstKeeps r (State.defectEntry p w) := by
  obtain ⟨s, last⟩ := p
  replace h : Keeps r s := h
  unfold State.defectEntry
  dsimp only
  refine FstKeeps.ite (FstKeeps.mk (State.bump_keeps h)) (FstKeeps.ite
    (FstKeeps.mk (State.set_keeps (State.bump_keeps h))) (FstKeeps.mk ?_))
  exact Keeps.upd h id id id id id id

theorem State.loadDefects_keeps {r : State} {s : State} {bs : List Byte} (h : Keeps r s) :
    Keeps r (State.loadDefects s bs) := by
  unfold State.loadDefects
  repeat' (first
    | with_reducible assumption
    | with_reducible exact rfl
    | with_reducible exact id
    | with_reducible exact RegFile.put_wf
    | with_reducible exact RegFile.setFld_wf
    | with_reducible exact RegFile.filter_wf
    | with_reducible exact fun w => RegFile.foldl_wf w (fun _ _ w => RegFile.put_wf w)
    | with_reducible exact (listModify_length _ _ _).trans
    | with_reducible exact fun _ => List.length_replicate
    | with_reducible exact List.length_map _ |>.trans
    | (intro x; refine (fun (hx : Keeps r x) => ?_) ?_; clear_value x; rotate_left; subst x)
    | (intro x; refine (fun (hx : FstKeeps r x) => ?_) ?_; clear_value x; rotate_left; subst x)
    | (intro x; refine (fun (hf0 : ∀ s, Keeps r s → Keeps r (x s)) => ?_) ?_; clear_value x; rotate_left; subst x; intro _ _)
    | (intro x; refine (fun (hf1 : ∀ s c, Keeps r s → Keeps r (x s c)) => ?_) ?_; clear_value x; rotate_left; subst x; intro _ _ _)
    | (intro x; refine (fun (hf2 : ∀ c, Keeps r (x c)) => ?_) ?_; clear_value x; rotate_left; subst x; intro _)
    | (intro x; have hs : (x : Safety) = x := rfl; clear hs; subst x)
    | (intro x; clear_value x)
    | (intro x)
    | lift_lets
    | with_reducible apply State.defectEntry_keeps
    | with_reducible apply State.set_keeps
    | (refine Keeps.of_fst ‹_ = (_, _)› ?_)
    | with_reducible apply Keeps.ite
    | (with_reducible refine Keeps.foldl ?_ (fun _ _ _ => ?_))
    | with_reducible apply FstKeeps.ite
    | (with_reducible refine FstKeeps.foldl ?_ (fun _ _ _ _ => ?_))
    | with_reducible apply hf0
    | with_reducible apply hf2
    | with_reducible apply hf1
    | with_reducible apply FstKeeps.mk
    | with_reducible apply FstKeeps.fst
    | with_reducible apply Keeps.upd)

theorem State.clampFields_keeps {r : State} {s : State} {a : Nat} (h : Keeps r s) :
    Keeps r (State.clampFields s a) := by
  unfold State.clampFields
  repeat' (first
    | with_reducible assumption
    | with_reducible exact rfl
    | with_reducible exact id
    | with_reducible exact RegFile.put_wf
    | with_reducible exact RegFile.setFld_wf
    | with_reducible exact RegFile.filter_wf
    | with_reducible exact fun w => RegFile.foldl_wf w (fun _ _ w => RegFile.put_wf w)
    | with_reducible exact (listModify_length _ _ _).trans
    | with_reducible exact fun _ => List.length_replicate
    | with_reducible exact List.length_map _ |>.trans
    | (intro x; refine (fun (hx : Keeps r x) => ?_) ?_; clear_value x; rotate_left; subst x)
    | (intro x; refine (fun (hx : FstKeeps r x) => ?_) ?_; clear_value x; rotate_left; subst x)
    | (intro x; refine (fun (hf0 : ∀ s, Keeps r s → Keeps r (x s)) => ?_) ?_; clear_value x; rotate_left; subst x; intro _ _)
    | (intro x; refine (fun (hf1 : ∀ s c, Keeps r s → Keeps r (x s c)) => ?_) ?_; clear_value x; rotate_left; subst x; intro _ _ _)
    | (intro x; refine (fun (hf2 : ∀ c, Keeps r (x c)) => ?_) ?_; clear_value x; rotate_left; subst x; intro _)
    | (intro x; have hs : (x : Safety) = x := rfl; clear hs; subst x)
    | (intro x; clear_value x)
    | (intro x)
    | lift_lets
    | with_reducible apply State.set_keeps
    | with_reducible apply State.setS_keeps
    | with_reducible apply Keeps.ite
    | (with_reducible refine Keeps.foldl ?_ (fun _ _ _ => ?_))
    | with_reducible apply hf0
    | with_reducible apply hf2
    | with_reducible apply hf1
    | with_reducible apply Keeps.upd)

theorem State.clampFields_persists {r : State} {s : State} {a : Nat} (h : Persist r s) : Persist r (State.clampFields s a) :=
  h.via (State.clampFields_keeps (Keeps.refl _))

theorem State.cmpenWritten_keeps {r : State} {s : State} {u : Nat} {i : Nat} {was : Bool} {now : Bool} (h : Keeps r s) :
    Keeps r (State.cmpenWritten s u i was now) := by
  unfold State.cmpenWritten
  repeat' (first
    | with_reducible assumption
    | with_reducible exact rfl
    | with_reducible exact id
    | with_reducible exact RegFile.put_wf
    | with_reducible exact RegFile.setFld_wf
    | with_reducible exact RegFile.filter_wf
    | with_reducible exact fun w => RegFile.foldl_wf w (fun _ _ w => RegFile.put_wf w)
    | with_reducible exact (listModify_length _ _ _).trans
    | with_reducible exact fun _ => List.length_replicate
    | with_reducible exact List.length_map _ |>.trans
    | (intro x; refine (fun (hx : Keeps r x) => ?_) ?_; clear_value x; rotate_left; subst x)
    | (intro x; refine (fun (hx : FstKeeps r x) => ?_) ?_; clear_value x; rotate_left; subst x)
    | (intro x; refine (fun (hf0 : ∀ s, Keeps r s → Keeps r (x s)) => ?_) ?_; clear_value x; rotate_left; subst x; intro _ _)
    | (intro x; refine (fun (hf1 : ∀ s c, Keeps r s → Keeps r (x s c)) => ?_) ?_; clear_value x; rotate_left; subst x; intro _ _ _)
    | (intro x; refine (fun (hf2 : ∀ c, Keeps r (x c)) => ?_) ?_; clear_value x; rotate_left; subst x; intro _)
    | (intro x; have hs : (x : Safety) = x := rfl; clear hs; subst x)
    | (intro x; clear_value x)
    | (intro x)
    | lift_lets
    | with_reducible apply State.setSu_keeps
    | with_reducible apply Keeps.ite
    | (with_reducible refine Keeps.foldl ?_ (fun _ _ _ => ?_))
    | with_reducible apply hf0
    | with_reducible apply hf2
    | with_reducible apply hf1
    | with_reducible apply Keeps.upd)

theorem State.senseStore_keeps {r : State} {s : State} {a : Nat} {v : Word} {cfg : Bool} (h : Keeps r s) :
    Keeps r (State.senseStore s a v cfg) := by
  unfold State.senseStore
  repeat' (first
    | with_reducible assumption
    | with_reducible exact rfl
    | with_reducible exact id
    | with_reducible exact RegFile.put_wf
    | with_reducible exact RegFile.setFld_wf
    | with_reducible exact RegFile.filter_wf
    | with_reducible exact fun w => RegFile.foldl_wf w (fun _ _ w => RegFile.put_wf w)
    | with_reducible exact (listModify_length _ _ _).trans
    | with_reducible exact fun _ => List.length_replicate
    | with_reducible exact List.length_map _ |>.trans
    | (intro x; refine (fun (hx : Keeps r x) => ?_) ?_; clear_value x; rotate_left; subst x)
    | (intro x; refine (fun (hx : FstKeeps r x) => ?_) ?_; clear_value x; rotate_left; subst x)
    | (intro x; refine (fun (hf0 : ∀ s, Keeps r s → Keeps r (x s)) => ?_) ?_; clear_value x; rotate_left; subst x; intro _ _)
    | (intro x; refine (fun (hf1 : ∀ s c, Keeps r s → Keeps r (x s c)) => ?_) ?_; clear_value x; rotate_left; subst x; intro _ _ _)
    | (intro x; refine (fun (hf2 : ∀ c, Keeps r (x c)) => ?_) ?_; clear_value x; rotate_left; subst x; intro _)
    | (intro x; have hs : (x : Safety) = x := rfl; clear hs; subst x)
    | (intro x; clear_value x)
    | (intro x)
    | lift_lets
    | with_reducible apply State.senseRunAll_keeps
    | with_reducible apply State.zeroCmd_keeps
    | with_reducible apply State.clampFields_keeps
    | with_reducible apply State.regStore_keeps
    | with_reducible apply State.senseCfgWritten_keeps
    | with_reducible apply State.cmpenWritten_keeps
    | with_reducible apply Keeps.ite
    | (with_reducible refine Keeps.foldl ?_ (fun _ _ _ => ?_))
    | with_reducible apply hf0
    | with_reducible apply hf2
    | with_reducible apply hf1
    | with_reducible apply Keeps.upd)

theorem State.senseStore_persists {r : State} {s : State} {a : Nat} {v : Word} {cfg : Bool} (h : Persist r s) : Persist r (State.senseStore s a v cfg) :=
  h.via (State.senseStore_keeps (Keeps.refl _))

theorem State.linkStore_keeps {r : State} {s : State} {a : Nat} {v : Word} (h : Keeps r s) :
    Keeps r (State.linkStore s a v) := by
  unfold State.linkStore
  repeat' (first
    | with_reducible assumption
    | with_reducible exact rfl
    | with_reducible exact id
    | with_reducible exact RegFile.put_wf
    | with_reducible exact RegFile.setFld_wf
    | with_reducible exact RegFile.filter_wf
    | with_reducible exact fun w => RegFile.foldl_wf w (fun _ _ w => RegFile.put_wf w)
    | with_reducible exact (listModify_length _ _ _).trans
    | with_reducible exact fun _ => List.length_replicate
    | with_reducible exact List.length_map _ |>.trans
    | (intro x; refine (fun (hx : Keeps r x) => ?_) ?_; clear_value x; rotate_left; subst x)
    | (intro x; refine (fun (hx : FstKeeps r x) => ?_) ?_; clear_value x; rotate_left; subst x)
    | (intro x; refine (fun (hf0 : ∀ s, Keeps r s → Keeps r (x s)) => ?_) ?_; clear_value x; rotate_left; subst x; intro _ _)
    | (intro x; refine (fun (hf1 : ∀ s c, Keeps r s → Keeps r (x s c)) => ?_) ?_; clear_value x; rotate_left; subst x; intro _ _ _)
    | (intro x; refine (fun (hf2 : ∀ c, Keeps r (x c)) => ?_) ?_; clear_value x; rotate_left; subst x; intro _)
    | (intro x; have hs : (x : Safety) = x := rfl; clear hs; subst x)
    | (intro x; clear_value x)
    | (intro x)
    | lift_lets
    | (with_reducible refine State.eachBit_keeps ?_ (fun _ _ _ => ?_) (fun _ _ _ => ?_))
    | with_reducible apply State.groupEnable_keeps
    | with_reducible apply State.groupDisable_keeps
    | with_reducible apply State.regStore_keeps
    | with_reducible apply State.set_keeps
    | with_reducible apply State.moveControl_keeps
    | with_reducible apply State.prbsTxStart_keeps
    | with_reducible apply State.prbsTxStop_keeps
    | with_reducible apply State.prbsRtStart_keeps
    | with_reducible apply State.prbsRtStop_keeps
    | with_reducible apply State.groupFail_keeps
    | (refine Keeps.of_fst ‹_ = (_, _)› ?_)
    | with_reducible apply OptKeeps.mkSome
    | with_reducible exact OptKeeps.mkNone
    | (with_reducible refine OptKeeps.map (fun _ => ?_))
    | (with_reducible refine OptKeeps.bind (fun _ => ?_))
    | with_reducible apply OptKeeps.ite
    | with_reducible apply Keeps.ite
    | (with_reducible refine Keeps.foldl ?_ (fun _ _ _ => ?_))
    | with_reducible apply FstKeeps.ite
    | (with_reducible refine FstKeeps.foldl ?_ (fun _ _ _ _ => ?_))
    | with_reducible apply hf0
    | with_reducible apply hf2
    | with_reducible apply hf1
    | split
    | with_reducible apply FstKeeps.mk
    | with_reducible apply Keeps.upd)

theorem State.linkStore_persists {r : State} {s : State} {a : Nat} {v : Word} (h : Persist r s) : Persist r (State.linkStore s a v) :=
  h.via (State.linkStore_keeps (Keeps.refl _))

theorem State.crcStore_keeps {r : State} {s : State} {a : Nat} {v : Word} (h : Keeps r s) :
    Keeps r (State.crcStore s a v) := by
  unfold State.crcStore
  repeat' (first
    | with_reducible assumption
    | with_reducible exact rfl
    | with_reducible exact id
    | with_reducible exact RegFile.put_wf
    | with_reducible exact RegFile.setFld_wf
    | with_reducible exact RegFile.filter_wf
    | with_reducible exact fun w => RegFile.foldl_wf w (fun _ _ w => RegFile.put_wf w)
    | with_reducible exact (listModify_length _ _ _).trans
    | with_reducible exact fun _ => List.length_replicate
    | with_reducible exact List.length_map _ |>.trans
    | (intro x; refine (fun (hx : Keeps r x) => ?_) ?_; clear_value x; rotate_left; subst x)
    | (intro x; refine (fun (hx : FstKeeps r x) => ?_) ?_; clear_value x; rotate_left; subst x)
    | (intro x; refine (fun (hf0 : ∀ s, Keeps r s → Keeps r (x s)) => ?_) ?_; clear_value x; rotate_left; subst x; intro _ _)
    | (intro x; refine (fun (hf1 : ∀ s c, Keeps r s → Keeps r (x s c)) => ?_) ?_; clear_value x; rotate_left; subst x; intro _ _ _)
    | (intro x; refine (fun (hf2 : ∀ c, Keeps r (x c)) => ?_) ?_; clear_value x; rotate_left; subst x; intro _)
    | (intro x; have hs : (x : Safety) = x := rfl; clear hs; subst x)
    | (intro x; clear_value x)
    | (intro x)
    | lift_lets
    | with_reducible apply State.set_keeps
    | with_reducible apply Keeps.ite
    | (with_reducible refine Keeps.foldl ?_ (fun _ _ _ => ?_))
    | with_reducible apply hf0
    | with_reducible apply hf2
    | with_reducible apply hf1
    | with_reducible apply Keeps.upd)

theorem State.crcStore_persists {r : State} {s : State} {a : Nat} {v : Word} (h : Persist r s) : Persist r (State.crcStore s a v) :=
  h.via (State.crcStore_keeps (Keeps.refl _))

theorem State.commandStore_persist {r : State} {s : State} {a : Nat} {v : Word} (h : Persist r s) :
    Persist r (State.commandStore s a v) := by
  unfold State.commandStore
  repeat' (first
    | with_reducible assumption
    | with_reducible exact rfl
    | with_reducible exact id
    | with_reducible exact RegFile.put_wf
    | with_reducible exact RegFile.setFld_wf
    | with_reducible exact RegFile.filter_wf
    | with_reducible exact fun w => RegFile.foldl_wf w (fun _ _ w => RegFile.put_wf w)
    | with_reducible exact (listModify_length _ _ _).trans
    | with_reducible exact fun _ => List.length_replicate
    | with_reducible exact List.length_map _ |>.trans
    | (intro x; refine (fun (hx : Persist r x) => ?_) ?_; clear_value x; rotate_left; subst x)
    | (intro x; have hs : (x : Safety) = x := rfl; clear hs; subst x)
    | (intro x; clear_value x)
    | (intro x)
    | lift_lets
    | with_reducible apply State.captureCommit_persists
    | with_reducible apply State.stage2Commit_persists
    | with_reducible apply State.darkStart_persists
    | with_reducible apply State.darkAbort_persists
    | with_reducible apply State.freezeRing_persists
    | with_reducible apply State.releaseRing_persists
    | with_reducible apply State.submitRecall_persists
    | with_reducible apply State.sleep_persist
    | with_reducible apply State.wake_persist
    | with_reducible apply State.otpCommand_persists
    | with_reducible apply Persist.ite
    | (with_reducible refine Persist.foldl ?_ (fun _ _ _ => ?_))
    | split
    | with_reducible apply Persist.upd)

theorem State.eventStore_keeps {r : State} {s : State} {a : Nat} {v : Word} {cfg : Bool} (h : Keeps r s) :
    Keeps r (State.eventStore s a v cfg) := by
  unfold State.eventStore
  repeat' (first
    | with_reducible assumption
    | with_reducible exact rfl
    | with_reducible exact id
    | with_reducible exact RegFile.put_wf
    | with_reducible exact RegFile.setFld_wf
    | with_reducible exact RegFile.filter_wf
    | with_reducible exact fun w => RegFile.foldl_wf w (fun _ _ w => RegFile.put_wf w)
    | with_reducible exact (listModify_length _ _ _).trans
    | with_reducible exact fun _ => List.length_replicate
    | with_reducible exact List.length_map _ |>.trans
    | (intro x; refine (fun (hx : Keeps r x) => ?_) ?_; clear_value x; rotate_left; subst x)
    | (intro x; refine (fun (hx : FstKeeps r x) => ?_) ?_; clear_value x; rotate_left; subst x)
    | (intro x; refine (fun (hf0 : ∀ s, Keeps r s → Keeps r (x s)) => ?_) ?_; clear_value x; rotate_left; subst x; intro _ _)
    | (intro x; refine (fun (hf1 : ∀ s c, Keeps r s → Keeps r (x s c)) => ?_) ?_; clear_value x; rotate_left; subst x; intro _ _ _)
    | (intro x; refine (fun (hf2 : ∀ c, Keeps r (x c)) => ?_) ?_; clear_value x; rotate_left; subst x; intro _)
    | (intro x; have hs : (x : Safety) = x := rfl; clear hs; subst x)
    | (intro x; clear_value x)
    | (intro x)
    | lift_lets
    | with_reducible apply State.regStore_keeps
    | with_reducible apply State.evCfgWritten_keeps
    | with_reducible apply Keeps.ite
    | (with_reducible refine Keeps.foldl ?_ (fun _ _ _ => ?_))
    | with_reducible apply hf0
    | with_reducible apply hf2
    | with_reducible apply hf1
    | with_reducible apply Keeps.upd)

theorem State.eventStore_persists {r : State} {s : State} {a : Nat} {v : Word} {cfg : Bool} (h : Persist r s) : Persist r (State.eventStore s a v cfg) :=
  h.via (State.eventStore_keeps (Keeps.refl _))

theorem State.hookedStore_persist {r : State} {s : State} {a : Nat} {v : Word} {cfg : Bool} (h : Persist r s) :
    Persist r (State.hookedStore s a v cfg) := by
  unfold State.hookedStore
  repeat' (first
    | with_reducible assumption
    | with_reducible exact rfl
    | with_reducible exact id
    | with_reducible exact RegFile.put_wf
    | with_reducible exact RegFile.setFld_wf
    | with_reducible exact RegFile.filter_wf
    | with_reducible exact fun w => RegFile.foldl_wf w (fun _ _ w => RegFile.put_wf w)
    | with_reducible exact (listModify_length _ _ _).trans
    | with_reducible exact fun _ => List.length_replicate
    | with_reducible exact List.length_map _ |>.trans
    | (intro x; refine (fun (hx : Persist r x) => ?_) ?_; clear_value x; rotate_left; subst x)
    | (intro x; have hs : (x : Safety) = x := rfl; clear hs; subst x)
    | (intro x; clear_value x)
    | (intro x)
    | lift_lets
    | with_reducible apply State.commandStore_persist
    | with_reducible apply State.evalPins_persists
    | with_reducible apply State.tbCfgStore_persists
    | with_reducible apply State.regStore_persists
    | with_reducible apply State.eventStore_persists
    | with_reducible apply State.linkStore_persists
    | with_reducible apply State.crcStore_persists
    | with_reducible apply State.senseStore_persists
    | with_reducible apply State.filtCfgWritten_persists
    | with_reducible apply State.filtRun_persists
    | with_reducible apply State.lensCheck_persists
    | with_reducible apply State.clampFields_persists
    | with_reducible apply Persist.ite
    | (with_reducible refine Persist.foldl ?_ (fun _ _ _ => ?_))
    | with_reducible apply Persist.upd)

theorem State.regWrite_persist {r : State} {s : State} {a : Nat} {v : Word} (h : Persist r s) :
    Persist r (State.regWrite s a v) := by
  unfold State.regWrite
  repeat' (first
    | with_reducible assumption
    | with_reducible exact rfl
    | with_reducible exact id
    | with_reducible exact RegFile.put_wf
    | with_reducible exact RegFile.setFld_wf
    | with_reducible exact RegFile.filter_wf
    | with_reducible exact fun w => RegFile.foldl_wf w (fun _ _ w => RegFile.put_wf w)
    | with_reducible exact (listModify_length _ _ _).trans
    | with_reducible exact fun _ => List.length_replicate
    | with_reducible exact List.length_map _ |>.trans
    | (intro x; refine (fun (hx : Persist r x) => ?_) ?_; clear_value x; rotate_left; subst x)
    | (intro x; have hs : (x : Safety) = x := rfl; clear hs; subst x)
    | (intro x; clear_value x)
    | (intro x)
    | lift_lets
    | with_reducible apply State.hookedStore_persist
    | with_reducible apply Persist.ite
    | (with_reducible refine Persist.foldl ?_ (fun _ _ _ => ?_))
    | with_reducible apply Persist.upd)

theorem State.sourceWrite_persist {r : State} {s : State} {a : Nat} {v : Word} (h : Persist r s) :
    Persist r (State.sourceWrite s a v) := by
  unfold State.sourceWrite
  repeat' (first
    | with_reducible assumption
    | with_reducible exact rfl
    | with_reducible exact id
    | with_reducible exact RegFile.put_wf
    | with_reducible exact RegFile.setFld_wf
    | with_reducible exact RegFile.filter_wf
    | with_reducible exact fun w => RegFile.foldl_wf w (fun _ _ w => RegFile.put_wf w)
    | with_reducible exact (listModify_length _ _ _).trans
    | with_reducible exact fun _ => List.length_replicate
    | with_reducible exact List.length_map _ |>.trans
    | (intro x; refine (fun (hx : Persist r x) => ?_) ?_; clear_value x; rotate_left; subst x)
    | (intro x; have hs : (x : Safety) = x := rfl; clear hs; subst x)
    | (intro x; clear_value x)
    | (intro x)
    | lift_lets
    | with_reducible apply State.regWrite_persist
    | with_reducible apply Persist.ite
    | (with_reducible refine Persist.foldl ?_ (fun _ _ _ => ?_))
    | with_reducible apply Persist.upd)

theorem State.busRead_keeps {r : State} {s : State} {a : Nat} (h : Keeps r s) :
    FstKeeps r (State.busRead s a) := by
  unfold State.busRead
  repeat' (first
    | with_reducible assumption
    | with_reducible exact rfl
    | with_reducible exact id
    | with_reducible exact RegFile.put_wf
    | with_reducible exact RegFile.setFld_wf
    | with_reducible exact RegFile.filter_wf
    | with_reducible exact fun w => RegFile.foldl_wf w (fun _ _ w => RegFile.put_wf w)
    | with_reducible exact (listModify_length _ _ _).trans
    | with_reducible exact fun _ => List.length_replicate
    | with_reducible exact List.length_map _ |>.trans
    | (intro x; refine (fun (hx : Keeps r x) => ?_) ?_; clear_value x; rotate_left; subst x)
    | (intro x; refine (fun (hx : FstKeeps r x) => ?_) ?_; clear_value x; rotate_left; subst x)
    | (intro x; refine (fun (hf0 : ∀ s, Keeps r s → Keeps r (x s)) => ?_) ?_; clear_value x; rotate_left; subst x; intro _ _)
    | (intro x; refine (fun (hf1 : ∀ s c, Keeps r s → Keeps r (x s c)) => ?_) ?_; clear_value x; rotate_left; subst x; intro _ _ _)
    | (intro x; refine (fun (hf2 : ∀ c, Keeps r (x c)) => ?_) ?_; clear_value x; rotate_left; subst x; intro _)
    | (intro x; have hs : (x : Safety) = x := rfl; clear hs; subst x)
    | (intro x; clear_value x)
    | (intro x)
    | lift_lets
    | with_reducible apply State.posRead_keeps
    | with_reducible apply State.timeloRead_keeps
    | with_reducible apply State.senseRead_keeps
    | with_reducible apply State.lensRefresh_keeps
    | with_reducible apply State.filtOutRead_keeps
    | with_reducible apply State.filtRun_keeps
    | with_reducible apply State.refreshDomains_keeps
    | (refine Keeps.of_fst ‹_ = (_, _)› ?_)
    | with_reducible apply Keeps.ite
    | (with_reducible refine Keeps.foldl ?_ (fun _ _ _ => ?_))
    | with_reducible apply FstKeeps.ite
    | (with_reducible refine FstKeeps.foldl ?_ (fun _ _ _ _ => ?_))
    | with_reducible apply hf0
    | with_reducible apply hf2
    | with_reducible apply hf1
    | with_reducible apply FstKeeps.mk
    | with_reducible apply FstKeeps.fst
    | with_reducible apply Keeps.upd)

end Sys2Proof.Machine
end

