-- ==== Sys2Proof/Laws/LoaderKeeps.lean ====
section
/-! SUPPORT. What the operations of Machine/Loader.lean keep. -/
namespace Sys2Proof.Machine

theorem State.bump_persists {r : State} {s : State} {f : Fld} {n : Nat} {i : Nat} {j : Nat} (h : Persist r s) : Persist r (State.bump s f n i j) :=
  h.via (State.bump_keeps (Keeps.refl _))

theorem State.defectHash_persists {r : State} {s : State} {bs : List Byte} (h : Persist r s) : Persist r (State.defectHash s bs) :=
  h.via (State.defectHash_keeps (Keeps.refl _))

theorem State.loadDefects_persists {r : State} {s : State} {bs : List Byte} (h : Persist r s) : Persist r (State.loadDefects s bs) :=
  h.via (State.loadDefects_keeps (Keeps.refl _))

theorem State.startItem_keeps {r : State} {s : State} {i : BootItem} (h : Keeps r s) :
    Keeps r (State.startItem s i) := by
  unfold State.startItem
  repeat' (first
    | with_reducible assumption
    | with_reducible exact rfl
    | with_reducible exact id
    | with_reducible exact RegFile.put_wf
    | with_reducible exact RegFile.setFld_wf
    | with_reducible exact RegFile.filter_wf
    | with_reducible exact fun w => RegFile.foldl_wf w (fun _ _ w => RegFile.put_wf w)
    | with_reducible exact (listModify_length _ _ _).trans
    | with_reducible exact fun _ => List.length_replicate
    | with_reducible exact List.length_map _ |>.trans
    | (intro x; refine (fun (hx : Keeps r x) => ?_) ?_; clear_value x; rotate_left; subst x)
    | (intro x; refine (fun (hx : FstKeeps r x) => ?_) ?_; clear_value x; rotate_left; subst x)
    | (intro x; refine (fun (hf0 : ∀ s, Keeps r s → Keeps r (x s)) => ?_) ?_; clear_value x; rotate_left; subst x; intro _ _)
    | (intro x; refine (fun (hf1 : ∀ s c, Keeps r s → Keeps r (x s c)) => ?_) ?_; clear_value x; rotate_left; subst x; intro _ _ _)
    | (intro x; refine (fun (hf2 : ∀ c, Keeps r (x c)) => ?_) ?_; clear_value x; rotate_left; subst x; intro _)
    | (intro x; have hs : (x : Safety) = x := rfl; clear hs; subst x)
    | (intro x; clear_value x)
    | (intro x)
    | lift_lets
    | with_reducible apply State.clearTables_keeps
    | with_reducible apply State.clearDefects_keeps
    | (refine Keeps.of_fst ‹_ = (_, _)› ?_)
    | with_reducible apply Keeps.ite
    | (with_reducible refine Keeps.foldl ?_ (fun _ _ _ => ?_))
    | with_reducible apply FstKeeps.ite
    | (with_reducible refine FstKeeps.foldl ?_ (fun _ _ _ _ => ?_))
    | with_reducible apply hf0
    | with_reducible apply hf2
    | with_reducible apply hf1
    | split
    | with_reducible apply FstKeeps.mk
    | with_reducible apply Keeps.upd)

theorem State.startItem_persists {r : State} {s : State} {i : BootItem} (h : Persist r s) : Persist r (State.startItem s i) :=
  h.via (State.startItem_keeps (Keeps.refl _))

theorem State.bootResult_keeps {r : State} {s : State} {slot : Nat} {res : Nat} {item : Nat} {stable : Nat} (h : Keeps r s) :
    Keeps r (State.bootResult s slot res item stable) := by
  unfold State.bootResult
  repeat' (first
    | with_reducible assumption
    | with_reducible exact rfl
    | with_reducible exact id
    | with_reducible exact RegFile.put_wf
    | with_reducible exact RegFile.setFld_wf
    | with_reducible exact RegFile.filter_wf
    | with_reducible exact fun w => RegFile.foldl_wf w (fun _ _ w => RegFile.put_wf w)
    | with_reducible exact (listModify_length _ _ _).trans
    | with_reducible exact fun _ => List.length_replicate
    | with_reducible exact List.length_map _ |>.trans
    | (intro x; refine (fun (hx : Keeps r x) => ?_) ?_; clear_value x; rotate_left; subst x)
    | (intro x; refine (fun (hx : FstKeeps r x) => ?_) ?_; clear_value x; rotate_left; subst x)
    | (intro x; refine (fun (hf0 : ∀ s, Keeps r s → Keeps r (x s)) => ?_) ?_; clear_value x; rotate_left; subst x; intro _ _)
    | (intro x; refine (fun (hf1 : ∀ s c, Keeps r s → Keeps r (x s c)) => ?_) ?_; clear_value x; rotate_left; subst x; intro _ _ _)
    | (intro x; refine (fun (hf2 : ∀ c, Keeps r (x c)) => ?_) ?_; clear_value x; rotate_left; subst x; intro _)
    | (intro x; have hs : (x : Safety) = x := rfl; clear hs; subst x)
    | (intro x; clear_value x)
    | (intro x)
    | lift_lets
    | with_reducible apply State.set_keeps
    | with_reducible apply Keeps.ite
    | (with_reducible refine Keeps.foldl ?_ (fun _ _ _ => ?_))
    | with_reducible apply hf0
    | with_reducible apply hf2
    | with_reducible apply hf1
    | with_reducible apply Keeps.upd)

theorem State.slotFail_keeps {r : State} {s : State} {res : Nat} {item : Nat} {stable : Nat} (h : Keeps r s) :
    Keeps r (State.slotFail s res item stable) := by
  unfold State.slotFail
  repeat' (first
    | with_reducible assumption
    | with_reducible exact rfl
    | with_reducible exact id
    | with_reducible exact RegFile.put_wf
    | with_reducible exact RegFile.setFld_wf
    | with_reducible exact RegFile.filter_wf
    | with_reducible exact fun w => RegFile.foldl_wf w (fun _ _ w => RegFile.put_wf w)
    | with_reducible exact (listModify_length _ _ _).trans
    | with_reducible exact fun _ => List.length_replicate
    | with_reducible exact List.length_map _ |>.trans
    | (intro x; refine (fun (hx : Keeps r x) => ?_) ?_; clear_value x; rotate_left; subst x)
    | (intro x; refine (fun (hx : FstKeeps r x) => ?_) ?_; clear_value x; rotate_left; subst x)
    | (intro x; refine (fun (hf0 : ∀ s, Keeps r s → Keeps r (x s)) => ?_) ?_; clear_value x; rotate_left; subst x; intro _ _)
    | (intro x; refine (fun (hf1 : ∀ s c, Keeps r s → Keeps r (x s c)) => ?_) ?_; clear_value x; rotate_left; subst x; intro _ _ _)
    | (intro x; refine (fun (hf2 : ∀ c, Keeps r (x c)) => ?_) ?_; clear_value x; rotate_left; subst x; intro _)
    | (intro x; have hs : (x : Safety) = x := rfl; clear hs; subst x)
    | (intro x; clear_value x)
    | (intro x)
    | lift_lets
    | with_reducible apply State.bootResult_keeps
    | with_reducible apply State.clearDefects_keeps
    | with_reducible apply State.clearTables_keeps
    | with_reducible apply State.set_keeps
    | (refine Keeps.of_fst ‹_ = (_, _)› ?_)
    | with_reducible apply Keeps.ite
    | (with_reducible refine Keeps.foldl ?_ (fun _ _ _ => ?_))
    | with_reducible apply FstKeeps.ite
    | (with_reducible refine FstKeeps.foldl ?_ (fun _ _ _ _ => ?_))
    | with_reducible apply hf0
    | with_reducible apply hf2
    | with_reducible apply hf1
    | split
    | with_reducible apply FstKeeps.mk
    | with_reducible apply Keeps.upd)

theorem State.slotFail_persists {r : State} {s : State} {res : Nat} {item : Nat} {stable : Nat} (h : Persist r s) : Persist r (State.slotFail s res item stable) :=
  h.via (State.slotFail_keeps (Keeps.refl _))

theorem State.beginSlot_keeps {r : State} {s : State} {k : Nat} {rest : List Nat} (h : Keeps r s) :
    Keeps r (State.beginSlot s k rest) := by
  unfold State.beginSlot
  repeat' (first
    | with_reducible assumption
    | with_reducible exact rfl
    | with_reducible exact id
    | with_reducible exact RegFile.put_wf
    | with_reducible exact RegFile.setFld_wf
    | with_reducible exact RegFile.filter_wf
    | with_reducible exact fun w => RegFile.foldl_wf w (fun _ _ w => RegFile.put_wf w)
    | with_reducible exact (listModify_length _ _ _).trans
    | with_reducible exact fun _ => List.length_replicate
    | with_reducible exact List.length_map _ |>.trans
    | (intro x; refine (fun (hx : Keeps r x) => ?_) ?_; clear_value x; rotate_left; subst x)
    | (intro x; refine (fun (hx : FstKeeps r x) => ?_) ?_; clear_value x; rotate_left; subst x)
    | (intro x; refine (fun (hf0 : ∀ s, Keeps r s → Keeps r (x s)) => ?_) ?_; clear_value x; rotate_left; subst x; intro _ _)
    | (intro x; refine (fun (hf1 : ∀ s c, Keeps r s → Keeps r (x s c)) => ?_) ?_; clear_value x; rotate_left; subst x; intro _ _ _)
    | (intro x; refine (fun (hf2 : ∀ c, Keeps r (x c)) => ?_) ?_; clear_value x; rotate_left; subst x; intro _)
    | (intro x; have hs : (x : Safety) = x := rfl; clear hs; subst x)
    | (intro x; clear_value x)
    | (intro x)
    | lift_lets
    | with_reducible apply State.set_keeps
    | with_reducible apply State.slotFail_keeps
    | with_reducible apply State.startItem_keeps
    | with_reducible apply Keeps.ite
    | (with_reducible refine Keeps.foldl ?_ (fun _ _ _ => ?_))
    | with_reducible apply hf0
    | with_reducible apply hf2
    | with_reducible apply hf1
    | with_reducible apply Keeps.upd)

theorem State.beginSlot_persists {r : State} {s : State} {k : Nat} {rest : List Nat} (h : Persist r s) : Persist r (State.beginSlot s k rest) :=
  h.via (State.beginSlot_keeps (Keeps.refl _))

theorem State.nextSlot_persist {r : State} {s : State} (h : Persist r s) :
    Persist r (State.nextSlot s) := by
  unfold State.nextSlot
  repeat' (first
    | with_reducible assumption
    | with_reducible exact rfl
    | with_reducible exact id
    | with_reducible exact RegFile.put_wf
    | with_reducible exact RegFile.setFld_wf
    | with_reducible exact RegFile.filter_wf
    | with_reducible exact fun w => RegFile.foldl_wf w (fun _ _ w => RegFile.put_wf w)
    | with_reducible exact (listModify_length _ _ _).trans
    | with_reducible exact fun _ => List.length_replicate
    | with_reducible exact List.length_map _ |>.trans
    | (intro x; refine (fun (hx : Persist r x) => ?_) ?_; clear_value x; rotate_left; subst x)
    | (intro x; have hs : (x : Safety) = x := rfl; clear hs; subst x)
    | (intro x; clear_value x)
    | (intro x)
    | lift_lets
    | with_reducible apply State.enterHaltConfig_persist
    | with_reducible apply State.beginSlot_persists
    | with_reducible apply Persist.ite
    | (with_reducible refine Persist.foldl ?_ (fun _ _ _ => ?_))
    | split
    | with_reducible apply Persist.upd)

theorem State.sectionsRead_keeps {r : State} {s : State} (h : Keeps r s) :
    Keeps r (State.sectionsRead s) := by
  unfold State.sectionsRead
  repeat' (first
    | with_reducible assumption
    | with_reducible exact rfl
    | with_reducible exact id
    | with_reducible exact RegFile.put_wf
    | with_reducible exact RegFile.setFld_wf
    | with_reducible exact RegFile.filter_wf
    | with_reducible exact fun w => RegFile.foldl_wf w (fun _ _ w => RegFile.put_wf w)
    | with_reducible exact (listModify_length _ _ _).trans
    | with_reducible exact fun _ => List.length_replicate
    | with_reducible exact List.length_map _ |>.trans
    | (intro x; refine (fun (hx : Keeps r x) => ?_) ?_; clear_value x; rotate_left; subst x)
    | (intro x; refine (fun (hx : FstKeeps r x) => ?_) ?_; clear_value x; rotate_left; subst x)
    | (intro x; refine (fun (hf0 : ∀ s, Keeps r s → Keeps r (x s)) => ?_) ?_; clear_value x; rotate_left; subst x; intro _ _)
    | (intro x; refine (fun (hf1 : ∀ s c, Keeps r s → Keeps r (x s c)) => ?_) ?_; clear_value x; rotate_left; subst x; intro _ _ _)
    | (intro x; refine (fun (hf2 : ∀ c, Keeps r (x c)) => ?_) ?_; clear_value x; rotate_left; subst x; intro _)
    | (intro x; have hs : (x : Safety) = x := rfl; clear hs; subst x)
    | (intro x; clear_value x)
    | (intro x)
    | lift_lets
    | with_reducible apply Keeps.ite
    | (with_reducible refine Keeps.foldl ?_ (fun _ _ _ => ?_))
    | with_reducible apply hf0
    | with_reducible apply hf2
    | with_reducible apply hf1
    | with_reducible apply Keeps.upd)

theorem State.afterSection_keeps {r : State} {s : State} {t : Nat} (h : Keeps r s) :
    Keeps r (State.afterSection s t) := by
  unfold State.afterSection
  repeat' (first
    | with_reducible assumption
    | with_reducible exact rfl
    | with_reducible exact id
    | with_reducible exact RegFile.put_wf
    | with_reducible exact RegFile.setFld_wf
    | with_reducible exact RegFile.filter_wf
    | with_reducible exact fun w => RegFile.foldl_wf w (fun _ _ w => RegFile.put_wf w)
    | with_reducible exact (listModify_length _ _ _).trans
    | with_reducible exact fun _ => List.length_replicate
    | with_reducible exact List.length_map _ |>.trans
    | (intro x; refine (fun (hx : Keeps r x) => ?_) ?_; clear_value x; rotate_left; subst x)
    | (intro x; refine (fun (hx : FstKeeps r x) => ?_) ?_; clear_value x; rotate_left; subst x)
    | (intro x; refine (fun (hf0 : ∀ s, Keeps r s → Keeps r (x s)) => ?_) ?_; clear_value x; rotate_left; subst x; intro _ _)
    | (intro x; refine (fun (hf1 : ∀ s c, Keeps r s → Keeps r (x s c)) => ?_) ?_; clear_value x; rotate_left; subst x; intro _ _ _)
    | (intro x; refine (fun (hf2 : ∀ c, Keeps r (x c)) => ?_) ?_; clear_value x; rotate_left; subst x; intro _)
    | (intro x; have hs : (x : Safety) = x := rfl; clear hs; subst x)
    | (intro x; clear_value x)
    | (intro x)
    | lift_lets
    | with_reducible apply State.startItem_keeps
    | with_reducible apply State.sectionsRead_keeps
    | (refine Keeps.of_fst ‹_ = (_, _)› ?_)
    | with_reducible apply Keeps.ite
    | (with_reducible refine Keeps.foldl ?_ (fun _ _ _ => ?_))
    | with_reducible apply FstKeeps.ite
    | (with_reducible refine FstKeeps.foldl ?_ (fun _ _ _ _ => ?_))
    | with_reducible apply hf0
    | with_reducible apply hf2
    | with_reducible apply hf1
    | split
    | with_reducible apply FstKeeps.mk
    | with_reducible apply Keeps.upd)

theorem State.afterSection_persists {r : State} {s : State} {t : Nat} (h : Persist r s) : Persist r (State.afterSection s t) :=
  h.via (State.afterSection_keeps (Keeps.refl _))

theorem State.cfgWrite_persist {r : State} {s : State} {sec : Nat} {a : Nat} {v : Word} (h : Persist r s) :
    Persist r (State.cfgWrite s sec a v) := by
  unfold State.cfgWrite
  repeat' (first
    | with_reducible assumption
    | with_reducible exact rfl
    | with_reducible exact id
    | with_reducible exact RegFile.put_wf
    | with_reducible exact RegFile.setFld_wf
    | with_reducible exact RegFile.filter_wf
    | with_reducible exact fun w => RegFile.foldl_wf w (fun _ _ w => RegFile.put_wf w)
    | with_reducible exact (listModify_length _ _ _).trans
    | with_reducible exact fun _ => List.length_replicate
    | with_reducible exact List.length_map _ |>.trans
    | (intro x; refine (fun (hx : Persist r x) => ?_) ?_; clear_value x; rotate_left; subst x)
    | (intro x; have hs : (x : Safety) = x := rfl; clear hs; subst x)
    | (intro x; clear_value x)
    | (intro x)
    | lift_lets
    | with_reducible apply State.bump_persists
    | with_reducible apply State.set_persists
    | with_reducible apply State.hookedStore_persist
    | with_reducible apply Persist.ite
    | (with_reducible refine Persist.foldl ?_ (fun _ _ _ => ?_))
    | split
    | with_reducible apply Persist.upd)

theorem State.runWriteList_persist {r s : State} {es : List (List Byte)} (h : Persist r s) :
    Persist r (State.runWriteList s es) := by
  induction es generalizing s with
  | nil =>
    unfold State.runWriteList
    exact State.afterSection_persists (Persist.ite (Persist.upd (Persist.upd h id id id id id id) id id id id id id)
      (Persist.upd h id id id id id id))
  | cons e es ih =>
    unfold State.runWriteList
    exact Persist.ite (Persist.upd h id id id id id id) (Persist.ite (ih (State.cfgWrite_persist h))
      (ih (State.bump_persists h)))

theorem State.rigSection_keeps {r : State} {s : State} {bs : List Byte} (h : Keeps r s) :
    Keeps r (State.rigSection s bs) := by
  unfold State.rigSection
  repeat' (first
    | with_reducible assumption
    | with_reducible exact rfl
    | with_reducible exact id
    | with_reducible exact RegFile.put_wf
    | with_reducible exact RegFile.setFld_wf
    | with_reducible exact RegFile.filter_wf
    | with_reducible exact fun w => RegFile.foldl_wf w (fun _ _ w => RegFile.put_wf w)
    | with_reducible exact (listModify_length _ _ _).trans
    | with_reducible exact fun _ => List.length_replicate
    | with_reducible exact List.length_map _ |>.trans
    | (intro x; refine (fun (hx : Keeps r x) => ?_) ?_; clear_value x; rotate_left; subst x)
    | (intro x; refine (fun (hx : FstKeeps r x) => ?_) ?_; clear_value x; rotate_left; subst x)
    | (intro x; refine (fun (hf0 : ∀ s, Keeps r s → Keeps r (x s)) => ?_) ?_; clear_value x; rotate_left; subst x; intro _ _)
    | (intro x; refine (fun (hf1 : ∀ s c, Keeps r s → Keeps r (x s c)) => ?_) ?_; clear_value x; rotate_left; subst x; intro _ _ _)
    | (intro x; refine (fun (hf2 : ∀ c, Keeps r (x c)) => ?_) ?_; clear_value x; rotate_left; subst x; intro _)
    | (intro x; have hs : (x : Safety) = x := rfl; clear hs; subst x)
    | (intro x; clear_value x)
    | (intro x)
    | lift_lets
    | with_reducible apply State.set_keeps
    | with_reducible apply Keeps.ite
    | (with_reducible refine Keeps.foldl ?_ (fun _ _ _ => ?_))
    | with_reducible apply hf0
    | with_reducible apply hf2
    | with_reducible apply hf1
    | with_reducible apply Keeps.upd)

theorem State.rigSection_persists {r : State} {s : State} {bs : List Byte} (h : Persist r s) : Persist r (State.rigSection s bs) :=
  h.via (State.rigSection_keeps (Keeps.refl _))

theorem State.tablesRecords_keeps {r s : State} {bs : List Byte} {fuel : Nat} (h : Keeps r s) :
    Keeps r (State.tablesRecords s bs fuel) := by
  induction fuel generalizing s bs with
  | zero => exact h
  | succ n ih =>
    unfold State.tablesRecords
    refine Keeps.ite h (ih ?_)
    exact Keeps.ite (State.bump_keeps h) (Keeps.ite (State.shadingRecord_keeps h) (Keeps.ite
      (Keeps.foldl h fun s i hs => State.set_keeps hs) (State.bump_keeps h)))

theorem State.tablesRecords_persists {r : State} {s : State} {bs : List Byte} {x2 : Nat} (h : Persist r s) : Persist r (State.tablesRecords s bs x2) :=
  h.via (State.tablesRecords_keeps (Keeps.refl _))

theorem State.sectionAccepted_persist {r : State} {s : State} {t : Nat} {bs : List Byte} (h : Persist r s) :
    Persist r (State.sectionAccepted s t bs) := by
  unfold State.sectionAccepted
  repeat' (first
    | with_reducible assumption
    | with_reducible exact rfl
    | with_reducible exact id
    | with_reducible exact RegFile.put_wf
    | with_reducible exact RegFile.setFld_wf
    | with_reducible exact RegFile.filter_wf
    | with_reducible exact fun w => RegFile.foldl_wf w (fun _ _ w => RegFile.put_wf w)
    | with_reducible exact (listModify_length _ _ _).trans
    | with_reducible exact fun _ => List.length_replicate
    | with_reducible exact List.length_map _ |>.trans
    | (intro x; refine (fun (hx : Persist r x) => ?_) ?_; clear_value x; rotate_left; subst x)
    | (intro x; have hs : (x : Safety) = x := rfl; clear hs; subst x)
    | (intro x; clear_value x)
    | (intro x)
    | lift_lets
    | with_reducible apply State.runWriteList_persist
    | with_reducible apply State.afterSection_persists
    | with_reducible apply State.tablesRecords_persists
    | with_reducible apply State.defectHash_persists
    | with_reducible apply State.loadDefects_persists
    | with_reducible apply State.rigSection_persists
    | with_reducible apply Persist.ite
    | (with_reducible refine Persist.foldl ?_ (fun _ _ _ => ?_))
    | split
    | with_reducible apply Persist.upd)

theorem State.itemFailed_keeps {r : State} {s : State} {i : BootItem} {reads : List (Option Nat)} {bs : List Byte} (h : Keeps r s) :
    Keeps r (State.itemFailed s i reads bs) := by
  unfold State.itemFailed
  repeat' (first
    | with_reducible assumption
    | with_reducible exact rfl
    | with_reducible exact id
    | with_reducible exact RegFile.put_wf
    | with_reducible exact RegFile.setFld_wf
    | with_reducible exact RegFile.filter_wf
    | with_reducible exact fun w => RegFile.foldl_wf w (fun _ _ w => RegFile.put_wf w)
    | with_reducible exact (listModify_length _ _ _).trans
    | with_reducible exact fun _ => List.length_replicate
    | with_reducible exact List.length_map _ |>.trans
    | (intro x; refine (fun (hx : Keeps r x) => ?_) ?_; clear_value x; rotate_left; subst x)
    | (intro x; refine (fun (hx : FstKeeps r x) => ?_) ?_; clear_value x; rotate_left; subst x)
    | (intro x; refine (fun (hf0 : ∀ s, Keeps r s → Keeps r (x s)) => ?_) ?_; clear_value x; rotate_left; subst x; intro _ _)
    | (intro x; refine (fun (hf1 : ∀ s c, Keeps r s → Keeps r (x s c)) => ?_) ?_; clear_value x; rotate_left; subst x; intro _ _ _)
    | (intro x; refine (fun (hf2 : ∀ c, Keeps r (x c)) => ?_) ?_; clear_value x; rotate_left; subst x; intro _)
    | (intro x; have hs : (x : Safety) = x := rfl; clear hs; subst x)
    | (intro x; clear_value x)
    | (intro x)
    | lift_lets
    | with_reducible apply State.afterSection_keeps
    | with_reducible apply State.slotFail_keeps
    | (refine Keeps.of_fst ‹_ = (_, _)› ?_)
    | with_reducible apply Keeps.ite
    | (with_reducible refine Keeps.foldl ?_ (fun _ _ _ => ?_))
    | with_reducible apply FstKeeps.ite
    | (with_reducible refine FstKeeps.foldl ?_ (fun _ _ _ _ => ?_))
    | with_reducible apply hf0
    | with_reducible apply hf2
    | with_reducible apply hf1
    | split
    | with_reducible apply FstKeeps.mk
    | with_reducible apply Keeps.upd)

theorem State.itemFailed_persists {r : State} {s : State} {i : BootItem} {reads : List (Option Nat)} {bs : List Byte} (h : Persist r s) : Persist r (State.itemFailed s i reads bs) :=
  h.via (State.itemFailed_keeps (Keeps.refl _))

theorem State.readEnded_persist {r : State} {s : State} {i : BootItem} {data : Option (List Byte)} (h : Persist r s) :
    Persist r (State.readEnded s i data) := by
  unfold State.readEnded
  repeat' (first
    | with_reducible assumption
    | with_reducible exact rfl
    | with_reducible exact id
    | with_reducible exact RegFile.put_wf
    | with_reducible exact RegFile.setFld_wf
    | with_reducible exact RegFile.filter_wf
    | with_reducible exact fun w => RegFile.foldl_wf w (fun _ _ w => RegFile.put_wf w)
    | with_reducible exact (listModify_length _ _ _).trans
    | with_reducible exact fun _ => List.length_replicate
    | with_reducible exact List.length_map _ |>.trans
    | (intro x; refine (fun (hx : Persist r x) => ?_) ?_; clear_value x; rotate_left; subst x)
    | (intro x; have hs : (x : Safety) = x := rfl; clear hs; subst x)
    | (intro x; clear_value x)
    | (intro x)
    | lift_lets
    | with_reducible apply State.set_persists
    | with_reducible apply State.slotFail_persists
    | with_reducible apply State.startItem_persists
    | with_reducible apply State.afterSection_persists
    | with_reducible apply State.sectionAccepted_persist
    | with_reducible apply State.itemFailed_persists
    | with_reducible apply Persist.ite
    | (with_reducible refine Persist.foldl ?_ (fun _ _ _ => ?_))
    | split
    | with_reducible apply Persist.upd)

end Sys2Proof.Machine
end

