-- ==== Sys2Proof/Laws/BootKeeps.lean ====
section
/-! SUPPORT. What the operations of Machine/Boot.lean keep. -/
namespace Sys2Proof.Machine

theorem State.readChipBank_persists {r : State} {s : State} (h : Persist r s) : Persist r (State.readChipBank s) :=
  h.via (State.readChipBank_keeps (Keeps.refl _))

theorem State.drift_persists {r : State} {s : State} {ws : List (Nat × Nat × Nat)} (h : Persist r s) : Persist r (State.drift s ws) :=
  h.via (State.drift_keeps (Keeps.refl _))

theorem State.setFault_persists {r : State} {s : State} {b : Nat} (h : Persist r s) : Persist r (State.setFault s b) :=
  h.via (State.setFault_keeps (Keeps.refl _))

theorem State.bootResult_persists {r : State} {s : State} {slot : Nat} {res : Nat} {item : Nat} {stable : Nat} (h : Persist r s) : Persist r (State.bootResult s slot res item stable) :=
  h.via (State.bootResult_keeps (Keeps.refl _))

theorem State.lockSafety_persists {r : State} {s : State} {saf : Option (List Byte)} (h : Persist r s) : Persist r (State.lockSafety s saf) :=
  h.via (State.lockSafety_keeps (Keeps.refl _))

theorem State.emit_persists {r : State} {s : State} {o : Out} (h : Persist r s) : Persist r (State.emit s o) :=
  h.via (State.emit_keeps (Keeps.refl _))

theorem State.loadWork_keeps {r : State} {s : State} (h : Keeps r s) :
    Keeps r (State.loadWork s) := by
  unfold State.loadWork
  repeat' (first
    | with_reducible assumption
    | with_reducible exact rfl
    | with_reducible exact id
    | with_reducible exact RegFile.put_wf
    | with_reducible exact RegFile.setFld_wf
    | with_reducible exact RegFile.filter_wf
    | with_reducible exact fun w => RegFile.foldl_wf w (fun _ _ w => RegFile.put_wf w)
    | with_reducible exact (listModify_length _ _ _).trans
    | with_reducible exact fun _ => List.length_replicate
    | with_reducible exact List.length_map _ |>.trans
    | (intro x; refine (fun (hx : Keeps r x) => ?_) ?_; clear_value x; rotate_left; subst x)
    | (intro x; refine (fun (hx : FstKeeps r x) => ?_) ?_; clear_value x; rotate_left; subst x)
    | (intro x; refine (fun (hf0 : ∀ s, Keeps r s → Keeps r (x s)) => ?_) ?_; clear_value x; rotate_left; subst x; intro _ _)
    | (intro x; refine (fun (hf1 : ∀ s c, Keeps r s → Keeps r (x s c)) => ?_) ?_; clear_value x; rotate_left; subst x; intro _ _ _)
    | (intro x; refine (fun (hf2 : ∀ c, Keeps r (x c)) => ?_) ?_; clear_value x; rotate_left; subst x; intro _)
    | (intro x; have hs : (x : Safety) = x := rfl; clear hs; subst x)
    | (intro x; clear_value x)
    | (intro x)
    | lift_lets
    | with_reducible apply State.set_keeps
    | with_reducible apply State.holdAll_keeps
    | with_reducible apply State.powerAll_keeps
    | (refine Keeps.of_fst ‹_ = (_, _)› ?_)
    | with_reducible apply Keeps.ite
    | (with_reducible refine Keeps.foldl ?_ (fun _ _ _ => ?_))
    | with_reducible apply FstKeeps.ite
    | (with_reducible refine FstKeeps.foldl ?_ (fun _ _ _ _ => ?_))
    | with_reducible apply hf0
    | with_reducible apply hf2
    | with_reducible apply hf1
    | split
    | with_reducible apply FstKeeps.mk
    | with_reducible apply Keeps.upd)

theorem State.loadWork_persists {r : State} {s : State} (h : Persist r s) : Persist r (State.loadWork s) :=
  h.via (State.loadWork_keeps (Keeps.refl _))

theorem State.tryLoad_persist {r : State} {s : State} (h : Persist r s) :
    Persist r (State.tryLoad s) := by
  unfold State.tryLoad
  repeat' (first
    | with_reducible assumption
    | with_reducible exact rfl
    | with_reducible exact id
    | with_reducible exact RegFile.put_wf
    | with_reducible exact RegFile.setFld_wf
    | with_reducible exact RegFile.filter_wf
    | with_reducible exact fun w => RegFile.foldl_wf w (fun _ _ w => RegFile.put_wf w)
    | with_reducible exact (listModify_length _ _ _).trans
    | with_reducible exact fun _ => List.length_replicate
    | with_reducible exact List.length_map _ |>.trans
    | (intro x; refine (fun (hx : Persist r x) => ?_) ?_; clear_value x; rotate_left; subst x)
    | (intro x; have hs : (x : Safety) = x := rfl; clear hs; subst x)
    | (intro x; clear_value x)
    | (intro x)
    | lift_lets
    | with_reducible apply State.loadWork_persists
    | with_reducible apply State.enter_persist
    | with_reducible apply State.beginSlot_persists
    | with_reducible apply Persist.ite
    | (with_reducible refine Persist.foldl ?_ (fun _ _ _ => ?_))
    | with_reducible apply Persist.upd)

theorem execPornRise_persist {r : State} {s : State} (h : Persist r s) :
    OutPersist r (execPornRise s) := by
  unfold execPornRise
  repeat' (first
    | with_reducible assumption
    | with_reducible exact rfl
    | with_reducible exact id
    | with_reducible exact RegFile.put_wf
    | with_reducible exact RegFile.setFld_wf
    | with_reducible exact RegFile.filter_wf
    | with_reducible exact fun w => RegFile.foldl_wf w (fun _ _ w => RegFile.put_wf w)
    | with_reducible exact (listModify_length _ _ _).trans
    | with_reducible exact fun _ => List.length_replicate
    | with_reducible exact List.length_map _ |>.trans
    | (intro x; refine (fun (hx : Persist r x) => ?_) ?_; clear_value x; rotate_left; subst x)
    | (intro x; have hs : (x : Safety) = x := rfl; clear hs; subst x)
    | (intro x; clear_value x)
    | (intro x)
    | lift_lets
    | with_reducible apply State.powerOnReset_persist
    | with_reducible apply OutPersist.ok
    | with_reducible apply OutPersist.ite
    | with_reducible apply Persist.ite
    | (with_reducible refine Persist.foldl ?_ (fun _ _ _ => ?_))
    | with_reducible apply Persist.upd)

theorem execPornFall_keeps {r : State} {s : State} (h : Keeps r s) :
    OutKeeps r (execPornFall s) := by
  unfold execPornFall
  repeat' (first
    | with_reducible assumption
    | with_reducible exact rfl
    | with_reducible exact id
    | with_reducible exact RegFile.put_wf
    | with_reducible exact RegFile.setFld_wf
    | with_reducible exact RegFile.filter_wf
    | with_reducible exact fun w => RegFile.foldl_wf w (fun _ _ w => RegFile.put_wf w)
    | with_reducible exact (listModify_length _ _ _).trans
    | with_reducible exact fun _ => List.length_replicate
    | with_reducible exact List.length_map _ |>.trans
    | (intro x; refine (fun (hx : Keeps r x) => ?_) ?_; clear_value x; rotate_left; subst x)
    | (intro x; refine (fun (hx : FstKeeps r x) => ?_) ?_; clear_value x; rotate_left; subst x)
    | (intro x; refine (fun (hf0 : ∀ s, Keeps r s → Keeps r (x s)) => ?_) ?_; clear_value x; rotate_left; subst x; intro _ _)
    | (intro x; refine (fun (hf1 : ∀ s c, Keeps r s → Keeps r (x s c)) => ?_) ?_; clear_value x; rotate_left; subst x; intro _ _ _)
    | (intro x; refine (fun (hf2 : ∀ c, Keeps r (x c)) => ?_) ?_; clear_value x; rotate_left; subst x; intro _)
    | (intro x; have hs : (x : Safety) = x := rfl; clear hs; subst x)
    | (intro x; clear_value x)
    | (intro x)
    | lift_lets
    | with_reducible apply OutKeeps.ok
    | with_reducible apply OutKeeps.ite
    | with_reducible apply Keeps.ite
    | (with_reducible refine Keeps.foldl ?_ (fun _ _ _ => ?_))
    | with_reducible apply hf0
    | with_reducible apply hf2
    | with_reducible apply hf1
    | with_reducible apply Keeps.upd)

theorem execVddaonLoss_persist {r : State} {s : State} (h : Persist r s) :
    OutPersist r (execVddaonLoss s) := by
  unfold execVddaonLoss
  repeat' (first
    | with_reducible assumption
    | with_reducible exact rfl
    | with_reducible exact id
    | with_reducible exact RegFile.put_wf
    | with_reducible exact RegFile.setFld_wf
    | with_reducible exact RegFile.filter_wf
    | with_reducible exact fun w => RegFile.foldl_wf w (fun _ _ w => RegFile.put_wf w)
    | with_reducible exact (listModify_length _ _ _).trans
    | with_reducible exact fun _ => List.length_replicate
    | with_reducible exact List.length_map _ |>.trans
    | (intro x; refine (fun (hx : Persist r x) => ?_) ?_; clear_value x; rotate_left; subst x)
    | (intro x; have hs : (x : Safety) = x := rfl; clear hs; subst x)
    | (intro x; clear_value x)
    | (intro x)
    | lift_lets
    | with_reducible apply State.vddaonLost_persist
    | with_reducible apply OutPersist.ok
    | with_reducible apply OutPersist.ite
    | with_reducible apply Persist.ite
    | (with_reducible refine Persist.foldl ?_ (fun _ _ _ => ?_))
    | with_reducible apply Persist.upd)

theorem execVddaonRise_persist {r : State} {s : State} (h : Persist r s) :
    OutPersist r (execVddaonRise s) := by
  unfold execVddaonRise
  repeat' (first
    | with_reducible assumption
    | with_reducible exact rfl
    | with_reducible exact id
    | with_reducible exact RegFile.put_wf
    | with_reducible exact RegFile.setFld_wf
    | with_reducible exact RegFile.filter_wf
    | with_reducible exact fun w => RegFile.foldl_wf w (fun _ _ w => RegFile.put_wf w)
    | with_reducible exact (listModify_length _ _ _).trans
    | with_reducible exact fun _ => List.length_replicate
    | with_reducible exact List.length_map _ |>.trans
    | (intro x; refine (fun (hx : Persist r x) => ?_) ?_; clear_value x; rotate_left; subst x)
    | (intro x; have hs : (x : Safety) = x := rfl; clear hs; subst x)
    | (intro x; clear_value x)
    | (intro x)
    | lift_lets
    | with_reducible apply State.powerOnReset_persist
    | with_reducible apply OutPersist.ok
    | with_reducible apply OutPersist.ite
    | with_reducible apply Persist.ite
    | (with_reducible refine Persist.foldl ?_ (fun _ _ _ => ?_))
    | with_reducible apply Persist.upd)

theorem execStrapSample_persist {r : State} {levels : Nat} {s : State} (h : Persist r s) :
    OutPersist r (execStrapSample levels s) := by
  unfold execStrapSample
  repeat' (first
    | with_reducible assumption
    | with_reducible exact rfl
    | with_reducible exact id
    | with_reducible exact RegFile.put_wf
    | with_reducible exact RegFile.setFld_wf
    | with_reducible exact RegFile.filter_wf
    | with_reducible exact fun w => RegFile.foldl_wf w (fun _ _ w => RegFile.put_wf w)
    | with_reducible exact (listModify_length _ _ _).trans
    | with_reducible exact fun _ => List.length_replicate
    | with_reducible exact List.length_map _ |>.trans
    | (intro x; refine (fun (hx : Persist r x) => ?_) ?_; clear_value x; rotate_left; subst x)
    | (intro x; have hs : (x : Safety) = x := rfl; clear hs; subst x)
    | (intro x; clear_value x)
    | (intro x)
    | lift_lets
    | with_reducible apply State.set_persists
    | with_reducible apply State.tryLoad_persist
    | with_reducible apply OutPersist.ok
    | with_reducible apply OutPersist.ite
    | with_reducible apply Persist.ite
    | (with_reducible refine Persist.foldl ?_ (fun _ _ _ => ?_))
    | with_reducible apply Persist.upd)

theorem execFuseBankShadowDone_persist {r : State} {ws : List (Nat × Nat × Nat)} {s : State} (h : Persist r s) :
    OutPersist r (execFuseBankShadowDone ws s) := by
  unfold execFuseBankShadowDone
  repeat' (first
    | with_reducible assumption
    | with_reducible exact rfl
    | with_reducible exact id
    | with_reducible exact RegFile.put_wf
    | with_reducible exact RegFile.setFld_wf
    | with_reducible exact RegFile.filter_wf
    | with_reducible exact fun w => RegFile.foldl_wf w (fun _ _ w => RegFile.put_wf w)
    | with_reducible exact (listModify_length _ _ _).trans
    | with_reducible exact fun _ => List.length_replicate
    | with_reducible exact List.length_map _ |>.trans
    | (intro x; refine (fun (hx : Persist r x) => ?_) ?_; clear_value x; rotate_left; subst x)
    | (intro x; have hs : (x : Safety) = x := rfl; clear hs; subst x)
    | (intro x; clear_value x)
    | (intro x)
    | lift_lets
    | with_reducible apply State.readChipBank_persists
    | with_reducible apply State.drift_persists
    | with_reducible apply State.tryLoad_persist
    | with_reducible apply OutPersist.ok
    | with_reducible apply OutPersist.ite
    | with_reducible apply Persist.ite
    | (with_reducible refine Persist.foldl ?_ (fun _ _ _ => ?_))
    | with_reducible apply Persist.upd)

theorem execPllMainLock_persist {r : State} {s : State} (h : Persist r s) :
    OutPersist r (execPllMainLock s) := by
  unfold execPllMainLock
  repeat' (first
    | with_reducible assumption
    | with_reducible exact rfl
    | with_reducible exact id
    | with_reducible exact RegFile.put_wf
    | with_reducible exact RegFile.setFld_wf
    | with_reducible exact RegFile.filter_wf
    | with_reducible exact fun w => RegFile.foldl_wf w (fun _ _ w => RegFile.put_wf w)
    | with_reducible exact (listModify_length _ _ _).trans
    | with_reducible exact fun _ => List.length_replicate
    | with_reducible exact List.length_map _ |>.trans
    | (intro x; refine (fun (hx : Persist r x) => ?_) ?_; clear_value x; rotate_left; subst x)
    | (intro x; have hs : (x : Safety) = x := rfl; clear hs; subst x)
    | (intro x; clear_value x)
    | (intro x)
    | lift_lets
    | with_reducible apply State.tryLoad_persist
    | with_reducible apply OutPersist.ok
    | with_reducible apply OutPersist.ite
    | with_reducible apply Persist.ite
    | (with_reducible refine Persist.foldl ?_ (fun _ _ _ => ?_))
    | with_reducible apply Persist.upd)

theorem execStartupTimeout_persist {r : State} {s : State} (h : Persist r s) :
    OutPersist r (execStartupTimeout s) := by
  unfold execStartupTimeout
  repeat' (first
    | with_reducible assumption
    | with_reducible exact rfl
    | with_reducible exact id
    | with_reducible exact RegFile.put_wf
    | with_reducible exact RegFile.setFld_wf
    | with_reducible exact RegFile.filter_wf
    | with_reducible exact fun w => RegFile.foldl_wf w (fun _ _ w => RegFile.put_wf w)
    | with_reducible exact (listModify_length _ _ _).trans
    | with_reducible exact fun _ => List.length_replicate
    | with_reducible exact List.length_map _ |>.trans
    | (intro x; refine (fun (hx : Persist r x) => ?_) ?_; clear_value x; rotate_left; subst x)
    | (intro x; have hs : (x : Safety) = x := rfl; clear hs; subst x)
    | (intro x; clear_value x)
    | (intro x)
    | lift_lets
    | with_reducible apply State.enterStop_persist
    | with_reducible apply State.setFault_persists
    | with_reducible apply OutPersist.ok
    | with_reducible apply OutPersist.ite
    | with_reducible apply Persist.ite
    | (with_reducible refine Persist.foldl ?_ (fun _ _ _ => ?_))
    | with_reducible apply Persist.upd)

theorem execXspiBurstDone_persist {r : State} {data : List Byte} {s : State} (h : Persist r s) :
    OutPersist r (execXspiBurstDone data s) := by
  unfold execXspiBurstDone
  repeat' (first
    | with_reducible assumption
    | with_reducible exact rfl
    | with_reducible exact id
    | with_reducible exact RegFile.put_wf
    | with_reducible exact RegFile.setFld_wf
    | with_reducible exact RegFile.filter_wf
    | with_reducible exact fun w => RegFile.foldl_wf w (fun _ _ w => RegFile.put_wf w)
    | with_reducible exact (listModify_length _ _ _).trans
    | with_reducible exact fun _ => List.length_replicate
    | with_reducible exact List.length_map _ |>.trans
    | (intro x; refine (fun (hx : Persist r x) => ?_) ?_; clear_value x; rotate_left; subst x)
    | (intro x; have hs : (x : Safety) = x := rfl; clear hs; subst x)
    | (intro x; clear_value x)
    | (intro x)
    | lift_lets
    | with_reducible apply State.readEnded_persist
    | with_reducible apply OutPersist.ok
    | with_reducible apply OutPersist.ite
    | with_reducible apply Persist.ite
    | (with_reducible refine Persist.foldl ?_ (fun _ _ _ => ?_))
    | split
    | with_reducible apply Persist.upd)

theorem execXspiBurstTimeout_persist {r : State} {s : State} (h : Persist r s) :
    OutPersist r (execXspiBurstTimeout s) := by
  unfold execXspiBurstTimeout
  repeat' (first
    | with_reducible assumption
    | with_reducible exact rfl
    | with_reducible exact id
    | with_reducible exact RegFile.put_wf
    | with_reducible exact RegFile.setFld_wf
    | with_reducible exact RegFile.filter_wf
    | with_reducible exact fun w => RegFile.foldl_wf w (fun _ _ w => RegFile.put_wf w)
    | with_reducible exact (listModify_length _ _ _).trans
    | with_reducible exact fun _ => List.length_replicate
    | with_reducible exact List.length_map _ |>.trans
    | (intro x; refine (fun (hx : Persist r x) => ?_) ?_; clear_value x; rotate_left; subst x)
    | (intro x; have hs : (x : Safety) = x := rfl; clear hs; subst x)
    | (intro x; clear_value x)
    | (intro x)
    | lift_lets
    | with_reducible apply State.readEnded_persist
    | with_reducible apply OutPersist.ok
    | with_reducible apply OutPersist.ite
    | with_reducible apply Persist.ite
    | (with_reducible refine Persist.foldl ?_ (fun _ _ _ => ?_))
    | split
    | with_reducible apply Persist.upd)

theorem execWriteListDelayEnd_persist {r : State} {s : State} (h : Persist r s) :
    OutPersist r (execWriteListDelayEnd s) := by
  unfold execWriteListDelayEnd
  repeat' (first
    | with_reducible assumption
    | with_reducible exact rfl
    | with_reducible exact id
    | with_reducible exact RegFile.put_wf
    | with_reducible exact RegFile.setFld_wf
    | with_reducible exact RegFile.filter_wf
    | with_reducible exact fun w => RegFile.foldl_wf w (fun _ _ w => RegFile.put_wf w)
    | with_reducible exact (listModify_length _ _ _).trans
    | with_reducible exact fun _ => List.length_replicate
    | with_reducible exact List.length_map _ |>.trans
    | (intro x; refine (fun (hx : Persist r x) => ?_) ?_; clear_value x; rotate_left; subst x)
    | (intro x; have hs : (x : Safety) = x := rfl; clear hs; subst x)
    | (intro x; clear_value x)
    | (intro x)
    | lift_lets
    | with_reducible apply State.runWriteList_persist
    | with_reducible apply OutPersist.ok
    | with_reducible apply OutPersist.ite
    | with_reducible apply Persist.ite
    | (with_reducible refine Persist.foldl ?_ (fun _ _ _ => ?_))
    | split
    | with_reducible apply Persist.upd)

theorem execSignatureCheckDone_keeps {r : State} {s : State} (h : Keeps r s) :
    OutKeeps r (execSignatureCheckDone s) := by
  unfold execSignatureCheckDone
  repeat' (first
    | with_reducible assumption
    | with_reducible exact rfl
    | with_reducible exact id
    | with_reducible exact RegFile.put_wf
    | with_reducible exact RegFile.setFld_wf
    | with_reducible exact RegFile.filter_wf
    | with_reducible exact fun w => RegFile.foldl_wf w (fun _ _ w => RegFile.put_wf w)
    | with_reducible exact (listModify_length _ _ _).trans
    | with_reducible exact fun _ => List.length_replicate
    | with_reducible exact List.length_map _ |>.trans
    | (intro x; refine (fun (hx : Keeps r x) => ?_) ?_; clear_value x; rotate_left; subst x)
    | (intro x; refine (fun (hx : FstKeeps r x) => ?_) ?_; clear_value x; rotate_left; subst x)
    | (intro x; refine (fun (hf0 : ∀ s, Keeps r s → Keeps r (x s)) => ?_) ?_; clear_value x; rotate_left; subst x; intro _ _)
    | (intro x; refine (fun (hf1 : ∀ s c, Keeps r s → Keeps r (x s c)) => ?_) ?_; clear_value x; rotate_left; subst x; intro _ _ _)
    | (intro x; refine (fun (hf2 : ∀ c, Keeps r (x c)) => ?_) ?_; clear_value x; rotate_left; subst x; intro _)
    | (intro x; have hs : (x : Safety) = x := rfl; clear hs; subst x)
    | (intro x; clear_value x)
    | (intro x)
    | lift_lets
    | with_reducible apply State.slotFail_keeps
    | with_reducible apply OutKeeps.ok
    | with_reducible apply OutKeeps.ite
    | with_reducible apply Keeps.ite
    | (with_reducible refine Keeps.foldl ?_ (fun _ _ _ => ?_))
    | with_reducible apply hf0
    | with_reducible apply hf2
    | with_reducible apply hf1
    | with_reducible apply Keeps.upd)

theorem execSlotRevertDone_persist {r : State} {s : State} (h : Persist r s) :
    OutPersist r (execSlotRevertDone s) := by
  unfold execSlotRevertDone
  repeat' (first
    | with_reducible assumption
    | with_reducible exact rfl
    | with_reducible exact id
    | with_reducible exact RegFile.put_wf
    | with_reducible exact RegFile.setFld_wf
    | with_reducible exact RegFile.filter_wf
    | with_reducible exact fun w => RegFile.foldl_wf w (fun _ _ w => RegFile.put_wf w)
    | with_reducible exact (listModify_length _ _ _).trans
    | with_reducible exact fun _ => List.length_replicate
    | with_reducible exact List.length_map _ |>.trans
    | (intro x; refine (fun (hx : Persist r x) => ?_) ?_; clear_value x; rotate_left; subst x)
    | (intro x; have hs : (x : Safety) = x := rfl; clear hs; subst x)
    | (intro x; clear_value x)
    | (intro x)
    | lift_lets
    | with_reducible apply State.nextSlot_persist
    | with_reducible apply OutPersist.ok
    | with_reducible apply OutPersist.ite
    | with_reducible apply Persist.ite
    | (with_reducible refine Persist.foldl ?_ (fun _ _ _ => ?_))
    | with_reducible apply Persist.upd)

theorem execSlotAccept_persist {r : State} {s : State} (h : Persist r s) :
    OutPersist r (execSlotAccept s) := by
  unfold execSlotAccept
  repeat' (first
    | with_reducible assumption
    | with_reducible exact rfl
    | with_reducible exact id
    | with_reducible exact RegFile.put_wf
    | with_reducible exact RegFile.setFld_wf
    | with_reducible exact RegFile.filter_wf
    | with_reducible exact fun w => RegFile.foldl_wf w (fun _ _ w => RegFile.put_wf w)
    | with_reducible exact (listModify_length _ _ _).trans
    | with_reducible exact fun _ => List.length_replicate
    | with_reducible exact List.length_map _ |>.trans
    | (intro x; refine (fun (hx : Persist r x) => ?_) ?_; clear_value x; rotate_left; subst x)
    | (intro x; have hs : (x : Safety) = x := rfl; clear hs; subst x)
    | (intro x; clear_value x)
    | (intro x)
    | lift_lets
    | with_reducible apply State.bootResult_persists
    | with_reducible apply State.set_persists
    | with_reducible apply State.lockSafety_persists
    | with_reducible apply State.emit_persists
    | with_reducible apply State.enterTrain_persist
    | with_reducible apply OutPersist.ok
    | with_reducible apply OutPersist.ite
    | with_reducible apply Persist.ite
    | (with_reducible refine Persist.foldl ?_ (fun _ _ _ => ?_))
    | split
    | with_reducible apply Persist.upd)

theorem State.spdFailed_keeps {r : State} {s : State} {n : Nat} (h : Keeps r s) :
    Keeps r (State.spdFailed s n) := by
  unfold State.spdFailed
  repeat' (first
    | with_reducible assumption
    | with_reducible exact rfl
    | with_reducible exact id
    | with_reducible exact RegFile.put_wf
    | with_reducible exact RegFile.setFld_wf
    | with_reducible exact RegFile.filter_wf
    | with_reducible exact fun w => RegFile.foldl_wf w (fun _ _ w => RegFile.put_wf w)
    | with_reducible exact (listModify_length _ _ _).trans
    | with_reducible exact fun _ => List.length_replicate
    | with_reducible exact List.length_map _ |>.trans
    | (intro x; refine (fun (hx : Keeps r x) => ?_) ?_; clear_value x; rotate_left; subst x)
    | (intro x; refine (fun (hx : FstKeeps r x) => ?_) ?_; clear_value x; rotate_left; subst x)
    | (intro x; refine (fun (hf0 : ∀ s, Keeps r s → Keeps r (x s)) => ?_) ?_; clear_value x; rotate_left; subst x; intro _ _)
    | (intro x; refine (fun (hf1 : ∀ s c, Keeps r s → Keeps r (x s c)) => ?_) ?_; clear_value x; rotate_left; subst x; intro _ _ _)
    | (intro x; refine (fun (hf2 : ∀ c, Keeps r (x c)) => ?_) ?_; clear_value x; rotate_left; subst x; intro _)
    | (intro x; have hs : (x : Safety) = x := rfl; clear hs; subst x)
    | (intro x; clear_value x)
    | (intro x)
    | lift_lets
    | with_reducible apply State.bump_keeps
    | with_reducible apply State.channelLost_keeps
    | with_reducible apply Keeps.ite
    | (with_reducible refine Keeps.foldl ?_ (fun _ _ _ => ?_))
    | with_reducible apply hf0
    | with_reducible apply hf2
    | with_reducible apply hf1
    | with_reducible apply Keeps.upd)

theorem execSpdTransferDone_keeps {r : State} {n : Nat} {ack : Bool} {s : State} (h : Keeps r s) :
    OutKeeps r (execSpdTransferDone n ack s) := by
  unfold execSpdTransferDone
  repeat' (first
    | with_reducible assumption
    | with_reducible exact rfl
    | with_reducible exact id
    | with_reducible exact RegFile.put_wf
    | with_reducible exact RegFile.setFld_wf
    | with_reducible exact RegFile.filter_wf
    | with_reducible exact fun w => RegFile.foldl_wf w (fun _ _ w => RegFile.put_wf w)
    | with_reducible exact (listModify_length _ _ _).trans
    | with_reducible exact fun _ => List.length_replicate
    | with_reducible exact List.length_map _ |>.trans
    | (intro x; refine (fun (hx : Keeps r x) => ?_) ?_; clear_value x; rotate_left; subst x)
    | (intro x; refine (fun (hx : FstKeeps r x) => ?_) ?_; clear_value x; rotate_left; subst x)
    | (intro x; refine (fun (hf0 : ∀ s, Keeps r s → Keeps r (x s)) => ?_) ?_; clear_value x; rotate_left; subst x; intro _ _)
    | (intro x; refine (fun (hf1 : ∀ s c, Keeps r s → Keeps r (x s c)) => ?_) ?_; clear_value x; rotate_left; subst x; intro _ _ _)
    | (intro x; refine (fun (hf2 : ∀ c, Keeps r (x c)) => ?_) ?_; clear_value x; rotate_left; subst x; intro _)
    | (intro x; have hs : (x : Safety) = x := rfl; clear hs; subst x)
    | (intro x; clear_value x)
    | (intro x)
    | lift_lets
    | with_reducible apply State.set_keeps
    | with_reducible apply State.spdFailed_keeps
    | with_reducible apply OutKeeps.ok
    | with_reducible apply OutKeeps.ite
    | with_reducible apply Keeps.ite
    | (with_reducible refine Keeps.foldl ?_ (fun _ _ _ => ?_))
    | with_reducible apply hf0
    | with_reducible apply hf2
    | with_reducible apply hf1
    | with_reducible apply Keeps.upd)

theorem execSpdTransferTimeout_keeps {r : State} {n : Nat} {s : State} (h : Keeps r s) :
    OutKeeps r (execSpdTransferTimeout n s) := by
  unfold execSpdTransferTimeout
  repeat' (first
    | with_reducible assumption
    | with_reducible exact rfl
    | with_reducible exact id
    | with_reducible exact RegFile.put_wf
    | with_reducible exact RegFile.setFld_wf
    | with_reducible exact RegFile.filter_wf
    | with_reducible exact fun w => RegFile.foldl_wf w (fun _ _ w => RegFile.put_wf w)
    | with_reducible exact (listModify_length _ _ _).trans
    | with_reducible exact fun _ => List.length_replicate
    | with_reducible exact List.length_map _ |>.trans
    | (intro x; refine (fun (hx : Keeps r x) => ?_) ?_; clear_value x; rotate_left; subst x)
    | (intro x; refine (fun (hx : FstKeeps r x) => ?_) ?_; clear_value x; rotate_left; subst x)
    | (intro x; refine (fun (hf0 : ∀ s, Keeps r s → Keeps r (x s)) => ?_) ?_; clear_value x; rotate_left; subst x; intro _ _)
    | (intro x; refine (fun (hf1 : ∀ s c, Keeps r s → Keeps r (x s c)) => ?_) ?_; clear_value x; rotate_left; subst x; intro _ _ _)
    | (intro x; refine (fun (hf2 : ∀ c, Keeps r (x c)) => ?_) ?_; clear_value x; rotate_left; subst x; intro _)
    | (intro x; have hs : (x : Safety) = x := rfl; clear hs; subst x)
    | (intro x; clear_value x)
    | (intro x)
    | lift_lets
    | with_reducible apply State.spdFailed_keeps
    | with_reducible apply OutKeeps.ok
    | with_reducible apply OutKeeps.ite
    | with_reducible apply Keeps.ite
    | (with_reducible refine Keeps.foldl ?_ (fun _ _ _ => ?_))
    | with_reducible apply hf0
    | with_reducible apply hf2
    | with_reducible apply hf1
    | with_reducible apply Keeps.upd)

end Sys2Proof.Machine
end

