-- ==== Sys2Proof/Laws/State.lean ====
section
/-! SUPPORT. What each shared update of `State` leaves alone: one lemma per field per update. -/
namespace Sys2Proof.Machine.State

/-! ## set -/

@[simp] theorem set_pending (s : State) (f : Fld) (x i j : Nat) : (s.set f x i j).pending = s.pending := rfl
@[simp] theorem set_out (s : State) (f : Fld) (x i j : Nat) : (s.set f x i j).out = s.out := rfl
@[simp] theorem set_free (s : State) (f : Fld) (x i j : Nat) : (s.set f x i j).free = s.free := rfl
@[simp] theorem set_up (s : State) (f : Fld) (x i j : Nat) : (s.set f x i j).up = s.up := rfl
@[simp] theorem set_now (s : State) (f : Fld) (x i j : Nat) : (s.set f x i j).now = s.now := rfl
@[simp] theorem set_dev (s : State) (f : Fld) (x i j : Nat) : (s.set f x i j).dev = s.dev := rfl
@[simp] theorem set_prev (s : State) (f : Fld) (x i j : Nat) : (s.set f x i j).prev = s.prev := rfl
@[simp] theorem set_cause (s : State) (f : Fld) (x i j : Nat) : (s.set f x i j).cause = s.cause := rfl
@[simp] theorem set_inForce (s : State) (f : Fld) (x i j : Nat) : (s.set f x i j).inForce = s.inForce := rfl
@[simp] theorem set_cpInForce (s : State) (f : Fld) (x i j : Nat) : (s.set f x i j).cpInForce = s.cpInForce := rfl
@[simp] theorem set_pllMain (s : State) (f : Fld) (x i j : Nat) : (s.set f x i j).pllMain = s.pllMain := rfl
@[simp] theorem set_pllCs (s : State) (f : Fld) (x i j : Nat) : (s.set f x i j).pllCs = s.pllCs := rfl
@[simp] theorem set_pllPv (s : State) (f : Fld) (x i j : Nat) : (s.set f x i j).pllPv = s.pllPv := rfl
@[simp] theorem set_domLost (s : State) (f : Fld) (x i j : Nat) : (s.set f x i j).domLost = s.domLost := rfl
@[simp] theorem set_trainAt (s : State) (f : Fld) (x i j : Nat) : (s.set f x i j).trainAt = s.trainAt := rfl
@[simp] theorem set_vddaon (s : State) (f : Fld) (x i j : Nat) : (s.set f x i j).vddaon = s.vddaon := rfl
@[simp] theorem set_groups (s : State) (f : Fld) (x i j : Nat) : (s.set f x i j).groups = s.groups := rfl
@[simp] theorem set_rig (s : State) (f : Fld) (x i j : Nat) : (s.set f x i j).rig = s.rig := rfl
@[simp] theorem set_boot (s : State) (f : Fld) (x i j : Nat) : (s.set f x i j).boot = s.boot := rfl
@[simp] theorem set_ctl (s : State) (f : Fld) (x i j : Nat) : (s.set f x i j).ctl = s.ctl := rfl
@[simp] theorem set_safety (s : State) (f : Fld) (x i j : Nat) : (s.set f x i j).safety = s.safety := rfl
@[simp] theorem set_cis (s : State) (f : Fld) (x i j : Nat) : (s.set f x i j).cis = s.cis := rfl
@[simp] theorem set_thermal (s : State) (f : Fld) (x i j : Nat) : (s.set f x i j).thermal = s.thermal := rfl
@[simp] theorem set_deal (s : State) (f : Fld) (x i j : Nat) : (s.set f x i j).deal = s.deal := rfl
@[simp] theorem set_vcPackets (s : State) (f : Fld) (x i j : Nat) : (s.set f x i j).vcPackets = s.vcPackets := rfl
@[simp] theorem set_ceVc (s : State) (f : Fld) (x i j : Nat) : (s.set f x i j).ceVc = s.ceVc := rfl
@[simp] theorem set_repl (s : State) (f : Fld) (x i j : Nat) : (s.set f x i j).repl = s.repl := rfl
@[simp] theorem set_markerCount (s : State) (f : Fld) (x i j : Nat) :
    (s.set f x i j).markerCount = s.markerCount := rfl
@[simp] theorem set_markerAt (s : State) (f : Fld) (x i j : Nat) : (s.set f x i j).markerAt = s.markerAt := rfl
@[simp] theorem set_lastHeader (s : State) (f : Fld) (x i j : Nat) : (s.set f x i j).lastHeader = s.lastHeader := rfl
@[simp] theorem set_joined (s : State) (f : Fld) (x i j : Nat) : (s.set f x i j).joined = s.joined := rfl
@[simp] theorem set_commits (s : State) (f : Fld) (x i j : Nat) : (s.set f x i j).commits = s.commits := rfl
@[simp] theorem set_cpCommits (s : State) (f : Fld) (x i j : Nat) : (s.set f x i j).cpCommits = s.cpCommits := rfl
@[simp] theorem set_dropped (s : State) (f : Fld) (x i j : Nat) : (s.set f x i j).dropped = s.dropped := rfl
@[simp] theorem set_covered (s : State) (f : Fld) (x i j : Nat) : (s.set f x i j).covered = s.covered := rfl
@[simp] theorem set_tbs (s : State) (f : Fld) (x i j : Nat) : (s.set f x i j).tbs = s.tbs := rfl
@[simp] theorem set_slots (s : State) (f : Fld) (x i j : Nat) : (s.set f x i j).slots = s.slots := rfl
@[simp] theorem set_reqs (s : State) (f : Fld) (x i j : Nat) : (s.set f x i j).reqs = s.reqs := rfl
@[simp] theorem set_gal (s : State) (f : Fld) (x i j : Nat) : (s.set f x i j).gal = s.gal := rfl
@[simp] theorem set_trig (s : State) (f : Fld) (x i j : Nat) : (s.set f x i j).trig = s.trig := rfl
@[simp] theorem set_execs (s : State) (f : Fld) (x i j : Nat) : (s.set f x i j).execs = s.execs := rfl
@[simp] theorem set_lastUpdate (s : State) (f : Fld) (x i j : Nat) : (s.set f x i j).lastUpdate = s.lastUpdate := rfl
@[simp] theorem set_lastArmed (s : State) (f : Fld) (x i j : Nat) : (s.set f x i j).lastArmed = s.lastArmed := rfl
@[simp] theorem set_frames (s : State) (f : Fld) (x i j : Nat) : (s.set f x i j).frames = s.frames := rfl
@[simp] theorem set_expo (s : State) (f : Fld) (x i j : Nat) : (s.set f x i j).expo = s.expo := rfl
@[simp] theorem set_rd (s : State) (f : Fld) (x i j : Nat) : (s.set f x i j).rd = s.rd := rfl
@[simp] theorem set_trk (s : State) (f : Fld) (x i j : Nat) : (s.set f x i j).trk = s.trk := rfl
@[simp] theorem set_flt (s : State) (f : Fld) (x i j : Nat) : (s.set f x i j).flt = s.flt := rfl
@[simp] theorem set_s2 (s : State) (f : Fld) (x i j : Nat) : (s.set f x i j).s2 = s.s2 := rfl
@[simp] theorem set_sense (s : State) (f : Fld) (x i j : Nat) : (s.set f x i j).sense = s.sense := rfl
@[simp] theorem set_otp (s : State) (f : Fld) (x i j : Nat) : (s.set f x i j).otp = s.otp := rfl

/-! ## setS -/

@[simp] theorem setS_pending (s : State) (f : Fld) (x : Int) (i j : Nat) : (s.setS f x i j).pending = s.pending := rfl
@[simp] theorem setS_out (s : State) (f : Fld) (x : Int) (i j : Nat) : (s.setS f x i j).out = s.out := rfl
@[simp] theorem setS_free (s : State) (f : Fld) (x : Int) (i j : Nat) : (s.setS f x i j).free = s.free := rfl
@[simp] theorem setS_up (s : State) (f : Fld) (x : Int) (i j : Nat) : (s.setS f x i j).up = s.up := rfl
@[simp] theorem setS_now (s : State) (f : Fld) (x : Int) (i j : Nat) : (s.setS f x i j).now = s.now := rfl
@[simp] theorem setS_dev (s : State) (f : Fld) (x : Int) (i j : Nat) : (s.setS f x i j).dev = s.dev := rfl
@[simp] theorem setS_prev (s : State) (f : Fld) (x : Int) (i j : Nat) : (s.setS f x i j).prev = s.prev := rfl
@[simp] theorem setS_cause (s : State) (f : Fld) (x : Int) (i j : Nat) : (s.setS f x i j).cause = s.cause := rfl
@[simp] theorem setS_inForce (s : State) (f : Fld) (x : Int) (i j : Nat) : (s.setS f x i j).inForce = s.inForce := rfl
@[simp] theorem setS_cpInForce (s : State) (f : Fld) (x : Int) (i j : Nat) :
    (s.setS f x i j).cpInForce = s.cpInForce := rfl
@[simp] theorem setS_pllMain (s : State) (f : Fld) (x : Int) (i j : Nat) : (s.setS f x i j).pllMain = s.pllMain := rfl
@[simp] theorem setS_pllCs (s : State) (f : Fld) (x : Int) (i j : Nat) : (s.setS f x i j).pllCs = s.pllCs := rfl
@[simp] theorem setS_pllPv (s : State) (f : Fld) (x : Int) (i j : Nat) : (s.setS f x i j).pllPv = s.pllPv := rfl
@[simp] theorem setS_domLost (s : State) (f : Fld) (x : Int) (i j : Nat) : (s.setS f x i j).domLost = s.domLost := rfl
@[simp] theorem setS_trainAt (s : State) (f : Fld) (x : Int) (i j : Nat) : (s.setS f x i j).trainAt = s.trainAt := rfl
@[simp] theorem setS_vddaon (s : State) (f : Fld) (x : Int) (i j : Nat) : (s.setS f x i j).vddaon = s.vddaon := rfl
@[simp] theorem setS_groups (s : State) (f : Fld) (x : Int) (i j : Nat) : (s.setS f x i j).groups = s.groups := rfl
@[simp] theorem setS_rig (s : State) (f : Fld) (x : Int) (i j : Nat) : (s.setS f x i j).rig = s.rig := rfl
@[simp] theorem setS_boot (s : State) (f : Fld) (x : Int) (i j : Nat) : (s.setS f x i j).boot = s.boot := rfl
@[simp] theorem setS_ctl (s : State) (f : Fld) (x : Int) (i j : Nat) : (s.setS f x i j).ctl = s.ctl := rfl
@[simp] theorem setS_safety (s : State) (f : Fld) (x : Int) (i j : Nat) : (s.setS f x i j).safety = s.safety := rfl
@[simp] theorem setS_cis (s : State) (f : Fld) (x : Int) (i j : Nat) : (s.setS f x i j).cis = s.cis := rfl
@[simp] theorem setS_thermal (s : State) (f : Fld) (x : Int) (i j : Nat) : (s.setS f x i j).thermal = s.thermal := rfl
@[simp] theorem setS_deal (s : State) (f : Fld) (x : Int) (i j : Nat) : (s.setS f x i j).deal = s.deal := rfl
@[simp] theorem setS_vcPackets (s : State) (f : Fld) (x : Int) (i j : Nat) :
    (s.setS f x i j).vcPackets = s.vcPackets := rfl
@[simp] theorem setS_ceVc (s : State) (f : Fld) (x : Int) (i j : Nat) : (s.setS f x i j).ceVc = s.ceVc := rfl
@[simp] theorem setS_repl (s : State) (f : Fld) (x : Int) (i j : Nat) : (s.setS f x i j).repl = s.repl := rfl
@[simp] theorem setS_markerCount (s : State) (f : Fld) (x : Int) (i j : Nat) :
    (s.setS f x i j).markerCount = s.markerCount := rfl
@[simp] theorem setS_markerAt (s : State) (f : Fld) (x : Int) (i j : Nat) :
    (s.setS f x i j).markerAt = s.markerAt := rfl
@[simp] theorem setS_lastHeader (s : State) (f : Fld) (x : Int) (i j : Nat) :
    (s.setS f x i j).lastHeader = s.lastHeader := rfl
@[simp] theorem setS_joined (s : State) (f : Fld) (x : Int) (i j : Nat) :
    (s.setS f x i j).joined = s.joined := rfl
@[simp] theorem setS_commits (s : State) (f : Fld) (x : Int) (i j : Nat) : (s.setS f x i j).commits = s.commits := rfl
@[simp] theorem setS_cpCommits (s : State) (f : Fld) (x : Int) (i j : Nat) :
    (s.setS f x i j).cpCommits = s.cpCommits := rfl
@[simp] theorem setS_dropped (s : State) (f : Fld) (x : Int) (i j : Nat) : (s.setS f x i j).dropped = s.dropped := rfl
@[simp] theorem setS_covered (s : State) (f : Fld) (x : Int) (i j : Nat) : (s.setS f x i j).covered = s.covered := rfl
@[simp] theorem setS_tbs (s : State) (f : Fld) (x : Int) (i j : Nat) : (s.setS f x i j).tbs = s.tbs := rfl
@[simp] theorem setS_slots (s : State) (f : Fld) (x : Int) (i j : Nat) : (s.setS f x i j).slots = s.slots := rfl
@[simp] theorem setS_reqs (s : State) (f : Fld) (x : Int) (i j : Nat) : (s.setS f x i j).reqs = s.reqs := rfl
@[simp] theorem setS_gal (s : State) (f : Fld) (x : Int) (i j : Nat) : (s.setS f x i j).gal = s.gal := rfl
@[simp] theorem setS_trig (s : State) (f : Fld) (x : Int) (i j : Nat) : (s.setS f x i j).trig = s.trig := rfl
@[simp] theorem setS_execs (s : State) (f : Fld) (x : Int) (i j : Nat) : (s.setS f x i j).execs = s.execs := rfl
@[simp] theorem setS_lastUpdate (s : State) (f : Fld) (x : Int) (i j : Nat) :
    (s.setS f x i j).lastUpdate = s.lastUpdate := rfl
@[simp] theorem setS_lastArmed (s : State) (f : Fld) (x : Int) (i j : Nat) :
    (s.setS f x i j).lastArmed = s.lastArmed := rfl
@[simp] theorem setS_frames (s : State) (f : Fld) (x : Int) (i j : Nat) : (s.setS f x i j).frames = s.frames := rfl
@[simp] theorem setS_expo (s : State) (f : Fld) (x : Int) (i j : Nat) : (s.setS f x i j).expo = s.expo := rfl
@[simp] theorem setS_rd (s : State) (f : Fld) (x : Int) (i j : Nat) : (s.setS f x i j).rd = s.rd := rfl
@[simp] theorem setS_trk (s : State) (f : Fld) (x : Int) (i j : Nat) : (s.setS f x i j).trk = s.trk := rfl
@[simp] theorem setS_flt (s : State) (f : Fld) (x : Int) (i j : Nat) : (s.setS f x i j).flt = s.flt := rfl
@[simp] theorem setS_s2 (s : State) (f : Fld) (x : Int) (i j : Nat) : (s.setS f x i j).s2 = s.s2 := rfl
@[simp] theorem setS_sense (s : State) (f : Fld) (x : Int) (i j : Nat) : (s.setS f x i j).sense = s.sense := rfl
@[simp] theorem setS_otp (s : State) (f : Fld) (x : Int) (i j : Nat) : (s.setS f x i j).otp = s.otp := rfl

/-! ## bump -/

@[simp] theorem bump_pending (s : State) (f : Fld) (n i j : Nat) : (s.bump f n i j).pending = s.pending := rfl
@[simp] theorem bump_out (s : State) (f : Fld) (n i j : Nat) : (s.bump f n i j).out = s.out := rfl
@[simp] theorem bump_free (s : State) (f : Fld) (n i j : Nat) : (s.bump f n i j).free = s.free := rfl
@[simp] theorem bump_up (s : State) (f : Fld) (n i j : Nat) : (s.bump f n i j).up = s.up := rfl
@[simp] theorem bump_now (s : State) (f : Fld) (n i j : Nat) : (s.bump f n i j).now = s.now := rfl
@[simp] theorem bump_dev (s : State) (f : Fld) (n i j : Nat) : (s.bump f n i j).dev = s.dev := rfl
@[simp] theorem bump_prev (s : State) (f : Fld) (n i j : Nat) : (s.bump f n i j).prev = s.prev := rfl
@[simp] theorem bump_cause (s : State) (f : Fld) (n i j : Nat) : (s.bump f n i j).cause = s.cause := rfl
@[simp] theorem bump_inForce (s : State) (f : Fld) (n i j : Nat) : (s.bump f n i j).inForce = s.inForce := rfl
@[simp] theorem bump_cpInForce (s : State) (f : Fld) (n i j : Nat) : (s.bump f n i j).cpInForce = s.cpInForce := rfl
@[simp] theorem bump_pllMain (s : State) (f : Fld) (n i j : Nat) : (s.bump f n i j).pllMain = s.pllMain := rfl
@[simp] theorem bump_pllCs (s : State) (f : Fld) (n i j : Nat) : (s.bump f n i j).pllCs = s.pllCs := rfl
@[simp] theorem bump_pllPv (s : State) (f : Fld) (n i j : Nat) : (s.bump f n i j).pllPv = s.pllPv := rfl
@[simp] theorem bump_domLost (s : State) (f : Fld) (n i j : Nat) : (s.bump f n i j).domLost = s.domLost := rfl
@[simp] theorem bump_trainAt (s : State) (f : Fld) (n i j : Nat) : (s.bump f n i j).trainAt = s.trainAt := rfl
@[simp] theorem bump_vddaon (s : State) (f : Fld) (n i j : Nat) : (s.bump f n i j).vddaon = s.vddaon := rfl
@[simp] theorem bump_groups (s : State) (f : Fld) (n i j : Nat) : (s.bump f n i j).groups = s.groups := rfl
@[simp] theorem bump_rig (s : State) (f : Fld) (n i j : Nat) : (s.bump f n i j).rig = s.rig := rfl
@[simp] theorem bump_boot (s : State) (f : Fld) (n i j : Nat) : (s.bump f n i j).boot = s.boot := rfl
@[simp] theorem bump_ctl (s : State) (f : Fld) (n i j : Nat) : (s.bump f n i j).ctl = s.ctl := rfl
@[simp] theorem bump_safety (s : State) (f : Fld) (n i j : Nat) : (s.bump f n i j).safety = s.safety := rfl
@[simp] theorem bump_cis (s : State) (f : Fld) (n i j : Nat) : (s.bump f n i j).cis = s.cis := rfl
@[simp] theorem bump_thermal (s : State) (f : Fld) (n i j : Nat) : (s.bump f n i j).thermal = s.thermal := rfl
@[simp] theorem bump_deal (s : State) (f : Fld) (n i j : Nat) : (s.bump f n i j).deal = s.deal := rfl
@[simp] theorem bump_vcPackets (s : State) (f : Fld) (n i j : Nat) : (s.bump f n i j).vcPackets = s.vcPackets := rfl
@[simp] theorem bump_ceVc (s : State) (f : Fld) (n i j : Nat) : (s.bump f n i j).ceVc = s.ceVc := rfl
@[simp] theorem bump_repl (s : State) (f : Fld) (n i j : Nat) : (s.bump f n i j).repl = s.repl := rfl
@[simp] theorem bump_markerCount (s : State) (f : Fld) (n i j : Nat) :
    (s.bump f n i j).markerCount = s.markerCount := rfl
@[simp] theorem bump_markerAt (s : State) (f : Fld) (n i j : Nat) : (s.bump f n i j).markerAt = s.markerAt := rfl
@[simp] theorem bump_lastHeader (s : State) (f : Fld) (n i j : Nat) :
    (s.bump f n i j).lastHeader = s.lastHeader := rfl
@[simp] theorem bump_joined (s : State) (f : Fld) (n i j : Nat) :
    (s.bump f n i j).joined = s.joined := rfl
@[simp] theorem bump_commits (s : State) (f : Fld) (n i j : Nat) : (s.bump f n i j).commits = s.commits := rfl
@[simp] theorem bump_cpCommits (s : State) (f : Fld) (n i j : Nat) : (s.bump f n i j).cpCommits = s.cpCommits := rfl
@[simp] theorem bump_dropped (s : State) (f : Fld) (n i j : Nat) : (s.bump f n i j).dropped = s.dropped := rfl
@[simp] theorem bump_covered (s : State) (f : Fld) (n i j : Nat) : (s.bump f n i j).covered = s.covered := rfl
@[simp] theorem bump_tbs (s : State) (f : Fld) (n i j : Nat) : (s.bump f n i j).tbs = s.tbs := rfl
@[simp] theorem bump_slots (s : State) (f : Fld) (n i j : Nat) : (s.bump f n i j).slots = s.slots := rfl
@[simp] theorem bump_reqs (s : State) (f : Fld) (n i j : Nat) : (s.bump f n i j).reqs = s.reqs := rfl
@[simp] theorem bump_gal (s : State) (f : Fld) (n i j : Nat) : (s.bump f n i j).gal = s.gal := rfl
@[simp] theorem bump_trig (s : State) (f : Fld) (n i j : Nat) : (s.bump f n i j).trig = s.trig := rfl
@[simp] theorem bump_execs (s : State) (f : Fld) (n i j : Nat) : (s.bump f n i j).execs = s.execs := rfl
@[simp] theorem bump_lastUpdate (s : State) (f : Fld) (n i j : Nat) :
    (s.bump f n i j).lastUpdate = s.lastUpdate := rfl
@[simp] theorem bump_lastArmed (s : State) (f : Fld) (n i j : Nat) : (s.bump f n i j).lastArmed = s.lastArmed := rfl
@[simp] theorem bump_frames (s : State) (f : Fld) (n i j : Nat) : (s.bump f n i j).frames = s.frames := rfl
@[simp] theorem bump_expo (s : State) (f : Fld) (n i j : Nat) : (s.bump f n i j).expo = s.expo := rfl
@[simp] theorem bump_rd (s : State) (f : Fld) (n i j : Nat) : (s.bump f n i j).rd = s.rd := rfl
@[simp] theorem bump_trk (s : State) (f : Fld) (n i j : Nat) : (s.bump f n i j).trk = s.trk := rfl
@[simp] theorem bump_flt (s : State) (f : Fld) (n i j : Nat) : (s.bump f n i j).flt = s.flt := rfl
@[simp] theorem bump_s2 (s : State) (f : Fld) (n i j : Nat) : (s.bump f n i j).s2 = s.s2 := rfl
@[simp] theorem bump_sense (s : State) (f : Fld) (n i j : Nat) : (s.bump f n i j).sense = s.sense := rfl
@[simp] theorem bump_otp (s : State) (f : Fld) (n i j : Nat) : (s.bump f n i j).otp = s.otp := rfl

/-! ## emit -/

@[simp] theorem emit_pending (s : State) (o : Out) : (s.emit o).pending = s.pending := rfl
@[simp] theorem emit_free (s : State) (o : Out) : (s.emit o).free = s.free := rfl
@[simp] theorem emit_up (s : State) (o : Out) : (s.emit o).up = s.up := rfl
@[simp] theorem emit_now (s : State) (o : Out) : (s.emit o).now = s.now := rfl
@[simp] theorem emit_dev (s : State) (o : Out) : (s.emit o).dev = s.dev := rfl
@[simp] theorem emit_prev (s : State) (o : Out) : (s.emit o).prev = s.prev := rfl
@[simp] theorem emit_cause (s : State) (o : Out) : (s.emit o).cause = s.cause := rfl
@[simp] theorem emit_regs (s : State) (o : Out) : (s.emit o).regs = s.regs := rfl
@[simp] theorem emit_hot (s : State) (o : Out) : (s.emit o).hot = s.hot := rfl
@[simp] theorem emit_inForce (s : State) (o : Out) : (s.emit o).inForce = s.inForce := rfl
@[simp] theorem emit_cpInForce (s : State) (o : Out) : (s.emit o).cpInForce = s.cpInForce := rfl
@[simp] theorem emit_pllMain (s : State) (o : Out) : (s.emit o).pllMain = s.pllMain := rfl
@[simp] theorem emit_pllCs (s : State) (o : Out) : (s.emit o).pllCs = s.pllCs := rfl
@[simp] theorem emit_pllPv (s : State) (o : Out) : (s.emit o).pllPv = s.pllPv := rfl
@[simp] theorem emit_domLost (s : State) (o : Out) : (s.emit o).domLost = s.domLost := rfl
@[simp] theorem emit_trainAt (s : State) (o : Out) : (s.emit o).trainAt = s.trainAt := rfl
@[simp] theorem emit_vddaon (s : State) (o : Out) : (s.emit o).vddaon = s.vddaon := rfl
@[simp] theorem emit_groups (s : State) (o : Out) : (s.emit o).groups = s.groups := rfl
@[simp] theorem emit_rig (s : State) (o : Out) : (s.emit o).rig = s.rig := rfl
@[simp] theorem emit_boot (s : State) (o : Out) : (s.emit o).boot = s.boot := rfl
@[simp] theorem emit_ctl (s : State) (o : Out) : (s.emit o).ctl = s.ctl := rfl
@[simp] theorem emit_safety (s : State) (o : Out) : (s.emit o).safety = s.safety := rfl
@[simp] theorem emit_cis (s : State) (o : Out) : (s.emit o).cis = s.cis := rfl
@[simp] theorem emit_thermal (s : State) (o : Out) : (s.emit o).thermal = s.thermal := rfl
@[simp] theorem emit_deal (s : State) (o : Out) : (s.emit o).deal = s.deal := rfl
@[simp] theorem emit_vcPackets (s : State) (o : Out) : (s.emit o).vcPackets = s.vcPackets := rfl
@[simp] theorem emit_ceVc (s : State) (o : Out) : (s.emit o).ceVc = s.ceVc := rfl
@[simp] theorem emit_repl (s : State) (o : Out) : (s.emit o).repl = s.repl := rfl
@[simp] theorem emit_markerCount (s : State) (o : Out) : (s.emit o).markerCount = s.markerCount := rfl
@[simp] theorem emit_markerAt (s : State) (o : Out) : (s.emit o).markerAt = s.markerAt := rfl
@[simp] theorem emit_lastHeader (s : State) (o : Out) : (s.emit o).lastHeader = s.lastHeader := rfl
@[simp] theorem emit_joined (s : State) (o : Out) : (s.emit o).joined = s.joined := rfl
@[simp] theorem emit_commits (s : State) (o : Out) : (s.emit o).commits = s.commits := rfl
@[simp] theorem emit_cpCommits (s : State) (o : Out) : (s.emit o).cpCommits = s.cpCommits := rfl
@[simp] theorem emit_dropped (s : State) (o : Out) : (s.emit o).dropped = s.dropped := rfl
@[simp] theorem emit_covered (s : State) (o : Out) : (s.emit o).covered = s.covered := rfl
@[simp] theorem emit_tbs (s : State) (o : Out) : (s.emit o).tbs = s.tbs := rfl
@[simp] theorem emit_slots (s : State) (o : Out) : (s.emit o).slots = s.slots := rfl
@[simp] theorem emit_reqs (s : State) (o : Out) : (s.emit o).reqs = s.reqs := rfl
@[simp] theorem emit_gal (s : State) (o : Out) : (s.emit o).gal = s.gal := rfl
@[simp] theorem emit_trig (s : State) (o : Out) : (s.emit o).trig = s.trig := rfl
@[simp] theorem emit_execs (s : State) (o : Out) : (s.emit o).execs = s.execs := rfl
@[simp] theorem emit_lastUpdate (s : State) (o : Out) : (s.emit o).lastUpdate = s.lastUpdate := rfl
@[simp] theorem emit_lastArmed (s : State) (o : Out) : (s.emit o).lastArmed = s.lastArmed := rfl
@[simp] theorem emit_frames (s : State) (o : Out) : (s.emit o).frames = s.frames := rfl
@[simp] theorem emit_expo (s : State) (o : Out) : (s.emit o).expo = s.expo := rfl
@[simp] theorem emit_rd (s : State) (o : Out) : (s.emit o).rd = s.rd := rfl
@[simp] theorem emit_trk (s : State) (o : Out) : (s.emit o).trk = s.trk := rfl
@[simp] theorem emit_flt (s : State) (o : Out) : (s.emit o).flt = s.flt := rfl
@[simp] theorem emit_s2 (s : State) (o : Out) : (s.emit o).s2 = s.s2 := rfl
@[simp] theorem emit_sense (s : State) (o : Out) : (s.emit o).sense = s.sense := rfl
@[simp] theorem emit_otp (s : State) (o : Out) : (s.emit o).otp = s.otp := rfl

/-! ## raiseBits -/

@[simp] theorem raiseBits_pending (s : State) (a m : Nat) : (s.raiseBits a m).pending = s.pending := rfl
@[simp] theorem raiseBits_out (s : State) (a m : Nat) : (s.raiseBits a m).out = s.out := rfl
@[simp] theorem raiseBits_free (s : State) (a m : Nat) : (s.raiseBits a m).free = s.free := rfl
@[simp] theorem raiseBits_up (s : State) (a m : Nat) : (s.raiseBits a m).up = s.up := rfl
@[simp] theorem raiseBits_now (s : State) (a m : Nat) : (s.raiseBits a m).now = s.now := rfl
@[simp] theorem raiseBits_dev (s : State) (a m : Nat) : (s.raiseBits a m).dev = s.dev := rfl
@[simp] theorem raiseBits_prev (s : State) (a m : Nat) : (s.raiseBits a m).prev = s.prev := rfl
@[simp] theorem raiseBits_cause (s : State) (a m : Nat) : (s.raiseBits a m).cause = s.cause := rfl
@[simp] theorem raiseBits_inForce (s : State) (a m : Nat) : (s.raiseBits a m).inForce = s.inForce := rfl
@[simp] theorem raiseBits_cpInForce (s : State) (a m : Nat) : (s.raiseBits a m).cpInForce = s.cpInForce := rfl
@[simp] theorem raiseBits_pllMain (s : State) (a m : Nat) : (s.raiseBits a m).pllMain = s.pllMain := rfl
@[simp] theorem raiseBits_pllCs (s : State) (a m : Nat) : (s.raiseBits a m).pllCs = s.pllCs := rfl
@[simp] theorem raiseBits_pllPv (s : State) (a m : Nat) : (s.raiseBits a m).pllPv = s.pllPv := rfl
@[simp] theorem raiseBits_domLost (s : State) (a m : Nat) : (s.raiseBits a m).domLost = s.domLost := rfl
@[simp] theorem raiseBits_trainAt (s : State) (a m : Nat) : (s.raiseBits a m).trainAt = s.trainAt := rfl
@[simp] theorem raiseBits_vddaon (s : State) (a m : Nat) : (s.raiseBits a m).vddaon = s.vddaon := rfl
@[simp] theorem raiseBits_groups (s : State) (a m : Nat) : (s.raiseBits a m).groups = s.groups := rfl
@[simp] theorem raiseBits_rig (s : State) (a m : Nat) : (s.raiseBits a m).rig = s.rig := rfl
@[simp] theorem raiseBits_boot (s : State) (a m : Nat) : (s.raiseBits a m).boot = s.boot := rfl
@[simp] theorem raiseBits_ctl (s : State) (a m : Nat) : (s.raiseBits a m).ctl = s.ctl := rfl
@[simp] theorem raiseBits_safety (s : State) (a m : Nat) : (s.raiseBits a m).safety = s.safety := rfl
@[simp] theorem raiseBits_cis (s : State) (a m : Nat) : (s.raiseBits a m).cis = s.cis := rfl
@[simp] theorem raiseBits_thermal (s : State) (a m : Nat) : (s.raiseBits a m).thermal = s.thermal := rfl
@[simp] theorem raiseBits_deal (s : State) (a m : Nat) : (s.raiseBits a m).deal = s.deal := rfl
@[simp] theorem raiseBits_vcPackets (s : State) (a m : Nat) : (s.raiseBits a m).vcPackets = s.vcPackets := rfl
@[simp] theorem raiseBits_ceVc (s : State) (a m : Nat) : (s.raiseBits a m).ceVc = s.ceVc := rfl
@[simp] theorem raiseBits_repl (s : State) (a m : Nat) : (s.raiseBits a m).repl = s.repl := rfl
@[simp] theorem raiseBits_markerCount (s : State) (a m : Nat) : (s.raiseBits a m).markerCount = s.markerCount := rfl
@[simp] theorem raiseBits_markerAt (s : State) (a m : Nat) : (s.raiseBits a m).markerAt = s.markerAt := rfl
@[simp] theorem raiseBits_lastHeader (s : State) (a m : Nat) : (s.raiseBits a m).lastHeader = s.lastHeader := rfl
@[simp] theorem raiseBits_joined (s : State) (a m : Nat) : (s.raiseBits a m).joined = s.joined := rfl
@[simp] theorem raiseBits_commits (s : State) (a m : Nat) : (s.raiseBits a m).commits = s.commits := rfl
@[simp] theorem raiseBits_cpCommits (s : State) (a m : Nat) : (s.raiseBits a m).cpCommits = s.cpCommits := rfl
@[simp] theorem raiseBits_dropped (s : State) (a m : Nat) : (s.raiseBits a m).dropped = s.dropped := rfl
@[simp] theorem raiseBits_covered (s : State) (a m : Nat) : (s.raiseBits a m).covered = s.covered := rfl
@[simp] theorem raiseBits_tbs (s : State) (a m : Nat) : (s.raiseBits a m).tbs = s.tbs := rfl
@[simp] theorem raiseBits_slots (s : State) (a m : Nat) : (s.raiseBits a m).slots = s.slots := rfl
@[simp] theorem raiseBits_reqs (s : State) (a m : Nat) : (s.raiseBits a m).reqs = s.reqs := rfl
@[simp] theorem raiseBits_gal (s : State) (a m : Nat) : (s.raiseBits a m).gal = s.gal := rfl
@[simp] theorem raiseBits_trig (s : State) (a m : Nat) : (s.raiseBits a m).trig = s.trig := rfl
@[simp] theorem raiseBits_execs (s : State) (a m : Nat) : (s.raiseBits a m).execs = s.execs := rfl
@[simp] theorem raiseBits_lastUpdate (s : State) (a m : Nat) : (s.raiseBits a m).lastUpdate = s.lastUpdate := rfl
@[simp] theorem raiseBits_lastArmed (s : State) (a m : Nat) : (s.raiseBits a m).lastArmed = s.lastArmed := rfl
@[simp] theorem raiseBits_frames (s : State) (a m : Nat) : (s.raiseBits a m).frames = s.frames := rfl
@[simp] theorem raiseBits_expo (s : State) (a m : Nat) : (s.raiseBits a m).expo = s.expo := rfl
@[simp] theorem raiseBits_rd (s : State) (a m : Nat) : (s.raiseBits a m).rd = s.rd := rfl
@[simp] theorem raiseBits_trk (s : State) (a m : Nat) : (s.raiseBits a m).trk = s.trk := rfl
@[simp] theorem raiseBits_flt (s : State) (a m : Nat) : (s.raiseBits a m).flt = s.flt := rfl
@[simp] theorem raiseBits_s2 (s : State) (a m : Nat) : (s.raiseBits a m).s2 = s.s2 := rfl
@[simp] theorem raiseBits_sense (s : State) (a m : Nat) : (s.raiseBits a m).sense = s.sense := rfl
@[simp] theorem raiseBits_otp (s : State) (a m : Nat) : (s.raiseBits a m).otp = s.otp := rfl

/-! ## setGroup -/

@[simp] theorem setGroup_pending (s : State) (g : Nat) (f : Group → Group) :
    (s.setGroup g f).pending = s.pending := rfl
@[simp] theorem setGroup_out (s : State) (g : Nat) (f : Group → Group) : (s.setGroup g f).out = s.out := rfl
@[simp] theorem setGroup_free (s : State) (g : Nat) (f : Group → Group) : (s.setGroup g f).free = s.free := rfl
@[simp] theorem setGroup_up (s : State) (g : Nat) (f : Group → Group) : (s.setGroup g f).up = s.up := rfl
@[simp] theorem setGroup_now (s : State) (g : Nat) (f : Group → Group) : (s.setGroup g f).now = s.now := rfl
@[simp] theorem setGroup_dev (s : State) (g : Nat) (f : Group → Group) : (s.setGroup g f).dev = s.dev := rfl
@[simp] theorem setGroup_prev (s : State) (g : Nat) (f : Group → Group) : (s.setGroup g f).prev = s.prev := rfl
@[simp] theorem setGroup_cause (s : State) (g : Nat) (f : Group → Group) : (s.setGroup g f).cause = s.cause := rfl
@[simp] theorem setGroup_regs (s : State) (g : Nat) (f : Group → Group) : (s.setGroup g f).regs = s.regs := rfl
@[simp] theorem setGroup_hot (s : State) (g : Nat) (f : Group → Group) : (s.setGroup g f).hot = s.hot := rfl
@[simp] theorem setGroup_inForce (s : State) (g : Nat) (f : Group → Group) :
    (s.setGroup g f).inForce = s.inForce := rfl
@[simp] theorem setGroup_cpInForce (s : State) (g : Nat) (f : Group → Group) :
    (s.setGroup g f).cpInForce = s.cpInForce := rfl
@[simp] theorem setGroup_pllMain (s : State) (g : Nat) (f : Group → Group) :
    (s.setGroup g f).pllMain = s.pllMain := rfl
@[simp] theorem setGroup_pllCs (s : State) (g : Nat) (f : Group → Group) : (s.setGroup g f).pllCs = s.pllCs := rfl
@[simp] theorem setGroup_pllPv (s : State) (g : Nat) (f : Group → Group) : (s.setGroup g f).pllPv = s.pllPv := rfl
@[simp] theorem setGroup_domLost (s : State) (g : Nat) (f : Group → Group) :
    (s.setGroup g f).domLost = s.domLost := rfl
@[simp] theorem setGroup_trainAt (s : State) (g : Nat) (f : Group → Group) :
    (s.setGroup g f).trainAt = s.trainAt := rfl
@[simp] theorem setGroup_vddaon (s : State) (g : Nat) (f : Group → Group) : (s.setGroup g f).vddaon = s.vddaon := rfl
@[simp] theorem setGroup_rig (s : State) (g : Nat) (f : Group → Group) : (s.setGroup g f).rig = s.rig := rfl
@[simp] theorem setGroup_boot (s : State) (g : Nat) (f : Group → Group) : (s.setGroup g f).boot = s.boot := rfl
@[simp] theorem setGroup_ctl (s : State) (g : Nat) (f : Group → Group) : (s.setGroup g f).ctl = s.ctl := rfl
@[simp] theorem setGroup_safety (s : State) (g : Nat) (f : Group → Group) : (s.setGroup g f).safety = s.safety := rfl
@[simp] theorem setGroup_cis (s : State) (g : Nat) (f : Group → Group) : (s.setGroup g f).cis = s.cis := rfl
@[simp] theorem setGroup_thermal (s : State) (g : Nat) (f : Group → Group) :
    (s.setGroup g f).thermal = s.thermal := rfl
@[simp] theorem setGroup_deal (s : State) (g : Nat) (f : Group → Group) : (s.setGroup g f).deal = s.deal := rfl
@[simp] theorem setGroup_vcPackets (s : State) (g : Nat) (f : Group → Group) :
    (s.setGroup g f).vcPackets = s.vcPackets := rfl
@[simp] theorem setGroup_ceVc (s : State) (g : Nat) (f : Group → Group) : (s.setGroup g f).ceVc = s.ceVc := rfl
@[simp] theorem setGroup_repl (s : State) (g : Nat) (f : Group → Group) : (s.setGroup g f).repl = s.repl := rfl
@[simp] theorem setGroup_markerCount (s : State) (g : Nat) (f : Group → Group) :
    (s.setGroup g f).markerCount = s.markerCount := rfl
@[simp] theorem setGroup_markerAt (s : State) (g : Nat) (f : Group → Group) :
    (s.setGroup g f).markerAt = s.markerAt := rfl
@[simp] theorem setGroup_lastHeader (s : State) (g : Nat) (f : Group → Group) :
    (s.setGroup g f).lastHeader = s.lastHeader := rfl
@[simp] theorem setGroup_joined (s : State) (g : Nat) (f : Group → Group) :
    (s.setGroup g f).joined = s.joined := rfl
@[simp] theorem setGroup_commits (s : State) (g : Nat) (f : Group → Group) :
    (s.setGroup g f).commits = s.commits := rfl
@[simp] theorem setGroup_cpCommits (s : State) (g : Nat) (f : Group → Group) :
    (s.setGroup g f).cpCommits = s.cpCommits := rfl
@[simp] theorem setGroup_dropped (s : State) (g : Nat) (f : Group → Group) :
    (s.setGroup g f).dropped = s.dropped := rfl
@[simp] theorem setGroup_covered (s : State) (g : Nat) (f : Group → Group) :
    (s.setGroup g f).covered = s.covered := rfl
@[simp] theorem setGroup_tbs (s : State) (g : Nat) (f : Group → Group) : (s.setGroup g f).tbs = s.tbs := rfl
@[simp] theorem setGroup_slots (s : State) (g : Nat) (f : Group → Group) : (s.setGroup g f).slots = s.slots := rfl
@[simp] theorem setGroup_reqs (s : State) (g : Nat) (f : Group → Group) : (s.setGroup g f).reqs = s.reqs := rfl
@[simp] theorem setGroup_gal (s : State) (g : Nat) (f : Group → Group) : (s.setGroup g f).gal = s.gal := rfl
@[simp] theorem setGroup_trig (s : State) (g : Nat) (f : Group → Group) : (s.setGroup g f).trig = s.trig := rfl
@[simp] theorem setGroup_execs (s : State) (g : Nat) (f : Group → Group) : (s.setGroup g f).execs = s.execs := rfl
@[simp] theorem setGroup_lastUpdate (s : State) (g : Nat) (f : Group → Group) :
    (s.setGroup g f).lastUpdate = s.lastUpdate := rfl
@[simp] theorem setGroup_lastArmed (s : State) (g : Nat) (f : Group → Group) :
    (s.setGroup g f).lastArmed = s.lastArmed := rfl
@[simp] theorem setGroup_frames (s : State) (g : Nat) (f : Group → Group) : (s.setGroup g f).frames = s.frames := rfl
@[simp] theorem setGroup_expo (s : State) (g : Nat) (f : Group → Group) : (s.setGroup g f).expo = s.expo := rfl
@[simp] theorem setGroup_rd (s : State) (g : Nat) (f : Group → Group) : (s.setGroup g f).rd = s.rd := rfl
@[simp] theorem setGroup_trk (s : State) (g : Nat) (f : Group → Group) : (s.setGroup g f).trk = s.trk := rfl
@[simp] theorem setGroup_flt (s : State) (g : Nat) (f : Group → Group) : (s.setGroup g f).flt = s.flt := rfl
@[simp] theorem setGroup_s2 (s : State) (g : Nat) (f : Group → Group) : (s.setGroup g f).s2 = s.s2 := rfl
@[simp] theorem setGroup_sense (s : State) (g : Nat) (f : Group → Group) : (s.setGroup g f).sense = s.sense := rfl
@[simp] theorem setGroup_otp (s : State) (g : Nat) (f : Group → Group) : (s.setGroup g f).otp = s.otp := rfl

/-! ## domSet -/

@[simp] theorem domSet_pending (s : State) (i : Nat) (on : Bool) : (s.domSet i on).pending = s.pending := rfl
@[simp] theorem domSet_out (s : State) (i : Nat) (on : Bool) : (s.domSet i on).out = s.out := rfl
@[simp] theorem domSet_free (s : State) (i : Nat) (on : Bool) : (s.domSet i on).free = s.free := rfl
@[simp] theorem domSet_up (s : State) (i : Nat) (on : Bool) : (s.domSet i on).up = s.up := rfl
@[simp] theorem domSet_now (s : State) (i : Nat) (on : Bool) : (s.domSet i on).now = s.now := rfl
@[simp] theorem domSet_dev (s : State) (i : Nat) (on : Bool) : (s.domSet i on).dev = s.dev := rfl
@[simp] theorem domSet_prev (s : State) (i : Nat) (on : Bool) : (s.domSet i on).prev = s.prev := rfl
@[simp] theorem domSet_cause (s : State) (i : Nat) (on : Bool) : (s.domSet i on).cause = s.cause := rfl
@[simp] theorem domSet_inForce (s : State) (i : Nat) (on : Bool) : (s.domSet i on).inForce = s.inForce := rfl
@[simp] theorem domSet_cpInForce (s : State) (i : Nat) (on : Bool) : (s.domSet i on).cpInForce = s.cpInForce := rfl
@[simp] theorem domSet_pllMain (s : State) (i : Nat) (on : Bool) : (s.domSet i on).pllMain = s.pllMain := rfl
@[simp] theorem domSet_pllCs (s : State) (i : Nat) (on : Bool) : (s.domSet i on).pllCs = s.pllCs := rfl
@[simp] theorem domSet_pllPv (s : State) (i : Nat) (on : Bool) : (s.domSet i on).pllPv = s.pllPv := rfl
@[simp] theorem domSet_domLost (s : State) (i : Nat) (on : Bool) : (s.domSet i on).domLost = s.domLost := rfl
@[simp] theorem domSet_trainAt (s : State) (i : Nat) (on : Bool) : (s.domSet i on).trainAt = s.trainAt := rfl
@[simp] theorem domSet_vddaon (s : State) (i : Nat) (on : Bool) : (s.domSet i on).vddaon = s.vddaon := rfl
@[simp] theorem domSet_groups (s : State) (i : Nat) (on : Bool) : (s.domSet i on).groups = s.groups := rfl
@[simp] theorem domSet_rig (s : State) (i : Nat) (on : Bool) : (s.domSet i on).rig = s.rig := rfl
@[simp] theorem domSet_boot (s : State) (i : Nat) (on : Bool) : (s.domSet i on).boot = s.boot := rfl
@[simp] theorem domSet_ctl (s : State) (i : Nat) (on : Bool) : (s.domSet i on).ctl = s.ctl := rfl
@[simp] theorem domSet_safety (s : State) (i : Nat) (on : Bool) : (s.domSet i on).safety = s.safety := rfl
@[simp] theorem domSet_cis (s : State) (i : Nat) (on : Bool) : (s.domSet i on).cis = s.cis := rfl
@[simp] theorem domSet_thermal (s : State) (i : Nat) (on : Bool) : (s.domSet i on).thermal = s.thermal := rfl
@[simp] theorem domSet_deal (s : State) (i : Nat) (on : Bool) : (s.domSet i on).deal = s.deal := rfl
@[simp] theorem domSet_vcPackets (s : State) (i : Nat) (on : Bool) : (s.domSet i on).vcPackets = s.vcPackets := rfl
@[simp] theorem domSet_ceVc (s : State) (i : Nat) (on : Bool) : (s.domSet i on).ceVc = s.ceVc := rfl
@[simp] theorem domSet_repl (s : State) (i : Nat) (on : Bool) : (s.domSet i on).repl = s.repl := rfl
@[simp] theorem domSet_markerCount (s : State) (i : Nat) (on : Bool) :
    (s.domSet i on).markerCount = s.markerCount := rfl
@[simp] theorem domSet_markerAt (s : State) (i : Nat) (on : Bool) : (s.domSet i on).markerAt = s.markerAt := rfl
@[simp] theorem domSet_lastHeader (s : State) (i : Nat) (on : Bool) : (s.domSet i on).lastHeader = s.lastHeader := rfl
@[simp] theorem domSet_joined (s : State) (i : Nat) (on : Bool) : (s.domSet i on).joined = s.joined := rfl
@[simp] theorem domSet_commits (s : State) (i : Nat) (on : Bool) : (s.domSet i on).commits = s.commits := rfl
@[simp] theorem domSet_cpCommits (s : State) (i : Nat) (on : Bool) : (s.domSet i on).cpCommits = s.cpCommits := rfl
@[simp] theorem domSet_dropped (s : State) (i : Nat) (on : Bool) : (s.domSet i on).dropped = s.dropped := rfl
@[simp] theorem domSet_covered (s : State) (i : Nat) (on : Bool) : (s.domSet i on).covered = s.covered := rfl
@[simp] theorem domSet_tbs (s : State) (i : Nat) (on : Bool) : (s.domSet i on).tbs = s.tbs := rfl
@[simp] theorem domSet_slots (s : State) (i : Nat) (on : Bool) : (s.domSet i on).slots = s.slots := rfl
@[simp] theorem domSet_reqs (s : State) (i : Nat) (on : Bool) : (s.domSet i on).reqs = s.reqs := rfl
@[simp] theorem domSet_gal (s : State) (i : Nat) (on : Bool) : (s.domSet i on).gal = s.gal := rfl
@[simp] theorem domSet_trig (s : State) (i : Nat) (on : Bool) : (s.domSet i on).trig = s.trig := rfl
@[simp] theorem domSet_execs (s : State) (i : Nat) (on : Bool) : (s.domSet i on).execs = s.execs := rfl
@[simp] theorem domSet_lastUpdate (s : State) (i : Nat) (on : Bool) : (s.domSet i on).lastUpdate = s.lastUpdate := rfl
@[simp] theorem domSet_lastArmed (s : State) (i : Nat) (on : Bool) : (s.domSet i on).lastArmed = s.lastArmed := rfl
@[simp] theorem domSet_frames (s : State) (i : Nat) (on : Bool) : (s.domSet i on).frames = s.frames := rfl
@[simp] theorem domSet_expo (s : State) (i : Nat) (on : Bool) : (s.domSet i on).expo = s.expo := rfl
@[simp] theorem domSet_rd (s : State) (i : Nat) (on : Bool) : (s.domSet i on).rd = s.rd := rfl
@[simp] theorem domSet_trk (s : State) (i : Nat) (on : Bool) : (s.domSet i on).trk = s.trk := rfl
@[simp] theorem domSet_flt (s : State) (i : Nat) (on : Bool) : (s.domSet i on).flt = s.flt := rfl
@[simp] theorem domSet_s2 (s : State) (i : Nat) (on : Bool) : (s.domSet i on).s2 = s.s2 := rfl
@[simp] theorem domSet_sense (s : State) (i : Nat) (on : Bool) : (s.domSet i on).sense = s.sense := rfl
@[simp] theorem domSet_otp (s : State) (i : Nat) (on : Bool) : (s.domSet i on).otp = s.otp := rfl

@[simp] theorem emit_out (s : State) (o : Out) : (s.emit o).out = o :: s.out := rfl
@[simp] theorem setGroup_groups (s : State) (g : Nat) (f : Group → Group) :
    (s.setGroup g f).groups = listModify s.groups g f := rfl

/-! ## regStore -/

@[simp] theorem regStore_pending (s : State) (a : Nat) (v : Word) :
    (s.regStore a v).pending = s.pending := by unfold State.regStore; split <;> rfl
@[simp] theorem regStore_out (s : State) (a : Nat) (v : Word) :
    (s.regStore a v).out = s.out := by unfold State.regStore; split <;> rfl
@[simp] theorem regStore_free (s : State) (a : Nat) (v : Word) :
    (s.regStore a v).free = s.free := by unfold State.regStore; split <;> rfl
@[simp] theorem regStore_up (s : State) (a : Nat) (v : Word) :
    (s.regStore a v).up = s.up := by unfold State.regStore; split <;> rfl
@[simp] theorem regStore_now (s : State) (a : Nat) (v : Word) :
    (s.regStore a v).now = s.now := by unfold State.regStore; split <;> rfl
@[simp] theorem regStore_dev (s : State) (a : Nat) (v : Word) :
    (s.regStore a v).dev = s.dev := by unfold State.regStore; split <;> rfl
@[simp] theorem regStore_prev (s : State) (a : Nat) (v : Word) :
    (s.regStore a v).prev = s.prev := by unfold State.regStore; split <;> rfl
@[simp] theorem regStore_cause (s : State) (a : Nat) (v : Word) :
    (s.regStore a v).cause = s.cause := by unfold State.regStore; split <;> rfl
@[simp] theorem regStore_hot (s : State) (a : Nat) (v : Word) :
    (s.regStore a v).hot = s.hot := by unfold State.regStore; split <;> rfl
@[simp] theorem regStore_inForce (s : State) (a : Nat) (v : Word) :
    (s.regStore a v).inForce = s.inForce := by unfold State.regStore; split <;> rfl
@[simp] theorem regStore_cpInForce (s : State) (a : Nat) (v : Word) :
    (s.regStore a v).cpInForce = s.cpInForce := by unfold State.regStore; split <;> rfl
@[simp] theorem regStore_pllMain (s : State) (a : Nat) (v : Word) :
    (s.regStore a v).pllMain = s.pllMain := by unfold State.regStore; split <;> rfl
@[simp] theorem regStore_pllCs (s : State) (a : Nat) (v : Word) :
    (s.regStore a v).pllCs = s.pllCs := by unfold State.regStore; split <;> rfl
@[simp] theorem regStore_pllPv (s : State) (a : Nat) (v : Word) :
    (s.regStore a v).pllPv = s.pllPv := by unfold State.regStore; split <;> rfl
@[simp] theorem regStore_domLost (s : State) (a : Nat) (v : Word) :
    (s.regStore a v).domLost = s.domLost := by unfold State.regStore; split <;> rfl
@[simp] theorem regStore_trainAt (s : State) (a : Nat) (v : Word) :
    (s.regStore a v).trainAt = s.trainAt := by unfold State.regStore; split <;> rfl
@[simp] theorem regStore_vddaon (s : State) (a : Nat) (v : Word) :
    (s.regStore a v).vddaon = s.vddaon := by unfold State.regStore; split <;> rfl
@[simp] theorem regStore_groups (s : State) (a : Nat) (v : Word) :
    (s.regStore a v).groups = s.groups := by unfold State.regStore; split <;> rfl
@[simp] theorem regStore_rig (s : State) (a : Nat) (v : Word) :
    (s.regStore a v).rig = s.rig := by unfold State.regStore; split <;> rfl
@[simp] theorem regStore_boot (s : State) (a : Nat) (v : Word) :
    (s.regStore a v).boot = s.boot := by unfold State.regStore; split <;> rfl
@[simp] theorem regStore_ctl (s : State) (a : Nat) (v : Word) :
    (s.regStore a v).ctl = s.ctl := by unfold State.regStore; split <;> rfl
@[simp] theorem regStore_safety (s : State) (a : Nat) (v : Word) :
    (s.regStore a v).safety = s.safety := by unfold State.regStore; split <;> rfl
@[simp] theorem regStore_cis (s : State) (a : Nat) (v : Word) :
    (s.regStore a v).cis = s.cis := by unfold State.regStore; split <;> rfl
@[simp] theorem regStore_thermal (s : State) (a : Nat) (v : Word) :
    (s.regStore a v).thermal = s.thermal := by unfold State.regStore; split <;> rfl
@[simp] theorem regStore_deal (s : State) (a : Nat) (v : Word) :
    (s.regStore a v).deal = s.deal := by unfold State.regStore; split <;> rfl
@[simp] theorem regStore_vcPackets (s : State) (a : Nat) (v : Word) :
    (s.regStore a v).vcPackets = s.vcPackets := by unfold State.regStore; split <;> rfl
@[simp] theorem regStore_ceVc (s : State) (a : Nat) (v : Word) :
    (s.regStore a v).ceVc = s.ceVc := by unfold State.regStore; split <;> rfl
@[simp] theorem regStore_repl (s : State) (a : Nat) (v : Word) :
    (s.regStore a v).repl = s.repl := by unfold State.regStore; split <;> rfl
@[simp] theorem regStore_markerCount (s : State) (a : Nat) (v : Word) :
    (s.regStore a v).markerCount = s.markerCount := by unfold State.regStore; split <;> rfl
@[simp] theorem regStore_markerAt (s : State) (a : Nat) (v : Word) :
    (s.regStore a v).markerAt = s.markerAt := by unfold State.regStore; split <;> rfl
@[simp] theorem regStore_lastHeader (s : State) (a : Nat) (v : Word) :
    (s.regStore a v).lastHeader = s.lastHeader := by unfold State.regStore; split <;> rfl
@[simp] theorem regStore_joined (s : State) (a : Nat) (v : Word) :
    (s.regStore a v).joined = s.joined := by unfold State.regStore; split <;> rfl
@[simp] theorem regStore_commits (s : State) (a : Nat) (v : Word) :
    (s.regStore a v).commits = s.commits := by unfold State.regStore; split <;> rfl
@[simp] theorem regStore_cpCommits (s : State) (a : Nat) (v : Word) :
    (s.regStore a v).cpCommits = s.cpCommits := by unfold State.regStore; split <;> rfl
@[simp] theorem regStore_dropped (s : State) (a : Nat) (v : Word) :
    (s.regStore a v).dropped = s.dropped := by unfold State.regStore; split <;> rfl
@[simp] theorem regStore_covered (s : State) (a : Nat) (v : Word) :
    (s.regStore a v).covered = s.covered := by unfold State.regStore; split <;> rfl
@[simp] theorem regStore_tbs (s : State) (a : Nat) (v : Word) :
    (s.regStore a v).tbs = s.tbs := by unfold State.regStore; split <;> rfl
@[simp] theorem regStore_slots (s : State) (a : Nat) (v : Word) :
    (s.regStore a v).slots = s.slots := by unfold State.regStore; split <;> rfl
@[simp] theorem regStore_reqs (s : State) (a : Nat) (v : Word) :
    (s.regStore a v).reqs = s.reqs := by unfold State.regStore; split <;> rfl
@[simp] theorem regStore_gal (s : State) (a : Nat) (v : Word) :
    (s.regStore a v).gal = s.gal := by unfold State.regStore; split <;> rfl
@[simp] theorem regStore_trig (s : State) (a : Nat) (v : Word) :
    (s.regStore a v).trig = s.trig := by unfold State.regStore; split <;> rfl
@[simp] theorem regStore_execs (s : State) (a : Nat) (v : Word) :
    (s.regStore a v).execs = s.execs := by unfold State.regStore; split <;> rfl
@[simp] theorem regStore_lastUpdate (s : State) (a : Nat) (v : Word) :
    (s.regStore a v).lastUpdate = s.lastUpdate := by unfold State.regStore; split <;> rfl
@[simp] theorem regStore_lastArmed (s : State) (a : Nat) (v : Word) :
    (s.regStore a v).lastArmed = s.lastArmed := by unfold State.regStore; split <;> rfl
@[simp] theorem regStore_frames (s : State) (a : Nat) (v : Word) :
    (s.regStore a v).frames = s.frames := by unfold State.regStore; split <;> rfl
@[simp] theorem regStore_expo (s : State) (a : Nat) (v : Word) :
    (s.regStore a v).expo = s.expo := by unfold State.regStore; split <;> rfl
@[simp] theorem regStore_rd (s : State) (a : Nat) (v : Word) :
    (s.regStore a v).rd = s.rd := by unfold State.regStore; split <;> rfl
@[simp] theorem regStore_trk (s : State) (a : Nat) (v : Word) :
    (s.regStore a v).trk = s.trk := by unfold State.regStore; split <;> rfl
@[simp] theorem regStore_flt (s : State) (a : Nat) (v : Word) :
    (s.regStore a v).flt = s.flt := by unfold State.regStore; split <;> rfl
@[simp] theorem regStore_s2 (s : State) (a : Nat) (v : Word) :
    (s.regStore a v).s2 = s.s2 := by unfold State.regStore; split <;> rfl
@[simp] theorem regStore_sense (s : State) (a : Nat) (v : Word) :
    (s.regStore a v).sense = s.sense := by unfold State.regStore; split <;> rfl
@[simp] theorem regStore_otp (s : State) (a : Nat) (v : Word) :
    (s.regStore a v).otp = s.otp := by unfold State.regStore; split <;> rfl

/-! ## raiseIbi -/

theorem raiseIbi_eq (s : State) (b : Nat) :
    s.raiseIbi b = { s with regs := (s.raiseIbi b).regs, ctl := (s.raiseIbi b).ctl, hot := (s.raiseIbi b).hot } := by
  unfold State.raiseIbi; dsimp only; split
  · rfl
  · split <;> rfl
@[simp] theorem raiseIbi_pending (s : State) (b : Nat) : (s.raiseIbi b).pending = s.pending := by rw [raiseIbi_eq]
@[simp] theorem raiseIbi_out (s : State) (b : Nat) : (s.raiseIbi b).out = s.out := by rw [raiseIbi_eq]
@[simp] theorem raiseIbi_free (s : State) (b : Nat) : (s.raiseIbi b).free = s.free := by rw [raiseIbi_eq]
@[simp] theorem raiseIbi_up (s : State) (b : Nat) : (s.raiseIbi b).up = s.up := by rw [raiseIbi_eq]
@[simp] theorem raiseIbi_now (s : State) (b : Nat) : (s.raiseIbi b).now = s.now := by rw [raiseIbi_eq]
@[simp] theorem raiseIbi_dev (s : State) (b : Nat) : (s.raiseIbi b).dev = s.dev := by rw [raiseIbi_eq]
@[simp] theorem raiseIbi_prev (s : State) (b : Nat) : (s.raiseIbi b).prev = s.prev := by rw [raiseIbi_eq]
@[simp] theorem raiseIbi_cause (s : State) (b : Nat) : (s.raiseIbi b).cause = s.cause := by rw [raiseIbi_eq]
@[simp] theorem raiseIbi_inForce (s : State) (b : Nat) : (s.raiseIbi b).inForce = s.inForce := by rw [raiseIbi_eq]
@[simp] theorem raiseIbi_cpInForce (s : State) (b : Nat) :
    (s.raiseIbi b).cpInForce = s.cpInForce := by rw [raiseIbi_eq]
@[simp] theorem raiseIbi_pllMain (s : State) (b : Nat) : (s.raiseIbi b).pllMain = s.pllMain := by rw [raiseIbi_eq]
@[simp] theorem raiseIbi_pllCs (s : State) (b : Nat) : (s.raiseIbi b).pllCs = s.pllCs := by rw [raiseIbi_eq]
@[simp] theorem raiseIbi_pllPv (s : State) (b : Nat) : (s.raiseIbi b).pllPv = s.pllPv := by rw [raiseIbi_eq]
@[simp] theorem raiseIbi_domLost (s : State) (b : Nat) : (s.raiseIbi b).domLost = s.domLost := by rw [raiseIbi_eq]
@[simp] theorem raiseIbi_trainAt (s : State) (b : Nat) : (s.raiseIbi b).trainAt = s.trainAt := by rw [raiseIbi_eq]
@[simp] theorem raiseIbi_vddaon (s : State) (b : Nat) : (s.raiseIbi b).vddaon = s.vddaon := by rw [raiseIbi_eq]
@[simp] theorem raiseIbi_groups (s : State) (b : Nat) : (s.raiseIbi b).groups = s.groups := by rw [raiseIbi_eq]
@[simp] theorem raiseIbi_rig (s : State) (b : Nat) : (s.raiseIbi b).rig = s.rig := by rw [raiseIbi_eq]
@[simp] theorem raiseIbi_boot (s : State) (b : Nat) : (s.raiseIbi b).boot = s.boot := by rw [raiseIbi_eq]
@[simp] theorem raiseIbi_safety (s : State) (b : Nat) : (s.raiseIbi b).safety = s.safety := by rw [raiseIbi_eq]
@[simp] theorem raiseIbi_cis (s : State) (b : Nat) : (s.raiseIbi b).cis = s.cis := by rw [raiseIbi_eq]
@[simp] theorem raiseIbi_thermal (s : State) (b : Nat) : (s.raiseIbi b).thermal = s.thermal := by rw [raiseIbi_eq]
@[simp] theorem raiseIbi_deal (s : State) (b : Nat) : (s.raiseIbi b).deal = s.deal := by rw [raiseIbi_eq]
@[simp] theorem raiseIbi_vcPackets (s : State) (b : Nat) :
    (s.raiseIbi b).vcPackets = s.vcPackets := by rw [raiseIbi_eq]
@[simp] theorem raiseIbi_ceVc (s : State) (b : Nat) : (s.raiseIbi b).ceVc = s.ceVc := by rw [raiseIbi_eq]
@[simp] theorem raiseIbi_repl (s : State) (b : Nat) : (s.raiseIbi b).repl = s.repl := by rw [raiseIbi_eq]
@[simp] theorem raiseIbi_markerCount (s : State) (b : Nat) :
    (s.raiseIbi b).markerCount = s.markerCount := by rw [raiseIbi_eq]
@[simp] theorem raiseIbi_markerAt (s : State) (b : Nat) : (s.raiseIbi b).markerAt = s.markerAt := by rw [raiseIbi_eq]
@[simp] theorem raiseIbi_lastHeader (s : State) (b : Nat) :
    (s.raiseIbi b).lastHeader = s.lastHeader := by rw [raiseIbi_eq]
@[simp] theorem raiseIbi_joined (s : State) (b : Nat) :
    (s.raiseIbi b).joined = s.joined := by rw [raiseIbi_eq]
@[simp] theorem raiseIbi_commits (s : State) (b : Nat) : (s.raiseIbi b).commits = s.commits := by rw [raiseIbi_eq]
@[simp] theorem raiseIbi_cpCommits (s : State) (b : Nat) :
    (s.raiseIbi b).cpCommits = s.cpCommits := by rw [raiseIbi_eq]
@[simp] theorem raiseIbi_dropped (s : State) (b : Nat) : (s.raiseIbi b).dropped = s.dropped := by rw [raiseIbi_eq]
@[simp] theorem raiseIbi_covered (s : State) (b : Nat) : (s.raiseIbi b).covered = s.covered := by rw [raiseIbi_eq]
@[simp] theorem raiseIbi_tbs (s : State) (b : Nat) : (s.raiseIbi b).tbs = s.tbs := by rw [raiseIbi_eq]
@[simp] theorem raiseIbi_slots (s : State) (b : Nat) : (s.raiseIbi b).slots = s.slots := by rw [raiseIbi_eq]
@[simp] theorem raiseIbi_reqs (s : State) (b : Nat) : (s.raiseIbi b).reqs = s.reqs := by rw [raiseIbi_eq]
@[simp] theorem raiseIbi_gal (s : State) (b : Nat) : (s.raiseIbi b).gal = s.gal := by rw [raiseIbi_eq]
@[simp] theorem raiseIbi_trig (s : State) (b : Nat) : (s.raiseIbi b).trig = s.trig := by rw [raiseIbi_eq]
@[simp] theorem raiseIbi_execs (s : State) (b : Nat) : (s.raiseIbi b).execs = s.execs := by rw [raiseIbi_eq]
@[simp] theorem raiseIbi_lastUpdate (s : State) (b : Nat) :
    (s.raiseIbi b).lastUpdate = s.lastUpdate := by rw [raiseIbi_eq]
@[simp] theorem raiseIbi_lastArmed (s : State) (b : Nat) :
    (s.raiseIbi b).lastArmed = s.lastArmed := by rw [raiseIbi_eq]
@[simp] theorem raiseIbi_frames (s : State) (b : Nat) : (s.raiseIbi b).frames = s.frames := by rw [raiseIbi_eq]
@[simp] theorem raiseIbi_expo (s : State) (b : Nat) : (s.raiseIbi b).expo = s.expo := by rw [raiseIbi_eq]
@[simp] theorem raiseIbi_rd (s : State) (b : Nat) : (s.raiseIbi b).rd = s.rd := by rw [raiseIbi_eq]
@[simp] theorem raiseIbi_trk (s : State) (b : Nat) : (s.raiseIbi b).trk = s.trk := by rw [raiseIbi_eq]
@[simp] theorem raiseIbi_flt (s : State) (b : Nat) : (s.raiseIbi b).flt = s.flt := by rw [raiseIbi_eq]
@[simp] theorem raiseIbi_s2 (s : State) (b : Nat) : (s.raiseIbi b).s2 = s.s2 := by rw [raiseIbi_eq]
@[simp] theorem raiseIbi_sense (s : State) (b : Nat) : (s.raiseIbi b).sense = s.sense := by rw [raiseIbi_eq]
@[simp] theorem raiseIbi_otp (s : State) (b : Nat) : (s.raiseIbi b).otp = s.otp := by rw [raiseIbi_eq]

/-! ## setFault -/

theorem setFault_eq (s : State) (b : Nat) :
    s.setFault b = { s with regs := (s.setFault b).regs, ctl := (s.setFault b).ctl, hot := (s.setFault b).hot } := by
  unfold State.setFault; split
  · rfl
  · exact raiseIbi_eq (s.raiseBits _ _) 1
@[simp] theorem setFault_pending (s : State) (b : Nat) : (s.setFault b).pending = s.pending := by rw [setFault_eq]
@[simp] theorem setFault_out (s : State) (b : Nat) : (s.setFault b).out = s.out := by rw [setFault_eq]
@[simp] theorem setFault_free (s : State) (b : Nat) : (s.setFault b).free = s.free := by rw [setFault_eq]
@[simp] theorem setFault_up (s : State) (b : Nat) : (s.setFault b).up = s.up := by rw [setFault_eq]
@[simp] theorem setFault_now (s : State) (b : Nat) : (s.setFault b).now = s.now := by rw [setFault_eq]
@[simp] theorem setFault_dev (s : State) (b : Nat) : (s.setFault b).dev = s.dev := by rw [setFault_eq]
@[simp] theorem setFault_prev (s : State) (b : Nat) : (s.setFault b).prev = s.prev := by rw [setFault_eq]
@[simp] theorem setFault_cause (s : State) (b : Nat) : (s.setFault b).cause = s.cause := by rw [setFault_eq]
@[simp] theorem setFault_inForce (s : State) (b : Nat) : (s.setFault b).inForce = s.inForce := by rw [setFault_eq]
@[simp] theorem setFault_cpInForce (s : State) (b : Nat) :
    (s.setFault b).cpInForce = s.cpInForce := by rw [setFault_eq]
@[simp] theorem setFault_pllMain (s : State) (b : Nat) : (s.setFault b).pllMain = s.pllMain := by rw [setFault_eq]
@[simp] theorem setFault_pllCs (s : State) (b : Nat) : (s.setFault b).pllCs = s.pllCs := by rw [setFault_eq]
@[simp] theorem setFault_pllPv (s : State) (b : Nat) : (s.setFault b).pllPv = s.pllPv := by rw [setFault_eq]
@[simp] theorem setFault_domLost (s : State) (b : Nat) : (s.setFault b).domLost = s.domLost := by rw [setFault_eq]
@[simp] theorem setFault_trainAt (s : State) (b : Nat) : (s.setFault b).trainAt = s.trainAt := by rw [setFault_eq]
@[simp] theorem setFault_vddaon (s : State) (b : Nat) : (s.setFault b).vddaon = s.vddaon := by rw [setFault_eq]
@[simp] theorem setFault_groups (s : State) (b : Nat) : (s.setFault b).groups = s.groups := by rw [setFault_eq]
@[simp] theorem setFault_rig (s : State) (b : Nat) : (s.setFault b).rig = s.rig := by rw [setFault_eq]
@[simp] theorem setFault_boot (s : State) (b : Nat) : (s.setFault b).boot = s.boot := by rw [setFault_eq]
@[simp] theorem setFault_safety (s : State) (b : Nat) : (s.setFault b).safety = s.safety := by rw [setFault_eq]
@[simp] theorem setFault_cis (s : State) (b : Nat) : (s.setFault b).cis = s.cis := by rw [setFault_eq]
@[simp] theorem setFault_thermal (s : State) (b : Nat) : (s.setFault b).thermal = s.thermal := by rw [setFault_eq]
@[simp] theorem setFault_deal (s : State) (b : Nat) : (s.setFault b).deal = s.deal := by rw [setFault_eq]
@[simp] theorem setFault_vcPackets (s : State) (b : Nat) :
    (s.setFault b).vcPackets = s.vcPackets := by rw [setFault_eq]
@[simp] theorem setFault_ceVc (s : State) (b : Nat) : (s.setFault b).ceVc = s.ceVc := by rw [setFault_eq]
@[simp] theorem setFault_repl (s : State) (b : Nat) : (s.setFault b).repl = s.repl := by rw [setFault_eq]
@[simp] theorem setFault_markerCount (s : State) (b : Nat) :
    (s.setFault b).markerCount = s.markerCount := by rw [setFault_eq]
@[simp] theorem setFault_markerAt (s : State) (b : Nat) : (s.setFault b).markerAt = s.markerAt := by rw [setFault_eq]
@[simp] theorem setFault_lastHeader (s : State) (b : Nat) :
    (s.setFault b).lastHeader = s.lastHeader := by rw [setFault_eq]
@[simp] theorem setFault_joined (s : State) (b : Nat) :
    (s.setFault b).joined = s.joined := by rw [setFault_eq]
@[simp] theorem setFault_commits (s : State) (b : Nat) : (s.setFault b).commits = s.commits := by rw [setFault_eq]
@[simp] theorem setFault_cpCommits (s : State) (b : Nat) :
    (s.setFault b).cpCommits = s.cpCommits := by rw [setFault_eq]
@[simp] theorem setFault_dropped (s : State) (b : Nat) : (s.setFault b).dropped = s.dropped := by rw [setFault_eq]
@[simp] theorem setFault_covered (s : State) (b : Nat) : (s.setFault b).covered = s.covered := by rw [setFault_eq]
@[simp] theorem setFault_tbs (s : State) (b : Nat) : (s.setFault b).tbs = s.tbs := by rw [setFault_eq]
@[simp] theorem setFault_slots (s : State) (b : Nat) : (s.setFault b).slots = s.slots := by rw [setFault_eq]
@[simp] theorem setFault_reqs (s : State) (b : Nat) : (s.setFault b).reqs = s.reqs := by rw [setFault_eq]
@[simp] theorem setFault_gal (s : State) (b : Nat) : (s.setFault b).gal = s.gal := by rw [setFault_eq]
@[simp] theorem setFault_trig (s : State) (b : Nat) : (s.setFault b).trig = s.trig := by rw [setFault_eq]
@[simp] theorem setFault_execs (s : State) (b : Nat) : (s.setFault b).execs = s.execs := by rw [setFault_eq]
@[simp] theorem setFault_lastUpdate (s : State) (b : Nat) :
    (s.setFault b).lastUpdate = s.lastUpdate := by rw [setFault_eq]
@[simp] theorem setFault_lastArmed (s : State) (b : Nat) :
    (s.setFault b).lastArmed = s.lastArmed := by rw [setFault_eq]
@[simp] theorem setFault_frames (s : State) (b : Nat) : (s.setFault b).frames = s.frames := by rw [setFault_eq]
@[simp] theorem setFault_expo (s : State) (b : Nat) : (s.setFault b).expo = s.expo := by rw [setFault_eq]
@[simp] theorem setFault_rd (s : State) (b : Nat) : (s.setFault b).rd = s.rd := by rw [setFault_eq]
@[simp] theorem setFault_trk (s : State) (b : Nat) : (s.setFault b).trk = s.trk := by rw [setFault_eq]
@[simp] theorem setFault_flt (s : State) (b : Nat) : (s.setFault b).flt = s.flt := by rw [setFault_eq]
@[simp] theorem setFault_s2 (s : State) (b : Nat) : (s.setFault b).s2 = s.s2 := by rw [setFault_eq]
@[simp] theorem setFault_sense (s : State) (b : Nat) : (s.setFault b).sense = s.sense := by rw [setFault_eq]
@[simp] theorem setFault_otp (s : State) (b : Nat) : (s.setFault b).otp = s.otp := by rw [setFault_eq]

/-! ## enter -/

theorem enter_eq (s : State) (d : DevState) (c : Cause) :
    s.enter d c = { s with
      regs := (s.enter d c).regs, ctl := (s.enter d c).ctl, hot := (s.enter d c).hot, dev := d, prev := s.dev, cause := c
      gal := { s.gal with bootBusy := busyIn d s.gal.bootBusy } } := by
  unfold State.enter; rw [raiseIbi_eq]
@[simp] theorem enter_pending (s : State) (d : DevState) (c : Cause) :
    (s.enter d c).pending = s.pending := by rw [enter_eq]
@[simp] theorem enter_out (s : State) (d : DevState) (c : Cause) : (s.enter d c).out = s.out := by rw [enter_eq]
@[simp] theorem enter_free (s : State) (d : DevState) (c : Cause) : (s.enter d c).free = s.free := by rw [enter_eq]
@[simp] theorem enter_up (s : State) (d : DevState) (c : Cause) : (s.enter d c).up = s.up := by rw [enter_eq]
@[simp] theorem enter_now (s : State) (d : DevState) (c : Cause) : (s.enter d c).now = s.now := by rw [enter_eq]
@[simp] theorem enter_inForce (s : State) (d : DevState) (c : Cause) :
    (s.enter d c).inForce = s.inForce := by rw [enter_eq]
@[simp] theorem enter_cpInForce (s : State) (d : DevState) (c : Cause) :
    (s.enter d c).cpInForce = s.cpInForce := by rw [enter_eq]
@[simp] theorem enter_pllMain (s : State) (d : DevState) (c : Cause) :
    (s.enter d c).pllMain = s.pllMain := by rw [enter_eq]
@[simp] theorem enter_pllCs (s : State) (d : DevState) (c : Cause) : (s.enter d c).pllCs = s.pllCs := by rw [enter_eq]
@[simp] theorem enter_pllPv (s : State) (d : DevState) (c : Cause) : (s.enter d c).pllPv = s.pllPv := by rw [enter_eq]
@[simp] theorem enter_domLost (s : State) (d : DevState) (c : Cause) :
    (s.enter d c).domLost = s.domLost := by rw [enter_eq]
@[simp] theorem enter_trainAt (s : State) (d : DevState) (c : Cause) :
    (s.enter d c).trainAt = s.trainAt := by rw [enter_eq]
@[simp] theorem enter_vddaon (s : State) (d : DevState) (c : Cause) :
    (s.enter d c).vddaon = s.vddaon := by rw [enter_eq]
@[simp] theorem enter_groups (s : State) (d : DevState) (c : Cause) :
    (s.enter d c).groups = s.groups := by rw [enter_eq]
@[simp] theorem enter_rig (s : State) (d : DevState) (c : Cause) : (s.enter d c).rig = s.rig := by rw [enter_eq]
@[simp] theorem enter_boot (s : State) (d : DevState) (c : Cause) : (s.enter d c).boot = s.boot := by rw [enter_eq]
@[simp] theorem enter_safety (s : State) (d : DevState) (c : Cause) :
    (s.enter d c).safety = s.safety := by rw [enter_eq]
@[simp] theorem enter_cis (s : State) (d : DevState) (c : Cause) : (s.enter d c).cis = s.cis := by rw [enter_eq]
@[simp] theorem enter_thermal (s : State) (d : DevState) (c : Cause) :
    (s.enter d c).thermal = s.thermal := by rw [enter_eq]
@[simp] theorem enter_deal (s : State) (d : DevState) (c : Cause) : (s.enter d c).deal = s.deal := by rw [enter_eq]
@[simp] theorem enter_vcPackets (s : State) (d : DevState) (c : Cause) :
    (s.enter d c).vcPackets = s.vcPackets := by rw [enter_eq]
@[simp] theorem enter_ceVc (s : State) (d : DevState) (c : Cause) : (s.enter d c).ceVc = s.ceVc := by rw [enter_eq]
@[simp] theorem enter_repl (s : State) (d : DevState) (c : Cause) : (s.enter d c).repl = s.repl := by rw [enter_eq]
@[simp] theorem enter_markerCount (s : State) (d : DevState) (c : Cause) :
    (s.enter d c).markerCount = s.markerCount := by rw [enter_eq]
@[simp] theorem enter_markerAt (s : State) (d : DevState) (c : Cause) :
    (s.enter d c).markerAt = s.markerAt := by rw [enter_eq]
@[simp] theorem enter_lastHeader (s : State) (d : DevState) (c : Cause) :
    (s.enter d c).lastHeader = s.lastHeader := by rw [enter_eq]
@[simp] theorem enter_joined (s : State) (d : DevState) (c : Cause) :
    (s.enter d c).joined = s.joined := by rw [enter_eq]
@[simp] theorem enter_commits (s : State) (d : DevState) (c : Cause) :
    (s.enter d c).commits = s.commits := by rw [enter_eq]
@[simp] theorem enter_cpCommits (s : State) (d : DevState) (c : Cause) :
    (s.enter d c).cpCommits = s.cpCommits := by rw [enter_eq]
@[simp] theorem enter_dropped (s : State) (d : DevState) (c : Cause) :
    (s.enter d c).dropped = s.dropped := by rw [enter_eq]
@[simp] theorem enter_covered (s : State) (d : DevState) (c : Cause) :
    (s.enter d c).covered = s.covered := by rw [enter_eq]
@[simp] theorem enter_tbs (s : State) (d : DevState) (c : Cause) : (s.enter d c).tbs = s.tbs := by rw [enter_eq]
@[simp] theorem enter_slots (s : State) (d : DevState) (c : Cause) : (s.enter d c).slots = s.slots := by rw [enter_eq]
@[simp] theorem enter_reqs (s : State) (d : DevState) (c : Cause) : (s.enter d c).reqs = s.reqs := by rw [enter_eq]
@[simp] theorem enter_gal (s : State) (d : DevState) (c : Cause) :
    (s.enter d c).gal = { s.gal with bootBusy := busyIn d s.gal.bootBusy } := by rw [enter_eq]
@[simp] theorem enter_trig (s : State) (d : DevState) (c : Cause) : (s.enter d c).trig = s.trig := by rw [enter_eq]
@[simp] theorem enter_execs (s : State) (d : DevState) (c : Cause) : (s.enter d c).execs = s.execs := by rw [enter_eq]
@[simp] theorem enter_lastUpdate (s : State) (d : DevState) (c : Cause) :
    (s.enter d c).lastUpdate = s.lastUpdate := by rw [enter_eq]
@[simp] theorem enter_lastArmed (s : State) (d : DevState) (c : Cause) :
    (s.enter d c).lastArmed = s.lastArmed := by rw [enter_eq]
@[simp] theorem enter_frames (s : State) (d : DevState) (c : Cause) :
    (s.enter d c).frames = s.frames := by rw [enter_eq]
@[simp] theorem enter_expo (s : State) (d : DevState) (c : Cause) : (s.enter d c).expo = s.expo := by rw [enter_eq]
@[simp] theorem enter_rd (s : State) (d : DevState) (c : Cause) : (s.enter d c).rd = s.rd := by rw [enter_eq]
@[simp] theorem enter_trk (s : State) (d : DevState) (c : Cause) : (s.enter d c).trk = s.trk := by rw [enter_eq]
@[simp] theorem enter_flt (s : State) (d : DevState) (c : Cause) : (s.enter d c).flt = s.flt := by rw [enter_eq]
@[simp] theorem enter_s2 (s : State) (d : DevState) (c : Cause) : (s.enter d c).s2 = s.s2 := by rw [enter_eq]
@[simp] theorem enter_sense (s : State) (d : DevState) (c : Cause) : (s.enter d c).sense = s.sense := by rw [enter_eq]
@[simp] theorem enter_otp (s : State) (d : DevState) (c : Cause) : (s.enter d c).otp = s.otp := by rw [enter_eq]
@[simp] theorem enter_dev (s : State) (d : DevState) (c : Cause) : (s.enter d c).dev = d := by rw [enter_eq]
@[simp] theorem enter_prev (s : State) (d : DevState) (c : Cause) : (s.enter d c).prev = s.dev := by rw [enter_eq]
@[simp] theorem enter_cause (s : State) (d : DevState) (c : Cause) : (s.enter d c).cause = c := by rw [enter_eq]

end Sys2Proof.Machine.State
end

