-- ==== Sys2Proof/Laws/Regs.lean ====
section
/-! SUPPORT. Reading a register field after a write, and which register bits a write leaves alone. -/
namespace Sys2Proof.Machine

/-- Reading an image after a write. -/
@[simp] theorem RegFile.word_put (r : RegFile) (a b : Nat) (v : Word) :
    (r.put a v).word b = if b = a then v else r.word b := by
  induction r with
  | nil => simp only [RegFile.put, RegFile.word]
  | cons x r ih =>
    obtain ⟨c, w⟩ := x
    unfold RegFile.put
    split
    · subst_vars; simp only [RegFile.word]; split <;> rfl
    · split
      · simp only [RegFile.word]
      · simp only [RegFile.word, ih]; grind

theorem testBit_parts (h l lo x w : Nat) (hl : l < 2 ^ lo) (n : Nat) :
    (h * 2 ^ (lo + w) + x % 2 ^ w * 2 ^ lo + l).testBit n =
      if n < lo then l.testBit n else if n < lo + w then x.testBit (n - lo) else h.testBit (n - (lo + w)) := by
  have e : h * 2 ^ (lo + w) + x % 2 ^ w * 2 ^ lo + l = 2 ^ lo * (2 ^ w * h + x % 2 ^ w) + l := by
    rw [Nat.pow_add, Nat.mul_add, Nat.mul_left_comm, Nat.mul_comm (x % 2 ^ w), Nat.mul_comm (2 ^ w) h]
  rw [e, Nat.testBit_two_pow_mul_add _ hl]
  split
  · rfl
  · rw [Nat.testBit_two_pow_mul_add _ (Nat.mod_lt _ (Nat.two_pow_pos w)), Nat.testBit_mod_two_pow]
    have : n - lo - w = n - (lo + w) := by omega
    rw [this]
    by_cases h1 : n - lo < w
    · have : n < lo + w := by omega
      simp [h1, this]
    · have : ¬ n < lo + w := by omega
      simp [h1, this]

/-- A bit of a word with a field set. -/
theorem withField_bit (v : Word) (lo w x n : Nat) (hn : n < 32) :
    (withField v lo w x).getLsbD n = if lo ≤ n ∧ n < lo + w then x.testBit (n - lo) else v.getLsbD n := by
  unfold withField
  rw [BitVec.getLsbD_ofNat, testBit_parts _ _ _ _ _ (Nat.mod_lt _ (Nat.two_pow_pos lo))]
  simp only [hn, decide_true, Bool.true_and]
  by_cases h1 : n < lo
  · rw [if_pos h1, Nat.testBit_mod_two_pow, if_neg (by omega)]
    simp [h1, BitVec.getLsbD]
  · rw [if_neg h1]
    by_cases h2 : n < lo + w
    · rw [if_pos h2, if_pos ⟨by omega, h2⟩]
    · rw [if_neg h2, if_neg (by omega), Nat.testBit_div_two_pow]
      have : n - (lo + w) + (lo + w) = n := by omega
      rw [this]; rfl

/-- A field is the number of its bits. -/
theorem fieldOf_bit (v : Word) (lo w i : Nat) : (fieldOf v lo w).testBit i = (decide (i < w) && v.getLsbD (lo + i)) := by
  unfold fieldOf
  rw [Nat.testBit_mod_two_pow, Nat.testBit_div_two_pow, Nat.add_comm i lo]; rfl

/-- Reading back a field that has been set. -/
theorem fieldOf_withField (v : Word) (lo w x : Nat) (h : lo + w ≤ 32) : fieldOf (withField v lo w x) lo w = x % 2 ^ w := by
  apply Nat.eq_of_testBit_eq
  intro i
  rw [fieldOf_bit, Nat.testBit_mod_two_pow]
  by_cases hi : i < w
  · rw [withField_bit _ _ _ _ _ (by omega), if_pos ⟨by omega, by omega⟩]
    simp [hi]
  · simp [hi]

/-- Reading one field after another of the same word has been set. -/
theorem fieldOf_withField_ne (v : Word) (lo w lo' w' x : Nat) (h : lo' + w' ≤ lo ∨ lo + w ≤ lo') :
    fieldOf (withField v lo w x) lo' w' = fieldOf v lo' w' := by
  apply Nat.eq_of_testBit_eq
  intro i
  rw [fieldOf_bit, fieldOf_bit]
  by_cases hi : i < w'
  · by_cases h32 : lo' + i < 32
    · rw [withField_bit _ _ _ _ _ h32, if_neg (by omega)]
    · rw [BitVec.getLsbD_of_ge _ _ (by omega), BitVec.getLsbD_of_ge _ _ (by omega)]
  · simp [hi]

namespace State

theorem get_set_same (s : State) (f : Fld) (x i j : Nat) (h : f.lo + f.w ≤ 32) :
    (s.set f x i j).get f i j = x % 2 ^ f.w := by
  simp [get, set, RegFile.fld, RegFile.setFld, fieldOf_withField _ _ _ _ h]

theorem get_set_addr (s : State) (f g : Fld) (x i j k l : Nat) (h : g.addr k l ≠ f.addr i j) :
    (s.set f x i j).get g k l = s.get g k l := by
  simp [get, set, RegFile.fld, RegFile.setFld, h]

theorem get_set_bits (s : State) (f g : Fld) (x i j k l : Nat) (h : g.lo + g.w ≤ f.lo ∨ f.lo + f.w ≤ g.lo) :
    (s.set f x i j).get g k l = s.get g k l := by
  simp only [get, set, RegFile.fld, RegFile.setFld, RegFile.word_put]
  split
  · rename_i e; rw [fieldOf_withField_ne _ _ _ _ _ _ h, e]
  · rfl

/-! ## Frames of registers -/

theorem regsKeptBut_refl (s : State) (fs : List FldAt) : s.regsKeptBut s fs := fun _ _ _ => rfl

theorem regsKeptBut_of_regs {s t : State} (h : t.regs = s.regs) (fs : List FldAt) : s.regsKeptBut t fs :=
  fun _ _ _ => by rw [h]

theorem regsKeptBut.trans {s t u : State} {fs : List FldAt} (h : s.regsKeptBut t fs) (k : t.regsKeptBut u fs) :
    s.regsKeptBut u fs := fun a n c => (k a n c).trans (h a n c)

theorem regsKeptBut.mono {s t : State} {fs gs : List FldAt} (h : s.regsKeptBut t fs) (sub : ∀ x ∈ fs, x ∈ gs) :
    s.regsKeptBut t gs := fun a n c => h a n (by
  rw [List.all_eq_true] at c ⊢; exact fun x m => c x (sub x m))

/-- Setting a field of the list keeps every bit outside it. -/
theorem regsKeptBut_set (s : State) (f : Fld) (x i j : Nat) {fs : List FldAt} (m : (f, i, j) ∈ fs) :
    s.regsKeptBut (s.set f x i j) fs := by
  intro a n c
  simp only [set, RegFile.setFld, RegFile.word_put]
  split
  · rename_i e
    by_cases hn : n < 32
    · rw [withField_bit _ _ _ _ _ hn, if_neg, ← e]
      intro hb
      have := (List.all_eq_true.1 c) _ m
      simp [FldAt.covers, e, hb.1, hb.2] at this
    · rw [BitVec.getLsbD_of_ge _ _ (by omega), BitVec.getLsbD_of_ge _ _ (by omega)]
  · rfl

/-- Writing a whole word of the list keeps every bit outside it. -/
theorem regsKeptBut_put (s : State) (b : Nat) (v : Word) {fs : List FldAt} (m : wholeWord b ∈ fs) :
    s.regsKeptBut { s with regs := s.regs.put b v } fs := by
  intro a n c
  simp only [RegFile.word_put]
  split
  · rename_i e
    by_cases hn : n < 32
    · have := (List.all_eq_true.1 c) _ m
      simp [FldAt.covers, wholeWord, Fld.addr, e, hn] at this
    · rw [BitVec.getLsbD_of_ge _ _ (by omega), BitVec.getLsbD_of_ge _ _ (by omega)]
  · rfl

/-- A field none of whose bits is in the list reads as before. -/
theorem regsKeptBut.get_eq {s t : State} {fs : List FldAt} (h : s.regsKeptBut t fs) (g : Fld) (k l : Nat)
    (d : ∀ n, g.lo ≤ n → n < g.lo + g.w → fs.all (fun x => !x.covers (g.addr k l) n) = true) :
    t.get g k l = s.get g k l := by
  apply Nat.eq_of_testBit_eq
  intro i
  simp only [get, RegFile.fld, fieldOf_bit]
  by_cases hi : i < g.w
  · rw [h _ _ (d _ (by omega) (by omega))]
  · simp [hi]

end State

end Sys2Proof.Machine
end

