-- ==== Sys2Proof/Laws/Transitions.lean ====
section
/-! SUPPORT. Where the operations that change the device state lead: the state, its PREV and CAUSE, and VDDAON. -/
namespace Sys2Proof.Machine

open Host (Outcome)

/-- The device of `t` is `d` with PREV `p` and CAUSE `c`, and its supply is `v`. -/
structure At (d p : DevState) (c : Cause) (v : Bool) (t : State) : Prop where
  dev : t.dev = d
  prev : t.prev = p
  cause : t.cause = c
  vddaon : t.vddaon = v

theorem At.keeps {d p : DevState} {c : Cause} {v : Bool} {s t : State} (h : At d p c v s) (k : Keeps s t) : At d p c v t :=
  ⟨k.dev.trans h.dev, k.prev.trans h.prev, k.cause.trans h.cause, k.vddaon.trans h.vddaon⟩

namespace State

theorem enter_at (s : State) (d : DevState) (c : Cause) : At d s.dev c s.vddaon (s.enter d c) :=
  ⟨enter_dev s d c, enter_prev s d c, enter_cause s d c, enter_vddaon s d c⟩

/-- Where a stop leads when it is not ruled out. -/
theorem enterStop_at (s : State) (d : DevState) (c : Cause)
    (h : ¬(s.dev = .shutdown ∨ s.dev = .off ∨ (s.dev = .safe ∧ d = .safe))) :
    At d s.dev c s.vddaon (s.enterStop d c) := by
  unfold State.enterStop
  rw [if_neg fun e => h (e.elim .inl fun o => .inr (.inl o)), if_neg fun e => h (.inr (.inr e))]
  have e := enter_at { s with safety := { s.safety with safeAt := some s.up } } d c
  have k := e.keeps (stopWork_keeps (boot := s.dev == .safeBoot) (set_keeps (f := Reg.CE_CTL_TEST) (x := 0) (i := 0) (j := 0)
    (Keeps.refl _)))
  have cut : ∀ t, At d s.dev c s.vddaon t →
      At d s.dev c s.vddaon (if c = .refclkLoss then { t with pllMain := false } else t) := by
    intro t k
    by_cases e : c = .refclkLoss
    · rw [if_pos e]; exact ⟨k.dev, k.prev, k.cause, k.vddaon⟩
    · rw [if_neg e]; exact k
  exact (cut _ k).keeps (stopHold_keeps (Keeps.refl _))

/-- SHUTDOWN is final, and OFF has no main logic: a stop changes nothing there. -/
theorem enterStop_final (s : State) (d : DevState) (c : Cause) (h : s.dev = .shutdown ∨ s.dev = .off) : s.enterStop d c = s := by
  unfold State.enterStop
  rw [if_pos h]

/-- In SAFE, a further cause of SAFE changes CAUSE at most, where it is of the same cycle and goes before it (R414). -/
theorem enterStop_safe (s : State) (c : Cause) (h : s.dev = .safe) :
    s.enterStop .safe c = if s.safeNow ∧ causeRank c < causeRank s.cause then { s with cause := c } else s := by
  unfold State.enterStop
  rw [if_neg (by simp [h]), if_pos ⟨h, rfl⟩]

theorem enterHaltConfig_at (s : State) : At .haltConfig s.dev .bootFail s.vddaon s.enterHaltConfig :=
  (enter_at s _ _).keeps (haltWork_keeps (Keeps.refl _))

theorem enterRun_at (s : State) : At .run s.dev .trainDone s.vddaon s.enterRun :=
  (enter_at s _ _).keeps (runWork_keeps (Keeps.refl _))

/-- TRAIN, or RUN where the RUN condition holds already. -/
theorem enterTrain_at (s : State) :
    At .train s.dev .loadDone s.vddaon s.enterTrain ∨ At .run .train .trainDone s.vddaon s.enterTrain := by
  have k := (enter_at s .train .loadDone).keeps (trainWork_keeps (Keeps.refl _))
  unfold State.enterTrain State.tryRun
  split
  · have e := enterRun_at (s.enter .train .loadDone).trainWork
    rw [k.dev, k.vddaon] at e
    exact .inr e
  · exact .inl k

theorem sleep_at (s : State) (h : s.dev = .run) : At .standby .run .hostStandby s.vddaon s.sleep := by
  unfold State.sleep
  rw [if_pos h, ← h]
  exact (enter_at s _ _).keeps (standbyWork_keeps (Keeps.refl _))

theorem sleep_keeps (s : State) (h : s.dev ≠ .run) : Keeps s s.sleep := by
  unfold State.sleep
  rw [if_neg h]
  exact set_keeps (Keeps.refl _)

theorem wake_at (s : State) (h : s.dev = .standby) : At .run .standby .hostWake s.vddaon s.wake := by
  unfold State.wake
  rw [if_pos h, ← h]
  exact (enter_at s _ _).keeps (wakeWork_keeps (Keeps.refl _))

theorem wake_keeps (s : State) (h : s.dev ≠ .standby) : Keeps s s.wake := by
  unfold State.wake
  rw [if_neg h]
  exact set_keeps (Keeps.refl _)

/-- A failed or finished slot: the next one is begun in the same state, or HALT_CONFIG is entered. -/
theorem nextSlot_at (s : State) : Keeps s s.nextSlot ∨ At .haltConfig s.dev .bootFail s.vddaon s.nextSlot := by
  unfold State.nextSlot
  split
  · exact .inr (enterHaltConfig_at s)
  · exact .inl (beginSlot_keeps (Keeps.refl _))

/-- LOAD is entered where its three conditions hold. -/
theorem tryLoad_at (s : State) (h : s.dev = .safeBoot ∧ s.boot.strapped ∧ s.boot.shadowed ∧ s.pllMain) :
    At .load .safeBoot .bootStart s.vddaon s.tryLoad := by
  unfold State.tryLoad
  rw [if_pos h, ← h.1]
  exact (enter_at s _ _).keeps (beginSlot_keeps (loadWork_keeps (Keeps.refl _)))

theorem tryLoad_same (s : State) (h : ¬(s.dev = .safeBoot ∧ s.boot.strapped ∧ s.boot.shadowed ∧ s.pllMain)) :
    s.tryLoad = s := by
  unfold State.tryLoad
  rw [if_neg h]

theorem tryRun_at (s : State) (h : s.dev = .train ∧ s.runReady) : At .run .train .trainDone s.vddaon s.tryRun := by
  unfold State.tryRun
  rw [if_pos h, ← h.1]
  exact enterRun_at s

theorem tryRun_same (s : State) (h : ¬(s.dev = .train ∧ s.runReady)) : s.tryRun = s := by
  unfold State.tryRun
  rw [if_neg h]

/-! ## Register writes -/

/-- The device is in the state of `s`, or in the other of RUN and STANDBY, with the supply of `s`. -/
structure Toggles (s t : State) : Prop where
  vddaon : t.vddaon = s.vddaon
  dev : t.dev = s.dev ∨ (s.running = true ∧ t.running = true)

theorem Toggles.refl (s : State) : Toggles s s := ⟨rfl, .inl rfl⟩

theorem Toggles.trans {s t u : State} (h : Toggles s t) (k : Toggles t u) : Toggles s u := by
  refine ⟨k.vddaon.trans h.vddaon, ?_⟩
  have run : ∀ a b : State, a.dev = b.dev → a.running = b.running := fun a b e => by simp [State.running, e]
  rcases h.dev with e | ⟨p, q⟩
  · rcases k.dev with e' | ⟨p', q'⟩
    · exact .inl (e'.trans e)
    · exact .inr ⟨(run t s e) ▸ p', q'⟩
  · rcases k.dev with e' | ⟨p', q'⟩
    · exact .inr ⟨p, (run u t e').trans q⟩
    · exact .inr ⟨p, q'⟩

theorem Toggles.of_keeps {s t : State} (h : Keeps s t) : Toggles s t := ⟨h.vddaon, .inl h.dev⟩

theorem sleep_toggles (s : State) : Toggles s s.sleep := by
  by_cases h : s.dev = .run
  · exact ⟨(sleep_at s h).vddaon, .inr ⟨by simp [State.running, h], by simp [State.running, (sleep_at s h).dev]⟩⟩
  · exact .of_keeps (sleep_keeps s h)

theorem wake_toggles (s : State) : Toggles s s.wake := by
  by_cases h : s.dev = .standby
  · exact ⟨(wake_at s h).vddaon, .inr ⟨by simp [State.running, h], by simp [State.running, (wake_at s h).dev]⟩⟩
  · exact .of_keeps (wake_keeps s h)

/-- A store to a command register other than PM_CMD moves nothing. -/
theorem commandStore_keeps (s : State) (a : Nat) (v : Word) (h : a ≠ 0x0C1000) : Keeps s (s.commandStore a v) := by
  unfold State.commandStore
  split
  · exact Keeps.ite (captureCommit_keeps (Keeps.refl _)) (Keeps.refl _)
  · exact Keeps.ite (stage2Commit_keeps (Keeps.refl _)) (Keeps.refl _)
  · exact Keeps.ite (darkAbort_keeps (Keeps.ite (darkStart_keeps (Keeps.refl _)) (Keeps.refl _)))
      (Keeps.ite (darkStart_keeps (Keeps.refl _)) (Keeps.refl _))
  · exact Keeps.ite (releaseRing_keeps (Keeps.ite (freezeRing_keeps (Keeps.refl _)) (Keeps.refl _)))
      (Keeps.ite (freezeRing_keeps (Keeps.refl _)) (Keeps.refl _))
  · exact Keeps.ite (submitRecall_keeps (Keeps.refl _)) (Keeps.refl _)
  · exact absurd rfl h
  · exact otpCommand_keeps (Keeps.refl _)
  · exact Keeps.refl _

theorem commandStore_toggles (s : State) (a : Nat) (v : Word) : Toggles s (s.commandStore a v) := by
  by_cases h : a = 0x0C1000
  · subst h
    have first : Toggles s (if hasBit v.toNat 0 then s.sleep else s) := by
      split
      · exact sleep_toggles s
      · exact .refl s
    have second : ∀ u : State, Toggles u (if hasBit v.toNat 1 then u.wake else u) := by
      intro u
      split
      · exact wake_toggles u
      · exact .refl u
    exact first.trans (second _)
  · exact .of_keeps (commandStore_keeps s a v h)

/-- A store to any other register moves nothing. -/
theorem hookedStore_keeps (s : State) (a : Nat) (v : Word) (cfg : Bool) (h : isCommand a = false) :
    Keeps s (s.hookedStore a v cfg) := by
  unfold State.hookedStore
  rw [if_neg (by simp [h])]
  refine Keeps.ite (evalPins_keeps (tbCfgStore_keeps (Keeps.refl _))) ?_
  refine Keeps.ite (evalPins_keeps (regStore_keeps (Keeps.refl _))) ?_
  refine Keeps.ite (eventStore_keeps (Keeps.refl _)) ?_
  refine Keeps.ite (linkStore_keeps (Keeps.refl _)) ?_
  refine Keeps.ite (crcStore_keeps (Keeps.refl _)) ?_
  refine Keeps.ite (senseStore_keeps (Keeps.refl _)) ?_
  refine Keeps.ite (filtCfgWritten_keeps (regStore_keeps (filtRun_keeps (Keeps.refl _)))) ?_
  refine Keeps.ite (Keeps.ite (lensCheck_keeps (regStore_keeps (filtRun_keeps (Keeps.refl _))))
    (regStore_keeps (filtRun_keeps (Keeps.refl _)))) ?_
  exact Keeps.ite (Keeps.upd (regStore_keeps (Keeps.refl _)) id id id id id id)
    (clampFields_keeps (regStore_keeps (Keeps.refl _)))

theorem hookedStore_toggles (s : State) (a : Nat) (v : Word) (cfg : Bool) : Toggles s (s.hookedStore a v cfg) := by
  cases h : isCommand a
  · exact .of_keeps (hookedStore_keeps s a v cfg h)
  · unfold State.hookedStore
    rw [if_pos h]
    exact commandStore_toggles s a v

theorem regWrite_toggles (s : State) (a : Nat) (v : Word) : Toggles s (s.regWrite a v) := by
  unfold State.regWrite
  split
  · exact .refl s
  · exact hookedStore_toggles s a v false

theorem sourceWrite_toggles (s : State) (a : Nat) (v : Word) : Toggles s (s.sourceWrite a v) := by
  have k := regWrite_toggles s a v
  unfold State.sourceWrite
  dsimp only
  split
  · exact ⟨k.vddaon, k.dev⟩
  · exact k

theorem i3cWord_toggles (s : State) (a : Nat) (v : Word) : Toggles s (s.i3cWord a v) := by
  unfold State.i3cWord
  split
  · exact .of_keeps (set_keeps (Keeps.refl _))
  · split
    · split
      · exact .of_keeps (bump_keeps (Keeps.refl _))
      · exact regWrite_toggles s a v
    · exact sourceWrite_toggles s a v

theorem i3cWords_toggles (s : State) (a : Nat) (vs : List Word) : Toggles s (s.i3cWords a vs) := by
  induction vs generalizing s a with
  | nil => exact .refl s
  | cons v vs ih => exact (i3cWord_toggles s a v).trans (ih _ _)

/-! ## The loader -/

theorem cfgWrite_toggles (s : State) (sec a : Nat) (v : Word) : Toggles s (s.cfgWrite sec a v) := by
  have k : ∀ t, Keeps s t → Toggles s (t.hookedStore a v true) := fun t h => (Toggles.of_keeps h).trans (hookedStore_toggles t a v true)
  unfold State.cfgWrite
  split
  · exact .of_keeps (bump_keeps (Keeps.refl _))
  · dsimp only
    split
    · exact .of_keeps (bump_keeps (Keeps.refl _))
    · have h := k _ (Keeps.ite (c := a = 0x0E0000 ∧ sec = 2) (set_keeps (f := Reg.ID_CTRLSTAT_LIVESRC) (x := bitOf v.toNat 31) (i := 0) (j := 0)
        (set_keeps (f := Reg.BT_CTRL_SPDI3C) (x := bitOf v.toNat 30) (i := 0) (j := 0) (set_keeps (f := Reg.BT_CTRL_LIVESRC) (x := bitOf v.toNat 31) (i := 0) (j := 0)
          (bump_keeps (f := Reg.BT_CFGSTAT_APPLIED) (n := 1) (i := 0) (j := 0) (Keeps.refl s)))))
        (bump_keeps (f := Reg.BT_CFGSTAT_APPLIED) (n := 1) (i := 0) (j := 0) (Keeps.refl s)))
      split
      · exact h
      · split
        · exact ⟨h.vddaon, h.dev⟩
        · exact ⟨h.vddaon, h.dev⟩

theorem runWriteList_toggles (s : State) (es : List (List Byte)) : Toggles s (s.runWriteList es) := by
  induction es generalizing s with
  | nil =>
    unfold State.runWriteList
    refine .of_keeps (afterSection_keeps ?_)
    exact Keeps.ite (Keeps.upd (Keeps.upd (Keeps.refl _) id id id id id id) id id id id id id)
      (Keeps.upd (Keeps.refl _) id id id id id id)
  | cons e es ih =>
    unfold State.runWriteList
    dsimp only
    split
    · exact ⟨rfl, .inl rfl⟩
    · split
      · exact (cfgWrite_toggles _ _ _ _).trans (ih _)
      · exact (Toggles.of_keeps (bump_keeps (Keeps.refl _))).trans (ih _)

theorem sectionAccepted_toggles (s : State) (t : Nat) (bs : List Byte) : Toggles s (s.sectionAccepted t bs) := by
  have k : ∀ u : State, u.dev = s.dev → u.vddaon = s.vddaon → Toggles s (u.runWriteList (entriesOf bs)) := fun u d v =>
    Toggles.trans ⟨v, .inl d⟩ (runWriteList_toggles u _)
  unfold State.sectionAccepted
  dsimp only
  split
  · exact k _ rfl rfl
  · exact k _ rfl rfl
  · exact .of_keeps (afterSection_keeps (tablesRecords_keeps (Keeps.upd (Keeps.refl _) id id id id id id)))
  · exact .of_keeps (afterSection_keeps (defectHash_keeps (loadDefects_keeps (Keeps.upd (Keeps.refl _) id id id id id id))))
  · exact .of_keeps (afterSection_keeps (rigSection_keeps (Keeps.upd (Keeps.refl _) id id id id id id)))
  · exact .of_keeps (afterSection_keeps (Keeps.upd (Keeps.refl _) id id id id id id))

theorem readEnded_toggles (s : State) (i : BootItem) (data : Option (List Byte)) : Toggles s (s.readEnded i data) := by
  unfold State.readEnded
  lift_lets
  extract_lets c reads good t bs
  have pick : ∀ o : Option Nat, Keeps s (match o with
      | some c => s.set Reg.CE_VAL_VAL (Nat.xor c 0xFFFFFFFF) 0
      | none => s) := by
    intro o
    cases o with
    | none => exact Keeps.refl _
    | some c => exact set_keeps (Keeps.refl _)
  have ht : Keeps s t := pick c
  clear_value t good reads bs
  split
  · split
    · split
      · exact .of_keeps (slotFail_keeps ht)
      · exact .of_keeps (startItem_keeps (Keeps.upd ht id id id id id id))
    · split
      · exact .of_keeps (afterSection_keeps (Keeps.upd ht id id id id id id))
      · exact .of_keeps (slotFail_keeps ht)
    · exact (Toggles.of_keeps ht).trans (sectionAccepted_toggles _ _ _)
  · split
    · have := startItem_keeps (i := i) ht
      exact ⟨this.vddaon, .inl this.dev⟩
    · exact .of_keeps (itemFailed_keeps ht)

end State

end Sys2Proof.Machine
end

