-- ==== Sys2Proof/Tests/Slice0.lean ====
section
/-! SUPPORT. Tests: for each range check of a well-formed command a term that it refuses; for each clause of a statement with
hypotheses a state and operands that meet all of them, at the edge of their ranges; and single steps against values that spec/
gives. -/
namespace Sys2Proof

open Sys2Proof.Machine

set_option maxRecDepth 20000

/-! ## Well-formed commands -/

theorem test_wellFormed_1 : ∀ i ∈ ([
    .strapSample 511, .blockOtpReadDone 255 true [], .cisternInitDone (List.replicate 4 (0, 0, 0, 0)), .spdTransferDone 3 true,
    .spdTransferTimeout 3, .spdTempPoll (List.replicate 4 none), .rtBlockLock 31, .rtLockLoss 31,
    .idle 31, .credit 31 255 (2 ^ 24 - 1), .patternOk 31 255, .markerOk 31 255 (2 ^ 24 - 1),
    .phase 31 255 15 63, .waddr 31 255 (2 ^ 24 - 1), .wdata 31 255 0#32, .rcfrm 31 255 (2 ^ 32 - 1),
    .rcgo 31 255 65535 65535 15, .rtReservedType 31 255, .trainingStepTimeout 31, .linkHeartbeat 31,
    .returnLaneTimeout 31, .linkGroupClockFault 31, .creditWithhold 31, .creditStall 31,
    .packetSend 31, .groupEnable 31, .groupDisable 31, .groupRetire 31,
    .prbsTxStart 31, .prbsTxStop 31] : List Instr), i.wellFormed = true := by decide

theorem test_wellFormed_2 : ∀ i ∈ ([
    .prbsRtStart 31, .prbsRtStop 31, .rtPrbsSync 31, .rtPrbsSyncLoss 31,
    .rigTimeReceive 255 15 (2 ^ 64 - 1), .rigProbeReceive 255 15 (2 ^ 64 - 1), .rigProbeReplyReceive 255 15 (2 ^ 64 - 1) (2 ^ 64 - 1), .rigFramebcReceive 255 15 (2 ^ 64 - 1),
    .rigFixReceive 255 15 (List.replicate 32 0#8), .eyeScanStart 0x80000000#32, .eyeScanDone (2 ^ 32 - 1), .tbCfgWrite 3 0#32,
    .encoderEdge 3 true true, .indexPulse 3, .indexTimeout 3, .syncPulse 3,
    .syncMiss 3, .coastTimeout 3, .resolverOutputTimeout 3, .posRead 3,
    .slotArm 63 0x80000000#32, .slotDisarm 63 0x7FFFFFFF#32, .actNone 63, .startFrame 63,
    .startExp 63, .startTrack 63, .senseReg 63, .senseInj 63,
    .galSet 63, .galPulse 63] : List Instr), i.wellFormed = true := by decide

theorem test_wellFormed_3 : ∀ i ∈ ([
    .galPulseEnd 23, .filterReset 63, .latch 63, .pendingTriggerExecute 63,
    .classExposureStart 7, .steerDone 7, .rowConvertStart 65535, .rowConversionDone 65535 [16383] [16383],
    .blockArbiterEntry 255, .s1EntryOut 15, .frameClose 15, .blockArbiterTimeout 255,
    .regionArbiterTimeout 15, .lineMemoryError 7 0 0, .domainPowerGoodLoss 319, .blockReady 255 [],
    .trackReadPending 65535, .trackReadDone 65535 [16383], .pointingUpdate 3, .guardTimeout 3,
    .guardHoldPeriod 3, .stage2RowOut 2, .recallSubmit 15, .caParityError 3,
    .memoryEccError 7 0 0, .ceValWrite 3 0#32, .sequenceStart 1 true, .senseConversionDone 1 0,
    .sliceHandover 1, .sliceCalibrationDone 1 4 0 0] : List Instr), i.wellFormed = true := by decide

theorem test_wellFormed_4 : ∀ i ∈ ([
    .senseEnable 1 0x80000000#32, .senseDisable 1 0x7FFFFFFF#32, .zeroCalStart 0x80000000#32, .zeroCalDone 1,
    .senseResultRead 1 19, .filterInput 15, .filterConfigWrite 15 true 0#32, .filterOutputRead 15,
    .sensorSample (List.replicate 24 none), .pllLockLoss 5, .supplyTrip 6 true, .safetyHeartbeat (List.replicate 4 0#8),
    .entdaa 127, .setdasa 127, .setnewda 127, .otpProgram 65535 true,
    .otpLock 65535 true, .forcelock 65535 true, .enforce 65535 true, .otpPulseDone (2 ^ 71 - 1) (2 ^ 71 - 1) true,
    .registerWrite (2 ^ 24 - 1) 0#32, .rigRxLock 1, .rigMessageSend 1, .rtPrbsBitError 31,
    .i3cPrivateRead 256] : List Instr), i.wellFormed = true := by decide

theorem test_illFormed_1 : ∀ i ∈ ([
    .strapSample 512, .blockOtpReadDone 256 true [], .cisternInitDone (List.replicate 3 (0, 0, 0, 0)), .spdTransferDone 4 true,
    .spdTransferTimeout 4, .spdTempPoll (List.replicate 3 none), .rtBlockLock 32, .rtLockLoss 32,
    .idle 32, .credit 32 255 (2 ^ 24 - 1), .credit 31 256 (2 ^ 24 - 1), .credit 31 255 (2 ^ 24),
    .patternOk 32 255, .patternOk 31 256, .markerOk 32 255 (2 ^ 24 - 1), .markerOk 31 256 (2 ^ 24 - 1),
    .markerOk 31 255 (2 ^ 24), .phase 32 255 15 63, .phase 31 256 15 63, .phase 31 255 16 63,
    .phase 31 255 15 64, .waddr 32 255 (2 ^ 24 - 1), .waddr 31 256 (2 ^ 24 - 1), .waddr 31 255 (2 ^ 24),
    .wdata 32 255 0#32, .wdata 31 256 0#32, .rcfrm 32 255 (2 ^ 32 - 1), .rcfrm 31 256 (2 ^ 32 - 1),
    .rcfrm 31 255 (2 ^ 32), .rcgo 32 255 65535 65535 15] : List Instr), i.wellFormed = false := by decide

theorem test_illFormed_2 : ∀ i ∈ ([
    .rcgo 31 256 65535 65535 15, .rcgo 31 255 65536 65535 15, .rcgo 31 255 65535 65536 15, .rcgo 31 255 65535 65535 16,
    .rtReservedType 32 255, .rtReservedType 31 256, .trainingStepTimeout 32, .linkHeartbeat 32,
    .returnLaneTimeout 32, .linkGroupClockFault 32, .creditWithhold 32, .creditStall 32,
    .packetSend 32, .groupEnable 32, .groupDisable 32, .groupRetire 32,
    .prbsTxStart 32, .prbsTxStop 32, .prbsRtStart 32, .prbsRtStop 32,
    .rtPrbsSync 32, .rtPrbsSyncLoss 32, .rigTimeReceive 256 15 (2 ^ 64 - 1), .rigTimeReceive 255 16 (2 ^ 64 - 1),
    .rigTimeReceive 255 15 (2 ^ 64), .rigProbeReceive 256 15 (2 ^ 64 - 1), .rigProbeReceive 255 16 (2 ^ 64 - 1), .rigProbeReceive 255 15 (2 ^ 64),
    .rigProbeReplyReceive 256 15 (2 ^ 64 - 1) (2 ^ 64 - 1), .rigProbeReplyReceive 255 16 (2 ^ 64 - 1) (2 ^ 64 - 1)] : List Instr), i.wellFormed = false := by decide

theorem test_illFormed_3 : ∀ i ∈ ([
    .rigProbeReplyReceive 255 15 (2 ^ 64) (2 ^ 64 - 1), .rigProbeReplyReceive 255 15 (2 ^ 64 - 1) (2 ^ 64), .rigFramebcReceive 256 15 (2 ^ 64 - 1), .rigFramebcReceive 255 16 (2 ^ 64 - 1),
    .rigFramebcReceive 255 15 (2 ^ 64), .rigFixReceive 256 15 (List.replicate 32 0#8), .rigFixReceive 255 16 (List.replicate 32 0#8), .rigFixReceive 255 15 (List.replicate 31 0#8),
    .eyeScanStart 0x7FFFFFFF#32, .eyeScanDone (2 ^ 32), .tbCfgWrite 4 0#32, .encoderEdge 4 true true,
    .indexPulse 4, .indexTimeout 4, .syncPulse 4, .syncMiss 4,
    .coastTimeout 4, .resolverOutputTimeout 4, .posRead 4, .slotArm 64 0x80000000#32,
    .slotArm 63 0x7FFFFFFF#32, .slotDisarm 64 0x7FFFFFFF#32, .slotDisarm 63 0x80000000#32, .actNone 64,
    .startFrame 64, .startExp 64, .startTrack 64, .senseReg 64,
    .senseInj 64, .galSet 64] : List Instr), i.wellFormed = false := by decide

theorem test_illFormed_4 : ∀ i ∈ ([
    .galPulse 64, .galPulseEnd 24, .filterReset 64, .latch 64,
    .pendingTriggerExecute 64, .classExposureStart 8, .steerDone 8, .rowConvertStart 65536,
    .rowConversionDone 65536 [16383] [16383], .rowConversionDone 65535 [16383] [16384], .rowConversionDone 65535 [0, 16384] [16383], .blockArbiterEntry 256,
    .s1EntryOut 16, .frameClose 16, .blockArbiterTimeout 256, .regionArbiterTimeout 16,
    .lineMemoryError 8 0 0, .domainPowerGoodLoss 320, .blockReady 256 [], .trackReadPending 65536,
    .trackReadDone 65536 [16383], .trackReadDone 65535 [16384], .pointingUpdate 4, .guardTimeout 4,
    .guardHoldPeriod 4, .stage2RowOut 3, .recallSubmit 16, .caParityError 4,
    .memoryEccError 8 0 0, .ceValWrite 4 0#32] : List Instr), i.wellFormed = false := by decide

theorem test_illFormed_5 : ∀ i ∈ ([
    .sequenceStart 2 true, .senseConversionDone 2 0, .sliceHandover 2, .sliceCalibrationDone 2 4 0 0,
    .sliceCalibrationDone 1 5 0 0, .senseEnable 2 0x80000000#32, .senseEnable 1 0x7FFFFFFF#32, .senseDisable 2 0x7FFFFFFF#32,
    .senseDisable 1 0x80000000#32, .zeroCalStart 0x7FFFFFFF#32, .zeroCalDone 2, .senseResultRead 2 19,
    .senseResultRead 1 20, .filterInput 16, .filterConfigWrite 16 true 0#32, .filterOutputRead 16,
    .sensorSample (List.replicate 23 none), .pllLockLoss 6, .supplyTrip 7 true, .safetyHeartbeat (List.replicate 3 0#8),
    .entdaa 128, .setdasa 128, .setnewda 128, .otpProgram 65536 true,
    .otpLock 65536 true, .forcelock 65536 true, .enforce 65536 true, .otpPulseDone (2 ^ 71) (2 ^ 71 - 1) true,
    .otpPulseDone (2 ^ 71 - 1) (2 ^ 71) true, .registerWrite (2 ^ 24) 0#32] : List Instr), i.wellFormed = false := by decide

theorem test_illFormed_6 : ∀ i ∈ ([
    .rigRxLock 2, .rigMessageSend 2, .rtPrbsBitError 32, .i3cPrivateRead 257] : List Instr), i.wellFormed = false := by decide

/-! ## States for the tests -/

/-- A part in state `d` with its clocks running, everything else as after reset. -/
def tState (d : DevState) : State := { State.reset with dev := d, pllMain := true, up := 20000000, now := 10000000 }

/-- Group 31 in link state `l` with block lock, in RUN. -/
def tGroup (l : Nat) : State := ((tState .run).set Reg.LK_GSTAT_LSTATE l 31).set Reg.LK_GSTAT_RTLOCK 1 31

/-- A part in RUN as an interior device of a rig. -/
def tRig : State := { tState .run with boot := { Boot.init with rigRole := 2 } }

/-- Slot 63 with action `a`, argument `arg` and the bits `more` of its working copy, in slot state `ss`, due now. -/
def tSlot (d : DevState) (ss a arg more : Nat) : State :=
  let s : State := (tState d).setSlot 63 fun x => { x with cfg := BitVec.ofNat 32 (a * 256 + arg + more), ts := 9999000, te := 10000000 }
  s.set Reg.EV_STAT_SSTATE ss 63

/-- Timebase channel 3 with source `src` in state `cs`. -/
def tChan (src cs : Nat) : State := ((tState .run).set Reg.TB_CFG_SRC src 3).set Reg.TB_STAT_CSTATE cs 3

/-- A frame of one class in use, at phase `ph`, whose transfer was at 9.5 ms. -/
def tFrame (ph : Nat) : Frame :=
  { num := 1, gen := 0, img := [(0x030100, 0#32)], map := [], ovr := none, arm := 8900000, trig := 0, slot := 0, slotCh := 0, slotP := 0, strict := false, entry := 0, ts := 0
    start := 9000000, t := 9500000, ta := 10001000, late := 0, skipped := 0, cls := [⟨true, 9000000, 10000, 0, 0, 0, 0⟩]
    theta := [], powered := 0, ready := 0, div := 0, strip := false, tConv := 0, tRd := 1000, tEnd := 100000, holdP := 0
    dark := false, flags := 0, leSrc := 0, admis := 0, supp := 0, hdrout := false, rateSkip := false, phase := ph, flush := []
    released := [], steers := [], subSteers := [], latchStart := [], latchT := [], startDiff := 0, lzoom := 0, lfocus := 0, loss := []
    maxLoss := 0, clamped := [], slotsOpen := 0, rowsDone := [], s1 := [], outRows := [], fills := [], ovf := 0, counts := []
    cflags := [], rstat := [], holdA := 0, holdB := 0, lastConv := 0, statsDone := false, burst := 0, burstLen := 0
    raster := [], rasterHdr := [], hdrDue := [], rate := (0, 1), dynCnt := 0, darkTab := none, s2Asked := false }

/-- A part in RUN that holds the frames `fs`. -/
def tFrames (fs : List Frame) : State := { tState .run with frames := fs }

/-- Cell `c` with nothing under way. -/
def tCell (c : Nat) : CellRt := ⟨c, none, [], none, [], 1, 0, [], 0⟩

/-- An output row of cell `c`. -/
def tRow (c r : Nat) : OutRow := ⟨0, c, r, false, 0, 64, 0, [1, 2]⟩

/-- A stored frame of one row. -/
def tStored : Stored := ⟨tFrame 3, [], [tRow 0 0], [], 0⟩

/-- A part in RUN whose ring is frozen with one frame in it. -/
def tFrozen : State :=
  let s := (tState .run).set Reg.CS_RINGSTAT_RSTATE 2
  { s with cis := { s.cis with ring := [tStored] } }

/-- Sense unit 1 on and changed through `f`, in RUN. -/
def tSense (f : SenseUnit → SenseUnit) : State := (tState .run).setSu 1 fun x => f { x with on := true }

/-- Filter channel 15 enabled with configuration bits `v`, one input of value 5 at 9 ms waiting. -/
def tFilt (f : FiltCh → FiltCh) : State :=
  let s := (((tState .run).set Reg.FE_FC_CFG_EN 1 15).set Reg.FE_FC_CFG_SCS 1 15).set Reg.FE_FC_CFG_RANKT 0 15
  { s with flt := { s.flt with ch := s.flt.ch.set 15 (f { FiltCh.reset 0 0 with inQ := [(5, 9000000, 9000000)] }) } }

/-- A sub-exposure with its windows `ws` and cells `cs`, over since 9.5 ms. -/
def tSub (ended : Bool) (img : RegFile) (ws cs : List Nat) : SubExp :=
  ⟨7, 0, 0, 9000000, 500000, 0, 1, 0, img, ws, cs, cs, ended, [], [], []⟩

/-- A part in RUN that holds the sub-exposure `x`. -/
def tTrack (x : SubExp) : State := { tState .run with trk := { Track.init with subs := [x] } }

/-- The pulsed command `r` of the OTP controller under way. -/
def tOtp (r : OtpRun) : State := { (tState .run).set Reg.OT_STAT_BUSY 1 with otp := { Otp.init with run := some r } }

/-- An image without window 0 has no window. -/
theorem aux_noWin : winsOn [(0x030100, 0#32)] = [] := by decide

/-- A frame without windows owes nothing on any VC. -/
theorem aux_vcDone (f : Frame) (h : f.img = [(0x030100, 0#32)]) (ho : f.outRows = []) (s : State) (v : Nat) :
    s.vcDone f v = true := by
  simp [State.vcDone, ho, Frame.inVc, h, aux_noWin]

/-- A frame without windows has no cell. -/
theorem aux_inSet (f : Frame) (h : f.img = [(0x030100, 0#32)]) (c : Nat) : f.inSet c = false := by
  simp [Frame.inSet, h, aux_noWin]

/-- A frame without windows has no charge left in the rows that have had their slots. -/
theorem aux_rowsRead (g : Frame) (h : g.img = [(0x030100, 0#32)]) (hp : g.phase = 2) (q : Nat → Bool) (n : Nat)
    (hs : n ≤ g.slotsOpen) (s : State) : s.rowsRead g q n = true := by
  simp [State.rowsRead, hp, hs, aux_inSet g h]

/-! ## Every hypothesis of a statement can be met -/

theorem test_stepRunsFront_1 : ∃ (c : Instr) (rest : List Instr) (s : State), s.pending = c :: rest :=
  ⟨.pornFall, [.pornRise], { tState .run with pending := [.pornFall, .pornRise] }, by decide⟩

theorem test_idleStepIsATick_1 : ∃ (s : State), s.pending = [] :=
  ⟨tState .run, by decide⟩

theorem test_idleStepIsATick_1b : ∃ (s : State), s.pending = [] :=
  ⟨State.reset, by decide⟩

theorem test_stepsKeepInvariants_1 : ∃ (s : State) (t : State), s.wf ∧ step s = .next t :=
  ⟨State.reset, { State.reset with up := 1 }, ⟨by unfold State.wf RegFile.wf; decide, rfl⟩⟩

theorem test_stepsKeepInvariants_2 : ∃ (s : State) (t : State), s.supplied ∧ step s = .next t :=
  ⟨State.reset, { State.reset with up := 1 }, ⟨by unfold State.supplied; decide, rfl⟩⟩

theorem test_onlyTableTransitions_1 : ∃ (c : Instr) (s : State) (t : State), s.supplied ∧ exec c s = .next t :=
  ⟨.pornFall, State.reset, { State.reset with boot := { Boot.init with porn := false } },
   ⟨by unfold State.supplied; decide, rfl⟩⟩

theorem test_onlyMovesMove_1 : ∃ (c : Instr) (s : State) (t : State), movesDevice c = false ∧ exec c s = .next t :=
  ⟨.disec, tState .run, { tState .run with ctl := { Control.init with events := false } }, ⟨rfl, rfl⟩⟩

theorem test_supplyAndPorn_1 : ∃ (s : State), s.boot.porn = false ∧ s.dev ≠ .shutdown ∧ s.vddaon = true :=
  ⟨{ tState .run with boot := { Boot.init with porn := false } }, by decide⟩

theorem test_supplyAndPorn_4 : ∃ (s : State), s.vddaon = false ∧ s.boot.porn = true :=
  ⟨{ State.reset with dev := .off, vddaon := false }, by decide⟩

theorem test_supplyAndPorn_5 : ∃ (s : State), s.vddaon = false ∧ s.boot.porn = false :=
  ⟨{ State.reset with dev := .off, vddaon := false, boot := { Boot.init with porn := false } }, by decide⟩

theorem test_safeBootEnds_1 : ∃ (s : State),
    s.dev = .safeBoot ∧ s.boot.strapped = false ∧ 1000000 ≤ s.up - s.boot.pornAt ∧
    (s.boot.shadowed = false ∨ s.pllMain = false) :=
  ⟨{ tState .safeBoot with up := 1000000 }, by decide⟩

theorem test_safeBootEnds_2 : ∃ (s : State),
    s.dev = .safeBoot ∧ s.boot.strapped = false ∧ 1000000 ≤ s.up - s.boot.pornAt ∧ s.boot.shadowed = true ∧ s.pllMain = true :=
  ⟨{ tState .safeBoot with up := 1000000, boot := { Boot.init with shadowed := true } }, by decide⟩

theorem test_safeBootEnds_3 : ∃ (s : State),
    s.dev = .safeBoot ∧ s.boot.shadowed = false ∧ (s.boot.strapped = false ∨ s.pllMain = false) :=
  ⟨tState .safeBoot, by decide⟩

theorem test_safeBootEnds_4 : ∃ (s : State),
    s.dev = .safeBoot ∧ s.boot.shadowed = false ∧ s.boot.strapped = true ∧ s.pllMain = true :=
  ⟨{ tState .safeBoot with boot := { Boot.init with strapped := true } }, by decide⟩

theorem test_safeBootEnds_5 : ∃ (s : State),
    s.dev = .safeBoot ∧ s.pllMain = false ∧ (s.boot.strapped = false ∨ s.boot.shadowed = false) :=
  ⟨State.reset, by decide⟩

theorem test_safeBootEnds_6 : ∃ (s : State),
    s.dev = .safeBoot ∧ s.pllMain = false ∧ s.boot.strapped = true ∧ s.boot.shadowed = true :=
  ⟨{ State.reset with boot := { Boot.init with strapped := true, shadowed := true } }, by decide⟩

theorem test_safeBootEnds_7 : ∃ (s : State), s.dev = .safeBoot ∧ 10000000 < s.up - s.boot.pornAt :=
  ⟨{ State.reset with up := 10000001 }, by decide⟩

theorem test_loaderReads_1 : ∃ (data : List Byte) (i : BootItem) (s : State),
    s.dev = .load ∧ s.boot.item = some i ∧ s.boot.delayUntil = none ∧ hasBit s.domLost 9 = false ∧
    s.up ≤ s.boot.burstAt + 100000 ∧ data.length ≤ 4096 ∧ s.boot.buf.length + data.length < s.boot.itemSize i :=
  ⟨List.replicate 63 0#8, .header,
   { tState .load with boot := { Boot.init with item := some .header, burstAt := 19900000 } }, by decide⟩

theorem test_loaderReads_2 : ∃ (data : List Byte) (s : State),
    s.dev = .load ∧ s.boot.item = some .header ∧ s.boot.delayUntil = none ∧ hasBit s.domLost 9 = false ∧
    s.up ≤ s.boot.burstAt + 100000 ∧ s.boot.buf = [] ∧ data.length = 64 ∧ crc32c (data.take 60) = leAt data 60 4 ∧
    Boot.headerFault data s.mono = none :=
  ⟨(leBytes 4 0x49585247 ++ leBytes 2 1 ++ leBytes 2 64 ++ leBytes 4 100000 ++ leBytes 4 7 ++ leBytes 2 1 ++ leBytes 1 3 ++ List.replicate 41 0#8) ++ leBytes 4 (crc32c (leBytes 4 0x49585247 ++ leBytes 2 1 ++ leBytes 2 64 ++ leBytes 4 100000 ++ leBytes 4 7 ++ leBytes 2 1 ++ leBytes 1 3 ++ List.replicate 41 0#8)),
   { tState .load with boot := { Boot.init with item := some .header, burstAt := 19900000 } }, by decide⟩

theorem test_loaderReads_3 : ∃ (data : List Byte) (s : State),
    s.dev = .load ∧ s.boot.item = some .header ∧ s.boot.delayUntil = none ∧ hasBit s.domLost 9 = false ∧
    s.up ≤ s.boot.burstAt + 100000 ∧ s.boot.buf = [] ∧ data.length = 64 ∧ crc32c (data.take 60) ≠ leAt data 60 4 ∧
    s.boot.reads.length < 2 :=
  ⟨List.replicate 64 0xFF#8, { tState .load with boot := { Boot.init with item := some .header, burstAt := 19900000 } },
   by decide⟩

theorem test_loaderReads_4 : ∃ (i : BootItem) (s : State),
    s.dev = .load ∧ s.boot.item = some i ∧ i ≠ .part 4 ∧ i ≠ .part 5 ∧ s.boot.burstAt + 100000 < s.up ∧
    s.boot.reads.length < 2 :=
  ⟨.part 7, { tState .load with boot := { Boot.init with item := some (.part 7), burstAt := 19899999, reads := [none] } },
   by decide⟩

theorem test_loaderReads_5 : ∃ (n : Nat) (e : List Byte) (rest : List (List Byte)) (s : State),
    s.dev = .load ∧ s.boot.delayUntil = some n ∧ n ≤ s.up ∧ s.boot.wl = e :: rest ∧ leAt e 3 1 = 1 :=
  ⟨20000000, leBytes 3 5 ++ [1#8], [],
   { tState .load with boot := { Boot.init with delayUntil := some 20000000, wl := [leBytes 3 5 ++ [1#8]] } }, by decide⟩

theorem test_slotOutcomes_1 : ∃ (s : State),
    s.dev = .load ∧ s.boot.allRead = true ∧ s.boot.sig = none ∧
    (s.signatureValid = true ∨ s.get Reg.ID_BOOTSTAT_ENFORCE = 0) :=
  ⟨{ tState .load with boot := { Boot.init with allRead := true } }, ⟨rfl, rfl, rfl, Or.inr (by decide)⟩⟩

theorem test_slotOutcomes_2 : ∃ (s : State),
    s.dev = .load ∧ s.boot.allRead = true ∧ s.boot.sig = none ∧ s.boot.slot = some 0 ∧ s.signatureValid = false ∧
    s.get Reg.ID_BOOTSTAT_ENFORCE = 1 :=
  ⟨{ (tState .load).set Reg.ID_BOOTSTAT_ENFORCE 1 with boot := { Boot.init with allRead := true, slot := some 0 } },
   ⟨rfl, rfl, rfl, rfl, rfl, by decide⟩⟩

theorem test_slotOutcomes_3 : ∃ (k : Nat) (rest : List Nat) (s : State),
    s.dev = .load ∧ s.boot.reverting = true ∧ s.boot.todo = k :: rest ∧ hasBit s.domLost 9 = false :=
  ⟨1, [], { tState .load with boot := { Boot.init with reverting := true, todo := [1] } }, by decide⟩

theorem test_slotOutcomes_4 : ∃ (s : State), s.dev = .load ∧ s.boot.reverting = true ∧ s.boot.todo = [] :=
  ⟨{ tState .load with boot := { Boot.init with reverting := true, slot := some 1 } }, by decide⟩

theorem test_slotOutcomes_5 : ∃ (k : Nat) (s : State),
    s.dev = .load ∧ s.boot.slot = some k ∧ s.boot.allRead = true ∧ s.boot.sig ≠ none ∧ s.trimsLoaded = true ∧
    s.boot.cisDone = true :=
  ⟨1,
   { tState .load with boot := { Boot.init with slot := some 1, allRead := true, sig := some true, trims := List.range 256, cisDone := true } },
   by decide⟩

theorem test_loadPartsAndSpdBus_1 : ∃ (b : Nat) (s : State), b < 256 ∧ s.dev = .load ∧ b ∉ s.boot.trims :=
  ⟨255, tState .load, by decide⟩

theorem test_loadPartsAndSpdBus_2 : ∃ (sp : Nat) (z0 : Nat) (z1 : Nat) (z2 : Nat) (z3 : Nat) (t0 : Nat) (t1 : Nat) (t2 : Nat) (t3 : Nat) (s : State),
    s.dev = .load ∧ s.boot.cisStart = true ∧ s.boot.cisDone = false ∧ sp ≤ 2 ∧ z0 < 256 ∧ z1 < 256 ∧ z2 < 256 ∧ z3 < 256 ∧
    t0 < 256 ∧ t1 < 256 ∧ t2 < 256 ∧ t3 < 256 ∧ (∀ n, n < 4 → s.get Reg.CS_CH_STAT_LOST n = 0) :=
  ⟨2, 255, 16, 16, 16, 30, 255, 0, 1, { tState .load with boot := { Boot.init with cisStart := true } }, by decide⟩

theorem test_loadPartsAndSpdBus_3 : ∃ (n : Nat) (s : State), n < 4 ∧ s.dev = .load :=
  ⟨3, tState .load, by decide⟩

theorem test_loadPartsAndSpdBus_4 : ∃ (n : Nat) (s : State), n < 4 ∧ s.running = true :=
  ⟨3, tState .standby, by decide⟩

theorem test_loadPartsAndSpdBus_5 : ∃ (n : Nat) (s : State),
    n < 4 ∧ ((s.dev = .load ∧ s.ctl.spdFails.getD n 0 < 2) ∨ (s.running = true ∧ s.ctl.spdFails.getD n 0 < 8)) :=
  ⟨3, { tState .run with ctl := { Control.init with spdFails := [0, 0, 0, 7] } }, ⟨by decide, Or.inr ⟨by decide, by decide⟩⟩⟩

theorem test_loadPartsAndSpdBus_6 : ∃ (temp : Nat) (s : State),
    s.dev = .load ∧ s.chanUp 0 = true ∧ temp < 256 ∧ temp ≤ s.get Reg.CS_CFG_TCRIT :=
  ⟨85, ((tState .load).set Reg.CS_CH_STAT_TRAINED 1).set Reg.CS_CFG_TCRIT 85, by decide⟩

theorem test_loadPartsAndSpdBus_7 : ∃ (n : Nat) (s : State),
    n < 4 ∧ s.get Reg.CS_CH_STAT_LOST n = 0 ∧
    ((s.dev = .load ∧ s.ctl.spdFails.getD n 0 = 2) ∨ (s.running = true ∧ s.ctl.spdFails.getD n 0 = 8)) :=
  ⟨3, { tState .load with ctl := { Control.init with spdFails := [0, 0, 0, 2] } },
   ⟨by decide, by decide, Or.inl ⟨by decide, by decide⟩⟩⟩

theorem test_loadPartsAndSpdBus_7b : ∃ (n : Nat) (s : State),
    n < 4 ∧ s.get Reg.CS_CH_STAT_LOST n = 0 ∧
    ((s.dev = .load ∧ s.ctl.spdFails.getD n 0 = 2) ∨ (s.running = true ∧ s.ctl.spdFails.getD n 0 = 8)) :=
  ⟨0, { tState .standby with ctl := { Control.init with spdFails := [8, 0, 0, 2] } },
   ⟨by decide, by decide, Or.inr ⟨by decide, by decide⟩⟩⟩

theorem test_returnLaneBlocks_1 : ∃ (g : Nat) (s : State),
    g < 32 ∧ s.groups.length = 32 ∧ s.lstate g ≠ lsOff ∧ s.lstate g ≠ lsFailed ∧ s.lstate g ≠ lsClock :=
  ⟨31, tGroup lsPattern, by decide⟩

theorem test_returnLaneBlocks_2 : ∃ (g : Nat) (s : State),
    g < 32 ∧ s.groups.length = 32 ∧ s.lstate g = lsClock ∧ 10000 ≤ s.now - (s.group g).stepAt :=
  ⟨31, (tGroup lsClock).setGroup 31 fun x => { x with stepAt := 9990000 }, by decide⟩

theorem test_returnLaneBlocks_3 : ∃ (g : Nat), g < 32 :=
  ⟨31, by decide⟩

theorem test_returnLaneBlocks_4 : ∃ (g : Nat) (s : State), g < 32 ∧ s.lstate g ≠ lsClock :=
  ⟨31, tGroup lsActive, by decide⟩

theorem test_returnLaneMessages_1 : ∃ (g : Nat) (seq : Nat) (limit : Nat) (s : State),
    s.rtOpen g seq ∧ limit < 2 ^ 24 ∧ (limit + 2 ^ 24 - s.get Reg.LK_GUSED_VALUE g) % 2 ^ 24 < 2 ^ 23 :=
  ⟨31, 255, 16777215, (tGroup lsActive).set Reg.LK_GUSED_VALUE 8388609 31, by unfold State.rtOpen; decide⟩

theorem test_returnLaneMessages_2 : ∃ (g : Nat) (seq : Nat) (s : State), s.rtOpen g seq ∧ s.lstate g = lsPattern :=
  ⟨31, 255, tGroup lsPattern, by unfold State.rtOpen; decide⟩

theorem test_returnLaneMessages_3 : ∃ (g : Nat) (seq : Nat) (lane : Nat) (tap : Nat) (s : State),
    s.rtOpen g seq ∧ s.lstate g = lsPattern ∧ lane < 16 ∧ tap < 64 :=
  ⟨31, 0, 15, 63, tGroup lsPattern, by unfold State.rtOpen; decide⟩

theorem test_returnLaneMessages_4 : ∃ (g : Nat) (seq : Nat) (addr : Nat) (s : State),
    s.rtOpen g seq ∧ s.get Reg.LK_CTL_CTLACT = g ∧ addr < 2 ^ 24 :=
  ⟨31, 255, 16777215, (tGroup lsActive).set Reg.LK_CTL_CTLACT 31, by unfold State.rtOpen; decide⟩

theorem test_returnLaneMessages_5 : ∃ (g : Nat) (seq : Nat) (s : State), s.rtOpen g seq ∧ s.get Reg.LK_CTL_CTLACT = g :=
  ⟨31, 0, (tGroup lsActive).set Reg.LK_CTL_CTLACT 31, by unfold State.rtOpen; decide⟩

theorem test_returnLaneMessages_6 : ∃ (g : Nat) (seq : Nat) (s : State), s.rtOpen g seq :=
  ⟨31, 0, tGroup lsActive, by unfold State.rtOpen; decide⟩

theorem test_returnLaneActions_1 : ∃ (g : Nat) (seq : Nat) (limit : Nat) (s : State),
    s.rtOpen g seq ∧ s.lstate g = lsMarker ∧ limit < 2 ^ 24 ∧ s.dev ≠ .train :=
  ⟨31, 0, 16777215, tGroup lsMarker, by unfold State.rtOpen; decide⟩

theorem test_returnLaneActions_2 : ∃ (g : Nat) (seq : Nat) (first : Nat) (last : Nat) (vc : Nat) (f : Nat) (x : Stored) (s : State),
    s.rtOpen g seq ∧ s.get Reg.LK_CTL_CTLACT = g ∧ s.ctl.rcfrm = some f ∧ s.get Reg.CS_RCSTAT_QUEUED < 4 ∧
    s.frozenFrame f = some x ∧ first ≤ last ∧ (State.storedSpan x).1 ≤ last ∧ last ≤ (State.storedSpan x).2 ∧ vc < 16 :=
  ⟨31, 0, 0, 0, 15, 1, tStored,
   { ((tGroup lsActive).set Reg.LK_CTL_CTLACT 31).set Reg.CS_RINGSTAT_RSTATE 2 with cis := { Cis.init with ring := [tStored] }, ctl := { Control.init with rcfrm := some 1 } },
   by unfold State.rtOpen; decide⟩

theorem test_returnLaneActions_3 : ∃ (g : Nat) (seq : Nat) (s : State),
    s.rtOpen g seq ∧ s.get Reg.LK_CTL_CTLACT = g ∧ s.ctl.wptr = some 0x020020 ∧ s.get Reg.ID_CTRLSTAT_LIVESRC = 1 :=
  ⟨31, 0,
   { ((tGroup lsActive).set Reg.LK_CTL_CTLACT 31).set Reg.ID_CTRLSTAT_LIVESRC 1 with ctl := { Control.init with wptr := some 0x020020 } },
   by unfold State.rtOpen; decide⟩

theorem test_repeatedMessages_1 : ∃ (g : Nat) (seq : Nat) (c : Instr) (s : State),
    ((∃ l, c = .credit g seq l) ∨ c = .patternOk g seq ∨ (∃ l, c = .markerOk g seq l) ∨ (∃ l p, c = .phase g seq l p) ∨ (∃ a, c = .waddr g seq a) ∨ (∃ v, c = .wdata g seq v) ∨ (∃ f, c = .rcfrm g seq f) ∨ (∃ a b v, c = .rcgo g seq a b v) ∨ c = .rtReservedType g seq) ∧
    g < 32 ∧ s.groups.length = 32 ∧ s.get Reg.LK_GSTAT_RTLOCK g = 1 ∧ hasBit (s.get Reg.LK_PRBSRT_EN) g = false ∧ seq < 256 ∧
    (s.group g).rtSeq = some seq ∧ s.lstate g ≠ lsClock :=
  ⟨31, 255, .credit 31 255 7, (tGroup lsActive).setGroup 31 fun x => { x with rtSeq := some 255 },
   ⟨Or.inl ⟨7, rfl⟩, by decide⟩⟩

theorem test_repeatedMessages_1b : ∃ (g : Nat) (seq : Nat) (c : Instr) (s : State),
    ((∃ l, c = .credit g seq l) ∨ c = .patternOk g seq ∨ (∃ l, c = .markerOk g seq l) ∨ (∃ l p, c = .phase g seq l p) ∨ (∃ a, c = .waddr g seq a) ∨ (∃ v, c = .wdata g seq v) ∨ (∃ f, c = .rcfrm g seq f) ∨ (∃ a b v, c = .rcgo g seq a b v) ∨ c = .rtReservedType g seq) ∧
    g < 32 ∧ s.groups.length = 32 ∧ s.get Reg.LK_GSTAT_RTLOCK g = 1 ∧ hasBit (s.get Reg.LK_PRBSRT_EN) g = false ∧ seq < 256 ∧
    (s.group g).rtSeq = some seq ∧ s.lstate g ≠ lsClock :=
  ⟨31, 255, .patternOk 31 255, (tGroup lsActive).setGroup 31 fun x => { x with rtSeq := some 255 },
   ⟨Or.inr (Or.inl rfl), by decide⟩⟩

theorem test_repeatedMessages_1c : ∃ (g : Nat) (seq : Nat) (c : Instr) (s : State),
    ((∃ l, c = .credit g seq l) ∨ c = .patternOk g seq ∨ (∃ l, c = .markerOk g seq l) ∨ (∃ l p, c = .phase g seq l p) ∨ (∃ a, c = .waddr g seq a) ∨ (∃ v, c = .wdata g seq v) ∨ (∃ f, c = .rcfrm g seq f) ∨ (∃ a b v, c = .rcgo g seq a b v) ∨ c = .rtReservedType g seq) ∧
    g < 32 ∧ s.groups.length = 32 ∧ s.get Reg.LK_GSTAT_RTLOCK g = 1 ∧ hasBit (s.get Reg.LK_PRBSRT_EN) g = false ∧ seq < 256 ∧
    (s.group g).rtSeq = some seq ∧ s.lstate g ≠ lsClock :=
  ⟨31, 255, .rtReservedType 31 255, (tGroup lsActive).setGroup 31 fun x => { x with rtSeq := some 255 },
   ⟨by simp, by decide⟩⟩

theorem test_linkTraining_1 : ∃ (g : Nat) (s : State),
    g < 32 ∧ s.groups.length = 32 ∧ s.get Reg.LK_TRCFG_PHTO ≠ 0 ∧
    (s.lstate g = lsClock ∨ s.lstate g = lsPattern ∨ s.lstate g = lsMarker) ∧
    s.get Reg.LK_TRCFG_PHTO * 1000 ≤ s.now - (s.group g).stepAt :=
  ⟨31, ((tGroup lsMarker).set Reg.LK_TRCFG_PHTO 100).setGroup 31 fun x => { x with stepAt := 9900000 }, by decide⟩

theorem test_linkTraining_2 : ∃ (s : State),
    s.dev = .train ∧ trainClass (s.get Reg.LK_TRCFG_TRCLASS) ≤ s.now - s.trainAt ∧ s.runReady = false :=
  ⟨{ (tState .train).set Reg.LK_GRPEN_EN 1 with now := 5000000000, inForce := [(Reg.LK_VCMAP_MAP.addr 0 0, 1#32)] },
   by decide⟩

theorem test_linkTraining_3 : ∃ (s : State),
    s.dev = .train ∧ trainClass (s.get Reg.LK_TRCFG_TRCLASS) ≤ s.now - s.trainAt ∧ s.runReady = true :=
  ⟨{ tState .train with now := 5000000000 }, by decide⟩

theorem test_linkTraining_4 : ∃ (s : State), s.groups.length = 32 ∧ s.pllMain = true ∧ s.markerAt + 865128 ≤ s.now :=
  ⟨tGroup lsMarker, by decide⟩

theorem test_linkTraining_5 : ∃ (s : State), s.now < s.markerAt + 865128 :=
  ⟨{ tState .run with markerAt := 9134873 }, by decide⟩

theorem test_linkTraffic_1 : ∃ (g : Nat) (s : State),
    g < 32 ∧ s.groups.length = 32 ∧ s.lstate g = lsActive ∧ s.running = true ∧ (s.group g).hbAt ≤ s.now ∧
    (s.group g).withheldAt = none ∧ (s.group g).spill = [] :=
  ⟨31, tGroup lsActive, by decide⟩

theorem test_linkTraffic_2 : ∃ (g : Nat) (t0 : Nat) (s : State),
    g < 32 ∧ s.groups.length = 32 ∧ s.lstate g = lsActive ∧ (s.group g).waitAt = some t0 ∧ (s.group g).withheldAt = none ∧
    s.crtt < s.now - t0 ∧ s.spillOn = false :=
  ⟨31, 9994999,
   (tGroup lsActive).setGroup 31 fun x => { x with waitAt := some 9994999, buf := [⟨0, 0x40, 0, 1, [], true, false, false⟩] },
   by decide⟩

theorem test_linkTraffic_3 : ∃ (g : Nat) (t0 : Nat) (s : State),
    g < 32 ∧ (s.group g).withheldAt = some t0 ∧ s.crto ≤ s.now - t0 :=
  ⟨31, 5000000, ((tGroup lsActive).set Reg.LK_CRCFG_CRTO 5).setGroup 31 fun x => { x with withheldAt := some 5000000 },
   by decide⟩

theorem test_linkTraffic_4 : ∃ (g : Nat) (p : Packet) (s : State),
    g < 32 ∧ s.groups.length = 32 ∧ s.lstate g = lsActive ∧ s.headPacket g = some p ∧ s.canStart g p = true ∧
    (s.fromRing g p = false ∨ s.servesDrain g = true) :=
  ⟨31, ⟨0, 0x40, 0, 1, [], true, false, false⟩,
   ((tGroup lsActive).set Reg.LK_GLIM_VALUE 100 31).setGroup 31 fun x => { x with buf := [⟨0, 0x40, 0, 1, [], true, false, false⟩] },
   by decide⟩

theorem test_linkTraffic_5 : ∃ (l : Lane), l.scr < 2 ^ 58 :=
  ⟨⟨2 ^ 58 - 1, 0⟩, by decide⟩

theorem test_linkFailure_1 : ∃ (g : Nat) (s : State),
    g < 32 ∧ s.groups.length = 32 ∧ hasBit (s.get Reg.LK_PRBSRT_EN) g = false ∧
    s.get Reg.LK_CRCFG_RTTO * 1000 < s.now - (s.group g).lastRt ∧ s.lstate g = lsActive ∧ s.spillOn = false :=
  ⟨31, (tGroup lsActive).set Reg.LK_CRCFG_RTTO 10000, by decide⟩

theorem test_linkFailure_2 : ∃ (g : Nat) (s : State),
    g < 32 ∧ s.groups.length = 32 ∧ hasBit (s.get Reg.LK_PRBSRT_EN) g = false ∧
    s.get Reg.LK_CRCFG_RTTO * 1000 < s.now - (s.group g).lastRt ∧
    (s.lstate g = lsClock ∨ s.lstate g = lsPattern ∨ s.lstate g = lsMarker) :=
  ⟨31, (tGroup lsPattern).set Reg.LK_CRCFG_RTTO 10000, by decide⟩

theorem test_linkFailure_3 : ∃ (g : Nat) (s : State),
    g < 32 ∧ s.groups.length = 32 ∧ s.lstate g ≠ lsOff ∧ s.lstate g ≠ lsFailed ∧ s.spillOn = false :=
  ⟨31, tGroup lsPrbs, by decide⟩

theorem test_linkFailure_4 : ∃ (g : Nat) (s : State),
    g < 32 ∧ s.groups.length = 32 ∧ s.running = true ∧ s.lstate g ≠ lsFailed ∧ s.spillOn = false :=
  ⟨31, tGroup lsOff, by decide⟩

theorem test_linkFailure_5 : ∃ (g : Nat) (s : State),
    g < 32 ∧ s.groups.length = 32 ∧ s.running = true ∧ s.lstate g ≠ lsOff ∧ s.lstate g ≠ lsFailed ∧ s.spillOn = false :=
  ⟨31, tGroup lsActive, by decide⟩

theorem test_linkFailure_6 : ∃ (g : Nat) (s : State),
    g < 32 ∧ s.groups.length = 32 ∧ s.lstate g = lsOff ∧ s.running = true :=
  ⟨31, tState .run, by decide⟩

theorem test_lineTests_1 : ∃ (g : Nat) (s : State),
    g < 32 ∧ s.running = true ∧ s.prbsRefused g = false ∧ s.lstate g = lsActive :=
  ⟨31, tGroup lsActive, by decide⟩

theorem test_lineTests_2 : ∃ (g : Nat) (s : State),
    g < 32 ∧ s.running = true ∧ s.groups.length = 32 ∧ s.lstate g = lsPrbs :=
  ⟨31, tGroup lsPrbs, by decide⟩

theorem test_lineTests_3 : ∃ (g : Nat) (s : State), g < 32 ∧ s.running = true ∧ s.prbsRefused g = false :=
  ⟨31, tGroup lsActive, by decide⟩

theorem test_lineTests_4 : ∃ (g : Nat) (s : State), g < 32 ∧ s.running = true ∧ s.groups.length = 32 :=
  ⟨31, (tGroup lsActive).set Reg.LK_PRBSRT_EN 0x80000000, by decide⟩

theorem test_lineTests_5 : ∃ (g : Nat) (s : State), g < 32 ∧ hasBit (s.get Reg.LK_PRBSRT_EN) g = true :=
  ⟨31, (tGroup lsActive).set Reg.LK_PRBSRT_EN 0x80000000, by decide⟩

theorem test_lineTests_6 : ∃ (g : Nat) (s : State),
    g < 32 ∧ hasBit (s.get Reg.LK_PRBSRT_EN) g = true ∧ s.get Reg.LK_GSTAT_RTPSYNC g = 1 :=
  ⟨31, ((tGroup lsActive).set Reg.LK_PRBSRT_EN 0x80000000).set Reg.LK_GSTAT_RTPSYNC 1 31, by decide⟩

theorem test_lineTests_7 : ∃ (s : State), s.running = true :=
  ⟨tState .run, by decide⟩

theorem test_lineTests_7b : ∃ (s : State), s.running = true :=
  ⟨tState .run, by decide⟩

theorem test_lineTests_8 : ∃ (n : Nat) (s : State), s.get Reg.LK_RIGSTAT_ESBUSY = 1 ∧ n < 2 ^ 32 :=
  ⟨4294967295, (tState .run).set Reg.LK_RIGSTAT_ESBUSY 1, by decide⟩

theorem test_rigPorts_1 : ∃ (s : State), s.rigUp = true :=
  ⟨tRig, by decide⟩

theorem test_rigPorts_2 : ∃ (s : State), s.rigUp = true :=
  ⟨tRig, by decide⟩

theorem test_rigPorts_3 : ∃ (s : State), s.rigUp = true ∧ s.rig.outQ ≠ [] :=
  ⟨{ tRig with rig := { Rig.init with outQ := [⟨4, 0, 0, 5, 0, []⟩, ⟨1, 0, 0, 5, 0, []⟩], outLock := true } }, by decide⟩

theorem test_rigPorts_4 : ∃ (s : State), s.rigUp = true ∧ s.rig.inQ ≠ [] :=
  ⟨{ tRig with rig := { Rig.init with inQ := [⟨2, 0, 0, 5, 0, []⟩] } }, by decide⟩

theorem test_rigPorts_5 : ∃ (s : State), s.rigUp = true :=
  ⟨tRig, by decide⟩

theorem test_rigPorts_6 : ∃ (t0 : Nat) (s : State),
    s.boot.rigRole ≠ 0 ∧ s.get Reg.TB_RIG_MASTER = 0 ∧ s.rig.lastTime = some t0 ∧ 64000 < s.now - t0 ∧
    s.get Reg.TB_RIG_RSTATE ≠ 0 :=
  ⟨9935999, { tRig.set Reg.TB_RIG_RSTATE 2 with rig := { Rig.init with lastTime := some 9935999 } }, by decide⟩

theorem test_rigMessages_1 : ∃ (s : State), s.rigUp = true ∧ s.get Reg.TB_RIG_MASTER = 1 :=
  ⟨tRig.set Reg.TB_RIG_MASTER 1, by decide⟩

theorem test_rigMessages_2 : ∃ (s : State), s.rigUp = true ∧ s.get Reg.TB_RIG_MASTER = 0 :=
  ⟨tRig, by decide⟩

theorem test_rigMessages_3 : ∃ (hop : Nat) (s : State), s.rigUp = true ∧ s.rigFresh 2 hop :=
  ⟨7, tRig, by unfold State.rigFresh; decide⟩

theorem test_rigMessages_4 : ∃ (hop : Nat) (s : State), s.rigUp = true ∧ s.rigFresh 3 hop :=
  ⟨7, tRig, by unfold State.rigFresh; decide⟩

theorem test_rigMessages_5 : ∃ (hop : Nat) (s : State),
    s.rigUp = true ∧ s.rigFresh 4 hop ∧ s.get Reg.TB_TRIG_RIGSYNC = 0 :=
  ⟨7, tRig, by unfold State.rigFresh; decide⟩

theorem test_rigMessages_6 : ∃ (hop : Nat) (fix : List Byte) (s : State),
    s.rigUp = true ∧ s.rigFresh 5 hop ∧ fix.length = 32 ∧ hasBit (leAt fix 1 1) 0 = true ∧
    (s.rig.outQ.filter (·.typ == 5)).length < 64 :=
  ⟨7, List.replicate 32 0xFF#8, tRig, by unfold State.rigFresh; decide⟩

theorem test_rigTimeAndRepeats_1 : ∃ (hop : Nat) (t0 : Nat) (s : State),
    s.rigUp = true ∧ s.get Reg.TB_RIG_MASTER = 0 ∧ s.rigFresh 1 hop ∧ s.get Reg.TB_RIG_RSTATE = 2 ∧
    s.now ≤ t0 + s.rig.delay + 2 ∧ t0 + s.rig.delay ≤ s.now + 2 :=
  ⟨7, 9999998, { tRig.set Reg.TB_RIG_RSTATE 2 with rig := { Rig.init with lockRun := 3 } }, by unfold State.rigFresh; decide⟩

theorem test_rigTimeAndRepeats_2 : ∃ (hop : Nat) (t0 : Nat) (s : State),
    s.rigUp = true ∧ s.get Reg.TB_RIG_MASTER = 0 ∧ s.rigFresh 1 hop ∧ s.get Reg.TB_RIG_RSTATE = 0 ∧
    s.now + 1000 < t0 + s.rig.delay :=
  ⟨7, 10001001, tRig, by unfold State.rigFresh; decide⟩

theorem test_rigTimeAndRepeats_3 : ∃ (typ : Nat) (hop : Nat) (alive : Nat) (c : Instr) (s : State),
    ((typ = 1 ∧ ∃ x, c = .rigTimeReceive alive hop x) ∨ (typ = 2 ∧ ∃ x, c = .rigProbeReceive alive hop x) ∨ (typ = 3 ∧ ∃ x y, c = .rigProbeReplyReceive alive hop x y) ∨ (typ = 4 ∧ ∃ x, c = .rigFramebcReceive alive hop x) ∨ (typ = 5 ∧ ∃ x, c = .rigFixReceive alive hop x)) ∧
    s.rigUp = true ∧ s.get Reg.TB_RIG_MASTER = 0 ∧ alive < 256 ∧
    s.rig.alive.find? (fun e => e.1 == typ && e.2.1 == hop) = some (typ, hop, alive) :=
  ⟨1, 7, 255, .rigTimeReceive 255 7 5, { tRig with rig := { Rig.init with alive := [(1, 7, 255), (5, 7, 255)] } },
   ⟨Or.inl ⟨rfl, 5, rfl⟩, by decide⟩⟩

theorem test_rigTimeAndRepeats_3b : ∃ (typ : Nat) (hop : Nat) (alive : Nat) (c : Instr) (s : State),
    ((typ = 1 ∧ ∃ x, c = .rigTimeReceive alive hop x) ∨ (typ = 2 ∧ ∃ x, c = .rigProbeReceive alive hop x) ∨ (typ = 3 ∧ ∃ x y, c = .rigProbeReplyReceive alive hop x y) ∨ (typ = 4 ∧ ∃ x, c = .rigFramebcReceive alive hop x) ∨ (typ = 5 ∧ ∃ x, c = .rigFixReceive alive hop x)) ∧
    s.rigUp = true ∧ s.get Reg.TB_RIG_MASTER = 0 ∧ alive < 256 ∧
    s.rig.alive.find? (fun e => e.1 == typ && e.2.1 == hop) = some (typ, hop, alive) :=
  ⟨5, 7, 255, .rigFixReceive 255 7 [], { tRig with rig := { Rig.init with alive := [(1, 7, 255), (5, 7, 255)] } },
   ⟨Or.inr (Or.inr (Or.inr (Or.inr ⟨rfl, [], rfl⟩))), by decide⟩⟩

theorem test_encoderChannels_1 : ∃ (n : Nat) (s : State), n < 4 ∧ s.running = true ∧ s.tbs.length = 4 :=
  ⟨3, tState .run, by decide⟩

theorem test_encoderChannels_2 : ∃ (n : Nat) (a : Bool) (b : Bool) (s : State),
    n < 4 ∧ s.tbs.length = 4 ∧ s.get Reg.TB_CFG_SRC n = 1 ∧ s.cstate n ≠ csOff ∧ s.get Reg.TB_CFG_INV n = 0 ∧
    ((s.tb n).ab, (if a then 2 else 0) + (if b then 1 else 0)) ∈ quadUp :=
  ⟨3, true, false, tChan 1 csTrack, by decide⟩

theorem test_encoderChannels_3 : ∃ (n : Nat) (a : Bool) (b : Bool) (s : State),
    n < 4 ∧ s.tbs.length = 4 ∧ s.get Reg.TB_CFG_SRC n = 1 ∧ s.cstate n ≠ csOff ∧ s.get Reg.TB_CFG_INV n = 0 ∧
    ((if a then 2 else 0) + (if b then 1 else 0), (s.tb n).ab) ∈ quadUp :=
  ⟨3, false, true, tChan 1 csTrack, by decide⟩

theorem test_encoderChannels_4 : ∃ (n : Nat) (a : Bool) (b : Bool) (s : State),
    n < 4 ∧ s.tbs.length = 4 ∧ s.get Reg.TB_CFG_SRC n = 1 ∧ s.cstate n ≠ csOff ∧
    (s.tb n).ab + ((if a then 2 else 0) + (if b then 1 else 0)) = 3 :=
  ⟨3, true, true, tChan 1 csTrack, by decide⟩

theorem test_encoderChannels_5 : ∃ (n : Nat) (s : State),
    n < 4 ∧ s.tbs.length = 4 ∧ s.get Reg.TB_CFG_IDXEN n = 1 ∧ s.get Reg.TB_CFG_SRC n = 1 ∧ s.modulus n ≠ 0 ∧
    (s.tb n).idxDone = false :=
  ⟨3, ((tChan 1 csTrack).set Reg.TB_CFG_IDXEN 1 3).set Reg.TB_MOD_MODULUS 4000 3, by decide⟩

theorem test_encoderChannels_6 : ∃ (n : Nat) (s : State),
    n < 4 ∧ s.tbs.length = 4 ∧ s.get Reg.TB_CFG_IDXEN n = 1 ∧ s.get Reg.TB_CFG_SRC n = 1 ∧ s.modulus n ≠ 0 ∧
    (s.tb n).idxDone = true :=
  ⟨3,
   (((tChan 1 csTrack).set Reg.TB_CFG_IDXEN 1 3).set Reg.TB_MOD_MODULUS 4000 3).setTb 3 fun c => { c with idxDone := true, travel := 4000, raw := 4000 },
   by decide⟩

theorem test_encoderChannels_7 : ∃ (n : Nat) (s : State),
    n < 4 ∧ s.get Reg.TB_CFG_IDXEN n = 1 ∧ s.get Reg.TB_TO_IDXTO n ≠ 0 ∧
    s.get Reg.TB_TO_IDXTO n * s.modulus n < (s.tb n).travel :=
  ⟨3,
   ((((tChan 1 csTrack).set Reg.TB_CFG_IDXEN 1 3).set Reg.TB_MOD_MODULUS 4000 3).set Reg.TB_TO_IDXTO 2 3).setTb 3 fun c => { c with travel := 8001 },
   by decide⟩

theorem test_syncAndCoast_1 : ∃ (n : Nat) (s : State),
    n < 4 ∧ s.get Reg.TB_CFG_SRC n = 2 ∧ s.cstate n ≠ csOff ∧ (s.coastOver n s.now && !(s.tb n).meas.any (!·.bad)) = false ∧
    ((s.tb n).fresh = true ∨ (max (s.get Reg.TB_PMIN_PMIN n) 10000 ≤ s.now - (s.tb n).lastSync ∧ s.now - (s.tb n).lastSync ≤ min (s.get Reg.TB_PMAX_PMAX n) 1000000000)) :=
  ⟨3, (tChan 2 csTrack).setTb 3 fun c => { c with fresh := false, lastSync := 9990000 }, by decide⟩

theorem test_syncAndCoast_2 : ∃ (n : Nat) (s : State),
    n < 4 ∧ s.tbs.length = 4 ∧ s.get Reg.TB_CFG_SRC n = 2 ∧ s.coastOver n s.now = true ∧ (s.tb n).meas = [] ∧
    (s.tb n).fresh = true :=
  ⟨3, (tChan 2 csCoast).set Reg.TB_TO_COASTMAX 9 3, by decide⟩

theorem test_syncAndCoast_3 : ∃ (n : Nat) (s : State),
    n < 4 ∧ s.tbs.length = 4 ∧ s.get Reg.TB_CFG_SRC n = 2 ∧ s.cstate n ≠ csOff ∧
    (s.coastOver n s.now && !(s.tb n).meas.any (!·.bad)) = false ∧ (s.tb n).fresh = false ∧
    s.now - (s.tb n).lastSync < max (s.get Reg.TB_PMIN_PMIN n) 10000 ∧
    s.now - (s.tb n).lastSync ≤ min (s.get Reg.TB_PMAX_PMAX n) 1000000000 :=
  ⟨3, (tChan 2 csTrack).setTb 3 fun c => { c with fresh := false, lastSync := 9990001 }, by decide⟩

theorem test_syncAndCoast_4 : ∃ (n : Nat) (s : State),
    n < 4 ∧ s.tbs.length = 4 ∧ s.get Reg.TB_CFG_SRC n = 2 ∧ s.cstate n = csTrack ∧ (s.tb n).fresh = false ∧
    min (s.get Reg.TB_PMAX_PMAX n) 1000000000 < s.now - (s.tb n).lastSync :=
  ⟨3, ((tChan 2 csTrack).set Reg.TB_PMAX_PMAX 1000000 3).setTb 3 fun c => { c with fresh := false, lastSync := 8999999 },
   by decide⟩

theorem test_syncAndCoast_5 : ∃ (n : Nat) (l : Nat) (d : Nat) (s : State),
    n < 4 ∧ s.tbs.length = 4 ∧ s.get Reg.TB_CFG_SRC n = 3 ∧ s.cstate n = csTrack ∧ (s.tb n).lastOut = some l ∧
    (s.tb n).interval = some d ∧ 2 * d < s.now - l ∧ s.filtNext = none :=
  ⟨3, 9799999, 100000, (tChan 3 csTrack).setTb 3 fun c => { c with lastOut := some 9799999, interval := some 100000 },
   by decide⟩

theorem test_syncAndCoast_6 : ∃ (n : Nat) (s : State),
    n < 4 ∧ s.tbs.length = 4 ∧ s.cstate n = csCoast ∧ s.get Reg.TB_TO_COASTMAX n * 1000 < s.now - (s.tb n).coastAt ∧
    s.filtNext = none ∧ (s.tb n).meas.any (!·.bad) = false :=
  ⟨3, (tChan 2 csCoast).set Reg.TB_TO_COASTMAX 9999 3, by decide⟩

theorem test_syncAndCoast_7 : ∃ (n : Nat) (s : State), n < 4 ∧ s.filtNext = none ∧ (s.tb n).meas.any (!·.bad) = true :=
  ⟨3, (tChan 3 csCoast).setTb 3 fun c => { c with meas := [⟨5, 9999999, false⟩] }, by decide⟩

theorem test_positionsAndUpdates_1 : ∃ (n : Nat) (s : State), n < 4 ∧ s.dev ≠ .off ∧ s.stopped = false :=
  ⟨3, (tChan 1 csTrack).setTb 3 fun c => { c with x := 5 / 2, raw := 3 }, by decide⟩

theorem test_positionsAndUpdates_2 : ∃ (s : State), s.dev ≠ .off ∧ s.stopped = false :=
  ⟨{ tState .run with now := 2 ^ 32 + 5 }, by decide⟩

theorem test_positionsAndUpdates_3 : ∃ (s : State),
    s.running = true ∧ s.now % 1000 ≤ 1 ∧ s.lastUpdate.all (fun t => t / 1000 != s.now / 1000) = true :=
  ⟨(tChan 2 csTrack).setTb 3 fun c => { c with inits := 3 }, by decide⟩

theorem test_positionsAndUpdates_3b : ∃ (s : State),
    s.running = true ∧ s.now % 1000 ≤ 1 ∧ s.lastUpdate.all (fun t => t / 1000 != s.now / 1000) = true :=
  ⟨{ tState .run with lastUpdate := some 9999001 }, by decide⟩

theorem test_positionsAndUpdates_4 : ∃ (s : State),
    s.running = true ∧ s.now % 1000 ≤ 1 ∧ s.lastUpdate.all (fun t => t / 1000 != s.now / 1000) = true ∧ s.filtNext = none ∧
    s.tbs.length = 4 ∧ (∀ n, n < 4 → (s.tb n).lost = false) ∧
    (∀ n, n < 4 → s.cstate n = csOff ∨ (s.get Reg.TB_CFG_SRC n = 2 ∧ (s.tb n).meas = [] ∧ (s.tb n).inits ≠ 0 ∧ s.cstate n ≠ csLost)) ∧
    (∀ m, m < 64 → s.sstate m ≠ ssArmed) :=
  ⟨(tChan 2 csTrack).setTb 3 fun c => { c with inits := 2, v := 1 / 10 }, by decide⟩

theorem test_positionsAndUpdates_5 : ∃ (n : Nat) (dt : Rat) (xp : Rat) (d : Rat) (s : State),
    n < 4 ∧ s.running = true ∧ s.now % 1000 ≤ 1 ∧ s.lastUpdate.all (fun t => t / 1000 != s.now / 1000) = true ∧
    s.filtNext = none ∧ s.tbs.length = 4 ∧ (∀ m, m < 4 → m ≠ n → s.cstate m = csOff) ∧ (∀ m, m < 4 → (s.tb m).lost = false) ∧
    s.get Reg.TB_CFG_SRC n = 1 ∧ s.cstate n = csTrack ∧ (s.tb n).inits = 2 ∧ (s.tb n).bad = false ∧
    ((s.tb n).raw - (s.tb n).rawPrev).natAbs * 256 ≤ s.get Reg.TB_LIM_VMAX n ∧ dt = ((s.now : Rat) - (s.tb n).tz) / 1000 ∧
    dt ≠ 0 ∧ xp = (s.tb n).x + (s.tb n).v * ((s.now : Rat) - (s.tb n).tx) / 1000 ∧
    d = wrapDiffQ (s.modulus n) ((s.tb n).raw - xp) ∧ d * 256 ≤ s.get Reg.TB_LIM_RESMAX n ∧
    -d * 256 ≤ s.get Reg.TB_LIM_RESMAX n ∧ (∀ m, m < 64 → s.sstate m ≠ ssArmed) :=
  ⟨3, 1, 2, 1,
   (((tChan 1 csTrack).set Reg.TB_LIM_RESMAX 256 3).set Reg.TB_LIM_VMAX 256 3).setTb 3 fun c => { c with x := 2, raw := 3, rawPrev := 2, inits := 2, tx := 10000000, tz := 9999000 },
   by decide +kernel⟩

theorem test_positionsAndUpdates_6 : ∃ (m : Nat) (s : State),
    s.running = true ∧ s.now % 1000 ≤ 1 ∧ s.lastUpdate.all (fun t => t / 1000 != s.now / 1000) = true ∧ s.filtNext = none ∧
    s.tbs.length = 4 ∧ (∀ n, n < 4 → (s.tb n).lost = false) ∧ s.slots.length = 64 ∧ m < 64 ∧
    (∀ n, n < 4 → s.get Reg.TB_CFG_SRC n = 4) ∧ (∀ n, n < 4 → s.cstate n = csTrack) ∧
    (∀ k, k < 64 → k ≠ m → s.sstate k ≠ ssArmed) ∧ s.sstate m = ssArmed ∧ (s.slot m).dir = 0 ∧ (s.slot m).action = 0 ∧
    (s.slot m).prev = none ∧ s.slotDiff (s.slot m) s.now < 0 ∧
    1000 ≤ (s.slotDiff (s.slot m) s.now).natAbs * 1000 / 65536 + (s.slot m).delay ∧
    (s.slotDiff (s.slot m) s.now).natAbs * 1000 / 65536 + (s.slot m).delay ≤ 1000 * s.get Reg.TB_SCHED_LEAD :=
  ⟨63,
   (List.range 4).foldl (fun s n => (s.set Reg.TB_CFG_SRC 4 n).set Reg.TB_STAT_CSTATE csTrack n)
    ((({ tState .run with tbs := List.replicate 4 { TbCh.init with v := 1 / 10000, tx := 10000000 } }.setSlot 63 fun x => { x with p := 65536 * 10002 }).set Reg.EV_STAT_SSTATE ssArmed 63)),
   by decide⟩

theorem test_slotArming_1 : ∃ (n : Nat) (v : Word) (s : State),
    n < 64 ∧ s.slots.length = 64 ∧ s.running = true ∧ (s.sstate n = ssIdle ∨ s.sstate n = ssArmed) ∧ fieldOf v 8 4 ≤ 9 :=
  ⟨63, 0x80000900#32, tState .run, by decide⟩

theorem test_slotArming_2 : ∃ (n : Nat) (v : Word) (s : State),
    n < 64 ∧ s.running = true ∧ (s.sstate n = ssIdle ∨ s.sstate n = ssArmed) ∧ 9 < fieldOf v 8 4 :=
  ⟨63, 0x80000A00#32, tState .run, by decide⟩

theorem test_slotArming_3 : ∃ (n : Nat) (s : State),
    n < 64 ∧ s.running = true ∧ (s.sstate n = ssCommitted ∨ s.sstate n = ssPending) :=
  ⟨63, tSlot .run ssPending 0 0 0, by decide⟩

theorem test_slotArming_4 : ∃ (n : Nat) (s : State),
    n < 64 ∧ s.running = true ∧ (s.sstate n = ssIdle ∨ s.sstate n = ssArmed) :=
  ⟨63, tSlot .run ssArmed 6 0 0, by decide⟩

theorem test_slotArming_5 : ∃ (n : Nat) (s : State),
    n < 64 ∧ s.running = true ∧ (s.sstate n = ssCommitted ∨ s.sstate n = ssPending) :=
  ⟨63, tSlot .run ssCommitted 6 0 0, by decide⟩

theorem test_slotPinActions_1 : ∃ (n : Nat) (s : State), s.slotReady n 0 :=
  ⟨63, tSlot .run ssCommitted 0 0 0, by unfold State.slotReady; decide⟩

theorem test_slotPinActions_1b : ∃ (n : Nat) (s : State), s.slotReady n 0 :=
  ⟨63, tSlot .standby ssCommitted 0 0 0x04020000, by unfold State.slotReady; decide⟩

theorem test_slotPinActions_2 : ∃ (n : Nat) (s : State),
    s.slotReady n 6 ∧ s.collides n (0x200 + (s.slot n).pin) = false ∧ s.pinBusy (s.slot n).pin = false ∧
    s.pendingOn n State.slotResource (0x200 + (s.slot n).pin) = false ∧ s.pinOwner (s.slot n).pin = 5 ∧
    s.gal.out.length = 24 :=
  ⟨63, ((tSlot .run ssCommitted 6 55 0).set (State.ownFld 23) 5 5), by unfold State.slotReady; decide⟩

theorem test_slotPinActions_3 : ∃ (n : Nat) (s : State),
    s.slotReady n 7 ∧ s.collides n (0x200 + (s.slot n).pin) = false ∧ s.pinBusy (s.slot n).pin = false ∧
    s.pendingOn n State.slotResource (0x200 + (s.slot n).pin) = false ∧ s.pinOwner (s.slot n).pin = 5 ∧
    s.pinUsers (s.slot n).pin = [5] ∧ s.gal.out.length = 24 ∧ s.gal.pulseEnd.length = 24 :=
  ⟨63, ((tSlot .run ssCommitted 7 55 0).set (State.ownFld 23) 5 5), by unfold State.slotReady; decide⟩

theorem test_slotPinActions_4 : ∃ (p : Nat) (te : Nat) (l : Bool) (s : State),
    s.gal.out.length = 24 ∧ s.gal.pulseEnd.length = 24 ∧ s.gal.pulseEnd.getD p none = some te ∧ te ≤ s.now ∧
    s.pinOwner p = 5 ∧ s.gal.out.getD p none = some l :=
  ⟨23, 10000000, true,
   { (tState .run).set (State.ownFld 23) 5 5 with gal := ⟨(List.replicate 24 none).set 23 (some true), (List.replicate 24 none).set 23 (some 10000000), false⟩ },
   by decide⟩

theorem test_slotLatchFilterSense_1 : ∃ (n : Nat) (s : State), s.slotReady n 9 :=
  ⟨63, tSlot .run ssCommitted 9 0 0, by unfold State.slotReady; decide⟩

theorem test_slotLatchFilterSense_2 : ∃ (n : Nat) (s : State),
    s.slotReady n 8 ∧ s.flt.ch.length = 16 ∧
    s.collides n (if hasBit (s.slot n).arg 7 = true then 0x3FF else 0x300 + (s.slot n).arg % 16) = false ∧
    s.pendingOn n State.slotResource (if hasBit (s.slot n).arg 7 = true then 0x3FF else 0x300 + (s.slot n).arg % 16) = false ∧
    s.filtNext = none :=
  ⟨63, tSlot .run ssCommitted 8 128 0, by unfold State.slotReady; decide⟩

theorem test_slotLatchFilterSense_2b : ∃ (n : Nat) (s : State),
    s.slotReady n 8 ∧ s.flt.ch.length = 16 ∧
    s.collides n (if hasBit (s.slot n).arg 7 = true then 0x3FF else 0x300 + (s.slot n).arg % 16) = false ∧
    s.pendingOn n State.slotResource (if hasBit (s.slot n).arg 7 = true then 0x3FF else 0x300 + (s.slot n).arg % 16) = false ∧
    s.filtNext = none :=
  ⟨63, tSlot .run ssCommitted 8 15 0, by unfold State.slotReady; decide⟩

theorem test_slotLatchFilterSense_3 : ∃ (n : Nat) (s : State),
    s.slotReady n 4 ∧ s.sense.length = 2 ∧ s.collides n (0x400 + (s.slot n).arg % 2) = false ∧
    s.senseSlave ((s.slot n).arg % 2) = false ∧ (s.su ((s.slot n).arg % 2)).on = true ∧
    (s.su ((s.slot n).arg % 2)).failed = false ∧ (s.su ((s.slot n).arg % 2)).cont = false ∧
    (s.su ((s.slot n).arg % 2)).zero = none ∧ (s.su ((s.slot n).arg % 2)).reg = none ∧
    (s.su ((s.slot n).arg % 2)).inj = none ∧ (s.su ((s.slot n).arg % 2)).pend = none :=
  ⟨63, (tSlot .run ssCommitted 4 1 0).setSu 1 fun x => { x with on := true }, by unfold State.slotReady; decide⟩

theorem test_slotLatchFilterSense_4 : ∃ (n : Nat) (s : State),
    s.slotReady n 5 ∧ s.sense.length = 2 ∧ s.collides n (0x400 + (s.slot n).arg % 2) = false ∧
    s.senseSlave ((s.slot n).arg % 2) = false ∧ (s.su ((s.slot n).arg % 2)).on = true ∧
    (s.su ((s.slot n).arg % 2)).failed = false ∧ (s.su ((s.slot n).arg % 2)).zero = none ∧
    (s.su ((s.slot n).arg % 2)).reg = none ∧ (s.su ((s.slot n).arg % 2)).inj = none ∧
    (s.su ((s.slot n).arg % 2)).pend = none :=
  ⟨63, (tSlot .run ssCommitted 5 1 0).setSu 1 fun x => { x with on := true }, by unfold State.slotReady; decide⟩

theorem test_slotCaptureActions_1 : ∃ (n : Nat) (s : State),
    s.slotReady n 1 ∧ s.dev = .run ∧ s.collides n 0x600 = false ∧ s.slotWaits n = false :=
  ⟨63, tSlot .run ssCommitted 1 0 0, by unfold State.slotReady; decide⟩

theorem test_slotCaptureActions_2 : ∃ (n : Nat) (s : State),
    s.slotReady n 1 ∧ s.dev = .run ∧ s.collides n 0x600 = false ∧ s.slotWaits n = true :=
  ⟨63, { tSlot .run ssCommitted 1 0 0 with frames := [{ tFrame 0 with trig := 1, slot := 63, burst := 1, ts := 9999000 }] },
   by unfold State.slotReady; decide⟩

theorem test_slotCaptureActions_3 : ∃ (n : Nat) (s : State), s.slotReady n 1 ∧ s.dev = .standby :=
  ⟨63, tSlot .standby ssCommitted 1 0 0, by unfold State.slotReady; decide⟩

theorem test_slotCaptureActions_3b : ∃ (n : Nat) (s : State), s.slotReady n 1 ∧ s.dev = .standby :=
  ⟨63,
   { tSlot .standby ssCommitted 1 0 0 with frames := [{ tFrame 0 with trig := 1, slot := 63, burst := 1, ts := 9999000 }] },
   by unfold State.slotReady; decide⟩

theorem test_slotCaptureActions_4 : ∃ (n : Nat) (s : State),
    s.slotReady n 2 ∧ s.dev = .run ∧ s.collides n (0x100 + (s.slot n).arg % 8) = false ∧
    s.expo.expBusy.any (·.1 == (s.slot n).arg % 8) = false ∧
    s.pendingOn n State.slotResource (0x100 + (s.slot n).arg % 8) = false ∧ s.exposing = none :=
  ⟨63, tSlot .run ssCommitted 2 7 0, by unfold State.slotReady; decide⟩

theorem test_slotCaptureActions_5 : ∃ (n : Nat) (f : Frame) (c : FClass) (s : State),
    s.slotReady n 2 ∧ s.dev = .run ∧ s.collides n (0x100 + (s.slot n).arg % 8) = false ∧
    s.expo.expBusy.any (·.1 == (s.slot n).arg % 8) = false ∧
    s.pendingOn n State.slotResource (0x100 + (s.slot n).arg % 8) = false ∧ s.frames = [f] ∧ f.phase < 2 ∧
    f.cls[(s.slot n).arg % 8]? = some c ∧ c.use = true ∧ f.img.flag Reg.EX_MODE_ALIGN = false ∧
    max (s.slot n).te f.start + 200 ≤ f.ta :=
  ⟨63, tFrame 0, ⟨true, 9000000, 10000, 0, 0, 0, 0⟩, { tSlot .run ssCommitted 2 0 0 with frames := [tFrame 0] },
   by unfold State.slotReady; decide⟩

theorem test_slotCaptureActions_6 : ∃ (n : Nat) (k : ArmMark) (s : State),
    s.slotReady n 3 ∧ s.dev = .run ∧ hasBit s.domLost 0 = false ∧ s.thinPct = 0 ∧
    s.collides n (0x500 + (s.slot n).arg) = false ∧ s.pendingOn n State.slotResource (0x500 + (s.slot n).arg) = false ∧
    s.trackMark = k ∧ k.img.flag Reg.TK_PLAN_CFG_EN (s.slot n).arg = true ∧ (s.planCells (s.slot n).arg).isEmpty = false ∧
    s.trackBusy (s.planCells (s.slot n).arg) s.now = (false, false) ∧ s.sharedLower n (s.planCells (s.slot n).arg) = false ∧
    s.subFlushed n (s.planCells (s.slot n).arg) = true :=
  ⟨63, ⟨0, 0, 0, ((((tState .run).set Reg.TK_PLAN_CFG_EN 1).set Reg.TK_PLAN_WLO_MASK 1).set Reg.TK_W_CFG_EN 1).regs⟩,
   { tSlot .run ssCommitted 3 0 0 with inForce := ((((tState .run).set Reg.TK_PLAN_CFG_EN 1).set Reg.TK_PLAN_WLO_MASK 1).set Reg.TK_W_CFG_EN 1).regs, trk := { Track.init with flush := [(63, 9999660, (({ tState .run with inForce := ((((tState .run).set Reg.TK_PLAN_CFG_EN 1).set Reg.TK_PLAN_WLO_MASK 1).set Reg.TK_W_CFG_EN 1).regs } : State).planCells 0))] } },
   by unfold State.slotReady; decide⟩

theorem test_slotCaptureActions_7 : ∃ (n : Nat) (s : State),
    s.slotReady n 3 ∧ s.dev = .run ∧ hasBit s.domLost 0 = false ∧ s.flushAwaited n = true :=
  ⟨63,
   { tSlot .run ssCommitted 3 0 0 with inForce := ((((tState .run).set Reg.TK_PLAN_CFG_EN 1).set Reg.TK_PLAN_WLO_MASK 1).set Reg.TK_W_CFG_EN 1).regs, trk := { Track.init with flush := [(63, 9999661, (({ tState .run with inForce := ((((tState .run).set Reg.TK_PLAN_CFG_EN 1).set Reg.TK_PLAN_WLO_MASK 1).set Reg.TK_W_CFG_EN 1).regs } : State).planCells 0))] } },
   by unfold State.slotReady; decide⟩

theorem test_slotCaptureActions_8 : ∃ (n : Nat) (s : State),
    s.frames = [] ∧
    (List.range 64).find? (fun m => (s.slot m).action == 3 && ((s.sstate m == ssCommitted && decide ((s.slot m).te ≤ s.now + 340)) || s.sstate m == ssPending)) = some n ∧
    s.dev = .run ∧ (s.planCells (s.slot n).arg).isEmpty = false ∧ s.trk.flush = [] ∧
    (s.trackBusy (s.planCells (s.slot n).arg) (s.now + 340)).1 = false :=
  ⟨63,
   { tSlot .run ssCommitted 3 0 0 with inForce := ((((tState .run).set Reg.TK_PLAN_CFG_EN 1).set Reg.TK_PLAN_WLO_MASK 1).set Reg.TK_W_CFG_EN 1).regs },
   by decide⟩

theorem test_slotCaptureActions_9 : ∃ (n : Nat) (a : Nat) (c : Instr) (s : State),
    ((a = 2 ∧ c = .startExp n) ∨ (a = 3 ∧ c = .startTrack n)) ∧ s.slotReady n a ∧ s.dev = .standby :=
  ⟨63, 2, .startExp 63, tSlot .standby ssCommitted 2 0 0, ⟨Or.inl ⟨rfl, rfl⟩, by unfold State.slotReady; decide⟩⟩

theorem test_slotCaptureActions_9b : ∃ (n : Nat) (a : Nat) (c : Instr) (s : State),
    ((a = 2 ∧ c = .startExp n) ∨ (a = 3 ∧ c = .startTrack n)) ∧ s.slotReady n a ∧ s.dev = .standby :=
  ⟨63, 3, .startTrack 63, tSlot .standby ssCommitted 3 0 0, ⟨Or.inr ⟨rfl, rfl⟩, by unfold State.slotReady; decide⟩⟩

theorem test_strictAndHeldTriggers_1 : ∃ (n : Nat) (c : Instr) (a : Nat) (s : State),
    (c, a) ∈ [(Instr.actNone n, 0), (Instr.startExp n, 2), (Instr.senseReg n, 4), (Instr.senseInj n, 5), (Instr.galSet n, 6), (Instr.galPulse n, 7), (Instr.filterReset n, 8), (Instr.latch n, 9)] ∧
    n < 64 ∧ s.slots.length = 64 ∧ s.slotDue n a = true ∧ s.slotStrictLate n = true ∧ (s.slot n).rearm = false ∧
    s.dev = .run :=
  ⟨63, .actNone 63, 0, tSlot .run ssCommitted 0 0 0x40000000, by decide⟩

theorem test_strictAndHeldTriggers_1b : ∃ (n : Nat) (c : Instr) (a : Nat) (s : State),
    (c, a) ∈ [(Instr.actNone n, 0), (Instr.startExp n, 2), (Instr.senseReg n, 4), (Instr.senseInj n, 5), (Instr.galSet n, 6), (Instr.galPulse n, 7), (Instr.filterReset n, 8), (Instr.latch n, 9)] ∧
    n < 64 ∧ s.slots.length = 64 ∧ s.slotDue n a = true ∧ s.slotStrictLate n = true ∧ (s.slot n).rearm = false ∧
    s.dev = .run :=
  ⟨63, .startExp 63, 2, tSlot .run ssCommitted 2 0 0x40000000, by decide⟩

theorem test_strictAndHeldTriggers_1c : ∃ (n : Nat) (c : Instr) (a : Nat) (s : State),
    (c, a) ∈ [(Instr.actNone n, 0), (Instr.startExp n, 2), (Instr.senseReg n, 4), (Instr.senseInj n, 5), (Instr.galSet n, 6), (Instr.galPulse n, 7), (Instr.filterReset n, 8), (Instr.latch n, 9)] ∧
    n < 64 ∧ s.slots.length = 64 ∧ s.slotDue n a = true ∧ s.slotStrictLate n = true ∧ (s.slot n).rearm = false ∧
    s.dev = .run :=
  ⟨63, .latch 63, 9, tSlot .run ssCommitted 9 0 0x40000000, by decide⟩

theorem test_strictAndHeldTriggers_1d : ∃ (n : Nat) (c : Instr) (a : Nat) (s : State),
    (c, a) ∈ [(Instr.actNone n, 0), (Instr.startExp n, 2), (Instr.senseReg n, 4), (Instr.senseInj n, 5), (Instr.galSet n, 6), (Instr.galPulse n, 7), (Instr.filterReset n, 8), (Instr.latch n, 9)] ∧
    n < 64 ∧ s.slots.length = 64 ∧ s.slotDue n a = true ∧ s.slotStrictLate n = true ∧ (s.slot n).rearm = false ∧
    s.dev = .run :=
  ⟨63, .galSet 63, 6, tSlot .run ssCommitted 6 0 0x40000000, by decide⟩

theorem test_strictAndHeldTriggers_2 : ∃ (n : Nat) (s : State),
    n < 64 ∧ s.slots.length = 64 ∧ s.running = true ∧ s.sstate n = ssPending ∧ (s.slot n).rearm = false ∧
    (s.slot n).action = 6 ∧ s.collides n (0x200 + (s.slot n).pin) = false ∧ s.pinBusy (s.slot n).pin = false :=
  ⟨63, (tSlot .run ssPending 6 55 0).set (State.ownFld 23) 5 5, by decide⟩

theorem test_strictAndHeldTriggers_3 : ∃ (n : Nat) (s : State),
    n < 64 ∧ s.slots.length = 64 ∧ s.dev = .run ∧ s.sstate n = ssPending ∧ (s.slot n).rearm = false ∧ (s.slot n).action = 2 ∧
    s.collides n (0x100 + (s.slot n).arg % 8) = false ∧ s.expo.expBusy.any (·.1 == (s.slot n).arg % 8) = false ∧
    s.exposing = none :=
  ⟨63, tSlot .run ssPending 2 7 0, by decide⟩

theorem test_strictAndHeldTriggers_4 : ∃ (n : Nat) (s : State),
    n < 64 ∧ s.slots.length = 64 ∧ s.running = true ∧ s.sstate n = ssPending ∧ (s.slot n).rearm = false ∧
    (s.slot n).action = 8 ∧ hasBit (s.slot n).arg 7 = false ∧ s.collides n (0x300 + (s.slot n).arg % 16) = false ∧
    s.flt.ch.length = 16 :=
  ⟨63, tSlot .run ssPending 8 15 0, by decide⟩

theorem test_strictAndHeldTriggers_5 : ∃ (n : Nat) (s : State),
    n < 64 ∧ s.slots.length = 64 ∧ s.dev = .standby ∧ s.sstate n = ssPending ∧ (s.slot n).rearm = false ∧
    (((s.slot n).action = 2 ∧ s.collides n (0x100 + (s.slot n).arg % 8) = false ∧ s.expo.expBusy.any (·.1 == (s.slot n).arg % 8) = false) ∨ ((s.slot n).action = 3 ∧ s.collides n (0x500 + (s.slot n).arg) = false ∧ (s.trackBusy (s.planCells (s.slot n).arg) s.now).1 = false)) :=
  ⟨63, tSlot .standby ssPending 3 0 0, by decide⟩

theorem test_strictAndHeldTriggers_5b : ∃ (n : Nat) (s : State),
    n < 64 ∧ s.slots.length = 64 ∧ s.dev = .standby ∧ s.sstate n = ssPending ∧ (s.slot n).rearm = false ∧
    (((s.slot n).action = 2 ∧ s.collides n (0x100 + (s.slot n).arg % 8) = false ∧ s.expo.expBusy.any (·.1 == (s.slot n).arg % 8) = false) ∨ ((s.slot n).action = 3 ∧ s.collides n (0x500 + (s.slot n).arg) = false ∧ (s.trackBusy (s.planCells (s.slot n).arg) s.now).1 = false)) :=
  ⟨63, tSlot .standby ssPending 2 7 0, by decide⟩

theorem test_frameTriggers_1 : ∃ (s : State),
    s.trig.level = false ∧ s.flag Reg.TB_TRIG_EN = true ∧ s.pinOwner (s.get Reg.TB_TRIG_PIN) = 2 ∧
    s.get Reg.TB_TRIG_EDGE ≠ 1 :=
  ⟨(((tState .run).set Reg.TB_TRIG_EN 1).set Reg.TB_TRIG_PIN 23).set (State.ownFld 23) 2 5, by decide⟩

theorem test_frameTriggers_2 : ∃ (s : State),
    s.trig.level = true ∧ s.flag Reg.TB_TRIG_EN = true ∧ s.pinOwner (s.get Reg.TB_TRIG_PIN) = 2 :=
  ⟨{ (((tState .run).set Reg.TB_TRIG_EN 1).set Reg.TB_TRIG_PIN 23).set (State.ownFld 23) 2 5 with trig := ⟨true, 9999000, true, []⟩ },
   by decide⟩

theorem test_frameTriggers_3 : ∃ (s : State),
    s.trig.waiting = true ∧ s.trig.edgeAt + 10 * s.get Reg.TB_TRIG_MINW ≤ s.now ∧ s.dev = .run ∧ s.frameTargetBusy = false ∧
    s.reqs = [] ∧
    (s.settingsAt (min (s.trig.edgeAt + 10 * s.get Reg.TB_TRIG_MINW) (s.trig.edgeAt + 10 * s.get Reg.TB_TRIG_MINW + 100 - 50000))).flag Reg.EX_MODE_FREERUN = false :=
  ⟨{ (tState .run).set Reg.TB_TRIG_MINW 100 with trig := ⟨true, 9999000, true, []⟩ }, by decide⟩

theorem test_frameTriggers_4 : ∃ (s : State),
    s.trig.waiting = true ∧ s.trig.edgeAt + 10 * s.get Reg.TB_TRIG_MINW ≤ s.now ∧ s.dev = .standby :=
  ⟨{ (tState .standby).set Reg.TB_TRIG_MINW 100 with trig := ⟨true, 9999000, true, []⟩ }, by decide⟩

theorem test_frameTriggers_5 : ∃ (s : State),
    s.trig.waiting = true ∧ s.trig.edgeAt + 10 * s.get Reg.TB_TRIG_MINW ≤ s.now ∧ s.dev = .run ∧ s.frameTargetBusy = true ∧
    s.flag Reg.TB_TRIG_STRICT = true ∧
    (s.settingsAt (min (s.trig.edgeAt + 10 * s.get Reg.TB_TRIG_MINW) (s.trig.edgeAt + 10 * s.get Reg.TB_TRIG_MINW + 100 - 50000))).flag Reg.EX_MODE_FREERUN = false :=
  ⟨{ ((tState .run).set Reg.TB_TRIG_MINW 100).set Reg.TB_TRIG_STRICT 1 with trig := ⟨true, 9999000, true, []⟩, expo := { Exposure.init with burst := some ⟨2, 0, 0, 1, 2, 1, 1, 0, 0, 0⟩ } },
   by decide⟩

theorem test_commitsAndArming_1 : ∃ (s : State), s.running = true :=
  ⟨tState .standby, by decide⟩

theorem test_commitsAndArming_2 : ∃ (r : FrameReq) (s : State),
    s.dev = .run ∧ s.frames = [] ∧ s.expo.burst = none ∧ s.reqs = [r] ∧ r.fixedAt ≤ s.now ∧ r.trig = 2 ∧ r.strict = false ∧
    r.rep = false ∧ r.nominal = none ∧ s.get Reg.TB_SKIP_SKIPTH = 0 ∧ s.get Reg.TH_LEVEL_PLVL = 0 ∧ s.expo.expNext = [] :=
  ⟨⟨2, 0, 9999000, 10000000, 10050000, 0, false, false, none, 0, 0, []⟩,
   { (tState .run).set Reg.TB_SKIP_SKIPTH 0 with reqs := [⟨2, 0, 9999000, 10000000, 10050000, 0, false, false, none, 0, 0, []⟩] },
   by decide⟩

theorem test_frameStarts_1 : ∃ (k : Nat) (f : Frame) (c : FClass) (s : State),
    s.dev = .run ∧ s.frames = [f] ∧ f.phase = 1 ∧ f.cls[k]? = some c ∧ c.use = true ∧ shutter f.img ≠ 3 ∧
    f.released.contains k = false ∧ c.start = s.now ∧ s.onTime f = true ∧ s.readyToExpose f k = true :=
  ⟨0, { tFrame 1 with cls := [⟨true, 10000000, 1000, 0, 0, 0, 0⟩] }, ⟨true, 10000000, 1000, 0, 0, 0, 0⟩,
   tFrames [{ tFrame 1 with cls := [⟨true, 10000000, 1000, 0, 0, 0, 0⟩] }], by decide⟩

theorem test_frameStarts_2 : ∃ (k : Nat) (f : Frame) (c : FClass) (s : State),
    s.dev = .run ∧ s.frames = [f] ∧ f.phase = 1 ∧ f.cls[k]? = some c ∧ c.use = true ∧ shutter f.img = 0 ∧
    f.img.flag Reg.EX_MODE_ALIGN = false ∧ f.released.contains k = false ∧ c.start < s.now ∧ f.start ≤ s.now ∧
    s.now + 200 ≤ f.ta ∧ s.onTime f = true ∧ s.readyToExpose f k = true :=
  ⟨0, { tFrame 1 with cls := [⟨true, 9000000, 1001000, 0, 0, 0, 0⟩] }, ⟨true, 9000000, 1001000, 0, 0, 0, 0⟩,
   tFrames [{ tFrame 1 with cls := [⟨true, 9000000, 1001000, 0, 0, 0, 0⟩] }], by decide⟩

theorem test_frameStarts_3 : ∃ (k : Nat) (f : Frame) (c : FClass) (s : State),
    s.running = true ∧ s.frames = [f] ∧ f.phase = 2 ∧ f.cls[k]? = some c ∧ c.use = true ∧ shutter f.img = 3 ∧
    State.rowsReleased f k < State.releases f ∧ State.releaseAt f k c ≤ s.now ∧ s.readyToExpose f k = true :=
  ⟨0,
   { tFrame 2 with img := (((((tState .run).set Reg.EX_MODE_SHUTTER 3).set Reg.RD_PW_CFG_EN 1).set Reg.RD_PW_SIZE_W 64).set Reg.RD_PW_SIZE_H 64).regs },
   ⟨true, 9000000, 10000, 0, 0, 0, 0⟩,
   tFrames [{ tFrame 2 with img := (((((tState .run).set Reg.EX_MODE_SHUTTER 3).set Reg.RD_PW_CFG_EN 1).set Reg.RD_PW_SIZE_W 64).set Reg.RD_PW_SIZE_H 64).regs }],
   by decide⟩

theorem test_frameStarts_4 : ∃ (k : Nat) (r : Nat) (f : Frame) (c : FClass) (s : State),
    s.dev = .run ∧ s.frames = [f] ∧ f.phase = 0 ∧ f.cls[k]? = some c ∧ c.use = true ∧ c.start = f.start ∧
    State.readyToExpose s f k = true ∧ s.requiredStart f = some r ∧ r ≤ s.now ∧ f.start ≤ s.now ∧ f.trig ≠ 1 ∧
    f.late = f.start - f.ts ∧ (f.strict = false ∨ s.now ≤ f.ts + 2) :=
  ⟨0, 0, { tFrame 0 with ts := 9000000 }, ⟨true, 9000000, 10000, 0, 0, 0, 0⟩, tFrames [{ tFrame 0 with ts := 9000000 }],
   by decide⟩

theorem test_frameStarts_5 : ∃ (k : Nat) (r : Nat) (f : Frame) (c : FClass) (s : State),
    f.slot < 64 ∧ s.slots.length = 64 ∧ (s.slot f.slot).rearm = false ∧ s.dev = .run ∧ s.frames = [f] ∧ f.phase = 0 ∧
    f.cls[k]? = some c ∧ c.use = true ∧ c.start = f.start ∧ f.start = s.now ∧ State.readyToExpose s f k = true ∧
    s.requiredStart f = some r ∧ r ≤ s.now ∧ (f.strict = false ∨ s.now ≤ f.ts + 2) ∧ s.slotFrame f.slot f = true ∧
    s.sstate f.slot = ssPending ∧ (s.slot f.slot).action = 1 :=
  ⟨0, 0,
   { tFrame 0 with trig := 1, slot := 63, burst := 1, ts := 9999000, start := 10000000, cls := [⟨true, 10000000, 1000, 0, 0, 0, 0⟩] },
   ⟨true, 10000000, 1000, 0, 0, 0, 0⟩,
   { tSlot .run ssPending 1 0 0 with frames := [{ tFrame 0 with trig := 1, slot := 63, burst := 1, ts := 9999000, start := 10000000, cls := [⟨true, 10000000, 1000, 0, 0, 0, 0⟩] }] },
   by decide⟩

theorem test_frameStarts_6 : ∃ (f : Frame) (g : Frame) (s : State),
    s.dev = .run ∧ s.frames = [g, f] ∧ g.num < f.num ∧ g.phase = 2 ∧ shutter g.img ≠ 3 ∧ f.phase = 0 ∧
    (g.t + g.tEnd < s.now ∨ s.now + (f.t - f.start) < g.t + g.tEnd + 1000 * s.get Reg.TB_SCHED_VBMIN) :=
  ⟨{ tFrame 0 with num := 2 }, tFrame 2, tFrames [tFrame 2, { tFrame 0 with num := 2 }], by decide⟩

theorem test_frameStarts_7 : ∃ (r : Nat) (f : Frame) (s : State),
    s.dev = .run ∧ s.frames = [f] ∧ f.phase = 0 ∧ s.requiredStart f = some r ∧ f.strict = false ∧
    (f.start < s.now ∨ f.start < r) ∧ f.late = 0 :=
  ⟨0, tFrame 0, tFrames [tFrame 0], by decide⟩

theorem test_frameStarts_8 : ∃ (r : Nat) (f : Frame) (s : State),
    s.dev = .run ∧ s.frames = [f] ∧ f.phase = 1 ∧ s.requiredStart f = some r ∧ f.strict = false ∧ f.trig ≠ 1 ∧ f.start < r :=
  ⟨9500000, tFrame 1, { tFrames [tFrame 1] with rd := { Readout.init with done := (9500000, 9600000) } }, by decide⟩

theorem test_frameStarts_9 : ∃ (r : Nat) (f : Frame) (s : State),
    s.dev = .run ∧ s.frames = [f] ∧ f.phase = 0 ∧ s.requiredStart f = some r ∧ f.strict = true ∧ f.ts ≤ f.start ∧
    f.start < s.now ∧ f.ts + 2 < s.now ∧ f.trig = 2 :=
  ⟨0, { tFrame 0 with ts := 9000000, strict := true, trig := 2 },
   tFrames [{ tFrame 0 with ts := 9000000, strict := true, trig := 2 }], by decide⟩

theorem test_frameStarts_10 : ∃ (f : Frame) (g : Frame) (s : State),
    s.dev = .run ∧ s.frames = [g, f] ∧ g.num < f.num ∧ g.phase = 3 ∧ f.phase = 0 ∧ f.start < s.now ∧ f.strict = false ∧
    s.rd.done.2 ≠ 0 ∧ s.trk.subs = [] :=
  ⟨{ tFrame 0 with num := 2 }, tFrame 3,
   { tFrames [tFrame 3, { tFrame 0 with num := 2 }] with rd := { Readout.init with done := (9500000, 9600000) } }, by decide⟩

theorem test_flushAndSteer_1 : ∃ (f : Frame) (s : State),
    s.dev = .run ∧ s.frames = [f] ∧ f.phase < 2 ∧ f.cls.any (·.use) = true ∧ f.flush.any (·.1 == 0) = false ∧
    State.flushFor f 0 ≤ s.now + 340 :=
  ⟨tFrame 1, tFrames [tFrame 1], by decide⟩

theorem test_flushAndSteer_2 : ∃ (f : Frame) (s : State),
    s.dev = .run ∧ s.frames = [f] ∧ f.phase < 2 ∧ f.cls.any (·.use) = true ∧ twoTaps f.img = true ∧ s.trk.subs = [] ∧
    f.flush.any (·.1 == 1) = false ∧ State.flushFor f 1 ≤ s.now + 340 :=
  ⟨{ tFrame 1 with img := ((tState .run).set Reg.EX_MODE_SHUTTER 1).regs },
   tFrames [{ tFrame 1 with img := ((tState .run).set Reg.EX_MODE_SHUTTER 1).regs }], by decide⟩

theorem test_flushAndSteer_3 : ∃ (f : Frame) (s : State),
    s.dev = .run ∧ s.frames = [f] ∧ f.phase < 2 ∧ f.cls.any (·.use) = true ∧ (trackedCells f.img).isEmpty = false ∧
    (shutter f.img = 0 ∨ shutter f.img = 1) ∧ f.flush.any (·.1 == 0) = true ∧ f.flush.any (·.1 == 2) = false ∧
    State.flushFor f 2 ≤ s.now + 340 :=
  ⟨{ tFrame 1 with img := ((((((tState .run).set Reg.TK_PLAN_CFG_EN 1).set Reg.TK_PLAN_WLO_MASK 1).set Reg.TK_W_CFG_EN 1).set Reg.RD_PW_CFG_EN 1)).regs, flush := [(0, 9000000)] },
   tFrames [{ tFrame 1 with img := ((((((tState .run).set Reg.TK_PLAN_CFG_EN 1).set Reg.TK_PLAN_WLO_MASK 1).set Reg.TK_W_CFG_EN 1).set Reg.RD_PW_CFG_EN 1)).regs, flush := [(0, 9000000)] }],
   by decide⟩

theorem test_flushAndSteer_4 : ∃ (f : Frame) (g : Frame) (s : State),
    s.dev = .run ∧ s.frames = [g, f] ∧ g.num < f.num ∧ g.phase = 2 ∧ shutter g.img ≠ 3 ∧ f.phase < 2 ∧
    f.cls.any (·.use) = true ∧ f.flush.any (·.1 == 0) = false ∧ State.flushFor f 0 ≤ s.now + 340 ∧
    s.rowsRead g (State.flushCells f 0) (State.flushRows g 0) = true :=
  ⟨{ tFrame 0 with num := 2 }, { tFrame 2 with slotsOpen := (tFrame 2).rowIds.length },
   tFrames [{ tFrame 2 with slotsOpen := (tFrame 2).rowIds.length }, { tFrame 0 with num := 2 }],
   ⟨rfl, rfl, by decide, rfl, by decide, by decide, by decide, by decide, by decide, aux_rowsRead _ rfl rfl _ _ (by decide) _⟩⟩

theorem test_flushAndSteer_5 : ∃ (b : Bool) (f : Frame) (g : Frame) (s : State),
    s.frames = [g, f] ∧ g.num < f.num ∧ g.phase = 2 ∧ shutter g.img ≠ 3 ∧ f.phase < 2 ∧
    (∀ k ∈ State.flushKinds f, (k == 1) = b → s.rowsRead g (State.flushCells f k) (State.flushRows g k) = false) ∧
    (b = true → s.flushSub = none) :=
  ⟨false, { tFrame 0 with num := 2 }, tFrame 2, tFrames [tFrame 2, { tFrame 0 with num := 2 }], by decide⟩

theorem test_flushAndSteer_6 : ∃ (k : Nat) (f : Frame) (c : FClass) (s : State),
    s.dev = .run ∧ s.frames = [f] ∧ f.phase = 1 ∧ f.cls[k]? = some c ∧ c.use = true ∧ f.released.contains k = true ∧
    f.steersDone k < f.steerCount ∧ f.steerAt c (f.steersDone k) ≤ s.now ∧ f.flushed (f.steersDone k % 2) s.now = true ∧
    s.onTime f = true ∧
    Frame.steered { f with steers := (k, f.steersDone k + 1) :: f.steers.filter (·.1 != k), cls := f.cls.set k (steeredLate f c (f.steersDone k) s.now) } = false :=
  ⟨0,
   { tFrame 1 with flush := [(0, 9000000)], released := [0], cls := [⟨true, 9000000, 10000, 0, 0, 0, 0⟩, ⟨true, 9000000, 10000, 0, 0, 0, 0⟩] },
   ⟨true, 9000000, 10000, 0, 0, 0, 0⟩,
   tFrames [{ tFrame 1 with flush := [(0, 9000000)], released := [0], cls := [⟨true, 9000000, 10000, 0, 0, 0, 0⟩, ⟨true, 9000000, 10000, 0, 0, 0, 0⟩] }],
   by decide⟩

theorem test_flushAndSteer_7 : ∃ (k : Nat) (f : Frame) (c : FClass) (s : State),
    s.dev = .run ∧ s.frames = [f] ∧ f.phase = 1 ∧ f.cls[k]? = some c ∧ c.use = true ∧ f.released.contains k = true ∧
    f.steersDone k < f.steerCount ∧ f.steerAt c (f.steersDone k) ≤ s.now ∧ f.flushed (f.steersDone k % 2) s.now = true ∧
    s.onTime f = true ∧
    Frame.steered { f with steers := (k, f.steersDone k + 1) :: f.steers.filter (·.1 != k), cls := f.cls.set k (steeredLate f c (f.steersDone k) s.now) } = true ∧
    s.cis.out = none ∧ s.s2 = [] :=
  ⟨0, { tFrame 1 with flush := [(0, 9000000)], released := [0] }, ⟨true, 9000000, 10000, 0, 0, 0, 0⟩,
   tFrames [{ tFrame 1 with flush := [(0, 9000000)], released := [0] }], by decide⟩

theorem test_flushAndSteer_8 : ∃ (k : Nat) (f : Frame) (s : State),
    s.frames = [f] ∧ f.phase = 1 ∧ (f.flushed (f.steersDone k % 2) s.now = false ∨ s.onTime f = false) :=
  ⟨0, tFrame 1, tFrames [tFrame 1], by decide⟩

theorem test_rowsAndCells_1 : ∃ (f : Frame) (r : RowId) (s : State),
    s.frames = [f] ∧ f.phase = 2 ∧ f.rowIds[f.slotsOpen]? = some r ∧
    f.t + slotStart f.img f.strip f.gains f.div f.tRd f.slotsOpen ≤ s.now ∧
    (shutter f.img ≠ 3 ∨ r.ref = true ∨ ∀ k, k < 8 → ∀ c, f.cls[k]? = some c → c.use = true → f.slotsOpen < State.rowsReleased f k) :=
  ⟨tFrame 2, ⟨0, false, false⟩, tFrames [tFrame 2], by decide⟩

theorem test_rowsAndCells_2 : ∃ (f : Frame) (s : State),
    s.frames = [f] ∧ f.phase = 2 ∧ s.now < f.t + slotStart f.img f.strip f.gains f.div f.tRd f.slotsOpen :=
  ⟨{ tFrame 2 with t := 10000001 }, tFrames [{ tFrame 2 with t := 10000001 }], by decide⟩

theorem test_rowsAndCells_3 : ∃ (f : Frame) (k : Nat) (c : FClass) (r : RowId) (s : State),
    s.frames = [f] ∧ f.phase = 2 ∧ f.rowIds[f.slotsOpen]? = some r ∧ r.ref = false ∧ shutter f.img = 3 ∧ k < 8 ∧
    f.cls[k]? = some c ∧ c.use = true ∧ State.rowsReleased f k ≤ f.slotsOpen :=
  ⟨{ tFrame 2 with img := (((((tState .run).set Reg.EX_MODE_SHUTTER 3).set Reg.RD_PW_CFG_EN 1).set Reg.RD_PW_SIZE_W 64).set Reg.RD_PW_SIZE_H 64).regs, slotsOpen := 5 },
   0, ⟨true, 9000000, 10000, 0, 0, 0, 0⟩,
   (({ tFrame 2 with img := (((((tState .run).set Reg.EX_MODE_SHUTTER 3).set Reg.RD_PW_CFG_EN 1).set Reg.RD_PW_SIZE_W 64).set Reg.RD_PW_SIZE_H 64).regs } : Frame).rowIds.getD 5 ⟨0, false, false⟩),
   tFrames [{ tFrame 2 with img := (((((tState .run).set Reg.EX_MODE_SHUTTER 3).set Reg.RD_PW_CFG_EN 1).set Reg.RD_PW_SIZE_W 64).set Reg.RD_PW_SIZE_H 64).regs, slotsOpen := 5 }],
   by decide⟩

theorem test_rowsAndCells_4 : ∃ (c : Nat) (f : Frame) (r : RowId) (s : State),
    s.frames = [f] ∧ f.phase = 2 ∧ c < 65536 ∧ f.inSet c = true ∧ s.fillCause f c = 0 ∧ (s.cellRt c).frame = f.num ∧
    (s.cellRt c).next < f.slotsOpen ∧ f.rowIds[(s.cellRt c).next]? = some r ∧ (s.cellRt c).conv = none ∧
    (s.cellRt c).trackNow = none ∧ (s.cellRt c).trackWait = [] ∧
    s.queueBytes c (rawBits f.img) + (f.readGains c).length * (8 * rawBits f.img) ≤ 512 :=
  ⟨0,
   { tFrame 2 with img := ((((tState .run).set Reg.RD_PW_CFG_EN 1).set Reg.RD_PW_SIZE_W 64).set Reg.RD_PW_SIZE_H 64).regs, slotsOpen := 1, ready := 1 },
   ⟨0, false, false⟩,
   { tFrames [{ tFrame 2 with img := ((((tState .run).set Reg.RD_PW_CFG_EN 1).set Reg.RD_PW_SIZE_W 64).set Reg.RD_PW_SIZE_H 64).regs, slotsOpen := 1, ready := 1 }] with rd := { Readout.init with cells := [tCell 0] } },
   by decide⟩

theorem test_rowsAndCells_5 : ∃ (c : Nat) (i : Nat) (t0 : Nat) (f : Frame) (r : RowId) (s : State),
    s.frames = [f] ∧ f.phase = 2 ∧ (s.cellRt c).conv = some (i, t0) ∧ (s.cellRt c).frame = f.num ∧
    (s.cellRt c).trackNow = none ∧ f.rowIds[i]? = some r ∧ r.ref = false ∧
    t0 + rConv f.img (f.readGains c).length f.div ≤ s.now :=
  ⟨65535, 0, 9000000, { tFrame 2 with slotsOpen := 1 }, ⟨0, false, false⟩,
   { tFrames [{ tFrame 2 with slotsOpen := 1 }] with rd := { Readout.init with cells := [{ tCell 65535 with conv := some (0, 9000000) }] } },
   by decide⟩

theorem test_rowsAndCells_6 : ∃ (c : Nat) (i : Nat) (t0 : Nat) (j : Nat) (t1 : Nat) (f : Frame) (s : State),
    s.frames = [f] ∧ f.phase = 2 ∧ (s.cellRt c).conv = some (i, t0) ∧ (s.cellRt c).trackNow = some (j, t1) :=
  ⟨65535, 0, 9000000, 7, 9500000, tFrame 2,
   { tFrames [tFrame 2] with rd := { Readout.init with cells := [{ tCell 65535 with conv := some (0, 9000000), trackNow := some (7, 9500000) }] } },
   by decide⟩

theorem test_arbiters_1 : ∃ (b : Nat) (l : Nat) (e : Entry) (s : State),
    b < 256 ∧ s.dev ≠ .standby ∧ (∀ x ∈ s.rd.cells, x.cell < 65536) ∧
    nextAfter ((List.range 256).filter fun k => s.rd.cells.any fun x => x.cell == cellOf b k && x.queue.any (·.track)) ((s.rd.trackRr.find? (·.1 == b)).map (·.2)) = some l ∧
    (s.cellRt (cellOf b l)).queue.find? (·.track) = some e :=
  ⟨255, 255, ⟨65535, 1, true, 0, true, false, [1]⟩,
   { tState .run with rd := { Readout.init with cells := [{ tCell 65535 with queue := [⟨65535, 1, false, 0, false, false, [1]⟩, ⟨65535, 1, true, 0, true, false, [1]⟩] }] } },
   by decide⟩

theorem test_arbiters_2 : ∃ (b : Nat) (l : Nat) (e : Entry) (s : State),
    b < 256 ∧ s.dev = .standby ∧ (∀ x ∈ s.rd.cells, x.cell < 65536) ∧
    nextAfter ((List.range 256).filter fun k => s.rd.cells.any fun x => x.cell == cellOf b k && x.queue.any (·.track)) ((s.rd.trackRr.find? (·.1 == b)).map (·.2)) = some l ∧
    (s.cellRt (cellOf b l)).queue.find? (·.track) = some e :=
  ⟨255, 255, ⟨65535, 1, true, 0, true, false, [1]⟩,
   { tState .standby with rd := { Readout.init with cells := [{ tCell 65535 with queue := [⟨65535, 1, true, 0, true, false, [1]⟩] }] } },
   by decide⟩

theorem test_arbiters_3 : ∃ (b : Nat) (l : Nat) (e : Entry) (rest : List Entry) (s : State),
    b < 256 ∧ (∀ x ∈ s.rd.cells, x.cell < 65536) ∧ (∀ x ∈ s.rd.cells, cellBlock x.cell = b → x.queue.any (·.track) = false) ∧
    nextAfter ((List.range 256).filter fun k => s.rd.cells.any fun x => x.cell == cellOf b k && !x.queue.isEmpty) ((s.rd.picRr.find? (·.1 == b)).map (·.2)) = some l ∧
    (s.cellRt (cellOf b l)).queue = e :: rest :=
  ⟨255, 255, ⟨65535, 1, false, 0, false, false, [1]⟩, [],
   { tState .run with rd := { Readout.init with cells := [{ tCell 65535 with queue := [⟨65535, 1, false, 0, false, false, [1]⟩] }] } },
   by decide⟩

theorem test_arbiters_4 : ∃ (b : Nat) (s : State), (∀ x ∈ s.rd.cells, cellBlock x.cell = b → x.queue = []) :=
  ⟨254,
   { tState .run with rd := { Readout.init with cells := [{ tCell 65535 with queue := [⟨65535, 1, false, 0, false, false, [1]⟩] }] } },
   by decide⟩

theorem test_arbiters_5 : ∃ (r : Nat) (l : Nat) (e : Entry) (s : State),
    s.dev ≠ .standby ∧ (∀ x ∈ s.rd.blockOut, blockRegion (cellBlock x.cell) = r → s.readsBack x = false ∨ s.serves 0 = true) ∧
    nextAfter ((List.range 16).filter fun k => s.rd.blockOut.any fun e => blockRegion (cellBlock e.cell) == r && 4 * (cellBlock e.cell / 16 % 4) + cellBlock e.cell % 4 == k) ((s.rd.rgnRr.find? (·.1 == r)).map (·.2)) = some l ∧
    s.rd.blockOut.find? (fun e => blockRegion (cellBlock e.cell) == r && 4 * (cellBlock e.cell / 16 % 4) + cellBlock e.cell % 4 == l) = some e :=
  ⟨15, 15, ⟨65535, 1, false, 0, false, false, [1]⟩,
   { tState .run with rd := { Readout.init with blockOut := [⟨65535, 1, false, 0, false, false, [1]⟩] } }, by decide⟩

theorem test_arbiters_6 : ∃ (r : Nat) (s : State),
    (∀ e ∈ s.rd.blockOut, blockRegion (cellBlock e.cell) = r → s.readsBack e = true ∧ s.serves 0 = false) :=
  ⟨14, { tState .run with rd := { Readout.init with blockOut := [⟨65535, 1, false, 0, false, false, [1]⟩] } }, by decide⟩

theorem test_frameEnds_1 : ∃ (f : Frame) (s : State),
    s.frames = [f] ∧ f.phase = 2 ∧ f.t + f.tEnd ≤ s.now ∧ f.slotsOpen = f.rowIds.length ∧
    (∀ c, c < 65536 → f.inSet c = true → s.fillCause f c = 0 → (s.cellRt c).frame = f.num ∧ (s.cellRt c).next = f.rowIds.length ∧ (s.cellRt c).conv = none) :=
  ⟨{ tFrame 2 with slotsOpen := (tFrame 2).rowIds.length },
   tFrames [{ tFrame 2 with slotsOpen := (tFrame 2).rowIds.length }],
   ⟨rfl, rfl, by decide, rfl, fun c _ h => absurd h (by rw [aux_inSet _ rfl]; decide)⟩⟩

theorem test_frameEnds_2 : ∃ (f : Frame) (s : State),
    s.frames = [f] ∧ f.phase = 3 ∧ f.statsDone = false ∧ s.rd.blockOut = [] ∧ s.rd.cells = [] :=
  ⟨tFrame 3, tFrames [tFrame 3], by decide⟩

theorem test_frameEnds_3 : ∃ (v : Nat) (f : Frame) (c : VcCount) (s : State),
    s.running = true ∧ s.dropped = [] ∧ s.frames = [f] ∧ f.phase = 3 ∧ f.counts = [c] ∧ c.vc = v ∧ c.closed = false ∧
    s.vcDone f v = true ∧ s.queued v f.num = false :=
  ⟨15, { tFrame 3 with counts := [⟨15, 3, 0, 0, false⟩] }, ⟨15, 3, 0, 0, false⟩,
   tFrames [{ tFrame 3 with counts := [⟨15, 3, 0, 0, false⟩] }],
   ⟨rfl, rfl, rfl, rfl, rfl, rfl, rfl, aux_vcDone _ rfl rfl _ _, rfl⟩⟩

theorem test_frameEnds_4 : ∃ (v : Nat) (f : Frame) (c : VcCount) (s : State),
    s.running = true ∧ s.dropped = [] ∧ s.frames = [f] ∧ f.phase = 3 ∧ f.counts = [c] ∧ c.vc = v ∧ c.closed = false ∧
    s.queued v f.num = true :=
  ⟨15, { tFrame 3 with counts := [⟨15, 3, 0, 0, false⟩] }, ⟨15, 3, 0, 0, false⟩,
   { tGroup lsActive with frames := [{ tFrame 3 with counts := [⟨15, 3, 0, 0, false⟩] }], groups := (List.replicate 32 Group.init).set 31 { Group.init with buf := [⟨15, 0x40, 0, 1, [], true, false, false⟩] } },
   by decide⟩

theorem test_readoutFailures_1 : ∃ (b : Nat) (s : State),
    b < 256 ∧ s.running = true ∧ s.blockFailed b = false ∧
    s.rd.cells.any (fun x => cellBlock x.cell == b && !x.queue.isEmpty && decide (x.since + s.arbiterTime (blockRegion b) ≤ s.now)) = true :=
  ⟨255,
   { tState .run with rd := { Readout.init with cells := [{ tCell 65535 with queue := [⟨65535, 1, false, 0, false, false, [1]⟩] }] } },
   by decide⟩

theorem test_readoutFailures_2 : ∃ (r : Nat) (s : State),
    r < 16 ∧ s.running = true ∧ s.regionFailed r = false ∧
    s.rd.blockOut.any (fun e => blockRegion (cellBlock e.cell) == r && s.rd.blockSince.any fun w => w.1 == cellBlock e.cell && s.rd.blockSince.find? (·.1 == w.1) == some w && decide (w.2 + s.arbiterTime r ≤ s.now)) = true :=
  ⟨15,
   { tState .run with rd := { Readout.init with blockOut := [⟨65535, 1, false, 0, false, false, [1]⟩], blockSince := [(255, 9980000)] } },
   by decide⟩

theorem test_readoutFailures_3 : ∃ (r : Nat) (s : State),
    (∀ x ∈ s.rd.cells, s.now < x.since + s.arbiterTime (blockRegion (cellBlock x.cell))) ∧ 0 < s.arbiterTime r ∧
    (∀ w ∈ s.rd.blockSince, s.now < w.2 + s.arbiterTime (blockRegion w.1)) :=
  ⟨15,
   { tState .run with rd := { Readout.init with cells := [{ tCell 65535 with queue := [⟨65535, 1, false, 0, false, false, [1]⟩], since := 9980001 }], blockOut := [⟨65535, 1, false, 0, false, false, [1]⟩], blockSince := [(255, 9980001)] } },
   by decide⟩

theorem test_readoutFailures_5 : ∃ (x : Nat), x < 16 :=
  ⟨15, by decide⟩

theorem test_readoutFailures_6 : ∃ (b : Nat) (s : State),
    b < 256 ∧ s.running = true ∧ s.blockOn b = true ∧ s.flag Reg.BLK_STAT_READY b = false :=
  ⟨255, (tState .run).set Reg.PM_BLK_ON 0x80000000 7, by decide⟩

theorem test_readoutFailures_7 : ∃ (d : Nat) (s : State), d < 320 ∧ s.pdOn d = true :=
  ⟨303, (tState .run).set Reg.PM_LG_ON 0x80000000, by decide⟩

theorem test_ringCommands_1 : ∃ (s : State),
    s.running = true ∧ s.get Reg.CS_RINGSTAT_RSTATE = 0 ∧ hasBit s.cis.admis 6 = true :=
  ⟨{ tState .run with cis := { Cis.init with admis := 64, ring := [tStored] } }, by decide⟩

theorem test_ringCommands_2 : ∃ (s : State), s.running = true ∧ s.get Reg.CS_RINGSTAT_RSTATE ≠ 0 :=
  ⟨(tState .run).set Reg.CS_RINGSTAT_RSTATE 1, by decide⟩

theorem test_ringCommands_3 : ∃ (s : State),
    s.running = true ∧ s.get Reg.CS_RINGSTAT_RSTATE = 2 ∧ s.cis.rcl = none ∧ s.cis.recallQ = [] :=
  ⟨tFrozen, by decide⟩

theorem test_ringCommands_4 : ∃ (s : State),
    s.running = true ∧ s.get Reg.CS_RINGSTAT_RSTATE = 2 ∧ (s.cis.rcl ≠ none ∨ s.cis.recallQ ≠ []) :=
  ⟨{ tFrozen with cis := { tFrozen.cis with recallQ := [⟨255, 1, 0, 0, 15⟩] } }, by decide⟩

theorem test_ringCommands_5 : ∃ (s : State),
    s.cis.trig.level = false ∧ s.running = true ∧ s.flag Reg.CS_RINGTRIG_EN = true ∧
    s.pinOwner (s.get Reg.CS_RINGTRIG_PIN) = 3 ∧ s.get Reg.CS_RINGTRIG_EDGE ≠ 1 :=
  ⟨(((tState .run).set Reg.CS_RINGTRIG_EN 1).set Reg.CS_RINGTRIG_PIN 23).set (State.ownFld 23) 3 5, by decide⟩

theorem test_ringCommands_6 : ∃ (s : State),
    s.cis.trig.level = true ∧ s.running = true ∧ s.flag Reg.CS_RINGTRIG_EN = true ∧
    s.pinOwner (s.get Reg.CS_RINGTRIG_PIN) = 3 :=
  ⟨{ (((tState .run).set Reg.CS_RINGTRIG_EN 1).set Reg.CS_RINGTRIG_PIN 23).set (State.ownFld 23) 3 5 with cis := { Cis.init with trig := ⟨true, 9999000, true, []⟩ } },
   by decide⟩

theorem test_ringCommands_7 : ∃ (s : State),
    s.cis.trig.waiting = true ∧ s.cis.trig.edgeAt + 10 * s.get Reg.CS_RINGTRIG_MINW ≤ s.now ∧ s.running = true ∧
    s.get Reg.CS_RINGSTAT_RSTATE = 0 ∧ hasBit s.cis.admis 6 = true :=
  ⟨{ (tState .run).set Reg.CS_RINGTRIG_MINW 100 with cis := { Cis.init with admis := 64, trig := ⟨true, 9999000, true, []⟩ } },
   by decide⟩

theorem test_recalls_1 : ∃ (x : Stored) (s : State),
    s.running = true ∧ s.get Reg.CS_RCSTAT_QUEUED < 4 ∧ s.frozenFrame (s.get Reg.CS_RCFRM_FRAME) = some x ∧
    s.get Reg.CS_RCROWS_FIRST ≤ s.get Reg.CS_RCROWS_LAST ∧ (State.storedSpan x).1 ≤ s.get Reg.CS_RCROWS_LAST ∧
    s.get Reg.CS_RCROWS_LAST ≤ (State.storedSpan x).2 :=
  ⟨tStored, (tFrozen.set Reg.CS_RCFRM_FRAME 1).set Reg.CS_RCROWS_LAST 0, by decide⟩

theorem test_recalls_2 : ∃ (why : Nat) (s : State),
    s.running = true ∧
    ((4 ≤ s.get Reg.CS_RCSTAT_QUEUED ∧ why = 4) ∨ (s.get Reg.CS_RCSTAT_QUEUED < 4 ∧ s.frozenFrame (s.get Reg.CS_RCFRM_FRAME) = none ∧ why = 3) ∨ (s.get Reg.CS_RCSTAT_QUEUED < 4 ∧ why = 5 ∧ ∃ x, s.frozenFrame (s.get Reg.CS_RCFRM_FRAME) = some x ∧ (s.get Reg.CS_RCROWS_LAST < s.get Reg.CS_RCROWS_FIRST ∨ s.get Reg.CS_RCROWS_LAST < (State.storedSpan x).1 ∨ (State.storedSpan x).2 < s.get Reg.CS_RCROWS_LAST))) :=
  ⟨4, (tState .run).set Reg.CS_RCSTAT_QUEUED 4, by decide⟩

theorem test_recalls_2b : ∃ (why : Nat) (s : State),
    s.running = true ∧
    ((4 ≤ s.get Reg.CS_RCSTAT_QUEUED ∧ why = 4) ∨ (s.get Reg.CS_RCSTAT_QUEUED < 4 ∧ s.frozenFrame (s.get Reg.CS_RCFRM_FRAME) = none ∧ why = 3) ∨ (s.get Reg.CS_RCSTAT_QUEUED < 4 ∧ why = 5 ∧ ∃ x, s.frozenFrame (s.get Reg.CS_RCFRM_FRAME) = some x ∧ (s.get Reg.CS_RCROWS_LAST < s.get Reg.CS_RCROWS_FIRST ∨ s.get Reg.CS_RCROWS_LAST < (State.storedSpan x).1 ∨ (State.storedSpan x).2 < s.get Reg.CS_RCROWS_LAST))) :=
  ⟨3, tFrozen.set Reg.CS_RCFRM_FRAME 2, by decide⟩

theorem test_recalls_2c : ∃ (why : Nat) (s : State),
    s.running = true ∧
    ((4 ≤ s.get Reg.CS_RCSTAT_QUEUED ∧ why = 4) ∨ (s.get Reg.CS_RCSTAT_QUEUED < 4 ∧ s.frozenFrame (s.get Reg.CS_RCFRM_FRAME) = none ∧ why = 3) ∨ (s.get Reg.CS_RCSTAT_QUEUED < 4 ∧ why = 5 ∧ ∃ x, s.frozenFrame (s.get Reg.CS_RCFRM_FRAME) = some x ∧ (s.get Reg.CS_RCROWS_LAST < s.get Reg.CS_RCROWS_FIRST ∨ s.get Reg.CS_RCROWS_LAST < (State.storedSpan x).1 ∨ (State.storedSpan x).2 < s.get Reg.CS_RCROWS_LAST))) :=
  ⟨5, ((tFrozen.set Reg.CS_RCFRM_FRAME 1).set Reg.CS_RCROWS_FIRST 1).set Reg.CS_RCROWS_LAST 0, by decide⟩

theorem test_recalls_3 : ∃ (r : Recall) (rest : List Recall) (x : Stored) (s : State),
    s.running = true ∧ s.cis.rcl = none ∧ s.cis.recallQ = r :: rest ∧ s.frozenFrame r.frame = some x ∧ s.servesRecall = true :=
  ⟨⟨255, 1, 0, 0, 15⟩, [], tStored, { tFrozen with cis := { tFrozen.cis with recallQ := [⟨255, 1, 0, 0, 15⟩] } }, by decide⟩

theorem test_recalls_4 : ∃ (r : Recall) (rest : List Recall) (s : State),
    s.cis.rcl = none ∧ s.cis.recallQ = r :: rest ∧ s.servesRecall = false :=
  ⟨⟨255, 1, 0, 0, 15⟩, [],
   { tFrozen with cis := { tFrozen.cis with recallQ := [⟨255, 1, 0, 0, 15⟩] }, frames := [{ tFrame 3 with raster := [tRow 0 0] }] },
   by decide⟩

theorem test_recalls_5 : ∃ (r : Recall) (p : List Byte) (s : State),
    s.cis.rcl = some (r, [p]) ∧ s.dropped = [] ∧ (s.build r.vc 0x50 r.frame p false false false).2 = true ∧
    (s.build r.vc 0x50 r.frame p false false false).1.dropped = [] ∧ s.cis.release = false :=
  ⟨⟨255, 1, 0, 0, 15⟩, [1],
   { ((tGroup lsActive).set Reg.LK_VCACT_MAP 0x80000000 15).set Reg.CS_RINGSTAT_RSTATE 2 with cis := { Cis.init with ring := [tStored], rcl := some (⟨255, 1, 0, 0, 15⟩, [[1]]) } },
   by decide⟩

theorem test_recalls_6 : ∃ (r : Recall) (p : List Byte) (s : State),
    s.cis.rcl = some (r, [p]) ∧ s.dropped = [] ∧ (s.build r.vc 0x50 r.frame p false false false).2 = false ∧
    s.cis.release = false :=
  ⟨⟨255, 1, 0, 0, 15⟩, [1], { tFrozen with cis := { tFrozen.cis with rcl := some (⟨255, 1, 0, 0, 15⟩, [[1]]) } }, by decide⟩

theorem test_recalls_7 : ∃ (r : Recall) (p : List Byte) (s : State),
    s.cis.rcl = some (r, [p]) ∧ s.dropped = [] ∧ s.cis.release = true ∧ s.cis.recallQ = [] ∧
    s.get Reg.CS_RINGSTAT_RSTATE = 2 :=
  ⟨⟨255, 1, 0, 0, 15⟩, [1],
   { tFrozen with cis := { tFrozen.cis with rcl := some (⟨255, 1, 0, 0, 15⟩, [[1]]), release := true } }, by decide⟩

theorem test_rasterOutputs_1 : ∃ (f : Frame) (s : State),
    s.dev = .run ∧ s.frames = [f] ∧ f.phase = 3 ∧ f.raster ≠ [] ∧ s.vcDone f (f.img.fld Reg.CS_CFG_RVC) = true ∧
    s.channels ≠ [] ∧ s.get Reg.CS_RINGSTAT_RSTATE = 0 :=
  ⟨{ tFrame 3 with raster := [tRow 0 0], admis := 127 },
   { (tState .run).set Reg.CS_CH_STAT_TRAINED 1 3 with frames := [{ tFrame 3 with raster := [tRow 0 0], admis := 127 }], cis := { Cis.init with admis := 127, pre := 1 } },
   ⟨rfl, rfl, rfl, by decide, aux_vcDone _ rfl rfl _ _, by decide, by decide⟩⟩

theorem test_rasterOutputs_2 : ∃ (x : Stored) (s : State),
    s.running = true ∧ s.cis.out = none ∧ s.cis.accDue = [] ∧ s.cis.rasterDue = some x ∧ s.serves 3 = true :=
  ⟨tStored, { tState .run with cis := { Cis.init with rasterDue := some tStored } }, by decide⟩

theorem test_rasterOutputs_3 : ∃ (a : AccGroup) (x : Stored) (s : State),
    s.running = true ∧ s.cis.out = none ∧ s.cis.accDue = [] ∧ s.cis.acc = some a ∧ a.count = a.size ∧
    State.accStored a = some x ∧ hasBit x.frame.supp 0 = false ∧
    State.serves { s with cis := { s.cis with accDue := [a], acc := none } } 4 = true :=
  ⟨⟨2, 1, 0, 2, [(tRow 0 0, [131070, 7])], [], some tStored, []⟩,
   (State.accStored ⟨2, 1, 0, 2, [(tRow 0 0, [131070, 7])], [], some tStored, []⟩).getD tStored,
   { tState .run with cis := { Cis.init with acc := some ⟨2, 1, 0, 2, [(tRow 0 0, [131070, 7])], [], some tStored, []⟩ } },
   by decide⟩

theorem test_rasterOutputs_4 : ∃ (s : State), s.serves 3 = false ∧ s.serves 4 = false :=
  ⟨tState .run, by decide⟩

theorem test_rasterOutputs_5 : ∃ (a : AccGroup) (s : State),
    s.cis.acc = some a ∧ a.count = a.size ∧
    State.serves { s with cis := { s.cis with accDue := s.cis.accDue ++ [a], acc := none } } 3 = false ∧
    State.serves { s with cis := { s.cis with accDue := s.cis.accDue ++ [a], acc := none } } 4 = false :=
  ⟨⟨2, 1, 0, 2, [(tRow 0 0, [131070, 7])], [], some tStored, []⟩,
   { tState .run with cis := { Cis.init with acc := some ⟨2, 1, 0, 2, [(tRow 0 0, [131070, 7])], [], some tStored, []⟩ }, frames := [{ tFrame 3 with raster := [tRow 0 0] }] },
   by decide⟩

theorem test_rasterOutputs_6 : ∃ (v : Nat) (o : OpenOut) (s : State),
    s.running = true ∧ s.dropped = [] ∧ s.frames = [] ∧ s.cis.out = some o ∧ o.vc = v ∧
    s.queued v o.stored.frame.num = false :=
  ⟨15, ⟨2, 15, tStored, 1, 1, [], 0, 0, 0, 0⟩,
   { tState .run with cis := { Cis.init with out := some ⟨2, 15, tStored, 1, 1, [], 0, 0, 0, 0⟩ } }, by decide⟩

theorem test_cisternErrors_1 : ∃ (n : Nat) (s : State),
    s.chanUp n = true ∧
    (((n, s.now) :: s.cis.parity.filter fun e => decide (s.now < e.2 + 1000000)).filter (·.1 == n)).length ≤ 8 :=
  ⟨3,
   { (tState .run).set Reg.CS_CH_STAT_TRAINED 1 3 with cis := { Cis.init with parity := List.replicate 7 (3, 9500000) ++ [(3, 9000000)] } },
   by decide⟩

theorem test_cisternErrors_2 : ∃ (n : Nat) (s : State),
    n < 4 ∧ s.chanUp n = true ∧
    8 < (((n, s.now) :: s.cis.parity.filter fun e => decide (s.now < e.2 + 1000000)).filter (·.1 == n)).length :=
  ⟨3, { (tState .run).set Reg.CS_CH_STAT_TRAINED 1 3 with cis := { Cis.init with parity := List.replicate 8 (3, 9000001) } },
   by decide⟩

theorem test_cisternErrors_4 : ∃ (g : Nat) (p : Packet) (rest : List Packet) (s : State),
    g < 32 ∧ s.groups.length = 32 ∧ (s.group g).spill = p :: rest :=
  ⟨31, ⟨0, 0x40, 0, 1, [], true, false, false⟩, [],
   (tGroup lsActive).setGroup 31 fun x => { x with spill := [⟨0, 0x40, 0, 1, [], true, false, false⟩] }, by decide⟩

theorem test_cisternErrors_5 : ∃ (t0 : Nat) (s : State), s.cis.readmit = some t0 :=
  ⟨9999000, { tState .run with cis := { Cis.init with readmit := some 9999000 } }, by decide⟩

theorem test_stageTwo_1 : ∃ (s : State), s.running = true :=
  ⟨tState .standby, by decide⟩

theorem test_stageTwo_2 : ∃ (f : Frame) (x : Stored) (s : State),
    s.dev = .run ∧ s.frames = [f] ∧ f.phase = 3 ∧ f.s2Asked = false ∧ f.raster = [] ∧ s.cis.s2Due = [x] ∧
    x.frame.num = f.num ∧ s.cpCommits = [] ∧ procWin s.cpInForce f.img = true ∧ hasBit s.domLost 3 = false :=
  ⟨{ tFrame 3 with img := ((((tState .run).set Reg.RD_PW_CFG_EN 1).set Reg.RD_PW_SIZE_W 64).set Reg.RD_PW_SIZE_H 64).regs },
   { tStored with frame := { tFrame 3 with img := ((((tState .run).set Reg.RD_PW_CFG_EN 1).set Reg.RD_PW_SIZE_W 64).set Reg.RD_PW_SIZE_H 64).regs } },
   { tFrames [{ tFrame 3 with img := ((((tState .run).set Reg.RD_PW_CFG_EN 1).set Reg.RD_PW_SIZE_W 64).set Reg.RD_PW_SIZE_H 64).regs }] with cis := { Cis.init with s2Due := [{ tStored with frame := { tFrame 3 with img := ((((tState .run).set Reg.RD_PW_CFG_EN 1).set Reg.RD_PW_SIZE_W 64).set Reg.RD_PW_SIZE_H 64).regs } }] } },
   by decide⟩

theorem test_stageTwo_3 : ∃ (f : Frame) (s : State),
    s.dev = .run ∧ s.frames = [f] ∧ f.phase = 3 ∧ f.s2Asked = false ∧ f.raster = [] ∧ s.cis.s2Due = [] :=
  ⟨tFrame 3, tFrames [tFrame 3], by decide⟩

theorem test_stageTwo_4 : ∃ (x : S2Frame) (s : State),
    s.running = true ∧ s.s2 = [x] ∧ x.readAt = none ∧ x.nextRow < x.ho ∧ s.serves 2 = true :=
  ⟨⟨{ tStored with frame := { tFrame 3 with img := ((((tState .run).set Reg.RD_PW_CFG_EN 1).set Reg.RD_PW_SIZE_W 64).set Reg.RD_PW_SIZE_H 64).regs } }, 0, [], 9000000, (8, 1), 0, 0, true, false, none, [], 0, 0, 0, 64⟩,
   { tState .run with s2 := [⟨{ tStored with frame := { tFrame 3 with img := ((((tState .run).set Reg.RD_PW_CFG_EN 1).set Reg.RD_PW_SIZE_W 64).set Reg.RD_PW_SIZE_H 64).regs } }, 0, [], 9000000, (8, 1), 0, 0, true, false, none, [], 0, 0, 0, 64⟩] },
   by decide⟩

theorem test_stageTwo_5 : ∃ (s : State), s.serves 2 = false :=
  ⟨tState .run, by decide⟩

theorem test_stageTwo_6 : ∃ (x : S2Frame) (s : State),
    s.s2 = [x] ∧ x.readAt = none ∧ x.linked = true ∧ x.rate.1 ≤ (s.now + 10000 - x.entered) * x.rate.2 :=
  ⟨⟨{ tStored with frame := { tFrame 3 with img := ((((tState .run).set Reg.RD_PW_CFG_EN 1).set Reg.RD_PW_SIZE_W 64).set Reg.RD_PW_SIZE_H 64).regs } }, 0, [], 9000000, (8, 1), 0, 0, true, false, none, [], 0, 0, 0, 64⟩,
   { tState .run with s2 := [⟨{ tStored with frame := { tFrame 3 with img := ((((tState .run).set Reg.RD_PW_CFG_EN 1).set Reg.RD_PW_SIZE_W 64).set Reg.RD_PW_SIZE_H 64).regs } }, 0, [], 9000000, (8, 1), 0, 0, true, false, none, [], 0, 0, 0, 64⟩] },
   by decide⟩

theorem test_stageTwo_7 : ∃ (v : Nat) (x : S2Frame) (s : State),
    s.running = true ∧ s.dropped = [] ∧ s.frames = [] ∧ s.cis.out = none ∧ s.s2 = [x] ∧ x.linked = true ∧
    x.img.fld Reg.CP_CFG_VC = v ∧ State.stage2Done x = true ∧ s.queued v x.stored.frame.num = false :=
  ⟨5,
   ⟨{ tStored with frame := { tFrame 3 with img := ((((tState .run).set Reg.RD_PW_CFG_EN 1).set Reg.RD_PW_SIZE_W 64).set Reg.RD_PW_SIZE_H 64).regs } }, 0, [], 9000000, (8, 1), 0, 64, true, false, some 9500000, [], 0, 0, 0, 64⟩,
   { tState .run with s2 := [⟨{ tStored with frame := { tFrame 3 with img := ((((tState .run).set Reg.RD_PW_CFG_EN 1).set Reg.RD_PW_SIZE_W 64).set Reg.RD_PW_SIZE_H 64).regs } }, 0, [], 9000000, (8, 1), 0, 64, true, false, some 9500000, [], 0, 0, 0, 64⟩] },
   by decide⟩

theorem test_darkAndCrcTest_1 : ∃ (s : State),
    s.running = true ∧ s.expo.dark = none ∧ (shutter s.inForce = 0 ∨ shutter s.inForce = 3) :=
  ⟨tState .run, by decide⟩

theorem test_darkAndCrcTest_2 : ∃ (s : State),
    s.running = true ∧ s.expo.dark = none ∧ shutter s.inForce ≠ 0 ∧ shutter s.inForce ≠ 3 :=
  ⟨{ tState .run with inForce := ((tState .run).set Reg.EX_MODE_SHUTTER 1).regs }, by decide⟩

theorem test_darkAndCrcTest_3 : ∃ (d : DarkCap) (s : State), s.running = true ∧ s.expo.dark = some d :=
  ⟨⟨4, 0, 0, [], [], none, [], []⟩,
   { tState .run with expo := { Exposure.init with dark := some ⟨4, 0, 0, [], [], none, [], []⟩ } }, by decide⟩

theorem test_darkAndCrcTest_4 : ∃ (d : DarkCap) (s : State), s.running = true ∧ s.expo.dark = some d :=
  ⟨⟨4, 0, 0, [], [], none, [], []⟩,
   { tState .run with expo := { Exposure.init with dark := some ⟨4, 0, 0, [], [], none, [], []⟩ } }, by decide⟩

theorem test_darkAndCrcTest_5 : ∃ (s : State), s.running = true :=
  ⟨tState .run, by decide⟩

theorem test_darkAndCrcTest_6 : ∃ (s : State), s.running = true ∧ s.flag Reg.CE_CTL_TEST = true :=
  ⟨((tState .standby).set Reg.CE_CTL_TEST 1).set Reg.CE_CTL_SEL 2, by decide⟩

theorem test_darkAndCrcTest_7 : ∃ (n : Nat) (s : State), n < 3 ∧ s.running = true ∧ s.flag Reg.CE_CTL_TEST = true :=
  ⟨2, (tState .standby).set Reg.CE_CTL_TEST 1, by decide⟩

theorem test_darkAndCrcTest_8 : ∃ (s : State), s.running = true ∧ s.flag Reg.CE_CTL_TEST = false :=
  ⟨tState .run, by decide⟩

theorem test_senseResults_1 : ∃ (u : Nat) (r : SeqRun) (s : State),
    u < 2 ∧ s.sense.length = 2 ∧ s.running = true ∧ (s.su u).zero = none ∧ (s.su u).inj = none ∧ (s.su u).pend = none ∧
    (s.su u).reg = some r ∧ r.started = false ∧ r.startAt ≤ s.now :=
  ⟨1, ⟨9000000, false, 10000000, false, [0#32], 0, 0, false, false, 0⟩,
   tSense fun x => { x with reg := some ⟨9000000, false, 10000000, false, [0#32], 0, 0, false, false, 0⟩ }, by decide⟩

theorem test_senseResults_2 : ∃ (u : Nat) (r : SeqRun) (s : State),
    u < 2 ∧ s.sense.length = 2 ∧ s.running = true ∧ (s.su u).zero = none ∧ (s.su u).reg = none ∧ (s.su u).pend = none ∧
    (s.su u).flight = [] ∧ (s.su u).inj = some r ∧ r.started = false ∧ r.startAt ≤ s.now :=
  ⟨1, ⟨9000000, false, 10000000, false, [0#32], 0, 0, false, false, 0⟩,
   tSense fun x => { x with inj := some ⟨9000000, false, 10000000, false, [0#32], 0, 0, false, false, 0⟩ }, by decide⟩

theorem test_senseResults_3 : ∃ (u : Nat) (k : SConv) (s : State),
    u < 2 ∧ s.sense.length = 2 ∧ s.running = true ∧ (s.su u).failed = false ∧ (s.su u).zero = none ∧ (s.su u).inj = none ∧
    (s.su u).pend = none ∧ (s.su u).reg = none ∧ (s.su u).flight = [k] ∧ k.at6 + 3000 ≤ 6 * s.now ∧ k.dead = false ∧
    k.zero = false ∧ k.inj = false ∧ k.last = true ∧ k.unit = u ∧ k.entry < 16 ∧ k.zofs = 0 ∧ State.entryInput k.cfg ≠ 26 ∧
    (s.su u).cal.getD k.slice (0, 0) = (0, 0) ∧ (s.su u).regAcc = SAcc.zero ∧ (s.su u).times.length = 20 ∧
    hasBit k.cfg.toNat 31 = false ∧ hasBit k.cfg.toNat 30 = false :=
  ⟨1, ⟨59997000, 1, 0, false, 15, 0#32, true, false, false, false, 0⟩,
   tSense fun x => { x with flight := [⟨59997000, 1, 0, false, 15, 0#32, true, false, false, false, 0⟩], regAcc := SAcc.zero },
   by decide⟩

theorem test_senseResults_4 : ∃ (u : Nat) (k : Nat) (t0 : Nat) (w : Word) (s : State),
    u < 2 ∧ k < 16 ∧ s.dev ≠ .off ∧ s.stopped = false ∧ (s.su u).was = some (k, s.now, w, t0) :=
  ⟨1, 15, 9999999, 0x8000FFFF#32, tSense fun x => { x with was := some (15, 10000000, 0x8000FFFF#32, 9999999) }, by decide⟩

theorem test_senseResults_5 : ∃ (u : Nat) (k : Nat) (s : State),
    u < 2 ∧ k < 16 ∧ s.dev ≠ .off ∧ s.stopped = false ∧ ((s.su u).was.all fun w => w.1 != k || w.2.1 != s.now) = true :=
  ⟨1, 15, tState .run, by decide⟩

theorem test_senseResults_5b : ∃ (u : Nat) (k : Nat) (s : State),
    u < 2 ∧ k < 16 ∧ s.dev ≠ .off ∧ s.stopped = false ∧ ((s.su u).was.all fun w => w.1 != k || w.2.1 != s.now) = true :=
  ⟨1, 15, tSense fun x => { x with was := some (15, 9999999, 0x8000FFFF#32, 9999999) }, by decide⟩

theorem test_senseUnits_1 : ∃ (u : Nat) (s : State),
    u < 2 ∧ s.sense.length = 2 ∧ s.running = true ∧ s.flag Reg.SA_CFG_EN u = false ∧ (s.su u).on = false ∧
    (s.su u).failed = false ∧ s.senseSlave u = false :=
  ⟨1, tState .run, by decide⟩

theorem test_senseUnits_2 : ∃ (s : State), s.sense.length = 2 ∧ s.running = true ∧ s.senseSlave 1 = true :=
  ⟨(tState .run).setSu 0 fun x => { x with on := true, pair := true }, by decide⟩

theorem test_senseUnits_3 : ∃ (u : Nat) (s : State),
    u < 2 ∧ s.sense.length = 2 ∧ s.running = true ∧ s.flag Reg.SA_CFG_EN u = true :=
  ⟨1, ((tState .run).set Reg.SA_CFG_EN 1 1).setSu 1 fun x => { x with on := true }, by decide⟩

theorem test_senseUnits_4 : ∃ (u : Nat) (o : Nat) (rest : List Nat) (r : SeqRun) (s : State),
    u < 2 ∧ s.sense.length = 2 ∧ s.running = true ∧ (s.su u).on = true ∧ (s.su u).failed = false ∧ (s.su u).pair = false ∧
    s.senseSlave u = false ∧ (s.su u).inj = none ∧ (s.su u).pend = none ∧ (s.su u).zero = none ∧ (s.su u).reg = some r ∧
    r.started = true ∧ r.spent = false ∧ (s.su u).next6 ≤ 6 * s.now ∧ 6 * s.now < (s.su u).next6 + s.unitSpacing u ∧
    s.hasSpare u = true ∧ (s.su u).handMs < (s.su u).next6 / 6000000 ∧ (s.su u).age = o :: rest ∧ o < 5 :=
  ⟨1, 0, [1, 2, 3], ⟨9000000, false, 9000000, true, [0#32], 0, 0, false, false, 0⟩,
   tSense fun x => { x with reg := some ⟨9000000, false, 9000000, true, [0#32], 0, 0, false, false, 0⟩, next6 := 60000000 },
   by decide⟩

theorem test_senseUnits_5 : ∃ (u : Nat) (s : State),
    u < 2 ∧ (s.su u).reg = none ∧ (s.su u).inj = none ∧ (s.su u).pend = none ∧ (s.su u).zero = none ∧ s.senseSlave u = false :=
  ⟨1, tSense fun x => x, by decide⟩

theorem test_senseUnits_6 : ∃ (u : Nat) (sl : Nat) (ofs : Int) (gain : Int) (s : State),
    u < 2 ∧ sl < 5 ∧ s.sense.length = 2 ∧ s.running = true ∧ (s.su u).on = false ∧ s.senseSlave u = false ∧
    hasBit (s.get Reg.SA_STAT_SLFAIL u) sl = false ∧ ofs.natAbs ≤ 16384 ∧ gain.natAbs ≤ 10000 :=
  ⟨1, 4, -16384, 10000, tState .run, by decide⟩

theorem test_senseUnits_7 : ∃ (u : Nat) (sl : Nat) (ofs : Int) (gain : Int) (s : State),
    u < 2 ∧ sl < 5 ∧ s.sense.length = 2 ∧ s.running = true ∧ (s.su u).on = false ∧ s.senseSlave u = false ∧
    hasBit (s.get Reg.SA_STAT_SLFAIL u) sl = false ∧ (16384 < ofs.natAbs ∨ 10000 < gain.natAbs) :=
  ⟨1, 4, 16385, 0, tState .run, by decide⟩

theorem test_senseUnits_7b : ∃ (u : Nat) (sl : Nat) (ofs : Int) (gain : Int) (s : State),
    u < 2 ∧ sl < 5 ∧ s.sense.length = 2 ∧ s.running = true ∧ (s.su u).on = false ∧ s.senseSlave u = false ∧
    hasBit (s.get Reg.SA_STAT_SLFAIL u) sl = false ∧ (16384 < ofs.natAbs ∨ 10000 < gain.natAbs) :=
  ⟨1, 0, 0, -10001, tState .run, by decide⟩

theorem test_senseUnits_8 : ∃ (v : Word) (u : Nat) (s : State),
    hasBit v.toNat 31 = true ∧ fieldOf v 8 1 = u ∧ s.sense.length = 2 ∧ s.running = true ∧ (s.su u).on = true ∧
    (s.su u).failed = false ∧ (s.su u).cont = false ∧ (s.su u).reg = none ∧ (s.su u).inj = none ∧ (s.su u).pend = none ∧
    (s.su u).zero = none ∧ s.senseSlave u = false :=
  ⟨0x80000100#32, 1, tSense fun x => x, by decide⟩

theorem test_senseUnits_9 : ∃ (v : Word) (s : State),
    hasBit v.toNat 31 = true ∧ s.running = true ∧ s.sense.length = 2 ∧ (s.su (fieldOf v 8 1)).on = false ∧
    s.senseSlave (fieldOf v 8 1) = false :=
  ⟨0x80000100#32, tState .run, by decide⟩

theorem test_senseUnits_10 : ∃ (u : Nat) (z : ZeroRun) (s : State),
    u < 2 ∧ s.sense.length = 2 ∧ (s.su u).zero = some z ∧ 1024 ≤ z.acc.n ∧ z.chan < 16 ∧
    (roundDiv (z.acc.sum * 16) (1024 * 100000000)).natAbs ≤ 10485 :=
  ⟨1, ⟨15, true, 9000000, ⟨1024, 10485 * 64 * 100000000 + 31 * 100000000, 0, false⟩⟩,
   tSense fun x => { x with zero := some ⟨15, true, 9000000, ⟨1024, 10485 * 64 * 100000000 + 31 * 100000000, 0, false⟩⟩ },
   by decide⟩

theorem test_senseUnits_11 : ∃ (u : Nat) (z : ZeroRun) (s : State),
    u < 2 ∧ s.sense.length = 2 ∧ (s.su u).zero = some z ∧ 1024 ≤ z.acc.n ∧
    10485 < (roundDiv (z.acc.sum * 16) (1024 * 100000000)).natAbs :=
  ⟨1, ⟨15, true, 9000000, ⟨1024, -(10486 * 64 * 100000000), 0, false⟩⟩,
   tSense fun x => { x with zero := some ⟨15, true, 9000000, ⟨1024, -(10486 * 64 * 100000000), 0, false⟩⟩ }, by decide⟩

theorem test_filterChannels_1 : ∃ (n : Nat) (t0 : Nat) (at' : Nat) (v : Int) (rest : List (Int × Nat × Nat)) (s : State),
    n < 16 ∧ s.flt.ch.length = 16 ∧ s.running = true ∧ s.flt.failed = false ∧ s.filtNext = none ∧
    (s.filt n).inQ = (v, t0, at') :: rest ∧ 32 * max (at' / 32 + 1) (s.filt n).nextRound + 2 * n ≤ s.now ∧
    s.flag Reg.FE_FC_CFG_EN n = true ∧ (s.filt n).resetAt ≤ t0 ∧ s.flag Reg.FE_FC_CFG_SCS n = true ∧
    s.get Reg.FE_FC_CFG_RANKT n = 0 ∧ s.flag Reg.FE_FC_CFG_DSRC n = false ∧ (s.filt n).count + 1 < s.filtRatio n :=
  ⟨15, 9000000, 9000000, 5, [], tFilt fun c => c, by decide⟩

theorem test_filterChannels_2 : ∃ (n : Nat) (t0 : Nat) (at' : Nat) (v : Int) (rest : List (Int × Nat × Nat)) (s : State),
    n < 16 ∧ s.flt.ch.length = 16 ∧ s.running = true ∧ s.flt.failed = false ∧ s.filtNext = none ∧
    (s.filt n).inQ = (v, t0, at') :: rest ∧ 32 * max (at' / 32 + 1) (s.filt n).nextRound + 2 * n ≤ s.now ∧
    s.flag Reg.FE_FC_CFG_EN n = true ∧ (s.filt n).resetAt ≤ t0 ∧ s.flag Reg.FE_FC_CFG_SCS n = true ∧
    s.get Reg.FE_FC_CFG_RANKT n = 0 ∧ s.flag Reg.FE_FC_CFG_DSRC n = false ∧ s.filtRatio n ≤ (s.filt n).count + 1 :=
  ⟨15, 9000000, 9000000, 5, [], (tFilt fun c => { c with count := 3, sum := 20 }).set Reg.FE_FC_DEC_RATIO 4 15, by decide⟩

theorem test_filterChannels_3 : ∃ (n : Nat) (t0 : Nat) (at' : Nat) (v : Int) (rest : List (Int × Nat × Nat)) (s : State),
    (s.filt n).inQ = (v, t0, at') :: rest ∧ s.now < 32 * max (at' / 32 + 1) (s.filt n).nextRound + 2 * n :=
  ⟨15, 9999999, 9999999, 5, [], tFilt fun c => { c with inQ := [(5, 9999999, 9999999)] }, by decide⟩

theorem test_filterChannels_4 : ∃ (n : Nat) (t0 : Nat) (at' : Nat) (v : Int) (rest : List (Int × Nat × Nat)) (s : State),
    n < 16 ∧ s.flt.ch.length = 16 ∧ s.running = true ∧ s.flt.failed = false ∧ s.filtNext = none ∧
    (s.filt n).inQ = (v, t0, at') :: rest ∧ 32 * max (at' / 32 + 1) (s.filt n).nextRound + 2 * n ≤ s.now ∧
    s.flag Reg.FE_FC_CFG_EN n = true ∧ t0 < (s.filt n).resetAt :=
  ⟨15, 9000000, 9000000, 5, [], tFilt fun c => { c with resetAt := 9000001 }, by decide⟩

theorem test_filterChannels_5 : ∃ (n : Nat) (s : State),
    n < 16 ∧ s.flt.ch.length = 16 ∧ s.running = true ∧ s.filtNext = none :=
  ⟨15, tState .run, by decide⟩

theorem test_filterChannels_5b : ∃ (n : Nat) (s : State),
    n < 16 ∧ s.flt.ch.length = 16 ∧ s.running = true ∧ s.filtNext = none :=
  ⟨15, tState .run, by decide⟩

theorem test_filterChannels_6 : ∃ (n : Nat) (s : State), n < 16 ∧ s.dev ≠ .off ∧ s.stopped = false ∧ s.filtNext = none :=
  ⟨15, tState .run, by decide⟩

theorem test_filterChannels_7 : ∃ (n : Nat) (d : FiltDue) (s : State),
    n < 16 ∧ s.flt.ch.length = 16 ∧ s.running = true ∧ s.flt.failed = false ∧ (s.filt n).outQ = [d] ∧ d.ready ≤ s.now ∧
    (∀ m, m < 16 → m ≠ n → (s.filt m).outQ = []) ∧ -2147483648 ≤ d.out.y ∧ d.out.y ≤ 2147483647 :=
  ⟨15, ⟨10000000, ⟨-65536, true, false, 100, 200⟩, 9000000⟩,
   tFilt fun c => { c with inQ := [], outQ := [⟨10000000, ⟨-65536, true, false, 100, 200⟩, 9000000⟩] }, by decide⟩

theorem test_trackingSubExposures_1 : ∃ (x : SubExp) (s : State),
    s.trk.subs = [x] ∧ x.ended = false ∧ x.te + x.dur ≤ s.now ∧ x.img.flag Reg.TK_PLAN_CFG_STRBEN x.plan = false :=
  ⟨tSub false [] [] [], tTrack (tSub false [] [] []), by decide⟩

theorem test_trackingSubExposures_2 : ∃ (x : SubExp) (p : Nat) (s : State),
    s.trk.subs = [x] ∧ x.ended = false ∧ x.te + x.dur ≤ s.now ∧ p < 24 ∧ x.img.flag Reg.TK_PLAN_CFG_STRBEN x.plan = true ∧
    x.img.fld Reg.TK_PLAN_CFG_STRBPIN x.plan = p ∧ s.trk.strobes = [(p, x.te + x.dur)] ∧ s.pinOwner p = 4 ∧
    s.gal.out.length = 24 :=
  ⟨tSub false ((((tState .run).set Reg.TK_PLAN_CFG_STRBEN 1).set Reg.TK_PLAN_CFG_STRBPIN 23).regs) [] [], 23,
   { (tState .run).set (State.ownFld 23) 4 5 with trk := { Track.init with subs := [tSub false ((((tState .run).set Reg.TK_PLAN_CFG_STRBEN 1).set Reg.TK_PLAN_CFG_STRBPIN 23).regs) [] []], strobes := [(23, 9500000)] }, gal := ⟨(List.replicate 24 none).set 23 (some true), List.replicate 24 none, false⟩ },
   by decide⟩

theorem test_trackingSubExposures_3 : ∃ (c : Nat) (x : SubExp) (s : State),
    s.trk.subs = [x] ∧ x.ended = true ∧ x.cells.contains c = true ∧ (s.cellRt c).trackWait = [] ∧
    (s.cellRt c).trackNow = none ∧ (∀ f, s.reading = some f → shutter f.img = 3 → (s.cellRt c).conv = none) ∧
    x.te + x.dur + ceilDiv (70 * (x.span.filter fun d => cellBlock d == cellBlock c && decide (cellLocal d < cellLocal c)).length * s.blockDiv4 (cellBlock c)) 4 ≤ s.now :=
  ⟨65535, tSub true [] [] [0, 65535], tTrack (tSub true [] [] [0, 65535]), by decide⟩

theorem test_trackingSubExposures_4 : ∃ (c : Nat) (id : Nat) (t0 : Nat) (x : SubExp) (s : State),
    s.trk.subs = [x] ∧ x.id = id ∧ (s.cellRt c).trackNow = some (id, t0) ∧ (s.cellRt c).trackWait = [] ∧
    (s.cellRt c).queue = [] ∧ (s.cellRt c).conv = none ∧ t0 + 6400 * s.blockDiv4 (cellBlock c) ≤ s.now :=
  ⟨65535, 7, 9900000, tSub true [] [] [65535],
   { tTrack (tSub true [] [] [65535]) with rd := { Readout.init with cells := [{ tCell 65535 with trackNow := some (7, 9900000) }] } },
   by decide⟩

theorem test_trackingSubExposures_5 : ∃ (x : SubExp) (w : Nat) (s : State),
    s.trk.subs = [x] ∧ s.resultDue = some (x, w) ∧ s.dev ≠ .standby :=
  ⟨{ tSub true [] [63] [] with data := [(0, [1])] }, 63, tTrack { tSub true [] [63] [] with data := [(0, [1])] }, by decide⟩

theorem test_trackingSubExposures_6 : ∃ (x : SubExp) (w : Nat) (p : Nat) (s : State),
    s.trk.subs = [x] ∧ s.resultDue = some (x, w) ∧ s.dev ≠ .standby ∧ s.dropped = [] ∧
    x.img.fld Reg.TK_PLAN_CFG_PHASE x.plan = p ∧ (p = 1 ∨ p = 2) ∧ s.trk.wins = [] :=
  ⟨{ tSub true (((tState .run).set Reg.TK_PLAN_CFG_PHASE 2).regs) [63] [] with data := [(0, [1])] }, 63, 2,
   tTrack { tSub true (((tState .run).set Reg.TK_PLAN_CFG_PHASE 2).regs) [63] [] with data := [(0, [1])] }, by decide⟩

theorem test_trackingSubExposures_7 : ∃ (x : SubExp) (w : Nat) (s : State),
    s.trk.subs = [x] ∧ s.resultDue = some (x, w) ∧ s.dev = .standby ∧ s.dropped = [] :=
  ⟨{ tSub true [] [63] [] with data := [(0, [1])] }, 63,
   { tTrack { tSub true [] [63] [] with data := [(0, [1])] } with dev := .standby }, by decide⟩

theorem test_pointingUpdates_1 : ∃ (n : Nat) (s : State),
    n < 4 ∧ s.trk.points.length = 4 ∧ s.running = true ∧ s.filtNext = none ∧ s.inForce.flag Reg.TK_PC_CFG_EN n = true ∧
    s.now % 1000 ≤ 1 ∧
    s.now / 1000 % max 125 (s.inForce.fld Reg.TK_PC_CFG_PER n) = s.inForce.fld Reg.TK_PC_PHS_PHS n % max 125 (s.inForce.fld Reg.TK_PC_CFG_PER n) ∧
    (s.trk.points.getD n ⟨0, 0, none, none, none⟩).lastUpd.all (fun t => t / 1000 != s.now / 1000) = true ∧
    s.sourceFixes s.inForce n = [] :=
  ⟨3,
   { tState .run with now := 10000001, inForce := (((tState .run).set Reg.TK_PC_CFG_EN 1 3).set Reg.TK_PC_CFG_PER 125 3).regs },
   by decide⟩

theorem test_pointingUpdates_2 : ∃ (n : Nat) (f : Fix) (s : State),
    n < 4 ∧ s.trk.points.length = 4 ∧ s.running = true ∧ s.filtNext = none ∧ s.inForce.flag Reg.TK_PC_CFG_EN n = true ∧
    s.now % 1000 ≤ 1 ∧
    s.now / 1000 % max 125 (s.inForce.fld Reg.TK_PC_CFG_PER n) = s.inForce.fld Reg.TK_PC_PHS_PHS n % max 125 (s.inForce.fld Reg.TK_PC_CFG_PER n) ∧
    (s.trk.points.getD n ⟨0, 0, none, none, none⟩).lastUpd.all (fun t => t / 1000 != s.now / 1000) = true ∧
    s.sourceFixes s.inForce n = [f] ∧ s.inForce.flag Reg.TK_PC_CFG_ZEN n = false :=
  ⟨3, ⟨63, none, [], 256, 512, 200, 9000000⟩,
   { tState .run with inForce := ((((((tState .run).set Reg.TK_PC_CFG_EN 1 3).set Reg.TK_PC_CFG_PER 125 3).set Reg.TK_PC_CFG_ZEN 0 3).set Reg.TK_PC_SRC_SEN0 1 3).set Reg.TK_PC_SRC_WIN0 63 3).regs, trk := { Track.init with fixes := [⟨63, none, [], 256, 512, 200, 9000000⟩] } },
   by decide⟩

theorem test_pointingUpdates_3 : ∃ (m : PortMsg) (rest : List PortMsg) (s : State),
    s.safety.port = m :: rest ∧ m.hold = true ∧ m.chan < 4 ∧ s.safety.portFree ≤ s.up ∧ s.dev ≠ .off ∧ s.dev ≠ .safeBoot :=
  ⟨⟨10000000, 3, true, true, 0, 5, -5, 0, none⟩, [],
   { tState .safe with safety := { Safety.init with port := [⟨10000000, 3, true, true, 0, 5, -5, 0, none⟩], portFree := 20000000 } },
   by decide⟩

theorem test_pointingUpdates_4 : ∃ (m : PortMsg) (rest : List PortMsg) (t0 : Nat) (s : State),
    s.safety.port = m :: rest ∧ m.hold = false ∧ m.tmid = some t0 ∧ m.chan < 4 ∧ s.safety.portFree ≤ s.up ∧ s.dev ≠ .off ∧
    s.dev ≠ .safeBoot :=
  ⟨⟨10000000, 3, false, false, 0, 5, -5, 0, some 9000000⟩, [], 9000000,
   { tState .run with safety := { Safety.init with port := [⟨10000000, 3, false, false, 0, 5, -5, 0, some 9000000⟩], portFree := 20000000 } },
   by decide⟩

theorem test_guardHolds_1 : ∃ (n : Nat) (s : State),
    n < 4 ∧ s.safety.guard.length = 4 ∧ s.running = true ∧ s.served n = true ∧ (s.guardCh n).hold = 0 ∧
    (s.guardCh n).lastMsg + 1000 * max 250 (s.get Reg.SP_PG_TOUT_TOUT n) < s.up :=
  ⟨3,
   { ((tState .run).set Reg.SP_PG_CFG_SERVE 1 3).set Reg.SP_PG_TOUT_TOUT 250 3 with safety := { Safety.init with guard := List.replicate 4 { GuardCh.init with lastMsg := 19749999 } } },
   by decide⟩

theorem test_guardHolds_2 : ∃ (n : Nat) (s : State),
    n < 4 ∧ s.safety.guard.length = 4 ∧ s.dev ≠ .off ∧ s.dev ≠ .safeBoot ∧ s.served n = true ∧ (s.guardCh n).hold ≠ 0 ∧
    (s.guardCh n).nextHold ≤ s.up :=
  ⟨3,
   { (tState .safe).set Reg.SP_PG_CFG_SERVE 1 3 with safety := { Safety.init with guard := List.replicate 4 { GuardCh.init with hold := 3, nextHold := 20000000 } } },
   by decide⟩

theorem test_standbyAndWake_1 : ∃ (s : State), s.dev = .run :=
  ⟨tFrames [{ tFrame 2 with raster := [tRow 0 0] }, { tFrame 0 with num := 2, burst := 2, trig := 1, start := 11000000 }],
   by decide⟩

theorem test_standbyAndWake_2 : ∃ (s : State),
    s.dev = .run ∧ (∀ f ∈ s.frames, f.phase = 0 → f.trig = 0 ∨ f.start ≤ s.now) :=
  ⟨{ tFrames [tFrame 2, { tFrame 1 with num := 2 }, { tFrame 0 with num := 3, trig := 1 }] with expo := { Exposure.init with burst := some ⟨1, 63, 0, 3, 2, 1, 1, 0, 0, 0⟩ } },
   by decide⟩

theorem test_standbyAndWake_3 : ∃ (f : Frame) (s : State),
    s.dev = .run ∧ s.frames = [f] ∧ f.phase = 0 ∧ f.trig = 1 ∧ f.burst = f.num ∧ s.now < f.start ∧ s.expo.dark = none ∧
    s.expo.burst = none :=
  ⟨{ tFrame 0 with num := 2, burst := 2, trig := 1, start := 11000000 },
   tFrames [{ tFrame 0 with num := 2, burst := 2, trig := 1, start := 11000000 }], by decide⟩

theorem test_standbyAndWake_4 : ∃ (s : State), s.dev = .standby :=
  ⟨tState .standby, by decide⟩

theorem test_standbyAndWake_5 : ∃ (s : State), s.dev = .standby :=
  ⟨{ tFrames [{ tFrame 0 with num := 2, burst := 2, trig := 1, start := 11000000 }] with dev := .standby }, by decide⟩

theorem test_standbyAndWake_6 : ∃ (s : State), s.dev = .standby ∧ (∀ f ∈ s.frames, f.phase ≠ 0) :=
  ⟨{ tFrames [tFrame 2] with dev := .standby }, by decide⟩

theorem test_standbyAndWake_7 : ∃ (f : Frame) (b : Nat) (s : State),
    s.dev = .standby ∧ s.frames = [f] ∧ f.phase = 0 ∧ f.burst = f.num ∧ s.now < f.start ∧ b < 256 ∧
    hasBit (poweredSet f.img f.theta) b = true ∧ s.blockFailed b = false ∧ s.regionFailed (blockRegion b) = false :=
  ⟨{ tFrame 0 with num := 2, burst := 2, start := 10000001, img := ((tState .run).set Reg.RD_PW_CFG_EN 1).regs }, 0,
   { tFrames [{ tFrame 0 with num := 2, burst := 2, start := 10000001, img := ((tState .run).set Reg.RD_PW_CFG_EN 1).regs }] with dev := .standby },
   ⟨rfl, rfl, rfl, rfl, by decide, by decide, by decide +kernel, by decide, by decide⟩⟩

theorem test_standbyAndWake_8 : ∃ (s : State), s.dev = .run :=
  ⟨tState .run, by decide⟩

theorem test_sensorSamples_1 : ∃ (v : Nat → Int) (s : State),
    s.dev ≠ .off ∧ s.dev ≠ .safeBoot ∧ s.boot.porn = true ∧
    (∀ i, i < 24 → s.sensorFailed i = false ∧ hasBit s.thermal.trimBad i = false ∧ s.thermal.nb.getD i 0 < 63 ∧ -50 * 128 ≤ v i ∧ v i < 155 * 128 ∧ (hasBit s.thermal.accepted i = true → (v i - s.sensorT i).natAbs ≤ 5 * 128)) :=
  ⟨fun i => if i = 23 then 19839 else -6400, tState .run, by decide⟩

theorem test_sensorSamples_1b : ∃ (v : Nat → Int) (s : State),
    s.dev ≠ .off ∧ s.dev ≠ .safeBoot ∧ s.boot.porn = true ∧
    (∀ i, i < 24 → s.sensorFailed i = false ∧ hasBit s.thermal.trimBad i = false ∧ s.thermal.nb.getD i 0 < 63 ∧ -50 * 128 ≤ v i ∧ v i < 155 * 128 ∧ (hasBit s.thermal.accepted i = true → (v i - s.sensorT i).natAbs ≤ 5 * 128)) :=
  ⟨fun i => 640 - 20 * (i : Int),
   { tState .safe with thermal := { Thermal.init with accepted := 2 ^ 24 - 1, nb := List.replicate 24 62, guardOn := true } },
   by decide⟩

theorem test_sensorSamples_2 : ∃ (xs : List (Option Int)) (s : State),
    s.dev ≠ .off ∧ s.dev ≠ .safeBoot ∧ s.boot.porn = true ∧ (s.thermalSample xs).2 = none :=
  ⟨List.replicate 24 (some 3200), tState .run, ⟨by decide, by decide, by decide, by decide⟩⟩

theorem test_sensorSamples_3 : ∃ (xs : List (Option Int)) (s : State),
    (s.dev = .load ∨ s.dev = .train ∨ s.running = true ∨ s.dev = .haltConfig ∨ s.dev = .safe) ∧ s.boot.porn = true ∧
    4 ≤ (s.thermalSample xs).1.thermal.sd :=
  ⟨List.replicate 24 (some 19840), { tState .safe with thermal := { Thermal.init with sd := 3 } },
   ⟨by decide, by decide, by decide⟩⟩

theorem test_sensorSamples_4 : ∃ (xs : List (Option Int)) (s : State),
    (s.dev = .load ∨ s.dev = .train ∨ s.running = true ∨ s.dev = .haltConfig) ∧ s.boot.porn = true ∧
    (s.thermalSample xs).1.thermal.sd < 4 ∧ (s.thermalSample xs).1.get Reg.TH_STAT_VALIDCNT < 12 :=
  ⟨List.replicate 24 none, tState .load, ⟨by decide, by decide, by decide, by decide⟩⟩

theorem test_sensorSamples_5 : ∃ (s : State), (s.dev = .off ∨ s.dev = .safeBoot ∨ s.boot.porn = false) :=
  ⟨{ tState .run with boot := { Boot.init with porn := false } }, Or.inr (Or.inr rfl)⟩

theorem test_safeEntries_1 : ∃ (n : Nat) (s : State),
    s.dev ≠ .off ∧ 60 ≤ n ∧ n ≤ 90 ∧ (s.safety.pllWait = false ∨ s.dev = .safeBoot) :=
  ⟨60, tState .run, by decide⟩

theorem test_safeEntries_1b : ∃ (n : Nat) (s : State),
    s.dev ≠ .off ∧ 60 ≤ n ∧ n ≤ 90 ∧ (s.safety.pllWait = false ∨ s.dev = .safeBoot) :=
  ⟨90, tState .run, by decide⟩

theorem test_safeEntries_2 : ∃ (n : Nat) (s : State), s.dev ≠ .off ∧ (n < 60 ∨ 90 < n) ∧ s.safety.badWin = 0 :=
  ⟨59, tState .run, by decide⟩

theorem test_safeEntries_2b : ∃ (n : Nat) (s : State), s.dev ≠ .off ∧ (n < 60 ∨ 90 < n) ∧ s.safety.badWin = 0 :=
  ⟨91, tState .run, by decide⟩

theorem test_safeEntries_3 : ∃ (s : State), s.dev ≠ .off ∧ s.pllMain = true ∧ s.safety.refBad = true :=
  ⟨{ tState .run with safety := { Safety.init with badWin := 1, refBad := true } }, by decide⟩

theorem test_safeEntries_4 : ∃ (c : Instr) (why : Cause) (s : State),
    (s.dev = .load ∨ s.dev = .train ∨ s.running = true ∨ s.dev = .haltConfig) ∧
    ((∃ n, c = .refclkWindow n ∧ (n < 60 ∨ 90 < n) ∧ 1 ≤ s.safety.badWin ∧ why = .refclkLoss) ∨ (∃ n, c = .refclkWindow n ∧ 60 ≤ n ∧ n ≤ 90 ∧ s.safety.pllWait = true ∧ s.pllMain = false ∧ why = .pllLoss) ∨ (c = .pllLockLoss 0 ∧ s.pllMain = true ∧ s.safety.refBad = false ∧ why = .pllLoss) ∨ (∃ h, c = .supplyTrip 1 h ∧ why = .vddcLoss) ∨ (∃ r h, c = .supplyTrip r h ∧ (r = 0 ∨ r = 2 ∨ r = 4 ∨ r = 5) ∧ why = .supplyLoss) ∨ (c = .watchdogTrip ∧ s.flag Reg.SP_WDSTAT_ARMED = true ∧ s.safety.wdAt + 5000000 < s.up ∧ why = .watchdog)) :=
  ⟨.refclkWindow 91, .refclkLoss, { tState .run with safety := { Safety.init with badWin := 1, refBad := true } },
   ⟨by decide, Or.inl ⟨91, rfl, by decide⟩⟩⟩

theorem test_safeEntries_4b : ∃ (c : Instr) (why : Cause) (s : State),
    (s.dev = .load ∨ s.dev = .train ∨ s.running = true ∨ s.dev = .haltConfig) ∧
    ((∃ n, c = .refclkWindow n ∧ (n < 60 ∨ 90 < n) ∧ 1 ≤ s.safety.badWin ∧ why = .refclkLoss) ∨ (∃ n, c = .refclkWindow n ∧ 60 ≤ n ∧ n ≤ 90 ∧ s.safety.pllWait = true ∧ s.pllMain = false ∧ why = .pllLoss) ∨ (c = .pllLockLoss 0 ∧ s.pllMain = true ∧ s.safety.refBad = false ∧ why = .pllLoss) ∨ (∃ h, c = .supplyTrip 1 h ∧ why = .vddcLoss) ∨ (∃ r h, c = .supplyTrip r h ∧ (r = 0 ∨ r = 2 ∨ r = 4 ∨ r = 5) ∧ why = .supplyLoss) ∨ (c = .watchdogTrip ∧ s.flag Reg.SP_WDSTAT_ARMED = true ∧ s.safety.wdAt + 5000000 < s.up ∧ why = .watchdog)) :=
  ⟨.refclkWindow 90, .pllLoss, { tState .run with pllMain := false, safety := { Safety.init with pllWait := true } },
   ⟨by decide, Or.inr (Or.inl ⟨90, rfl, by decide⟩)⟩⟩

theorem test_safeEntries_4c : ∃ (c : Instr) (why : Cause) (s : State),
    (s.dev = .load ∨ s.dev = .train ∨ s.running = true ∨ s.dev = .haltConfig) ∧
    ((∃ n, c = .refclkWindow n ∧ (n < 60 ∨ 90 < n) ∧ 1 ≤ s.safety.badWin ∧ why = .refclkLoss) ∨ (∃ n, c = .refclkWindow n ∧ 60 ≤ n ∧ n ≤ 90 ∧ s.safety.pllWait = true ∧ s.pllMain = false ∧ why = .pllLoss) ∨ (c = .pllLockLoss 0 ∧ s.pllMain = true ∧ s.safety.refBad = false ∧ why = .pllLoss) ∨ (∃ h, c = .supplyTrip 1 h ∧ why = .vddcLoss) ∨ (∃ r h, c = .supplyTrip r h ∧ (r = 0 ∨ r = 2 ∨ r = 4 ∨ r = 5) ∧ why = .supplyLoss) ∨ (c = .watchdogTrip ∧ s.flag Reg.SP_WDSTAT_ARMED = true ∧ s.safety.wdAt + 5000000 < s.up ∧ why = .watchdog)) :=
  ⟨.pllLockLoss 0, .pllLoss, tState .haltConfig, ⟨by decide, Or.inr (Or.inr (Or.inl ⟨rfl, rfl, rfl, rfl⟩))⟩⟩

theorem test_safeEntries_4d : ∃ (c : Instr) (why : Cause) (s : State),
    (s.dev = .load ∨ s.dev = .train ∨ s.running = true ∨ s.dev = .haltConfig) ∧
    ((∃ n, c = .refclkWindow n ∧ (n < 60 ∨ 90 < n) ∧ 1 ≤ s.safety.badWin ∧ why = .refclkLoss) ∨ (∃ n, c = .refclkWindow n ∧ 60 ≤ n ∧ n ≤ 90 ∧ s.safety.pllWait = true ∧ s.pllMain = false ∧ why = .pllLoss) ∨ (c = .pllLockLoss 0 ∧ s.pllMain = true ∧ s.safety.refBad = false ∧ why = .pllLoss) ∨ (∃ h, c = .supplyTrip 1 h ∧ why = .vddcLoss) ∨ (∃ r h, c = .supplyTrip r h ∧ (r = 0 ∨ r = 2 ∨ r = 4 ∨ r = 5) ∧ why = .supplyLoss) ∨ (c = .watchdogTrip ∧ s.flag Reg.SP_WDSTAT_ARMED = true ∧ s.safety.wdAt + 5000000 < s.up ∧ why = .watchdog)) :=
  ⟨.supplyTrip 1 false, .vddcLoss, tState .load, ⟨by decide, Or.inr (Or.inr (Or.inr (Or.inl ⟨false, rfl, rfl⟩)))⟩⟩

theorem test_safeEntries_4e : ∃ (c : Instr) (why : Cause) (s : State),
    (s.dev = .load ∨ s.dev = .train ∨ s.running = true ∨ s.dev = .haltConfig) ∧
    ((∃ n, c = .refclkWindow n ∧ (n < 60 ∨ 90 < n) ∧ 1 ≤ s.safety.badWin ∧ why = .refclkLoss) ∨ (∃ n, c = .refclkWindow n ∧ 60 ≤ n ∧ n ≤ 90 ∧ s.safety.pllWait = true ∧ s.pllMain = false ∧ why = .pllLoss) ∨ (c = .pllLockLoss 0 ∧ s.pllMain = true ∧ s.safety.refBad = false ∧ why = .pllLoss) ∨ (∃ h, c = .supplyTrip 1 h ∧ why = .vddcLoss) ∨ (∃ r h, c = .supplyTrip r h ∧ (r = 0 ∨ r = 2 ∨ r = 4 ∨ r = 5) ∧ why = .supplyLoss) ∨ (c = .watchdogTrip ∧ s.flag Reg.SP_WDSTAT_ARMED = true ∧ s.safety.wdAt + 5000000 < s.up ∧ why = .watchdog)) :=
  ⟨.supplyTrip 5 true, .supplyLoss, tState .train,
   ⟨by decide, Or.inr (Or.inr (Or.inr (Or.inr (Or.inl ⟨5, true, rfl, by decide, rfl⟩))))⟩⟩

theorem test_safeEntries_4f : ∃ (c : Instr) (why : Cause) (s : State),
    (s.dev = .load ∨ s.dev = .train ∨ s.running = true ∨ s.dev = .haltConfig) ∧
    ((∃ n, c = .refclkWindow n ∧ (n < 60 ∨ 90 < n) ∧ 1 ≤ s.safety.badWin ∧ why = .refclkLoss) ∨ (∃ n, c = .refclkWindow n ∧ 60 ≤ n ∧ n ≤ 90 ∧ s.safety.pllWait = true ∧ s.pllMain = false ∧ why = .pllLoss) ∨ (c = .pllLockLoss 0 ∧ s.pllMain = true ∧ s.safety.refBad = false ∧ why = .pllLoss) ∨ (∃ h, c = .supplyTrip 1 h ∧ why = .vddcLoss) ∨ (∃ r h, c = .supplyTrip r h ∧ (r = 0 ∨ r = 2 ∨ r = 4 ∨ r = 5) ∧ why = .supplyLoss) ∨ (c = .watchdogTrip ∧ s.flag Reg.SP_WDSTAT_ARMED = true ∧ s.safety.wdAt + 5000000 < s.up ∧ why = .watchdog)) :=
  ⟨.watchdogTrip, .watchdog,
   { (tState .standby).set Reg.SP_WDSTAT_ARMED 1 with safety := { Safety.init with wdAt := 14999999 } },
   ⟨by decide, Or.inr (Or.inr (Or.inr (Or.inr (Or.inr ⟨rfl, by decide⟩))))⟩⟩

theorem test_safeEntries_5 : ∃ (c : Instr) (s : State),
    s.dev = .shutdown ∧
    ((∃ n, c = .refclkWindow n) ∨ c = .pllLockLoss 0 ∨ (∃ r h, c = .supplyTrip r h ∧ r < 6) ∨ c = .watchdogTrip) :=
  ⟨.watchdogTrip, tState .shutdown, ⟨rfl, Or.inr (Or.inr (Or.inr rfl))⟩⟩

theorem test_safeEntries_6 : ∃ (a : Nat) (s : State), s.dev = .safe ∧ s.safety.safeAt = some a ∧ s.cause = .watchdog :=
  ⟨20000000, { tState .safe with cause := .watchdog, safety := { Safety.init with safeAt := some 20000000 } }, by decide⟩

theorem test_safeEntries_6b : ∃ (a : Nat) (s : State), s.dev = .safe ∧ s.safety.safeAt = some a ∧ s.cause = .watchdog :=
  ⟨19999999, { tState .safe with cause := .watchdog, safety := { Safety.init with safeAt := some 19999999 } }, by decide⟩

theorem test_safeEntries_7 : ∃ (s : State), (s.flag Reg.SP_WDSTAT_ARMED = false ∨ s.up ≤ s.safety.wdAt + 5000000) :=
  ⟨{ (tState .standby).set Reg.SP_WDSTAT_ARMED 1 with safety := { Safety.init with wdAt := 15000000 } }, by decide⟩

theorem test_otherMonitors_1 : ∃ (s : State), s.vddaon = true :=
  ⟨tState .run, by decide⟩

theorem test_otherMonitors_2 : ∃ (s : State), s.vddaon = true :=
  ⟨tState .run, by decide⟩

theorem test_otherMonitors_3 : ∃ (n : Nat) (s : State),
    n < 4 ∧ (s.dev = .load ∨ s.dev = .train ∨ s.running = true) ∧ s.flag Reg.CS_CH_STAT_LOST n = false ∧ s.pllCs.length = 4 ∧
    s.pllCs.getD n false = true :=
  ⟨3, tState .run, by decide⟩

theorem test_otherMonitors_4 : ∃ (s : State), (s.dev = .load ∨ s.dev = .train ∨ s.running = true) :=
  ⟨tState .run, by decide⟩

theorem test_otherMonitors_5 : ∃ (s : State), s.dev ≠ .off ∧ s.pllPv = true :=
  ⟨tState .run, by decide⟩

theorem test_otherMonitors_6 : ∃ (k : Nat) (s : State),
    s.dev ≠ .off ∧ s.pllMain = true ∧ (k < 30000 ∨ 34000 < k) ∧ s.flag Reg.SP_STAT_OSCERR = false :=
  ⟨29999, tState .run, by decide⟩

theorem test_otherMonitors_6b : ∃ (k : Nat) (s : State),
    s.dev ≠ .off ∧ s.pllMain = true ∧ (k < 30000 ∨ 34000 < k) ∧ s.flag Reg.SP_STAT_OSCERR = false :=
  ⟨34001, tState .run, by decide⟩

theorem test_otherMonitors_7 : ∃ (k : Nat), 30000 ≤ k ∧ k ≤ 34000 :=
  ⟨30000, by decide⟩

theorem test_otherMonitors_7b : ∃ (k : Nat), 30000 ≤ k ∧ k ≤ 34000 :=
  ⟨34000, by decide⟩

theorem test_otherMonitors_8 : ∃ (a : Nat) (s : State), s.dev ≠ .off ∧ a < 256 ∧ s.safety.hbAlive ≠ some a :=
  ⟨255, tState .run, by decide⟩

theorem test_otherMonitors_9 : ∃ (w : List Byte) (s : State),
    s.dev ≠ .off ∧
    (w.length ≠ 4 ∨ leAt w 2 2 ≠ crc16 (w.take 2) ∨ leAt w 1 1 ≠ State.devCode s.dev ∨ s.safety.hbAlive = some (leAt w 0 1)) :=
  ⟨[0#8, 0#8, 0#8, 0#8], tState .run, by decide⟩

theorem test_otherMonitors_9b : ∃ (w : List Byte) (s : State),
    s.dev ≠ .off ∧
    (w.length ≠ 4 ∨ leAt w 2 2 ≠ crc16 (w.take 2) ∨ leAt w 1 1 ≠ State.devCode s.dev ∨ s.safety.hbAlive = some (leAt w 0 1)) :=
  ⟨[0#8, 0#8, 0#8], tState .run, by decide⟩

theorem test_registerWrites_1 : ∃ (a : Nat) (s : State), a < 2 ^ 24 ∧ a % 4 = 0 ∧ s.dev ≠ .off ∧ s.cutShort 7 = false :=
  ⟨0xFFFFFC, tState .run, by decide⟩

theorem test_registerWrites_2 : ∃ (s : State), (s.dev = .safeBoot ∨ s.dev = .load ∨ s.dev = .train) :=
  ⟨tState .load, by decide⟩

theorem test_registerWrites_3 : ∃ (a : Nat) (s : State), s.stopped = true ∧ 0x10000 ≤ a ∧ (a < 0xD0000 ∨ 0xE0000 ≤ a) :=
  ⟨0x10000, tState .safe, by decide⟩

theorem test_registerWrites_3b : ∃ (a : Nat) (s : State), s.stopped = true ∧ 0x10000 ≤ a ∧ (a < 0xD0000 ∨ 0xE0000 ≤ a) :=
  ⟨0xE0000, tState .haltConfig, by decide⟩

theorem test_registerWrites_4 : ∃ (c : Instr) (s : State),
    (writesMain c = true ∨ (s.get Reg.ID_CTRLSTAT_LIVESRC = 0 ∧ (c = .captureCommit ∨ c = .stage2Commit))) ∧
    (s.dev = .safeBoot ∨ s.dev = .load ∨ s.dev = .train) :=
  ⟨.tbCfgWrite 3 0xFFFFFFFF#32, tState .train, ⟨by decide, by decide⟩⟩

theorem test_registerWrites_4b : ∃ (c : Instr) (s : State),
    (writesMain c = true ∨ (s.get Reg.ID_CTRLSTAT_LIVESRC = 0 ∧ (c = .captureCommit ∨ c = .stage2Commit))) ∧
    (s.dev = .safeBoot ∨ s.dev = .load ∨ s.dev = .train) :=
  ⟨.captureCommit, tState .load, ⟨Or.inr ⟨by decide, Or.inl rfl⟩, by decide⟩⟩

theorem test_registerWrites_5 : ∃ (c : Instr) (s : State),
    (writesMain c = true ∨ (s.get Reg.ID_CTRLSTAT_LIVESRC = 0 ∧ (c = .captureCommit ∨ c = .stage2Commit))) ∧
    s.stopped = true :=
  ⟨.senseEnable 1 0x80000000#32, tState .safe, ⟨by decide, by decide⟩⟩

theorem test_registerWrites_5b : ∃ (c : Instr) (s : State),
    (writesMain c = true ∨ (s.get Reg.ID_CTRLSTAT_LIVESRC = 0 ∧ (c = .captureCommit ∨ c = .stage2Commit))) ∧
    s.stopped = true :=
  ⟨.stage2Commit, tState .shutdown, ⟨Or.inr ⟨by decide, Or.inr rfl⟩, by decide⟩⟩

theorem test_registerWrites_6 : ∃ (a : Nat) (s : State),
    s.running = true ∧ s.get Reg.ID_CTRLSTAT_LIVESRC = 1 ∧ liveParam a = true :=
  ⟨0x020008, (tState .run).set Reg.ID_CTRLSTAT_LIVESRC 1, by decide⟩

theorem test_registerWrites_7 : ∃ (a : Nat) (d : RegDef) (s : State),
    s.running = true ∧ s.get Reg.ID_CTRLSTAT_LIVESRC = 0 ∧ findReg a = some d ∧ a % 4 = 0 ∧ 0x020000 ≤ a ∧ a < 0x050000 ∧
    State.isCommand a = false :=
  ⟨0x020020, (findReg 0x020020).getD ⟨0, 0, 0, 0, 0, 0, 0, 0, 0, 0, 0⟩, tState .run, by decide⟩

theorem test_registerWrites_8 : ∃ (a : Nat) (d : RegDef) (s : State),
    s.stopped = true ∧ findReg a = some d ∧ a % 4 = 0 ∧ (a < 0x10000 ∨ (0xD0000 ≤ a ∧ a < 0xE0000)) :=
  ⟨0x000044, (findReg 0x000044).getD ⟨0, 0, 0, 0, 0, 0, 0, 0, 0, 0, 0⟩, (tState .safe).set Reg.ID_IBISRC_OSC 1, by decide⟩

theorem test_registerWrites_8b : ∃ (a : Nat) (d : RegDef) (s : State),
    s.stopped = true ∧ findReg a = some d ∧ a % 4 = 0 ∧ (a < 0x10000 ∨ (0xD0000 ≤ a ∧ a < 0xE0000)) :=
  ⟨0x0D0010, (findReg 0x0D0010).getD ⟨0, 0, 0, 0, 0, 0, 0, 0, 0, 0, 0⟩, tState .shutdown, by decide⟩

theorem test_registerWrites_9 : ∃ (a : Nat), a ∈ splAddrs :=
  ⟨0x0D0010, by decide⟩

theorem test_transfersAndReads_1 : ∃ (bs : List Byte) (p : Bool) (s : State),
    s.dev ≠ .off ∧ (p = false ∨ bs.length < 3 ∨ leAt bs 0 3 % 4 ≠ 0 ∨ (bs.length - 3) % 4 ≠ 0 ∨ 1024 < bs.length - 3) :=
  ⟨[0#8, 0#8], true, tState .run, by decide⟩

theorem test_transfersAndReads_1b : ∃ (bs : List Byte) (p : Bool) (s : State),
    s.dev ≠ .off ∧ (p = false ∨ bs.length < 3 ∨ leAt bs 0 3 % 4 ≠ 0 ∨ (bs.length - 3) % 4 ≠ 0 ∨ 1024 < bs.length - 3) :=
  ⟨leBytes 3 2 ++ leBytes 4 0, true, tState .run, by decide⟩

theorem test_transfersAndReads_1c : ∃ (bs : List Byte) (p : Bool) (s : State),
    s.dev ≠ .off ∧ (p = false ∨ bs.length < 3 ∨ leAt bs 0 3 % 4 ≠ 0 ∨ (bs.length - 3) % 4 ≠ 0 ∨ 1024 < bs.length - 3) :=
  ⟨leBytes 3 0 ++ leBytes 3 0, true, tState .run, by decide⟩

theorem test_transfersAndReads_2 : ∃ (a : Nat) (s : State), s.dev ≠ .off ∧ s.cutShort 3 = false ∧ a < 2 ^ 24 ∧ a % 4 = 0 :=
  ⟨0xFFFFFC, tState .run, by decide⟩

theorem test_transfersAndReads_3 : ∃ (s : State), s.dev ≠ .off :=
  ⟨tState .run, by decide⟩

theorem test_transfersAndReads_4 : ∃ (a : Nat) (d : RegDef) (s : State),
    s.dev ≠ .off ∧ s.ctl.readPtr = a ∧ findReg a = some d ∧ (a < 0x10000 ∨ (0xD0000 ≤ a ∧ a < 0xE0000)) :=
  ⟨0x000014, (findReg 0x000014).getD ⟨0, 0, 0, 0, 0, 0, 0, 0, 0, 0, 0⟩,
   { (tState .safe).set Reg.ID_FAULTSUM_PLL 1 with ctl := { Control.init with readPtr := 0x000014 } }, by decide⟩

theorem test_transfersAndReads_4b : ∃ (a : Nat) (d : RegDef) (s : State),
    s.dev ≠ .off ∧ s.ctl.readPtr = a ∧ findReg a = some d ∧ (a < 0x10000 ∨ (0xD0000 ≤ a ∧ a < 0xE0000)) :=
  ⟨0x000010, (findReg 0x000010).getD ⟨0, 0, 0, 0, 0, 0, 0, 0, 0, 0, 0⟩,
   { tState .run with ctl := { Control.init with readPtr := 0x000010 } }, by decide⟩

theorem test_transfersAndReads_5 : ∃ (a : Nat) (s : State),
    s.stopped = true ∧ s.ctl.readPtr = a ∧ 0x10000 ≤ a ∧ (a < 0xD0000 ∨ 0xE0000 ≤ a) :=
  ⟨0x010000, { tState .shutdown with ctl := { Control.init with readPtr := 0x010000 } }, by decide⟩

theorem test_transfersAndReads_5b : ∃ (a : Nat) (s : State),
    s.stopped = true ∧ s.ctl.readPtr = a ∧ 0x10000 ≤ a ∧ (a < 0xD0000 ∨ 0xE0000 ≤ a) :=
  ⟨0xFFFFFC, { tState .haltConfig with ctl := { Control.init with readPtr := 0xFFFFFC } }, by decide⟩

theorem test_transfersAndReads_6 : ∃ (c : Instr) (s : State),
    ((∃ n, n < 4 ∧ c = .posRead n) ∨ c = .timeloRead ∨ (∃ u k, u < 2 ∧ k < 20 ∧ c = .senseResultRead u k) ∨ (∃ n, n < 16 ∧ c = .filterOutputRead n)) ∧
    s.stopped = true :=
  ⟨.posRead 3, tState .safe, ⟨Or.inl ⟨3, by decide, rfl⟩, by decide⟩⟩

theorem test_transfersAndReads_6b : ∃ (c : Instr) (s : State),
    ((∃ n, n < 4 ∧ c = .posRead n) ∨ c = .timeloRead ∨ (∃ u k, u < 2 ∧ k < 20 ∧ c = .senseResultRead u k) ∨ (∃ n, n < 16 ∧ c = .filterOutputRead n)) ∧
    s.stopped = true :=
  ⟨.senseResultRead 1 19, tState .shutdown, ⟨Or.inr (Or.inr (Or.inl ⟨1, 19, by decide, by decide, rfl⟩)), by decide⟩⟩

theorem test_transfersAndReads_7 : ∃ (s : State), s.dev ≠ .off :=
  ⟨tState .run, by decide⟩

theorem test_transfersAndReads_7b : ∃ (s : State), s.dev ≠ .off :=
  ⟨tState .run, by decide⟩

theorem test_transfersAndReads_8 : ∃ (bs : List Byte) (p : Bool) (s : State),
    s.dev ≠ .off ∧ s.cutShort bs.length = true ∧
    (p = true ∧ 3 ≤ bs.length ∧ leAt bs 0 3 % 4 = 0 ∧ (bs.length - 3) % 4 = 0 ∧ bs.length - 3 ≤ 1024) :=
  ⟨leBytes 3 0 ++ leBytes 4 0, true, { tState .safe with ctl := { Control.init with discardAt := some 19994241 } },
   ⟨by decide, by decide, by decide⟩⟩

theorem test_commonCommands_1 : ∃ (s : State), s.dev ≠ .off :=
  ⟨tState .run, by decide⟩

theorem test_commonCommands_2 : ∃ (s : State), s.dev ≠ .off :=
  ⟨tState .run, by decide⟩

theorem test_commonCommands_3 : ∃ (a : Nat) (c : Instr) (s : State),
    s.dev ≠ .off ∧ a < 128 ∧
    ((c = .entdaa a ∧ s.flag Reg.BT_I3CSTAT_DAVALID = false) ∨ (c = .setdasa a ∧ s.flag Reg.BT_I3CSTAT_DAVALID = false) ∨ (c = .setnewda a ∧ s.flag Reg.BT_I3CSTAT_DAVALID = true)) :=
  ⟨127, .entdaa 127, tState .run, ⟨by decide, by decide, Or.inl ⟨rfl, by decide⟩⟩⟩

theorem test_commonCommands_3b : ∃ (a : Nat) (c : Instr) (s : State),
    s.dev ≠ .off ∧ a < 128 ∧
    ((c = .entdaa a ∧ s.flag Reg.BT_I3CSTAT_DAVALID = false) ∨ (c = .setdasa a ∧ s.flag Reg.BT_I3CSTAT_DAVALID = false) ∨ (c = .setnewda a ∧ s.flag Reg.BT_I3CSTAT_DAVALID = true)) :=
  ⟨127, .setdasa 127, tState .run, ⟨by decide, by decide, Or.inr (Or.inl ⟨rfl, by decide⟩)⟩⟩

theorem test_commonCommands_3c : ∃ (a : Nat) (c : Instr) (s : State),
    s.dev ≠ .off ∧ a < 128 ∧
    ((c = .entdaa a ∧ s.flag Reg.BT_I3CSTAT_DAVALID = false) ∨ (c = .setdasa a ∧ s.flag Reg.BT_I3CSTAT_DAVALID = false) ∨ (c = .setnewda a ∧ s.flag Reg.BT_I3CSTAT_DAVALID = true)) :=
  ⟨0, .setnewda 0, (tState .run).set Reg.BT_I3CSTAT_DAVALID 1, ⟨by decide, by decide, Or.inr (Or.inr ⟨rfl, by decide⟩)⟩⟩

theorem test_commonCommands_4 : ∃ (s : State), s.dev ≠ .off :=
  ⟨tState .run, by decide⟩

theorem test_commonCommands_5 : ∃ (c : Instr) (n : Nat) (s : State),
    s.dev ≠ .off ∧ (c, n) ∈ [(Instr.getpid, 6), (Instr.getbcr, 1), (Instr.getdcr, 1), (Instr.getstatus, 2)] :=
  ⟨.getpid, 6, tState .run, by decide⟩

theorem test_commonCommands_5b : ∃ (c : Instr) (n : Nat) (s : State),
    s.dev ≠ .off ∧ (c, n) ∈ [(Instr.getpid, 6), (Instr.getbcr, 1), (Instr.getdcr, 1), (Instr.getstatus, 2)] :=
  ⟨.getstatus, 2, tState .run, by decide⟩

theorem test_commonCommands_6 : ∃ (s : State), s.dev ≠ .off :=
  ⟨tState .run, by decide⟩

theorem test_commonCommands_7 : ∃ (s : State), s.dev ≠ .off :=
  ⟨tState .run, by decide⟩

theorem test_commonCommands_9 : ∃ (i : Nat) (s : State), s.dev ≠ .off ∧ s.ctl.events = true ∧ s.ibiNext = some i :=
  ⟨5, ((tState .run).set Reg.ID_IBISRC_OSC 1).set Reg.ID_IBIEN_EN 63, by decide⟩

theorem test_otpCommands_1 : ∃ (k : Nat) (s : State),
    s.running = true ∧ s.flag Reg.OT_STAT_BUSY = false ∧ s.otpKey = some k ∧ (k < 256 ∨ s.blockOn (State.areaOf k) = true) :=
  ⟨255, ((tState .run).set Reg.OT_ADDR_AREA 2).set Reg.OT_ADDR_WORD 255, by decide⟩

theorem test_otpCommands_2 : ∃ (key : Nat) (g : Bool) (c : Instr) (s : State),
    s.running = true ∧ s.flag Reg.OT_STAT_BUSY = false ∧ key ≠ 0x7A51 ∧
    c ∈ [Instr.otpProgram key g, Instr.otpLock key g, Instr.forcelock key g, Instr.enforce key g] :=
  ⟨0, true, .otpProgram 0 true, tState .run, by decide⟩

theorem test_otpCommands_2b : ∃ (key : Nat) (g : Bool) (c : Instr) (s : State),
    s.running = true ∧ s.flag Reg.OT_STAT_BUSY = false ∧ key ≠ 0x7A51 ∧
    c ∈ [Instr.otpProgram key g, Instr.otpLock key g, Instr.forcelock key g, Instr.enforce key g] :=
  ⟨0, true, .enforce 0 true, tState .run, by decide⟩

theorem test_otpCommands_3 : ∃ (g : Bool) (k : Nat) (s : State),
    s.running = true ∧ s.flag Reg.OT_STAT_BUSY = false ∧ s.otpKey = some k ∧
    State.enCause { s with otp := { s.otp with supplyOk := g } } (s.otpPerm k) ≠ 0 :=
  ⟨true, 255, ((tState .run).set Reg.OT_ADDR_AREA 2).set Reg.OT_ADDR_WORD 255, by decide⟩

theorem test_otpCommands_4 : ∃ (k : Nat) (s : State),
    s.running = true ∧ s.flag Reg.OT_STAT_BUSY = false ∧ s.otpKey = some k ∧ k < 256 ∧
    State.enCause { s with otp := { s.otp with supplyOk := true } } (s.otpPerm k) = 0 ∧ s.areaState (State.areaOf k) = 0 ∧
    (bitsOf 73 (s.fuseRaw k).2).all (hasBit (codeword k (s.get Reg.OT_WDATA0_DATA + 2 ^ 32 * s.get Reg.OT_WDATA1_DATA))) = true :=
  ⟨223, (((tState .run).set Reg.OT_ADDR_AREA 2).set Reg.OT_ADDR_WORD 223).set Reg.SP_OTPEN_CHIP 1, by decide⟩

theorem test_otpCommands_5 : ∃ (c : Instr) (op : Nat) (s : State),
    s.running = true ∧ s.flag Reg.OT_STAT_BUSY = false ∧ 256 ≤ s.otpArea ∧
    ((c = .otpLock 0x7A51 true ∧ op = 3 ∧ State.headerMatches s.fuseClass s.otpArea = true) ∨ (c = .forcelock 0x7A51 true ∧ op = 4 ∧ s.flag Reg.SP_OTPEN_FLOCK = true)) ∧
    State.enCause { s with otp := { s.otp with supplyOk := true } } (s.otpPerm (lockKey s.otpArea)) = 0 ∧
    s.areaState s.otpArea = 0 :=
  ⟨.otpLock 0x7A51 true, 3,
   { ((((tState .run).set Reg.OT_ADDR_AREA 2).set Reg.OT_ADDR_WORD 255).set Reg.SP_OTPEN_CUST 1) with otp := { Otp.init with fuses := [(255, codeword 255 (0x1C0D * 2 ^ 48 + crc32c (leBytes (dataBits 224 / 8) 0) * 65536 + 1), codeword 255 (0x1C0D * 2 ^ 48 + crc32c (leBytes (dataBits 224 / 8) 0) * 65536 + 1))] } },
   ⟨by decide, by decide, by decide, Or.inl ⟨rfl, rfl, by decide⟩, by decide, by decide⟩⟩

theorem test_otpCommands_5b : ∃ (c : Instr) (op : Nat) (s : State),
    s.running = true ∧ s.flag Reg.OT_STAT_BUSY = false ∧ 256 ≤ s.otpArea ∧
    ((c = .otpLock 0x7A51 true ∧ op = 3 ∧ State.headerMatches s.fuseClass s.otpArea = true) ∨ (c = .forcelock 0x7A51 true ∧ op = 4 ∧ s.flag Reg.SP_OTPEN_FLOCK = true)) ∧
    State.enCause { s with otp := { s.otp with supplyOk := true } } (s.otpPerm (lockKey s.otpArea)) = 0 ∧
    s.areaState s.otpArea = 0 :=
  ⟨.forcelock 0x7A51 true, 4,
   ((((tState .run).set Reg.OT_ADDR_AREA 2).set Reg.OT_ADDR_WORD 255).set Reg.SP_OTPEN_CUST 1).set Reg.SP_OTPEN_FLOCK 1,
   ⟨by decide, by decide, by decide, Or.inr ⟨rfl, rfl, by decide⟩, by decide, by decide⟩⟩

theorem test_otpCommands_6 : ∃ (s : State),
    s.running = true ∧ s.flag Reg.OT_STAT_BUSY = false ∧
    State.enCause { s with otp := { s.otp with supplyOk := true } } (s.flag Reg.SP_OTPEN_CUST) = 0 :=
  ⟨(tState .run).set Reg.SP_OTPEN_CUST 1, by decide⟩

theorem test_otpCommands_7 : ∃ (c : Instr) (s : State),
    s.running = true ∧ s.flag Reg.OT_STAT_BUSY = true ∧
    (c = .otpRead [] ∨ ∃ k, c = .otpProgram k s.otp.supplyOk ∨ c = .otpLock k s.otp.supplyOk ∨ c = .forcelock k s.otp.supplyOk ∨ c = .enforce k s.otp.supplyOk) :=
  ⟨.otpRead [], (tState .run).set Reg.OT_STAT_BUSY 1, ⟨by decide, by decide, Or.inl rfl⟩⟩

theorem test_otpCommands_7b : ∃ (c : Instr) (s : State),
    s.running = true ∧ s.flag Reg.OT_STAT_BUSY = true ∧
    (c = .otpRead [] ∨ ∃ k, c = .otpProgram k s.otp.supplyOk ∨ c = .otpLock k s.otp.supplyOk ∨ c = .forcelock k s.otp.supplyOk ∨ c = .enforce k s.otp.supplyOk) :=
  ⟨.enforce 5 true, (tState .run).set Reg.OT_STAT_BUSY 1, ⟨by decide, by decide, Or.inr ⟨5, by decide⟩⟩⟩

theorem test_otpSequence_1 : ∃ (i : Nat) (rest : List Nat) (r : OtpRun) (s : State),
    s.otp.run = some r ∧ r.todo = i :: rest ∧ r.due ≤ s.up ∧ r.key < 4096 :=
  ⟨1, [5], ⟨2, 255, 34, [1, 5], 0, 254, 0, 20000000⟩, tOtp ⟨2, 255, 34, [1, 5], 0, 254, 0, 20000000⟩, by decide⟩

theorem test_otpSequence_2 : ∃ (r : OtpRun) (s : State),
    s.otp.run = some r ∧ r.todo = [] ∧ r.due ≤ s.up ∧ r.abort = 0 ∧ r.key < 4096 ∧
    (bitsOf 73 r.code).all (hasBit (s.fuseRaw r.key).1) = true ∧
    (bitsOf 73 (s.fuseRaw r.key).1 ++ bitsOf 73 (s.fuseRaw r.key).2).all (hasBit r.code) = true :=
  ⟨⟨2, 255, 34, [], 7, 254, 0, 20000000⟩,
   { tOtp ⟨2, 255, 34, [], 7, 254, 0, 20000000⟩ with otp := { Otp.init with run := some ⟨2, 255, 34, [], 7, 254, 0, 20000000⟩, fuses := [(255, 34, 34)] } },
   by decide⟩

theorem test_otpSequence_3 : ∃ (r : OtpRun) (s : State),
    s.otp.run = some r ∧ r.todo = [] ∧ r.due ≤ s.up ∧ r.abort = 0 ∧ r.key < 4096 ∧ r.rounds < 8 ∧
    (bitsOf 73 r.code).all (hasBit (s.fuseRaw r.key).1) = false ∧
    (bitsOf 73 (s.fuseRaw r.key).1 ++ bitsOf 73 (s.fuseRaw r.key).2).all (hasBit r.code) = true :=
  ⟨⟨2, 255, 34, [], 7, 254, 0, 20000000⟩,
   { tOtp ⟨2, 255, 34, [], 7, 254, 0, 20000000⟩ with otp := { Otp.init with run := some ⟨2, 255, 34, [], 7, 254, 0, 20000000⟩, fuses := [(255, 2, 2)] } },
   by decide⟩

theorem test_otpSequence_4 : ∃ (r : OtpRun) (s : State),
    s.otp.run = some r ∧ r.todo = [] ∧ r.due ≤ s.up ∧ r.abort = 0 ∧ r.key < 4096 ∧
    ((bitsOf 73 (s.fuseRaw r.key).1 ++ bitsOf 73 (s.fuseRaw r.key).2).all (hasBit r.code) = false ∨ (8 ≤ r.rounds ∧ (bitsOf 73 r.code).all (hasBit (s.fuseRaw r.key).1) = false)) :=
  ⟨⟨2, 255, 34, [], 7, 254, 0, 20000000⟩,
   { tOtp ⟨2, 255, 34, [], 7, 254, 0, 20000000⟩ with otp := { Otp.init with run := some ⟨2, 255, 34, [], 7, 254, 0, 20000000⟩, fuses := [(255, 35, 35)] } },
   by decide⟩

theorem test_otpSequence_4b : ∃ (r : OtpRun) (s : State),
    s.otp.run = some r ∧ r.todo = [] ∧ r.due ≤ s.up ∧ r.abort = 0 ∧ r.key < 4096 ∧
    ((bitsOf 73 (s.fuseRaw r.key).1 ++ bitsOf 73 (s.fuseRaw r.key).2).all (hasBit r.code) = false ∨ (8 ≤ r.rounds ∧ (bitsOf 73 r.code).all (hasBit (s.fuseRaw r.key).1) = false)) :=
  ⟨⟨2, 255, 34, [], 8, 254, 0, 20000000⟩,
   { tOtp ⟨2, 255, 34, [], 8, 254, 0, 20000000⟩ with otp := { Otp.init with run := some ⟨2, 255, 34, [], 8, 254, 0, 20000000⟩, fuses := [(255, 2, 2)] } },
   by decide⟩

theorem test_otpSequence_5 : ∃ (r : OtpRun) (s : State), s.otp.run = some r ∧ s.up < r.due :=
  ⟨⟨2, 255, 34, [1, 5], 0, 254, 0, 20000000⟩, { tOtp ⟨2, 255, 34, [1, 5], 0, 254, 0, 20000000⟩ with up := 19999999 },
   by decide⟩

theorem test_otpSequence_6 : ∃ (r : OtpRun) (s : State),
    s.otp.run = some r ∧ r.abort = 0 ∧ r.key < 4096 ∧ r.todo ≠ [] ∧ s.up + 10000 < r.due :=
  ⟨⟨2, 255, 34, [1, 5], 0, 254, 0, 20000000⟩, { tOtp ⟨2, 255, 34, [1, 5], 0, 254, 0, 20000000⟩ with up := 19989999 },
   by decide⟩

/-! ## Values that spec/ gives -/

/-- The bytes "123456789". -/
def tDigits : List Byte := (List.range 9).map fun i => BitVec.ofNat 8 (0x31 + i)

/-- Table 10-2: check value 0xF4. -/
theorem test_crc8 : crc8 tDigits = 0xF4 := by decide

/-- Table 6-4: check value 0x29B1. -/
theorem test_crc16 : crc16 tDigits = 0x29B1 := by decide

/-- The outcome is the next state `t`. -/
def tNextIs (o : Host.Outcome State Fault Refusal) (t : State) : Bool :=
  match o with
  | .next u => decide (u = t)
  | _ => false

/-- Table 1-5: the device is in SAFE_BOOT after reset, and no command waits. -/
theorem test_reset : State.reset.dev = .safeBoot ∧ tNextIs (step State.reset) { State.reset with up := 1 } = true := by decide

/-- R450, R25: a write of one word before RUN changes nothing but the count of early writes. -/
theorem test_earlyWrite :
    tNextIs (exec (.registerWrite 0x020008 1#32) (tState .load)) ((tState .load).set Reg.ID_CTRLSTAT_EARLYCNT 1) = true := by
  decide

/-- R448: GETMWL answers 1,027 and GETMRL 1,024. -/
theorem test_maxLengths : tNextIs (exec .getmwl (tState .run)) ((tState .run).emit (.i3c [4#8, 3#8])) = true ∧
    tNextIs (exec .getmrl (tState .run)) ((tState .run).emit (.i3c [4#8, 0#8])) = true := by decide

/-- R64: A leading B by a quarter counts one up from either resting level. -/
theorem test_quadrature : (match exec (.encoderEdge 3 true false) (tChan 1 csTrack) with
    | .next t => (t.tb 3).raw == 1
    | _ => false) = true := by decide

/-- R408, R28: in SAFE_BOOT a second bad window in a row is counted, and the part stays there. -/
theorem test_refclk : (match exec (.refclkWindow 59) { tState .safeBoot with safety := { Safety.init with badWin := 1 } } with
    | .next t => t.dev == .safeBoot && t.safety.badWin == 2
    | _ => false) = true := by decide

/-- R409: 30 MHz and 34 MHz are in the range of the oscillator. -/
theorem test_oscEdges : tNextIs (exec (.oscCheck 30000) (tState .run)) (tState .run) = true ∧
    tNextIs (exec (.oscCheck 34000) (tState .run)) (tState .run) = true := by decide

/-- The host's word tests: the table gives no bits, so no word spells a command. -/
theorem test_noWord : decodeTableWord 0 0 = none ∧ State.reset.withFetchWord 0 0 = State.reset := by decide

/-- Table 0-2 and the example of the pixel (10000, 5000): its cell 20124 lies in block 73, which lies in region 6. -/
theorem test_cellOfPixel : cellBlock 20124 = 73 ∧ blockRegion 73 = 6 := by decide

/-- R284: from a register of zeros a single 1 comes out as bit 0 and again 39 and 58 bits later. -/
theorem test_scrambler : (Lane.scramble ⟨0, 0⟩ 1).1 = 1 + 2 ^ 39 + 2 ^ 58 := by decide

/-- Table 10-1: nine bytes go as SOP, two data blocks, and EOP with one valid byte in the last. -/
theorem test_packetBlocks : packetBlocks (List.replicate 9 0xFF#8) =
    [(true, 0x78), (false, 2 ^ 64 - 1), (false, 0xFF), (true, 0x187)] := by decide

/-- R53: the binned sample 5 takes the pixels 9 and 11. -/
theorem test_binnedPixels : samplePx true 5 = [9, 11] := by decide

/-- R264, R268: halfway between 10 and 9 a tone curve gives 10, ties going away from zero. -/
theorem test_toneTie : toneCurve [(Reg.CP_TC_TLO.addr 0 0, 0x0009000A#32)] 0 32 = 10 := by decide

/-- R9: a write of 1 clears a W1C bit, and not one that hardware sets in the same cycle. -/
theorem test_w1c :
    (((tState .run).set Reg.LK_SUM_NOMAP 1).regStore Reg.LK_SUM_NOMAP.base 0xFFFFFFFF#32).get Reg.LK_SUM_NOMAP = 1 ∧
    (({ (tState .run).set Reg.LK_SUM_NOMAP 1 with hot := [] }).regStore Reg.LK_SUM_NOMAP.base 0xFFFFFFFF#32).get
      Reg.LK_SUM_NOMAP = 0 := by decide

end Sys2Proof
end

section
/-! PROOFS. The transitions of Table 1-5: what every command does to the device state (01_architecture.md R28 to R32). -/
namespace Sys2Proof.Machine

open Host (Outcome)

/-! ## Commands that move the device, and those that do not -/

/-- A command that `movesDevice` does not name keeps the device where it is. -/
theorem exec_keeps (c : Instr) (s : State) (h : movesDevice c = false) : OutKeeps s (exec c s) := by
  cases c with
  | pornFall => exact execPornFall_keeps (.refl s)
  | signatureCheckDone => exact execSignatureCheckDone_keeps (.refl s)
  | blockOtpReadDone => exact execBlockOtpReadDone_keeps (.refl s)
  | cisternInitDone => exact execCisternInitDone_keeps (.refl s)
  | spdTransferDone => exact execSpdTransferDone_keeps (.refl s)
  | spdTransferTimeout => exact execSpdTransferTimeout_keeps (.refl s)
  | spdTempPoll => exact execSpdTempPoll_keeps (.refl s)
  | rtBlockLock => exact execRtBlockLock_keeps (.refl s)
  | rtLockLoss => exact execRtLockLoss_keeps (.refl s)
  | idle => exact execIdle_keeps (.refl s)
  | credit => exact execCredit_keeps (.refl s)
  | patternOk => exact execPatternOk_keeps (.refl s)
  | phase => exact execPhase_keeps (.refl s)
  | waddr => exact execWaddr_keeps (.refl s)
  | rcfrm => exact execRcfrm_keeps (.refl s)
  | rcgo => exact execRcgo_keeps (.refl s)
  | rtReservedType => exact execRtReservedType_keeps (.refl s)
  | trainingStepTimeout => exact execTrainingStepTimeout_keeps (.refl s)
  | alignmentMarker => exact execAlignmentMarker_keeps (.refl s)
  | linkHeartbeat => exact execLinkHeartbeat_keeps (.refl s)
  | returnLaneTimeout => exact execReturnLaneTimeout_keeps (.refl s)
  | linkGroupClockFault => exact execLinkGroupClockFault_keeps (.refl s)
  | creditWithhold => exact execCreditWithhold_keeps (.refl s)
  | creditStall => exact execCreditStall_keeps (.refl s)
  | packetSend => exact execPacketSend_keeps (.refl s)
  | groupEnable => exact execGroupEnable_keeps (.refl s)
  | groupDisable => exact execGroupDisable_keeps (.refl s)
  | groupRetire => exact execGroupRetire_keeps (.refl s)
  | prbsTxStart => exact execPrbsTxStart_keeps (.refl s)
  | prbsTxStop => exact execPrbsTxStop_keeps (.refl s)
  | prbsRtStart => exact execPrbsRtStart_keeps (.refl s)
  | prbsRtStop => exact execPrbsRtStop_keeps (.refl s)
  | rtPrbsSync => exact execRtPrbsSync_keeps (.refl s)
  | rtPrbsSyncLoss => exact execRtPrbsSyncLoss_keeps (.refl s)
  | rigTimeSend => exact execRigTimeSend_keeps (.refl s)
  | rigProbeSend => exact execRigProbeSend_keeps (.refl s)
  | rigTimeReceive => exact execRigTimeReceive_keeps (.refl s)
  | rigProbeReceive => exact execRigProbeReceive_keeps (.refl s)
  | rigProbeReplyReceive => exact execRigProbeReplyReceive_keeps (.refl s)
  | rigFramebcReceive => exact execRigFramebcReceive_keeps (.refl s)
  | rigFixReceive => exact execRigFixReceive_keeps (.refl s)
  | rigInTimeout => exact execRigInTimeout_keeps (.refl s)
  | eyeScanStart => exact execEyeScanStart_keeps (.refl s)
  | eyeScanDone => exact execEyeScanDone_keeps (.refl s)
  | tbCfgWrite => exact execTbCfgWrite_keeps (.refl s)
  | encoderEdge => exact execEncoderEdge_keeps (.refl s)
  | indexPulse => exact execIndexPulse_keeps (.refl s)
  | indexTimeout => exact execIndexTimeout_keeps (.refl s)
  | syncPulse => exact execSyncPulse_keeps (.refl s)
  | syncMiss => exact execSyncMiss_keeps (.refl s)
  | tbUpdate => exact execTbUpdate_keeps (.refl s)
  | coastTimeout => exact execCoastTimeout_keeps (.refl s)
  | resolverOutputTimeout => exact execResolverOutputTimeout_keeps (.refl s)
  | posRead => exact execPosRead_keeps (.refl s)
  | timeloRead => exact execTimeloRead_keeps (.refl s)
  | slotArm => exact execSlotArm_keeps (.refl s)
  | slotDisarm => exact execSlotDisarm_keeps (.refl s)
  | actNone => exact execActNone_keeps (.refl s)
  | startFrame => exact execStartFrame_keeps (.refl s)
  | startExp => exact execStartExp_keeps (.refl s)
  | startTrack => exact execStartTrack_keeps (.refl s)
  | senseReg => exact execSenseReg_keeps (.refl s)
  | senseInj => exact execSenseInj_keeps (.refl s)
  | galSet => exact execGalSet_keeps (.refl s)
  | galPulse => exact execGalPulse_keeps (.refl s)
  | galPulseEnd => exact execGalPulseEnd_keeps (.refl s)
  | filterReset => exact execFilterReset_keeps (.refl s)
  | latch => exact execLatch_keeps (.refl s)
  | pendingTriggerExecute => exact execPendingTriggerExecute_keeps (.refl s)
  | triggerEdge => exact execTriggerEdge_keeps (.refl s)
  | triggerQualify => exact execTriggerQualify_keeps (.refl s)
  | armingPoint => exact execArmingPoint_keeps (.refl s)
  | classExposureStart => exact execClassExposureStart_keeps (.refl s)
  | lateFrameStart => exact execLateFrameStart_keeps (.refl s)
  | flush => exact execFlush_keeps (.refl s)
  | steerDone => exact execSteerDone_keeps (.refl s)
  | rowSlotStart => exact execRowSlotStart_keeps (.refl s)
  | rowConvertStart => exact execRowConvertStart_keeps (.refl s)
  | rowConversionDone => exact execRowConversionDone_keeps (.refl s)
  | blockArbiterEntry => exact execBlockArbiterEntry_keeps (.refl s)
  | s1EntryOut => exact execS1EntryOut_keeps (.refl s)
  | readoutEnd => exact execReadoutEnd_keeps (.refl s)
  | frameClose => exact execFrameClose_keeps (.refl s)
  | statsComplete => exact execStatsComplete_keeps (.refl s)
  | blockArbiterTimeout => exact execBlockArbiterTimeout_keeps (.refl s)
  | regionArbiterTimeout => exact execRegionArbiterTimeout_keeps (.refl s)
  | lineMemoryError => exact execLineMemoryError_keeps (.refl s)
  | domainPowerGoodLoss => exact execDomainPowerGoodLoss_keeps (.refl s)
  | blockReady => exact execBlockReady_keeps (.refl s)
  | subexposureEnd => exact execSubexposureEnd_keeps (.refl s)
  | trackReadPending => exact execTrackReadPending_keeps (.refl s)
  | trackReadDone => exact execTrackReadDone_keeps (.refl s)
  | trackResult => exact execTrackResult_keeps (.refl s)
  | pointingUpdate => exact execPointingUpdate_keeps (.refl s)
  | pointingMessageSend => exact execPointingMessageSend_keeps (.refl s)
  | guardTimeout => exact execGuardTimeout_keeps (.refl s)
  | guardHoldPeriod => exact execGuardHoldPeriod_keeps (.refl s)
  | captureCommit => exact execCaptureCommit_keeps (.refl s)
  | stage2Commit => exact execStage2Commit_keeps (.refl s)
  | darkStart => exact execDarkStart_keeps (.refl s)
  | darkAbort => exact execDarkAbort_keeps (.refl s)
  | ringFreeze => exact execRingFreeze_keeps (.refl s)
  | ringRelease => exact execRingRelease_keeps (.refl s)
  | ringTriggerEdge => exact execRingTriggerEdge_keeps (.refl s)
  | ringTriggerQualify => exact execRingTriggerQualify_keeps (.refl s)
  | rasterFrameStored => exact execRasterFrameStored_keeps (.refl s)
  | rasterOutputStart => exact execRasterOutputStart_keeps (.refl s)
  | accGroupDone => exact execAccGroupDone_keeps (.refl s)
  | stage2Entry => exact execStage2Entry_keeps (.refl s)
  | stage2RowOut => exact execStage2RowOut_keeps (.refl s)
  | stage2ReadEnd => exact execStage2ReadEnd_keeps (.refl s)
  | recallSubmit => exact execRecallSubmit_keeps (.refl s)
  | recallStart => exact execRecallStart_keeps (.refl s)
  | recallEnd => exact execRecallEnd_keeps (.refl s)
  | caParityError => exact execCaParityError_keeps (.refl s)
  | memoryEccError => exact execMemoryEccError_keeps (.refl s)
  | readmissionDone => exact execReadmissionDone_keeps (.refl s)
  | ceTestSet => exact execCeTestSet_keeps (.refl s)
  | ceDataWrite => exact execCeDataWrite_keeps (.refl s)
  | ceValWrite => exact execCeValWrite_keeps (.refl s)
  | sequenceStart => exact execSequenceStart_keeps (.refl s)
  | senseConversionDone => exact execSenseConversionDone_keeps (.refl s)
  | sliceHandover => exact execSliceHandover_keeps (.refl s)
  | sliceCalibrationDone => exact execSliceCalibrationDone_keeps (.refl s)
  | senseEnable => exact execSenseEnable_keeps (.refl s)
  | senseDisable => exact execSenseDisable_keeps (.refl s)
  | zeroCalStart => exact execZeroCalStart_keeps (.refl s)
  | zeroCalDone => exact execZeroCalDone_keeps (.refl s)
  | senseResultRead => exact execSenseResultRead_keeps (.refl s)
  | filterInput => exact execFilterInput_keeps (.refl s)
  | filterConfigWrite => exact execFilterConfigWrite_keeps (.refl s)
  | filterOutputRead => exact execFilterOutputRead_keeps (.refl s)
  | oscCheck => exact execOscCheck_keeps (.refl s)
  | safetyHeartbeat => exact execSafetyHeartbeat_keeps (.refl s)
  | ibiRequest => exact execIbiRequest_keeps (.refl s)
  | i3cBusTimeout => exact execI3cBusTimeout_keeps (.refl s)
  | enec => exact execEnec_keeps (.refl s)
  | disec => exact execDisec_keeps (.refl s)
  | rstdaa => exact execRstdaa_keeps (.refl s)
  | entdaa => exact execEntdaa_keeps (.refl s)
  | setdasa => exact execSetdasa_keeps (.refl s)
  | setnewda => exact execSetnewda_keeps (.refl s)
  | getpid => exact execGetpid_keeps (.refl s)
  | getbcr => exact execGetbcr_keeps (.refl s)
  | getdcr => exact execGetdcr_keeps (.refl s)
  | getstatus => exact execGetstatus_keeps (.refl s)
  | getmwl => exact execGetmwl_keeps (.refl s)
  | getmrl => exact execGetmrl_keeps (.refl s)
  | unsupportedCcc => exact execUnsupportedCcc_keeps (.refl s)
  | otpRead => exact execOtpRead_keeps (.refl s)
  | otpProgram => exact execOtpProgram_keeps (.refl s)
  | otpLock => exact execOtpLock_keeps (.refl s)
  | forcelock => exact execForcelock_keeps (.refl s)
  | enforce => exact execEnforce_keeps (.refl s)
  | otpPulseDone => exact execOtpPulseDone_keeps (.refl s)
  | otpVerifyDone => exact execOtpVerifyDone_keeps (.refl s)
  | rigRxLock => exact execRigRxLock_keeps (.refl s)
  | rigMessageSend => exact execRigMessageSend_keeps (.refl s)
  | rigCrcError => exact execRigCrcError_keeps (.refl s)
  | rtPrbsBitError => exact execRtPrbsBitError_keeps (.refl s)
  | i3cPrivateRead => exact execI3cPrivateRead_keeps (.refl s)
  | _ => exact nomatch h

/-! ## Steps that Table 1-5 allows -/

namespace DevState

theorem mayBecome_self (d : DevState) : d.mayBecome d = true := by cases d <;> rfl

theorem mayBecome_off (d : DevState) : d.mayBecome .off = true := by cases d <;> rfl

/-- PORn resets from every state but SHUTDOWN. -/
theorem mayBecome_safeBoot {d : DevState} (h : d ≠ .shutdown) : d.mayBecome .safeBoot = true := by
  revert h
  cases d <;> decide

/-- Every state with its monitors running may stop in SAFE, but for SHUTDOWN. -/
theorem mayBecome_safe {d : DevState} (hs : d ≠ .shutdown) (ho : d ≠ .off) : d.mayBecome .safe = true := by
  revert hs ho
  cases d <;> decide

/-- Every state with its sensors sampled may end in SHUTDOWN. -/
theorem mayBecome_shutdown {d : DevState} (hb : d ≠ .safeBoot) (ho : d ≠ .off) : d.mayBecome .shutdown = true := by
  revert hb ho
  cases d <;> decide

end DevState

/-- Table 1-5 allows the device to go from where it is in `s` to where it is in `t`. -/
def Moves (s t : State) : Prop := s.dev.mayBecome t.dev = true

namespace Moves

theorem refl (s : State) : Moves s s := DevState.mayBecome_self s.dev

/-- A move that begins where the device was left. -/
theorem before {s t u : State} (h : Moves t u) (k : t.dev = s.dev) : Moves s u := by
  unfold Moves at h ⊢
  rwa [← k]

/-- A move after which the device is left where it is. -/
theorem after {s t u : State} (h : Moves s t) (k : u.dev = t.dev) : Moves s u := by
  unfold Moves at h ⊢
  rwa [k]

theorem of_dev {s t : State} (h : t.dev = s.dev) : Moves s t := (refl s).after h

theorem of_keeps {s t : State} (k : Keeps s t) : Moves s t := of_dev k.dev

theorem of_at {s t : State} {d p : DevState} {c : Cause} {v : Bool} (k : At d p c v t) (h : s.dev.mayBecome d = true) :
    Moves s t := by
  unfold Moves
  rwa [k.dev]

/-- RUN and STANDBY lead to one another. -/
theorem of_toggles {s t : State} (k : State.Toggles s t) : Moves s t := by
  rcases k.dev with e | ⟨hs, ht⟩
  · exact of_dev e
  · unfold Moves
    unfold State.running at hs ht
    revert hs ht
    cases s.dev <;> cases t.dev <;> decide

theorem ite {s t u : State} {c : Prop} [Decidable c] (ht : c → Moves s t) (hu : ¬c → Moves s u) :
    Moves s (if c then t else u) := by
  split
  · exact ht ‹_›
  · exact hu ‹_›

end Moves

/-- The next state that a command answers, if any, is one that Table 1-5 allows. -/
def OutMoves (s : State) (o : Outcome State Fault Refusal) : Prop := ∀ t, o = .next t → Moves s t

namespace OutMoves

theorem ok {s t : State} (h : Moves s t) : OutMoves s (ok t) := fun _ e => Outcome.next.inj e ▸ h

theorem of_keeps {s : State} {o : Outcome State Fault Refusal} (h : OutKeeps s o) : OutMoves s o :=
  fun t e => .of_keeps (h.next t e)

theorem ite {s : State} {a b : Outcome State Fault Refusal} {c : Prop} [Decidable c] (ha : c → OutMoves s a)
    (hb : ¬c → OutMoves s b) : OutMoves s (if c then a else b) := by
  split
  · exact ha ‹_›
  · exact hb ‹_›

end OutMoves

/-! ## The operations that move the device -/

namespace State

theorem powerOnReset_dev (s : State) : s.powerOnReset.dev = .safeBoot := by
  unfold powerOnReset keptFloors
  split <;> rfl

theorem powerOnReset_moves {s : State} (h : s.dev ≠ .shutdown) : Moves s s.powerOnReset := by
  unfold Moves
  rw [powerOnReset_dev]
  exact DevState.mayBecome_safeBoot h

theorem vddaonLost_moves (s : State) : Moves s s.vddaonLost := DevState.mayBecome_off s.dev

theorem tryLoad_moves (s : State) : Moves s s.tryLoad := by
  by_cases h : s.dev = .safeBoot ∧ s.boot.strapped ∧ s.boot.shadowed ∧ s.pllMain
  · exact .of_at (tryLoad_at s h) (by rw [h.1]; rfl)
  · exact .of_dev (by rw [tryLoad_same s h])

theorem tryRun_moves (s : State) : Moves s s.tryRun := by
  by_cases h : s.dev = .train ∧ s.runReady
  · exact .of_at (tryRun_at s h) (by rw [h.1]; rfl)
  · exact .of_dev (by rw [tryRun_same s h])

theorem nextSlot_moves {s : State} (h : s.dev = .load) : Moves s s.nextSlot := by
  rcases nextSlot_at s with k | k
  · exact .of_keeps k
  · exact .of_at k (by rw [h]; rfl)

/-- A stop that Table 1-5 has for the states in which one is heeded. -/
theorem enterStop_moves (s : State) (d : DevState) (c : Cause)
    (h : s.dev ≠ .shutdown → s.dev ≠ .off → s.dev.mayBecome d = true) : Moves s (s.enterStop d c) := by
  by_cases hf : s.dev = .shutdown ∨ s.dev = .off
  · exact .of_dev (by rw [enterStop_final s d c hf])
  · obtain ⟨hsd, hoff⟩ := not_or.1 hf
    by_cases hs : s.dev = .safe ∧ d = .safe
    · obtain ⟨hdev, rfl⟩ := hs
      rw [enterStop_safe s c hdev]
      exact .ite (fun _ => .of_dev rfl) (fun _ => .refl s)
    · exact .of_at (enterStop_at s d c (not_or.2 ⟨hsd, not_or.2 ⟨hoff, hs⟩⟩)) (h hsd hoff)

theorem enterStop_safe_moves (s : State) (c : Cause) : Moves s (s.enterStop .safe c) :=
  enterStop_moves s .safe c DevState.mayBecome_safe

theorem trip_moves (s : State) (bit : Option Nat) (c : Cause) : Moves s (s.trip bit c) := by
  cases bit with
  | none => exact enterStop_safe_moves s c
  | some b => exact (enterStop_safe_moves _ c).before (setFault_keeps (.refl s)).dev

/-- The stops that the samples of the sensors call for are SHUTDOWN and SAFE (R385, R393). -/
theorem thermalStop_cases {s : State} {d : DevState} {c : Cause} (h : s.thermalStop = some (d, c)) :
    d = .shutdown ∨ d = .safe := by
  unfold thermalStop at h
  split at h
  · cases h; exact .inl rfl
  · split at h
    · cases h; exact .inr rfl
    · cases h

theorem mainWrite_moves {s t : State} (h : Moves s t) : Moves s (s.mainWrite t) := by
  unfold mainWrite
  exact .ite (fun _ => h) fun _ => .ite (fun _ => .of_dev rfl) fun _ => .ite (fun _ => .of_dev rfl) fun _ => .refl s

/-- A return-lane message moves the device as its effect does. -/
theorem rtMsg_moves {s : State} {g seq : Nat} {act : State → Option State}
    (h : ∀ t u, act t = some u → Moves t u) : Moves s (s.rtMsg g seq act) := by
  have k : (s.rtValid g).dev = s.dev := (rtValid_keeps (.refl s)).dev
  unfold rtMsg
  dsimp only
  split
  · exact .of_dev k
  · split
    · exact .of_dev k
    · split
      · exact .of_dev k
      · rename_i e
        exact ((h _ _ e).after rfl).before k

theorem wdataAct_moves {s t : State} {g : Nat} {v : Word} (h : wdataAct g v s = some t) : Moves s t := by
  unfold wdataAct at h
  cases hw : s.ctl.wptr with
  | none => rw [hw] at h; exact nomatch h
  | some a =>
    rw [hw] at h
    exact ite_none_eq_some h ▸ (Moves.of_toggles (sourceWrite_toggles s a v)).after rfl

end State

/-! ## The commands that move the device -/

section
open State

theorem execPornRise_moves (s : State) : OutMoves s (execPornRise s) := by
  unfold execPornRise
  refine .ok (.ite (fun _ => .refl s) fun _ => .ite (fun _ => .of_dev rfl) fun h => ?_)
  exact (powerOnReset_moves fun e => h (.inl e)).before rfl

theorem execVddaonRise_moves {s : State} (hs : s.supplied) : OutMoves s (execVddaonRise s) := by
  unfold execVddaonRise
  refine .ok (.ite (fun _ => .refl s) fun hv => .ite (fun _ => ?_) fun _ => .of_dev rfl)
  have hoff : s.dev = .off := hs (Bool.eq_false_iff.2 hv)
  exact (powerOnReset_moves (by simp [hoff])).before rfl

theorem execStrapSample_moves (levels : Nat) (s : State) : OutMoves s (execStrapSample levels s) :=
  .ok (.ite (fun _ => (tryLoad_moves _).before rfl) fun _ => .refl s)

theorem execFuseBankShadowDone_moves (ws : List (Nat × Nat × Nat)) (s : State) : OutMoves s (execFuseBankShadowDone ws s) := by
  have k : Keeps s (s.drift ws).readChipBank := readChipBank_keeps (drift_keeps (.refl s))
  unfold execFuseBankShadowDone
  generalize (s.drift ws).readChipBank = t at k
  exact .ok (.ite (fun _ => (tryLoad_moves _).before k.dev) fun _ => .refl s)

theorem execPllMainLock_moves (s : State) : OutMoves s (execPllMainLock s) :=
  .ok (.ite (fun _ => (tryLoad_moves _).before rfl) fun _ => .refl s)

theorem execStartupTimeout_moves (s : State) : OutMoves s (execStartupTimeout s) :=
  have stop (b : Nat) (c : Cause) : Moves s ((s.setFault b).enterStop .safe c) := trip_moves s (some b) c
  .ok (.ite (fun _ => .ite (fun _ => stop 7 _) fun _ => stop 6 _) fun _ => .refl s)

theorem execXspiBurstDone_moves (data : List Byte) (s : State) : OutMoves s (execXspiBurstDone data s) := by
  unfold execXspiBurstDone
  cases s.boot.item with
  | none => exact .ok (.refl s)
  | some i =>
    have ended (d : Option (List Byte)) : Moves s (s.readEnded i d) := .of_toggles (readEnded_toggles s i d)
    exact .ite (fun _ => .ok (.refl s)) fun _ => .ite (fun _ => .ok (ended none)) fun _ =>
      .ite (fun _ => .ok (.of_dev rfl)) fun _ => .ok (ended _)

theorem execXspiBurstTimeout_moves (s : State) : OutMoves s (execXspiBurstTimeout s) := by
  unfold execXspiBurstTimeout
  cases s.boot.item with
  | none => exact .ok (.refl s)
  | some i => exact .ok (.ite (fun _ => .of_toggles (readEnded_toggles s i none)) fun _ => .refl s)

theorem execWriteListDelayEnd_moves (s : State) : OutMoves s (execWriteListDelayEnd s) := by
  unfold execWriteListDelayEnd
  cases s.boot.delayUntil with
  | none => exact .ok (.refl s)
  | some t => exact .ok (.ite (fun _ => (Moves.of_toggles (runWriteList_toggles _ _)).before rfl) fun _ => .refl s)

theorem execSlotRevertDone_moves (s : State) : OutMoves s (execSlotRevertDone s) :=
  .ok (.ite (fun h => nextSlot_moves h.1) fun _ => .refl s)

theorem execMarkerOk_moves (g seq limit : Nat) (s : State) : OutMoves s (execMarkerOk g seq limit s) := by
  refine .ok (rtMsg_moves fun t u e => ?_)
  by_cases hc : t.lstate g = lsMarker
  · rw [if_pos hc] at e
    cases e
    exact (tryRun_moves _).before
      (refreshWait_keeps (joinSpare_keeps (setGroup_keeps (set_keeps (set_keeps (set_keeps (.refl t))))))).dev
  · rw [if_neg hc] at e
    cases e
    exact .refl t

theorem execWdata_moves (g seq : Nat) (v : Word) (s : State) : OutMoves s (execWdata g seq v s) :=
  have h : Moves s (s.rtMsg g seq (wdataAct g v)) := rtMsg_moves fun _ _ => wdataAct_moves
  .ok (.ite (fun _ => h.after rfl) fun _ => h)

theorem execTrainingTimeout_moves (s : State) : OutMoves s (execTrainingTimeout s) := by
  unfold execTrainingTimeout
  refine .ite (fun _ => .ok (.refl s)) fun h => .ite (fun _ => .ok ?_) fun _ => .ok ?_
  · have ht : s.dev = .train := Decidable.not_not.1 (not_or.1 h).1
    exact .of_at (enterRun_at s) (by rw [ht]; rfl)
  · refine .of_keeps (.foldl (.upd (set_keeps (.refl s)) id id id id id id) fun t g k => ?_)
    exact .ite (backToClock_keeps k) k

theorem execSensorSample_moves (xs : List (Option Int)) (s : State) : OutMoves s (execSensorSample xs s) := by
  unfold execSensorSample
  refine .ite (fun _ => .ok (.refl s)) fun h => ?_
  obtain ⟨hoff, hrest⟩ := not_or.1 h
  have k : Keeps s (s.thermalSample xs).1 := thermalSample_keeps (.refl s)
  have hstop : (s.thermalSample xs).2 = (s.thermalSample xs).1.thermalStop := rfl
  generalize s.thermalSample xs = r at k hstop
  obtain ⟨t, stop⟩ := r
  dsimp only at k hstop ⊢
  split
  · rename_i d c
    refine .ok (((enterStop_moves t d c fun hsd hto => ?_).before k.dev).after (otpCheck_keeps (.refl _)).dev)
    rcases thermalStop_cases hstop.symm with rfl | rfl
    · exact DevState.mayBecome_shutdown (fun e => hrest (.inl (k.dev.symm.trans e))) hto
    · exact DevState.mayBecome_safe hsd hto
  · exact .ok (.of_keeps (otpCheck_keeps k))

theorem execSleep_moves (s : State) : OutMoves s (execSleep s) := .ok (mainWrite_moves (.of_toggles (sleep_toggles s)))

theorem execWake_moves (s : State) : OutMoves s (execWake s) := .ok (mainWrite_moves (.of_toggles (wake_toggles s)))

theorem execRefclkWindow_moves (count : Nat) (s : State) : OutMoves s (execRefclkWindow count s) :=
  .ite (fun _ => .ok (.refl s)) fun _ => .ok (.ite (fun _ => (trip_moves _ _ _).before rfl) fun _ =>
    .ite (fun _ => (trip_moves _ _ _).before rfl) fun _ => .of_dev rfl)

theorem execPllLockLoss_moves (which : Nat) (s : State) : OutMoves s (execPllLockLoss which s) := by
  have same : OutMoves s (ok s) := .ok (.refl s)
  unfold execPllLockLoss
  refine .ite (fun _ => same) fun _ => .ite (fun _ => .ite (fun _ => same) fun _ => .ok ?_) fun _ =>
    .ite (fun _ => .ite (fun _ => same) fun _ => .ok ?_) fun _ => .ite (fun _ => .ok ?_) fun _ => same
  · exact .ite (fun _ => (trip_moves _ _ _).before rfl) fun _ => (Moves.of_keeps (setFault_keeps (.refl _))).before rfl
  · exact .of_keeps (.ite (channelLost_keeps (setFault_keeps (.upd (.refl s) id id id id id id)))
      (setFault_keeps (.upd (.refl s) id id id id id id)))
  · exact .ite (fun _ => .of_keeps (setFault_keeps (.upd (previewStop_keeps (.refl s)) id id id id id id))) fun _ => .refl s

theorem execSupplyTrip_moves (rail : Nat) (high : Bool) (s : State) : OutMoves s (execSupplyTrip rail high s) := by
  unfold execSupplyTrip
  refine .ite (fun _ => .ok (.ite (fun _ => .refl s) fun _ => .ite (fun _ => .of_dev rfl) fun _ => vddaonLost_moves s))
    fun _ => .ite (fun _ => .ok (.refl s)) fun _ => .ok ?_
  have k : Keeps s (((((s.set Reg.SP_SUPLAST_VALID 1).set Reg.SP_SUPLAST_HIGH (if high then 1 else 0)).set
      Reg.SP_SUPLAST_RAIL rail)).setFault 9) := setFault_keeps (set_keeps (set_keeps (set_keeps (.refl s))))
  exact .ite (fun _ => .of_keeps (.ite (allChannelsLost_keeps k) k)) fun _ => (enterStop_safe_moves _ _).before k.dev

theorem execWatchdogTrip_moves (s : State) : OutMoves s (execWatchdogTrip s) :=
  .ok (.ite (fun _ => (trip_moves _ _ _).before rfl) fun _ => .refl s)

theorem execI3cPrivateWrite_moves (bytes : List Byte) (parity : Bool) (s : State) :
    OutMoves s (execI3cPrivateWrite bytes parity s) :=
  .ite (fun _ => .ok (.refl s)) fun _ => .ite (fun _ => .ok (.of_dev rfl)) fun _ =>
    .ite (fun _ => .ok (.of_keeps (flagDiscard_keeps (bump_keeps (.refl s))))) fun _ => .ite (fun _ => .ok (.of_dev rfl)) fun _ =>
      .ite (fun _ => .ok (.of_dev rfl)) fun _ => .ok (.of_toggles (i3cWords_toggles s _ _))

theorem execRegisterWrite_moves (a : Nat) (v : Word) (s : State) : OutMoves s (execRegisterWrite a v s) :=
  .ok (.ite (fun _ => .refl s) fun _ => .ite (fun _ => .of_dev rfl) fun _ => .of_toggles (i3cWord_toggles s a v))

/-- The acceptance of a slot leads to TRAIN, and where the RUN condition holds through TRAIN to RUN. -/
theorem execSlotAccept_moves {s t : State} (h : execSlotAccept s = .next t) :
    Moves s t ∨ (s.dev = .load ∧ t.prev = .train ∧ t.dev = .run) := by
  have entered : ∀ u : State, Keeps s u → s.dev = .load → ok u.enterTrain = .next t →
      Moves s t ∨ (s.dev = .load ∧ t.prev = .train ∧ t.dev = .run) := by
    intro u k hl e
    cases e
    rcases enterTrain_at u with a | a
    · exact .inl (.of_at a (by rw [hl]; rfl))
    · exact .inr ⟨hl, a.prev, a.dev⟩
  unfold execSlotAccept at h
  cases hk : s.boot.slot with
  | none =>
    rw [hk] at h
    cases h
    exact .inl (.refl _)
  | some k =>
    rw [hk] at h
    dsimp only at h
    split at h
    · rename_i hc
      refine entered _ ?_ hc.1 h
      have booted : Keeps s (s.bootResult k 1 0 0) := bootResult_keeps (.refl s)
      generalize s.bootResult k 1 0 0 = u at booted ⊢
      refine .ite (set_keeps (emit_keeps ?_)) ?_
      all_goals exact lockSafety_keeps (set_keeps (set_keeps (set_keeps (set_keeps booted))))
    · cases h
      exact .inl (.refl _)

/-- Every command but the acceptance of a slot takes the device along one transition of Table 1-5, or leaves it. -/
theorem exec_moves (c : Instr) {s : State} (hs : s.supplied) (hc : c ≠ .slotAccept) : OutMoves s (exec c s) := by
  cases h : movesDevice c with
  | false => exact .of_keeps (exec_keeps c s h)
  | true =>
    cases c with
    | pornRise => exact execPornRise_moves s
    | vddaonLoss => exact .ok (vddaonLost_moves s)
    | vddaonRise => exact execVddaonRise_moves hs
    | strapSample levels => exact execStrapSample_moves levels s
    | fuseBankShadowDone ws => exact execFuseBankShadowDone_moves ws s
    | pllMainLock => exact execPllMainLock_moves s
    | startupTimeout => exact execStartupTimeout_moves s
    | xspiBurstDone data => exact execXspiBurstDone_moves data s
    | xspiBurstTimeout => exact execXspiBurstTimeout_moves s
    | writeListDelayEnd => exact execWriteListDelayEnd_moves s
    | slotRevertDone => exact execSlotRevertDone_moves s
    | slotAccept => exact absurd rfl hc
    | markerOk g seq limit => exact execMarkerOk_moves g seq limit s
    | wdata g seq v => exact execWdata_moves g seq v s
    | trainingTimeout => exact execTrainingTimeout_moves s
    | sensorSample xs => exact execSensorSample_moves xs s
    | sleep => exact execSleep_moves s
    | wake => exact execWake_moves s
    | refclkWindow count => exact execRefclkWindow_moves count s
    | pllLockLoss which => exact execPllLockLoss_moves which s
    | supplyTrip rail high => exact execSupplyTrip_moves rail high s
    | watchdogTrip => exact execWatchdogTrip_moves s
    | i3cPrivateWrite bytes parity => exact execI3cPrivateWrite_moves bytes parity s
    | registerWrite a v => exact execRegisterWrite_moves a v s
    | _ => exact nomatch h

end

/-- Settles O5: each command that `movesDevice` names moves as Table 1-5 has it, any other leaves the device where it is. -/
theorem onlyTableTransitions : Obligations.OnlyTableTransitions := by
  intro c s t hs h
  by_cases hc : c = .slotAccept
  · subst hc
    rcases execSlotAccept_moves h with m | ⟨hl, hp, hd⟩
    · exact .inl m
    · exact .inr ⟨rfl, hl, hp, hd⟩
  · exact .inl (exec_moves c hs hc t h)

end Sys2Proof.Machine
end

section
/-! PROOFS. Writes over I3C and the registers they reach (01_architecture.md R8, R9, R23 to R27; 15_safety_partition.md R404). -/
namespace Sys2Proof.Machine

/-! ## Little-endian bytes (R5) -/

theorem leBytes_length (n v : Nat) : (leBytes n v).length = n := by simp [leBytes]

theorem leBytes_succ (n v : Nat) : leBytes (n + 1) v = BitVec.ofNat 8 v :: leBytes n (v / 256) := by
  simp [leBytes, List.range_succ_eq_map, Function.comp_def, Nat.div_div_eq_div_mul, Nat.pow_succ']

theorem leNat_leBytes (n v : Nat) : leNat (leBytes n v) = v % 256 ^ n := by
  induction n generalizing v with
  | zero => simp [leBytes, leNat, Nat.mod_one]
  | succ n ih =>
    rw [leBytes_succ, leNat, ih, BitVec.toNat_ofNat, Nat.pow_succ 256 n, Nat.mul_comm _ 256]
    exact Nat.mod_mul.symm

/-- The address of a transaction reads back from its first three bytes. -/
theorem leAt_address {a : Nat} (ha : a < 2 ^ 24) (data : List Byte) : leAt (leBytes 3 a ++ data) 0 3 = a := by
  have h : (leBytes 3 a ++ data).take 3 = leBytes 3 a := List.take_left' (leBytes_length 3 a)
  rw [leAt, List.drop_zero, h, leNat_leBytes]
  exact Nat.mod_eq_of_lt ha

/-- The four bytes of a word are one data word of a transaction. -/
theorem State.wordsOf_leBytes (v : Word) : State.wordsOf (leBytes 4 v.toNat) = [v] := by
  have h : leAt (leBytes 4 v.toNat) 0 4 = v.toNat := by
    rw [leAt, List.drop_zero, List.take_of_length_le (Nat.le_of_eq (leBytes_length 4 _)), leNat_leBytes]
    exact Nat.mod_eq_of_lt v.isLt
  simp [State.wordsOf, leBytes_length, h]

namespace State

/-! ## Counters and flags -/

/-- A byte-wide counter goes up by one, or stays at 255, and nothing else moves. -/
theorem bump_counts (s : State) (f : Fld) (hw : f.w = 8) (hlo : f.lo + f.w ≤ 32) (hc : f.w1c = false) :
    (s.bump f).get f = min 255 (s.get f + 1) ∧ s.bump f = { s with regs := (s.bump f).regs } ∧
      s.regsKeptBut (s.bump f) [(f, 0, 0)] := by
  refine ⟨?_, ?_, regsKeptBut_set s f _ 0 0 (List.mem_singleton_self _)⟩
  · rw [bump, get_set_same _ _ _ _ _ hlo, hw]
    omega
  · simp [bump, set, hotAfter, hc]

/-- UNAVAIL is set, and nothing else but its mark of the cycle moves (R26, R27). -/
theorem set_unavail (s : State) :
    (s.set Reg.ID_CTRLSTAT_UNAVAIL 1).get Reg.ID_CTRLSTAT_UNAVAIL = 1 ∧
      s.set Reg.ID_CTRLSTAT_UNAVAIL 1 =
        { s with regs := (s.set Reg.ID_CTRLSTAT_UNAVAIL 1).regs, hot := (s.set Reg.ID_CTRLSTAT_UNAVAIL 1).hot } ∧
      s.regsKeptBut (s.set Reg.ID_CTRLSTAT_UNAVAIL 1) [(Reg.ID_CTRLSTAT_UNAVAIL, 0, 0)] :=
  ⟨get_set_same s _ 1 0 0 (by decide), rfl, regsKeptBut_set s _ 1 0 0 (List.mem_singleton_self _)⟩

theorem bump_word_ne (s : State) (f : Fld) {a : Nat} (h : a ≠ f.addr 0 0) : (s.bump f).regs.word a = s.regs.word a := by
  rw [bump, set, RegFile.setFld, RegFile.word_put, if_neg h]

/-! ## The states of the device -/

theorem not_early_of_stopped {s : State} (h : s.stopped = true) : ¬(s.dev = .safeBoot ∨ s.dev = .load ∨ s.dev = .train) := by
  unfold stopped at h
  revert h
  cases s.dev <;> decide

theorem not_off_of_stopped {s : State} (h : s.stopped = true) : s.dev ≠ .off := by
  unfold stopped at h
  revert h
  cases s.dev <;> decide

theorem not_early_of_running {s : State} (h : s.running = true) : ¬(s.dev = .safeBoot ∨ s.dev = .load ∨ s.dev = .train) := by
  unfold running at h
  revert h
  cases s.dev <;> decide

theorem not_off_of_running {s : State} (h : s.running = true) : s.dev ≠ .off := by
  unfold running at h
  revert h
  cases s.dev <;> decide

theorem not_stopped_of_running {s : State} (h : s.running = true) : s.stopped = false := by
  unfold running at h
  unfold stopped
  revert h
  cases s.dev <;> decide

theorem mainWrite_early {s : State} (h : s.dev = .safeBoot ∨ s.dev = .load ∨ s.dev = .train) (u : State) :
    s.mainWrite u = s.bump Reg.ID_CTRLSTAT_EARLYCNT := by
  rcases h with h | h | h <;> simp [mainWrite, running, early, h]

theorem mainWrite_stopped {s : State} (h : s.stopped = true) (u : State) : s.mainWrite u = s.set Reg.ID_CTRLSTAT_UNAVAIL 1 := by
  have hr : s.running = false := Bool.eq_false_iff.2 fun hr => by simp [not_stopped_of_running hr] at h
  have he : s.early = false := by simpa [early, and_assoc] using not_early_of_stopped h
  simp [mainWrite, hr, he, h]

/-! ## One word of a write (R23, R27) -/

theorem flag_false_of_get {s : State} {f : Fld} (h : s.get f = 0) : s.flag f = false := by
  have e : s.regs.fld f = 0 := h
  simp [flag, RegFile.flag, e]

theorem flag_true_of_get {s : State} {f : Fld} (h : s.get f = 1) : s.flag f = true := by
  have e : s.regs.fld f = 1 := h
  simp [flag, RegFile.flag, e]

theorem alwaysOn_iff (a : Nat) : alwaysOn a = true ↔ a < 0x10000 ∨ (0xD0000 ≤ a ∧ a < 0xE0000) := by simp [alwaysOn]

/-- In the stopped states the main logic is not reached. -/
theorem i3cWord_unavail {s : State} {a : Nat} (hs : s.stopped = true) (ha : alwaysOn a = false) (v : Word) :
    s.i3cWord a v = s.set Reg.ID_CTRLSTAT_UNAVAIL 1 := by
  simp [i3cWord, hs, ha]

/-- With the return lanes selected, a live parameter is rejected. -/
theorem i3cWord_rejected {s : State} {a : Nat} (hs : s.running = true) (hl : s.get Reg.ID_CTRLSTAT_LIVESRC = 1)
    (ha : liveParam a = true) (v : Word) : s.i3cWord a v = s.bump Reg.ID_CTRLSTAT_REJCNT := by
  simp [i3cWord, not_stopped_of_running hs, flag_true_of_get hl, ha]

theorem i3cWord_source {s : State} (hs : s.running = true) (hl : s.get Reg.ID_CTRLSTAT_LIVESRC = 0) (a : Nat) (v : Word) :
    s.i3cWord a v = s.sourceWrite a v := by
  simp [i3cWord, not_stopped_of_running hs, flag_false_of_get hl]

/-- The always-on spaces have no RWC field. -/
theorem liveParam_alwaysOn {a : Nat} (ha : alwaysOn a = true) : liveParam a = false := by
  have hspace : regSpace a = regTableID ∨ regSpace a = regTableSP := by
    rcases (alwaysOn_iff a).1 ha with h | h
    · exact .inl (by simp [regSpace, show a / 0x10000 = 0 by omega])
    · exact .inr (by simp [regSpace, show a / 0x10000 = 13 by omega])
  have hrwc : ∀ d, findReg a = some d → d.rwc = 0 := by
    intro d hd
    have hmem := List.mem_of_find?_eq_some hd
    have hID : ∀ d ∈ regTableID, d.rwc = 0 := by decide
    have hSP : ∀ d ∈ regTableSP, d.rwc = 0 := by decide
    rcases hspace with e | e
    · exact hID d (e ▸ hmem)
    · exact hSP d (e ▸ hmem)
  have hne : a ≠ 0x020008 ∧ a ≠ 0x070004 := by
    rcases (alwaysOn_iff a).1 ha with h | h <;> omega
  unfold liveParam
  cases hd : findReg a with
  | none => simp [hne]
  | some d => simp [hne, hrwc d hd]

theorem sourceWrite_outside (s : State) {a : Nat} (h : a < 0x020000 ∨ 0x030000 ≤ a) (v : Word) :
    s.sourceWrite a v = s.regWrite a v := by
  unfold sourceWrite
  rw [if_neg]
  omega

/-- A write to an always-on space that reaches its register does so from either live-parameter source. -/
theorem i3cWord_alwaysOn (s : State) {a : Nat} (ha : alwaysOn a = true) (v : Word) : s.i3cWord a v = s.regWrite a v := by
  have hout : a < 0x020000 ∨ 0x030000 ≤ a := by
    rcases (alwaysOn_iff a).1 ha with h | h <;> omega
  simp [i3cWord, ha, liveParam_alwaysOn ha, sourceWrite_outside s hout]

/-! ## Plain registers (R8, R9) -/

/-- What a plain store of `v` makes of the word at `a`: RW and RWC bits take it, W1C bits clear where it is 1 and hardware has not
set them in the cycle. -/
def storedWord (s : State) (d : RegDef) (a : Nat) (v : Word) : Word :=
  ((s.regs.word a &&& ~~~BitVec.ofNat 32 (d.rw + d.rwc)) ||| (v &&& BitVec.ofNat 32 (d.rw + d.rwc))) &&&
    ~~~(v &&& BitVec.ofNat 32 d.w1c &&& ~~~BitVec.ofNat 32 (hotMask s.hot a))

theorem regStore_eq {a : Nat} {d : RegDef} (h : findReg a = some d) (s : State) (v : Word) :
    s.regStore a v = { s with regs := s.regs.put a (s.storedWord d a v) } := by
  unfold regStore
  rw [h]
  rfl

/-- A register without RW, RWC and W1C bits takes no store. -/
theorem storedWord_readOnly {d : RegDef} (hrw : d.rw = 0) (hrwc : d.rwc = 0) (hw1c : d.w1c = 0) (s : State) (a : Nat) (v : Word) :
    s.storedWord d a v = s.regs.word a := by
  simp only [storedWord, hrw, hrwc, hw1c, Nat.add_zero, BitVec.not_zero, BitVec.and_zero, BitVec.zero_and,
    BitVec.or_zero, BitVec.and_allOnes]

theorem regWrite_mapped {a : Nat} {d : RegDef} (h : findReg a = some d) (ha : a % 4 = 0) (s : State) (v : Word) :
    s.regWrite a v = s.hookedStore a v false := by
  simp [regWrite, h, ha]

theorem clampFields_other (s : State) {a : Nat} (h : a < 0x01010C ∨ (0x01010C < a ∧ a < 0x0A2040) ∨ 0x0C0004 < a) :
    s.clampFields a = s := by
  unfold clampFields
  rw [if_neg (by omega), if_neg (by omega), if_neg (by omega), if_neg (by omega)]

/-- The registers of the exposure, readout and tracking spaces are plain, but for their commands. -/
theorem hookedStore_plain (s : State) {a : Nat} (hlo : 0x020000 ≤ a) (hhi : a < 0x050000) (hc : isCommand a = false) (v : Word)
    (cfg : Bool) : s.hookedStore a v cfg = s.regStore a v := by
  unfold hookedStore
  rw [if_neg (by simp [hc]), if_neg (by omega), if_neg (by omega), if_neg (by omega), if_neg (by omega), if_neg (by omega),
    if_neg (by omega), if_neg (by omega), if_neg (by omega), if_neg (by omega), clampFields_other _ (by omega)]

theorem isCommand_alwaysOn {a : Nat} (ha : alwaysOn a = true) : isCommand a = false := by
  rcases (alwaysOn_iff a).1 ha with h | h <;> simp [isCommand] <;> omega

/-- The registers of the always-on spaces are plain; a write of ID_IBISRC also forgets which of the cleared sources were
signalled. -/
theorem hookedStore_alwaysOn (s : State) {a : Nat} (ha : alwaysOn a = true) (v : Word) (cfg : Bool) :
    ∃ n, s.hookedStore a v cfg = { s.regStore a v with ctl := { (s.regStore a v).ctl with ibiDone := n } } := by
  have ha' := (alwaysOn_iff a).1 ha
  unfold hookedStore
  rw [if_neg (by simp [isCommand_alwaysOn ha]), if_neg (by omega), if_neg (by omega), if_neg (by omega), if_neg (by omega),
    if_neg (by omega), if_neg (by omega), if_neg (by omega), if_neg (by omega)]
  by_cases h : a = 0x000044
  · rw [if_pos h]
    exact ⟨_, rfl⟩
  · rw [if_neg h, clampFields_other _ (by omega)]
    exact ⟨(s.regStore a v).ctl.ibiDone, rfl⟩

end State

/-! ## The commands that are writes of the main logic (R25, R27) -/

theorem State.liveWrite_i3c {s : State} (h : s.get Reg.ID_CTRLSTAT_LIVESRC = 0) (u : State) : s.liveWrite u = s.mainWrite u := by
  simp [State.liveWrite, State.flag_false_of_get h]

theorem guarded_mainWrite {p : Prop} [Decidable p] (h : decide p = true) (s u : State) :
    ∃ w, ok (if p then s.mainWrite u else s) = .next (s.mainWrite w) :=
  ⟨u, congrArg _ (if_pos (of_decide_eq_true h))⟩

/-- Each command that is an I3C write of the main logic is `mainWrite` of its effect. -/
theorem exec_mainWrite {c : Instr} {s : State}
    (h : writesMain c = true ∨ (s.get Reg.ID_CTRLSTAT_LIVESRC = 0 ∧ (c = .captureCommit ∨ c = .stage2Commit))) :
    ∃ u, exec c s = .next (s.mainWrite u) := by
  rcases h with h | ⟨hl, rfl | rfl⟩
  · cases c with
    | tbCfgWrite n v => exact guarded_mainWrite h s _
    | slotArm n v => exact guarded_mainWrite h s _
    | slotDisarm n v => exact guarded_mainWrite h s _
    | filterConfigWrite n dec v => exact guarded_mainWrite h s _
    | groupEnable g => exact guarded_mainWrite h s _
    | groupDisable g => exact guarded_mainWrite h s _
    | groupRetire g => exact guarded_mainWrite h s _
    | prbsTxStart g => exact guarded_mainWrite h s _
    | prbsTxStop g => exact guarded_mainWrite h s _
    | prbsRtStart g => exact guarded_mainWrite h s _
    | prbsRtStop g => exact guarded_mainWrite h s _
    | senseEnable u v => exact guarded_mainWrite h s _
    | senseDisable u v => exact guarded_mainWrite h s _
    | eyeScanStart v => exact ⟨_, rfl⟩
    | otpRead ws => exact ⟨_, rfl⟩
    | sleep => exact ⟨_, rfl⟩
    | wake => exact ⟨_, rfl⟩
    | ringFreeze => exact ⟨_, rfl⟩
    | ringRelease => exact ⟨_, rfl⟩
    | recallSubmit vc => exact ⟨_, rfl⟩
    | zeroCalStart v => exact ⟨_, rfl⟩
    | darkStart => exact ⟨_, rfl⟩
    | darkAbort => exact ⟨_, rfl⟩
    | ceTestSet v => exact ⟨_, rfl⟩
    | ceDataWrite v => exact ⟨_, rfl⟩
    | ceValWrite n v => exact ⟨_, rfl⟩
    | _ => exact nomatch h
  · exact ⟨_, congrArg _ (State.liveWrite_i3c hl _)⟩
  · exact ⟨_, congrArg _ (State.liveWrite_i3c hl _)⟩

/-! ## Register writes -/

theorem exec_registerWrite_early {s : State} (h : s.dev = .safeBoot ∨ s.dev = .load ∨ s.dev = .train) (a : Nat) (v : Word) :
    exec (.registerWrite a v) s = .next (s.bump Reg.ID_CTRLSTAT_EARLYCNT) := by
  have hoff : s.dev ≠ .off := by rcases h with h | h | h <;> simp [h]
  simp [exec, execRegisterWrite, ok, hoff, h]

theorem exec_registerWrite_i3cWord {s : State} (hoff : s.dev ≠ .off)
    (hearly : ¬(s.dev = .safeBoot ∨ s.dev = .load ∨ s.dev = .train)) (a : Nat) (v : Word) :
    exec (.registerWrite a v) s = .next (s.i3cWord a v) := by
  simp [exec, execRegisterWrite, ok, hoff, hearly]

theorem exec_registerWrite_stopped {s : State} (h : s.stopped = true) (a : Nat) (v : Word) :
    exec (.registerWrite a v) s = .next (s.i3cWord a v) :=
  exec_registerWrite_i3cWord (State.not_off_of_stopped h) (State.not_early_of_stopped h) a v

theorem exec_registerWrite_running {s : State} (h : s.running = true) (a : Nat) (v : Word) :
    exec (.registerWrite a v) s = .next (s.i3cWord a v) :=
  exec_registerWrite_i3cWord (State.not_off_of_running h) (State.not_early_of_running h) a v

/-- A transfer that writes one word, and that no discard falls into, is the register write of that word. -/
theorem exec_i3cPrivateWrite_word {a : Nat} {s : State} (ha : a < 2 ^ 24) (h4 : a % 4 = 0) (hoff : s.dev ≠ .off)
    (hcut : s.cutShort 7 = false) (v : Word) :
    exec (.i3cPrivateWrite (leBytes 3 a ++ leBytes 4 v.toNat) true) s = exec (.registerWrite a v) s := by
  have hdrop : (leBytes 3 a ++ leBytes 4 v.toNat).drop 3 = leBytes 4 v.toNat := List.drop_left' (leBytes_length 3 a)
  have hempty : (leBytes 4 v.toNat).isEmpty = false := by simp [leBytes_succ]
  by_cases he : s.dev = .safeBoot ∨ s.dev = .load ∨ s.dev = .train
  · rw [exec_registerWrite_early he]
    simp [exec, execI3cPrivateWrite, State.busUp, ok, hoff, leAt_address ha, hdrop, leBytes_length, h4, hcut, hempty, he]
  · rw [exec_registerWrite_i3cWord hoff he]
    simp [exec, execI3cPrivateWrite, State.busUp, ok, hoff, leAt_address ha, hdrop, leBytes_length, h4, hcut, hempty, he,
      State.wordsOf_leBytes, State.i3cWords]

/-- A register write of an always-on space leaves what a plain store leaves, and at most forgets interrupt sources. -/
theorem i3cWord_alwaysOn_stores {a : Nat} {d : RegDef} (s : State) (hd : findReg a = some d) (h4 : a % 4 = 0)
    (ha : alwaysOn a = true) (v : Word) :
    ∃ n, s.i3cWord a v = { s with regs := s.regs.put a (s.storedWord d a v), ctl := { s.ctl with ibiDone := n } } := by
  obtain ⟨n, hn⟩ := State.hookedStore_alwaysOn s ha v false
  refine ⟨n, ?_⟩
  rw [State.i3cWord_alwaysOn s ha, State.regWrite_mapped hd h4, hn, State.regStore_eq hd]

/-- The registers of the safety settings take no store of any bit (R404). -/
theorem splAddrs_readOnly {a : Nat} (h : a ∈ splAddrs) :
    ∃ d, findReg a = some d ∧ d.rw = 0 ∧ d.rwc = 0 ∧ d.w1c = 0 ∧ a % 4 = 0 ∧ alwaysOn a = true ∧
      a ≠ Reg.ID_CTRLSTAT_EARLYCNT.addr 0 0 := by
  have all : ∀ a ∈ splAddrs, (findReg a).any (fun d => d.rw == 0 && d.rwc == 0 && d.w1c == 0) = true ∧ a % 4 = 0 ∧
      alwaysOn a = true ∧ a ≠ Reg.ID_CTRLSTAT_EARLYCNT.addr 0 0 := by decide
  obtain ⟨hd, hrest⟩ := all a h
  cases e : findReg a with
  | none => simp [e] at hd
  | some d =>
    rw [e] at hd
    simp only [Option.any_some, Bool.and_eq_true, beq_iff_eq] at hd
    obtain ⟨⟨hrw, hrwc⟩, hw1c⟩ := hd
    exact ⟨d, rfl, hrw, hrwc, hw1c, hrest⟩

/-- No register write changes a register of the safety settings. -/
theorem exec_registerWrite_spl {a : Nat} (h : a ∈ splAddrs) (v : Word) (s : State) :
    ∃ t, exec (.registerWrite a v) s = .next t ∧ t.regs.word a = s.regs.word a := by
  obtain ⟨d, hd, hrw, hrwc, hw1c, h4, ha, hne⟩ := splAddrs_readOnly h
  by_cases hoff : s.dev = .off
  · exact ⟨s, by simp [exec, execRegisterWrite, ok, hoff], rfl⟩
  by_cases he : s.dev = .safeBoot ∨ s.dev = .load ∨ s.dev = .train
  · exact ⟨_, exec_registerWrite_early he a v, State.bump_word_ne s _ hne⟩
  · obtain ⟨n, hn⟩ := i3cWord_alwaysOn_stores s hd h4 ha v
    refine ⟨_, exec_registerWrite_i3cWord hoff he a v, ?_⟩
    rw [hn, RegFile.word_put, if_pos rfl, State.storedWord_readOnly hrw hrwc hw1c]

/-- With I3C as the live source, a write to a plain register of the exposure, readout and tracking spaces stores its word, and
notes one of the exposure space for the local loop (R122). -/
theorem sourceWrite_plain {a : Nat} {d : RegDef} (s : State) (hd : findReg a = some d) (h4 : a % 4 = 0) (hlo : 0x020000 ≤ a)
    (hhi : a < 0x050000) (hc : State.isCommand a = false) (v : Word) :
    s.sourceWrite a v = { s with
      regs := s.regs.put a (s.storedWord d a v)
      expo := { s.expo with exWritten := if a < 0x030000 then true else s.expo.exWritten } } := by
  have hne : a ≠ 0x020008 := by rintro rfl; exact absurd hc (by decide)
  rw [State.sourceWrite, State.regWrite_mapped hd h4, State.hookedStore_plain s hlo hhi hc, State.regStore_eq hd]
  by_cases hex : a < 0x030000
  · rw [if_pos ⟨by simp [hd], hlo, hex, hne⟩, if_pos hex]
  · rw [if_neg (fun h => hex h.2.2.1), if_neg hex]

/-- Settles O56, clause by clause. -/
theorem registerWrites : Obligations.RegisterWrites := by
  have kept (s : State) (a : Nat) (v : Word) : s.regsKeptBut { s with regs := s.regs.put a v } [wholeWord a] :=
    State.regsKeptBut_put s a v (List.mem_singleton_self _)
  refine ⟨fun a v s ha h4 hoff hcut => exec_i3cPrivateWrite_word ha h4 hoff hcut v, ?_, ?_, ?_, ?_, ?_, ?_, ?_, ?_⟩
  · intro a v s h
    exact ⟨_, exec_registerWrite_early h a v, State.bump_counts s _ rfl (by decide) rfl⟩
  · intro a v s h hlo hout
    have ha : alwaysOn a = false := by
      rw [Bool.eq_false_iff, ne_eq, State.alwaysOn_iff]
      omega
    rw [exec_registerWrite_stopped h, State.i3cWord_unavail h ha]
    exact ⟨_, rfl, State.set_unavail s⟩
  · intro c s hc h
    obtain ⟨u, hu⟩ := exec_mainWrite hc
    rw [hu, State.mainWrite_early h]
    exact ⟨_, rfl, State.bump_counts s _ rfl (by decide) rfl⟩
  · intro c s hc h
    obtain ⟨u, hu⟩ := exec_mainWrite hc
    rw [hu, State.mainWrite_stopped h]
    exact ⟨_, rfl, State.set_unavail s⟩
  · intro a v s h hl ha
    rw [exec_registerWrite_running h, State.i3cWord_rejected h hl ha]
    exact ⟨_, rfl, State.bump_counts s _ rfl (by decide) rfl⟩
  · intro a v d s h hl hd h4 hlo hhi hc
    rw [exec_registerWrite_running h, State.i3cWord_source h hl, sourceWrite_plain s hd h4 hlo hhi hc]
    exact ⟨_, rfl, by rw [RegFile.word_put, if_pos rfl, State.storedWord], fun hex => if_pos hex, rfl, kept s a _⟩
  · intro a v d s h hd h4 ha
    obtain ⟨n, hn⟩ := i3cWord_alwaysOn_stores s hd h4 ((State.alwaysOn_iff a).2 ha) v
    rw [exec_registerWrite_stopped h, hn]
    exact ⟨_, rfl, by rw [RegFile.word_put, if_pos rfl, State.storedWord], rfl, kept s a _⟩
  · intro a v s ha
    obtain ⟨t, ht, hw⟩ := exec_registerWrite_spl ha v s
    exact ⟨t, ht, by rw [hw]⟩

end Sys2Proof.Machine
end

section
/-! PROOFS. What a read over I3C sends besides its words (01_architecture.md R26, 16_boot_and_configuration.md R451). -/
namespace Sys2Proof.Machine

open Host (Outcome)

namespace State

/-! ## What a read of PM_OTHER does on the preview port (R336, R399) -/

/-- A running clock lane that goes to the stop state is seen on the port. -/
theorem pvClock_stop_out {s : State} (h : s.cis.pvClk = true) : (s.pvClock false).out = .csiClock false :: s.out := by
  unfold pvClock
  rw [if_neg (by simp [h])]
  rfl

/-- PD_PV reads as off once it is switched off. -/
theorem domSet_off_pv (s : State) : hasBit ((s.domSet 4 false).get Reg.PM_OTHER_ON) 4 = false := by
  rw [domSet, get_set_same _ _ _ _ _ (by decide)]
  simp only [hasBit, bitOf, withoutBit, Reg.PM_OTHER_ON, Bool.false_eq_true, if_false, beq_eq_false_iff_ne, beq_iff_eq]
  split <;> omega

/-- The preview port is switched off with no frame open: its clock lane stops. -/
theorem previewPort_off_out {s : State} (hon : hasBit (s.get Reg.PM_OTHER_ON) 4 = true) (hopen : s.s2.any pvOpen = false)
    (hclk : s.cis.pvClk = true) : (s.previewPort false).out = .csiClock false :: s.out := by
  have hopen' : (s.domSet 4 false).s2.any pvOpen = false := hopen
  unfold previewPort
  rw [if_neg (by simp [hon])]
  simp only [hopen', pvIdle, domSet_off_pv, Bool.and_false, Bool.false_eq_true, if_false]
  exact pvClock_stop_out (s := s.domSet 4 false) hclk

/-- PM_OTHER is brought up to date by its read, and with it the preview port. -/
theorem i3cRead_pmOther {s : State} (h : s.stopped = false) : (s.i3cRead 0x0C1038 1).1 = s.refreshDomains := by
  have hmapped : (findReg 0x0C1038).isNone = false := by decide
  simp [i3cRead, busRead, h, hmapped]

end State

/-- A transfer that reads sends its bytes after what the reads of its registers have sent. -/
theorem execI3cPrivateRead_out {s t : State} {n : Nat} (hoff : s.dev ≠ .off) (h : execI3cPrivateRead n s = .next t) :
    t.out = .i3c (s.i3cRead s.ctl.readPtr (min n 256)).2 :: (s.i3cRead s.ctl.readPtr (min n 256)).1.out := by
  unfold execI3cPrivateRead at h
  rw [if_neg (by simp [State.busUp, hoff])] at h
  exact Outcome.next.inj h ▸ rfl

/-- A part in RUN that shows PD_PV as on, with the clock lane of its preview port running, while the preview is not enabled; the
read pointer is at PM_OTHER. -/
def previewPortLeftOn : State :=
  { State.reset with
    dev := .run
    pllMain := true
    regs := [(0x0C1038, 0x100#32)]
    cis := { State.reset.cis with pvClk := true }
    ctl := { State.reset.ctl with readPtr := 0x0C1038 } }

/-- The read of PM_OTHER switches the port off and stops its clock lane. -/
theorem previewPortLeftOn_refreshDomains_out : previewPortLeftOn.refreshDomains.out = [.csiClock false] := by
  have hoff : previewPortLeftOn.domainOn 4 = false := by decide
  have h := State.previewPort_off_out (s := previewPortLeftOn) (by decide) (by decide) rfl
  rw [← hoff] at h
  exact h

/-- Refutes O57: its third clause has a read send its bytes and nothing else, from any state; a read of PM_OTHER with the preview
port to be switched off stops the port's clock lane as well. -/
theorem not_transfersAndReads : ¬ Obligations.TransfersAndReads := by
  intro h
  obtain ⟨-, -, hread, -⟩ := h
  have hoff : previewPortLeftOn.dev ≠ .off := by decide
  obtain ⟨t, bs, ht, hout, -⟩ := hread 1 previewPortLeftOn hoff
  have hsent := execI3cPrivateRead_out (n := 1) hoff ht
  have hregs : (previewPortLeftOn.i3cRead 0x0C1038 1).1.out = [.csiClock false] := by
    rw [State.i3cRead_pmOther (by decide), previewPortLeftOn_refreshDomains_out]
  have hclock : [] = (previewPortLeftOn.i3cRead 0x0C1038 1).1.out := (List.cons.inj (hout.symm.trans hsent)).2
  rw [hregs] at hclock
  exact absurd hclock (by decide)

end Sys2Proof.Machine
end
